-- ==== Sys2Proof/Word.lean ====
section
/-!
DEFINITION. The word types of the device (spec 00 R6, 01 R10) and their plainest views.
-/
namespace Sys2Proof

/-- A byte of memory. -/
abbrev Byte := BitVec 8
/-- An s register, an address, a system register. -/
abbrev Word := BitVec 64
/-- A vector register (01 R13). -/
abbrev VReg := BitVec 2048
/-- A predicate register: bit i governs byte lane i (01 R10). -/
abbrev Pred := BitVec 256
/-- An accumulator tile: element (i, j) in bits [512 i + 32 j + 31 : 512 i + 32 j] (01 R15). -/
abbrev Tile := BitVec 8192
/-- A message: header in bytes 0 to 7, arguments in bytes 8 to 63 (10 R183). -/
abbrev MsgBits := BitVec 512

end Sys2Proof
end

