-- ==== Sys2Proof/Syntax.lean ====
section
/-!
DEFINITION. The syntax of the machine: operand records, and `Instr` with one constructor per row of
spec/opcode_table.json (instructions of 02 R38 and R34, and the device's events of 95). Register numbers and
immediates keep the width of their encoding field; c.vty prefixes are carried by the instruction they prefix (02 R36).
-/
namespace Sys2Proof

/-- Element types of 02 R35. `b8 p u f`: binary8 with precision `p + 1`, unsigned when `u`, finite when `f`. -/
inductive Ty where
  | i8 | i16 | i32 | i64 | w8 | w16 | w32 | w64 | f32 | h16 | bf16 | q16 | sc8
  | b8 (p : Fin 7) (u f : Bool)
deriving DecidableEq, Repr

/-- The two types of a c.vty prefix (02 R36). -/
structure Pre where
  t1 : Ty
  t2 : Ty
deriving DecidableEq, Repr

/-- A strand: core number and context (01 R9). -/
structure StrandId where
  core : Nat
  ctx : Nat
deriving DecidableEq, Repr

/-- A register a result is delivered to (02 R42). -/
inductive Reg where
  | s (n : BitVec 4)
  | f (n : BitVec 3)
  | p (n : BitVec 3)
  | v (n : BitVec 5)
deriving DecidableEq, Repr

/-- The firmware image as die 0 receives it, and the places its firmware gives its tables (24 R392). -/
structure BootImage where
  bytes : List Byte
  trapBase : List Word
  lawTab : Word
  crBase : Word
  entry : Word
  runtime : List Byte
deriving DecidableEq, Repr

/-- An access that reaches this device from the host die or from a peer device (22 R368, R377). -/
inductive ExtAccess where
  | load (addr : Nat) (n : Nat)
  | store (addr : Nat) (data : List Byte)
  | atomic (op : BitVec 5) (n : Nat) (addr : Nat) (v cmp : Word)
deriving DecidableEq, Repr

/-- A message that arrives from a peer device (22 R377): the device, its bits, the core it goes to, the context and
generation that it is bound to, and the reason when it is one of this device's own that was diverted there. -/
structure PeerMessage where
  dev : Nat
  bits : MsgBits
  core : Nat
  bound : Option (BitVec 4 × BitVec 8)
  diverted : Option (BitVec 4)
deriving DecidableEq, Repr

/-- A contribution of another device to a collective group (22 R380): its fields, and its bytes when they could be
read. -/
structure PeerPart where
  dev : Nat
  group : Nat
  op : Nat
  fmt : Nat
  len : Nat
  data : Option (List Byte)
deriving DecidableEq, Repr

/-- Operands: destination and two sources. -/
structure R3 where
  d : BitVec 4
  a : BitVec 4
  b : BitVec 4
  sc : BitVec 2
deriving DecidableEq, Repr

/-- Operands: destination and one source. -/
structure R2 where
  d : BitVec 4
  a : BitVec 4
  sc : BitVec 2
deriving DecidableEq, Repr

/-- Operands: destination, source and 12-bit immediate. -/
structure RI where
  d : BitVec 4
  a : BitVec 4
  imm : BitVec 12
  sc : BitVec 2
deriving DecidableEq, Repr

/-- Operands: shift by a 6-bit count. -/
structure RSh6 where
  d : BitVec 4
  a : BitVec 4
  sh : BitVec 6
  sc : BitVec 2
deriving DecidableEq, Repr

/-- Operands: shift by a 5-bit count. -/
structure RSh5 where
  d : BitVec 4
  a : BitVec 4
  sh : BitVec 5
  sc : BitVec 2
deriving DecidableEq, Repr

/-- Operands: 19-bit upper immediate. -/
structure RU where
  d : BitVec 4
  u : BitVec 19
  sc : BitVec 2
deriving DecidableEq, Repr

/-- Operands: branch: sources, hint and halfword offset. -/
structure Br where
  a : BitVec 4
  b : BitVec 4
  hint : BitVec 1
  off : BitVec 12
  sc : BitVec 2
deriving DecidableEq, Repr

/-- Operands: jump: link register and halfword offset. -/
structure Jl where
  d : BitVec 4
  off : BitVec 20
  sc : BitVec 2
deriving DecidableEq, Repr

/-- Operands: scalar access: register, base and byte offset. -/
structure Mem where
  t : BitVec 4
  a : BitVec 4
  off : BitVec 12
  sc : BitVec 2
deriving DecidableEq, Repr

/-- Operands: f-register access: register, base and byte offset. -/
structure MemF where
  t : BitVec 3
  a : BitVec 4
  off : BitVec 12
  sc : BitVec 2
deriving DecidableEq, Repr

/-- Operands: atomic: size, order and scope. -/
structure At where
  d : BitVec 4
  a : BitVec 4
  b : BitVec 4
  size : BitVec 1
  ord : BitVec 2
  scope : BitVec 3
  sc : BitVec 2
deriving DecidableEq, Repr

/-- Operands: ordered load. -/
structure AtL where
  d : BitVec 4
  a : BitVec 4
  size : BitVec 1
  ord : BitVec 2
  scope : BitVec 3
  sc : BitVec 2
deriving DecidableEq, Repr

/-- Operands: ordered store. -/
structure AtS where
  a : BitVec 4
  b : BitVec 4
  size : BitVec 1
  ord : BitVec 2
  scope : BitVec 3
  sc : BitVec 2
deriving DecidableEq, Repr

/-- Operands: fence scope and sets. -/
structure Fe where
  scope : BitVec 3
  sets : BitVec 4
  sc : BitVec 2
deriving DecidableEq, Repr

/-- Operands: no operand. -/
structure R0 where
  sc : BitVec 2
deriving DecidableEq, Repr

/-- Operands: three f registers and a format. -/
structure F3 where
  d : BitVec 3
  a : BitVec 3
  b : BitVec 3
  fmt : BitVec 2
  sc : BitVec 2
deriving DecidableEq, Repr

/-- Operands: two f registers and a format. -/
structure F2 where
  d : BitVec 3
  a : BitVec 3
  fmt : BitVec 2
  sc : BitVec 2
deriving DecidableEq, Repr

/-- Operands: compare of f registers into an s register. -/
structure FC where
  d : BitVec 4
  a : BitVec 3
  b : BitVec 3
  fmt : BitVec 2
  sc : BitVec 2
deriving DecidableEq, Repr

/-- Operands: floating to integer. -/
structure FToI where
  d : BitVec 4
  a : BitVec 3
  fmt : BitVec 2
  sat : BitVec 1
  whole : BitVec 1
  wide : BitVec 1
  sc : BitVec 2
deriving DecidableEq, Repr

/-- Operands: integer to floating. -/
structure IToF where
  d : BitVec 3
  a : BitVec 4
  fmt : BitVec 2
  whole : BitVec 1
  wide : BitVec 1
  sc : BitVec 2
deriving DecidableEq, Repr

/-- Operands: floating to floating. -/
structure FCv where
  d : BitVec 3
  a : BitVec 3
  fmt : BitVec 2
  src : BitVec 2
  sc : BitVec 2
deriving DecidableEq, Repr

/-- Operands: f register to s register. -/
structure MvS where
  d : BitVec 4
  a : BitVec 3
  sc : BitVec 2
deriving DecidableEq, Repr

/-- Operands: s register to f register. -/
structure MvF where
  d : BitVec 3
  a : BitVec 4
  sc : BitVec 2
deriving DecidableEq, Repr

/-- Operands: vector, two sources. -/
structure V2 where
  pre : Option Pre
  p : BitVec 3
  hb : BitVec 1
  b : BitVec 5
  ha : BitVec 1
  a : BitVec 5
  d : BitVec 5
  sc : BitVec 2
deriving DecidableEq, Repr

/-- Operands: vector, one source. -/
structure V1 where
  pre : Option Pre
  p : BitVec 3
  ha : BitVec 1
  a : BitVec 5
  d : BitVec 5
  sc : BitVec 2
deriving DecidableEq, Repr

/-- Operands: vector floating with flush bits. -/
structure VF3 where
  pre : Option Pre
  zo : BitVec 1
  zi : BitVec 1
  p : BitVec 3
  hb : BitVec 1
  b : BitVec 5
  ha : BitVec 1
  a : BitVec 5
  d : BitVec 5
  sc : BitVec 2
deriving DecidableEq, Repr

/-- Operands: vector conversion with a part number. -/
structure VP where
  pre : Option Pre
  p : BitVec 3
  part : BitVec 5
  ha : BitVec 1
  a : BitVec 5
  d : BitVec 5
  sc : BitVec 2
deriving DecidableEq, Repr

/-- Operands: vector destination and s register. -/
structure VSD where
  pre : Option Pre
  p : BitVec 3
  s : BitVec 4
  d : BitVec 5
  sc : BitVec 2
deriving DecidableEq, Repr

/-- Operands: vector source and s register. -/
structure VSA where
  pre : Option Pre
  p : BitVec 3
  s : BitVec 4
  ha : BitVec 1
  a : BitVec 5
  sc : BitVec 2
deriving DecidableEq, Repr

/-- Operands: vector destination, vector source and s register. -/
structure VXS where
  pre : Option Pre
  p : BitVec 3
  s : BitVec 4
  ha : BitVec 1
  a : BitVec 5
  d : BitVec 5
  sc : BitVec 2
deriving DecidableEq, Repr

/-- Operands: predicate load. -/
structure PLd where
  pre : Option Pre
  s : BitVec 4
  d : BitVec 3
  sc : BitVec 2
deriving DecidableEq, Repr

/-- Operands: predicate store. -/
structure PSt where
  pre : Option Pre
  s : BitVec 4
  a : BitVec 3
  sc : BitVec 2
deriving DecidableEq, Repr

/-- Operands: vector destination, vector source and f register. -/
structure VXF where
  pre : Option Pre
  p : BitVec 3
  s : BitVec 3
  ha : BitVec 1
  a : BitVec 5
  d : BitVec 5
  sc : BitVec 2
deriving DecidableEq, Repr

/-- Operands: vector destination and f register. -/
structure VFD where
  pre : Option Pre
  p : BitVec 3
  s : BitVec 3
  d : BitVec 5
  sc : BitVec 2
deriving DecidableEq, Repr

/-- Operands: vector element to s register. -/
structure VE where
  pre : Option Pre
  s : BitVec 4
  ha : BitVec 1
  a : BitVec 5
  sc : BitVec 2
deriving DecidableEq, Repr

/-- Operands: vector compare into a predicate. -/
structure VC where
  pre : Option Pre
  p : BitVec 3
  hb : BitVec 1
  b : BitVec 5
  ha : BitVec 1
  a : BitVec 5
  d : BitVec 3
  sc : BitVec 2
deriving DecidableEq, Repr

/-- Operands: three predicates. -/
structure P3 where
  pre : Option Pre
  b : BitVec 3
  a : BitVec 3
  d : BitVec 3
  sc : BitVec 2
deriving DecidableEq, Repr

/-- Operands: two predicates. -/
structure P2 where
  pre : Option Pre
  a : BitVec 3
  d : BitVec 3
  sc : BitVec 2
deriving DecidableEq, Repr

/-- Operands: timed clear. -/
structure TC where
  d : BitVec 4
  a : BitVec 4
  clr : BitVec 3
  sc : BitVec 2
deriving DecidableEq, Repr

/-- Operands: timed vector form. -/
structure TV where
  v : BitVec 5
  a : BitVec 4
  b : BitVec 4
  p : BitVec 3
  sc : BitVec 2
deriving DecidableEq, Repr

/-- Operands: matrix operands. -/
structure Mma where
  b : BitVec 4
  a : BitVec 4
  fs : BitVec 3
  q : BitVec 3
  ac : BitVec 2
  fa : BitVec 3
  fb : BitVec 3
  acc : BitVec 2
  sc : BitVec 2
deriving DecidableEq, Repr

/-- Operands: row shape. -/
structure Row where
  d : BitVec 4
  shape : BitVec 1
  sc : BitVec 2
deriving DecidableEq, Repr

/-- Operands: accumulator quarter and vector register. -/
structure Acc where
  v : BitVec 5
  acc : BitVec 2
  g : BitVec 2
  sc : BitVec 2
deriving DecidableEq, Repr

/-- Operands: accumulator mask. -/
structure Az where
  mask : BitVec 4
  sc : BitVec 2
deriving DecidableEq, Repr

/-- Operands: tile predicate written from an s register. -/
structure QA where
  d : BitVec 3
  a : BitVec 4
  sc : BitVec 2
deriving DecidableEq, Repr

/-- Operands: tile predicate read into an s register. -/
structure QD where
  d : BitVec 4
  a : BitVec 3
  sc : BitVec 2
deriving DecidableEq, Repr

/-- Operands: cursor advance. -/
structure QN where
  d : BitVec 3
  n : BitVec 4
  sc : BitVec 2
deriving DecidableEq, Repr

/-- Operands: attention score. -/
structure ASc where
  b : BitVec 3
  a : BitVec 3
  fs : BitVec 3
  hd : BitVec 1
  f : BitVec 3
  acc : BitVec 2
  sc : BitVec 2
deriving DecidableEq, Repr

/-- Operands: attention softmax. -/
structure ASo where
  a : BitVec 3
  acc : BitVec 2
  sc : BitVec 2
deriving DecidableEq, Repr

/-- Operands: attention value. -/
structure AVa where
  b : BitVec 3
  a : BitVec 3
  fs : BitVec 3
  aw : BitVec 2
  hd : BitVec 1
  f : BitVec 3
  acc : BitVec 2
  sc : BitVec 2
deriving DecidableEq, Repr

/-- Operands: attention mass. -/
structure AMa where
  b : BitVec 3
  a : BitVec 3
  fs : BitVec 3
  acc : BitVec 2
  sc : BitVec 2
deriving DecidableEq, Repr

/-- Operands: attention positions. -/
structure APo where
  b : BitVec 3
  a : BitVec 3
  sc : BitVec 2
deriving DecidableEq, Repr

/-- Operands: shadow register write. -/
structure Cpw where
  a : BitVec 4
  idx : BitVec 8
  sc : BitVec 2
deriving DecidableEq, Repr

/-- Operands: shadow register read. -/
structure Cpr where
  d : BitVec 4
  idx : BitVec 8
  sc : BitVec 2
deriving DecidableEq, Repr

/-- Operands: stream binding. -/
structure Bnd where
  v : BitVec 5
  a : BitVec 4
  k : BitVec 2
  sc : BitVec 2
deriving DecidableEq, Repr

/-- Operands: stream unbinding. -/
structure Unb where
  d : BitVec 4
  k : BitVec 2
  sc : BitVec 2
deriving DecidableEq, Repr

/-- Operands: two sources. -/
structure RAB where
  a : BitVec 4
  b : BitVec 4
  sc : BitVec 2
deriving DecidableEq, Repr

/-- Operands: completion counter wait. -/
structure Ctw where
  d : BitVec 4
  a : BitVec 4
  n : BitVec 4
  sc : BitVec 2
deriving DecidableEq, Repr

/-- Operands: completion counter read. -/
structure Ctr where
  d : BitVec 4
  n : BitVec 4
  sc : BitVec 2
deriving DecidableEq, Repr

/-- Operands: message argument. -/
structure Mrg where
  d : BitVec 4
  k : BitVec 3
  sc : BitVec 2
deriving DecidableEq, Repr

/-- Operands: one source. -/
structure RA where
  a : BitVec 4
  sc : BitVec 2
deriving DecidableEq, Repr

/-- Operands: barrier. -/
structure Brr where
  d : BitVec 4
  a : BitVec 4
  scope : BitVec 2
  sc : BitVec 2
deriving DecidableEq, Repr

/-- Operands: priority class. -/
structure Pri where
  d : BitVec 4
  c : BitVec 2
  sc : BitVec 2
deriving DecidableEq, Repr

/-- Operands: one destination. -/
structure RD where
  d : BitVec 4
  sc : BitVec 2
deriving DecidableEq, Repr

/-- Operands: repeat frame. -/
structure Rpf where
  len : BitVec 4
  sb : BitVec 2
  sa : BitVec 2
  sd : BitVec 2
  cnt : BitVec 6
  sc : BitVec 2
deriving DecidableEq, Repr

/-- Operands: system register access. -/
structure Sys where
  d : BitVec 4
  n : BitVec 12
  sc : BitVec 2
deriving DecidableEq, Repr

/-- Operands: 8-bit code. -/
structure Cd8 where
  code : BitVec 8
  sc : BitVec 2
deriving DecidableEq, Repr

/-- Operands: 12-bit call number. -/
structure N12 where
  n : BitVec 12
  sc : BitVec 2
deriving DecidableEq, Repr

/-- Operands: compact register and 7-bit immediate. -/
structure CI7 where
  d : BitVec 4
  imm : BitVec 7
deriving DecidableEq, Repr

/-- Operands: compact register pair. -/
structure CR2 where
  d : BitVec 4
  a : BitVec 4
deriving DecidableEq, Repr

/-- Operands: compact shift. -/
structure CSh where
  d : BitVec 4
  sh : BitVec 6
deriving DecidableEq, Repr

/-- Operands: compact source register. -/
structure CA where
  a : BitVec 4
deriving DecidableEq, Repr

/-- Operands: compact f register pair. -/
structure CF2 where
  d : BitVec 3
  a : BitVec 3
deriving DecidableEq, Repr

/-- Operands: element-type codes. -/
structure CTy where
  t : BitVec 6
  u : BitVec 5
deriving DecidableEq, Repr

/-- Operands: compact branch. -/
structure CBr where
  a : BitVec 4
  off : BitVec 7
deriving DecidableEq, Repr

/-- Operands: compact jump. -/
structure CGo where
  off : BitVec 11
deriving DecidableEq, Repr

/-- Operands: compact local-store access. -/
structure CLs where
  d : BitVec 4
  off : BitVec 7
deriving DecidableEq, Repr

/-- Operands: compact load. -/
structure CLr where
  d : BitVec 4
  a : BitVec 4
  f : BitVec 3
deriving DecidableEq, Repr

/-- Operands: compact store. -/
structure CSr where
  t : BitVec 4
  a : BitVec 4
  n : BitVec 2
deriving DecidableEq, Repr

/-- Operands: compact vector move. -/
structure CVm where
  a : BitVec 5
  d : BitVec 5
deriving DecidableEq, Repr

/-- One constructor per row of spec/opcode_table.json, in its order. -/
inductive Instr where
  /-- R392. Cold reset clears SRAM and the black box, zeroes the wall tide, resets system registers and starts the boot sequence. -/
  | coldReset
  /-- R392. Warm reset repeats the boot steps but keeps the black-box ring and the fw.bbox frozen bit. -/
  | warmReset
  /-- R392. Die 0 receives the firmware image over the sideband, hashes it and verifies its signature, then firmware places its tables and starts. -/
  | firmwareImage (img : BootImage)
  /-- R115. Every 64 master cycles the device-wide wall tide rises by one. -/
  | wallTick
  /-- R289. A deterministic crew's quantum ends: requests are served, barriers complete, merges run, the logical tide rises, handlers start and parked strands are readied. -/
  | quantumEnd (crew : Nat)
  /-- R136. Every 2^46 wall ticks firmware touches every wall-tide word of every registered timed region. -/
  | rebaseSweep
  /-- R197. Every 1,024 cycles the ferrymaster reads lane occupancy and migrates crew-wide messages from the fullest core to the emptiest. -/
  | ferrymasterScan (die : Nat)
  /-- R384. At each 1,024-cycle window the die arbiter shares the budget allowance and adjusts the cluster throttle patterns. -/
  | arbiterWindow (die drawW : Nat)
  /-- R383. A newly written swallow pattern takes effect for the whole cluster at its next 16-slot boundary. -/
  | swallowBoundary (cluster : Nat)
  /-- R388. A sensor found out of range, stuck or deviant is marked failed, its reading is substituted and the failure is logged. -/
  | sensorFailure (cluster : Nat) (current : Bool)
  /-- R388. A die reading above 105 °C applies throttle pattern 0x0101 until every reading is below 100 °C. -/
  | thermalThrottle (die : Nat) (substituted : Bool)
  /-- R389. A single-bit error is corrected and counted, and more than 64 in one second logs a black-box event. -/
  | correctableError (die : Nat)
  /-- R390. An uncorrectable error aborts the consuming context's launch, or is logged in the black box when nothing consumes it. -/
  | uncorrectableError (die : Nat) (code : BitVec 8) (addr : Word) (consumer : Option StrandId)
  /-- R366. A flit that fails its CRC is replayed by the link retry. -/
  | linkRetry (die : Nat)
  /-- R366. A failed lane of a die link is repaired from the spare lanes without losing a flit. -/
  | laneRepair (die : Nat)
  /-- R366. A die link that can no longer carry traffic is reported as an uncorrectable, device-fatal error. -/
  | linkFailure (die : Nat)
  /-- R377. A peer access unanswered within 1 ms is reported as an uncorrectable error, and its launch is aborted. -/
  | peerTimeout (who : StrandId) (addr : Word)
  /-- R378. The peer home acknowledges a posted write once it has performed it, which releases any domain-scope waits on that write. -/
  | peerWriteAck (k : Nat)
  /-- R186. A message arrives and enters its priority lane at the destination core, stamped with its generation and counted by matching entries. -/
  | messageDelivery (k : Nat) (peer : Option PeerMessage)
  /-- R187. The landing takes the highest lane's candidate and starts its handler when a helper context and a register run are free. -/
  | handlerStart (core : Nat)
  /-- R261. A transfer completes: it counts in its completion counter, decrements its dependence counter, releases its task and frees its slot. -/
  | transferCompletion (core slot : Nat)
  /-- R269. A ring-mode copy waiting on a full ring reserves the freed slot, fills it and commits it. -/
  | copyRingReserve (core slot : Nat)
  /-- R275. A read stream's engine fetches the next step into its four-step buffer, or a write stream performs an emitted step. -/
  | streamFill (core k : Nat)
  /-- R203. A chain instance joins once all eight positions have issued and every slice has room, and the row checks it for mismatch. -/
  | chainJoin (row : Nat)
  /-- R219. The cluster arbiter grants budget to the waiting row with the lowest rowunits. -/
  | budgetGrant (cluster : Nat)
  /-- R216. An mma's slice work ends and its result is delivered to the accumulator. -/
  | mmaDelivery (row : Nat)
  /-- R42. A variable-latency result arrives and releases readers that interlock on it. -/
  | resultDelivery (who : StrandId) (reg : Reg)
  /-- R281. A waiting branch resolves, and the slipway entries either take effect in program order or are discarded. -/
  | slipwayResolve (who : StrandId)
  /-- R372. The dispatcher takes a launch message: it checks it, assigns an event, captures the seed and appends the launch to the stream. -/
  | launchMessage (die : Nat) (host : Option MsgBits)
  /-- R166. When a placement frees or a launch becomes ready, the dispatcher binds jobs by class and stream order. -/
  | dispatch (die : Nat)
  /-- R171. A job retires once its strands have ended and its transfers and final merge are done; remaining messages are diverted and the placement is freed. -/
  | jobRetire (crew : Nat)
  /-- R167. A launch completes: its completion record is written, its event fires and the next launch becomes head. -/
  | launchCompletion (die stream : Nat)
  /-- R363. A stepped strand halts with class 18, code 4, once its step completes. -/
  | stepHalt (who : StrandId)
  /-- R345. The upcall strand starts in context 11 for a held strand's host-owned fault, in fault order. -/
  | upcallStart (core : Nat)
  /-- R342. The page ferry moves a page's ownership between the device and the host. -/
  | pageFlip (toDevice refused : Bool) (root : Word) (va : Word)
  /-- R233. The primary commits one line write to a replicated page by locking all four replicas, then updating them. -/
  | replicaCommit (cluster line : Nat)
  /-- R229. The cluster cache evicts a line and writes only its dirty bytes to the home. -/
  | cacheEviction (cluster line : Nat)
  /-- R334. System call 0x010 registers a timed region with an owner core. -/
  | registerTimedRegion (who : StrandId)
  /-- R334. System call 0x011 withdraws a registered timed region. -/
  | withdrawTimedRegion (who : StrandId)
  /-- R341. Firmware call 0x800 drops one page's translations in every TLB of the device. -/
  | dropPageTranslations (who : StrandId)
  /-- R341. Firmware call 0x801 drops every translation of an ASID. -/
  | dropAsidTranslations (who : StrandId)
  /-- R350. Call 0x802 pre-empts a job: its cores stop, the lighter saves the image, caches write back and the placement is freed. -/
  | preemptJob (who : StrandId)
  /-- R353. The dispatcher rebinds a pre-empted job, and the lighter restores its image before any strand issues. -/
  | rebind (crew : Nat)
  /-- R374. Management request 1 binds a dispatcher stream to a class, an ASID, a table and a save pool. -/
  | bindStream (die stream cls : Nat) (asid : BitVec 16) (root : Word) (pool : List Word) (lstore spad : List Byte)
  /-- R374. Management request 2 unbinds a dispatcher stream. -/
  | unbindStream (die stream : Nat)
  /-- R374. Management request 3 sets the device number, the domain members and their routes. -/
  | setDomain (dev : Nat) (members : List Nat) (routes : List (Nat × Nat))
  /-- R374. Management request 4 defines a collective group. -/
  | defineGroup (group : Nat) (members : BitVec 64) (lead : Nat)
  /-- R374. Management request 5 drops a group, and its pending instances complete with status 2. -/
  | dropGroup (group : Nat)
  /-- R375. Management request 6 reads black-box entries. -/
  | readBlackBox (die first count : Nat)
  /-- R375. Management request 7 sets or lifts an external package power limit. -/
  | externalPowerLimit (watts : Nat)
  /-- R393. Management request 8 returns a signed attestation report over the nonce. -/
  | attestation (nonce : BitVec 256)
  /-- R375. Management request 9 releases assigned event numbers whose launches have completed. -/
  | releaseEvents (die first count : Nat)
  /-- R364. Yelik op 1 holds a crew. -/
  | yelikHold (who : StrandId)
  /-- R364. Yelik op 2 resumes a held crew. -/
  | yelikResume (who : StrandId)
  /-- R363. Yelik op 3 releases one held strand for one instruction. -/
  | yelikStep (who : StrandId)
  /-- R364. Yelik op 4 reads registers, system registers, memory, lanes or chain state of a halted strand. -/
  | yelikRead (who : StrandId) (space : BitVec 8) (addr : Word) (len : Nat)
  /-- R364. Yelik op 5 writes state of a halted strand. -/
  | yelikWrite (who : StrandId) (space : BitVec 8) (addr : Word) (data : List Byte)
  /-- R358. Yelik op 6 sets an instruction breakpoint or a data watchpoint. -/
  | yelikSetBreak (die stream : Nat) (core : Option Nat) (idx : Nat) (value : Word)
  /-- R362. Yelik op 7 reads and drains entries of the die's signal ring. -/
  | yelikReadSignalRing (die len : Nat)
  /-- R356. The runtime attaches a debugger to a dispatcher stream. -/
  | debuggerAttach (die stream : Nat)
  /-- R356. Detaching clears the stream's breakpoints and watchpoints and resumes its held strands. -/
  | debuggerDetach (die stream : Nat)
  /-- R380. The collective engine takes a contribution message and reads its data into instance k of the group. -/
  | collectiveContribution (die : Nat) (peer : Option PeerPart)
  /-- R381. Once all members have contributed, the lead device forms the result, writes it to every member and sends completions. -/
  | collectiveResult (group : Nat)
  /-- R27. A write to ctx.oob stores the value, and writing 0 re-arms the offence record. -/
  | ctxOobWrite (v : Word)
  /-- R20. A write to ctx.mode changes rm and chk for later instructions and ignores pl and det. -/
  | ctxModeWrite (v : Word)
  /-- R383. A sysw of core.swallow writes every copy in the cluster, and a pattern of 0 is stored as 0x0001. -/
  | coreSwallowWrite (v : Word)
  /-- R283. A system-level write of qlog from 8 to 20 changes the quantum at the next quantum end. -/
  | crewQuantumWrite (v : Word)
  /-- R386. A write to dev.plimit drops the reserved bits and clamps the limit to 2,800 W. -/
  | devPlimitWrite (v : Word)
  /-- R386. A write to dev.crbase moves the completion-record table, and is ignored while any launch is incomplete. -/
  | devCrbaseWrite (v : Word)
  /-- R386. Writing 1 to fw.bbox bit 1 clears and unfreezes the black box. -/
  | fwBboxClear
  /-- R72. 64-bit wrapping add. -/
  | add (o : R3)
  /-- R72. 64-bit wrapping subtract. -/
  | sub (o : R3)
  /-- R72. Bitwise and. -/
  | and (o : R3)
  /-- R72. Bitwise or. -/
  | or (o : R3)
  /-- R72. Bitwise exclusive or. -/
  | xor (o : R3)
  /-- R72. Shift left logical by B mod 64. -/
  | sll (o : R3)
  /-- R72. Shift right logical. -/
  | srl (o : R3)
  /-- R72. Shift right arithmetic. -/
  | sra (o : R3)
  /-- R72. Set if less, signed. -/
  | slt (o : R3)
  /-- R72. Set if less, whole. -/
  | sltw (o : R3)
  /-- R72. Set if equal. -/
  | seq (o : R3)
  /-- R72. Set if not equal. -/
  | sne (o : R3)
  /-- R72. Signed minimum. -/
  | min (o : R3)
  /-- R72. Signed maximum. -/
  | max (o : R3)
  /-- R72. Whole minimum. -/
  | minw (o : R3)
  /-- R72. Whole maximum. -/
  | maxw (o : R3)
  /-- R72. Low 64 bits of the product. -/
  | mul (o : R3)
  /-- R72. High 64 bits of the signed product. -/
  | mulh (o : R3)
  /-- R72. High 64 bits of the whole product. -/
  | mulhw (o : R3)
  /-- R73. Signed divide truncating toward zero. -/
  | div (o : R3)
  /-- R73. Whole divide. -/
  | divw (o : R3)
  /-- R73. Signed remainder. -/
  | rem (o : R3)
  /-- R73. Whole remainder. -/
  | remw (o : R3)
  /-- R72. Signed saturating add. -/
  | adds (o : R3)
  /-- R72. Signed saturating subtract. -/
  | subs (o : R3)
  /-- R72. Whole saturating add. -/
  | addsw (o : R3)
  /-- R72. Whole saturating subtract. -/
  | subsw (o : R3)
  /-- R72. 32-bit add, sign-extended. -/
  | add32 (o : R3)
  /-- R72. 32-bit subtract, sign-extended. -/
  | sub32 (o : R3)
  /-- R72. 32-bit shift left, sign-extended. -/
  | sll32 (o : R3)
  /-- R72. 32-bit logical shift right, sign-extended. -/
  | srl32 (o : R3)
  /-- R72. 32-bit arithmetic shift right, sign-extended. -/
  | sra32 (o : R3)
  /-- R72. 32-bit multiply, sign-extended. -/
  | mul32 (o : R3)
  /-- R72. Count leading zero bits. -/
  | clz (o : R2)
  /-- R72. Count trailing zero bits. -/
  | ctz (o : R2)
  /-- R72. Count one bits. -/
  | popc (o : R2)
  /-- R72. Rotate left. -/
  | rol (o : R3)
  /-- R72. Rotate right. -/
  | ror (o : R3)
  /-- R74. Add a sign-extended immediate. -/
  | addi (o : RI)
  /-- R74. And with an immediate. -/
  | andi (o : RI)
  /-- R74. Or with an immediate. -/
  | ori (o : RI)
  /-- R74. Xor with an immediate. -/
  | xori (o : RI)
  /-- R74. Shift left by an immediate count. -/
  | slli (o : RSh6)
  /-- R74. Logical shift right by an immediate count. -/
  | srli (o : RSh6)
  /-- R74. Arithmetic shift right by an immediate count. -/
  | srai (o : RSh6)
  /-- R74. Set if less than an immediate, signed. -/
  | slti (o : RI)
  /-- R74. Set if less than an immediate, whole. -/
  | sltwi (o : RI)
  /-- R74. Set if equal to an immediate. -/
  | seqi (o : RI)
  /-- R74. 32-bit add of an immediate. -/
  | addi32 (o : RI)
  /-- R74. 32-bit shift left by an immediate. -/
  | slli32 (o : RSh5)
  /-- R74. 32-bit logical shift right by an immediate. -/
  | srli32 (o : RSh5)
  /-- R74. 32-bit arithmetic shift right by an immediate. -/
  | srai32 (o : RSh5)
  /-- R75. Load a 19-bit signed immediate shifted left by 12. -/
  | lhi (o : RU)
  /-- R75. Add pc to a 19-bit immediate shifted left by 12. -/
  | pchi (o : RU)
  /-- R76. Branch if equal. -/
  | beq (o : Br)
  /-- R76. Branch if not equal. -/
  | bne (o : Br)
  /-- R76. Branch if less, signed. -/
  | blt (o : Br)
  /-- R76. Branch if greater or equal, signed. -/
  | bge (o : Br)
  /-- R76. Branch if less, whole. -/
  | bltw (o : Br)
  /-- R76. Branch if greater or equal, whole. -/
  | bgew (o : Br)
  /-- R76. Branch if the and of the operands is nonzero. -/
  | banz (o : Br)
  /-- R76. Branch if the and of the operands is zero. -/
  | baz (o : Br)
  /-- R78. Jump and link, pc-relative. -/
  | jl (o : Jl)
  /-- R79. Register jump and link. -/
  | jlr (o : RI)
  /-- R79. Register jump and link that pushes the return-address stack. -/
  | jlrCall (o : RI)
  /-- R79. Register jump and link that pops the return-address stack. -/
  | jlrRet (o : RI)
  /-- R82. Load a byte, sign-extended. -/
  | ldI8 (o : Mem)
  /-- R82. Load a halfword, sign-extended. -/
  | ldI16 (o : Mem)
  /-- R82. Load a word, sign-extended. -/
  | ldI32 (o : Mem)
  /-- R82. Load a doubleword. -/
  | ldI64 (o : Mem)
  /-- R82. Load a byte, zero-extended. -/
  | ldW8 (o : Mem)
  /-- R82. Load a halfword, zero-extended. -/
  | ldW16 (o : Mem)
  /-- R82. Load a word, zero-extended. -/
  | ldW32 (o : Mem)
  /-- R82. Load an f32 into an f register. -/
  | fldF32 (o : MemF)
  /-- R82. Load an h16 into an f register. -/
  | fldH16 (o : MemF)
  /-- R82. Load a bf16 into an f register. -/
  | fldBf16 (o : MemF)
  /-- R82. Load 64 bits into an f register. -/
  | fld64 (o : MemF)
  /-- R83. Store a byte. -/
  | st8 (o : Mem)
  /-- R83. Store a halfword. -/
  | st16 (o : Mem)
  /-- R83. Store a word. -/
  | st32 (o : Mem)
  /-- R83. Store a doubleword. -/
  | st64 (o : Mem)
  /-- R83. Store the low 32 bits of an f register. -/
  | fst32 (o : MemF)
  /-- R83. Store the low 16 bits of an f register. -/
  | fst16 (o : MemF)
  /-- R83. Store an f register whole. -/
  | fst64 (o : MemF)
  /-- R249. Atomic add. -/
  | amadd (o : At)
  /-- R249. Atomic and. -/
  | amand (o : At)
  /-- R249. Atomic or. -/
  | amor (o : At)
  /-- R249. Atomic xor. -/
  | amxor (o : At)
  /-- R249. Atomic signed minimum. -/
  | ammin (o : At)
  /-- R249. Atomic signed maximum. -/
  | ammax (o : At)
  /-- R249. Atomic whole minimum. -/
  | amminw (o : At)
  /-- R249. Atomic whole maximum. -/
  | ammaxw (o : At)
  /-- R249. Atomic swap. -/
  | amswap (o : At)
  /-- R249. Atomic compare and swap. -/
  | amcas (o : At)
  /-- R250. Ordered single-copy-atomic load. -/
  | ldo (o : AtL)
  /-- R250. Ordered single-copy-atomic store. -/
  | sto (o : AtS)
  /-- R252. Fence of a scope between the earlier and later access sets, with the cache actions of that scope. -/
  | fence (o : Fe)
  /-- R253. Discards fetched instructions so that later fetches see earlier stores. -/
  | ifence (o : R0)
  /-- R86. Scalar floating add. -/
  | fadd (o : F3)
  /-- R86. Scalar floating subtract. -/
  | fsub (o : F3)
  /-- R86. Scalar floating multiply. -/
  | fmul (o : F3)
  /-- R86. Scalar floating divide. -/
  | fdiv (o : F3)
  /-- R86. Scalar floating square root. -/
  | fsqrt (o : F2)
  /-- R86. Scalar floating minimum. -/
  | fmin (o : F3)
  /-- R86. Scalar floating maximum. -/
  | fmax (o : F3)
  /-- R86. Scalar fused multiply-add with f[d] as the addend. -/
  | fma (o : F3)
  /-- R86. Invert the sign bit. -/
  | fneg (o : F2)
  /-- R86. Clear the sign bit. -/
  | fabs (o : F2)
  /-- R87. Floating compare equal into an s register. -/
  | fceq (o : FC)
  /-- R87. Floating compare less than. -/
  | fclt (o : FC)
  /-- R87. Floating compare less or equal. -/
  | fcle (o : FC)
  /-- R88. Floating to integer conversion. -/
  | fcvti (o : FToI)
  /-- R88. Integer to floating conversion. -/
  | fcvtf (o : IToF)
  /-- R88. Conversion between floating formats. -/
  | fcvt (o : FCv)
  /-- R87. Move f register bits to an s register. -/
  | fmvs (o : MvS)
  /-- R87. Move s register bits to an f register. -/
  | fmvf (o : MvF)
  /-- R96. Vector integer add. -/
  | vadd (o : V2)
  /-- R96. Vector integer subtract. -/
  | vsub (o : V2)
  /-- R96. Vector integer multiply, low half. -/
  | vmul (o : V2)
  /-- R96. Vector integer multiply, high half. -/
  | vmulh (o : V2)
  /-- R96. Vector integer minimum. -/
  | vmin (o : V2)
  /-- R96. Vector integer maximum. -/
  | vmax (o : V2)
  /-- R96. Vector bitwise and. -/
  | vand (o : V2)
  /-- R96. Vector bitwise or. -/
  | vor (o : V2)
  /-- R96. Vector bitwise xor. -/
  | vxor (o : V2)
  /-- R96. Vector shift left. -/
  | vsll (o : V2)
  /-- R96. Vector logical shift right. -/
  | vsrl (o : V2)
  /-- R96. Vector arithmetic shift right. -/
  | vsra (o : V2)
  /-- R96. Vector saturating add. -/
  | vadds (o : V2)
  /-- R96. Vector saturating subtract. -/
  | vsubs (o : V2)
  /-- R96. Vector absolute value. -/
  | vabs (o : V1)
  /-- R96. Vector a and not b. -/
  | vandn (o : V2)
  /-- R97. Vector floating add. -/
  | vfadd (o : VF3)
  /-- R97. Vector floating subtract. -/
  | vfsub (o : VF3)
  /-- R97. Vector floating multiply. -/
  | vfmul (o : VF3)
  /-- R97. Vector floating minimum, encoded with a < b. -/
  | vfmin (o : VF3)
  /-- R97. Vector floating maximum, encoded with a > b. -/
  | vfmax (o : VF3)
  /-- R98. Vector fused multiply-add with d as the addend. -/
  | vfma (o : VF3)
  /-- R98. Vector fused multiply-subtract. -/
  | vfms (o : VF3)
  /-- R98. Vector negated multiply plus addend. -/
  | vfnma (o : VF3)
  /-- R98. Vector negated multiply minus addend. -/
  | vfnms (o : VF3)
  /-- R100. Non-saturating conversion to binary8 or sc8. -/
  | vcvtN (o : VP)
  /-- R100. Saturating conversion to binary8 or sc8. -/
  | vcvtS (o : VP)
  /-- R100. Conversion from binary8 or sc8 to floating. -/
  | vcvtX (o : VP)
  /-- R100. Conversion between floating formats. -/
  | vcvtF (o : VP)
  /-- R100. Floating to integer conversion. -/
  | vcvtFi (o : VP)
  /-- R100. Saturating floating to integer conversion. -/
  | vcvtFis (o : VP)
  /-- R100. Integer to floating conversion. -/
  | vcvtIf (o : VP)
  /-- R100. Wrapping integer width conversion. -/
  | vcvtIi (o : VP)
  /-- R100. Saturating integer width conversion. -/
  | vcvtIis (o : VP)
  /-- R102. Computes one scale byte per block of 32 elements. -/
  | vscget (o : V1)
  /-- R103. Applies block scales and converts to binary8 with saturation. -/
  | vscapply (o : V2)
  /-- R104. Vector move. -/
  | vmv (o : V1)
  /-- R104. Vector permute by an index vector. -/
  | vperm (o : V2)
  /-- R104. Interleave the low halves. -/
  | vzipl (o : V2)
  /-- R104. Interleave the high halves. -/
  | vziph (o : V2)
  /-- R104. Take the even elements of a and b. -/
  | vunze (o : V2)
  /-- R104. Take the odd elements of a and b. -/
  | vunzo (o : V2)
  /-- R104. Slide up one element, bringing in b's top element. -/
  | vslu (o : V2)
  /-- R104. Slide down one element, bringing in b's bottom element. -/
  | vsld (o : V2)
  /-- R104. Broadcast element 0. -/
  | vbcast (o : V1)
  /-- R104. Reverse the elements. -/
  | vrev (o : V1)
  /-- R104. Transpose step, low. -/
  | vtrnl (o : V2)
  /-- R104. Transpose step, high. -/
  | vtrnh (o : V2)
  /-- R104. Pack the active elements and zero the rest. -/
  | vcompress (o : V1)
  /-- R104. Spread leading elements into the active positions. -/
  | vexpand (o : V1)
  /-- R105. Integer sum reduction. -/
  | vrsum (o : V1)
  /-- R105. Floating tree-sum reduction. -/
  | vrfsum (o : V1)
  /-- R105. Integer minimum reduction. -/
  | vrmin (o : V1)
  /-- R105. Integer maximum reduction. -/
  | vrmax (o : V1)
  /-- R105. Floating minimum reduction. -/
  | vrfmin (o : V1)
  /-- R105. Floating maximum reduction. -/
  | vrfmax (o : V1)
  /-- R105. Bitwise and reduction. -/
  | vrand (o : V1)
  /-- R105. Bitwise or reduction. -/
  | vrior (o : V1)
  /-- R105. Bitwise xor reduction. -/
  | vrxor (o : V1)
  /-- R105. Widening tree sum in f32. -/
  | vrfsumw (o : V1)
  /-- R109. Load a whole vector register. -/
  | vld (o : VSD)
  /-- R109. Store a whole vector register. -/
  | vst (o : VSA)
  /-- R109. Indexed gather load. -/
  | vldx (o : VXS)
  /-- R109. Indexed scatter store. -/
  | vstx (o : VXS)
  /-- R109. Load one element and broadcast it. -/
  | vldb (o : VSD)
  /-- R109. Load eight strided 32-byte rows. -/
  | vldh (o : VSD)
  /-- R109. Store eight strided 32-byte rows. -/
  | vsth (o : VSA)
  /-- R109. Load a predicate register. -/
  | pld (o : PLd)
  /-- R109. Store a predicate register. -/
  | pst (o : PSt)
  /-- R110. Add a scalar to each element. -/
  | vaddx (o : VXS)
  /-- R110. Subtract a scalar from each element. -/
  | vsubx (o : VXS)
  /-- R110. Multiply each element by a scalar. -/
  | vmulx (o : VXS)
  /-- R110. Floating add of an f scalar. -/
  | vfaddx (o : VXF)
  /-- R110. Floating multiply by an f scalar. -/
  | vfmulx (o : VXF)
  /-- R110. Fused multiply by an f scalar plus d. -/
  | vfmacx (o : VXF)
  /-- R111. Splat a scalar into every active element. -/
  | vsplat (o : VSD)
  /-- R111. Splat an f scalar. -/
  | vfsplat (o : VFD)
  /-- R111. Insert a scalar into one element. -/
  | vins (o : VSD)
  /-- R111. Extract one element into a scalar. -/
  | vext (o : VE)
  /-- R112. Counter-based generator from the captured seed, the key and the element counters. -/
  | vweir (o : VXS)
  /-- R110. Shift each element left by a scalar. -/
  | vsllx (o : VXS)
  /-- R110. Logical shift right by a scalar. -/
  | vsrlx (o : VXS)
  /-- R110. Arithmetic shift right by a scalar. -/
  | vsrax (o : VXS)
  /-- R111. Element i := s + i. -/
  | viota (o : VSD)
  /-- R106. Vector compare equal into a predicate. -/
  | vceq (o : VC)
  /-- R106. Vector compare not equal. -/
  | vcne (o : VC)
  /-- R106. Vector compare less. -/
  | vclt (o : VC)
  /-- R106. Vector compare less or equal. -/
  | vcle (o : VC)
  /-- R106. Vector floating compare equal. -/
  | vfceq (o : VC)
  /-- R106. Vector floating compare less. -/
  | vfclt (o : VC)
  /-- R106. Vector floating compare less or equal. -/
  | vfcle (o : VC)
  /-- R106. Vector floating compare unordered. -/
  | vfcun (o : VC)
  /-- R107. Predicate and. -/
  | pand (o : P3)
  /-- R107. Predicate or. -/
  | por (o : P3)
  /-- R107. Predicate xor. -/
  | pxor (o : P3)
  /-- R107. Predicate a and not b. -/
  | pandn (o : P3)
  /-- R107. Predicate not. -/
  | pnot (o : P2)
  /-- R107. Keep the lowest set predicate bit. -/
  | pfirst (o : P2)
  /-- R130. Read a timed word advanced to now. -/
  | tld (o : R2)
  /-- R131. Store new x and y into a timed word, keeping its law. -/
  | tst (o : R3)
  /-- R131. Store new x, y and law into a timed word. -/
  | tstLaw (o : R3)
  /-- R131. Add to an advanced timed word and rebase it. -/
  | tadd (o : R3)
  /-- R131. Rebase a timed word to now. -/
  | ttouch (o : R2)
  /-- R131. Rebase and arm a timed word. -/
  | tarm (o : R2)
  /-- R132. Clear the selected flags of a timed word without rebasing. -/
  | tclr (o : TC)
  /-- R133. Read 64 strided timed words into a vector. -/
  | vtld (o : TV)
  /-- R133. Add vector lanes into 64 strided timed words. -/
  | vtadd (o : TV)
  /-- R134. Define a law table entry and build its ladder on every die. -/
  | lawset (o : R3)
  /-- R135. Read one doubleword of a law entry. -/
  | lawget (o : R3)
  /-- R213. Row-wide matrix multiply-accumulate chain instruction. -/
  | mma (o : Mma)
  /-- R207. Chain instruction that sets the row shape to wide or deep. -/
  | rowcfg (o : Row)
  /-- R221. Move a quarter of an accumulator to a vector register. -/
  | acget (o : Acc)
  /-- R221. Move a vector register into a quarter of an accumulator. -/
  | acput (o : Acc)
  /-- R222. Zero the accumulators selected by the mask. -/
  | aczero (o : Az)
  /-- R223. Set a tile-predicate cursor. -/
  | qcur (o : QA)
  /-- R223. Read a tile-predicate cursor and the bit it selects. -/
  | qcurrd (o : QD)
  /-- R223. Advance a tile-predicate cursor by n. -/
  | qadv (o : QN)
  /-- R223. Load tile-predicate bits from an s register. -/
  | qmovToQ (o : QA)
  /-- R223. Read tile-predicate bits into an s register. -/
  | qmovToS (o : QD)
  /-- R318. Score queries against a page's keys. -/
  | ascore (o : ASc)
  /-- R319. Online softmax step that turns scores into weights and updates the state. -/
  | asoft (o : ASo)
  /-- R320. Accumulate weighted value rows. -/
  | aval (o : AVa)
  /-- R321. Add normalised weights into the page's token mass words. -/
  | amass (o : AMa)
  /-- R322. Copy a page's remap entries into a vector register. -/
  | apos (o : APo)
  /-- R267. Write a copy shadow register. -/
  | cpw (o : Cpw)
  /-- R267. Read a copy shadow register; reading cp.launch launches the copy. -/
  | cprd (o : Cpr)
  /-- R267. Set source and destination, then launch the copy. -/
  | cpgo (o : R3)
  /-- R271. Convolution gather of a run of output positions. -/
  | cpconv (o : R3)
  /-- R196. Split-phase block read with a completion message. -/
  | bget (o : R3)
  /-- R272. Gather elements from a target core's local store. -/
  | gget (o : R3)
  /-- R272. Scatter elements into a target core's local store. -/
  | gput (o : R3)
  /-- R274. Tie a vector register to a register stream. -/
  | bind (o : Bnd)
  /-- R274. Release a register stream and report its step count. -/
  | unbind (o : Unb)
  /-- R278. Issue a job card of kind 0 to 2. -/
  | card (o : R2)
  /-- R276. Initialise a circular-buffer unit. -/
  | cbinit (o : R3)
  /-- R276. Take a filled ring slot. -/
  | cbpop (o : R2)
  /-- R276. Release a taken ring slot. -/
  | cbpopDone (o : RAB)
  /-- R276. Reserve a free ring slot. -/
  | cbpush (o : R2)
  /-- R276. Commit a reserved ring slot. -/
  | cbpushDone (o : RAB)
  /-- R326. Issue a dredge card to the die's dredge engine. -/
  | dredge (o : R2)
  /-- R280. Wait for a completion counter to reach a value. -/
  | ctwait (o : Ctw)
  /-- R280. Read a completion counter. -/
  | ctrd (o : Ctr)
  /-- R185. Send an active message. -/
  | msend (o : RAB)
  /-- R190. Read a doubleword of the message register. -/
  | margs (o : Mrg)
  /-- R190. Take the oldest message of a lane into a buffer. -/
  | mlane (o : R3)
  /-- R195. Arm a matching-table entry with a tag, a byte target and a task. -/
  | mtab (o : R3)
  /-- R195. Disarm a matching-table entry. -/
  | mtabDis (o : R3)
  /-- R195. Arm a dependence counter with a count and a task. -/
  | dcset (o : R3)
  /-- R194. Decrement a dependence counter by n. -/
  | dcdec (o : RAB)
  /-- R195. Read a dependence counter's state. -/
  | dcrd (o : R2)
  /-- R195. Read a dependence counter's state and clear under. -/
  | dcrdClr (o : R2)
  /-- R198. Snapshot a crew core's lane occupancy and free helper contexts. -/
  | ferryocc (o : R2)
  /-- R198. Migrate messages between crew cores at system level. -/
  | ferrymig (o : RAB)
  /-- R192. Take the oldest dead-letter entry. -/
  | mdead (o : R2)
  /-- R199. Start a helper strand if a context and a register run are free. -/
  | hstart (o : R3)
  /-- R199. End the issuing helper and return its registers. -/
  | hend (o : R0)
  /-- R177. Join a lockstep raft named by a core mask. -/
  | raft (o : R2)
  /-- R199. Dissolve the raft, each member jumping to its own target. -/
  | split (o : RA)
  /-- R199. 1 if any raft member's value is nonzero. -/
  | raftAny (o : R2)
  /-- R199. 1 if every raft member's value is nonzero. -/
  | raftAll (o : R2)
  /-- R201. Arrive at a scoped barrier slot and wait. -/
  | bar (o : Brr)
  /-- R199. Set the strand's own priority class. -/
  | prio (o : Pri)
  /-- R199. Pass over the strand in the next selection. -/
  | yield (o : R0)
  /-- R308. Park until the next quantum end. -/
  | dsync (o : R0)
  /-- R309. Crew phase barrier that merges and installs the staged berth table. -/
  | dphase (o : RD)
  /-- R310. Stage a berth entry for the next phase. -/
  | berth (o : RAB)
  /-- R311. Read the tournament round state. -/
  | tround (o : RD)
  /-- R311. Read the rival's rank state. -/
  | trank (o : RD)
  /-- R312. Finish the rival with a final score. -/
  | tdone (o : RA)
  /-- R47. Replay the following body in passes with advancing vector fields. -/
  | repf (o : Rpf)
  /-- R33. No operation apart from its stall count. -/
  | nop (o : R0)
  /-- R89. Read a system register. -/
  | sysr (o : Sys)
  /-- R89. Write a system register. -/
  | sysw (o : Sys)
  /-- R90. Raise a precise software trap. -/
  | trap (o : Cd8)
  /-- R91. Raise a system call to the next level. -/
  | scall (o : N12)
  /-- R346. End an upcall and resume the held strand. -/
  | uret (o : R0)
  /-- R346. End an upcall, switching fibre images. -/
  | uretSw (o : RAB)
  /-- R346. End an upcall, the strand staying held until its ferry notice arrives. -/
  | uretWait (o : R0)
  /-- R333. Return from a system-level trap. -/
  | sret (o : R0)
  /-- R333. Return from a firmware-level trap. -/
  | fret (o : R0)
  /-- R362. Debug breakpoint trap. -/
  | brk (o : Cd8)
  /-- R362. Append an entry to the die's signal ring. -/
  | dbgsig (o : RA)
  /-- R34. Compact add-immediate to itself. -/
  | cInc (o : CI7)
  /-- R34. Compact load of a small immediate. -/
  | cSet (o : CI7)
  /-- R34. Compact register copy. -/
  | cCp (o : CR2)
  /-- R34. Compact add. -/
  | cAddr (o : CR2)
  /-- R34. Compact subtract. -/
  | cSubr (o : CR2)
  /-- R34. Compact and. -/
  | cAndr (o : CR2)
  /-- R34. Compact or. -/
  | cOrr (o : CR2)
  /-- R34. Compact xor. -/
  | cXorr (o : CR2)
  /-- R34. Compact shift left. -/
  | cSllr (o : CR2)
  /-- R34. Compact arithmetic shift right. -/
  | cSrar (o : CR2)
  /-- R34. Compact set if less, signed. -/
  | cSltr (o : CR2)
  /-- R34. Compact set if less, whole. -/
  | cSltwr (o : CR2)
  /-- R34. Compact set if equal. -/
  | cSeqr (o : CR2)
  /-- R34. Compact set if not equal. -/
  | cSner (o : CR2)
  /-- R34. Compact signed minimum. -/
  | cMinr (o : CR2)
  /-- R34. Compact signed maximum. -/
  | cMaxr (o : CR2)
  /-- R34. Compact whole minimum. -/
  | cMinwr (o : CR2)
  /-- R34. Compact whole maximum. -/
  | cMaxwr (o : CR2)
  /-- R34. Compact shift left by an immediate. -/
  | cShl (o : CSh)
  /-- R34. Compact arithmetic shift right by an immediate. -/
  | cSar (o : CSh)
  /-- R34. Compact register jump. -/
  | cJreg (o : CA)
  /-- R34. Compact f32 add. -/
  | cFadd (o : CF2)
  /-- R34. Compact f32 subtract. -/
  | cFsub (o : CF2)
  /-- R34. Compact f32 multiply. -/
  | cFmul (o : CF2)
  /-- R34. Compact f32 minimum. -/
  | cFmin (o : CF2)
  /-- R34. Compact f32 maximum. -/
  | cFmax (o : CF2)
  /-- R34. Compact f32 negate. -/
  | cFneg (o : CF2)
  /-- R34. Compact f32 absolute value. -/
  | cFabs (o : CF2)
  /-- R36. Element-type prefix for the following vector instruction. -/
  | cVty (o : CTy)
  /-- R34. Compact branch if zero. -/
  | cBrz (o : CBr)
  /-- R34. Compact branch if nonzero. -/
  | cBrnz (o : CBr)
  /-- R34. Compact jump. -/
  | cGo (o : CGo)
  /-- R34. Compact 8-byte load from the first KiB of the local store. -/
  | cLld (o : CLs)
  /-- R34. Compact 8-byte store to the first KiB of the local store. -/
  | cLsd (o : CLs)
  /-- R34. Compact register-indirect load. -/
  | cLr (o : CLr)
  /-- R34. Compact register-indirect store. -/
  | cSr (o : CSr)
  /-- R34. Compact vector move. -/
  | cVmv (o : CVm)
  /-- R388. When every reading on a die has fallen below 100 °C, the thermal throttle pattern 0x0101 is lifted. -/
  | thermalThrottleLift (die : Nat)
  /-- R392. Removing power loses every state of the device except the fuses. -/
  | powerRemoval
  /-- R368. A host load, store or atomic reaches device memory that the host owns by remap, or touches a device page and so asks the ferry for a flip. -/
  | hostAccess (acc : ExtAccess)
  /-- R377. A load, store or atomic from another device of the domain arrives over Sprinlink and is performed at this device's home die. -/
  | peerAccess (dev : Nat) (acc : ExtAccess)
deriving DecidableEq, Repr

end Sys2Proof
end

