-- ==== Sys2Proof/WellFormed.lean ====
section
/-!
DEFINITION. Well-formed instructions: the checks of 02 R32, R35 to R37 and R39 and of the owning chapters on the
operands of an instruction. `Instr.faultsOf` lists the checks an instruction fails, by name; a well-formed
instruction fails none.
-/
namespace Sys2Proof

/-- The reasons a decoder gives for words that are no instruction (02 R39). -/
inductive Reject where
  | truncated       -- fewer halfwords than the length bit asks for
  | reservedMajor   -- a reserved major
  | reservedFunc    -- a reserved func, cond, op or form
  | mustBeZero      -- a nonzero must-be-zero bit, or an f, p or q field above its range
  | noVector        -- a vector field of 31
  | format          -- a reserved floating format code
  | order           -- an order the atomic func does not take
  | scope           -- a scope of 6 or 7
  | fenceSets       -- a fence with no set
  | compactForm     -- an illegal compact form
  | typeRefused     -- a type or type code the instruction does not take
  | needsType       -- a conversion with no prefix
  | oddPair         -- an odd register where a pair is named
  | equalSources    -- vfmin and vfmax chosen by unequal source numbers
  | partNumber      -- a conversion part number out of range
  | accumulatorCode -- ac = 11 in major 21
  | shadowIndex     -- a copy shadow index that names nothing
  | systemNumber    -- an unassigned system-register number
deriving DecidableEq, Repr

/-- The named check `r` holds when `b`. -/
def need (b : Bool) (r : Reject) : List Reject := if b then [] else [r]

/-- A vector field names v0 to v29 or vz (02 R32). -/
def vok (v : BitVec 5) : Bool := v != 31#5

/-- The number of a pair's first register is even. -/
def evenB {n : Nat} (d : BitVec n) : Bool := d.extractLsb' 0 1 == 0#1

/-- Bytes of one element (05 R92). -/
def Ty.width : Ty → Nat
  | .i8 | .w8 | .sc8 | .b8 .. => 1
  | .i16 | .w16 | .h16 | .bf16 => 2
  | .i32 | .w32 | .f32 | .q16 => 4
  | .i64 | .w64 => 8

def Ty.isI : Ty → Bool
  | .i8 | .i16 | .i32 | .i64 => true
  | _ => false

def Ty.isW : Ty → Bool
  | .w8 | .w16 | .w32 | .w64 => true
  | _ => false

def Ty.isF : Ty → Bool
  | .f32 | .h16 | .bf16 => true
  | _ => false

def Ty.isB8 : Ty → Bool
  | .b8 .. => true
  | _ => false

/-! The type sets of 05 R93 for one-type instructions. -/
def tyAny (_ : Ty) : Bool := true
def tyI (t : Ty) : Bool := t.isI
def tyIW (t : Ty) : Bool := t.isI || t.isW
def tyIWQ (t : Ty) : Bool := t.isI || t.isW || t == .q16
def tyF (t : Ty) : Bool := t.isF
def tyHB (t : Ty) : Bool := t == .h16 || t == .bf16 || t.isB8
def tyW32 (t : Ty) : Bool := t == .w32 || t == .i32

/-! The type pairs of 05 R100, R102 and R103. -/
def tyB8SF (t u : Ty) : Bool := (t.isB8 || t == .sc8) && u.isF
def tyB8F (t u : Ty) : Bool := t.isB8 && u.isF
def tyFF (t u : Ty) : Bool := t.isF && u.isF && t != u
def tyIF (t u : Ty) : Bool := tyIWQ t && u.isF
def tyFI (t u : Ty) : Bool := t.isF && tyIWQ u
def tyII (t u : Ty) : Bool := tyIW t && tyIW u

/-- A one-type instruction: no prefix, or an accepted t1 with t2 = 0 (02 R36). -/
def typed (acc : Ty → Bool) : Option Pre → List Reject
  | none => []
  | some p => need (acc p.t1 && p.t2 == .i8) .typeRefused

/-- A one-type instruction that is illegal without a prefix (02 R37). -/
def typedNeed (acc : Ty → Bool) : Option Pre → List Reject
  | none => [.needsType]
  | some p => need (acc p.t1 && p.t2 == .i8) .typeRefused

/-- A two-type instruction; t2 has only the codes 0 to 12 (02 R35), so it is never a binary8 type. -/
def typed2 (acc : Ty → Ty → Bool) : Option Pre → List Reject
  | none => [.needsType]
  | some p => need (acc p.t1 p.t2 && !p.t2.isB8) .typeRefused

/-- The ratio of the two widths of a conversion (05 R99). -/
def Pre.ratio (p : Pre) : Nat := max p.t1.width p.t2.width / min p.t1.width p.t2.width

/-- The part number of a conversion is below the ratio of its widths (05 R99). -/
def partOk (pre : Option Pre) (g : BitVec 5) : List Reject :=
  match pre with
  | none => []
  | some p => need (decide (g.toNat < p.ratio)) .partNumber

/-- A type code of 02 R35 that is not reserved. -/
def codeOk (c : Nat) : Bool := decide (c ≤ 12) || (decide (32 ≤ c) && decide (c ≤ 59))

/-- A floating format code 0 to 2 (04 R85). -/
def fmtOk (f : BitVec 2) : List Reject := need (f != 3#2) .format

/-- A scope code 0 to 5 (02 R38). -/
def scopeOk (s : BitVec 3) : List Reject := need (decide (s.toNat ≤ 5)) .scope

/-- A copy shadow index that names a register (15 R263 to R267): cp.src to cp.note, cp.deal, cp.conv, cp.task, the
stride pairs and cp.launch. -/
def shadowIndex (i : BitVec 8) : Bool := decide (i.toNat ≤ 0x06) ||
  (decide (0x10 ≤ i.toNat) && decide (i.toNat ≤ 0x15)) || (decide (0x18 ≤ i.toNat) && decide (i.toNat ≤ 0x1D)) || i == 0x3F#8

/-- A system-register number that 01 R19 or 24 R386 assigns. -/
def sysAssigned (n : BitVec 12) : Bool := decide (n.toNat ≤ 0x004) || n == 0x100#12 ||
  (decide (0x300 ≤ n.toNat) && decide (n.toNat ≤ 0x302)) || (decide (0x500 ≤ n.toNat) && decide (n.toNat ≤ 0x502)) ||
  n == 0x900#12 || (decide (0xD00 ≤ n.toNat) && decide (n.toNat ≤ 0xD02)) ||
  (decide (0xE00 ≤ n.toNat) && decide (n.toNat ≤ 0xE02)) || n == 0xF00#12

/-- The checks an instruction fails. An event is a row of the table and no word, so it fails none. -/
def Instr.faultsOf : Instr → List Reject
  | .coldReset .. => []
  | .warmReset .. => []
  | .firmwareImage .. => []
  | .wallTick .. => []
  | .quantumEnd .. => []
  | .rebaseSweep .. => []
  | .ferrymasterScan .. => []
  | .arbiterWindow .. => []
  | .swallowBoundary .. => []
  | .sensorFailure .. => []
  | .thermalThrottle .. => []
  | .correctableError .. => []
  | .uncorrectableError .. => []
  | .linkRetry .. => []
  | .laneRepair .. => []
  | .linkFailure .. => []
  | .peerTimeout .. => []
  | .peerWriteAck .. => []
  | .messageDelivery .. => []
  | .handlerStart .. => []
  | .transferCompletion .. => []
  | .copyRingReserve .. => []
  | .streamFill .. => []
  | .chainJoin .. => []
  | .budgetGrant .. => []
  | .mmaDelivery .. => []
  | .resultDelivery .. => []
  | .slipwayResolve .. => []
  | .launchMessage .. => []
  | .dispatch .. => []
  | .jobRetire .. => []
  | .launchCompletion .. => []
  | .stepHalt .. => []
  | .upcallStart .. => []
  | .pageFlip .. => []
  | .replicaCommit .. => []
  | .cacheEviction .. => []
  | .registerTimedRegion .. => []
  | .withdrawTimedRegion .. => []
  | .dropPageTranslations .. => []
  | .dropAsidTranslations .. => []
  | .preemptJob .. => []
  | .rebind .. => []
  | .bindStream .. => []
  | .unbindStream .. => []
  | .setDomain .. => []
  | .defineGroup .. => []
  | .dropGroup .. => []
  | .readBlackBox .. => []
  | .externalPowerLimit .. => []
  | .attestation .. => []
  | .releaseEvents .. => []
  | .yelikHold .. => []
  | .yelikResume .. => []
  | .yelikStep .. => []
  | .yelikRead .. => []
  | .yelikWrite .. => []
  | .yelikSetBreak .. => []
  | .yelikReadSignalRing .. => []
  | .debuggerAttach .. => []
  | .debuggerDetach .. => []
  | .collectiveContribution .. => []
  | .collectiveResult .. => []
  | .ctxOobWrite .. => []
  | .ctxModeWrite .. => []
  | .coreSwallowWrite .. => []
  | .crewQuantumWrite .. => []
  | .devPlimitWrite .. => []
  | .devCrbaseWrite .. => []
  | .fwBboxClear .. => []
  | .add _ => []
  | .sub _ => []
  | .and _ => []
  | .or _ => []
  | .xor _ => []
  | .sll _ => []
  | .srl _ => []
  | .sra _ => []
  | .slt _ => []
  | .sltw _ => []
  | .seq _ => []
  | .sne _ => []
  | .min _ => []
  | .max _ => []
  | .minw _ => []
  | .maxw _ => []
  | .mul _ => []
  | .mulh _ => []
  | .mulhw _ => []
  | .div _ => []
  | .divw _ => []
  | .rem _ => []
  | .remw _ => []
  | .adds _ => []
  | .subs _ => []
  | .addsw _ => []
  | .subsw _ => []
  | .add32 _ => []
  | .sub32 _ => []
  | .sll32 _ => []
  | .srl32 _ => []
  | .sra32 _ => []
  | .mul32 _ => []
  | .clz _ => []
  | .ctz _ => []
  | .popc _ => []
  | .rol _ => []
  | .ror _ => []
  | .addi _ => []
  | .andi _ => []
  | .ori _ => []
  | .xori _ => []
  | .slli _ => []
  | .srli _ => []
  | .srai _ => []
  | .slti _ => []
  | .sltwi _ => []
  | .seqi _ => []
  | .addi32 _ => []
  | .slli32 _ => []
  | .srli32 _ => []
  | .srai32 _ => []
  | .lhi _ => []
  | .pchi _ => []
  | .beq _ => []
  | .bne _ => []
  | .blt _ => []
  | .bge _ => []
  | .bltw _ => []
  | .bgew _ => []
  | .banz _ => []
  | .baz _ => []
  | .jl _ => []
  | .jlr _ => []
  | .jlrCall _ => []
  | .jlrRet _ => []
  | .ldI8 _ => []
  | .ldI16 _ => []
  | .ldI32 _ => []
  | .ldI64 _ => []
  | .ldW8 _ => []
  | .ldW16 _ => []
  | .ldW32 _ => []
  | .fldF32 _ => []
  | .fldH16 _ => []
  | .fldBf16 _ => []
  | .fld64 _ => []
  | .st8 _ => []
  | .st16 _ => []
  | .st32 _ => []
  | .st64 _ => []
  | .fst32 _ => []
  | .fst16 _ => []
  | .fst64 _ => []
  | .amadd o => scopeOk o.scope
  | .amand o => scopeOk o.scope
  | .amor o => scopeOk o.scope
  | .amxor o => scopeOk o.scope
  | .ammin o => scopeOk o.scope
  | .ammax o => scopeOk o.scope
  | .amminw o => scopeOk o.scope
  | .ammaxw o => scopeOk o.scope
  | .amswap o => scopeOk o.scope
  | .amcas o => scopeOk o.scope
  | .ldo o => scopeOk o.scope ++ need (decide (o.ord.toNat ≤ 1)) .order
  | .sto o => scopeOk o.scope ++ need (o.ord == 0#2 || o.ord == 2#2) .order
  | .fence o => scopeOk o.scope ++ need (o.sets != 0#4) .fenceSets
  | .ifence _ => []
  | .fadd o => fmtOk o.fmt
  | .fsub o => fmtOk o.fmt
  | .fmul o => fmtOk o.fmt
  | .fdiv o => fmtOk o.fmt
  | .fsqrt o => fmtOk o.fmt
  | .fmin o => fmtOk o.fmt
  | .fmax o => fmtOk o.fmt
  | .fma o => fmtOk o.fmt
  | .fneg o => fmtOk o.fmt
  | .fabs o => fmtOk o.fmt
  | .fceq o => fmtOk o.fmt
  | .fclt o => fmtOk o.fmt
  | .fcle o => fmtOk o.fmt
  | .fcvti o => fmtOk o.fmt
  | .fcvtf o => fmtOk o.fmt
  | .fcvt o => fmtOk o.fmt ++ fmtOk o.src
  | .fmvs _ => []
  | .fmvf _ => []
  | .vadd o => typed tyIWQ o.pre ++ need (vok o.a) .noVector ++ need (vok o.b) .noVector ++ need (vok o.d) .noVector
  | .vsub o => typed tyIWQ o.pre ++ need (vok o.a) .noVector ++ need (vok o.b) .noVector ++ need (vok o.d) .noVector
  | .vmul o => typed tyIW o.pre ++ need (vok o.a) .noVector ++ need (vok o.b) .noVector ++ need (vok o.d) .noVector
  | .vmulh o => typed tyIW o.pre ++ need (vok o.a) .noVector ++ need (vok o.b) .noVector ++ need (vok o.d) .noVector
  | .vmin o => typed tyIWQ o.pre ++ need (vok o.a) .noVector ++ need (vok o.b) .noVector ++ need (vok o.d) .noVector
  | .vmax o => typed tyIWQ o.pre ++ need (vok o.a) .noVector ++ need (vok o.b) .noVector ++ need (vok o.d) .noVector
  | .vand o => typed tyAny o.pre ++ need (vok o.a) .noVector ++ need (vok o.b) .noVector ++ need (vok o.d) .noVector
  | .vor o => typed tyAny o.pre ++ need (vok o.a) .noVector ++ need (vok o.b) .noVector ++ need (vok o.d) .noVector
  | .vxor o => typed tyAny o.pre ++ need (vok o.a) .noVector ++ need (vok o.b) .noVector ++ need (vok o.d) .noVector
  | .vsll o => typed tyIW o.pre ++ need (vok o.a) .noVector ++ need (vok o.b) .noVector ++ need (vok o.d) .noVector
  | .vsrl o => typed tyIW o.pre ++ need (vok o.a) .noVector ++ need (vok o.b) .noVector ++ need (vok o.d) .noVector
  | .vsra o => typed tyIW o.pre ++ need (vok o.a) .noVector ++ need (vok o.b) .noVector ++ need (vok o.d) .noVector
  | .vadds o => typed tyIWQ o.pre ++ need (vok o.a) .noVector ++ need (vok o.b) .noVector ++ need (vok o.d) .noVector
  | .vsubs o => typed tyIWQ o.pre ++ need (vok o.a) .noVector ++ need (vok o.b) .noVector ++ need (vok o.d) .noVector
  | .vabs o => typed tyI o.pre ++ need (vok o.a) .noVector ++ need (vok o.d) .noVector
  | .vandn o => typed tyAny o.pre ++ need (vok o.a) .noVector ++ need (vok o.b) .noVector ++ need (vok o.d) .noVector
  | .vfadd o => typed tyF o.pre ++ need (vok o.a) .noVector ++ need (vok o.b) .noVector ++ need (vok o.d) .noVector
  | .vfsub o => typed tyF o.pre ++ need (vok o.a) .noVector ++ need (vok o.b) .noVector ++ need (vok o.d) .noVector
  | .vfmul o => typed tyF o.pre ++ need (vok o.a) .noVector ++ need (vok o.b) .noVector ++ need (vok o.d) .noVector
  | .vfmin o => typed tyF o.pre ++ need (vok o.a) .noVector ++ need (vok o.b) .noVector ++ need (vok o.d) .noVector ++ need (decide (o.a < o.b)) .equalSources
  | .vfmax o => typed tyF o.pre ++ need (vok o.a) .noVector ++ need (vok o.b) .noVector ++ need (vok o.d) .noVector ++ need (decide (o.b < o.a)) .equalSources
  | .vfma o => typed tyF o.pre ++ need (vok o.a) .noVector ++ need (vok o.b) .noVector ++ need (vok o.d) .noVector
  | .vfms o => typed tyF o.pre ++ need (vok o.a) .noVector ++ need (vok o.b) .noVector ++ need (vok o.d) .noVector
  | .vfnma o => typed tyF o.pre ++ need (vok o.a) .noVector ++ need (vok o.b) .noVector ++ need (vok o.d) .noVector
  | .vfnms o => typed tyF o.pre ++ need (vok o.a) .noVector ++ need (vok o.b) .noVector ++ need (vok o.d) .noVector
  | .vcvtN o => typed2 tyB8SF o.pre ++ need (vok o.a) .noVector ++ need (vok o.d) .noVector ++ partOk o.pre o.part
  | .vcvtS o => typed2 tyB8SF o.pre ++ need (vok o.a) .noVector ++ need (vok o.d) .noVector ++ partOk o.pre o.part
  | .vcvtX o => typed2 tyB8SF o.pre ++ need (vok o.a) .noVector ++ need (vok o.d) .noVector ++ partOk o.pre o.part
  | .vcvtF o => typed2 tyFF o.pre ++ need (vok o.a) .noVector ++ need (vok o.d) .noVector ++ partOk o.pre o.part
  | .vcvtFi o => typed2 tyIF o.pre ++ need (vok o.a) .noVector ++ need (vok o.d) .noVector ++ partOk o.pre o.part
  | .vcvtFis o => typed2 tyIF o.pre ++ need (vok o.a) .noVector ++ need (vok o.d) .noVector ++ partOk o.pre o.part
  | .vcvtIf o => typed2 tyFI o.pre ++ need (vok o.a) .noVector ++ need (vok o.d) .noVector ++ partOk o.pre o.part
  | .vcvtIi o => typed2 tyII o.pre ++ need (vok o.a) .noVector ++ need (vok o.d) .noVector ++ partOk o.pre o.part
  | .vcvtIis o => typed2 tyII o.pre ++ need (vok o.a) .noVector ++ need (vok o.d) .noVector ++ partOk o.pre o.part
  | .vscget o => typed2 tyB8F o.pre ++ need (vok o.a) .noVector ++ need (vok o.d) .noVector
  | .vscapply o => typed2 tyB8F o.pre ++ need (vok o.a) .noVector ++ need (vok o.b) .noVector ++ need (vok o.d) .noVector
  | .vmv o => typed tyAny o.pre ++ need (vok o.a) .noVector ++ need (vok o.d) .noVector
  | .vperm o => typed tyAny o.pre ++ need (vok o.a) .noVector ++ need (vok o.b) .noVector ++ need (vok o.d) .noVector
  | .vzipl o => typed tyAny o.pre ++ need (vok o.a) .noVector ++ need (vok o.b) .noVector ++ need (vok o.d) .noVector
  | .vziph o => typed tyAny o.pre ++ need (vok o.a) .noVector ++ need (vok o.b) .noVector ++ need (vok o.d) .noVector
  | .vunze o => typed tyAny o.pre ++ need (vok o.a) .noVector ++ need (vok o.b) .noVector ++ need (vok o.d) .noVector
  | .vunzo o => typed tyAny o.pre ++ need (vok o.a) .noVector ++ need (vok o.b) .noVector ++ need (vok o.d) .noVector
  | .vslu o => typed tyAny o.pre ++ need (vok o.a) .noVector ++ need (vok o.b) .noVector ++ need (vok o.d) .noVector
  | .vsld o => typed tyAny o.pre ++ need (vok o.a) .noVector ++ need (vok o.b) .noVector ++ need (vok o.d) .noVector
  | .vbcast o => typed tyAny o.pre ++ need (vok o.a) .noVector ++ need (vok o.d) .noVector
  | .vrev o => typed tyAny o.pre ++ need (vok o.a) .noVector ++ need (vok o.d) .noVector
  | .vtrnl o => typed tyAny o.pre ++ need (vok o.a) .noVector ++ need (vok o.b) .noVector ++ need (vok o.d) .noVector
  | .vtrnh o => typed tyAny o.pre ++ need (vok o.a) .noVector ++ need (vok o.b) .noVector ++ need (vok o.d) .noVector
  | .vcompress o => typed tyAny o.pre ++ need (vok o.a) .noVector ++ need (vok o.d) .noVector
  | .vexpand o => typed tyAny o.pre ++ need (vok o.a) .noVector ++ need (vok o.d) .noVector
  | .vrsum o => typed tyIW o.pre ++ need (vok o.a) .noVector ++ need (vok o.d) .noVector
  | .vrfsum o => typed tyF o.pre ++ need (vok o.a) .noVector ++ need (vok o.d) .noVector
  | .vrmin o => typed tyIW o.pre ++ need (vok o.a) .noVector ++ need (vok o.d) .noVector
  | .vrmax o => typed tyIW o.pre ++ need (vok o.a) .noVector ++ need (vok o.d) .noVector
  | .vrfmin o => typed tyF o.pre ++ need (vok o.a) .noVector ++ need (vok o.d) .noVector
  | .vrfmax o => typed tyF o.pre ++ need (vok o.a) .noVector ++ need (vok o.d) .noVector
  | .vrand o => typed tyAny o.pre ++ need (vok o.a) .noVector ++ need (vok o.d) .noVector
  | .vrior o => typed tyAny o.pre ++ need (vok o.a) .noVector ++ need (vok o.d) .noVector
  | .vrxor o => typed tyAny o.pre ++ need (vok o.a) .noVector ++ need (vok o.d) .noVector
  | .vrfsumw o => typedNeed tyHB o.pre ++ need (vok o.a) .noVector ++ need (vok o.d) .noVector
  | .vld o => typed tyAny o.pre ++ need (vok o.d) .noVector
  | .vst o => typed tyAny o.pre ++ need (vok o.a) .noVector
  | .vldx o => typed tyAny o.pre ++ need (vok o.a) .noVector ++ need (vok o.d) .noVector
  | .vstx o => typed tyAny o.pre ++ need (vok o.a) .noVector ++ need (vok o.d) .noVector
  | .vldb o => typed tyAny o.pre ++ need (vok o.d) .noVector
  | .vldh o => typed tyAny o.pre ++ need (vok o.d) .noVector ++ need (evenB o.s) .oddPair
  | .vsth o => typed tyAny o.pre ++ need (vok o.a) .noVector ++ need (evenB o.s) .oddPair
  | .pld o => typed tyAny o.pre
  | .pst o => typed tyAny o.pre
  | .vaddx o => typed tyIWQ o.pre ++ need (vok o.a) .noVector ++ need (vok o.d) .noVector
  | .vsubx o => typed tyIWQ o.pre ++ need (vok o.a) .noVector ++ need (vok o.d) .noVector
  | .vmulx o => typed tyIW o.pre ++ need (vok o.a) .noVector ++ need (vok o.d) .noVector
  | .vfaddx o => typed tyF o.pre ++ need (vok o.a) .noVector ++ need (vok o.d) .noVector
  | .vfmulx o => typed tyF o.pre ++ need (vok o.a) .noVector ++ need (vok o.d) .noVector
  | .vfmacx o => typed tyF o.pre ++ need (vok o.a) .noVector ++ need (vok o.d) .noVector
  | .vsplat o => typed tyAny o.pre ++ need (vok o.d) .noVector
  | .vfsplat o => typed tyF o.pre ++ need (vok o.d) .noVector
  | .vins o => typed tyAny o.pre ++ need (vok o.d) .noVector ++ need (evenB o.s) .oddPair
  | .vext o => typed tyAny o.pre ++ need (vok o.a) .noVector
  | .vweir o => typed tyW32 o.pre ++ need (vok o.a) .noVector ++ need (vok o.d) .noVector
  | .vsllx o => typed tyIW o.pre ++ need (vok o.a) .noVector ++ need (vok o.d) .noVector
  | .vsrlx o => typed tyIW o.pre ++ need (vok o.a) .noVector ++ need (vok o.d) .noVector
  | .vsrax o => typed tyIW o.pre ++ need (vok o.a) .noVector ++ need (vok o.d) .noVector
  | .viota o => typed tyIW o.pre ++ need (vok o.d) .noVector
  | .vceq o => typed tyIWQ o.pre ++ need (vok o.a) .noVector ++ need (vok o.b) .noVector
  | .vcne o => typed tyIWQ o.pre ++ need (vok o.a) .noVector ++ need (vok o.b) .noVector
  | .vclt o => typed tyIWQ o.pre ++ need (vok o.a) .noVector ++ need (vok o.b) .noVector
  | .vcle o => typed tyIWQ o.pre ++ need (vok o.a) .noVector ++ need (vok o.b) .noVector
  | .vfceq o => typed tyF o.pre ++ need (vok o.a) .noVector ++ need (vok o.b) .noVector
  | .vfclt o => typed tyF o.pre ++ need (vok o.a) .noVector ++ need (vok o.b) .noVector
  | .vfcle o => typed tyF o.pre ++ need (vok o.a) .noVector ++ need (vok o.b) .noVector
  | .vfcun o => typed tyF o.pre ++ need (vok o.a) .noVector ++ need (vok o.b) .noVector
  | .pand o => typed tyAny o.pre
  | .por o => typed tyAny o.pre
  | .pxor o => typed tyAny o.pre
  | .pandn o => typed tyAny o.pre
  | .pnot o => typed tyAny o.pre
  | .pfirst o => typed tyAny o.pre
  | .tld o => need (evenB o.d) .oddPair
  | .tst o => need (evenB o.b) .oddPair
  | .tstLaw o => need (evenB o.b) .oddPair
  | .tadd _ => []
  | .ttouch _ => []
  | .tarm _ => []
  | .tclr _ => []
  | .vtld o => need (vok o.v) .noVector
  | .vtadd o => need (vok o.v) .noVector
  | .lawset _ => []
  | .lawget _ => []
  | .mma o => need (decide (o.ac ≠ 3#2)) .accumulatorCode
  | .rowcfg _ => []
  | .acget o => need (vok o.v) .noVector
  | .acput o => need (vok o.v) .noVector
  | .aczero _ => []
  | .qcur _ => []
  | .qcurrd _ => []
  | .qadv _ => []
  | .qmovToQ _ => []
  | .qmovToS _ => []
  | .ascore _ => []
  | .asoft _ => []
  | .aval _ => []
  | .amass _ => []
  | .apos _ => []
  | .cpw o => need (shadowIndex o.idx && decide (o.idx ≠ 0x3F#8)) .shadowIndex
  | .cprd o => need (shadowIndex o.idx) .shadowIndex
  | .cpgo _ => []
  | .cpconv _ => []
  | .bget _ => []
  | .gget _ => []
  | .gput _ => []
  | .bind o => need (vok o.v) .noVector
  | .unbind _ => []
  | .card _ => []
  | .cbinit _ => []
  | .cbpop _ => []
  | .cbpopDone _ => []
  | .cbpush _ => []
  | .cbpushDone _ => []
  | .dredge _ => []
  | .ctwait _ => []
  | .ctrd _ => []
  | .msend _ => []
  | .margs _ => []
  | .mlane _ => []
  | .mtab _ => []
  | .mtabDis _ => []
  | .dcset _ => []
  | .dcdec _ => []
  | .dcrd _ => []
  | .dcrdClr _ => []
  | .ferryocc _ => []
  | .ferrymig _ => []
  | .mdead _ => []
  | .hstart _ => []
  | .hend _ => []
  | .raft _ => []
  | .split _ => []
  | .raftAny _ => []
  | .raftAll _ => []
  | .bar _ => []
  | .prio _ => []
  | .yield _ => []
  | .dsync _ => []
  | .dphase _ => []
  | .berth _ => []
  | .tround _ => []
  | .trank _ => []
  | .tdone _ => []
  | .repf _ => []
  | .nop _ => []
  | .sysr o => need (sysAssigned o.n) .systemNumber
  | .sysw o => need (sysAssigned o.n) .systemNumber
  | .trap _ => []
  | .scall _ => []
  | .uret _ => []
  | .uretSw _ => []
  | .uretWait _ => []
  | .sret _ => []
  | .fret _ => []
  | .brk _ => []
  | .dbgsig _ => []
  | .cInc o => need (decide (o.d ≠ 0#4)) .compactForm
  | .cSet _ => []
  | .cCp _ => []
  | .cAddr _ => []
  | .cSubr _ => []
  | .cAndr _ => []
  | .cOrr _ => []
  | .cXorr _ => []
  | .cSllr _ => []
  | .cSrar _ => []
  | .cSltr _ => []
  | .cSltwr _ => []
  | .cSeqr _ => []
  | .cSner _ => []
  | .cMinr _ => []
  | .cMaxr _ => []
  | .cMinwr _ => []
  | .cMaxwr _ => []
  | .cShl _ => []
  | .cSar _ => []
  | .cJreg o => need (decide (o.a ≠ 0#4)) .compactForm
  | .cFadd _ => []
  | .cFsub _ => []
  | .cFmul _ => []
  | .cFmin _ => []
  | .cFmax _ => []
  | .cFneg _ => []
  | .cFabs _ => []
  | .cVty o => need (codeOk o.t.toNat && decide (o.u.toNat ≤ 12)) .typeRefused
  | .cBrz _ => []
  | .cBrnz _ => []
  | .cGo _ => []
  | .cLld _ => []
  | .cLsd _ => []
  | .cLr o => need (decide (o.f ≠ 7#3)) .compactForm
  | .cSr _ => []
  | .cVmv o => need (vok o.a && vok o.d) .noVector
  | .thermalThrottleLift .. => []
  | .powerRemoval .. => []
  | .hostAccess .. => []
  | .peerAccess .. => []

/-- An instruction fails no check. -/
def Instr.wf (i : Instr) : Bool := i.faultsOf.isEmpty

end Sys2Proof
end

