-- ==== Sys2Proof/Decode.lean ====
section
/-!
DEFINITION. The words of instructions: the formats of 02 R31, R33 and R34, an encoder and a decoder written from the
encoding tables of 02 R38 and of the owning chapters. The decoder is total: it reads an instruction and its length in
halfwords, or rejects the words by name. It accepts only words that the encoder gives back, so that a nonzero
must-be-zero bit is refused whatever its place. The decoder is marked noncomputable for a limit of Lean's runtime
alone (it has no tag for the later constructors of so large a type): Lean's kernel evaluates it.
-/
namespace Sys2Proof

/-- The type of a code of 02 R35; none for a reserved code. -/
def Ty.ofCode (c : Nat) : Option Ty :=
  match c with
  | 0 => some .i8 | 1 => some .i16 | 2 => some .i32 | 3 => some .i64
  | 4 => some .w8 | 5 => some .w16 | 6 => some .w32 | 7 => some .w64
  | 8 => some .f32 | 9 => some .h16 | 10 => some .bf16 | 11 => some .q16 | 12 => some .sc8
  | n => if h : 32 ≤ n ∧ n ≤ 59 then
      some (.b8 ⟨(n - 32) / 4, by omega⟩ ((n / 2) % 2 == 1) (n % 2 == 1))
    else none

/-- The code of a type (02 R35). -/
def Ty.code : Ty → Nat
  | .i8 => 0 | .i16 => 1 | .i32 => 2 | .i64 => 3
  | .w8 => 4 | .w16 => 5 | .w32 => 6 | .w64 => 7
  | .f32 => 8 | .h16 => 9 | .bf16 => 10 | .q16 => 11 | .sc8 => 12
  | .b8 p u f => 32 + p.val * 4 + u.toNat * 2 + f.toNat

/-- What the decoder answers. -/
inductive Decoded where
  | ok (i : Instr) (len : Nat)
  | reject (r : Reject)
deriving DecidableEq, Repr

/-- Format S3: m[31:26], f[25:20], b[19:16], a[15:12], d[11:8]. -/
structure FmtS3 where
  m : BitVec 6
  f : BitVec 6
  b : BitVec 4
  a : BitVec 4
  d : BitVec 4
deriving DecidableEq, Repr

/-- Bits [31:8] of a word in format S3. -/
def FmtS3.bits (x : FmtS3) : BitVec 24 :=
  x.m ++ x.f ++ x.b ++ x.a ++ x.d

/-- The fields of a word in format S3. -/
def FmtS3.of (w : BitVec 24) : FmtS3 where
  m := w.extractLsb' 18 6
  f := w.extractLsb' 12 6
  b := w.extractLsb' 8 4
  a := w.extractLsb' 4 4
  d := w.extractLsb' 0 4

/-- Format SI: imm12[31:20], f[19:16], a[15:12], d[11:8]. -/
structure FmtSI where
  imm : BitVec 12
  f : BitVec 4
  a : BitVec 4
  d : BitVec 4
deriving DecidableEq, Repr

/-- Bits [31:8] of a word in format SI. -/
def FmtSI.bits (x : FmtSI) : BitVec 24 :=
  x.imm ++ x.f ++ x.a ++ x.d

/-- The fields of a word in format SI. -/
def FmtSI.of (w : BitVec 24) : FmtSI where
  imm := w.extractLsb' 12 12
  f := w.extractLsb' 8 4
  a := w.extractLsb' 4 4
  d := w.extractLsb' 0 4

/-- Format SU: imm20[31:12], d[11:8]. -/
structure FmtSU where
  imm : BitVec 20
  d : BitVec 4
deriving DecidableEq, Repr

/-- Bits [31:8] of a word in format SU. -/
def FmtSU.bits (x : FmtSU) : BitVec 24 :=
  x.imm ++ x.d

/-- The fields of a word in format SU. -/
def FmtSU.of (w : BitVec 24) : FmtSU where
  imm := w.extractLsb' 4 20
  d := w.extractLsb' 0 4

/-- Format B: off12[31:20], cond[19:16], b[15:12], a[11:8]. -/
structure FmtB where
  off : BitVec 12
  cond : BitVec 4
  b : BitVec 4
  a : BitVec 4
deriving DecidableEq, Repr

/-- Bits [31:8] of a word in format B. -/
def FmtB.bits (x : FmtB) : BitVec 24 :=
  x.off ++ x.cond ++ x.b ++ x.a

/-- The fields of a word in format B. -/
def FmtB.of (w : BitVec 24) : FmtB where
  off := w.extractLsb' 12 12
  cond := w.extractLsb' 8 4
  b := w.extractLsb' 4 4
  a := w.extractLsb' 0 4

/-- Format J: off20[31:12], d[11:8]. -/
structure FmtJ where
  off : BitVec 20
  d : BitVec 4
deriving DecidableEq, Repr

/-- Bits [31:8] of a word in format J. -/
def FmtJ.bits (x : FmtJ) : BitVec 24 :=
  x.off ++ x.d

/-- The fields of a word in format J. -/
def FmtJ.of (w : BitVec 24) : FmtJ where
  off := w.extractLsb' 4 20
  d := w.extractLsb' 0 4

/-- Format M: off12[31:20], f[19:16], a[15:12], t[11:8]. -/
structure FmtM where
  off : BitVec 12
  f : BitVec 4
  a : BitVec 4
  t : BitVec 4
deriving DecidableEq, Repr

/-- Bits [31:8] of a word in format M. -/
def FmtM.bits (x : FmtM) : BitVec 24 :=
  x.off ++ x.f ++ x.a ++ x.t

/-- The fields of a word in format M. -/
def FmtM.of (w : BitVec 24) : FmtM where
  off := w.extractLsb' 12 12
  f := w.extractLsb' 8 4
  a := w.extractLsb' 4 4
  t := w.extractLsb' 0 4

/-- Format V: f[31:28], p[27:25], hb[24], b[23:19], ha[18], a[17:13], d[12:8]. -/
structure FmtV where
  f : BitVec 4
  p : BitVec 3
  hb : BitVec 1
  b : BitVec 5
  ha : BitVec 1
  a : BitVec 5
  d : BitVec 5
deriving DecidableEq, Repr

/-- Bits [31:8] of a word in format V. -/
def FmtV.bits (x : FmtV) : BitVec 24 :=
  x.f ++ x.p ++ x.hb ++ x.b ++ x.ha ++ x.a ++ x.d

/-- The fields of a word in format V. -/
def FmtV.of (w : BitVec 24) : FmtV where
  f := w.extractLsb' 20 4
  p := w.extractLsb' 17 3
  hb := w.extractLsb' 16 1
  b := w.extractLsb' 11 5
  ha := w.extractLsb' 10 1
  a := w.extractLsb' 5 5
  d := w.extractLsb' 0 5

/-- Format VF: zo[31], zi[30], f[29:28], then as V. -/
structure FmtVF where
  zo : BitVec 1
  zi : BitVec 1
  f : BitVec 2
  p : BitVec 3
  hb : BitVec 1
  b : BitVec 5
  ha : BitVec 1
  a : BitVec 5
  d : BitVec 5
deriving DecidableEq, Repr

/-- Bits [31:8] of a word in format VF. -/
def FmtVF.bits (x : FmtVF) : BitVec 24 :=
  x.zo ++ x.zi ++ x.f ++ x.p ++ x.hb ++ x.b ++ x.ha ++ x.a ++ x.d

/-- The fields of a word in format VF. -/
def FmtVF.of (w : BitVec 24) : FmtVF where
  zo := w.extractLsb' 23 1
  zi := w.extractLsb' 22 1
  f := w.extractLsb' 20 2
  p := w.extractLsb' 17 3
  hb := w.extractLsb' 16 1
  b := w.extractLsb' 11 5
  ha := w.extractLsb' 10 1
  a := w.extractLsb' 5 5
  d := w.extractLsb' 0 5

/-- Format VX: f[31:26], p[25:23], s[22:19], ha[18], a[17:13], d[12:8]. -/
structure FmtVX where
  f : BitVec 6
  p : BitVec 3
  s : BitVec 4
  ha : BitVec 1
  a : BitVec 5
  d : BitVec 5
deriving DecidableEq, Repr

/-- Bits [31:8] of a word in format VX. -/
def FmtVX.bits (x : FmtVX) : BitVec 24 :=
  x.f ++ x.p ++ x.s ++ x.ha ++ x.a ++ x.d

/-- The fields of a word in format VX. -/
def FmtVX.of (w : BitVec 24) : FmtVX where
  f := w.extractLsb' 18 6
  p := w.extractLsb' 15 3
  s := w.extractLsb' 11 4
  ha := w.extractLsb' 10 1
  a := w.extractLsb' 5 5
  d := w.extractLsb' 0 5

/-- Format T: B[31:28], A[27:24], fs[23:21], q[20:18], ac[17:16], fp[15:10], acc[9:8]. -/
structure FmtT where
  b : BitVec 4
  a : BitVec 4
  fs : BitVec 3
  q : BitVec 3
  ac : BitVec 2
  fp : BitVec 6
  acc : BitVec 2
deriving DecidableEq, Repr

/-- Bits [31:8] of a word in format T. -/
def FmtT.bits (x : FmtT) : BitVec 24 :=
  x.b ++ x.a ++ x.fs ++ x.q ++ x.ac ++ x.fp ++ x.acc

/-- The fields of a word in format T. -/
def FmtT.of (w : BitVec 24) : FmtT where
  b := w.extractLsb' 20 4
  a := w.extractLsb' 16 4
  fs := w.extractLsb' 13 3
  q := w.extractLsb' 10 3
  ac := w.extractLsb' 8 2
  fp := w.extractLsb' 2 6
  acc := w.extractLsb' 0 2

/-- Format E: imm4[31:28], f[27:20], b[19:16], a[15:12], d[11:8]. -/
structure FmtE where
  imm : BitVec 4
  f : BitVec 8
  b : BitVec 4
  a : BitVec 4
  d : BitVec 4
deriving DecidableEq, Repr

/-- Bits [31:8] of a word in format E. -/
def FmtE.bits (x : FmtE) : BitVec 24 :=
  x.imm ++ x.f ++ x.b ++ x.a ++ x.d

/-- The fields of a word in format E. -/
def FmtE.of (w : BitVec 24) : FmtE where
  imm := w.extractLsb' 20 4
  f := w.extractLsb' 12 8
  b := w.extractLsb' 8 4
  a := w.extractLsb' 4 4
  d := w.extractLsb' 0 4

/-- Format RF: zero[31:28], len[27:24], sb[23:22], sa[21:20], sd[19:18], cnt[17:12], op[11:8] (02 R33). -/
structure FmtRF where
  mbz : BitVec 4
  len : BitVec 4
  sb : BitVec 2
  sa : BitVec 2
  sd : BitVec 2
  cnt : BitVec 6
  op : BitVec 4
deriving DecidableEq, Repr

/-- Bits [31:8] of a word in format RF. -/
def FmtRF.bits (x : FmtRF) : BitVec 24 :=
  x.mbz ++ x.len ++ x.sb ++ x.sa ++ x.sd ++ x.cnt ++ x.op

/-- The fields of a word in format RF. -/
def FmtRF.of (w : BitVec 24) : FmtRF where
  mbz := w.extractLsb' 20 4
  len := w.extractLsb' 16 4
  sb := w.extractLsb' 14 2
  sa := w.extractLsb' 12 2
  sd := w.extractLsb' 10 2
  cnt := w.extractLsb' 4 6
  op := w.extractLsb' 0 4

/-- A 32-bit word from bits [31:8], the stall count and the major (02 R30). -/
def wordOf (bits : BitVec 24) (sc : BitVec 2) (major : BitVec 5) : BitVec 32 := bits ++ sc ++ major ++ 1#1

/-- A compact halfword from its payload and major (02 R34). -/
def halfOf (payload : BitVec 11) (major : BitVec 4) : BitVec 16 := payload ++ major ++ 0#1

/-- The halfword of c.vty for a pair of types (02 R34, R35). -/
def Pre.half (p : Pre) : BitVec 16 :=
  halfOf (BitVec.ofNat 5 p.t2.code ++ BitVec.ofNat 6 p.t1.code) 7

/-- The types that a c.vty halfword names; none where a code is reserved. -/
def Pre.ofHalf (h : BitVec 16) : Option Pre :=
  match Ty.ofCode (h.extractLsb' 5 6).toNat, Ty.ofCode (h.extractLsb' 11 5).toNat with
  | some t, some u => some ⟨t, u⟩
  | _, _ => none

/-- The halfwords of a word, the low one first (02 R29). -/
def halves (w : BitVec 32) : List (BitVec 16) := [w.extractLsb' 0 16, w.extractLsb' 16 16]

/-- The halfwords of a vector instruction with its prefix. -/
def halvesPre (pre : Option Pre) (w : BitVec 32) : List (BitVec 16) :=
  match pre with
  | none => halves w
  | some p => p.half :: halves w

/-- The halfwords of an instruction. An event has none: it is a row of the table and no word. -/
def encode : Instr → List (BitVec 16)
  | .coldReset .. => []
  | .warmReset .. => []
  | .firmwareImage .. => []
  | .wallTick .. => []
  | .quantumEnd .. => []
  | .rebaseSweep .. => []
  | .ferrymasterScan .. => []
  | .arbiterWindow .. => []
  | .swallowBoundary .. => []
  | .sensorFailure .. => []
  | .thermalThrottle .. => []
  | .correctableError .. => []
  | .uncorrectableError .. => []
  | .linkRetry .. => []
  | .laneRepair .. => []
  | .linkFailure .. => []
  | .peerTimeout .. => []
  | .peerWriteAck .. => []
  | .messageDelivery .. => []
  | .handlerStart .. => []
  | .transferCompletion .. => []
  | .copyRingReserve .. => []
  | .streamFill .. => []
  | .chainJoin .. => []
  | .budgetGrant .. => []
  | .mmaDelivery .. => []
  | .resultDelivery .. => []
  | .slipwayResolve .. => []
  | .launchMessage .. => []
  | .dispatch .. => []
  | .jobRetire .. => []
  | .launchCompletion .. => []
  | .stepHalt .. => []
  | .upcallStart .. => []
  | .pageFlip .. => []
  | .replicaCommit .. => []
  | .cacheEviction .. => []
  | .registerTimedRegion .. => []
  | .withdrawTimedRegion .. => []
  | .dropPageTranslations .. => []
  | .dropAsidTranslations .. => []
  | .preemptJob .. => []
  | .rebind .. => []
  | .bindStream .. => []
  | .unbindStream .. => []
  | .setDomain .. => []
  | .defineGroup .. => []
  | .dropGroup .. => []
  | .readBlackBox .. => []
  | .externalPowerLimit .. => []
  | .attestation .. => []
  | .releaseEvents .. => []
  | .yelikHold .. => []
  | .yelikResume .. => []
  | .yelikStep .. => []
  | .yelikRead .. => []
  | .yelikWrite .. => []
  | .yelikSetBreak .. => []
  | .yelikReadSignalRing .. => []
  | .debuggerAttach .. => []
  | .debuggerDetach .. => []
  | .collectiveContribution .. => []
  | .collectiveResult .. => []
  | .ctxOobWrite .. => []
  | .ctxModeWrite .. => []
  | .coreSwallowWrite .. => []
  | .crewQuantumWrite .. => []
  | .devPlimitWrite .. => []
  | .devCrbaseWrite .. => []
  | .fwBboxClear .. => []
  | .add o => halves (wordOf (FmtS3.bits ⟨0, 0, o.b, o.a, o.d⟩) o.sc 0)
  | .sub o => halves (wordOf (FmtS3.bits ⟨0, 1, o.b, o.a, o.d⟩) o.sc 0)
  | .and o => halves (wordOf (FmtS3.bits ⟨0, 2, o.b, o.a, o.d⟩) o.sc 0)
  | .or o => halves (wordOf (FmtS3.bits ⟨0, 3, o.b, o.a, o.d⟩) o.sc 0)
  | .xor o => halves (wordOf (FmtS3.bits ⟨0, 4, o.b, o.a, o.d⟩) o.sc 0)
  | .sll o => halves (wordOf (FmtS3.bits ⟨0, 5, o.b, o.a, o.d⟩) o.sc 0)
  | .srl o => halves (wordOf (FmtS3.bits ⟨0, 6, o.b, o.a, o.d⟩) o.sc 0)
  | .sra o => halves (wordOf (FmtS3.bits ⟨0, 7, o.b, o.a, o.d⟩) o.sc 0)
  | .slt o => halves (wordOf (FmtS3.bits ⟨0, 8, o.b, o.a, o.d⟩) o.sc 0)
  | .sltw o => halves (wordOf (FmtS3.bits ⟨0, 9, o.b, o.a, o.d⟩) o.sc 0)
  | .seq o => halves (wordOf (FmtS3.bits ⟨0, 10, o.b, o.a, o.d⟩) o.sc 0)
  | .sne o => halves (wordOf (FmtS3.bits ⟨0, 11, o.b, o.a, o.d⟩) o.sc 0)
  | .min o => halves (wordOf (FmtS3.bits ⟨0, 12, o.b, o.a, o.d⟩) o.sc 0)
  | .max o => halves (wordOf (FmtS3.bits ⟨0, 13, o.b, o.a, o.d⟩) o.sc 0)
  | .minw o => halves (wordOf (FmtS3.bits ⟨0, 14, o.b, o.a, o.d⟩) o.sc 0)
  | .maxw o => halves (wordOf (FmtS3.bits ⟨0, 15, o.b, o.a, o.d⟩) o.sc 0)
  | .mul o => halves (wordOf (FmtS3.bits ⟨0, 16, o.b, o.a, o.d⟩) o.sc 0)
  | .mulh o => halves (wordOf (FmtS3.bits ⟨0, 17, o.b, o.a, o.d⟩) o.sc 0)
  | .mulhw o => halves (wordOf (FmtS3.bits ⟨0, 18, o.b, o.a, o.d⟩) o.sc 0)
  | .div o => halves (wordOf (FmtS3.bits ⟨0, 19, o.b, o.a, o.d⟩) o.sc 0)
  | .divw o => halves (wordOf (FmtS3.bits ⟨0, 20, o.b, o.a, o.d⟩) o.sc 0)
  | .rem o => halves (wordOf (FmtS3.bits ⟨0, 21, o.b, o.a, o.d⟩) o.sc 0)
  | .remw o => halves (wordOf (FmtS3.bits ⟨0, 22, o.b, o.a, o.d⟩) o.sc 0)
  | .adds o => halves (wordOf (FmtS3.bits ⟨0, 23, o.b, o.a, o.d⟩) o.sc 0)
  | .subs o => halves (wordOf (FmtS3.bits ⟨0, 24, o.b, o.a, o.d⟩) o.sc 0)
  | .addsw o => halves (wordOf (FmtS3.bits ⟨0, 25, o.b, o.a, o.d⟩) o.sc 0)
  | .subsw o => halves (wordOf (FmtS3.bits ⟨0, 26, o.b, o.a, o.d⟩) o.sc 0)
  | .add32 o => halves (wordOf (FmtS3.bits ⟨0, 27, o.b, o.a, o.d⟩) o.sc 0)
  | .sub32 o => halves (wordOf (FmtS3.bits ⟨0, 28, o.b, o.a, o.d⟩) o.sc 0)
  | .sll32 o => halves (wordOf (FmtS3.bits ⟨0, 29, o.b, o.a, o.d⟩) o.sc 0)
  | .srl32 o => halves (wordOf (FmtS3.bits ⟨0, 30, o.b, o.a, o.d⟩) o.sc 0)
  | .sra32 o => halves (wordOf (FmtS3.bits ⟨0, 31, o.b, o.a, o.d⟩) o.sc 0)
  | .mul32 o => halves (wordOf (FmtS3.bits ⟨0, 32, o.b, o.a, o.d⟩) o.sc 0)
  | .clz o => halves (wordOf (FmtS3.bits ⟨0, 33, 0, o.a, o.d⟩) o.sc 0)
  | .ctz o => halves (wordOf (FmtS3.bits ⟨0, 34, 0, o.a, o.d⟩) o.sc 0)
  | .popc o => halves (wordOf (FmtS3.bits ⟨0, 35, 0, o.a, o.d⟩) o.sc 0)
  | .rol o => halves (wordOf (FmtS3.bits ⟨0, 36, o.b, o.a, o.d⟩) o.sc 0)
  | .ror o => halves (wordOf (FmtS3.bits ⟨0, 37, o.b, o.a, o.d⟩) o.sc 0)
  | .addi o => halves (wordOf (FmtSI.bits ⟨o.imm, 0, o.a, o.d⟩) o.sc 1)
  | .andi o => halves (wordOf (FmtSI.bits ⟨o.imm, 1, o.a, o.d⟩) o.sc 1)
  | .ori o => halves (wordOf (FmtSI.bits ⟨o.imm, 2, o.a, o.d⟩) o.sc 1)
  | .xori o => halves (wordOf (FmtSI.bits ⟨o.imm, 3, o.a, o.d⟩) o.sc 1)
  | .slli o => halves (wordOf (FmtSI.bits ⟨o.sh.setWidth 12, 4, o.a, o.d⟩) o.sc 1)
  | .srli o => halves (wordOf (FmtSI.bits ⟨o.sh.setWidth 12, 5, o.a, o.d⟩) o.sc 1)
  | .srai o => halves (wordOf (FmtSI.bits ⟨o.sh.setWidth 12, 6, o.a, o.d⟩) o.sc 1)
  | .slti o => halves (wordOf (FmtSI.bits ⟨o.imm, 7, o.a, o.d⟩) o.sc 1)
  | .sltwi o => halves (wordOf (FmtSI.bits ⟨o.imm, 8, o.a, o.d⟩) o.sc 1)
  | .seqi o => halves (wordOf (FmtSI.bits ⟨o.imm, 9, o.a, o.d⟩) o.sc 1)
  | .addi32 o => halves (wordOf (FmtSI.bits ⟨o.imm, 10, o.a, o.d⟩) o.sc 1)
  | .slli32 o => halves (wordOf (FmtSI.bits ⟨o.sh.setWidth 12, 11, o.a, o.d⟩) o.sc 1)
  | .srli32 o => halves (wordOf (FmtSI.bits ⟨o.sh.setWidth 12, 12, o.a, o.d⟩) o.sc 1)
  | .srai32 o => halves (wordOf (FmtSI.bits ⟨o.sh.setWidth 12, 13, o.a, o.d⟩) o.sc 1)
  | .lhi o => halves (wordOf (FmtSU.bits ⟨o.u ++ (0#1), o.d⟩) o.sc 2)
  | .pchi o => halves (wordOf (FmtSU.bits ⟨o.u ++ (1#1), o.d⟩) o.sc 2)
  | .beq o => halves (wordOf (FmtB.bits ⟨o.off, o.hint ++ (0#3), o.b, o.a⟩) o.sc 3)
  | .bne o => halves (wordOf (FmtB.bits ⟨o.off, o.hint ++ (1#3), o.b, o.a⟩) o.sc 3)
  | .blt o => halves (wordOf (FmtB.bits ⟨o.off, o.hint ++ (2#3), o.b, o.a⟩) o.sc 3)
  | .bge o => halves (wordOf (FmtB.bits ⟨o.off, o.hint ++ (3#3), o.b, o.a⟩) o.sc 3)
  | .bltw o => halves (wordOf (FmtB.bits ⟨o.off, o.hint ++ (4#3), o.b, o.a⟩) o.sc 3)
  | .bgew o => halves (wordOf (FmtB.bits ⟨o.off, o.hint ++ (5#3), o.b, o.a⟩) o.sc 3)
  | .banz o => halves (wordOf (FmtB.bits ⟨o.off, o.hint ++ (6#3), o.b, o.a⟩) o.sc 3)
  | .baz o => halves (wordOf (FmtB.bits ⟨o.off, o.hint ++ (7#3), o.b, o.a⟩) o.sc 3)
  | .jl o => halves (wordOf (FmtJ.bits ⟨o.off, o.d⟩) o.sc 4)
  | .jlr o => halves (wordOf (FmtSI.bits ⟨o.imm, 0, o.a, o.d⟩) o.sc 5)
  | .jlrCall o => halves (wordOf (FmtSI.bits ⟨o.imm, 1, o.a, o.d⟩) o.sc 5)
  | .jlrRet o => halves (wordOf (FmtSI.bits ⟨o.imm, 2, o.a, o.d⟩) o.sc 5)
  | .ldI8 o => halves (wordOf (FmtM.bits ⟨o.off, 0, o.a, o.t⟩) o.sc 6)
  | .ldI16 o => halves (wordOf (FmtM.bits ⟨o.off, 1, o.a, o.t⟩) o.sc 6)
  | .ldI32 o => halves (wordOf (FmtM.bits ⟨o.off, 2, o.a, o.t⟩) o.sc 6)
  | .ldI64 o => halves (wordOf (FmtM.bits ⟨o.off, 3, o.a, o.t⟩) o.sc 6)
  | .ldW8 o => halves (wordOf (FmtM.bits ⟨o.off, 4, o.a, o.t⟩) o.sc 6)
  | .ldW16 o => halves (wordOf (FmtM.bits ⟨o.off, 5, o.a, o.t⟩) o.sc 6)
  | .ldW32 o => halves (wordOf (FmtM.bits ⟨o.off, 6, o.a, o.t⟩) o.sc 6)
  | .fldF32 o => halves (wordOf (FmtM.bits ⟨o.off, 7, o.a, o.t.setWidth 4⟩) o.sc 6)
  | .fldH16 o => halves (wordOf (FmtM.bits ⟨o.off, 8, o.a, o.t.setWidth 4⟩) o.sc 6)
  | .fldBf16 o => halves (wordOf (FmtM.bits ⟨o.off, 9, o.a, o.t.setWidth 4⟩) o.sc 6)
  | .fld64 o => halves (wordOf (FmtM.bits ⟨o.off, 10, o.a, o.t.setWidth 4⟩) o.sc 6)
  | .st8 o => halves (wordOf (FmtM.bits ⟨o.off, 0, o.a, o.t⟩) o.sc 7)
  | .st16 o => halves (wordOf (FmtM.bits ⟨o.off, 1, o.a, o.t⟩) o.sc 7)
  | .st32 o => halves (wordOf (FmtM.bits ⟨o.off, 2, o.a, o.t⟩) o.sc 7)
  | .st64 o => halves (wordOf (FmtM.bits ⟨o.off, 3, o.a, o.t⟩) o.sc 7)
  | .fst32 o => halves (wordOf (FmtM.bits ⟨o.off, 4, o.a, o.t.setWidth 4⟩) o.sc 7)
  | .fst16 o => halves (wordOf (FmtM.bits ⟨o.off, 5, o.a, o.t.setWidth 4⟩) o.sc 7)
  | .fst64 o => halves (wordOf (FmtM.bits ⟨o.off, 6, o.a, o.t.setWidth 4⟩) o.sc 7)
  | .amadd o => halves (wordOf (FmtS3.bits ⟨o.ord ++ o.scope ++ (0#1), o.size ++ (0#5), o.b, o.a, o.d⟩) o.sc 8)
  | .amand o => halves (wordOf (FmtS3.bits ⟨o.ord ++ o.scope ++ (0#1), o.size ++ (1#5), o.b, o.a, o.d⟩) o.sc 8)
  | .amor o => halves (wordOf (FmtS3.bits ⟨o.ord ++ o.scope ++ (0#1), o.size ++ (2#5), o.b, o.a, o.d⟩) o.sc 8)
  | .amxor o => halves (wordOf (FmtS3.bits ⟨o.ord ++ o.scope ++ (0#1), o.size ++ (3#5), o.b, o.a, o.d⟩) o.sc 8)
  | .ammin o => halves (wordOf (FmtS3.bits ⟨o.ord ++ o.scope ++ (0#1), o.size ++ (4#5), o.b, o.a, o.d⟩) o.sc 8)
  | .ammax o => halves (wordOf (FmtS3.bits ⟨o.ord ++ o.scope ++ (0#1), o.size ++ (5#5), o.b, o.a, o.d⟩) o.sc 8)
  | .amminw o => halves (wordOf (FmtS3.bits ⟨o.ord ++ o.scope ++ (0#1), o.size ++ (6#5), o.b, o.a, o.d⟩) o.sc 8)
  | .ammaxw o => halves (wordOf (FmtS3.bits ⟨o.ord ++ o.scope ++ (0#1), o.size ++ (7#5), o.b, o.a, o.d⟩) o.sc 8)
  | .amswap o => halves (wordOf (FmtS3.bits ⟨o.ord ++ o.scope ++ (0#1), o.size ++ (8#5), o.b, o.a, o.d⟩) o.sc 8)
  | .amcas o => halves (wordOf (FmtS3.bits ⟨o.ord ++ o.scope ++ (0#1), o.size ++ (9#5), o.b, o.a, o.d⟩) o.sc 8)
  | .ldo o => halves (wordOf (FmtS3.bits ⟨o.ord ++ o.scope ++ (0#1), o.size ++ (10#5), 0, o.a, o.d⟩) o.sc 8)
  | .sto o => halves (wordOf (FmtS3.bits ⟨o.ord ++ o.scope ++ (0#1), o.size ++ (11#5), o.b, o.a, 0⟩) o.sc 8)
  | .fence o => halves (wordOf (FmtE.bits ⟨o.sets, (0#5) ++ o.scope, 0, 0, 0⟩) o.sc 9)
  | .ifence o => halves (wordOf (FmtE.bits ⟨0, 16, 0, 0, 0⟩) o.sc 9)
  | .fadd o => halves (wordOf (FmtS3.bits ⟨(0#4) ++ o.fmt, 0, o.b.setWidth 4, o.a.setWidth 4, o.d.setWidth 4⟩) o.sc 10)
  | .fsub o => halves (wordOf (FmtS3.bits ⟨(0#4) ++ o.fmt, 1, o.b.setWidth 4, o.a.setWidth 4, o.d.setWidth 4⟩) o.sc 10)
  | .fmul o => halves (wordOf (FmtS3.bits ⟨(0#4) ++ o.fmt, 2, o.b.setWidth 4, o.a.setWidth 4, o.d.setWidth 4⟩) o.sc 10)
  | .fdiv o => halves (wordOf (FmtS3.bits ⟨(0#4) ++ o.fmt, 3, o.b.setWidth 4, o.a.setWidth 4, o.d.setWidth 4⟩) o.sc 10)
  | .fsqrt o => halves (wordOf (FmtS3.bits ⟨(0#4) ++ o.fmt, 4, 0, o.a.setWidth 4, o.d.setWidth 4⟩) o.sc 10)
  | .fmin o => halves (wordOf (FmtS3.bits ⟨(0#4) ++ o.fmt, 5, o.b.setWidth 4, o.a.setWidth 4, o.d.setWidth 4⟩) o.sc 10)
  | .fmax o => halves (wordOf (FmtS3.bits ⟨(0#4) ++ o.fmt, 6, o.b.setWidth 4, o.a.setWidth 4, o.d.setWidth 4⟩) o.sc 10)
  | .fma o => halves (wordOf (FmtS3.bits ⟨(0#4) ++ o.fmt, 7, o.b.setWidth 4, o.a.setWidth 4, o.d.setWidth 4⟩) o.sc 10)
  | .fneg o => halves (wordOf (FmtS3.bits ⟨(0#4) ++ o.fmt, 8, 0, o.a.setWidth 4, o.d.setWidth 4⟩) o.sc 10)
  | .fabs o => halves (wordOf (FmtS3.bits ⟨(0#4) ++ o.fmt, 9, 0, o.a.setWidth 4, o.d.setWidth 4⟩) o.sc 10)
  | .fceq o => halves (wordOf (FmtS3.bits ⟨(0#4) ++ o.fmt, 10, o.b.setWidth 4, o.a.setWidth 4, o.d⟩) o.sc 10)
  | .fclt o => halves (wordOf (FmtS3.bits ⟨(0#4) ++ o.fmt, 11, o.b.setWidth 4, o.a.setWidth 4, o.d⟩) o.sc 10)
  | .fcle o => halves (wordOf (FmtS3.bits ⟨(0#4) ++ o.fmt, 12, o.b.setWidth 4, o.a.setWidth 4, o.d⟩) o.sc 10)
  | .fcvti o => halves (wordOf (FmtS3.bits ⟨o.wide ++ o.whole ++ (0#1) ++ o.sat ++ o.fmt, 13, 0, o.a.setWidth 4, o.d⟩) o.sc 10)
  | .fcvtf o => halves (wordOf (FmtS3.bits ⟨o.wide ++ o.whole ++ (0#2) ++ o.fmt, 14, 0, o.a, o.d.setWidth 4⟩) o.sc 10)
  | .fcvt o => halves (wordOf (FmtS3.bits ⟨(0#2) ++ o.src ++ o.fmt, 15, 0, o.a.setWidth 4, o.d.setWidth 4⟩) o.sc 10)
  | .fmvs o => halves (wordOf (FmtS3.bits ⟨0, 16, 0, o.a.setWidth 4, o.d⟩) o.sc 10)
  | .fmvf o => halves (wordOf (FmtS3.bits ⟨0, 17, 0, o.a, o.d.setWidth 4⟩) o.sc 10)
  | .vadd o => halvesPre o.pre (wordOf (FmtV.bits ⟨0, o.p, o.hb, o.b, o.ha, o.a, o.d⟩) o.sc 11)
  | .vsub o => halvesPre o.pre (wordOf (FmtV.bits ⟨1, o.p, o.hb, o.b, o.ha, o.a, o.d⟩) o.sc 11)
  | .vmul o => halvesPre o.pre (wordOf (FmtV.bits ⟨2, o.p, o.hb, o.b, o.ha, o.a, o.d⟩) o.sc 11)
  | .vmulh o => halvesPre o.pre (wordOf (FmtV.bits ⟨3, o.p, o.hb, o.b, o.ha, o.a, o.d⟩) o.sc 11)
  | .vmin o => halvesPre o.pre (wordOf (FmtV.bits ⟨4, o.p, o.hb, o.b, o.ha, o.a, o.d⟩) o.sc 11)
  | .vmax o => halvesPre o.pre (wordOf (FmtV.bits ⟨5, o.p, o.hb, o.b, o.ha, o.a, o.d⟩) o.sc 11)
  | .vand o => halvesPre o.pre (wordOf (FmtV.bits ⟨6, o.p, o.hb, o.b, o.ha, o.a, o.d⟩) o.sc 11)
  | .vor o => halvesPre o.pre (wordOf (FmtV.bits ⟨7, o.p, o.hb, o.b, o.ha, o.a, o.d⟩) o.sc 11)
  | .vxor o => halvesPre o.pre (wordOf (FmtV.bits ⟨8, o.p, o.hb, o.b, o.ha, o.a, o.d⟩) o.sc 11)
  | .vsll o => halvesPre o.pre (wordOf (FmtV.bits ⟨9, o.p, o.hb, o.b, o.ha, o.a, o.d⟩) o.sc 11)
  | .vsrl o => halvesPre o.pre (wordOf (FmtV.bits ⟨10, o.p, o.hb, o.b, o.ha, o.a, o.d⟩) o.sc 11)
  | .vsra o => halvesPre o.pre (wordOf (FmtV.bits ⟨11, o.p, o.hb, o.b, o.ha, o.a, o.d⟩) o.sc 11)
  | .vadds o => halvesPre o.pre (wordOf (FmtV.bits ⟨12, o.p, o.hb, o.b, o.ha, o.a, o.d⟩) o.sc 11)
  | .vsubs o => halvesPre o.pre (wordOf (FmtV.bits ⟨13, o.p, o.hb, o.b, o.ha, o.a, o.d⟩) o.sc 11)
  | .vabs o => halvesPre o.pre (wordOf (FmtV.bits ⟨14, o.p, 0, 0, o.ha, o.a, o.d⟩) o.sc 11)
  | .vandn o => halvesPre o.pre (wordOf (FmtV.bits ⟨15, o.p, o.hb, o.b, o.ha, o.a, o.d⟩) o.sc 11)
  | .vfadd o => halvesPre o.pre (wordOf (FmtVF.bits ⟨o.zo, o.zi, 0, o.p, o.hb, o.b, o.ha, o.a, o.d⟩) o.sc 12)
  | .vfsub o => halvesPre o.pre (wordOf (FmtVF.bits ⟨o.zo, o.zi, 1, o.p, o.hb, o.b, o.ha, o.a, o.d⟩) o.sc 12)
  | .vfmul o => halvesPre o.pre (wordOf (FmtVF.bits ⟨o.zo, o.zi, 2, o.p, o.hb, o.b, o.ha, o.a, o.d⟩) o.sc 12)
  | .vfmin o => halvesPre o.pre (wordOf (FmtVF.bits ⟨o.zo, o.zi, 3, o.p, o.hb, o.b, o.ha, o.a, o.d⟩) o.sc 12)
  | .vfmax o => halvesPre o.pre (wordOf (FmtVF.bits ⟨o.zo, o.zi, 3, o.p, o.hb, o.b, o.ha, o.a, o.d⟩) o.sc 12)
  | .vfma o => halvesPre o.pre (wordOf (FmtVF.bits ⟨o.zo, o.zi, 0, o.p, o.hb, o.b, o.ha, o.a, o.d⟩) o.sc 13)
  | .vfms o => halvesPre o.pre (wordOf (FmtVF.bits ⟨o.zo, o.zi, 1, o.p, o.hb, o.b, o.ha, o.a, o.d⟩) o.sc 13)
  | .vfnma o => halvesPre o.pre (wordOf (FmtVF.bits ⟨o.zo, o.zi, 2, o.p, o.hb, o.b, o.ha, o.a, o.d⟩) o.sc 13)
  | .vfnms o => halvesPre o.pre (wordOf (FmtVF.bits ⟨o.zo, o.zi, 3, o.p, o.hb, o.b, o.ha, o.a, o.d⟩) o.sc 13)
  | .vcvtN o => halvesPre o.pre (wordOf (FmtV.bits ⟨0, o.p, 0, o.part, o.ha, o.a, o.d⟩) o.sc 14)
  | .vcvtS o => halvesPre o.pre (wordOf (FmtV.bits ⟨1, o.p, 0, o.part, o.ha, o.a, o.d⟩) o.sc 14)
  | .vcvtX o => halvesPre o.pre (wordOf (FmtV.bits ⟨2, o.p, 0, o.part, o.ha, o.a, o.d⟩) o.sc 14)
  | .vcvtF o => halvesPre o.pre (wordOf (FmtV.bits ⟨3, o.p, 0, o.part, o.ha, o.a, o.d⟩) o.sc 14)
  | .vcvtFi o => halvesPre o.pre (wordOf (FmtV.bits ⟨4, o.p, 0, o.part, o.ha, o.a, o.d⟩) o.sc 14)
  | .vcvtFis o => halvesPre o.pre (wordOf (FmtV.bits ⟨5, o.p, 0, o.part, o.ha, o.a, o.d⟩) o.sc 14)
  | .vcvtIf o => halvesPre o.pre (wordOf (FmtV.bits ⟨6, o.p, 0, o.part, o.ha, o.a, o.d⟩) o.sc 14)
  | .vcvtIi o => halvesPre o.pre (wordOf (FmtV.bits ⟨7, o.p, 0, o.part, o.ha, o.a, o.d⟩) o.sc 14)
  | .vcvtIis o => halvesPre o.pre (wordOf (FmtV.bits ⟨8, o.p, 0, o.part, o.ha, o.a, o.d⟩) o.sc 14)
  | .vscget o => halvesPre o.pre (wordOf (FmtV.bits ⟨9, o.p, 0, 0, o.ha, o.a, o.d⟩) o.sc 14)
  | .vscapply o => halvesPre o.pre (wordOf (FmtV.bits ⟨10, o.p, o.hb, o.b, o.ha, o.a, o.d⟩) o.sc 14)
  | .vmv o => halvesPre o.pre (wordOf (FmtV.bits ⟨0, o.p, 0, 0, o.ha, o.a, o.d⟩) o.sc 15)
  | .vperm o => halvesPre o.pre (wordOf (FmtV.bits ⟨1, o.p, o.hb, o.b, o.ha, o.a, o.d⟩) o.sc 15)
  | .vzipl o => halvesPre o.pre (wordOf (FmtV.bits ⟨2, o.p, o.hb, o.b, o.ha, o.a, o.d⟩) o.sc 15)
  | .vziph o => halvesPre o.pre (wordOf (FmtV.bits ⟨3, o.p, o.hb, o.b, o.ha, o.a, o.d⟩) o.sc 15)
  | .vunze o => halvesPre o.pre (wordOf (FmtV.bits ⟨4, o.p, o.hb, o.b, o.ha, o.a, o.d⟩) o.sc 15)
  | .vunzo o => halvesPre o.pre (wordOf (FmtV.bits ⟨5, o.p, o.hb, o.b, o.ha, o.a, o.d⟩) o.sc 15)
  | .vslu o => halvesPre o.pre (wordOf (FmtV.bits ⟨6, o.p, o.hb, o.b, o.ha, o.a, o.d⟩) o.sc 15)
  | .vsld o => halvesPre o.pre (wordOf (FmtV.bits ⟨7, o.p, o.hb, o.b, o.ha, o.a, o.d⟩) o.sc 15)
  | .vbcast o => halvesPre o.pre (wordOf (FmtV.bits ⟨8, o.p, 0, 0, o.ha, o.a, o.d⟩) o.sc 15)
  | .vrev o => halvesPre o.pre (wordOf (FmtV.bits ⟨9, o.p, 0, 0, o.ha, o.a, o.d⟩) o.sc 15)
  | .vtrnl o => halvesPre o.pre (wordOf (FmtV.bits ⟨10, o.p, o.hb, o.b, o.ha, o.a, o.d⟩) o.sc 15)
  | .vtrnh o => halvesPre o.pre (wordOf (FmtV.bits ⟨11, o.p, o.hb, o.b, o.ha, o.a, o.d⟩) o.sc 15)
  | .vcompress o => halvesPre o.pre (wordOf (FmtV.bits ⟨12, o.p, 0, 0, o.ha, o.a, o.d⟩) o.sc 15)
  | .vexpand o => halvesPre o.pre (wordOf (FmtV.bits ⟨13, o.p, 0, 0, o.ha, o.a, o.d⟩) o.sc 15)
  | .vrsum o => halvesPre o.pre (wordOf (FmtV.bits ⟨0, o.p, 0, 0, o.ha, o.a, o.d⟩) o.sc 16)
  | .vrfsum o => halvesPre o.pre (wordOf (FmtV.bits ⟨1, o.p, 0, 0, o.ha, o.a, o.d⟩) o.sc 16)
  | .vrmin o => halvesPre o.pre (wordOf (FmtV.bits ⟨2, o.p, 0, 0, o.ha, o.a, o.d⟩) o.sc 16)
  | .vrmax o => halvesPre o.pre (wordOf (FmtV.bits ⟨3, o.p, 0, 0, o.ha, o.a, o.d⟩) o.sc 16)
  | .vrfmin o => halvesPre o.pre (wordOf (FmtV.bits ⟨4, o.p, 0, 0, o.ha, o.a, o.d⟩) o.sc 16)
  | .vrfmax o => halvesPre o.pre (wordOf (FmtV.bits ⟨5, o.p, 0, 0, o.ha, o.a, o.d⟩) o.sc 16)
  | .vrand o => halvesPre o.pre (wordOf (FmtV.bits ⟨6, o.p, 0, 0, o.ha, o.a, o.d⟩) o.sc 16)
  | .vrior o => halvesPre o.pre (wordOf (FmtV.bits ⟨7, o.p, 0, 0, o.ha, o.a, o.d⟩) o.sc 16)
  | .vrxor o => halvesPre o.pre (wordOf (FmtV.bits ⟨8, o.p, 0, 0, o.ha, o.a, o.d⟩) o.sc 16)
  | .vrfsumw o => halvesPre o.pre (wordOf (FmtV.bits ⟨9, o.p, 0, 0, o.ha, o.a, o.d⟩) o.sc 16)
  | .vld o => halvesPre o.pre (wordOf (FmtVX.bits ⟨0, o.p, o.s, 0, 0, o.d⟩) o.sc 17)
  | .vst o => halvesPre o.pre (wordOf (FmtVX.bits ⟨1, o.p, o.s, o.ha, o.a, 0⟩) o.sc 17)
  | .vldx o => halvesPre o.pre (wordOf (FmtVX.bits ⟨2, o.p, o.s, o.ha, o.a, o.d⟩) o.sc 17)
  | .vstx o => halvesPre o.pre (wordOf (FmtVX.bits ⟨3, o.p, o.s, o.ha, o.a, o.d⟩) o.sc 17)
  | .vldb o => halvesPre o.pre (wordOf (FmtVX.bits ⟨4, o.p, o.s, 0, 0, o.d⟩) o.sc 17)
  | .vldh o => halvesPre o.pre (wordOf (FmtVX.bits ⟨5, o.p, o.s, 0, 0, o.d⟩) o.sc 17)
  | .vsth o => halvesPre o.pre (wordOf (FmtVX.bits ⟨6, o.p, o.s, o.ha, o.a, 0⟩) o.sc 17)
  | .pld o => halvesPre o.pre (wordOf (FmtVX.bits ⟨7, 0, o.s, 0, 0, o.d.setWidth 5⟩) o.sc 17)
  | .pst o => halvesPre o.pre (wordOf (FmtVX.bits ⟨8, 0, o.s, 0, o.a.setWidth 5, 0⟩) o.sc 17)
  | .vaddx o => halvesPre o.pre (wordOf (FmtVX.bits ⟨0, o.p, o.s, o.ha, o.a, o.d⟩) o.sc 18)
  | .vsubx o => halvesPre o.pre (wordOf (FmtVX.bits ⟨1, o.p, o.s, o.ha, o.a, o.d⟩) o.sc 18)
  | .vmulx o => halvesPre o.pre (wordOf (FmtVX.bits ⟨2, o.p, o.s, o.ha, o.a, o.d⟩) o.sc 18)
  | .vfaddx o => halvesPre o.pre (wordOf (FmtVX.bits ⟨3, o.p, o.s.setWidth 4, o.ha, o.a, o.d⟩) o.sc 18)
  | .vfmulx o => halvesPre o.pre (wordOf (FmtVX.bits ⟨4, o.p, o.s.setWidth 4, o.ha, o.a, o.d⟩) o.sc 18)
  | .vfmacx o => halvesPre o.pre (wordOf (FmtVX.bits ⟨5, o.p, o.s.setWidth 4, o.ha, o.a, o.d⟩) o.sc 18)
  | .vsplat o => halvesPre o.pre (wordOf (FmtVX.bits ⟨6, o.p, o.s, 0, 0, o.d⟩) o.sc 18)
  | .vfsplat o => halvesPre o.pre (wordOf (FmtVX.bits ⟨7, o.p, o.s.setWidth 4, 0, 0, o.d⟩) o.sc 18)
  | .vins o => halvesPre o.pre (wordOf (FmtVX.bits ⟨8, o.p, o.s, 0, 0, o.d⟩) o.sc 18)
  | .vext o => halvesPre o.pre (wordOf (FmtVX.bits ⟨9, 0, o.s, o.ha, o.a, 0⟩) o.sc 18)
  | .vweir o => halvesPre o.pre (wordOf (FmtVX.bits ⟨10, o.p, o.s, o.ha, o.a, o.d⟩) o.sc 18)
  | .vsllx o => halvesPre o.pre (wordOf (FmtVX.bits ⟨11, o.p, o.s, o.ha, o.a, o.d⟩) o.sc 18)
  | .vsrlx o => halvesPre o.pre (wordOf (FmtVX.bits ⟨12, o.p, o.s, o.ha, o.a, o.d⟩) o.sc 18)
  | .vsrax o => halvesPre o.pre (wordOf (FmtVX.bits ⟨13, o.p, o.s, o.ha, o.a, o.d⟩) o.sc 18)
  | .viota o => halvesPre o.pre (wordOf (FmtVX.bits ⟨14, o.p, o.s, 0, 0, o.d⟩) o.sc 18)
  | .vceq o => halvesPre o.pre (wordOf (FmtV.bits ⟨0, o.p, o.hb, o.b, o.ha, o.a, o.d.setWidth 5⟩) o.sc 19)
  | .vcne o => halvesPre o.pre (wordOf (FmtV.bits ⟨1, o.p, o.hb, o.b, o.ha, o.a, o.d.setWidth 5⟩) o.sc 19)
  | .vclt o => halvesPre o.pre (wordOf (FmtV.bits ⟨2, o.p, o.hb, o.b, o.ha, o.a, o.d.setWidth 5⟩) o.sc 19)
  | .vcle o => halvesPre o.pre (wordOf (FmtV.bits ⟨3, o.p, o.hb, o.b, o.ha, o.a, o.d.setWidth 5⟩) o.sc 19)
  | .vfceq o => halvesPre o.pre (wordOf (FmtV.bits ⟨4, o.p, o.hb, o.b, o.ha, o.a, o.d.setWidth 5⟩) o.sc 19)
  | .vfclt o => halvesPre o.pre (wordOf (FmtV.bits ⟨5, o.p, o.hb, o.b, o.ha, o.a, o.d.setWidth 5⟩) o.sc 19)
  | .vfcle o => halvesPre o.pre (wordOf (FmtV.bits ⟨6, o.p, o.hb, o.b, o.ha, o.a, o.d.setWidth 5⟩) o.sc 19)
  | .vfcun o => halvesPre o.pre (wordOf (FmtV.bits ⟨7, o.p, o.hb, o.b, o.ha, o.a, o.d.setWidth 5⟩) o.sc 19)
  | .pand o => halvesPre o.pre (wordOf (FmtV.bits ⟨8, 0, 0, o.b.setWidth 5, 0, o.a.setWidth 5, o.d.setWidth 5⟩) o.sc 19)
  | .por o => halvesPre o.pre (wordOf (FmtV.bits ⟨9, 0, 0, o.b.setWidth 5, 0, o.a.setWidth 5, o.d.setWidth 5⟩) o.sc 19)
  | .pxor o => halvesPre o.pre (wordOf (FmtV.bits ⟨10, 0, 0, o.b.setWidth 5, 0, o.a.setWidth 5, o.d.setWidth 5⟩) o.sc 19)
  | .pandn o => halvesPre o.pre (wordOf (FmtV.bits ⟨11, 0, 0, o.b.setWidth 5, 0, o.a.setWidth 5, o.d.setWidth 5⟩) o.sc 19)
  | .pnot o => halvesPre o.pre (wordOf (FmtV.bits ⟨12, 0, 0, 0, 0, o.a.setWidth 5, o.d.setWidth 5⟩) o.sc 19)
  | .pfirst o => halvesPre o.pre (wordOf (FmtV.bits ⟨13, 0, 0, 0, 0, o.a.setWidth 5, o.d.setWidth 5⟩) o.sc 19)
  | .tld o => halves (wordOf (FmtE.bits ⟨0, 0, 0, o.a, o.d⟩) o.sc 20)
  | .tst o => halves (wordOf (FmtE.bits ⟨0, 1, o.b, o.a, o.d⟩) o.sc 20)
  | .tstLaw o => halves (wordOf (FmtE.bits ⟨1, 1, o.b, o.a, o.d⟩) o.sc 20)
  | .tadd o => halves (wordOf (FmtE.bits ⟨0, 2, o.b, o.a, o.d⟩) o.sc 20)
  | .ttouch o => halves (wordOf (FmtE.bits ⟨0, 3, 0, o.a, o.d⟩) o.sc 20)
  | .tarm o => halves (wordOf (FmtE.bits ⟨0, 4, 0, o.a, o.d⟩) o.sc 20)
  | .tclr o => halves (wordOf (FmtE.bits ⟨o.clr.setWidth 4, 5, 0, o.a, o.d⟩) o.sc 20)
  | .vtld o => halves (wordOf (FmtE.bits ⟨o.p ++ (o.v.extractLsb' 4 1), 6, o.b, o.a, o.v.extractLsb' 0 4⟩) o.sc 20)
  | .vtadd o => halves (wordOf (FmtE.bits ⟨o.p ++ (o.v.extractLsb' 4 1), 7, o.b, o.a, o.v.extractLsb' 0 4⟩) o.sc 20)
  | .lawset o => halves (wordOf (FmtE.bits ⟨0, 8, o.b, o.a, o.d⟩) o.sc 20)
  | .lawget o => halves (wordOf (FmtE.bits ⟨0, 9, o.b, o.a, o.d⟩) o.sc 20)
  | .mma o => halves (wordOf (FmtT.bits ⟨o.b, o.a, o.fs, o.q, o.ac, o.fa ++ o.fb, o.acc⟩) o.sc 21)
  | .rowcfg o => halves (wordOf (FmtE.bits ⟨o.shape.setWidth 4, 0, 0, 0, o.d⟩) o.sc 22)
  | .acget o => halves (wordOf (FmtE.bits ⟨(0#1) ++ o.acc ++ (o.v.extractLsb' 4 1), 1, o.g.setWidth 4, 0, o.v.extractLsb' 0 4⟩) o.sc 22)
  | .acput o => halves (wordOf (FmtE.bits ⟨(0#1) ++ o.acc ++ (o.v.extractLsb' 4 1), 2, o.g.setWidth 4, 0, o.v.extractLsb' 0 4⟩) o.sc 22)
  | .aczero o => halves (wordOf (FmtE.bits ⟨o.mask, 3, 0, 0, 0⟩) o.sc 22)
  | .qcur o => halves (wordOf (FmtE.bits ⟨0, 4, 0, o.a, o.d.setWidth 4⟩) o.sc 22)
  | .qcurrd o => halves (wordOf (FmtE.bits ⟨0, 5, 0, o.a.setWidth 4, o.d⟩) o.sc 22)
  | .qadv o => halves (wordOf (FmtE.bits ⟨o.n, 6, 0, 0, o.d.setWidth 4⟩) o.sc 22)
  | .qmovToQ o => halves (wordOf (FmtE.bits ⟨0, 7, 0, o.a, o.d.setWidth 4⟩) o.sc 22)
  | .qmovToS o => halves (wordOf (FmtE.bits ⟨1, 7, 0, o.a.setWidth 4, o.d⟩) o.sc 22)
  | .ascore o => halves (wordOf (FmtT.bits ⟨(0#1) ++ o.b, (0#1) ++ o.a, o.fs, 0, (0#1) ++ o.hd, (0#3) ++ o.f, o.acc⟩) o.sc 23)
  | .asoft o => halves (wordOf (FmtT.bits ⟨0, (1#1) ++ o.a, 0, 0, 0, (1#3) ++ (0#3), o.acc⟩) o.sc 23)
  | .aval o => halves (wordOf (FmtT.bits ⟨(0#1) ++ o.b, (1#1) ++ o.a, o.fs, (0#1) ++ o.aw, (0#1) ++ o.hd, (2#3) ++ o.f, o.acc⟩) o.sc 23)
  | .amass o => halves (wordOf (FmtT.bits ⟨(0#1) ++ o.b, (1#1) ++ o.a, o.fs, 0, 0, (3#3) ++ (0#3), o.acc⟩) o.sc 23)
  | .apos o => halves (wordOf (FmtT.bits ⟨(0#1) ++ o.b, (1#1) ++ o.a, 0, 0, 0, (4#3) ++ (0#3), 0⟩) o.sc 23)
  | .cpw o => halves (wordOf (FmtE.bits ⟨o.idx.extractLsb' 4 4, 0, o.idx.extractLsb' 0 4, o.a, 0⟩) o.sc 24)
  | .cprd o => halves (wordOf (FmtE.bits ⟨o.idx.extractLsb' 4 4, 1, o.idx.extractLsb' 0 4, 0, o.d⟩) o.sc 24)
  | .cpgo o => halves (wordOf (FmtE.bits ⟨0, 2, o.b, o.a, o.d⟩) o.sc 24)
  | .cpconv o => halves (wordOf (FmtE.bits ⟨0, 3, o.b, o.a, o.d⟩) o.sc 24)
  | .bget o => halves (wordOf (FmtE.bits ⟨0, 4, o.b, o.a, o.d⟩) o.sc 24)
  | .gget o => halves (wordOf (FmtE.bits ⟨0, 5, o.b, o.a, o.d⟩) o.sc 24)
  | .gput o => halves (wordOf (FmtE.bits ⟨0, 6, o.b, o.a, o.d⟩) o.sc 24)
  | .bind o => halves (wordOf (FmtE.bits ⟨(0#1) ++ o.k ++ (o.v.extractLsb' 4 1), 7, 0, o.a, o.v.extractLsb' 0 4⟩) o.sc 24)
  | .unbind o => halves (wordOf (FmtE.bits ⟨(0#1) ++ o.k ++ (0#1), 8, 0, 0, o.d⟩) o.sc 24)
  | .card o => halves (wordOf (FmtE.bits ⟨0, 9, 0, o.a, o.d⟩) o.sc 24)
  | .cbinit o => halves (wordOf (FmtE.bits ⟨0, 10, o.b, o.a, o.d⟩) o.sc 24)
  | .cbpop o => halves (wordOf (FmtE.bits ⟨0, 11, 0, o.a, o.d⟩) o.sc 24)
  | .cbpopDone o => halves (wordOf (FmtE.bits ⟨1, 11, o.b, o.a, 0⟩) o.sc 24)
  | .cbpush o => halves (wordOf (FmtE.bits ⟨0, 12, 0, o.a, o.d⟩) o.sc 24)
  | .cbpushDone o => halves (wordOf (FmtE.bits ⟨1, 12, o.b, o.a, 0⟩) o.sc 24)
  | .dredge o => halves (wordOf (FmtE.bits ⟨0, 13, 0, o.a, o.d⟩) o.sc 24)
  | .ctwait o => halves (wordOf (FmtE.bits ⟨o.n, 14, 0, o.a, o.d⟩) o.sc 24)
  | .ctrd o => halves (wordOf (FmtE.bits ⟨o.n, 15, 0, 0, o.d⟩) o.sc 24)
  | .msend o => halves (wordOf (FmtE.bits ⟨0, 0, o.b, o.a, 0⟩) o.sc 25)
  | .margs o => halves (wordOf (FmtE.bits ⟨o.k.setWidth 4, 1, 0, 0, o.d⟩) o.sc 25)
  | .mlane o => halves (wordOf (FmtE.bits ⟨0, 2, o.b, o.a, o.d⟩) o.sc 25)
  | .mtab o => halves (wordOf (FmtE.bits ⟨0, 3, o.b, o.a, o.d⟩) o.sc 25)
  | .mtabDis o => halves (wordOf (FmtE.bits ⟨1, 3, o.b, o.a, o.d⟩) o.sc 25)
  | .dcset o => halves (wordOf (FmtE.bits ⟨0, 4, o.b, o.a, o.d⟩) o.sc 25)
  | .dcdec o => halves (wordOf (FmtE.bits ⟨0, 5, o.b, o.a, 0⟩) o.sc 25)
  | .dcrd o => halves (wordOf (FmtE.bits ⟨0, 6, 0, o.a, o.d⟩) o.sc 25)
  | .dcrdClr o => halves (wordOf (FmtE.bits ⟨1, 6, 0, o.a, o.d⟩) o.sc 25)
  | .ferryocc o => halves (wordOf (FmtE.bits ⟨0, 7, 0, o.a, o.d⟩) o.sc 25)
  | .ferrymig o => halves (wordOf (FmtE.bits ⟨0, 8, o.b, o.a, 0⟩) o.sc 25)
  | .mdead o => halves (wordOf (FmtE.bits ⟨0, 9, 0, o.a, o.d⟩) o.sc 25)
  | .hstart o => halves (wordOf (FmtE.bits ⟨0, 0, o.b, o.a, o.d⟩) o.sc 26)
  | .hend o => halves (wordOf (FmtE.bits ⟨0, 1, 0, 0, 0⟩) o.sc 26)
  | .raft o => halves (wordOf (FmtE.bits ⟨0, 2, 0, o.a, o.d⟩) o.sc 26)
  | .split o => halves (wordOf (FmtE.bits ⟨0, 3, 0, o.a, 0⟩) o.sc 26)
  | .raftAny o => halves (wordOf (FmtE.bits ⟨0, 4, 0, o.a, o.d⟩) o.sc 26)
  | .raftAll o => halves (wordOf (FmtE.bits ⟨0, 5, 0, o.a, o.d⟩) o.sc 26)
  | .bar o => halves (wordOf (FmtE.bits ⟨o.scope.setWidth 4, 6, 0, o.a, o.d⟩) o.sc 26)
  | .prio o => halves (wordOf (FmtE.bits ⟨o.c.setWidth 4, 7, 0, 0, o.d⟩) o.sc 26)
  | .yield o => halves (wordOf (FmtE.bits ⟨0, 8, 0, 0, 0⟩) o.sc 26)
  | .dsync o => halves (wordOf (FmtE.bits ⟨0, 0, 0, 0, 0⟩) o.sc 27)
  | .dphase o => halves (wordOf (FmtE.bits ⟨0, 1, 0, 0, o.d⟩) o.sc 27)
  | .berth o => halves (wordOf (FmtE.bits ⟨0, 2, o.b, o.a, 0⟩) o.sc 27)
  | .tround o => halves (wordOf (FmtE.bits ⟨0, 3, 0, 0, o.d⟩) o.sc 27)
  | .trank o => halves (wordOf (FmtE.bits ⟨0, 4, 0, 0, o.d⟩) o.sc 27)
  | .tdone o => halves (wordOf (FmtE.bits ⟨0, 5, 0, o.a, 0⟩) o.sc 27)
  | .repf o => halves (wordOf (FmtRF.bits ⟨0, o.len, o.sb, o.sa, o.sd, o.cnt, 0⟩) o.sc 28)
  | .nop o => halves (wordOf (FmtRF.bits ⟨0, 0, 0, 0, 0, 0, 1⟩) o.sc 28)
  | .sysr o => halves (wordOf (FmtE.bits ⟨o.n.extractLsb' 8 4, 0, o.n.extractLsb' 4 4, o.n.extractLsb' 0 4, o.d⟩) o.sc 29)
  | .sysw o => halves (wordOf (FmtE.bits ⟨o.n.extractLsb' 8 4, 1, o.n.extractLsb' 4 4, o.n.extractLsb' 0 4, o.d⟩) o.sc 29)
  | .trap o => halves (wordOf (FmtE.bits ⟨0, 2, o.code.extractLsb' 4 4, o.code.extractLsb' 0 4, 0⟩) o.sc 29)
  | .scall o => halves (wordOf (FmtE.bits ⟨o.n.extractLsb' 8 4, 3, o.n.extractLsb' 4 4, o.n.extractLsb' 0 4, 0⟩) o.sc 29)
  | .uret o => halves (wordOf (FmtE.bits ⟨0, 4, 0, 0, 0⟩) o.sc 29)
  | .uretSw o => halves (wordOf (FmtE.bits ⟨1, 4, o.b, o.a, 0⟩) o.sc 29)
  | .uretWait o => halves (wordOf (FmtE.bits ⟨2, 4, 0, 0, 0⟩) o.sc 29)
  | .sret o => halves (wordOf (FmtE.bits ⟨0, 5, 0, 0, 0⟩) o.sc 29)
  | .fret o => halves (wordOf (FmtE.bits ⟨0, 6, 0, 0, 0⟩) o.sc 29)
  | .brk o => halves (wordOf (FmtE.bits ⟨0, 7, o.code.extractLsb' 4 4, o.code.extractLsb' 0 4, 0⟩) o.sc 29)
  | .dbgsig o => halves (wordOf (FmtE.bits ⟨0, 8, 0, o.a, 0⟩) o.sc 29)
  | .cInc o => [halfOf (o.imm ++ o.d) 0]
  | .cSet o => [halfOf (o.imm ++ o.d) 1]
  | .cCp o => [halfOf ((0#3) ++ o.a ++ o.d) 2]
  | .cAddr o => [halfOf ((1#3) ++ o.a ++ o.d) 2]
  | .cSubr o => [halfOf ((2#3) ++ o.a ++ o.d) 2]
  | .cAndr o => [halfOf ((3#3) ++ o.a ++ o.d) 2]
  | .cOrr o => [halfOf ((4#3) ++ o.a ++ o.d) 2]
  | .cXorr o => [halfOf ((5#3) ++ o.a ++ o.d) 2]
  | .cSllr o => [halfOf ((6#3) ++ o.a ++ o.d) 2]
  | .cSrar o => [halfOf ((7#3) ++ o.a ++ o.d) 2]
  | .cSltr o => [halfOf ((0#3) ++ o.a ++ o.d) 3]
  | .cSltwr o => [halfOf ((1#3) ++ o.a ++ o.d) 3]
  | .cSeqr o => [halfOf ((2#3) ++ o.a ++ o.d) 3]
  | .cSner o => [halfOf ((3#3) ++ o.a ++ o.d) 3]
  | .cMinr o => [halfOf ((4#3) ++ o.a ++ o.d) 3]
  | .cMaxr o => [halfOf ((5#3) ++ o.a ++ o.d) 3]
  | .cMinwr o => [halfOf ((6#3) ++ o.a ++ o.d) 3]
  | .cMaxwr o => [halfOf ((7#3) ++ o.a ++ o.d) 3]
  | .cShl o => [halfOf ((0#1) ++ o.sh ++ o.d) 4]
  | .cSar o => [halfOf ((1#1) ++ o.sh ++ o.d) 4]
  | .cJreg o => [halfOf ((0#7) ++ o.a) 5]
  | .cFadd o => [halfOf ((0#3) ++ (0#2) ++ o.a ++ o.d) 6]
  | .cFsub o => [halfOf ((1#3) ++ (0#2) ++ o.a ++ o.d) 6]
  | .cFmul o => [halfOf ((2#3) ++ (0#2) ++ o.a ++ o.d) 6]
  | .cFmin o => [halfOf ((3#3) ++ (0#2) ++ o.a ++ o.d) 6]
  | .cFmax o => [halfOf ((4#3) ++ (0#2) ++ o.a ++ o.d) 6]
  | .cFneg o => [halfOf ((5#3) ++ (0#2) ++ o.a ++ o.d) 6]
  | .cFabs o => [halfOf ((6#3) ++ (0#2) ++ o.a ++ o.d) 6]
  | .cVty o => [halfOf (o.u ++ o.t) 7]
  | .cBrz o => [halfOf (o.off ++ o.a) 8]
  | .cBrnz o => [halfOf (o.off ++ o.a) 9]
  | .cGo o => [halfOf (o.off) 10]
  | .cLld o => [halfOf (o.off ++ o.d) 11]
  | .cLsd o => [halfOf (o.off ++ o.d) 12]
  | .cLr o => [halfOf (o.f ++ o.a ++ o.d) 13]
  | .cSr o => [halfOf (o.n ++ (0#1) ++ o.a ++ o.t) 14]
  | .cVmv o => [halfOf ((0#1) ++ o.a ++ o.d) 15]
  | .thermalThrottleLift .. => []
  | .powerRemoval .. => []
  | .hostAccess .. => []
  | .peerAccess .. => []

/-- Major 0: the func selects the instruction (02 R38). -/
noncomputable def decode0 (sc : BitVec 2) (x : FmtS3) : Option Instr :=
  match (x.f).toNat with
  | 0 => some (.add ⟨x.d, x.a, x.b, sc⟩)
  | 1 => some (.sub ⟨x.d, x.a, x.b, sc⟩)
  | 2 => some (.and ⟨x.d, x.a, x.b, sc⟩)
  | 3 => some (.or ⟨x.d, x.a, x.b, sc⟩)
  | 4 => some (.xor ⟨x.d, x.a, x.b, sc⟩)
  | 5 => some (.sll ⟨x.d, x.a, x.b, sc⟩)
  | 6 => some (.srl ⟨x.d, x.a, x.b, sc⟩)
  | 7 => some (.sra ⟨x.d, x.a, x.b, sc⟩)
  | 8 => some (.slt ⟨x.d, x.a, x.b, sc⟩)
  | 9 => some (.sltw ⟨x.d, x.a, x.b, sc⟩)
  | 10 => some (.seq ⟨x.d, x.a, x.b, sc⟩)
  | 11 => some (.sne ⟨x.d, x.a, x.b, sc⟩)
  | 12 => some (.min ⟨x.d, x.a, x.b, sc⟩)
  | 13 => some (.max ⟨x.d, x.a, x.b, sc⟩)
  | 14 => some (.minw ⟨x.d, x.a, x.b, sc⟩)
  | 15 => some (.maxw ⟨x.d, x.a, x.b, sc⟩)
  | 16 => some (.mul ⟨x.d, x.a, x.b, sc⟩)
  | 17 => some (.mulh ⟨x.d, x.a, x.b, sc⟩)
  | 18 => some (.mulhw ⟨x.d, x.a, x.b, sc⟩)
  | 19 => some (.div ⟨x.d, x.a, x.b, sc⟩)
  | 20 => some (.divw ⟨x.d, x.a, x.b, sc⟩)
  | 21 => some (.rem ⟨x.d, x.a, x.b, sc⟩)
  | 22 => some (.remw ⟨x.d, x.a, x.b, sc⟩)
  | 23 => some (.adds ⟨x.d, x.a, x.b, sc⟩)
  | 24 => some (.subs ⟨x.d, x.a, x.b, sc⟩)
  | 25 => some (.addsw ⟨x.d, x.a, x.b, sc⟩)
  | 26 => some (.subsw ⟨x.d, x.a, x.b, sc⟩)
  | 27 => some (.add32 ⟨x.d, x.a, x.b, sc⟩)
  | 28 => some (.sub32 ⟨x.d, x.a, x.b, sc⟩)
  | 29 => some (.sll32 ⟨x.d, x.a, x.b, sc⟩)
  | 30 => some (.srl32 ⟨x.d, x.a, x.b, sc⟩)
  | 31 => some (.sra32 ⟨x.d, x.a, x.b, sc⟩)
  | 32 => some (.mul32 ⟨x.d, x.a, x.b, sc⟩)
  | 33 => some (.clz ⟨x.d, x.a, sc⟩)
  | 34 => some (.ctz ⟨x.d, x.a, sc⟩)
  | 35 => some (.popc ⟨x.d, x.a, sc⟩)
  | 36 => some (.rol ⟨x.d, x.a, x.b, sc⟩)
  | 37 => some (.ror ⟨x.d, x.a, x.b, sc⟩)
  | _ => none

/-- Major 1: the func selects the instruction (02 R38). -/
noncomputable def decode1 (sc : BitVec 2) (x : FmtSI) : Option Instr :=
  match (x.f).toNat with
  | 0 => some (.addi ⟨x.d, x.a, x.imm, sc⟩)
  | 1 => some (.andi ⟨x.d, x.a, x.imm, sc⟩)
  | 2 => some (.ori ⟨x.d, x.a, x.imm, sc⟩)
  | 3 => some (.xori ⟨x.d, x.a, x.imm, sc⟩)
  | 4 => some (.slli ⟨x.d, x.a, x.imm.setWidth 6, sc⟩)
  | 5 => some (.srli ⟨x.d, x.a, x.imm.setWidth 6, sc⟩)
  | 6 => some (.srai ⟨x.d, x.a, x.imm.setWidth 6, sc⟩)
  | 7 => some (.slti ⟨x.d, x.a, x.imm, sc⟩)
  | 8 => some (.sltwi ⟨x.d, x.a, x.imm, sc⟩)
  | 9 => some (.seqi ⟨x.d, x.a, x.imm, sc⟩)
  | 10 => some (.addi32 ⟨x.d, x.a, x.imm, sc⟩)
  | 11 => some (.slli32 ⟨x.d, x.a, x.imm.setWidth 5, sc⟩)
  | 12 => some (.srli32 ⟨x.d, x.a, x.imm.setWidth 5, sc⟩)
  | 13 => some (.srai32 ⟨x.d, x.a, x.imm.setWidth 5, sc⟩)
  | _ => none

/-- Major 2: the func selects the instruction (02 R38). -/
noncomputable def decode2 (sc : BitVec 2) (x : FmtSU) : Option Instr :=
  match (x.imm.extractLsb' 0 1).toNat with
  | 0 => some (.lhi ⟨x.d, x.imm.extractLsb' 1 19, sc⟩)
  | 1 => some (.pchi ⟨x.d, x.imm.extractLsb' 1 19, sc⟩)
  | _ => none

/-- Major 3: the func selects the instruction (02 R38). -/
noncomputable def decode3 (sc : BitVec 2) (x : FmtB) : Option Instr :=
  match (x.cond.extractLsb' 0 3).toNat with
  | 0 => some (.beq ⟨x.a, x.b, x.cond.extractLsb' 3 1, x.off, sc⟩)
  | 1 => some (.bne ⟨x.a, x.b, x.cond.extractLsb' 3 1, x.off, sc⟩)
  | 2 => some (.blt ⟨x.a, x.b, x.cond.extractLsb' 3 1, x.off, sc⟩)
  | 3 => some (.bge ⟨x.a, x.b, x.cond.extractLsb' 3 1, x.off, sc⟩)
  | 4 => some (.bltw ⟨x.a, x.b, x.cond.extractLsb' 3 1, x.off, sc⟩)
  | 5 => some (.bgew ⟨x.a, x.b, x.cond.extractLsb' 3 1, x.off, sc⟩)
  | 6 => some (.banz ⟨x.a, x.b, x.cond.extractLsb' 3 1, x.off, sc⟩)
  | 7 => some (.baz ⟨x.a, x.b, x.cond.extractLsb' 3 1, x.off, sc⟩)
  | _ => none

/-- Major 4: the func selects the instruction (02 R38). -/
noncomputable def decode4 (sc : BitVec 2) (x : FmtJ) : Option Instr :=
  some (.jl ⟨x.d, x.off, sc⟩)

/-- Major 5: the func selects the instruction (02 R38). -/
noncomputable def decode5 (sc : BitVec 2) (x : FmtSI) : Option Instr :=
  match (x.f).toNat with
  | 0 => some (.jlr ⟨x.d, x.a, x.imm, sc⟩)
  | 1 => some (.jlrCall ⟨x.d, x.a, x.imm, sc⟩)
  | 2 => some (.jlrRet ⟨x.d, x.a, x.imm, sc⟩)
  | _ => none

/-- Major 6: the func selects the instruction (02 R38). -/
noncomputable def decode6 (sc : BitVec 2) (x : FmtM) : Option Instr :=
  match (x.f).toNat with
  | 0 => some (.ldI8 ⟨x.t, x.a, x.off, sc⟩)
  | 1 => some (.ldI16 ⟨x.t, x.a, x.off, sc⟩)
  | 2 => some (.ldI32 ⟨x.t, x.a, x.off, sc⟩)
  | 3 => some (.ldI64 ⟨x.t, x.a, x.off, sc⟩)
  | 4 => some (.ldW8 ⟨x.t, x.a, x.off, sc⟩)
  | 5 => some (.ldW16 ⟨x.t, x.a, x.off, sc⟩)
  | 6 => some (.ldW32 ⟨x.t, x.a, x.off, sc⟩)
  | 7 => some (.fldF32 ⟨x.t.setWidth 3, x.a, x.off, sc⟩)
  | 8 => some (.fldH16 ⟨x.t.setWidth 3, x.a, x.off, sc⟩)
  | 9 => some (.fldBf16 ⟨x.t.setWidth 3, x.a, x.off, sc⟩)
  | 10 => some (.fld64 ⟨x.t.setWidth 3, x.a, x.off, sc⟩)
  | _ => none

/-- Major 7: the func selects the instruction (02 R38). -/
noncomputable def decode7 (sc : BitVec 2) (x : FmtM) : Option Instr :=
  match (x.f).toNat with
  | 0 => some (.st8 ⟨x.t, x.a, x.off, sc⟩)
  | 1 => some (.st16 ⟨x.t, x.a, x.off, sc⟩)
  | 2 => some (.st32 ⟨x.t, x.a, x.off, sc⟩)
  | 3 => some (.st64 ⟨x.t, x.a, x.off, sc⟩)
  | 4 => some (.fst32 ⟨x.t.setWidth 3, x.a, x.off, sc⟩)
  | 5 => some (.fst16 ⟨x.t.setWidth 3, x.a, x.off, sc⟩)
  | 6 => some (.fst64 ⟨x.t.setWidth 3, x.a, x.off, sc⟩)
  | _ => none

/-- Major 8: the func selects the instruction (02 R38). -/
noncomputable def decode8 (sc : BitVec 2) (x : FmtS3) : Option Instr :=
  match (x.f.extractLsb' 0 5).toNat with
  | 0 => some (.amadd ⟨x.d, x.a, x.b, x.f.extractLsb' 5 1, x.m.extractLsb' 4 2, x.m.extractLsb' 1 3, sc⟩)
  | 1 => some (.amand ⟨x.d, x.a, x.b, x.f.extractLsb' 5 1, x.m.extractLsb' 4 2, x.m.extractLsb' 1 3, sc⟩)
  | 2 => some (.amor ⟨x.d, x.a, x.b, x.f.extractLsb' 5 1, x.m.extractLsb' 4 2, x.m.extractLsb' 1 3, sc⟩)
  | 3 => some (.amxor ⟨x.d, x.a, x.b, x.f.extractLsb' 5 1, x.m.extractLsb' 4 2, x.m.extractLsb' 1 3, sc⟩)
  | 4 => some (.ammin ⟨x.d, x.a, x.b, x.f.extractLsb' 5 1, x.m.extractLsb' 4 2, x.m.extractLsb' 1 3, sc⟩)
  | 5 => some (.ammax ⟨x.d, x.a, x.b, x.f.extractLsb' 5 1, x.m.extractLsb' 4 2, x.m.extractLsb' 1 3, sc⟩)
  | 6 => some (.amminw ⟨x.d, x.a, x.b, x.f.extractLsb' 5 1, x.m.extractLsb' 4 2, x.m.extractLsb' 1 3, sc⟩)
  | 7 => some (.ammaxw ⟨x.d, x.a, x.b, x.f.extractLsb' 5 1, x.m.extractLsb' 4 2, x.m.extractLsb' 1 3, sc⟩)
  | 8 => some (.amswap ⟨x.d, x.a, x.b, x.f.extractLsb' 5 1, x.m.extractLsb' 4 2, x.m.extractLsb' 1 3, sc⟩)
  | 9 => some (.amcas ⟨x.d, x.a, x.b, x.f.extractLsb' 5 1, x.m.extractLsb' 4 2, x.m.extractLsb' 1 3, sc⟩)
  | 10 => some (.ldo ⟨x.d, x.a, x.f.extractLsb' 5 1, x.m.extractLsb' 4 2, x.m.extractLsb' 1 3, sc⟩)
  | 11 => some (.sto ⟨x.a, x.b, x.f.extractLsb' 5 1, x.m.extractLsb' 4 2, x.m.extractLsb' 1 3, sc⟩)
  | _ => none

/-- Major 9: the func selects the instruction (02 R38). -/
noncomputable def decode9 (sc : BitVec 2) (x : FmtE) : Option Instr :=
  match (x.f.extractLsb' 3 5).toNat with
  | 0 => some (.fence ⟨x.f.extractLsb' 0 3, x.imm, sc⟩)
  | _ =>
    match (x.f).toNat with
    | 16 => some (.ifence ⟨sc⟩)
    | _ => none

/-- Major 10: the func selects the instruction (02 R38). -/
noncomputable def decode10 (sc : BitVec 2) (x : FmtS3) : Option Instr :=
  match (x.f).toNat with
  | 0 => some (.fadd ⟨x.d.setWidth 3, x.a.setWidth 3, x.b.setWidth 3, x.m.extractLsb' 0 2, sc⟩)
  | 1 => some (.fsub ⟨x.d.setWidth 3, x.a.setWidth 3, x.b.setWidth 3, x.m.extractLsb' 0 2, sc⟩)
  | 2 => some (.fmul ⟨x.d.setWidth 3, x.a.setWidth 3, x.b.setWidth 3, x.m.extractLsb' 0 2, sc⟩)
  | 3 => some (.fdiv ⟨x.d.setWidth 3, x.a.setWidth 3, x.b.setWidth 3, x.m.extractLsb' 0 2, sc⟩)
  | 4 => some (.fsqrt ⟨x.d.setWidth 3, x.a.setWidth 3, x.m.extractLsb' 0 2, sc⟩)
  | 5 => some (.fmin ⟨x.d.setWidth 3, x.a.setWidth 3, x.b.setWidth 3, x.m.extractLsb' 0 2, sc⟩)
  | 6 => some (.fmax ⟨x.d.setWidth 3, x.a.setWidth 3, x.b.setWidth 3, x.m.extractLsb' 0 2, sc⟩)
  | 7 => some (.fma ⟨x.d.setWidth 3, x.a.setWidth 3, x.b.setWidth 3, x.m.extractLsb' 0 2, sc⟩)
  | 8 => some (.fneg ⟨x.d.setWidth 3, x.a.setWidth 3, x.m.extractLsb' 0 2, sc⟩)
  | 9 => some (.fabs ⟨x.d.setWidth 3, x.a.setWidth 3, x.m.extractLsb' 0 2, sc⟩)
  | 10 => some (.fceq ⟨x.d, x.a.setWidth 3, x.b.setWidth 3, x.m.extractLsb' 0 2, sc⟩)
  | 11 => some (.fclt ⟨x.d, x.a.setWidth 3, x.b.setWidth 3, x.m.extractLsb' 0 2, sc⟩)
  | 12 => some (.fcle ⟨x.d, x.a.setWidth 3, x.b.setWidth 3, x.m.extractLsb' 0 2, sc⟩)
  | 13 => some (.fcvti ⟨x.d, x.a.setWidth 3, x.m.extractLsb' 0 2, x.m.extractLsb' 2 1, x.m.extractLsb' 4 1, x.m.extractLsb' 5 1, sc⟩)
  | 14 => some (.fcvtf ⟨x.d.setWidth 3, x.a, x.m.extractLsb' 0 2, x.m.extractLsb' 4 1, x.m.extractLsb' 5 1, sc⟩)
  | 15 => some (.fcvt ⟨x.d.setWidth 3, x.a.setWidth 3, x.m.extractLsb' 0 2, x.m.extractLsb' 2 2, sc⟩)
  | 16 => some (.fmvs ⟨x.d, x.a.setWidth 3, sc⟩)
  | 17 => some (.fmvf ⟨x.d.setWidth 3, x.a, sc⟩)
  | _ => none

/-- Major 11: the func selects the instruction (02 R38). -/
noncomputable def decode11 (pre : Option Pre) (sc : BitVec 2) (x : FmtV) : Option Instr :=
  match (x.f).toNat with
  | 0 => some (.vadd ⟨pre, x.p, x.hb, x.b, x.ha, x.a, x.d, sc⟩)
  | 1 => some (.vsub ⟨pre, x.p, x.hb, x.b, x.ha, x.a, x.d, sc⟩)
  | 2 => some (.vmul ⟨pre, x.p, x.hb, x.b, x.ha, x.a, x.d, sc⟩)
  | 3 => some (.vmulh ⟨pre, x.p, x.hb, x.b, x.ha, x.a, x.d, sc⟩)
  | 4 => some (.vmin ⟨pre, x.p, x.hb, x.b, x.ha, x.a, x.d, sc⟩)
  | 5 => some (.vmax ⟨pre, x.p, x.hb, x.b, x.ha, x.a, x.d, sc⟩)
  | 6 => some (.vand ⟨pre, x.p, x.hb, x.b, x.ha, x.a, x.d, sc⟩)
  | 7 => some (.vor ⟨pre, x.p, x.hb, x.b, x.ha, x.a, x.d, sc⟩)
  | 8 => some (.vxor ⟨pre, x.p, x.hb, x.b, x.ha, x.a, x.d, sc⟩)
  | 9 => some (.vsll ⟨pre, x.p, x.hb, x.b, x.ha, x.a, x.d, sc⟩)
  | 10 => some (.vsrl ⟨pre, x.p, x.hb, x.b, x.ha, x.a, x.d, sc⟩)
  | 11 => some (.vsra ⟨pre, x.p, x.hb, x.b, x.ha, x.a, x.d, sc⟩)
  | 12 => some (.vadds ⟨pre, x.p, x.hb, x.b, x.ha, x.a, x.d, sc⟩)
  | 13 => some (.vsubs ⟨pre, x.p, x.hb, x.b, x.ha, x.a, x.d, sc⟩)
  | 14 => some (.vabs ⟨pre, x.p, x.ha, x.a, x.d, sc⟩)
  | 15 => some (.vandn ⟨pre, x.p, x.hb, x.b, x.ha, x.a, x.d, sc⟩)
  | _ => none

/-- Major 12: the func selects the instruction (02 R38). -/
noncomputable def decode12 (pre : Option Pre) (sc : BitVec 2) (x : FmtVF) : Option Instr :=
  match (x.f).toNat with
  | 0 => some (.vfadd ⟨pre, x.zo, x.zi, x.p, x.hb, x.b, x.ha, x.a, x.d, sc⟩)
  | 1 => some (.vfsub ⟨pre, x.zo, x.zi, x.p, x.hb, x.b, x.ha, x.a, x.d, sc⟩)
  | 2 => some (.vfmul ⟨pre, x.zo, x.zi, x.p, x.hb, x.b, x.ha, x.a, x.d, sc⟩)
  | 3 =>
    if x.b < x.a then some (.vfmax ⟨pre, x.zo, x.zi, x.p, x.hb, x.b, x.ha, x.a, x.d, sc⟩) else some (.vfmin ⟨pre, x.zo, x.zi, x.p, x.hb, x.b, x.ha, x.a, x.d, sc⟩)
  | _ => none

/-- Major 13: the func selects the instruction (02 R38). -/
noncomputable def decode13 (pre : Option Pre) (sc : BitVec 2) (x : FmtVF) : Option Instr :=
  match (x.f).toNat with
  | 0 => some (.vfma ⟨pre, x.zo, x.zi, x.p, x.hb, x.b, x.ha, x.a, x.d, sc⟩)
  | 1 => some (.vfms ⟨pre, x.zo, x.zi, x.p, x.hb, x.b, x.ha, x.a, x.d, sc⟩)
  | 2 => some (.vfnma ⟨pre, x.zo, x.zi, x.p, x.hb, x.b, x.ha, x.a, x.d, sc⟩)
  | 3 => some (.vfnms ⟨pre, x.zo, x.zi, x.p, x.hb, x.b, x.ha, x.a, x.d, sc⟩)
  | _ => none

/-- Major 14: the func selects the instruction (02 R38). -/
noncomputable def decode14 (pre : Option Pre) (sc : BitVec 2) (x : FmtV) : Option Instr :=
  match (x.f).toNat with
  | 0 => some (.vcvtN ⟨pre, x.p, x.b, x.ha, x.a, x.d, sc⟩)
  | 1 => some (.vcvtS ⟨pre, x.p, x.b, x.ha, x.a, x.d, sc⟩)
  | 2 => some (.vcvtX ⟨pre, x.p, x.b, x.ha, x.a, x.d, sc⟩)
  | 3 => some (.vcvtF ⟨pre, x.p, x.b, x.ha, x.a, x.d, sc⟩)
  | 4 => some (.vcvtFi ⟨pre, x.p, x.b, x.ha, x.a, x.d, sc⟩)
  | 5 => some (.vcvtFis ⟨pre, x.p, x.b, x.ha, x.a, x.d, sc⟩)
  | 6 => some (.vcvtIf ⟨pre, x.p, x.b, x.ha, x.a, x.d, sc⟩)
  | 7 => some (.vcvtIi ⟨pre, x.p, x.b, x.ha, x.a, x.d, sc⟩)
  | 8 => some (.vcvtIis ⟨pre, x.p, x.b, x.ha, x.a, x.d, sc⟩)
  | 9 => some (.vscget ⟨pre, x.p, x.ha, x.a, x.d, sc⟩)
  | 10 => some (.vscapply ⟨pre, x.p, x.hb, x.b, x.ha, x.a, x.d, sc⟩)
  | _ => none

/-- Major 15: the func selects the instruction (02 R38). -/
noncomputable def decode15 (pre : Option Pre) (sc : BitVec 2) (x : FmtV) : Option Instr :=
  match (x.f).toNat with
  | 0 => some (.vmv ⟨pre, x.p, x.ha, x.a, x.d, sc⟩)
  | 1 => some (.vperm ⟨pre, x.p, x.hb, x.b, x.ha, x.a, x.d, sc⟩)
  | 2 => some (.vzipl ⟨pre, x.p, x.hb, x.b, x.ha, x.a, x.d, sc⟩)
  | 3 => some (.vziph ⟨pre, x.p, x.hb, x.b, x.ha, x.a, x.d, sc⟩)
  | 4 => some (.vunze ⟨pre, x.p, x.hb, x.b, x.ha, x.a, x.d, sc⟩)
  | 5 => some (.vunzo ⟨pre, x.p, x.hb, x.b, x.ha, x.a, x.d, sc⟩)
  | 6 => some (.vslu ⟨pre, x.p, x.hb, x.b, x.ha, x.a, x.d, sc⟩)
  | 7 => some (.vsld ⟨pre, x.p, x.hb, x.b, x.ha, x.a, x.d, sc⟩)
  | 8 => some (.vbcast ⟨pre, x.p, x.ha, x.a, x.d, sc⟩)
  | 9 => some (.vrev ⟨pre, x.p, x.ha, x.a, x.d, sc⟩)
  | 10 => some (.vtrnl ⟨pre, x.p, x.hb, x.b, x.ha, x.a, x.d, sc⟩)
  | 11 => some (.vtrnh ⟨pre, x.p, x.hb, x.b, x.ha, x.a, x.d, sc⟩)
  | 12 => some (.vcompress ⟨pre, x.p, x.ha, x.a, x.d, sc⟩)
  | 13 => some (.vexpand ⟨pre, x.p, x.ha, x.a, x.d, sc⟩)
  | _ => none

/-- Major 16: the func selects the instruction (02 R38). -/
noncomputable def decode16 (pre : Option Pre) (sc : BitVec 2) (x : FmtV) : Option Instr :=
  match (x.f).toNat with
  | 0 => some (.vrsum ⟨pre, x.p, x.ha, x.a, x.d, sc⟩)
  | 1 => some (.vrfsum ⟨pre, x.p, x.ha, x.a, x.d, sc⟩)
  | 2 => some (.vrmin ⟨pre, x.p, x.ha, x.a, x.d, sc⟩)
  | 3 => some (.vrmax ⟨pre, x.p, x.ha, x.a, x.d, sc⟩)
  | 4 => some (.vrfmin ⟨pre, x.p, x.ha, x.a, x.d, sc⟩)
  | 5 => some (.vrfmax ⟨pre, x.p, x.ha, x.a, x.d, sc⟩)
  | 6 => some (.vrand ⟨pre, x.p, x.ha, x.a, x.d, sc⟩)
  | 7 => some (.vrior ⟨pre, x.p, x.ha, x.a, x.d, sc⟩)
  | 8 => some (.vrxor ⟨pre, x.p, x.ha, x.a, x.d, sc⟩)
  | 9 => some (.vrfsumw ⟨pre, x.p, x.ha, x.a, x.d, sc⟩)
  | _ => none

/-- Major 17: the func selects the instruction (02 R38). -/
noncomputable def decode17 (pre : Option Pre) (sc : BitVec 2) (x : FmtVX) : Option Instr :=
  match (x.f).toNat with
  | 0 => some (.vld ⟨pre, x.p, x.s, x.d, sc⟩)
  | 1 => some (.vst ⟨pre, x.p, x.s, x.ha, x.a, sc⟩)
  | 2 => some (.vldx ⟨pre, x.p, x.s, x.ha, x.a, x.d, sc⟩)
  | 3 => some (.vstx ⟨pre, x.p, x.s, x.ha, x.a, x.d, sc⟩)
  | 4 => some (.vldb ⟨pre, x.p, x.s, x.d, sc⟩)
  | 5 => some (.vldh ⟨pre, x.p, x.s, x.d, sc⟩)
  | 6 => some (.vsth ⟨pre, x.p, x.s, x.ha, x.a, sc⟩)
  | 7 => some (.pld ⟨pre, x.s, x.d.setWidth 3, sc⟩)
  | 8 => some (.pst ⟨pre, x.s, x.a.setWidth 3, sc⟩)
  | _ => none

/-- Major 18: the func selects the instruction (02 R38). -/
noncomputable def decode18 (pre : Option Pre) (sc : BitVec 2) (x : FmtVX) : Option Instr :=
  match (x.f).toNat with
  | 0 => some (.vaddx ⟨pre, x.p, x.s, x.ha, x.a, x.d, sc⟩)
  | 1 => some (.vsubx ⟨pre, x.p, x.s, x.ha, x.a, x.d, sc⟩)
  | 2 => some (.vmulx ⟨pre, x.p, x.s, x.ha, x.a, x.d, sc⟩)
  | 3 => some (.vfaddx ⟨pre, x.p, x.s.setWidth 3, x.ha, x.a, x.d, sc⟩)
  | 4 => some (.vfmulx ⟨pre, x.p, x.s.setWidth 3, x.ha, x.a, x.d, sc⟩)
  | 5 => some (.vfmacx ⟨pre, x.p, x.s.setWidth 3, x.ha, x.a, x.d, sc⟩)
  | 6 => some (.vsplat ⟨pre, x.p, x.s, x.d, sc⟩)
  | 7 => some (.vfsplat ⟨pre, x.p, x.s.setWidth 3, x.d, sc⟩)
  | 8 => some (.vins ⟨pre, x.p, x.s, x.d, sc⟩)
  | 9 => some (.vext ⟨pre, x.s, x.ha, x.a, sc⟩)
  | 10 => some (.vweir ⟨pre, x.p, x.s, x.ha, x.a, x.d, sc⟩)
  | 11 => some (.vsllx ⟨pre, x.p, x.s, x.ha, x.a, x.d, sc⟩)
  | 12 => some (.vsrlx ⟨pre, x.p, x.s, x.ha, x.a, x.d, sc⟩)
  | 13 => some (.vsrax ⟨pre, x.p, x.s, x.ha, x.a, x.d, sc⟩)
  | 14 => some (.viota ⟨pre, x.p, x.s, x.d, sc⟩)
  | _ => none

/-- Major 19: the func selects the instruction (02 R38). -/
noncomputable def decode19 (pre : Option Pre) (sc : BitVec 2) (x : FmtV) : Option Instr :=
  match (x.f).toNat with
  | 0 => some (.vceq ⟨pre, x.p, x.hb, x.b, x.ha, x.a, x.d.setWidth 3, sc⟩)
  | 1 => some (.vcne ⟨pre, x.p, x.hb, x.b, x.ha, x.a, x.d.setWidth 3, sc⟩)
  | 2 => some (.vclt ⟨pre, x.p, x.hb, x.b, x.ha, x.a, x.d.setWidth 3, sc⟩)
  | 3 => some (.vcle ⟨pre, x.p, x.hb, x.b, x.ha, x.a, x.d.setWidth 3, sc⟩)
  | 4 => some (.vfceq ⟨pre, x.p, x.hb, x.b, x.ha, x.a, x.d.setWidth 3, sc⟩)
  | 5 => some (.vfclt ⟨pre, x.p, x.hb, x.b, x.ha, x.a, x.d.setWidth 3, sc⟩)
  | 6 => some (.vfcle ⟨pre, x.p, x.hb, x.b, x.ha, x.a, x.d.setWidth 3, sc⟩)
  | 7 => some (.vfcun ⟨pre, x.p, x.hb, x.b, x.ha, x.a, x.d.setWidth 3, sc⟩)
  | 8 => some (.pand ⟨pre, x.b.setWidth 3, x.a.setWidth 3, x.d.setWidth 3, sc⟩)
  | 9 => some (.por ⟨pre, x.b.setWidth 3, x.a.setWidth 3, x.d.setWidth 3, sc⟩)
  | 10 => some (.pxor ⟨pre, x.b.setWidth 3, x.a.setWidth 3, x.d.setWidth 3, sc⟩)
  | 11 => some (.pandn ⟨pre, x.b.setWidth 3, x.a.setWidth 3, x.d.setWidth 3, sc⟩)
  | 12 => some (.pnot ⟨pre, x.a.setWidth 3, x.d.setWidth 3, sc⟩)
  | 13 => some (.pfirst ⟨pre, x.a.setWidth 3, x.d.setWidth 3, sc⟩)
  | _ => none

/-- Major 20: the func selects the instruction (02 R38). -/
noncomputable def decode20 (sc : BitVec 2) (x : FmtE) : Option Instr :=
  match (x.f).toNat with
  | 0 => some (.tld ⟨x.d, x.a, sc⟩)
  | 1 =>
    match x.imm.toNat with
    | 0 => some (.tst ⟨x.d, x.a, x.b, sc⟩)
    | 1 => some (.tstLaw ⟨x.d, x.a, x.b, sc⟩)
    | _ => none
  | 2 => some (.tadd ⟨x.d, x.a, x.b, sc⟩)
  | 3 => some (.ttouch ⟨x.d, x.a, sc⟩)
  | 4 => some (.tarm ⟨x.d, x.a, sc⟩)
  | 5 => some (.tclr ⟨x.d, x.a, x.imm.setWidth 3, sc⟩)
  | 6 => some (.vtld ⟨(x.imm.extractLsb' 0 1) ++ x.d, x.a, x.b, x.imm.extractLsb' 1 3, sc⟩)
  | 7 => some (.vtadd ⟨(x.imm.extractLsb' 0 1) ++ x.d, x.a, x.b, x.imm.extractLsb' 1 3, sc⟩)
  | 8 => some (.lawset ⟨x.d, x.a, x.b, sc⟩)
  | 9 => some (.lawget ⟨x.d, x.a, x.b, sc⟩)
  | _ => none

/-- Major 21: the func selects the instruction (02 R38). -/
noncomputable def decode21 (sc : BitVec 2) (x : FmtT) : Option Instr :=
  some (.mma ⟨x.b, x.a, x.fs, x.q, x.ac, x.fp.extractLsb' 3 3, x.fp.extractLsb' 0 3, x.acc, sc⟩)

/-- Major 22: the func selects the instruction (02 R38). -/
noncomputable def decode22 (sc : BitVec 2) (x : FmtE) : Option Instr :=
  match (x.f).toNat with
  | 0 => some (.rowcfg ⟨x.d, x.imm.setWidth 1, sc⟩)
  | 1 => some (.acget ⟨(x.imm.extractLsb' 0 1) ++ x.d, x.imm.extractLsb' 1 2, x.b.setWidth 2, sc⟩)
  | 2 => some (.acput ⟨(x.imm.extractLsb' 0 1) ++ x.d, x.imm.extractLsb' 1 2, x.b.setWidth 2, sc⟩)
  | 3 => some (.aczero ⟨x.imm, sc⟩)
  | 4 => some (.qcur ⟨x.d.setWidth 3, x.a, sc⟩)
  | 5 => some (.qcurrd ⟨x.d, x.a.setWidth 3, sc⟩)
  | 6 => some (.qadv ⟨x.d.setWidth 3, x.imm, sc⟩)
  | 7 =>
    match x.imm.toNat with
    | 0 => some (.qmovToQ ⟨x.d.setWidth 3, x.a, sc⟩)
    | 1 => some (.qmovToS ⟨x.d, x.a.setWidth 3, sc⟩)
    | _ => none
  | _ => none

/-- Major 23: the func selects the instruction (02 R38). -/
noncomputable def decode23 (sc : BitVec 2) (x : FmtT) : Option Instr :=
  match (x.fp.extractLsb' 3 3).toNat with
  | 0 => some (.ascore ⟨x.b.setWidth 3, x.a.setWidth 3, x.fs, x.ac.setWidth 1, x.fp.extractLsb' 0 3, x.acc, sc⟩)
  | 1 => some (.asoft ⟨x.a.setWidth 3, x.acc, sc⟩)
  | 2 => some (.aval ⟨x.b.setWidth 3, x.a.setWidth 3, x.fs, x.q.setWidth 2, x.ac.setWidth 1, x.fp.extractLsb' 0 3, x.acc, sc⟩)
  | 3 => some (.amass ⟨x.b.setWidth 3, x.a.setWidth 3, x.fs, x.acc, sc⟩)
  | 4 => some (.apos ⟨x.b.setWidth 3, x.a.setWidth 3, sc⟩)
  | _ => none

/-- Major 24: the func selects the instruction (02 R38). -/
noncomputable def decode24 (sc : BitVec 2) (x : FmtE) : Option Instr :=
  match (x.f).toNat with
  | 0 => some (.cpw ⟨x.a, x.imm ++ x.b, sc⟩)
  | 1 => some (.cprd ⟨x.d, x.imm ++ x.b, sc⟩)
  | 2 => some (.cpgo ⟨x.d, x.a, x.b, sc⟩)
  | 3 => some (.cpconv ⟨x.d, x.a, x.b, sc⟩)
  | 4 => some (.bget ⟨x.d, x.a, x.b, sc⟩)
  | 5 => some (.gget ⟨x.d, x.a, x.b, sc⟩)
  | 6 => some (.gput ⟨x.d, x.a, x.b, sc⟩)
  | 7 => some (.bind ⟨(x.imm.extractLsb' 0 1) ++ x.d, x.a, x.imm.extractLsb' 1 2, sc⟩)
  | 8 => some (.unbind ⟨x.d, x.imm.extractLsb' 1 2, sc⟩)
  | 9 => some (.card ⟨x.d, x.a, sc⟩)
  | 10 => some (.cbinit ⟨x.d, x.a, x.b, sc⟩)
  | 11 =>
    match x.imm.toNat with
    | 0 => some (.cbpop ⟨x.d, x.a, sc⟩)
    | 1 => some (.cbpopDone ⟨x.a, x.b, sc⟩)
    | _ => none
  | 12 =>
    match x.imm.toNat with
    | 0 => some (.cbpush ⟨x.d, x.a, sc⟩)
    | 1 => some (.cbpushDone ⟨x.a, x.b, sc⟩)
    | _ => none
  | 13 => some (.dredge ⟨x.d, x.a, sc⟩)
  | 14 => some (.ctwait ⟨x.d, x.a, x.imm, sc⟩)
  | 15 => some (.ctrd ⟨x.d, x.imm, sc⟩)
  | _ => none

/-- Major 25: the func selects the instruction (02 R38). -/
noncomputable def decode25 (sc : BitVec 2) (x : FmtE) : Option Instr :=
  match (x.f).toNat with
  | 0 => some (.msend ⟨x.a, x.b, sc⟩)
  | 1 => some (.margs ⟨x.d, x.imm.setWidth 3, sc⟩)
  | 2 => some (.mlane ⟨x.d, x.a, x.b, sc⟩)
  | 3 =>
    match x.imm.toNat with
    | 0 => some (.mtab ⟨x.d, x.a, x.b, sc⟩)
    | 1 => some (.mtabDis ⟨x.d, x.a, x.b, sc⟩)
    | _ => none
  | 4 => some (.dcset ⟨x.d, x.a, x.b, sc⟩)
  | 5 => some (.dcdec ⟨x.a, x.b, sc⟩)
  | 6 =>
    match x.imm.toNat with
    | 0 => some (.dcrd ⟨x.d, x.a, sc⟩)
    | 1 => some (.dcrdClr ⟨x.d, x.a, sc⟩)
    | _ => none
  | 7 => some (.ferryocc ⟨x.d, x.a, sc⟩)
  | 8 => some (.ferrymig ⟨x.a, x.b, sc⟩)
  | 9 => some (.mdead ⟨x.d, x.a, sc⟩)
  | _ => none

/-- Major 26: the func selects the instruction (02 R38). -/
noncomputable def decode26 (sc : BitVec 2) (x : FmtE) : Option Instr :=
  match (x.f).toNat with
  | 0 => some (.hstart ⟨x.d, x.a, x.b, sc⟩)
  | 1 => some (.hend ⟨sc⟩)
  | 2 => some (.raft ⟨x.d, x.a, sc⟩)
  | 3 => some (.split ⟨x.a, sc⟩)
  | 4 => some (.raftAny ⟨x.d, x.a, sc⟩)
  | 5 => some (.raftAll ⟨x.d, x.a, sc⟩)
  | 6 => some (.bar ⟨x.d, x.a, x.imm.setWidth 2, sc⟩)
  | 7 => some (.prio ⟨x.d, x.imm.setWidth 2, sc⟩)
  | 8 => some (.yield ⟨sc⟩)
  | _ => none

/-- Major 27: the func selects the instruction (02 R38). -/
noncomputable def decode27 (sc : BitVec 2) (x : FmtE) : Option Instr :=
  match (x.f).toNat with
  | 0 => some (.dsync ⟨sc⟩)
  | 1 => some (.dphase ⟨x.d, sc⟩)
  | 2 => some (.berth ⟨x.a, x.b, sc⟩)
  | 3 => some (.tround ⟨x.d, sc⟩)
  | 4 => some (.trank ⟨x.d, sc⟩)
  | 5 => some (.tdone ⟨x.a, sc⟩)
  | _ => none

/-- Major 28: the func selects the instruction (02 R38). -/
noncomputable def decode28 (sc : BitVec 2) (x : FmtRF) : Option Instr :=
  match (x.op).toNat with
  | 0 => some (.repf ⟨x.len, x.sb, x.sa, x.sd, x.cnt, sc⟩)
  | 1 => some (.nop ⟨sc⟩)
  | _ => none

/-- Major 29: the func selects the instruction (02 R38). -/
noncomputable def decode29 (sc : BitVec 2) (x : FmtE) : Option Instr :=
  match (x.f).toNat with
  | 0 => some (.sysr ⟨x.d, x.imm ++ x.b ++ x.a, sc⟩)
  | 1 => some (.sysw ⟨x.d, x.imm ++ x.b ++ x.a, sc⟩)
  | 2 => some (.trap ⟨x.b ++ x.a, sc⟩)
  | 3 => some (.scall ⟨x.imm ++ x.b ++ x.a, sc⟩)
  | 4 =>
    match x.imm.toNat with
    | 0 => some (.uret ⟨sc⟩)
    | 1 => some (.uretSw ⟨x.a, x.b, sc⟩)
    | 2 => some (.uretWait ⟨sc⟩)
    | _ => none
  | 5 => some (.sret ⟨sc⟩)
  | 6 => some (.fret ⟨sc⟩)
  | 7 => some (.brk ⟨x.b ++ x.a, sc⟩)
  | 8 => some (.dbgsig ⟨x.a, sc⟩)
  | _ => none

/-- A 32-bit word without its checks: major and func select the instruction. -/
noncomputable def rawWord (pre : Option Pre) (w : BitVec 32) : Option Instr :=
  let sc := w.extractLsb' 6 2
  let x := w.extractLsb' 8 24
  match (w.extractLsb' 1 5).toNat with
  | 0 => decode0 sc (.of x)
  | 1 => decode1 sc (.of x)
  | 2 => decode2 sc (.of x)
  | 3 => decode3 sc (.of x)
  | 4 => decode4 sc (.of x)
  | 5 => decode5 sc (.of x)
  | 6 => decode6 sc (.of x)
  | 7 => decode7 sc (.of x)
  | 8 => decode8 sc (.of x)
  | 9 => decode9 sc (.of x)
  | 10 => decode10 sc (.of x)
  | 11 => decode11 pre sc (.of x)
  | 12 => decode12 pre sc (.of x)
  | 13 => decode13 pre sc (.of x)
  | 14 => decode14 pre sc (.of x)
  | 15 => decode15 pre sc (.of x)
  | 16 => decode16 pre sc (.of x)
  | 17 => decode17 pre sc (.of x)
  | 18 => decode18 pre sc (.of x)
  | 19 => decode19 pre sc (.of x)
  | 20 => decode20 sc (.of x)
  | 21 => decode21 sc (.of x)
  | 22 => decode22 sc (.of x)
  | 23 => decode23 sc (.of x)
  | 24 => decode24 sc (.of x)
  | 25 => decode25 sc (.of x)
  | 26 => decode26 sc (.of x)
  | 27 => decode27 sc (.of x)
  | 28 => decode28 sc (.of x)
  | 29 => decode29 sc (.of x)
  | _ => none

/-- A compact halfword without its checks (02 R34). -/
noncomputable def rawHalf (h : BitVec 16) : Option Instr :=
  let x := h.extractLsb' 5 11
  match (h.extractLsb' 1 4).toNat with
  | 0 => some (.cInc ⟨x.extractLsb' 0 4, x.extractLsb' 4 7⟩)
  | 1 => some (.cSet ⟨x.extractLsb' 0 4, x.extractLsb' 4 7⟩)
  | 2 =>
    match (x.extractLsb' 8 3).toNat with
    | 0 => some (.cCp ⟨x.extractLsb' 0 4, x.extractLsb' 4 4⟩)
    | 1 => some (.cAddr ⟨x.extractLsb' 0 4, x.extractLsb' 4 4⟩)
    | 2 => some (.cSubr ⟨x.extractLsb' 0 4, x.extractLsb' 4 4⟩)
    | 3 => some (.cAndr ⟨x.extractLsb' 0 4, x.extractLsb' 4 4⟩)
    | 4 => some (.cOrr ⟨x.extractLsb' 0 4, x.extractLsb' 4 4⟩)
    | 5 => some (.cXorr ⟨x.extractLsb' 0 4, x.extractLsb' 4 4⟩)
    | 6 => some (.cSllr ⟨x.extractLsb' 0 4, x.extractLsb' 4 4⟩)
    | 7 => some (.cSrar ⟨x.extractLsb' 0 4, x.extractLsb' 4 4⟩)
    | _ => none
  | 3 =>
    match (x.extractLsb' 8 3).toNat with
    | 0 => some (.cSltr ⟨x.extractLsb' 0 4, x.extractLsb' 4 4⟩)
    | 1 => some (.cSltwr ⟨x.extractLsb' 0 4, x.extractLsb' 4 4⟩)
    | 2 => some (.cSeqr ⟨x.extractLsb' 0 4, x.extractLsb' 4 4⟩)
    | 3 => some (.cSner ⟨x.extractLsb' 0 4, x.extractLsb' 4 4⟩)
    | 4 => some (.cMinr ⟨x.extractLsb' 0 4, x.extractLsb' 4 4⟩)
    | 5 => some (.cMaxr ⟨x.extractLsb' 0 4, x.extractLsb' 4 4⟩)
    | 6 => some (.cMinwr ⟨x.extractLsb' 0 4, x.extractLsb' 4 4⟩)
    | 7 => some (.cMaxwr ⟨x.extractLsb' 0 4, x.extractLsb' 4 4⟩)
    | _ => none
  | 4 =>
    match (x.extractLsb' 10 1).toNat with
    | 0 => some (.cShl ⟨x.extractLsb' 0 4, x.extractLsb' 4 6⟩)
    | 1 => some (.cSar ⟨x.extractLsb' 0 4, x.extractLsb' 4 6⟩)
    | _ => none
  | 5 => some (.cJreg ⟨x.extractLsb' 0 4⟩)
  | 6 =>
    match (x.extractLsb' 8 3).toNat with
    | 0 => some (.cFadd ⟨x.extractLsb' 0 3, x.extractLsb' 3 3⟩)
    | 1 => some (.cFsub ⟨x.extractLsb' 0 3, x.extractLsb' 3 3⟩)
    | 2 => some (.cFmul ⟨x.extractLsb' 0 3, x.extractLsb' 3 3⟩)
    | 3 => some (.cFmin ⟨x.extractLsb' 0 3, x.extractLsb' 3 3⟩)
    | 4 => some (.cFmax ⟨x.extractLsb' 0 3, x.extractLsb' 3 3⟩)
    | 5 => some (.cFneg ⟨x.extractLsb' 0 3, x.extractLsb' 3 3⟩)
    | 6 => some (.cFabs ⟨x.extractLsb' 0 3, x.extractLsb' 3 3⟩)
    | _ => none
  | 7 => some (.cVty ⟨x.extractLsb' 0 6, x.extractLsb' 6 5⟩)
  | 8 => some (.cBrz ⟨x.extractLsb' 0 4, x.extractLsb' 4 7⟩)
  | 9 => some (.cBrnz ⟨x.extractLsb' 0 4, x.extractLsb' 4 7⟩)
  | 10 => some (.cGo ⟨x⟩)
  | 11 => some (.cLld ⟨x.extractLsb' 0 4, x.extractLsb' 4 7⟩)
  | 12 => some (.cLsd ⟨x.extractLsb' 0 4, x.extractLsb' 4 7⟩)
  | 13 => some (.cLr ⟨x.extractLsb' 0 4, x.extractLsb' 4 4, x.extractLsb' 8 3⟩)
  | 14 => some (.cSr ⟨x.extractLsb' 0 4, x.extractLsb' 4 4, x.extractLsb' 9 2⟩)
  | 15 => some (.cVmv ⟨x.extractLsb' 5 5, x.extractLsb' 0 5⟩)
  | _ => none

/-- A halfword begins a compact instruction when its bit 0 is clear (02 R29). -/
def isCompact (h : BitVec 16) : Bool := h.extractLsb' 0 1 == 0#1

/-- A halfword is c.vty (02 R34, compact major 7). -/
def isVty (h : BitVec 16) : Bool := h.extractLsb' 0 5 == 14#5

/-- A first halfword of majors 11 to 19, which a c.vty may prefix (02 R36). -/
def takesPrefix (h : BitVec 16) : Bool :=
  h.extractLsb' 0 1 == 1#1 && decide (11 ≤ (h.extractLsb' 1 5).toNat) && decide ((h.extractLsb' 1 5).toNat ≤ 19)

/-- The instruction of the halfwords `hs`, if they are exactly its encoding and it is well-formed. -/
def accept (hs : List (BitVec 16)) (i : Instr) : Decoded :=
  if encode i = hs then
    match i.faultsOf with
    | [] => .ok i hs.length
    | r :: _ => .reject r
  else .reject .mustBeZero

/-- A lone c.vty, or one whose next instruction takes no prefix: it stands for itself (02 R36). -/
noncomputable def loneVty (h : BitVec 16) : Decoded := accept [h] (.cVty ⟨h.extractLsb' 5 6, h.extractLsb' 11 5⟩)

/-- A c.vty and the halfwords after it (02 R36). -/
noncomputable def decodePair (h : BitVec 16) (t : List (BitVec 16)) : Decoded :=
  match t with
  | g :: k :: _ =>
    if takesPrefix g then
      match Pre.ofHalf h with
      | none => .reject .typeRefused
      | some p =>
        match rawWord (some p) (k ++ g) with
        | none => .reject .reservedFunc
        | some i => accept [h, g, k] i
    else loneVty h
  | [g] => if isCompact g then loneVty h else .reject .truncated
  | [] => loneVty h

/-- The instruction at the start of a list of halfwords, with its length in halfwords; a reason where the words are
no instruction (02 R29 to R39). -/
noncomputable def decode : List (BitVec 16) → Decoded
  | [] => .reject .truncated
  | h :: t =>
    if isVty h then decodePair h t
    else if isCompact h then
      match rawHalf h with
      | none => .reject .compactForm
      | some i => accept [h] i
    else
      match t with
      | [] => .reject .truncated
      | k :: _ =>
        if (h.extractLsb' 1 5).toNat ≥ 30 then .reject .reservedMajor
        else
          match rawWord none (k ++ h) with
          | none => .reject .reservedFunc
          | some i => accept [h, k] i

/-- The halfwords of an instruction whose bits are `w`, the first in the low bits; bits from `nbits` up are 0. -/
def tableHalves (nbits w : Nat) : List (BitVec 16) :=
  let v := w % 2 ^ nbits
  [BitVec.ofNat 16 v, BitVec.ofNat 16 (v / 2 ^ 16), BitVec.ofNat 16 (v / 2 ^ 32)]

/-- The decoder on the words of an opcode-table row. -/
noncomputable def decodeTableWord (nbits w : Nat) : Option Instr :=
  match decode (tableHalves nbits w) with
  | .ok i _ => some i
  | .reject _ => none

end Sys2Proof
end

