-- ==== Sys2Proof/Machine/Flags.lean ====
section
/-!
DEFINITION. Integer results to the bit, and what an operation says beside its value: wrapping, saturation and its
indicator, comparisons (03 R50, R63, R64, R70). The device keeps no condition flags: a comparison writes a register.
-/
namespace Sys2Proof.Machine
open Sys2Proof

/-! ### Integers (03 R70) -/

/-- Wrap(v, n) as a number. -/
def wrapNat (v : Int) (n : Nat) : Nat := (v % (2 : Int) ^ n).toNat
/-- SignExt(b, n). -/
def signExt (b n : Nat) : Int := if 2 ^ (n - 1) ≤ b then (b : Int) - 2 ^ n else b
/-- SatS(v, n). -/
def satS (v : Int) (n : Nat) : Int := min (max v (-(2 : Int) ^ (n - 1))) (2 ^ (n - 1) - 1)
/-- SatW(v, n). -/
def satW (v : Int) (n : Nat) : Int := min (max v 0) (2 ^ n - 1)
/-- Indef(n, sgn) (03 R66). -/
def indef (n : Nat) (sgn : Bool) : Nat := if sgn then 2 ^ (n - 1) else 2 ^ n - 1
/-- RneShift(v, k): the nearest integer to v / 2^k, a tie going to the even one. -/
def rneShift (v : Int) (k : Nat) : Int :=
  let q := v / (2 : Int) ^ k
  let r := v % (2 : Int) ^ k
  if 2 * r > (2 : Int) ^ k ∨ (2 * r = (2 : Int) ^ k ∧ q % 2 = 1) then q + 1 else q

/-! ### Fixed point and its saturation indicator (03 R63, R64) -/

/-- Clamp32: the 32-bit pattern, and whether the clamp changed the value. -/
def clamp32 (v : Int) : Nat × Bool := (wrapNat (satS v 32) 32, decide (satS v 32 ≠ v))
/-- MulQ of a Q16.16 pattern by a factor of `k` fraction bits: Q0.32 is whole, Q1.30 is signed. -/
def mulQ (x f k : Nat) : Nat × Bool :=
  clamp32 (rneShift (signExt x 32 * (if k = 32 then (f : Int) else signExt f 32)) k)
/-- CMulQ: a complex Q16.16 value by a complex Q1.30 factor; the indicator is the or of the two. -/
def cMulQ (xr xi fr fi : Nat) : Nat × Nat × Bool :=
  let r := clamp32 (rneShift (signExt xr 32 * signExt fr 32 - signExt xi 32 * signExt fi 32) 30)
  let i := clamp32 (rneShift (signExt xr 32 * signExt fi 32 + signExt xi 32 * signExt fr 32) 30)
  (r.1, i.1, r.2 || i.2)

/-! ### Comparisons into an s register (04 R72, R87) -/

/-- 1 when a relation holds, else 0. -/
def truth (b : Bool) : Word := if b then 1 else 0
/-- Signed order of 64-bit patterns. -/
def sLess (a b : Word) : Bool := BitVec.slt a b
/-- Order of 64-bit patterns as whole numbers. -/
def wLess (a b : Word) : Bool := BitVec.ult a b

/-! ### Saturating 64-bit sums (04 R72) -/

def addS (a b : Word) : Word := BitVec.ofInt 64 (satS (a.toInt + b.toInt) 64)
def subS (a b : Word) : Word := BitVec.ofInt 64 (satS (a.toInt - b.toInt) 64)
def addSW (a b : Word) : Word := BitVec.ofInt 64 (satW ((a.toNat : Int) + b.toNat) 64)
def subSW (a b : Word) : Word := BitVec.ofInt 64 (satW ((a.toNat : Int) - b.toNat) 64)

end Sys2Proof.Machine
end

