-- ==== Sys2Proof/Machine/Float.lean ====
section
/-!
DEFINITION. Floating values to the bit (03 R51 to R70): exact values, decoding of f32, h16, bf16, binary8 and scale
bytes, the one rounding of a result, and the helper functions of 03 R70. A finite value is a sign, a positive whole
number and a power of two, so sums and products are exact; quotients and roots carry a sticky bit below more bits than
any format keeps.
-/
namespace Sys2Proof.Machine
open Sys2Proof

/-- A floating value: NaN, an infinity, a zero, or ±m · 2^e with m > 0. -/
inductive FVal where
  | nan
  | inf (neg : Bool)
  | zero (neg : Bool)
  | fin (neg : Bool) (m : Nat) (e : Int)
deriving DecidableEq, Repr

/-- A format of 03 R51: its width and its fraction bits. -/
structure Fmt where
  width : Nat
  frac : Nat
deriving DecidableEq, Repr

def Fmt.f32 : Fmt := ⟨32, 23⟩
def Fmt.h16 : Fmt := ⟨16, 10⟩
def Fmt.bf16 : Fmt := ⟨16, 7⟩

def Fmt.ebits (f : Fmt) : Nat := f.width - 1 - f.frac
def Fmt.bias (f : Fmt) : Int := 2 ^ (f.ebits - 1) - 1
/-- The exponent of the last place of a subnormal. -/
def Fmt.low (f : Fmt) : Int := 1 - f.bias - f.frac
def Fmt.infBits (f : Fmt) : Nat := (2 ^ f.ebits - 1) * 2 ^ f.frac
/-- The canonical NaN (03 R51). -/
def Fmt.nanBits (f : Fmt) : Nat := f.infBits + 2 ^ (f.frac - 1)
def Fmt.maxBits (f : Fmt) : Nat := f.infBits - 1
def Fmt.signBit (f : Fmt) (neg : Bool) : Nat := if neg then 2 ^ (f.width - 1) else 0

/-- The format of a code of 04 R85: 0 f32, 1 h16, 2 bf16. -/
def Fmt.ofCode (c : BitVec 2) : Fmt := if c = 0#2 then .f32 else if c = 1#2 then .h16 else .bf16

/-- The format of a floating type. -/
def Fmt.ofTy : Ty → Fmt
  | .h16 => .h16
  | .bf16 => .bf16
  | _ => .f32

/-- A rounding mode (01 R20). -/
inductive Rm where
  | near
  | zero
  | up
  | down
deriving DecidableEq, Repr

def Rm.ofBits (b : BitVec 2) : Rm := if b = 0#2 then .near else if b = 1#2 then .zero else if b = 2#2 then .up else .down

namespace FVal

/-- The value with its sign inverted (05 R97). -/
def neg : FVal → FVal
  | nan => nan
  | inf b => inf (!b)
  | zero b => zero (!b)
  | fin b m e => fin (!b) m e

def isNaN : FVal → Bool
  | nan => true
  | _ => false

def isZero : FVal → Bool
  | zero _ => true
  | _ => false

/-- floor(log2 |x|) of a finite nonzero value. -/
def log2 : FVal → Int
  | fin _ m e => e + (Nat.log2 m : Int)
  | _ => 0

/-- A signed whole number times a power of two; zero takes the sign given. -/
def ofInt (v : Int) (e : Int) (zeroNeg : Bool) : FVal :=
  if v = 0 then zero zeroNeg else fin (decide (v < 0)) v.natAbs e

/-- ExactSum(a, b): NaN by 03 R53, the sign of zero by R55. -/
def sum (rm : Rm) (a b : FVal) : FVal :=
  match a, b with
  | nan, _ => nan
  | _, nan => nan
  | inf x, inf y => if x = y then inf x else nan
  | inf x, _ => inf x
  | _, inf y => inf y
  | zero x, zero y => if x = y then zero x else zero (rm == .down)
  | zero _, fin y m e => fin y m e
  | fin x m e, zero _ => fin x m e
  | fin x m e, fin y k d =>
    let low := min e d
    let p : Int := (m * 2 ^ (e - low).toNat : Nat)
    let q : Int := (k * 2 ^ (d - low).toNat : Nat)
    ofInt ((if x then -p else p) + (if y then -q else q)) low (rm == .down)

/-- ExactProd(a, b). -/
def prod (a b : FVal) : FVal :=
  match a, b with
  | nan, _ => nan
  | _, nan => nan
  | inf x, inf y => inf (x != y)
  | inf x, fin y _ _ => inf (x != y)
  | fin x _ _, inf y => inf (x != y)
  | inf _, zero _ => nan
  | zero _, inf _ => nan
  | zero x, zero y => zero (x != y)
  | zero x, fin y _ _ => zero (x != y)
  | fin x _ _, zero y => zero (x != y)
  | fin x m e, fin y k d => fin (x != y) (m * k) (e + d)

/-- A quotient with a sticky last bit, correct under every rounding to a format of 03 R51 (03 R53, R55). -/
def quot (a b : FVal) : FVal :=
  match a, b with
  | nan, _ => nan
  | _, nan => nan
  | inf _, inf _ => nan
  | inf x, zero y => inf (x != y)
  | inf x, fin y _ _ => inf (x != y)
  | zero x, inf y => zero (x != y)
  | fin x _ _, inf y => zero (x != y)
  | zero _, zero _ => nan
  | zero x, fin y _ _ => zero (x != y)
  | fin x _ _, zero y => inf (x != y)
  | fin x m e, fin y k d =>
    let n := m * 2 ^ 128
    fin (x != y) (2 * (n / k) + (if n % k = 0 then 0 else 1)) (e - d - 129)

/-- The greatest r below 2^bits with r² ≤ n. -/
def isqrt (n : Nat) : Nat → Nat → Nat
  | 0, r => r
  | k + 1, r => isqrt n k (if (r + 2 ^ k) * (r + 2 ^ k) ≤ n then r + 2 ^ k else r)

/-- A square root with a sticky last bit (03 R53; the root of −0 is −0). -/
def sqrt : FVal → FVal
  | nan => nan
  | zero b => zero b
  | inf b => if b then nan else inf false
  | fin true _ _ => nan
  | fin false m e =>
    let m1 := if e % 2 = 0 then m else 2 * m
    let e1 := if e % 2 = 0 then e else e - 1
    let n := m1 * 2 ^ 64
    let r := isqrt n 60 0
    fin false (2 * r + (if r * r = n then 0 else 1)) (e1 / 2 - 33)

/-- The order of two values that are no NaN: the sign of a − b, with −0 equal to +0. -/
def compare (a b : FVal) : Int :=
  match a, b with
  | inf x, inf y => if x = y then 0 else if x then -1 else 1
  | inf x, _ => if x then -1 else 1
  | _, inf y => if y then 1 else -1
  | zero _, zero _ => 0
  | zero _, fin y _ _ => if y then 1 else -1
  | fin x _ _, zero _ => if x then -1 else 1
  | fin x m e, fin y k d =>
    let low := min e d
    let p : Int := (m * 2 ^ (e - low).toNat : Nat)
    let q : Int := (k * 2 ^ (d - low).toNat : Nat)
    (if x then -p else p) - (if y then -q else q)
  | _, _ => 0

/-- Equal, less, less or equal: false with a NaN (03 R54). -/
def eq (a b : FVal) : Bool := !a.isNaN && !b.isNaN && compare a b == 0
def lt (a b : FVal) : Bool := !a.isNaN && !b.isNaN && decide (compare a b < 0)
def le (a b : FVal) : Bool := !a.isNaN && !b.isNaN && decide (compare a b ≤ 0)

/-- The sign of a value: true when its sign bit is set. -/
def signed : FVal → Bool
  | nan => false
  | inf b | zero b | fin b _ _ => b

/-- FMin and FMax (03 R57): −0 orders below +0; a NaN operand gives NaN. -/
def fmin (a b : FVal) : FVal :=
  if a.isNaN || b.isNaN then nan
  else if compare a b < 0 then a
  else if compare b a < 0 then b
  else if a.signed then a else b

def fmax (a b : FVal) : FVal :=
  if a.isNaN || b.isNaN then nan
  else if compare a b < 0 then b
  else if compare b a < 0 then a
  else if a.signed then b else a

/-- Scale(x, c) (03 R62). -/
def scale (x : FVal) (c : Nat) : FVal :=
  if c = 255 then nan
  else
    match x with
    | fin b m e => fin b m (e + (c : Int) - 127)
    | y => y

end FVal

/-- The whole part of m / 2^k rounded under a mode, for a magnitude of the given sign (03 R52). -/
def roundMag (rm : Rm) (neg : Bool) (m k : Nat) : Nat :=
  let q := m / 2 ^ k
  let r := m % 2 ^ k
  match rm with
  | .near => if 2 * r > 2 ^ k ∨ (2 * r = 2 ^ k ∧ q % 2 = 1) then q + 1 else q
  | .zero => q
  | .up => if r ≠ 0 ∧ neg = false then q + 1 else q
  | .down => if r ≠ 0 ∧ neg = true then q + 1 else q

/-- ±m · 2^e as n · 2^q of precision `p`, with the last place no lower than `low`. -/
def roundTo (rm : Rm) (neg : Bool) (m : Nat) (e : Int) (p : Nat) (low : Int) : Nat × Int :=
  let q := max (e + (Nat.log2 m : Int) - (p - 1 : Nat)) low
  if q ≤ e then (m * 2 ^ (e - q).toNat, q) else (roundMag rm neg m (q - e).toNat, q)

/-- The code of n · 2^q, n at most 2^(t + 1): the exponent field above `t` trailing bits. It grows with the value. -/
def codeOf (n : Nat) (q low : Int) (t : Nat) : Nat :=
  if n < 2 ^ t then n else (q - low).toNat * 2 ^ t + n

namespace Fmt

/-- Decode(b, fmt) for the formats of 03 R51. -/
def decode (f : Fmt) (b : Nat) : FVal :=
  let neg := b / 2 ^ (f.width - 1) % 2 == 1
  let ex := b / 2 ^ f.frac % 2 ^ f.ebits
  let t := b % 2 ^ f.frac
  if ex = 2 ^ f.ebits - 1 then (if t = 0 then .inf neg else .nan)
  else if ex = 0 then (if t = 0 then .zero neg else .fin neg t f.low)
  else .fin neg (2 ^ f.frac + t) (f.low + ex - 1)

/-- The overflow result of 03 R52. -/
def overflow (f : Fmt) (rm : Rm) (neg : Bool) : Nat :=
  match rm with
  | .near => f.infBits
  | .zero => f.maxBits
  | .up => if neg then f.maxBits else f.infBits
  | .down => if neg then f.infBits else f.maxBits

/-- Round(x, fmt, rm, zo) as a pattern (03 R52, R54, R56, R70). -/
def round (f : Fmt) (rm : Rm) (zo : Bool) (x : FVal) : Nat :=
  match x with
  | .nan => f.nanBits
  | .inf b => f.signBit b + f.infBits
  | .zero b => f.signBit b
  | .fin b m e =>
    let r := roundTo rm b m e (f.frac + 1) f.low
    let c := codeOf r.1 r.2 f.low f.frac
    f.signBit b +
      (if f.maxBits < c then f.overflow rm b
       else if zo ∧ c < 2 ^ f.frac then 0
       else c)

/-- FlushIn of a decoded value (03 R56). -/
def flush (f : Fmt) (zi : Bool) (x : FVal) : FVal :=
  match x with
  | .fin b m e => if zi ∧ FVal.log2 (.fin b m e) < f.low + f.frac then .zero b else .fin b m e
  | y => y

def add (f : Fmt) (rm : Rm) (zi zo : Bool) (a b : FVal) : Nat :=
  f.round rm zo (FVal.sum rm (f.flush zi a) (f.flush zi b))
def mul (f : Fmt) (rm : Rm) (zi zo : Bool) (a b : FVal) : Nat :=
  f.round rm zo (FVal.prod (f.flush zi a) (f.flush zi b))
def fma (f : Fmt) (rm : Rm) (zi zo : Bool) (a b c : FVal) : Nat :=
  f.round rm zo (FVal.sum rm (FVal.prod (f.flush zi a) (f.flush zi b)) (f.flush zi c))

/-- A pattern's sign bit inverted. -/
def negBits (f : Fmt) (b : Nat) : Nat := (b + 2 ^ (f.width - 1)) % 2 ^ f.width

end Fmt

/-! ### Tree sums (03 R69) -/

/-- One level of a tree sum. -/
def treeLevel (f : Fmt) (rm : Rm) (zi zo : Bool) : List Nat → List Nat
  | a :: b :: t => f.add rm zi zo (f.decode a) (f.decode b) :: treeLevel f rm zi zo t
  | t => t

/-- The levels of a tree of at most 2^k leaves. -/
def treeLevels (f : Fmt) (rm : Rm) (zi zo : Bool) : Nat → List Nat → List Nat
  | 0, l => l
  | k + 1, l => if l.length ≤ 1 then l else treeLevels f rm zi zo k (treeLevel f rm zi zo l)

/-- The least power of two that is at least `m`. -/
def pow2AtLeast (m : Nat) : Nat := if m ≤ 1 then 1 else 2 ^ (Nat.log2 (m - 1) + 1)

/-- TreeSum over patterns: +0 for none; unused leaves hold −0; a NaN is canonical, also of one leaf alone (03 R54). -/
def treeSum (f : Fmt) (rm : Rm) (zi zo : Bool) (xs : List Nat) : Nat :=
  match xs with
  | [] => 0
  | [x] => f.round .near false (f.decode x)
  | _ =>
    let pad := List.replicate (pow2AtLeast xs.length - xs.length) (f.signBit true)
    (treeLevels f rm zi zo 12 (xs ++ pad)).headD 0

/-! ### binary8 and scale bytes (03 R58 to R62) -/

/-- The trailing significand width, the bias and the last place of a binary8 variant of precision p + 1. -/
def b8Bias (p : Fin 7) (u : Bool) : Int := if u then 2 ^ (7 - p.val) else 2 ^ (6 - p.val)
def b8Low (p : Fin 7) (u : Bool) : Int := 1 - b8Bias p u - p.val
def b8NaN (u : Bool) : Nat := if u then 0xFF else 0x80
def b8Max (u f : Bool) : Nat := if u then (if f then 0xFE else 0xFD) else (if f then 0x7F else 0x7E)
/-- The code of +inf in an extended variant. -/
def b8Inf (u : Bool) : Nat := if u then 0xFE else 0x7F

/-- Decode of a binary8 code (03 R58). -/
def b8Decode (p : Fin 7) (u f : Bool) (c : Nat) : FVal :=
  let neg := !u && decide (0x80 ≤ c)
  let m := if u then c else c % 0x80
  if c = b8NaN u then .nan
  else if c = 0 then .zero false
  else if f = false ∧ m = b8Inf u then .inf neg
  else
    let e := m / 2 ^ p.val
    let t := m % 2 ^ p.val
    if e = 0 then .fin neg t (b8Low p u) else .fin neg (2 ^ p.val + t) (b8Low p u + e - 1)

/-- The result above the largest finite value (03 R60). -/
def b8Over (u f sat neg : Bool) : Nat :=
  let s := if neg then 0x80 else 0
  if sat then s + b8Max u f else if f then b8NaN u else s + b8Inf u

/-- RoundB8 (03 R60): nearest-even whatever the mode. -/
def b8Round (p : Fin 7) (u f sat : Bool) (x : FVal) : Nat :=
  match x with
  | .nan => b8NaN u
  | .zero _ => 0
  | .inf neg => if u && neg then (if sat then 0 else b8NaN u) else b8Over u f sat neg
  | .fin neg m e =>
    let r := roundTo .near neg m e (p.val + 1) (b8Low p u)
    let c := codeOf r.1 r.2 (b8Low p u) p.val
    if c = 0 then 0
    else if u && neg then (if sat then 0 else b8NaN u)
    else if b8Max u f < c then b8Over u f sat neg
    else (if neg then 0x80 else 0) + c

/-- The value of a scale byte (03 R62). -/
def sc8Decode (c : Nat) : FVal := if c = 255 then .nan else .fin false 1 ((c : Int) - 127)

/-- Conversion of a floating value to a scale byte (05 R101). -/
def sc8Round (sat : Bool) (x : FVal) : Nat :=
  match x with
  | .nan => 255
  | .zero _ => if sat then 0 else 255
  | .inf _ => if sat then 254 else 255
  | .fin b m e =>
    let c := FVal.log2 (.fin b m e) + 127
    if sat then (min (max c 0) 254).toNat else if 0 ≤ c ∧ c ≤ 254 then c.toNat else 255

/-! ### Conversions (03 R65 to R67) -/

/-- A finite value rounded to an integer. -/
def roundInt (rm : Rm) (neg : Bool) (m : Nat) (e : Int) : Int :=
  let n := if 0 ≤ e then m * 2 ^ e.toNat else roundMag rm neg m (-e).toNat
  if neg then -(n : Int) else n

/-- ToInt(x, n, sgn, rm, sat) as a pattern (03 R66). -/
def toInt (x : FVal) (n : Nat) (sgn : Bool) (rm : Rm) (sat : Bool) : Nat :=
  let lo : Int := if sgn then -(2 : Int) ^ (n - 1) else 0
  let hi : Int := if sgn then 2 ^ (n - 1) - 1 else 2 ^ n - 1
  let out (below : Bool) : Nat := if sat then wrapNat (if below then lo else hi) n else indef n sgn
  match x with
  | .nan => if sat then 0 else indef n sgn
  | .inf b => out b
  | .zero _ => 0
  | .fin b m e =>
    let v := roundInt rm b m e
    if v < lo then out true else if hi < v then out false else wrapNat v n

/-- ToQ16(x) as a pattern (03 R67). -/
def toQ16 (x : FVal) : Nat :=
  match x with
  | .nan => 0
  | .inf b => if b then 2 ^ 31 else 2 ^ 31 - 1
  | .zero _ => 0
  | .fin b m e => wrapNat (satS (roundInt .near b m (e + 16)) 32) 32

/-- The exact value of an integer. -/
def ofInteger (v : Int) : FVal := FVal.ofInt v 0 false

/-- Decode of an element of a floating, binary8 or scale type. -/
def decodeTy (t : Ty) (c : Nat) : FVal :=
  match t with
  | .b8 p u f => b8Decode p u f c
  | .sc8 => sc8Decode c
  | _ => (Fmt.ofTy t).decode c

end Sys2Proof.Machine
end

