-- ==== Sys2Proof/Config.lean ====
section
/-!
DEFINITION. What the specification leaves to an implementation or to the outside: free values (constants with no body,
so that no proof can see them) and the fixed sizes of the device (00 R2, R3).
-/
namespace Sys2Proof

/-- A free 64-bit value, numbered by the state's counter of free values. -/
opaque Config.freeWord : Nat → Word

/-- Whether the signature that a firmware image carries verifies over its hash (24 R392: RSA, an external standard). -/
opaque Config.signatureValid : List Byte → BitVec 256 → Bool

/-- The device's signature over a digest (24 R393, an external standard). -/
opaque Config.sign : BitVec 256 → BitVec 3072

/-- The serial of the identity certificate, and the measurement of the boot ROM (24 R393). -/
opaque Config.serial : Word
opaque Config.romDigest : BitVec 256

/-- Which register a register number of a debugger's request names (20 R364), as a number of `Machine.debugRead`. -/
opaque Config.debugRegister : Nat → Nat

/-- Where a save area holds each register, tile and line of an image (19 R351, R352). -/
opaque Config.imageAt : Nat → Nat

/-- The bytes of an image's control state and crew-wide parts (19 R351), numbered by the state's counter of free values. -/
opaque Config.imageControl : Nat → List Byte

/-- What a number of a debugger's chain and barrier request names (20 R364), as a number of `Machine.chainRead`. -/
opaque Config.debugChain : Nat → Nat

/-- Which address bits select the set of a line of the cluster cache (13 R229). -/
opaque Config.cacheSet : Nat → Nat

/-- Cores of a die, cores of a cluster, cores of a row, dies (00 R2). -/
abbrev Config.coresPerDie : Nat := 16384
abbrev Config.coresPerCluster : Nat := 32
abbrev Config.coresPerRow : Nat := 8
abbrev Config.dies : Nat := 4
abbrev Config.cores : Nat := 65536

/-- The first address of window space (01 R23). -/
abbrev Config.windowBase : Nat := 0xFFFFFFF000000

/-- The exit address (09 R169, R170). -/
abbrev Config.exitAddress : Nat := 0xFFFFFFFFFFFFE

end Sys2Proof
end

