-- ==== Sys2Proof/Machine/State.lean ====
section
/-!
DEFINITION. The state of the device as plain data: strands, cores, rows, clusters, dies, dispatcher streams, launches,
crews, transfers, memory, and the model's own record of what happens next. A part that a
sparse map does not list has its value after reset (INVENTORY.md, State).
-/
namespace Sys2Proof.Machine

/-- A sparse map: pairs of a number and a value, with rising numbers. -/
abbrev FMap (α : Type) := List (Nat × α)

/-- A place of bytes: device memory, a replicated page of it (13 R233), a local store (reached through its own window or a
peer's), a scratchpad, host memory, a peer device's memory (13 R224). An address of device memory is 2^52 times its home
die plus the address in that die's memory (13 R225); a replicated page has the address of its primary's copy. -/
inductive Loc where
  | dev (a : Nat)
  | rep (a : Nat)
  | store (core off : Nat) (own : Bool)
  | pad (cluster off : Nat)
  | host (a : Nat)
  | peer (dev a : Nat)
deriving DecidableEq, Repr

/-- A result not yet delivered (02 R42, R43): the bytes it writes, and the slot at which readers receive it; no slot
while a variable-latency result has not arrived. -/
structure Pending where
  reg : Reg
  val : VReg
  mask : VReg
  due : Option Nat
deriving DecidableEq, Repr

/-- A repeat frame in progress (02 R47, R49). -/
structure Frame where
  body : Word
  len : Nat
  cnt : Nat
  sd : Nat
  sa : Nat
  sb : Nat
  pass : Nat
  pos : Nat
deriving DecidableEq, Repr

/-- What a waiting strand waits for when it issues its instruction again (09 R176, 11 R216, R219, 13 R236, 15 R260,
R279, R280, 20 R362, 22 R378). -/
inductive Cond where
  | counter (n : BitVec 4) (target : Word)   -- ctwait
  | ringTake (unit : Nat)                    -- cbpop on an empty ring
  | ringReserve (unit : Nat)                 -- cbpush on a full ring
  | transferSlot                             -- every transfer slot taken
  | scheduler                                -- the crew's scheduler holds 1,024 operations
  | outbound                                 -- the outbound queue is full
  | signalRing                               -- the die's signal ring is full
  | sequencer                                -- another strand's repeat frame holds the buffer
  | accumulator (mask : BitVec 4)            -- an accumulator with a result still to come
  | budget                                   -- an mma of the strand not yet charged
  | acks                                     -- posted peer writes not yet acknowledged
  | streamStep (k : Nat)                     -- a bound read stream with no step in its buffer
  | streamRoom (k : Nat)                     -- a bound write stream with no room
  | streamDrain (k : Nat)                    -- unbind of a write stream whose steps are not performed
  | results (regs : List Reg)                -- variable-latency results that have not arrived
  | members                                  -- a raft with a member that must wait first
deriving DecidableEq, Repr

/-- What a parked strand waits for (16 R287): a quantum end, results of requests, a completion counter, the serving of
a request. -/
inductive Park where
  | sync
  | results (regs : List Reg)
  | counter (n : BitVec 4) (target : Word) (d : BitVec 4)
  | served (num : Nat)
deriving DecidableEq, Repr

/-- Why a strand is not ready (09 R176, 16 R287, 19 R345, R348, R349, 20 R357). -/
inductive Wait where
  | free                                     -- not waiting
  | retry (c : Cond)                         -- issues again once the condition holds
  | barrier (scope slot : Nat)               -- arrived at a barrier
  | chain                                    -- issued a chain instruction that has not joined
  | raft (d : BitVec 4) (sc : BitVec 2)      -- issued raft and waits for the other members
  | parked (p : Park)                        -- waits for a quantum end
  | held                                     -- held for its upcall
  | notice                                   -- held by uret.wait for its ferry notice
  | page (va : Word)                         -- held until a page flip completes
  | laws (n : Nat)                           -- behind a lawset, until every copy of the law's entry is the new one
deriving DecidableEq, Repr

/-- A slipway entry: the halfwords taken ahead of an unresolved branch, and their address (15 R281). -/
structure SlipEntry where
  pc : Word
  ir : List (BitVec 16)
deriving DecidableEq, Repr

/-- The branch that a slipway runs ahead of: its condition (0 to 7 as 04 R76 numbers them), its registers, whether its
arm was predicted taken, and where the slipway takes its next entry. -/
structure HeldBranch where
  cond : Nat
  a : BitVec 4
  b : BitVec 4
  taken : Bool
  next : Word
deriving DecidableEq, Repr

/-- The trap that stopped a strand for a debugger (20 R359, R360, R363): class, code, number, address, whether it wrote, and
where the repeat frame stood. -/
structure Report where
  cls : BitVec 8
  code : BitVec 8
  elem : Word
  addr : Word
  wr : Bool
  pass : Nat
  pos : Nat
deriving DecidableEq, Repr

/-- A strand (01 R9 to R12, R19 to R21, 02 R41 to R49, 09 R175, 10 R188, 15 R263, 20 R358). In a raft (09 R178) `steps`
counts the instructions that the member has issued since the raft formed, and `votes` holds every member's value for
the raft.any or raft.all that it issues next. `stale` holds, for each byte that the strand has stored to since its last
ifence, the byte that its fetches still find there (04 R84, 14 R253). `hold` counts the slots in which the strand does not
issue yet, `paid` the bank-conflict slots already taken for its next instruction, and `conf` those that the instruction it
issued last needed (02 R41, 09 R176). `fails` lists the granules of its registers that fail their check code, each with the code
of the source (24 R390, log entry 114). `settling` says that the strand was held where its pass of a repeat frame or its raft was
not over, and goes on to the end of it (20 R357). -/
structure Strand where
  live : Bool
  gen : BitVec 8
  pc : Word
  s : Vector Word 16
  f : Vector Word 8
  p : Vector Pred 8
  q : Vector Word 8
  cursor : Vector (BitVec 6) 8
  pl : BitVec 2
  det : Bool
  chk : Bool
  rm : BitVec 2
  oob : Word
  oobpc : Word
  seed : Word
  score : Word
  upcall : Word
  vbase : Nat
  vcount : Nat
  mbudget : Word
  cls : BitVec 2
  slot : Nat
  pend : List Pending
  obuf : List (BitVec 5 × Nat)
  ras : List Word
  frame : Option Frame
  frames : Vector (Option Frame) 2
  slipway : List SlipEntry
  branch : Option HeldBranch
  msg : MsgBits
  shadow : FMap Word
  ib : Vector Word 4
  dw : Vector Word 2
  wait : Wait
  halted : Bool
  settling : Bool
  stepping : Option (BitVec 2)
  stepped : Bool
  reported : Option Report
  exempt : List Nat
  requested : FMap Nat
  raft : Option (BitVec 32)
  steps : Nat
  votes : List Bool
  starts : Nat
  upcallFor : Option Nat
  request : BitVec 16
  noticed : Bool
  fetched : List (Word × BitVec 16)
  stale : FMap Byte
  hold : Nat
  paid : Nat
  conf : Nat
  fails : FMap Nat
deriving DecidableEq, Repr

/-- A strand at device reset (01 R16, R20, R21). -/
def Strand.reset : Strand where
  live := false
  gen := 0
  pc := 0
  s := Vector.replicate 16 0
  f := Vector.replicate 8 0
  p := (Vector.replicate 8 0).set 0 (BitVec.allOnes 256)
  q := (Vector.replicate 8 0).set 7 (BitVec.allOnes 64)
  cursor := Vector.replicate 8 0
  pl := 2
  det := false
  chk := false
  rm := 0
  oob := 0
  oobpc := 0
  seed := 0
  score := 0
  upcall := 0
  vbase := 0
  vcount := 30
  mbudget := 0
  cls := 0
  slot := 0
  pend := []
  obuf := []
  ras := []
  frame := none
  frames := Vector.replicate 2 none
  slipway := []
  branch := none
  msg := 0
  shadow := []
  ib := Vector.replicate 4 0
  dw := Vector.replicate 2 0
  wait := .free
  halted := false
  settling := false
  stepping := none
  stepped := false
  reported := none
  exempt := []
  requested := []
  raft := none
  steps := 0
  votes := []
  starts := 0
  upcallFor := none
  request := 0
  noticed := false
  fetched := []
  stale := []
  hold := 0
  paid := 0
  conf := 0
  fails := []

/-- A ferry completion notice that a message carries: the context it is for, its request number, whether the flip was
refused, and the address and kind of the access that faulted (19 R348). -/
structure Notice where
  ctx : Nat
  request : BitVec 16
  refused : Bool
  addr : Word
  wr : Bool
deriving DecidableEq, Repr

/-- A message in a lane or in transit, with what its descriptor said (10 R183, R186): its context and generation when
bound, its core, the peer device it goes to or comes from, the job it was sent by, why it goes back when it was
diverted on its way from a peer device, and the least scope at which its handler acquires, for what was done before it by
others than its sender (10 R189, R194). -/
structure Message where
  bits : MsgBits
  bound : Option (BitVec 4 × BitVec 8)
  dest : Nat
  toDev : Option Nat
  srcDev : Option Nat
  crew : Option Nat
  notice : Option Notice
  diverted : Option (BitVec 4)
  scope : Nat
deriving DecidableEq, Repr

/-- A message diverted to a dead-letter lane (10 R191, R192). -/
structure Dead where
  bits : MsgBits
  reason : BitVec 4
  gen : BitVec 8
  core : BitVec 16
  ctx : BitVec 4
deriving DecidableEq, Repr

/-- A task: the strand descriptor and image address of its record, and the strand that set it (10 R193). -/
structure Task where
  dest : Word
  image : Word
  who : StrandId
deriving DecidableEq, Repr

/-- A dependence counter (10 R194): the task it is armed with, the decrements still needed, and its sticky bit. -/
structure Dep where
  task : Option Task
  count : Nat
  under : Bool
deriving DecidableEq, Repr

/-- An armed matching entry of a cluster (10 R195). -/
structure Matching where
  crew : Nat
  tag : BitVec 16
  target : Nat
  count : Nat
  task : Task
deriving DecidableEq, Repr

/-- A circular-buffer unit that is valid (13 R235, R236): its crew, its state, and the slots committed or released out
of order. -/
structure Ring where
  crew : Nat
  filled : Nat
  free : Nat
  head : Nat
  tail : Nat
  cnt : Nat
  ssz : Nat
  base : Nat
  reserved : Nat
  taken : Nat
  committed : List Nat
  released : List Nat
deriving DecidableEq, Repr

/-- What a transfer names for its completion (15 R261, R266, 10 R196). -/
structure Note where
  ct : Option Nat
  dc : Option Nat
  task : Option Task
  send : Option (Word × Word)
deriving DecidableEq, Repr

/-- The parameters of a convolution gather (15 R270, R271). -/
structure Conv where
  w : Nat
  src : Word
  dst : Word
  g : Nat
  group : Nat
  s0 : Int
  s1 : Int
  s2 : Int
  d0 : Int
  d1 : Int
  nimg : Nat
  win : Nat
  wout : Nat
  pad : Nat
  sw : Nat
  q0 : Nat
  run : Nat
  kw : Nat
deriving DecidableEq, Repr

/-- The body of a dredge card, with its footprint entries (17 R325, 15 R277). -/
structure DredgeCard where
  plist : Word
  npages : Nat
  fmt : BitVec 3
  hd : Nat
  freeEmpty : Bool
  zeroRows : Bool
  thresh : BitVec 32
  result : Word
  foot : List (Word × Word)
deriving DecidableEq, Repr

/-- The work of a transfer (15 R268 to R272, R277, 10 R196, 17 R325). Dimensions are extents with byte strides. -/
inductive Work where
  | copy (w : Nat) (src dst : Word) (sd dd : List (Nat × Int))
  | deal (w : Nat) (src : Word) (sd : List (Nat × Int)) (deal : Word)
  | ring (w : Nat) (src : Word) (sd : List (Nat × Int)) (unit : Nat)
  | conv (c : Conv)
  | gather (put : Bool) (size core tbase : Nat) (buf list : Word) (idx : List Nat)
  | block (src dst : Word) (len : Nat)
  | order (foot : List (Word × Word))
  | bytes (src dst : Word) (len : Nat)
  | fill (dst : Word) (len : Nat) (pattern : Word)
  | dredge (c : DredgeCard)
deriving DecidableEq, Repr

/-- What the accesses of an operation are checked under, as its instruction issues it (01 R22, R24, R25, R28, 15 R262): the level,
and core.spgrant and core.peermask, which a later write does not change for it. -/
structure View where
  pl : BitVec 2
  spBase : BitVec 8
  spLen : BitVec 9
  peermask : BitVec 32
deriving DecidableEq, Repr

/-- The first element of a transfer that failed: its class and code, its index and its address (15 R262). -/
structure Failure where
  cls : Nat
  code : Nat
  elem : Nat
  addr : Word
deriving DecidableEq, Repr

/-- Where an element of a transfer comes from or goes to: an address, a byte of a core's local store, or a value. -/
inductive Spot where
  | va (a : Word)
  | store (core off : Nat)
  | value (v : Nat)
deriving DecidableEq, Repr

/-- One access of a dredge (17 R326): of the list entry's two addresses, of the occupancy, of a mass word (evaluated, read to
be moved, stored as it was read, vacated), or of plain bytes (read to be moved, stored as they were read, stored). -/
inductive DredgeAct where
  | list
  | info
  | occ
  | eval (slot : Nat)
  | takeMass (slot : Nat)
  | giveMass (slot : Nat)
  | vacate (slot : Nat)
  | load (va : Word) (n : Nat)
  | store (va : Word) (n : Nat)
  | put (va : Word) (n v : Nat)
deriving DecidableEq, Repr

/-- How far a dredge has come in its current list entry: the accesses still to make, the entry's addresses, its occupied slots,
those kept so far, and the bytes read to be moved. -/
structure DredgeRun where
  acts : List DredgeAct
  data : Word
  info : Word
  full : List Nat
  kept : List Nat
  held : Nat
deriving DecidableEq, Repr

/-- Between entries. -/
def DredgeRun.idle : DredgeRun := ⟨[], 0, 0, [], [], 0⟩

/-- A transfer in its slot (15 R260 to R262): its identifier, who issued it, where and under which view, its arrival number
in the crew's scheduler, the tide of its issue, its work, the elements performed, the ring slot it fills, what a
dredge has counted of each entry (survivors, evicted, freed) and how far it is in its current one, whether it wrote to a peer device, the source granules read
whose bytes later elements still need (14 R241), and its failure. -/
structure Transfer where
  id : BitVec 32
  who : StrandId
  pc : Word
  view : View
  order : Nat
  now : BitVec 48
  work : Work
  note : Note
  next : Nat
  slot : Option Nat
  tally : List (Nat × Nat × Bool)
  run : DredgeRun
  peered : Bool
  ahead : List (Spot × Nat)
  failed : Option Failure
deriving DecidableEq, Repr

/-- A fault that waits for the upcall strand (19 R345). -/
structure UpcallReq where
  ctx : Nat
  addr : Word
  cls : Nat
  code : Nat
  request : BitVec 16
deriving DecidableEq, Repr

/-- A request to the page ferry for a completion notice (19 R342, R348). -/
structure FlipReq where
  who : StrandId
  crew : Nat
  va : Word
  request : BitVec 16
  cls : BitVec 2
  desc : Word
  wr : Bool
deriving DecidableEq, Repr

/-- A register stream (15 R273 to R275): its register and descriptor, the view of its bind, the steps taken or emitted, the steps
fetched or performed, its buffer, the step last taken, what that take removed from the buffer and how many steps it counted, and
its first faulted step. -/
structure RegStream where
  owner : Nat
  view : View
  pc : Word
  v : BitVec 5
  write : Bool
  base : Word
  dims : List (Nat × Int)
  count : Nat
  taken : Nat
  performed : Nat
  buf : List VReg
  now : VReg
  took : List VReg × Nat
  bad : Option Nat
  order : Nat
deriving DecidableEq, Repr

/-- What an operation with a timed word does (06 R130 to R132). -/
inductive TimedOp where
  | read
  | set (v : Word) (law : Option (BitVec 8))
  | add (v : Word)
  | touch
  | arm
  | clear (mask : BitVec 3)
deriving DecidableEq, Repr

/-- An entry of a berth table (16 R295). -/
structure Berth where
  base : Nat
  len : Nat
  cls : Nat
  core : Nat
deriving DecidableEq, Repr

/-- The effect that an instruction hands to the crew: done at once outside a deterministic launch, served at a quantum
end inside one (16 R288). Addresses are resolved at issue; no place stands for bytes out of range. -/
inductive Req where
  | send (m : Message)
  | start (d : BitVec 4) (entry arg : Word)
  | depSet (d : BitVec 4) (n count : Nat) (task : Task)
  | depDec (n count : Nat)
  | matchSet (d : BitVec 4) (n : Nat) (tag : BitVec 16) (target : Nat) (task : Task)
  | matchOff (d : BitVec 4) (n : Nat)
  | transfer (d : BitVec 4) (short : Nat) (t : Transfer)
  | bind (k : Nat) (r : RegStream)
  | unbind (d : BitVec 4) (k : Nat)
  | push (d : BitVec 4) (unit : Nat)
  | pop (d : BitVec 4) (unit : Nat)
  | commit (unit slot : Nat)
  | release (unit slot : Nat)
  | atomic (d : BitVec 4) (op : BitVec 5) (n : Nat) (va : Word) (l : Option Loc) (v cmp : Word)
  | timed (d : Option (BitVec 4)) (op : TimedOp) (va : Word) (l : Option Loc) (now : BitVec 48) (lane : Nat)
  | lanes (ws : List (Nat × Word × Option Loc × BitVec 32)) (now : BitVec 48)
  | answer (d : BitVec 4) (x : Word)
  | mark (va : Word) (l : Loc) (now : BitVec 48) (lane : Nat)
  | berth (n : Nat) (e : Option Berth)
  | finish (score : Word)
deriving DecidableEq, Repr

/-- A request collected for a quantum end: its strand with generation and crew core index, its number, its effect. -/
structure ReqItem where
  who : StrandId
  gen : BitVec 8
  index : Nat
  num : Nat
  req : Req
deriving DecidableEq, Repr

/-- An operation suspended at serving (16 R394): one not yet begun, or a transfer in its slot. -/
inductive Suspended where
  | item (r : ReqItem)
  | run (core slot num : Nat)
deriving DecidableEq, Repr

/-- A translation held by a TLB (19 R340): the address space, the page, its size in bits and the leaf entry. -/
structure TlbEntry where
  asid : BitVec 16
  page : Nat
  bits : Nat
  entry : Word
deriving DecidableEq, Repr

/-- A core (01 R13, R15, R22 to R25, 10 R186, R191, 15 R261, 19 R340). `fails` is as in a strand, for the vector registers and the
accumulators. -/
structure Core where
  v : Vector VReg 30
  acc : Vector Tile 4
  swallow : BitVec 16
  spBase : BitVec 8
  spLen : BitVec 9
  peermask : BitVec 32
  crew : Option Nat
  index : Nat
  lanes : Vector (List Message) 4
  dead : List Dead
  diverted : BitVec 32
  outbound : List Message
  counters : Vector Word 16
  streams : Vector (Option RegStream) 4
  turn : Nat
  lastIssued : Vector (Option Nat) 4
  yielded : Option Nat
  upcalls : List UpcallReq
  requests : BitVec 16
  quantum : Nat
  round : Nat
  slots : FMap Transfer
  gens : FMap (BitVec 8)
  itlb : List TlbEntry
  dtlb : List TlbEntry
  fails : FMap Nat
deriving DecidableEq, Repr

/-- A core at device reset (01 R16, R24, R25). -/
def Core.reset : Core where
  v := Vector.replicate 30 0
  acc := Vector.replicate 4 0
  swallow := 0xFFFF
  spBase := 0
  spLen := 256
  peermask := BitVec.allOnes 32
  crew := none
  index := 0
  lanes := Vector.replicate 4 []
  dead := []
  diverted := 0
  outbound := []
  counters := Vector.replicate 16 0
  streams := Vector.replicate 4 none
  turn := 0
  lastIssued := Vector.replicate 4 none
  yielded := none
  upcalls := []
  requests := 0
  quantum := 0
  round := 0
  slots := []
  gens := []
  itlb := []
  dtlb := []
  fails := []

/-- An operand of a chain instruction as read at issue: a register pair, or a descriptor (11 R209, R210). -/
inductive Operand where
  | regs (lo hi : VReg)
  | desc (base ctl : Word)
deriving DecidableEq, Repr

/-- A chain instruction as issued (11 R203, 17 R316): its fields, and its operands of the issue slot; of an amass also the
places of the mass words that its check found. -/
inductive ChainOp where
  | mma (acc : BitVec 2) (fa fb : BitVec 3) (ac : BitVec 2) (q : BitVec 3) (scale : Word) (a b : Operand)
  | rowcfg (d : BitVec 4) (deep : Bool)
  | score (acc : BitVec 2) (fmt : BitVec 3) (hd : Nat) (scale query ctl data info : Word)
  | soft (acc : BitVec 2) (v : BitVec 5) (old : VReg)
  | value (acc aw : BitVec 2) (fmt : BitVec 3) (hd : Nat) (scale : Word) (old : VReg) (data : Word) (info : Word)
  | mass (acc : BitVec 2) (n : Nat) (old : VReg) (info : Word) (now : BitVec 48) (words : List (Nat × Option Loc))
deriving DecidableEq, Repr

/-- A trap: class and code (19 R327), faulting address, element or number, whether it wrote, whether it arose at fetch,
whether the strand resumes behind it, and the breakpoints and watchpoints that matched (0 to 3 and 4 to 5). -/
structure Trap where
  cls : Nat
  code : Nat
  addr : Word
  elem : Word
  wr : Bool
  fetch : Bool
  resume : Bool
  brk : List Nat
deriving DecidableEq, Repr

/-- A step that an instruction took of a read stream (15 R275): the stream and its arrival number, what the take removed from its
buffer, and how many steps it counted. -/
structure StepTaken where
  stream : Nat
  order : Nat
  buf : List VReg
  count : Nat
deriving DecidableEq, Repr

/-- An unjoined issue of a position: its strand, its halfwords, its slot and stall count, the scratchpad grant of its core as
it issued (01 R22, R28), what it issued, where the lines of 64 bytes of a page that it reads lie, as its issue found them (17 R316,
19 R343), the steps that it took of read streams (15 R275), and the fault that an attention instruction's own check found. -/
structure ChainIssue where
  who : StrandId
  ir : List (BitVec 16)
  slot : Nat
  sc : BitVec 2
  grant : BitVec 8 × BitVec 9
  op : ChainOp
  places : List (Nat × Option Loc)
  taken : List StepTaken
  fault : Option Trap
deriving DecidableEq, Repr

/-- One slice's part of a joined mma (11 R213, R218): accumulator, tile-predicate bit, scales, operand lines of 32 bytes
each, and its charge. -/
structure Slice where
  acc : BitVec 2
  act : Bool
  scale : Word
  a : BitVec 4096
  b : BitVec 4096
  units : Nat
  flips : Nat
deriving DecidableEq, Repr

/-- A joined mma whose result is not yet delivered (11 R216), and whose it is: the strands, with their generations. -/
structure Joined where
  deep : Bool
  fa : BitVec 3
  fb : BitVec 3
  ac : BitVec 2
  who : List (StrandId × BitVec 8)
  slices : List Slice
  granted : Bool
deriving DecidableEq, Repr

/-- A row of eight cores (11 R202, R203, R216, R218): its shape, each position's unjoined issues, the instances joined,
those whose result is to come, and each slice's previous operands. -/
structure Row where
  deep : Bool
  queues : Vector (List ChainIssue) 8
  joined : Nat
  work : List Joined
  prev : Vector (BitVec 4096 × BitVec 4096) 8
deriving DecidableEq, Repr

/-- A row as a job binds it: wide, with nothing issued and 16 zero lines behind each slice (11 R202, R203, R218). -/
def Row.reset : Row where
  deep := false
  queues := Vector.replicate 8 []
  joined := 0
  work := []
  prev := Vector.replicate 8 (0, 0)

/-- A line of the cluster cache: 64 bytes with a valid and a dirty bit for each, whether its page is replicated, and the
strand that wrote the dirty bytes, or none where several have (13 R229). -/
structure CacheLine where
  data : BitVec 512
  valid : BitVec 64
  dirty : BitVec 64
  rep : Bool
  writer : Option Nat
deriving DecidableEq, Repr

/-- A law of the law table (06 R118, R119): control, base factor, threshold, and the ladder from the factor on. -/
structure Law where
  ctl : Word
  factor : Word
  threshold : Word
  ladder : List Word
deriving DecidableEq, Repr

/-- A law at device reset: hold, wall tide, handler 0xFFF (06 R118). -/
def Law.reset : Law where
  ctl := 0x00000FFF00000000
  factor := 0
  threshold := 0
  ladder := List.replicate 48 0

/-- A sensor (24 R388): its reading in thousandths of a degree or of an ampere, the wall tide at which its reading last
changed, and the median of its neighbours then. -/
structure Sensor where
  reading : Int
  since : Word
  median : Int
deriving DecidableEq, Repr

/-- A sensor that has given no reading yet. -/
def Sensor.reset : Sensor := ⟨0, 0, 0⟩

/-- A cluster (06 R120, 10 R195, 13 R229, R235, 19 R340, 24 R383, R384, R388): its cache and translations, its law cache with
the entry used last in front, its matching entries and rings, the swallow pattern in force and the throttle pattern,
its share of the budget in this window where it has one of its own, what it has spent of it, its sensors and which of
them have failed (thermal, current). -/
structure Cluster where
  cache : FMap CacheLine
  tlb : List TlbEntry
  laws : List (Nat × Law)
  matching : FMap Matching
  rings : FMap Ring
  pattern : BitVec 16
  throttle : BitVec 16
  share : Option Nat
  spent : Nat
  sensors : Sensor × Sensor
  failed : Bool × Bool
deriving DecidableEq, Repr

def Cluster.reset : Cluster where
  cache := []
  tlb := []
  laws := []
  matching := []
  rings := []
  pattern := 0xFFFF
  throttle := 0xFFFF
  share := none
  spent := 0
  sensors := (Sensor.reset, Sensor.reset)
  failed := (false, false)

/-- A black-box entry (24 R391): wall tide, kind, cluster or 0xFFFF, count, detail. -/
structure BoxEntry where
  tide : Word
  kind : BitVec 16
  cluster : BitVec 16
  count : BitVec 32
  detail : BitVec 128
deriving DecidableEq, Repr

/-- A die (09 R166, R173, 19 R329, 20 R362, 22 R370, 24 R384, R385, R389, R391): trap table, signal ring, black box with the
index of its next entry, lost diversions, the correctable errors of the current second, the service landings of the
dispatcher and the collective engine, the stream last served in each class, the held cohorts with their members,
the die's copy of the law table (06 R120), the share of a cluster that none is set for (no limit before the first window),
the draw of the last window, what this window has granted and has freed, the filler of the last window and the ramp still
planned, window by window (24 R385), and the thermal throttle, if it is in force, with whether a substituted reading caused
it. -/
structure Die where
  trapBase : Word
  signals : List (Word × Word × Word)
  box : List BoxEntry
  boxNext : Nat
  lost : BitVec 32
  errors : Nat × Nat
  launches : Vector (List Message) 4
  collectives : Vector (List Message) 4
  served : Vector (Option Nat) 4
  cohorts : FMap (List Nat)
  laws : FMap Law
  idleShare : Option Nat
  draw : Nat
  granted : Nat
  freed : Nat
  filled : Nat
  filler : List Nat
  hot : Option Bool
deriving DecidableEq, Repr

def Die.reset : Die where
  trapBase := 0
  signals := []
  box := []
  boxNext := 0
  lost := 0
  errors := (0, 0)
  launches := Vector.replicate 4 []
  collectives := Vector.replicate 4 []
  served := Vector.replicate 4 none
  cohorts := []
  laws := []
  idleShare := none
  draw := 0
  granted := 0
  freed := 0
  filled := 0
  filler := []
  hot := none

/-- What the runtime bound to a dispatcher stream (09 R165, R169, 19 R336, 20 R356): class, address space, save areas not
in use, the images of local store and scratchpad that its jobs start with, its launches by event number, oldest
first, and what a debugger has set. -/
structure Stream where
  cls : Nat
  asid : BitVec 16
  root : Word
  pool : List Word
  lstore : List Byte
  spad : List Byte
  queue : List Nat
  debugger : Bool
  ib : Vector Word 4
  dw : Vector Word 2
deriving DecidableEq, Repr

/-- A launch on a dispatcher stream: its descriptor's fields and its progress (09 R163, R167, R168, 16 R300, 24 R387):
jobs bound, retired and killed, its status once decided, its fatal frame, the units charged and filler among them. -/
structure Launch where
  die : Nat
  stream : Nat
  valid : Bool
  entry : Word
  dimx : Nat
  dimy : Nat
  dimz : Nat
  rows : Nat
  det : Bool
  cohort : Option (BitVec 16)
  csize : Nat
  qlog : Nat
  rlog : Nat
  a0 : BitVec 32
  tide0 : BitVec 48
  htab : Word
  seed : Word
  deps : List Nat
  args : List Word
  next : Nat
  retired : Nat
  killed : Nat
  status : Option Nat
  frame : List Byte
  energy : Nat
  filler : Nat
deriving DecidableEq, Repr

/-- A strand that waits at a barrier, the register that it writes, and whether it came by dphase (10 R201, 16 R309). -/
structure Arrival where
  who : StrandId
  d : BitVec 4
  phase : Bool
deriving DecidableEq, Repr

/-- An open barrier instance (10 R201): its mask, who has not arrived, and who waits, in arrival order. -/
structure Barrier where
  mask : BitVec 12
  awaited : List StrandId
  arrived : List Arrival
deriving DecidableEq, Repr

/-- A crew: the rows bound to one job (09 R161, 10 R194, 15 R279, 16 R283 to R306, 19 R354): its launch and job, its rows
now, in the reference placement and in earlier ones, its address space and save area, its dependence counters, the
arrivals at its scheduler, and in a deterministic launch its quantum, requests, suspended operations, tide, snapshot,
wake buffers (by task) with the bytes of them that stand in memory already (19 R341, R343), layer over base memory and whether it
needed one more line than it holds (16 R302), direct stores since the last merge, berth tables, phase, and its tournament record,
with the number of its next quantum end and whether that end has been served and waits to know if a round barrier falls at it (16
R303); the budget units drawn in this arbiter window and in the last (24 R385); whether a debugger holds it
(20 R357), whether it is being pre-empted (19 R350), and the core and slot of the transfer that serving waits for (16
R289). -/
structure Crew where
  stream : Nat
  launch : Nat
  job : Nat
  rows : List Nat
  refRows : List Nat
  past : List (List Nat)
  root : Word
  asid : BitVec 16
  save : Option Word
  debugger : Bool
  deps : FMap Dep
  arrivals : Nat
  det : Bool
  qlog : Nat
  qnext : Option Nat
  requests : List ReqItem
  suspended : List Suspended
  numbered : Nat
  seed : Word
  htab : Word
  tide : BitVec 48
  snapshot : List Host.Cell
  wake : FMap (FMap Byte)
  early : FMap (List Nat)
  layer : Option (FMap Byte)
  overfull : Bool
  base : List Host.Cell
  direct : FMap (List Nat)
  barriers : FMap Barrier
  berth : FMap Berth
  staged : FMap Berth
  phase : Word
  rival : Option Nat
  rule : BitVec 2
  allowance : Option Nat
  roundNo : Nat
  rank : Nat
  won : Nat
  ends : Nat
  served : Bool
  finished : Option (Option Word)
  drawn : Nat
  lastDraw : Nat
  held : Bool
  stopping : Bool
  serving : Option (Nat × Nat)
deriving DecidableEq, Repr

/-- Bytes whose check code fails (24 R390): the code of their source, how many they are, and how many of them the write in
progress has replaced, from the first up. -/
structure Failing where
  code : Nat
  size : Nat
  done : Nat
deriving DecidableEq, Repr

/-- A pre-empted job (19 R351): its crew, its strands by crew core index and context, its cores, rows, local stores and
scratchpad grants by crew index, its rings and matching entries by crew cluster, its cluster patterns, and its
messages in transit, and the trap frames of the strands that are in a handler, by crew core index and context, and by level.
`failing` are the failing granules of its storage, numbered as the stores and, from 2^40 on, the pads (24 R390). `written` numbers the
registers, tiles and lines that this image wrote anew (19 R352). -/
structure Saved where
  crew : Crew
  strands : FMap Strand
  trapFrames : List (Nat × Nat × List Word)
  cores : List Core
  rows : List Row
  stores : FMap Byte
  pads : FMap Byte
  failing : FMap Failing
  rings : List (FMap Ring)
  matching : List (FMap Matching)
  patterns : List (BitVec 16)
  transit : List Message
  written : List Nat
deriving DecidableEq, Repr

/-- A registered timed region (06 R136, 19 R334): base and length as its strand named them, its owner core, the crew and
crew core index that registered it, and the address space. -/
structure Region where
  base : Nat
  len : Nat
  owner : Option Nat
  crew : Nat
  index : Nat
  root : Word
  asid : BitVec 16
deriving DecidableEq, Repr

/-- A posted write to a peer device that its home has not acknowledged (22 R378): who wrote it, and for which launch. -/
structure Posted where
  who : StrandId
  launch : Nat
deriving DecidableEq, Repr

/-- The load-store domain (22 R374, R376): this device's number, the members and their routes. -/
structure Domain where
  dev : Nat
  members : List Nat
  routes : List (Nat × Nat)
deriving DecidableEq, Repr

/-- A contribution to a collective instance (22 R380): its device, its fields, the bytes read (none if they could not
be), and on this device the crew, the strand, completion descriptor and template, and result address. -/
structure Part where
  dev : Nat
  op : Nat
  fmt : Nat
  len : Nat
  data : Option (List Byte)
  crew : Option Nat
  local' : Option (StrandId × Word × Word × Word)
deriving DecidableEq, Repr

/-- A collective group (22 R380): its members, its lead device, how many contributions each device has made, and the
instances not yet formed. -/
structure Group where
  mask : BitVec 64
  lead : Nat
  counts : FMap Nat
  pending : FMap (List Part)
deriving DecidableEq, Repr

/-- Where start-up stands (24 R392): the ROM waits for an image, has refused one, or firmware runs. -/
inductive Boot where
  | rom
  | refused
  | running
deriving DecidableEq, Repr

/-- The measurements of start-up (24 R392, R393): ROM, firmware and runtime, the last two as the running chain stood after
them. -/
structure Measures where
  rom : BitVec 256
  firmware : BitVec 256
  runtime : BitVec 256
deriving DecidableEq, Repr

/-- The latest answer to a request from outside (20 R364, 22 R374): its status and its data. -/
structure Reply where
  status : Nat
  data : List Byte
deriving DecidableEq, Repr

/-- What happens next, where the specification leaves the order to the device or to the outside: an event or one of
the device's own moves, oldest first. -/
inductive Move where
  | event (i : Instr)
  | issue (core : Nat)
  | slip (core ctx : Nat)
  | element (core slot : Nat)
  | tlbFill (core : Nat) (fetch : Bool) (va : Word)
  | tlbEvict (core : Nat) (fetch : Bool) (va : Word)
  | sliceEvict (cluster : Nat) (va : Word)
  | depart (core : Nat)
  | prefetch (core ctx : Nat) (va : Word)
  | lawCopy (die n : Nat)
  | lawDrop (cluster n : Nat)
  | reading (cluster : Nat) (current : Bool) (value : Int)
  | stop (crew : Nat)
  | preempt (crew : Nat)
  | lost (n : Nat)
deriving DecidableEq, Repr

/-- Why a step stops the machine. -/
inductive Fault where
  /-- Raised by step on a device that a device-fatal error stopped (24 R390, R391): nothing runs until power is
  removed. Safe: the machine of the specification does nothing either. -/
  | deviceFatal
deriving DecidableEq, Repr

/-- Why a step has no meaning. -/
inductive Refusal where
  /-- Raised by an arm of exec whose instruction has no meaning yet. Safe: nothing is claimed of it. -/
  | notModelled (mnemonic : String)
deriving DecidableEq, Repr

/-- The machine: its parts by number; memory, and what of it fails its check code; messages in transit and those that left
for peer devices; launches and events by event number; pre-empted jobs, the images in save areas by crew, and the number of
the next crew; laws, timed regions and the tide of the last sweep; page flips asked for,
the side of each page that has moved (the host's when true) with the tide at which it did, and the pages that the host
asked for; posted peer writes; domain and collective groups; start-up; device registers;
the latest reply. Last, the model's own fields (log entries 1 and 4): what is on the agenda, the core in focus, the
strand that issues with its halfwords, whether it trapped, whether variable results are held back, and the count of
free values. -/
structure State where
  strands : FMap Strand
  cores : FMap Core
  rows : FMap Row
  clusters : FMap Cluster
  dies : FMap Die
  streams : FMap Stream
  launches : FMap Launch
  events : FMap (Option Nat)
  crews : FMap Crew
  saved : FMap Saved
  images : FMap (FMap Nat)
  jobs : Nat
  transit : List Message
  departed : List Message
  flips : List FlipReq
  sides : FMap (Bool × Word)
  asked : List Nat
  mem : List Host.Cell
  failing : FMap Failing
  laws : FMap Law
  regions : List Region
  swept : Word
  posted : List Posted
  domain : Option Domain
  groups : FMap Group
  boot : Boot
  measures : Measures
  wallTide : Word
  plimit : BitVec 12
  slope : BitVec 32
  crbase : Word
  fwEntry : Word
  fwLawtab : Word
  extLimit : Option Nat
  frozen : Bool
  dead : Bool
  powered : Bool
  reply : Option Reply
  agenda : List Move
  focus : Nat
  cur : StrandId
  ir : List (BitVec 16)
  trapped : Bool
  lag : Bool
  free : Nat
deriving DecidableEq, Repr

/-- The machine right after reset: no strand is live, SRAM is clear, and every register has its reset value (01 R16,
24 R386, R392). -/
def State.reset : State where
  strands := []
  cores := []
  rows := []
  clusters := []
  dies := []
  streams := []
  launches := []
  events := []
  crews := []
  saved := []
  images := []
  jobs := 0
  transit := []
  departed := []
  flips := []
  sides := []
  asked := []
  mem := []
  failing := []
  laws := []
  regions := []
  swept := 0
  posted := []
  domain := none
  groups := []
  boot := .rom
  measures := ⟨0, 0, 0⟩
  wallTide := 0
  plimit := 2800
  slope := 0x08000000
  crbase := 0
  fwEntry := 0
  fwLawtab := 0
  extLimit := none
  frozen := false
  dead := false
  powered := true
  reply := none
  agenda := []
  focus := 0
  cur := ⟨0, 0⟩
  ir := []
  trapped := false
  lag := false
  free := 0

end Sys2Proof.Machine
end

