-- ==== Sys2Proof/Machine/FMap.lean ====
section
/-!
DEFINITION. Sparse maps and the bytes of memory: lookup, update and removal. Keys stay in rising order; a byte of
memory equal to what an unlisted address reads as is not listed.
-/
namespace Sys2Proof.Machine

/-- The value at a number. -/
def FMap.find {α : Type} : FMap α → Nat → Option α
  | [], _ => none
  | (k, v) :: t, i => if k = i then some v else FMap.find t i

/-- The map with a value at a number. -/
def FMap.put {α : Type} : FMap α → Nat → α → FMap α
  | [], i, x => [(i, x)]
  | (k, v) :: t, i, x =>
    if i < k then (i, x) :: (k, v) :: t
    else if i = k then (i, x) :: t
    else (k, v) :: FMap.put t i x

/-- The map without a number. -/
def FMap.del {α : Type} (m : FMap α) (i : Nat) : FMap α := m.filter fun e => e.1 != i

/-- The value at a number, or a default. -/
def FMap.getD {α : Type} (m : FMap α) (i : Nat) (d : α) : α := (FMap.find m i).getD d

/-- What a byte that nothing has written reads as: SRAM is cleared by the boot ROM (24 R392); for memory beyond it
this is a design choice (log entry 2). -/
def unlistedByte : Byte := 0

/-- The byte of memory at a key. -/
def Memory.read (m : List Host.Cell) (a : Nat) : Byte := FMap.getD m a unlistedByte

/-- Memory with a byte written. -/
def Memory.write (m : List Host.Cell) (a : Nat) (b : Byte) : List Host.Cell :=
  if b = unlistedByte then FMap.del m a else FMap.put m a b

/-- Keys rise strictly. -/
def FMap.rising {α : Type} : FMap α → Bool
  | [] => true
  | [_] => true
  | a :: b :: t => decide (a.1 < b.1) && FMap.rising (b :: t)

/-- The canonical form of memory: keys rise strictly, and no byte is listed that an unlisted one reads as. -/
def Memory.wf (m : List Host.Cell) : Bool := FMap.rising m && m.all fun c => c.2 != unlistedByte

end Sys2Proof.Machine
end

