-- ==== Sys2Proof/Machine/Access.lean ====
section
/-!
DEFINITION. Where an address goes: windows (01 R23 to R25), translation (19 R337 to R340), and the views of memory
that a strand's accesses read and write (13 R224, R229, 16 R290). Physical keys give every byte of the device, of its
SRAM, of host memory and of peer memory one number.
-/
namespace Sys2Proof.Machine
open Sys2Proof

/-! ### The parts of the machine by number -/

def StrandId.key (w : StrandId) : Nat := w.core * 16 + w.ctx
def clusterOf (core : Nat) : Nat := core / 32
def rowOf (core : Nat) : Nat := core / 8
def dieOf (core : Nat) : Nat := core / 16384

def State.strand (s : State) (w : StrandId) : Strand := FMap.getD s.strands (StrandId.key w) Strand.reset
def State.setStrand (s : State) (w : StrandId) (t : Strand) : State :=
  { s with strands := FMap.put s.strands (StrandId.key w) t }
def State.core (s : State) (c : Nat) : Core := FMap.getD s.cores c Core.reset
def State.setCore (s : State) (c : Nat) (x : Core) : State := { s with cores := FMap.put s.cores c x }
def State.cluster (s : State) (c : Nat) : Cluster := FMap.getD s.clusters c Cluster.reset
def State.setCluster (s : State) (c : Nat) (x : Cluster) : State := { s with clusters := FMap.put s.clusters c x }
def State.die (s : State) (d : Nat) : Die := FMap.getD s.dies d Die.reset
def State.setDie (s : State) (d : Nat) (x : Die) : State := { s with dies := FMap.put s.dies d x }
def State.setCrew (s : State) (k : Nat) (x : Crew) : State := { s with crews := FMap.put s.crews k x }
def State.row (s : State) (r : Nat) : Row := FMap.getD s.rows r Row.reset
def State.setRow (s : State) (r : Nat) (x : Row) : State := { s with rows := FMap.put s.rows r x }
/-- Entry `n` of the law table, and of a die's copy of it (06 R118, R120). -/
def State.law (s : State) (n : Nat) : Law := FMap.getD s.laws n Law.reset
def State.dieLaw (s : State) (d n : Nat) : Law := FMap.getD (s.die d).laws n Law.reset

/-- The crew that holds a core. -/
def State.crewOf (s : State) (core : Nat) : Option Crew :=
  match (s.core core).crew with
  | none => none
  | some k => FMap.find s.crews k

/-- The global core number of crew core index `i` in a placement of rows (09 R161). -/
def coreAt (rows : List Nat) (i : Nat) : Option Nat :=
  match rows[i / 8]? with
  | none => none
  | some r => some (r * 8 + i % 8)

/-- The crew core index of a core in a placement of rows. -/
def indexIn (rows : List Nat) (core : Nat) : Option Nat :=
  match rows.findIdx? (· == core / 8) with
  | none => none
  | some k => some (k * 8 + core % 8)

/-- The crew core index of a core that a crew holds, or held in an earlier placement. -/
def Crew.indexOf (c : Crew) (core : Nat) : Option Nat :=
  (c.past.findSome? fun rows => indexIn rows core).or (indexIn c.rows core)

/-- The core that now holds the crew core index which a core of an earlier placement had (19 R354). -/
def Crew.relocate (c : Crew) (core : Nat) : Nat :=
  match c.past.findSome? fun rows => indexIn rows core with
  | some i => (coreAt c.rows i).getD core
  | none => core

/-- A core as a job names it. -/
def State.relocate (s : State) (crew : Option Nat) (core : Nat) : Nat :=
  match crew.bind (FMap.find s.crews) with
  | some c => c.relocate core
  | none => core

/-- The cores of a crew in logical-core order. -/
def Crew.cores (c : Crew) : List Nat := c.rows.flatMap fun r => (List.range 8).map fun p => r * 8 + p

/-! ### Places of bytes -/

/-- The number of a byte in memory. -/
def Loc.key : Loc → Nat
  | .dev a => a
  | .rep a => 2 ^ 59 + a
  | .store c o _ => 2 ^ 60 + c * 2 ^ 14 + o
  | .pad c o => 2 ^ 61 + c * 2 ^ 20 + o
  | .host a => 2 ^ 62 + a
  | .peer d a => 2 ^ 63 + d * 2 ^ 52 + a

/-- The number of a byte that passes through the cluster caches, and whether its page is replicated (13 R224). -/
def Loc.cached : Loc → Option (Nat × Bool)
  | .dev a => some (a, false)
  | .rep a => some (2 ^ 59 + a, true)
  | _ => none

/-- An address of a die's memory as a device address (13 R225). -/
def onDie (die a : Nat) : Nat := die % 4 * 2 ^ 52 + a % 2 ^ 52

/-- The number is that of a byte of a replicated page. -/
def repKey (key : Nat) : Bool := decide (2 ^ 59 ≤ key) && decide (key < 2 ^ 60)

/-- Where a die reads a byte: a replicated page has a copy in every die's HBM, at one offset (13 R233; the offset is a DESIGN
CHOICE, log entry 98), and each die reads its own. -/
def readKey (die key : Nat) : Nat := if repKey key then onDie die key else key

/-- The home die of a device address, and which of the die's two HBM stacks holds it (13 R225): bit 8 of the offset in the
page. No result depends on the stack. -/
def homeDie (a : Nat) : Nat := a / 2 ^ 52 % 4
def hbmStack (a : Nat) : Nat := a / 256 % 2

/-- What an access does to its bytes. -/
inductive Acc where
  | read
  | write
  | rmw
  | fetch
deriving DecidableEq, Repr

def Acc.reads : Acc → Bool
  | .read | .rmw => true
  | _ => false

def Acc.writes : Acc → Bool
  | .write | .rmw => true
  | _ => false

/-- Who accesses: a core, a privilege level, an address space, and whether it is no strand of the core, and so has no TLB
but those of the core's cluster (19 R340). -/
structure Agent where
  core : Nat
  pl : BitVec 2
  root : Option Word
  asid : BitVec 16
  engine : Bool
deriving DecidableEq, Repr

/-- The answer to an address: a place, a window byte out of range (01 R26), or a failed check with its class and code
(19 R327). -/
inductive Look where
  | place (l : Loc)
  | out
  | bad (cls code : Nat)
deriving DecidableEq, Repr

/-! ### Windows -/

/-- The core that slot `i` of a core's peer window reaches (01 R25). -/
def State.peerCore (s : State) (core i : Nat) : Nat :=
  let phys := clusterOf core * 32 + i
  match s.crewOf core with
  | none => phys
  | some c =>
    match indexIn c.rows core with
    | none => phys
    | some k =>
      match coreAt c.refRows k with
      | none => phys
      | some r =>
        match indexIn c.refRows (clusterOf r * 32 + i) with
        | none => phys
        | some j => (coreAt c.rows j).getD phys

/-- Two crews are rivals of one tournament (16 R301). -/
def State.otherRival (s : State) (k : Option Nat) (core : Nat) : Bool :=
  match k.bind (FMap.find s.crews), s.crewOf core with
  | some c, some d => c.rival.isSome && c.launch == d.launch && c.rival != d.rival
  | _, _ => false

/-- The valid scratchpad offset of window offset `o`: the cluster-wide byte (01 R24). -/
def Core.padByte (x : Core) (o : Nat) : Option Nat :=
  let len := min x.spLen.toNat 256
  let b := x.spBase.toNat * 4096 + o
  if o < len * 4096 ∧ b < 0x100000 then some b else none

/-- The place of a window address, by its offset in window space (01 R23); a peer window of another rival's core is refused
(16 R301). -/
def State.window (s : State) (core o : Nat) : Look :=
  if o < 0x10000 then
    if o < 0x4000 then .place (.store core o true) else .out
  else if 0x200000 ≤ o ∧ o < 0x400000 then
    match (s.core core).padByte (o - 0x200000) with
    | some b => .place (.pad (clusterOf core) b)
    | none => .out
  else if 0x400000 ≤ o ∧ o < 0x600000 then
    let i := (o - 0x400000) / 0x10000
    let b := (o - 0x400000) % 0x10000
    let c := s.peerCore core i
    if s.otherRival (s.core core).crew c then .bad 11 3
    else if b < 0x4000 ∧ (c = core ∨ (s.core core).peermask.getLsbD i) then .place (.store c b false) else .out
  else .out

/-- The window that an out-of-range address counts for in ctx.oob (01 R27). -/
def windowCode (o : Nat) : BitVec 2 :=
  if o < 0x10000 then 0
  else if 0x200000 ≤ o ∧ o < 0x400000 then 1
  else if 0x400000 ≤ o ∧ o < 0x600000 then 2
  else 3

/-! ### Translation -/

/-- The little-endian number of `n` bytes. -/
def leNat (f : Nat → Byte) : Nat → Nat
  | 0 => 0
  | n + 1 => leNat f n + (f n).toNat * 256 ^ n

/-- Byte `k` of a number. -/
def byteOf (v k : Nat) : Byte := BitVec.ofNat 8 (v / 256 ^ k)

/-- A table entry, read at its home (19 R337). -/
def State.entryAt (s : State) (a : Nat) : Word := BitVec.ofNat 64 (leNat (fun k => Memory.read s.mem (a + k)) 8)

/-- The fields of a table entry (19 R338). -/
def pteValid (e : Word) : Bool := e.getLsbD 63
def pteLeaf (e : Word) : Bool := e.getLsbD 62
def pteRep (e : Word) : Bool := e.getLsbD 61
def pteFerry (e : Word) : Bool := e.getLsbD 58
def pteAddr (e : Word) : Nat := (e.extractLsb' 8 44).toNat * 256
def pteHome (e : Word) : Nat := (e.extractLsb' 59 2).toNat
def pteTgt (e : Word) : BitVec 2 := e.extractLsb' 2 2
def pteGlobal (e : Word) : Bool := e.getLsbD 1

/-- What a walk finds: a leaf entry and the bits of its page's size, or a failure with its translation code. -/
inductive Walk where
  | leaf (e : Word) (bits : Nat)
  | fail (code : Nat)
deriving DecidableEq, Repr

/-- A leaf entry breaks no rule of 19 R338. -/
def leafOk (e : Word) (bits : Nat) : Bool :=
  pteAddr e % 2 ^ bits == 0 && pteTgt e != 3#2 && !e.getLsbD 0

/-- A table entry has bits [7:0] and [61:52] zero (19 R338). -/
def tableOk (e : Word) : Bool := e.extractLsb' 0 8 == 0#8 && e.extractLsb' 52 10 == 0#10

/-- The levels of 19 R337: the low index bit, the index width, and whether a leaf may, and must, stand there. -/
def levels : List (Nat × Nat × Bool × Bool) :=
  [(42, 10, false, false), (32, 10, false, false), (21, 11, true, false), (16, 5, true, true)]

/-- The walk of 19 R337 and R339 through the remaining levels. -/
def State.walk (s : State) (va : Nat) : List (Nat × Nat × Bool × Bool) → Nat → Walk
  | [], _ => .fail 3
  | (lo, w, may, must) :: rest, table =>
    let e := s.entryAt (table + (va / 2 ^ lo % 2 ^ w) * 8)
    if !pteValid e then .fail (if pteFerry e then 2 else 1)
    else if pteLeaf e then
      if may && leafOk e lo then .leaf e lo else .fail 3
    else if must || !tableOk e then .fail 3
    else s.walk va rest (pteAddr e)

/-- The home slice of an address in an address space (19 R340). -/
def homeSlice (va : Nat) (asid : BitVec 16) : Nat :=
  let f (lo n : Nat) : Nat := va / 2 ^ lo % 2 ^ n
  f 21 5 ^^^ f 26 5 ^^^ f 31 5 ^^^ f 36 5 ^^^ f 41 5 ^^^ f 46 5 ^^^ f 51 1 ^^^ asid.toNat % 32

/-- An entry is of the page that an address lies in. -/
def TlbEntry.maps (t : TlbEntry) (va : Word) : Bool := va.toNat / 2 ^ t.bits == t.page

/-- An entry translates an address of an address space. -/
def TlbEntry.covers (t : TlbEntry) (asid : BitVec 16) (va : Nat) : Bool :=
  t.page == va / 2 ^ t.bits && (t.asid == asid || pteGlobal t.entry)

/-- The slice that an entry stands in. -/
def TlbEntry.slice (t : TlbEntry) : Nat := homeSlice (t.page * 2 ^ t.bits) t.asid

/-- A translation that the home slice of an address holds (19 R340). -/
def Cluster.held (c : Cluster) (asid : BitVec 16) (va : Nat) : Option TlbEntry :=
  c.tlb.find? fun t => t.slice == homeSlice va asid && t.covers asid va

/-- A translation that a core's instruction or data TLB holds. -/
def Core.held (c : Core) (fetch : Bool) (asid : BitVec 16) (va : Nat) : Option TlbEntry :=
  (if fetch then c.itlb else c.dtlb).find? fun t => t.covers asid va

/-- The leaf that an agent's access uses: one held by the core's TLB or by the home slice, or else a walk (19 R340). -/
def State.leafFor (s : State) (a : Agent) (fetch : Bool) (va : Nat) : Walk :=
  match a.root with
  | none => .fail 1
  | some root =>
    match (if a.engine then none else (s.core a.core).held fetch a.asid va).or ((s.cluster (clusterOf a.core)).held a.asid va) with
    | some t => .leaf t.entry t.bits
    | none => s.walk va levels root.toNat

/-- The permission that a leaf refuses: 1 read, 2 write, 3 user, or 4 execute (19 R339). -/
def denied (e : Word) (acc : Acc) (pl : BitVec 2) : Option Nat :=
  if acc.reads && !e.getLsbD 4 then some 1
  else if acc.writes && !e.getLsbD 5 then some 2
  else if acc == .fetch && !e.getLsbD 6 then some 4
  else if pl == 0#2 && !e.getLsbD 7 then some 3
  else none

/-- The law that the site of a place holds: the copy of the die of its memory, or the entry in the cluster's law cache, which
a miss fetches from its die's copy (06 R120, R127). -/
def State.clusterLaw (s : State) (k n : Nat) : Law := ((s.cluster k).laws.lookup n).getD (s.dieLaw (k / 512) n)
def State.lawAt (s : State) (l : Loc) (n : Nat) : Law :=
  match l with
  | .dev a | .rep a => s.dieLaw (homeDie a) n
  | .store c _ _ => s.clusterLaw (clusterOf c) n
  | .pad k _ => s.clusterLaw k n
  | .host _ | .peer .. => s.law n

/-- The entry that an access uses is the last one used of the cluster's cache of eight (06 R120). -/
def State.useLaw (s : State) (l : Loc) (n : Nat) : State :=
  let used (k : Nat) : State :=
    s.setCluster k { s.cluster k with laws := ((n, s.clusterLaw k n) :: (s.cluster k).laws.filter fun e => e.1 != n).take 8 }
  match l with
  | .store c _ _ => used (clusterOf c)
  | .pad k _ => used k
  | _ => s

/-- Every copy of a law's entry is the table's: every die has it, and no cluster's cache holds another (06 R134). -/
def State.lawSpread (s : State) (n : Nat) : Bool :=
  (List.range 4).all (fun d => s.dieLaw d n == s.law n) &&
    s.clusters.all fun e => match e.2.laws.lookup n with | some x => x == s.law n | none => true

/-- The place of an address in a leaf's page (13 R225, R233, 19 R338). A device has 384 GiB of HBM (00 R3); the specification
does not say what an access to a device address beyond it does, and here every such address holds bytes (DESIGN CHOICE, log
entry 78). -/
def leafPlace (e : Word) (bits va : Nat) : Loc :=
  let a := pteAddr e + va % 2 ^ bits
  if pteTgt e = 1#2 then .host a
  else if pteTgt e = 2#2 then .peer (e.extractLsb' 52 6).toNat a
  else if pteRep e then .rep (onDie (pteHome e) a)
  else .dev (onDie (pteHome e) a)

/-- A failure of an access: at fetch every one is class 3 (19 R339). -/
def badFor (acc : Acc) (cls code fetchCode : Nat) : Look :=
  if acc = .fetch then .bad 3 fetchCode else .bad cls code

/-- Where an agent's access to a byte address goes (01 R23, 19 R339). -/
def State.look (s : State) (a : Agent) (acc : Acc) (va : Word) : Look :=
  if va.extractLsb' 52 12 ≠ 0#12 then badFor acc 4 0 1
  else if Config.windowBase ≤ va.toNat then
    if acc = .fetch then .bad 3 1 else s.window a.core (va.toNat - Config.windowBase)
  else
    match s.leafFor a (acc == .fetch) va.toNat with
    | .fail code => badFor acc 6 code (if code = 1 then 2 else if code = 2 then 3 else 5)
    | .leaf e bits =>
      match denied e acc a.pl with
      | some code => badFor acc 7 code 4
      | none => .place (leafPlace e bits va.toNat)

/-- The agent of a strand. -/
def State.agent (s : State) (w : StrandId) : Agent :=
  let t := s.strand w
  match s.crewOf w.core with
  | none => ⟨w.core, t.pl, none, 0, false⟩
  | some c => ⟨w.core, t.pl, some c.root, c.asid, false⟩

/-- The engines of a core, at a privilege level: they translate through the core's cluster (19 R340). -/
def State.engineAgent (s : State) (core : Nat) (pl : BitVec 2) : Agent :=
  { s.agent ⟨core, 0⟩ with pl := pl, engine := true }

/-! ### Memory whose check code fails (24 R390) -/

/-- A byte is written: a granule whose first bytes are replaced one after another is sound once its last one is; any other
write to it leaves it as it was. -/
def Failing.wrote (m : FMap Failing) (key : Nat) : FMap Failing :=
  m.filterMap fun e =>
    if key < e.1 ∨ e.1 + e.2.size ≤ key then some e
    else
      let n := if key = e.1 + e.2.done then e.2.done + 1 else if key = e.1 then 1 else 0
      if n = e.2.size then none else some (e.1, { e.2 with done := n })

/-- The code of the failing granule that a byte lies in. -/
def State.failCode (s : State) (key : Nat) : Option Nat :=
  s.failing.findSome? fun e => if e.1 ≤ key ∧ key < e.1 + e.2.size then some e.2.code else none

/-- No write of a granule is in progress as an instruction begins. -/
def Failing.fresh (m : FMap Failing) : FMap Failing := m.map fun e => (e.1, { e.2 with done := 0 })

/-- Where a byte's home keeps it: a byte of a replicated page in the copy of each die (13 R233). -/
def homeKeys (key : Nat) : List Nat := if repKey key then (List.range 4).map fun d => onDie d key else [key]

/-- A byte put into memory, in every copy of a replicated page. -/
def imageWrite (m : List Host.Cell) (key : Nat) (b : Byte) : List Host.Cell :=
  (homeKeys key).foldl (fun m k => Memory.write m k b) m

/-- A byte written at its home: one of a replicated page by its primary, in all four copies at once (13 R233, R234). -/
def State.homeWrite (s : State) (key : Nat) (b : Byte) : State :=
  { s with mem := imageWrite s.mem key b, failing := (homeKeys key).foldl Failing.wrote s.failing }

/-! ### The cluster cache (13 R229) -/

/-- Byte `o` of a line. -/
def CacheLine.byte (l : CacheLine) (o : Nat) : Byte := l.data.extractLsb' (8 * o) 8

/-- A line with no valid byte. -/
def CacheLine.empty (rep : Bool) : CacheLine := ⟨0, 0, 0, rep, none⟩

/-- A line with byte `o` written. -/
def CacheLine.setByte (l : CacheLine) (o : Nat) (b : Byte) : CacheLine :=
  { l with
    data := (l.data &&& ~~~((0xFF : BitVec 512) <<< (8 * o))) ||| b.setWidth 512 <<< (8 * o)
    valid := l.valid ||| (1 : BitVec 64) <<< o }

/-- A line with byte `o` written by a strand: valid and dirty, without a read of its home. -/
def CacheLine.write (l : CacheLine) (o : Nat) (b : Byte) (who : Nat) : CacheLine :=
  { l.setByte o b with
    dirty := l.dirty ||| (1 : BitVec 64) <<< o
    writer := if l.dirty = 0 ∨ l.writer = some who then some who else none }

/-- The offsets of a line's bytes that a mask names. -/
def setBytes (m : BitVec 64) : List Nat := (List.range 64).filter m.getLsbD

/-- The dirty bytes of line number `n` reach their home. -/
def State.lineHome (s : State) (n : Nat) (l : CacheLine) : State :=
  if l.dirty = 0 then s else (setBytes l.dirty).foldl (fun s o => s.homeWrite (n * 64 + o) (l.byte o)) s

/-- Some aligned granule of a line is dirty in part. -/
def CacheLine.torn (l : CacheLine) : Bool :=
  (List.range 8).any fun g =>
    let d := l.dirty.extractLsb' (8 * g) 8
    d != 0 && d != 0xFF

/-- What stands in the cache of a line whose dirty bytes have gone to their home: they are clean (13 R230). A line with a
granule that is dirty in part is evicted instead, as 13 R229 lets it be at any time: its other bytes may be older than a
write of the whole granule, and no access sees half of one event (14 R241). -/
def CacheLine.clean (l : CacheLine) : Option CacheLine :=
  if l.torn then none else some { l with dirty := 0, writer := none }

/-- Put a line in a cluster's cache, or take it out. -/
def Cluster.putLine (c : Cluster) (n : Nat) (l : Option CacheLine) : Cluster :=
  { c with cache := match l with | some l => FMap.put c.cache n l | none => FMap.del c.cache n }

/-- The dirty bytes of a line that a cluster holds reach their home and become clean. -/
def State.commitLine (s : State) (cluster n : Nat) : State :=
  let c := s.cluster cluster
  match FMap.find c.cache n with
  | none => s
  | some l => if l.dirty = 0 then s else (s.setCluster cluster (c.putLine n l.clean)).lineHome n l

/-- A cluster evicts a line: its dirty bytes alone go to their home (13 R229). -/
def State.evictLine (s : State) (cluster n : Nat) : State :=
  let c := s.cluster cluster
  match FMap.find c.cache n with
  | none => s
  | some l => (s.setCluster cluster { c with cache := FMap.del c.cache n }).lineHome n l

/-- The lines of a cluster in the set of line `n`: 256 sets of 16 ways, with a choice of the set that the specification
leaves to the device (13 R229). -/
def Cluster.setOf (c : Cluster) (n : Nat) : List Nat :=
  (c.cache.map (·.1)).filter fun k => Config.cacheSet k % 256 == Config.cacheSet n % 256

/-- A cluster's cache has a way for line `n` without an eviction. -/
def Cluster.hasWay (c : Cluster) (n : Nat) : Bool :=
  decide (c.cache.length < 16) || (FMap.find c.cache n).isSome || decide ((c.setOf n).length < 16)

/-- Make a way for line `n`: where its set is full, a line of the set is evicted, and which one is free (13 R229). -/
def State.makeWay (s : State) (cluster n : Nat) : State :=
  let c := s.cluster cluster
  if c.hasWay n then s
  else
    let set := c.setOf n
    { s.evictLine cluster (set.getD ((Config.freeWord s.free).toNat % set.length) 0) with free := s.free + 1 }

/-- Update line `n` of a cluster. -/
def State.onLine (s : State) (cluster n : Nat) (rep : Bool) (f : CacheLine → CacheLine) : State :=
  let s1 := s.makeWay cluster n
  let c := s1.cluster cluster
  s1.setCluster cluster { c with cache := FMap.put c.cache n (f (FMap.getD c.cache n (CacheLine.empty rep))) }

/-- Line `n` of a cluster with its invalid bytes read from where its die reads them (13 R229, R233). No copy is taken of the
bytes that fail their check code, so that every reader is told of them (24 R390). -/
def State.fillLine (s : State) (cluster n : Nat) (l : CacheLine) : CacheLine :=
  let key (o : Nat) : Nat := readKey (cluster / 512) (n * 64 + o)
  ((setBytes (~~~l.valid)).filter fun o => (s.failCode (key o)).isNone).foldl
    (fun l o => l.setByte o (Memory.read s.mem (key o))) l

/-- A read of bytes `lo` to `hi` of line `n` by a cluster: a line that another strand than the reader wrote is evicted first
(log entry 6), and a read of an invalid byte fills the line (13 R229). -/
def State.readLine (s : State) (cluster : Nat) (who : Option Nat) (n : Nat) (rep : Bool) (lo hi : Nat) : State :=
  let own (l : CacheLine) : Bool := l.dirty == 0 || (who.isSome && l.writer == who)
  let s1 := if own (FMap.getD (s.cluster cluster).cache n (CacheLine.empty rep)) then s else s.evictLine cluster n
  let l := FMap.getD (s1.cluster cluster).cache n (CacheLine.empty rep)
  if (List.range (hi - lo)).all fun k => l.valid.getLsbD (lo + k) then s1
  else s1.onLine cluster n rep (s1.fillLine cluster n)

/-- The dirty bytes that a strand wrote have no writer any more: whoever reads them next, they go to their home first. So it
is when the strand ends, as its context may hold another (14 R245). -/
def State.disown (s : State) (w : StrandId) : State :=
  let c := s.cluster (clusterOf w.core)
  let mine (l : CacheLine) : Bool := l.writer == some (StrandId.key w)
  if c.cache.any fun e => mine e.2 then
    s.setCluster (clusterOf w.core)
      { c with cache := c.cache.map fun e => (e.1, if mine e.2 then { e.2 with writer := none } else e.2) }
  else s

/-- A read of `n` bytes from device address `a`, line by line. -/
def State.readLines (s : State) (cluster : Nat) (who : Option Nat) (a n : Nat) (rep : Bool) : State :=
  (List.range ((a + n + 63) / 64 - a / 64)).foldl (fun s i =>
    let ln := a / 64 + i
    s.readLine cluster who ln rep (max a (ln * 64) - ln * 64) (min (a + n) (ln * 64 + 64) - ln * 64)) s

/-! ### Views of memory -/

/-- The bytes of device memory that a cluster sees: its cache before the home (13 R229). -/
def State.cachedByte (s : State) (cluster key : Nat) : Byte :=
  match FMap.find (s.cluster cluster).cache (key / 64) with
  | some l => if l.valid.getLsbD (key % 64) then l.byte (key % 64) else Memory.read s.mem (readKey (cluster / 512) key)
  | none => Memory.read s.mem (readKey (cluster / 512) key)

/-- A byte of a place as a non-deterministic access of a core reads it. -/
def State.plainByte (s : State) (core : Nat) (l : Loc) (k : Nat) : Byte :=
  match l.cached with
  | some (a, _) => s.cachedByte (clusterOf core) (a + k)
  | none => Memory.read s.mem (l.key + k)

/-- What a non-deterministic read of `n` bytes of a place does to the cluster cache; `who` is the strand that reads, if
one does. -/
def State.plainRead (s : State) (core : Nat) (who : Option Nat) (l : Loc) (n : Nat) : State :=
  match l.cached with
  | some (a, rep) => s.readLines (clusterOf core) who a n rep
  | none => s

/-- A byte of a place as a non-deterministic access of a core writes it: device memory through the cluster cache,
marked dirty (13 R229), any other place at once. -/
def State.plainWrite (s : State) (core who : Nat) (l : Loc) (k : Nat) (b : Byte) : State :=
  match l.cached with
  | some (a, rep) =>
    s.onLine (clusterOf core) ((a + k) / 64) rep fun x => x.write ((a + k) % 64) b who
  | none => s.homeWrite (l.key + k) b

/-- The task identifier of a strand (16 R291). -/
def State.taskId (s : State) (w : StrandId) : Nat :=
  (s.core w.core).index % 2 ^ 14 * 2 ^ 16 + w.ctx % 16 * 2 ^ 12 + ((s.strand w).starts - 1) % 4096

/-- The place is the strand's own local store through its own window (16 R290). -/
def Loc.isOwn : Loc → Bool
  | .store _ _ own => own
  | _ => false

/-- A byte of a deterministic task's view: its wake buffer, else the snapshot (16 R290). -/
def Crew.viewByte (c : Crew) (die task key : Nat) : Byte :=
  match FMap.find (FMap.getD c.wake task []) key with
  | some b => b
  | none => Memory.read c.snapshot (readKey die key)

/-- A byte of a place as a plain access of a strand reads it. -/
def State.viewByte (s : State) (w : StrandId) (l : Loc) (k : Nat) : Byte :=
  match s.crewOf w.core with
  | some c => if c.det && !l.isOwn then c.viewByte (dieOf w.core) (s.taskId w) (l.key + k) else s.plainByte w.core l k
  | none => s.plainByte w.core l k

/-- The strand's core is of a deterministic launch. -/
def State.coreDet (s : State) (core : Nat) : Bool :=
  match s.crewOf core with
  | some c => c.det
  | none => false

/-- The code that a read of `n` bytes of a place by a core's plain access meets at their home, if one fails its check code
(24 R390); bytes that the cluster cache holds are not read there. -/
def State.plainFail (s : State) (core : Nat) (l : Loc) (n : Nat) : Option Nat :=
  if s.failing.isEmpty then none
  else
    (List.range n).findSome? fun k =>
      let held := match l.cached with
        | some (a, _) =>
          match FMap.find (s.cluster (clusterOf core)).cache ((a + k) / 64) with
          | some x => x.valid.getLsbD ((a + k) % 64)
          | none => false
        | none => false
      if held then none else s.failCode (readKey (dieOf core) (l.key + k))

/-- The same for a strand, whose view in a deterministic launch is its wake buffer before memory. -/
def State.viewFail (s : State) (w : StrandId) (l : Loc) (n : Nat) : Option Nat :=
  if s.failing.isEmpty then none
  else
    match s.crewOf w.core with
    | some c =>
      if c.det then
        (List.range n).findSome? fun k =>
          if !l.isOwn && (FMap.find (FMap.getD c.wake (s.taskId w) []) (l.key + k)).isSome then none
          else s.failCode (readKey (dieOf w.core) (l.key + k))
      else s.plainFail w.core l n
    | none => s.plainFail w.core l n

/-- What a strand's read of `n` bytes of a place does to the cluster cache; in a deterministic launch it reads its own
view of memory, past the cache (16 R290). -/
def State.viewRead (s : State) (w : StrandId) (l : Loc) (n : Nat) : State :=
  if s.coreDet w.core then s else s.plainRead w.core (some (StrandId.key w)) l n

/-- A crew's state with a byte written into a task's wake buffer; it does not stand in memory yet. -/
def Crew.wakeWrite (c : Crew) (task key : Nat) (b : Byte) : Crew :=
  { c with
    wake := FMap.put c.wake task (FMap.put (FMap.getD c.wake task []) key b)
    early := c.early.map fun e => if e.1 = task then (e.1, e.2.filter (· != key)) else e }

/-- Note that a task wrote a byte of its core's local store directly. -/
def Crew.noteDirect (c : Crew) (task key : Nat) : Crew :=
  let ts := FMap.getD c.direct key []
  if ts.contains task then c else { c with direct := FMap.put c.direct key (ts ++ [task]) }

/-- A byte of a place written for a strand: in a deterministic launch into the task's wake buffer,
unless it is the own local store, which is written directly and noted for the merge (16 R290, R293). -/
def State.viewPut (s : State) (w : StrandId) (l : Loc) (k : Nat) (b : Byte) : State :=
  match (s.core w.core).crew with
  | none => s.plainWrite w.core (StrandId.key w) l k b
  | some id =>
    match FMap.find s.crews id with
    | none => s.plainWrite w.core (StrandId.key w) l k b
    | some c =>
      if !c.det then s.plainWrite w.core (StrandId.key w) l k b
      else if l.isOwn then
        (s.setCrew id (c.noteDirect (s.taskId w) (l.key + k))).homeWrite (l.key + k) b
      else s.setCrew id (c.wakeWrite (s.taskId w) (l.key + k) b)

/-- A place in window space, which no fetch reaches (19 R327). -/
def Loc.inWindow : Loc → Bool
  | .store .. => true
  | .pad .. => true
  | _ => false

/-- Before a strand stores to a byte, its fetches keep what they find there until the next ifence (04 R84, 14 R253). -/
def State.keepFetch (s : State) (w : StrandId) (l : Loc) (k : Nat) : State :=
  let t := s.strand w
  if l.inWindow || (FMap.find t.stale (l.key + k)).isSome then s
  else s.setStrand w { t with stale := FMap.put t.stale (l.key + k) (s.viewByte w l k) }

/-- A byte of a place as a plain access of a strand writes it. -/
def State.viewWrite (s : State) (w : StrandId) (l : Loc) (k : Nat) (b : Byte) : State :=
  (s.keepFetch w l k).viewPut w l k b

/-- A byte of a place as a strand's fetch finds it. -/
def State.fetchByte (s : State) (w : StrandId) (l : Loc) (k : Nat) : Byte :=
  (FMap.find (s.strand w).stale (l.key + k)).getD (s.viewByte w l k)

/-- What a strand's fetches find of `n` bytes of a place before it writes them is kept (04 R84). -/
def State.keepFetches (s : State) (w : StrandId) (l : Loc) : Nat → State
  | 0 => s
  | n + 1 => (s.keepFetches w l n).keepFetch w l n

/-- The little-endian value of `n` bytes of a place, as a strand reads them. -/
def State.viewNat (s : State) (w : StrandId) (l : Loc) (n : Nat) : Nat := leNat (s.viewByte w l) n

/-- `n` bytes of a place written by a strand from a number, low byte first (00 R6). -/
def State.viewStore (s : State) (w : StrandId) (l : Loc) (v : Nat) : Nat → State
  | 0 => s
  | n + 1 => (s.viewStore w l v n).viewWrite w l n (byteOf v n)

/-- `n` bytes of a place put there for a strand from a number, low byte first, by no store of the strand's own. -/
def State.viewFill (s : State) (w : StrandId) (l : Loc) (v : Nat) : Nat → State
  | 0 => s
  | n + 1 => (s.viewFill w l v n).viewPut w l n (byteOf v n)

/-- The 64-byte lines that the tasks of a core hold in wake storage (16 R294). -/
def Crew.wakeLines (c : Crew) (index : Nat) : List Nat :=
  (c.wake.flatMap fun e => if e.1 / 2 ^ 16 = index then e.2.map (·.1 / 64) else []).eraseDups

/-- A store of `n` bytes at a place needs no more wake lines than a core has (16 R294). -/
def State.wakeRoom (s : State) (w : StrandId) (keys : List Nat) : Bool :=
  match s.crewOf w.core with
  | none => true
  | some c =>
    if !c.det then true
    else decide ((c.wakeLines (s.core w.core).index ++ keys.map (· / 64)).eraseDups.length ≤ 16384)

end Sys2Proof.Machine
end

