-- ==== Sys2Proof/Machine/Ops.lean ====
section
/-!
DEFINITION. The named operations that every meaning is written over: registers and the delivery of results (02 R41 to
R46), messages that are diverted (10 R191), the end of crews and launches (09 R168), taking a trap and returning from
one (19 R328 to R333), and the issue of one instruction with its slots (02 R40, R41).
-/
namespace Sys2Proof.Machine
open Sys2Proof

abbrev Out := Host.Outcome State Fault Refusal

/-! ### Registers -/

/-- Read an s register: s0 reads as zero (01 R10). -/
def Strand.getS (t : Strand) (n : BitVec 4) : Word := if n = 0#4 then 0 else t.s[n.toNat]'(n.isLt)
def Strand.getF (t : Strand) (n : BitVec 3) : Word := t.f[n.toNat]'(n.isLt)
/-- Read a p register: p0 reads as all ones (01 R10). -/
def Strand.getP (t : Strand) (n : BitVec 3) : Pred := if n = 0#3 then BitVec.allOnes 256 else t.p[n.toNat]'(n.isLt)
/-- Read a q register and its cursor: q7 reads as all ones with cursor 0 (01 R10). -/
def Strand.getQ (t : Strand) (n : BitVec 3) : Word := if n = 7#3 then BitVec.allOnes 64 else t.q[n.toNat]'(n.isLt)
def Strand.getCursor (t : Strand) (n : BitVec 3) : BitVec 6 := if n = 7#3 then 0 else t.cursor[n.toNat]'(n.isLt)
/-- Read a vector register: vz reads as zero (01 R13). -/
def Core.getV (x : Core) (n : BitVec 5) : VReg := if h : n.toNat < 30 then x.v[n.toNat] else 0
def Core.getAcc (x : Core) (n : BitVec 2) : Tile := x.acc[n.toNat]'(n.isLt)

/-- The granules of eight bytes that the check code of a register covers, by the number of the first: a strand has four numbers
for each of s, f, p and q in turn, and a core 32 for a vector register and 128 for an accumulator (24 R389, R390, log entry
114). -/
def granS (n : BitVec 4) : Nat := 4 * n.toNat
def granF (n : BitVec 3) : Nat := 64 + 4 * n.toNat
def granP (n : BitVec 3) : Nat := 96 + 4 * n.toNat
def granQ (n : BitVec 3) : Nat := 128 + 4 * n.toNat
def granV (n : BitVec 5) : Nat := 32 * n.toNat
def granAcc (n : BitVec 2) : Nat := 1024 + 128 * n.toNat

/-- The failing granules behind a write of the whole of those from `g` on that a test names (24 R390). -/
def renewed (m : FMap Nat) (g n : Nat) (whole : Nat → Bool) : FMap Nat :=
  m.filter fun e => !(decide (g ≤ e.1) && decide (e.1 < g + n) && whole (e.1 - g))

/-- The first failing granule among those from `g` on that a test names, and its code. -/
def failingOf (m : FMap Nat) (g n : Nat) (part : Nat → Bool) : Option (Nat × Nat) :=
  m.find? fun e => decide (g ≤ e.1) && decide (e.1 < g + n) && part (e.1 - g)

def Strand.putS (t : Strand) (n : BitVec 4) (x : Word) : Strand :=
  if n = 0#4 then t
  else { t with s := t.s.set n.toNat x (n.isLt), fails := renewed t.fails (granS n) 4 fun _ => true }
def Strand.putF (t : Strand) (n : BitVec 3) (x : Word) : Strand :=
  { t with f := t.f.set n.toNat x (n.isLt), fails := renewed t.fails (granF n) 4 fun _ => true }
def Strand.putP (t : Strand) (n : BitVec 3) (x : Pred) : Strand :=
  if n = 0#3 then t
  else { t with p := t.p.set n.toNat x (n.isLt), fails := renewed t.fails (granP n) 4 fun _ => true }
def Strand.putQ (t : Strand) (n : BitVec 3) (x : Word) : Strand :=
  if n = 7#3 then t
  else { t with q := t.q.set n.toNat x (n.isLt), fails := renewed t.fails (granQ n) 4 fun _ => true }
def Strand.putCursor (t : Strand) (n : BitVec 3) (x : BitVec 6) : Strand :=
  if n = 7#3 then t else { t with cursor := t.cursor.set n.toNat x (n.isLt) }
def Core.putV (x : Core) (n : BitVec 5) (v : VReg) : Core :=
  if h : n.toNat < 30 then { x with v := x.v.set n.toNat v h } else x

/-- A vector register of which the bytes of a mask are written: the granules that lie wholly in it hold sound bytes. -/
def Core.cover (x : Core) (n : BitVec 5) (mask : VReg) : Core :=
  { x with fails := renewed x.fails (granV n) 32 fun i => mask.extractLsb' (64 * i) 64 == BitVec.allOnes 64 }

/-- Write an accumulator, of which the granules that a test names are written whole. -/
def Core.putAccPart (x : Core) (n : BitVec 2) (whole : Nat → Bool) (v : Tile) : Core :=
  { x with acc := x.acc.set n.toNat v (n.isLt), fails := renewed x.fails (granAcc n) 128 whole }
def Core.putAcc (x : Core) (n : BitVec 2) (v : Tile) : Core := x.putAccPart n (fun _ => true) v

/-- The bits of `v` where `mask` is set, and those of `old` elsewhere. -/
def blend (old v mask : VReg) : VReg := (old &&& ~~~mask) ||| (v &&& mask)

/-- Update the strand that issues. -/
def State.onStrand (s : State) (w : StrandId) (f : Strand → Strand) : State := s.setStrand w (f (s.strand w))
def State.onCore (s : State) (c : Nat) (f : Core → Core) : State := s.setCore c (f (s.core c))

/-- The register stream that a vector register of a core is tied to, with its number (15 R274). -/
def Core.streamOf (c : Core) (v : BitVec 5) : Option (Nat × RegStream) :=
  (List.range 4).findSome? fun k =>
    match c.streams[k]?.join with
    | some r => if r.v == v then some (k, r) else none
    | none => none

def Core.putStream (c : Core) (k : Nat) (r : Option RegStream) : Core :=
  if h : k < 4 then { c with streams := c.streams.set k r h } else c

/-- A delivered write of a register tied to a write stream emits its whole value as the next step; steps beyond the
count, or behind a step that faulted, are discarded (15 R275, R262). -/
def Core.emit (c : Core) (v : BitVec 5) : Core :=
  match c.streamOf v with
  | some (k, r) =>
    if r.write && decide (r.taken < r.count) then
      c.putStream k (some { r with taken := r.taken + 1, buf := if r.bad.isSome then r.buf else r.buf ++ [c.getV v] })
    else c
  | none => c

/-- A result written to its register: the bytes of the mask change (05 R94); s0, p0 and vz discard it. A vector result with no
active element writes nothing, and so emits no step (DEDUCED from 05 R94 and 15 R275, log entry 101). -/
def State.putReg (s : State) (w : StrandId) (r : Reg) (v mask : VReg) : State :=
  match r with
  | .s n => s.onStrand w fun t => t.putS n (v.setWidth 64)
  | .f n => s.onStrand w fun t => t.putF n (v.setWidth 64)
  | .p n => s.onStrand w fun t => t.putP n (v.setWidth 256)
  | .v n => s.onCore w.core fun c => if mask = 0 then c else ((c.putV n (blend (c.getV n) v mask)).cover n mask).emit n

/-- The bytes of a register that a later write has delivered are dropped from an earlier result (02 R43). -/
def Pending.without (e : Pending) (r : Reg) (mask : VReg) : Option Pending :=
  if e.reg = r then
    if e.mask &&& ~~~mask = 0 then none else some { e with mask := e.mask &&& ~~~mask }
  else some e

/-- Results in program order: those selected are written, each dropping what earlier ones would write later; the rest
stay in flight. -/
def deliverList (w : StrandId) (sel : Pending → Bool) : List Pending → State × List Pending → State × List Pending
  | [], acc => acc
  | e :: rest, (s, kept) =>
    if sel e then
      deliverList w sel rest (s.putReg w e.reg e.val e.mask, kept.filterMap fun k => k.without e.reg e.mask)
    else deliverList w sel rest (s, kept ++ [e])

/-- Deliver the selected results of a strand. -/
def State.deliver (s : State) (w : StrandId) (sel : Pending → Bool) : State :=
  let t := s.strand w
  if t.pend.isEmpty then s
  else
    let r := deliverList w sel t.pend (s, [])
    r.1.onStrand w fun t => { t with pend := r.2 }

/-- Deliver every pending result: entry to a trap handler, hend, the end of a job (02 R44). -/
def State.deliverAll (s : State) (w : StrandId) : State := s.deliver w fun _ => true

/-- A result reaches a reader that issues in slot `n` (02 R43). -/
def readyFor (n : Nat) (e : Pending) : Bool :=
  match e.due with
  | some d => decide (d ≤ n)
  | none => false

/-- A variable-latency result that has not arrived, of a register of a reader, which waits for it (02 R42). -/
def Pending.lateFor (regs : List Reg) (e : Pending) : Bool := e.due.isNone && regs.contains e.reg

/-- Write a register at once: every earlier result for the bytes is dropped. -/
def State.writeNow (s : State) (w : StrandId) (r : Reg) (v mask : VReg) : State :=
  let t := s.strand w
  let s1 := if t.pend.isEmpty then s
    else s.onStrand w fun t => { t with pend := t.pend.filterMap fun k => k.without r mask }
  s1.putReg w r v mask

/-- A write of an s register later in program order than a request takes the register from it (02 R43, 16 R288). -/
def State.unrequest (s : State) (w : StrandId) (r : Reg) : State :=
  match r with
  | .s n => if (s.strand w).requested.isEmpty then s
    else s.onStrand w fun t => { t with requested := FMap.del t.requested n.toNat }
  | _ => s

/-- A register that discards what is written to it (01 R10, R13). -/
def Reg.discards : Reg → Bool
  | .s n => n == 0#4
  | .p n => n == 0#3
  | .v n => decide (30 ≤ n.toNat)
  | .f _ => false

/-- The latency of a producer in slots (02 R42). -/
inductive Latency where
  | fixed (slots : Nat)
  | variable
deriving DecidableEq, Repr

/-- A result of an instruction that issued in slot `n`. A result of latency 1 reaches every later reader, and so does a
variable-latency one unless the state holds such results back (`lag`, log entry 4); the rest stays in flight. -/
def State.result (s : State) (w : StrandId) (lat : Latency) (n : Nat) (r : Reg) (v mask : VReg) : State :=
  if Reg.discards r then s
  else
    let s := s.unrequest w r
    match lat with
    | .fixed 1 => s.writeNow w r v mask
    | .fixed k => s.onStrand w fun t => { t with pend := t.pend ++ [⟨r, v, mask, some (n + k)⟩] }
    | .variable =>
      if s.lag then s.onStrand w fun t => { t with pend := t.pend ++ [⟨r, v, mask, none⟩] }
      else s.writeNow w r v mask

def State.resultS (s : State) (w : StrandId) (lat : Latency) (n : Nat) (d : BitVec 4) (x : Word) : State :=
  s.result w lat n (.s d) (x.setWidth 2048) (BitVec.allOnes 2048)
def State.resultF (s : State) (w : StrandId) (lat : Latency) (n : Nat) (d : BitVec 3) (x : Word) : State :=
  s.result w lat n (.f d) (x.setWidth 2048) (BitVec.allOnes 2048)
def State.resultP (s : State) (w : StrandId) (lat : Latency) (n : Nat) (d : BitVec 3) (x : Pred) : State :=
  s.result w lat n (.p d) (x.setWidth 2048) (BitVec.allOnes 2048)

/-- Store an s register as the strand's own next value, outside the timing of results (entry to a handler, a request
served). -/
def State.setS (s : State) (w : StrandId) (n : BitVec 4) (x : Word) : State := s.onStrand w fun t => t.putS n x

/-! ### Black box and dead letters -/

/-- Log an event in a die's black box: the ring keeps the last 4,096 entries, and takes none while frozen (24 R391). The
detail by kind is a free value. -/
def State.log (s : State) (die : Nat) (kind cluster count : Nat) : State :=
  if s.frozen then s
  else
    let d := s.die die
    let e : BoxEntry := ⟨s.wallTide, BitVec.ofNat 16 kind, BitVec.ofNat 16 cluster, BitVec.ofNat 32 count,
      Config.freeWord s.free ++ Config.freeWord (s.free + 1)⟩
    { s.setDie die { d with
      box := (if d.box.length < 4096 then d.box else d.box.drop 1) ++ [e]
      boxNext := (d.boxNext + 1) % 4096 } with free := s.free + 2 }

/-- Add one to a 32-bit count, saturating (10 R191). -/
def satInc (x : BitVec 32) : BitVec 32 := if x = BitVec.allOnes 32 then x else x + 1

/-- The header fields of a message (10 R183). -/
def hdrSrcCore (m : MsgBits) : BitVec 16 := m.extractLsb' 48 16
def hdrSrcCtx (m : MsgBits) : BitVec 4 := m.extractLsb' 44 4
def hdrLen (m : MsgBits) : BitVec 6 := m.extractLsb' 38 6
def hdrPrio (m : MsgBits) : BitVec 2 := m.extractLsb' 36 2
def hdrGen (m : MsgBits) : BitVec 8 := m.extractLsb' 28 8
def hdrTag (m : MsgBits) : BitVec 16 := m.extractLsb' 12 16
def hdrHandler (m : MsgBits) : BitVec 12 := m.extractLsb' 0 12

/-- A diverted message whose source core has no resident job: the count of the black box of its destination's die rises instead
(10 R191). -/
def State.loseMessage (s : State) (dest : Nat) : State :=
  let d := s.die (dieOf dest)
  let n := satInc d.lost
  (s.setDie (dieOf dest) { d with lost := n }).log (dieOf dest) 5 0xFFFF n.toNat

/-- Divert a message to the dead-letter lane of its source core (10 R191). With no resident job there, the count of the
destination die's black box rises instead; a message from another device leaves this one, and one whose sender's job is off the
machine waits with that job's image (19 R354). A bound message that no lane took carries generation 0, since the lane's entry
fills it (DESIGN CHOICE, log entry 83). -/
def State.divert (s : State) (m : Message) (reason : Nat) : State :=
  match m.srcDev with
  | some d => { s with departed := s.departed ++ [{ m with toDev := some d, srcDev := none, diverted := some (BitVec.ofNat 4 reason) }] }
  | none =>
    let src := s.relocate m.crew (hdrSrcCore m.bits).toNat
    let c := s.core src
    match m.crew.bind fun k => (FMap.find s.saved k).map fun v => (k, v) with
    | some (k, v) =>
      { s with saved := FMap.put s.saved k { v with transit := v.transit ++ [{ m with diverted := some (BitVec.ofNat 4 reason) }] } }
    | none =>
      match c.crew with
      | none => s.loseMessage m.dest
      | some _ =>
        let e : Dead := ⟨m.bits, BitVec.ofNat 4 reason, hdrGen m.bits, BitVec.ofNat 16 m.dest,
          match m.bound with | some b => b.1 | none => 0⟩
        s.setCore src { c with
          diverted := satInc c.diverted
          dead := if c.dead.length < 16 then c.dead ++ [e] else c.dead }

/-! ### The end of crews and launches -/

/-- Every strand of the listed cores stops being live (09 R168). -/
def State.stopStrands (s : State) (cores : List Nat) : State :=
  { s with strands := s.strands.map fun e =>
      if cores.contains (e.1 / 16) then
        (e.1, { e.2 with live := false, wait := .free, halted := false, settling := false, raft := none, pend := [], slipway := [], branch := none })
      else e }

/-- The messages of a core's outbound queue leave it (10 R185). -/
def State.flushOutbound (s : State) (core : Nat) : State :=
  let c := s.core core
  if c.outbound.isEmpty then s
  else
    { s.setCore core { c with outbound := [] } with transit := s.transit ++ c.outbound }

/-- What waits in the landing of a core whose job ends is diverted with reason 4, before the placement is freed (09 R171,
10 R191). -/
def State.divertWaiting (s0 : State) (core : Nat) : State :=
  let s := s0.flushOutbound core
  let c := s.core core
  c.lanes.toList.flatten.foldl (fun s m => s.divert m 4) (s.setCore core { c with lanes := Vector.replicate 4 [] })

/-- A core loses its job. -/
def State.freeCore (s : State) (core : Nat) : State :=
  s.setCore core { s.core core with
    crew := none, upcalls := [], slots := [], streams := Vector.replicate 4 none }

/-- A cluster loses a crew's matching entries and rings (10 R195, 15 R276). -/
def Cluster.freeCrew (c : Cluster) (k : Nat) : Cluster :=
  { c with matching := c.matching.filter fun e => e.2.crew != k, rings := c.rings.filter fun e => e.2.crew != k }

/-- The clusters that a placement touches. -/
def clustersOf (rows : List Nat) : List Nat := (rows.map (· / 4)).eraseDups

/-- Write the dirty bytes of a cluster's cache to their homes; they become clean (13 R230). -/
def State.writeBack (s : State) (cluster : Nat) : State :=
  let c := s.cluster cluster
  if c.cache.any fun e => e.2.dirty != 0 then
    c.cache.foldl (fun s e => s.lineHome e.1 e.2)
      (s.setCluster cluster { c with cache := c.cache.filterMap fun e => e.2.clean.map fun l => (e.1, l) })
  else s

/-- A save area returns to its stream's pool (19 R336). -/
def State.returnArea (s : State) (c : Crew) : State :=
  match c.save, FMap.find s.streams c.stream with
  | some a, some st => { s with streams := FMap.put s.streams c.stream { st with pool := st.pool ++ [a] } }
  | _, _ => s

/-- A crew ends and its placement is freed; its accesses are released (09 R167, R171). -/
def State.freeCrew (s : State) (k : Nat) : State :=
  match FMap.find s.crews k with
  | none => s
  | some c =>
    let s1 := c.cores.foldl State.freeCore (c.cores.foldl State.divertWaiting (s.stopStrands c.cores))
    let s2 := (clustersOf c.rows).foldl (fun s i => (s.writeBack i).setCluster i (((s.writeBack i).cluster i).freeCrew k)) s1
    { s2.returnArea c with
      crews := FMap.del s2.crews k
      images := FMap.del s2.images k
      flips := s2.flips.filter fun r => r.crew != k
      rows := s2.rows.filter fun e => !c.rows.contains e.1 }

/-- A message of a pre-empted job's image goes on when the job ends: it is for a core outside the job, or for another device. -/
def Saved.sends (v : Saved) (m : Message) : Bool :=
  m.diverted.isNone && (m.toDev.isSome || (v.crew.indexOf m.dest).isNone)

/-- A pre-empted job whose launch is aborted leaves the machine, crew `k`: its save area returns; what waited in its landing, or was
on its way to it, is diverted with reason 4 as at the end of a resident job, where the job's own messages have no source core
with a job; what it sent to others goes on (10 R191, DEDUCED, log entry 52). -/
def State.dropImage (s : State) (k : Nat) (v : Saved) : State :=
  let sent := v.cores.flatMap Core.outbound ++ v.transit
  let stay := (v.cores.flatMap fun c => c.lanes.toList.flatten) ++ sent.filter fun m => !v.sends m
  let s1 := stay.foldl (fun s m => if m.crew = some k then s.loseMessage m.dest else s.divert m 4) s
  { s1.returnArea v.crew with
    transit := s1.transit ++ sent.filter v.sends
    images := FMap.del s1.images k
    flips := s1.flips.filter fun r => r.crew != k }

/-- A launch is aborted: its bound jobs stop, its unbound jobs are discarded, and it will complete with status 2; the
first fatal frame is kept (09 R168, 19 R328). -/
def State.abortLaunch (s : State) (id : Nat) (frame : List Byte) : State :=
  match FMap.find s.launches id with
  | none => s
  | some l =>
    let jobs := (s.crews.filter fun e => e.2.launch == id).map (·.1)
    let s0 := jobs.foldl State.freeCrew s
    let gone := s0.saved.filter fun e => e.2.crew.launch == id
    let s1 := gone.foldl (fun s e => s.dropImage e.1 e.2)
      { s0 with saved := s0.saved.filter fun e => e.2.crew.launch != id }
    let l1 := { l with
      status := some 2
      next := l.dimx * l.dimy * l.dimz
      frame := if l.frame.isEmpty then frame else l.frame }
    { s1 with launches := FMap.put s1.launches id l1 }

/-- A fault that aborts the launch of a crew; in a tournament it finishes the rival alone, with a NaN score
(16 R297). -/
def State.abortCrew (s : State) (k : Nat) (frame : List Byte) : State :=
  match FMap.find s.crews k with
  | none => s
  | some c =>
    match c.rival with
    | some _ => if c.finished.isSome then s else (s.stopStrands c.cores).setCrew k { c with finished := some none }
    | none => s.abortLaunch c.launch frame

/-! ### Taking a trap -/

/-- A trap with no address. -/
def trapOf (cls code : Nat) : Trap := ⟨cls, code, 0, 0, false, false, false, []⟩

/-- A trap of an access. -/
def trapAt (cls code : Nat) (addr : Word) (wr : Bool) : Trap := ⟨cls, code, addr, 0, wr, false, false, []⟩

/-- A registers' location in the addr of an uncorrectable error: from 3 * 2^62 on, 2^16 for a core, of which the first twelve 4,096
are its contexts' (DESIGN CHOICE, log entry 114: 24 R390 gives no location that a register has). -/
def regAddr (core base granule : Nat) : Word := BitVec.ofNat 64 (3 * 2 ^ 62 + core * 2 ^ 16 + base + granule * 8)
def strandRegAddr (w : StrandId) (granule : Nat) : Word := regAddr w.core (w.ctx * 4096) granule
def coreRegAddr (core granule : Nat) : Word := regAddr core (12 * 4096) granule

/-- The uncorrectable error of a failing register of a strand, and of its core (24 R390). -/
def strandRegTrap (w : StrandId) (e : Nat × Nat) : Trap := trapAt 0 e.2 (strandRegAddr w e.1) false
def coreRegTrap (core : Nat) (e : Nat × Nat) : Trap := trapAt 0 e.2 (coreRegAddr core e.1) false

/-- Where the granules of a register of a strand are. -/
def Reg.granules : Reg → Nat
  | .s n => granS n
  | .f n => granF n
  | .p n => granP n
  | .v n => granV n

/-- ctx.id of a strand (01 R19). -/
def idWord (w : StrandId) : Word := BitVec.ofNat 64 (w.core % 65536 * 16 + w.ctx % 16)

/-- The cause word of a frame (19 R331). -/
def causeWord (w : StrandId) (t : Strand) (x : Trap) : Word :=
  let pass := match t.frame with | some f => f.pass | none => 0
  let pos := match t.frame with | some f => f.pos | none => 0
  BitVec.ofNat 8 x.cls ++ BitVec.ofNat 8 x.code ++ BitVec.ofBool t.frame.isSome ++ BitVec.ofBool x.wr ++
    BitVec.ofBool x.fetch ++ 0#1 ++ t.pl ++ BitVec.ofNat 6 pass ++ BitVec.ofNat 4 pos ++ 0#12 ++
    (idWord w).setWidth 20

/-- The halfwords of the instruction as fetched, first in the low bits; zero for a fetch fault (19 R330). -/
def insnWord (ir : List (BitVec 16)) (x : Trap) : Word :=
  if x.fetch then 0
  else BitVec.ofNat 64 ((ir.take 3).foldr (fun h acc => acc * 65536 + h.toNat) 0)

/-- The bytes of an instruction. -/
def irBytes (ir : List (BitVec 16)) : Nat := ir.length * 2

/-- Where the strand resumes: the next instruction for software traps and calls, else the instruction (19 R330). -/
def resumePc (ir : List (BitVec 16)) (t : Strand) (x : Trap) : Word :=
  if x.resume then t.pc + BitVec.ofNat 64 (irBytes ir) else t.pc

/-- The ten doublewords that hardware writes of a frame (19 R330). -/
def frameWords (w : StrandId) (t : Strand) (ir : List (BitVec 16)) (x : Trap) : List Word :=
  [causeWord w t x, x.addr, t.pc, resumePc ir t x, insnWord ir x, x.elem, t.getS 12, t.getS 13, t.getS 14, t.getS 15]

/-- The bytes of doublewords, low byte first. -/
def wordBytes (ws : List Word) : List Byte := ws.flatMap fun x => (List.range 8).map fun k => byteOf x.toNat k

/-- The address of the frame of level `v` of a strand, in its die's memory (19 R329). -/
def State.frameAddr (s : State) (w : StrandId) (v : Nat) : Nat :=
  (s.die (dieOf w.core)).trapBase.toNat + 4096 + (w.core % 16384 * 12 + w.ctx) * 256 + v * 128

/-- A place of the memory of a strand's die. -/
def dieLoc (w : StrandId) (a : Nat) : Loc := .dev (onDie (dieOf w.core) a)

/-- Store doublewords for a strand from a place of its die's memory up. -/
def State.storeWords (s : State) (w : StrandId) (a : Nat) : List Word → State
  | [] => s
  | x :: xs => (s.viewFill w (dieLoc w a) x.toNat 8).storeWords w (a + 8) xs

/-- A doubleword of its die's memory as a strand reads it. -/
def State.devWord (s : State) (w : StrandId) (a : Nat) : Word := BitVec.ofNat 64 (s.viewNat w (dieLoc w a) 8)

/-- What the read of `n` bytes of its die's memory for a strand does to the cluster cache (13 R229). -/
def State.devRead (s : State) (w : StrandId) (a n : Nat) : State := s.viewRead w (dieLoc w a) n

/-- The entry address of level `v`: doubleword 0 of the die's trap table, or fw.entry; bit 0 is 0 (19 R329, R332,
24 R386). With no trap table placed there is no system entry. -/
def State.entryOf (s : State) (w : StrandId) (v : Nat) : Word :=
  let base := (s.die (dieOf w.core)).trapBase
  (if v = 0 then (if base = 0 then 0 else s.devWord w base.toNat) else s.fwEntry) &&& ~~~(1 : Word)

/-- What the read of the entry address does to the cluster cache. -/
def State.entryRead (s : State) (w : StrandId) (v : Nat) : State :=
  let base := (s.die (dieOf w.core)).trapBase
  if v = 0 ∧ base ≠ 0 then s.devRead w base.toNat 8 else s

/-- The operand buffer after an instruction: entries age, and its held sources enter (02 R46). -/
def nextBuffer (buf : List (BitVec 5 × Nat)) (vs : List (BitVec 5 × Bool)) : List (BitVec 5 × Nat) :=
  let held := (vs.filter fun e => e.2 && decide (e.1.toNat < 30)).map fun e => (e.1, 2)
  held ++ ((buf.filter fun e => decide (1 < e.2) && !held.any fun h => h.1 == e.1).map fun e => (e.1, e.2 - 1))

/-- The operand buffer as a handler is entered or the debugger stops: a software trap or call has executed, and counts as every
instruction does (02 R46). -/
def Strand.bufferPast (t : Strand) (x : Trap) : List (BitVec 5 × Nat) := if x.resume then nextBuffer t.obuf [] else t.obuf

/-- A fatal trap: it aborts the launch, with the frame in its record (19 R328); a strand of no job just stops. -/
def State.fatalTrap (s : State) (w : StrandId) (x : Trap) : State :=
  let t := s.strand w
  let frame := wordBytes (frameWords w t s.ir x ++ [0, 0, 0, 0, 0, 0])
  match (s.core w.core).crew with
  | some k => s.abortCrew k frame
  | none => s.onStrand w fun t => { t with live := false }

/-- An s register that a request of a deterministic launch will write (16 R288). -/
def Strand.requests (t : Strand) (r : Reg) : Bool :=
  match r with
  | .s n => (FMap.find t.requested n.toNat).isSome
  | _ => false

/-- A strand or an engine on its behalf has read bytes that fail their check code: its launch is aborted, with the frame in
the record (24 R390); a strand of no job just stops. -/
def State.consumed (s : State) (w : StrandId) (ir : List (BitVec 16)) (x : Trap) : State :=
  match s.crewOf w.core with
  | some c => s.abortLaunch c.launch (wordBytes (frameWords w (s.strand w) ir x ++ [0, 0, 0, 0, 0, 0]))
  | none => s.onStrand w fun t => { t with live := false }

/-- The uncorrectable error of what entry to level `v` reads: the registers that it saves, the entry address and the frame's last
doubleword (24 R390). -/
def State.entryFail (s : State) (w : StrandId) (v : Nat) : Option Trap :=
  let read (a : Nat) : Option Trap :=
    ((s.devRead w a 8).viewFail w (dieLoc w a) 8).map fun code => trapAt 0 code (BitVec.ofNat 64 (dieLoc w a).key) false
  ((failingOf (s.strand w).fails (granS 12) 16 fun _ => true).map (strandRegTrap w)).or <|
    if s.failing.isEmpty then none
    else (if v = 0 then read (s.die (dieOf w.core)).trapBase.toNat else none).or (read (s.frameAddr w v + 120))

/-- Entry into level `v` (19 R332). A software trap or call takes no issue slot and no stall slots of its own beside the four slots
of the entry (DESIGN CHOICE, log entry 115: 02 R41 and R44 do not say). In a deterministic launch the save of s12 to s15 reads them, so a strand that a request
will write one of them parks first (16 R287). A frame takes wake storage as the strand's stores do (16 R294); without room
for it the wake overflow aborts the launch (DESIGN CHOICE, log entry 86). -/
def State.enter (s0 : State) (w : StrandId) (v : Nat) (h : v < 2) (x : Trap) : State :=
  let s := s0.entryRead w v
  let entry := s.entryOf w v
  if entry = 0 then
    let s1 := if v = 1 then s.log (dieOf w.core) 4 (clusterOf w.core % 512) 1 else s
    s1.fatalTrap w x
  else
    let late := [12#4, 13#4, 14#4, 15#4].filter fun n => (s.strand w).requests (.s n)
    if late != [] then
      { s.onStrand w fun t => { t with wait := .parked (.results (late.map .s)), reported := none } with trapped := false }
    else
      let s1 := s.deliverAll w
      let t := s1.strand w
      let f := s1.frameAddr w v
      match s1.entryFail w v with
      | some y => s1.consumed w s1.ir y
      | none =>
      if !s1.wakeRoom w [(dieLoc w f).key, (dieLoc w f).key + 64] then s1.fatalTrap w (trapAt 15 4 (BitVec.ofNat 64 f) true)
      else
      let s2 := (s1.storeWords w f (frameWords w t s1.ir x)).devRead w (f + 120) 8
      let kstack := s2.devWord w (f + 120)
      s2.onStrand w fun t =>
        let t1 := (((t.putS 12 (BitVec.ofNat 64 f)).putS 13 (causeWord w t x)).putS 14 kstack).putS 15 x.addr
        { t1 with
          pl := BitVec.ofNat 2 (v + 1)
          pc := entry
          frames := t1.frames.set v t1.frame h
          frame := none
          slot := t1.slot + 4
          obuf := t.bufferPast x
          exempt := []
          hold := 0
          paid := 0
          wait := .free }

/-- The strand's bound descriptor (10 R182). -/
def State.boundDesc (s : State) (w : StrandId) : Word :=
  BitVec.ofNat 64 (2 ^ 32 + (s.strand w).gen.toNat * 2 ^ 20 + w.core % 65536 * 16 + w.ctx % 16)

/-- A strand stands inside a pass of its repeat frame (02 R49). -/
def Strand.inPass (t : Strand) : Bool := match t.frame with | some f => f.pos != 0 | none => false

/-- The members of a strand's raft, in core order; the strand alone outside a raft. -/
def State.members (s : State) (w : StrandId) : List StrandId :=
  match (s.strand w).raft with
  | none => [w]
  | some m => ((List.range 32).filter m.getLsbD).map fun i => ⟨clusterOf w.core * 32 + i, 0⟩

/-- Another member of the strand's raft has issued the instruction that the strand has not (09 R178). -/
def State.behind (s : State) (w : StrandId) : Bool :=
  (s.strand w).raft.isSome && (s.members w).any fun m => (s.strand m).raft == (s.strand w).raft && decide ((s.strand w).steps < (s.strand m).steps)

/-- A strand is inside a pass, or its raft has issued an instruction on some members only. -/
def State.midway (s : State) (w : StrandId) : Bool := (s.strand w).inPass || s.behind w

/-- A crew and every live strand of it is held, between passes and with rafts whole (20 R357, 09 R179). -/
def State.holdCrew (s : State) (k : Nat) : State :=
  match FMap.find s.crews k with
  | none => s
  | some c =>
    let s1 := s.setCrew k { c with held := true }
    { s1 with strands := s1.strands.map fun e =>
        if c.cores.contains (e.1 / 16) && e.2.live then
          (e.1, { e.2 with
            halted := true
            settling := if e.2.halted then e.2.settling else s.midway ⟨e.1 / 16, e.1 % 16⟩
            slipway := []
            branch := none })
        else e }

/-- The failure names a page that the host owns (19 R328). -/
def Trap.hostOwned (x : Trap) : Bool := (x.cls == 3 && x.code == 3) || (x.cls == 6 && x.code == 2)

/-- A debugger is attached to the strand's stream (20 R356). -/
def State.debugged (s : State) (core : Nat) : Bool :=
  match s.crewOf core with
  | some c => c.debugger
  | none => false

/-- An upcall fault: the strand is held, the core's request number rises, and the ferry is asked (19 R345). -/
def State.upcallFault (s : State) (w : StrandId) (k : Nat) (x : Trap) : State :=
  let c := s.core w.core
  let r := c.requests + 1
  let q : UpcallReq := ⟨w.ctx, x.addr, x.cls, x.code, r⟩
  let f : FlipReq := ⟨w, k, x.addr, r, (s.strand w).cls, s.boundDesc w, x.wr⟩
  let s1 := s.setCore w.core { c with requests := r, upcalls := c.upcalls ++ [q] }
  { s1.onStrand w fun t => { t with wait := .held, request := r, noticed := false } with flips := s1.flips ++ [f] }

/-- What a debugger is told of a trap (20 R359, R360). -/
def Strand.report (t : Strand) (x : Trap) : Report where
  cls := BitVec.ofNat 8 x.cls
  code := BitVec.ofNat 8 x.code
  elem := x.elem
  addr := x.addr
  wr := x.wr
  pass := match t.frame with | some f => f.pass | none => 0
  pos := match t.frame with | some f => f.pos | none => 0

/-- A stop for the debugger: the crew is held; after brk the strand continues behind it, and after a breakpoint or watchpoint its
next instruction meets none of those that matched (20 R357, R361, R362). The brk takes no issue slot and no stall slots (DESIGN
CHOICE, log entry 103: 02 R41 and 20 R361 do not say). -/
def State.debugStop (s : State) (w : StrandId) (k : Nat) (x : Trap) : State :=
  let s1 := s.onStrand w fun t =>
    { t with
      pc := resumePc s.ir t x
      obuf := t.bufferPast x
      exempt := t.exempt ++ x.brk
      stepping := none
      stepped := false
      reported := some (t.report x) }
  (s1.holdCrew k).onStrand w fun t => { t with settling := false }

/-- The rows of 19 R328 for a trap that no earlier row delivers: system entry from user level, firmware entry from
system level, and at firmware level the launch is aborted and the black box records it. -/
def State.trapByLevel (s : State) (w : StrandId) (x : Trap) : State :=
  let pl := (s.strand w).pl
  if pl = 0#2 then s.enter w 0 (by decide) x
  else if pl = 1#2 then s.enter w 1 (by decide) x
  else
    (s.log (dieOf w.core) 4 (clusterOf w.core % 512) 1).fatalTrap w x

/-- A strand that a debugger steps reports the trap that it takes (20 R363). -/
def State.reportStep (s : State) (w : StrandId) (x : Trap) : State :=
  if (s.strand w).stepping.isNone then s
  else s.onStrand w fun t => { t with reported := some (t.report x) }

/-- Take a trap: an uncorrectable error (class 0) aborts the launch, and for any other the first row of 19 R328 that matches
delivers it. -/
def State.takeTrap (s0 : State) (w : StrandId) (x : Trap) : State :=
  let s := ({ s0 with trapped := true }).reportStep w x
  let t := s.strand w
  if x.cls = 0 then s.consumed w s.ir x
  else
    match (s.core w.core).crew with
    | none => s.trapByLevel w x
    | some k =>
      if x.cls = 15 ∧ (x.code = 5 ∨ x.code = 7) then s.fatalTrap w x
      else if x.hostOwned && t.det then { s0.onStrand w fun t => { t with wait := .page x.addr } with trapped := false }
      else if x.hostOwned && t.pl == 0#2 && decide (w.ctx ≤ 10) && t.upcall.getLsbD 0 then s.upcallFault w k x
      else if x.cls = 18 ∧ s.debugged w.core then s.debugStop w k x
      else s.trapByLevel w x

/-! ### Caches and barriers -/

/-- Invalidate the clean bytes of a cluster's cache (13 R230). -/
def State.dropClean (s : State) (cluster : Nat) : State :=
  let c := s.cluster cluster
  if c.cache.isEmpty then s
  else
    s.setCluster cluster { c with
      cache := (c.cache.filter fun e => e.2.dirty != 0).map fun e => (e.1, { e.2 with valid := e.2.dirty }) }

/-- The release side of an operation at a scope: die scope and wider write back (13 R230). Scopes are the codes of the
fence funcs: 0 core, 1 cluster, 2 die, 3 device, 4 domain, 5 system. -/
def State.release (s : State) (core scope : Nat) : State := if 2 ≤ scope then s.writeBack (clusterOf core) else s

/-- The acquire side of an operation at a scope: die scope and wider invalidate clean bytes (13 R230). -/
def State.acquire (s : State) (core scope : Nat) : State := if 2 ≤ scope then s.dropClean (clusterOf core) else s

/-- The number of a barrier instance: its scope, the core, row or cluster it belongs to, and its slot (10 R200). -/
def barrierKey (scope unit slot : Nat) : Nat := (scope * 65536 + unit) * 16 + slot

/-- The unit that a barrier scope's instance belongs to. -/
def barrierUnit (core scope : Nat) : Nat :=
  if scope = 0 then core else if scope = 1 then rowOf core else if scope = 2 then clusterOf core else 0

/-- A phase begins: the staged berth entries become the table, and stay staged (16 R295, R309). -/
def Crew.nextPhase (c : Crew) : Crew := { c with berth := c.staged, phase := c.phase + 1 }

/-- Complete a barrier: every waiting participant becomes ready with the memory effect of its scope, and exactly one
writes 1 (10 R201); one that came by dphase writes the new phase number (16 R309). In a deterministic launch it is ready as the
next quantum begins (16 R287, R289). -/
def State.completeBarrier (s : State) (k key : Nat) (b : Barrier) (winner : StrandId) : State :=
  let scope := key / 16 / 65536
  let cores := if scope = 3 then b.arrived.map (·.who.core) else []
  let s1 := cores.foldl (fun s c => s.release c 2) s
  let s2 := cores.foldl (fun s c => s.acquire c 2) s1
  match FMap.find s2.crews k with
  | none => s2
  | some c =>
    let c1 := { c with barriers := FMap.del c.barriers key }
    let c2 := if b.arrived.any (·.phase) then c1.nextPhase else c1
    b.arrived.foldl (fun s e =>
      let v : Word := if e.phase then c2.phase else if e.who = winner then 1 else 0
      let s' := if Reg.discards (.s e.d) then s else s.writeNow e.who (.s e.d) (v.setWidth 2048) (BitVec.allOnes 2048)
      s'.onStrand e.who fun t => { t with wait := if c.det then .parked .sync else .free }) (s2.setCrew k c2)

/-- A barrier with nobody awaited completes at once outside a deterministic launch; the winner is the participant that
arrived latest (10 R201, 16 R289). -/
def State.settleBarrier (s : State) (k key : Nat) : State :=
  match FMap.find s.crews k with
  | none => s
  | some c =>
    if c.det then s
    else
      match FMap.find c.barriers key with
      | none => s
      | some b =>
        if b.awaited.isEmpty then
          match b.arrived.getLast? with
          | some e => s.completeBarrier k key b e.who
          | none => s.setCrew k { c with barriers := FMap.del c.barriers key }
        else s

/-- A strand that stops being live counts as arrived at every open barrier (10 R201). -/
def State.leaveBarriers (s : State) (w : StrandId) : State :=
  match (s.core w.core).crew with
  | none => s
  | some k =>
    match FMap.find s.crews k with
    | none => s
    | some c =>
      if c.barriers.isEmpty then s
      else
        let c1 := { c with barriers := c.barriers.map fun e =>
          (e.1, { e.2 with awaited := e.2.awaited.filter fun v => v != w }) }
        (c.barriers.map (·.1)).foldl (fun s key => s.settleBarrier k key) (s.setCrew k c1)

/-- The streams that a strand has bound. -/
def State.ownStreams (s : State) (w : StrandId) : List (Nat × RegStream) :=
  (List.range 4).filterMap fun k =>
    match (s.core w.core).streams[k]?.join with
    | some r => if r.owner == w.ctx then some (k, r) else none
    | none => none

/-- A write stream has emitted steps that are not performed. -/
def RegStream.draining (r : RegStream) : Bool := r.write && !r.buf.isEmpty

/-- A write stream of a strand has steps to perform, or writes to peer devices to be acknowledged, before it is unbound
(15 R274, 22 R378). -/
def State.streamBusy (s : State) (w : StrandId) (r : RegStream) : Bool :=
  r.draining || (r.write && !s.coreDet w.core && s.posted.any fun p => p.who == w)

/-- A strand's streams are not ready to be unbound. -/
def State.draining (s : State) (w : StrandId) : Bool := (s.ownStreams w).any fun e => s.streamBusy w e.2

/-- Unbind a strand's streams as it ends: a write stream completes as a transfer (15 R274, 14 R257). -/
def State.dropStreams (s : State) (w : StrandId) : State :=
  let rs := s.ownStreams w
  if rs.isEmpty then s
  else
    let s1 := s.onCore w.core fun c => rs.foldl (fun c e => c.putStream e.1 none) c
    if (rs.any fun e => e.2.write && e.2.bad.isNone) && !s.coreDet w.core then s1.writeBack (clusterOf w.core) else s1

/-- A strand ends: its pending results are delivered, its streams unbound, and it stops being live (02 R44, 09 R170,
15 R274). -/
def State.endStrand (s : State) (w : StrandId) : State :=
  ((((s.deliverAll w).dropStreams w).disown w).onStrand w fun t =>
    { t with live := false, wait := .free, frame := none, raft := none, slipway := [], branch := none }).leaveBarriers w

/-- The lowest core of a raft mask in a cluster: its leader (09 R177). -/
def raftLeader (cluster : Nat) (mask : BitVec 32) : Nat :=
  cluster * 32 + ((List.range 32).find? mask.getLsbD).getD 0

/-- A control transfer of a strand: the exit address ends a control strand once its results are delivered and its streams
drained, and nothing is fetched (09 R170, 15 R274); a raft goes there whole, by its leader's control flow (09 R179). -/
def State.transfer (s : State) (w : StrandId) (pc : Word) : State :=
  let s1 := s.onStrand w fun t => { t with pc := pc }
  if w.ctx = 0 ∧ pc.toNat = Config.exitAddress ∧ (s.strand w).raft = none then
    let s2 := s1.deliverAll w
    if s2.draining w then s2 else s2.endStrand w
  else s1

/-! ### The issue of one instruction -/

/-- What the issue of an instruction needs to know of it: the registers it reads, its vector sources with their hold
bits, and the vector register that it writes; `idle` when no element is active, so that no source is read
(05 R94); the vector registers that it names without a bank read, with whether it reads them (11 R209); and which
bytes of a vector source it reads, once its other operands are known (02 R43, 05 R94). -/
structure Issue where
  sc : BitVec 2
  srcs : List Reg
  vsrcs : List (BitVec 5 × Bool)
  vdst : Option (BitVec 5)
  idle : Bool
  extra : List (BitVec 5 × Bool)
  bytes : State → BitVec 5 → VReg

/-- An instruction that reads every byte of its vector sources. -/
def wholly (_ : State) (_ : BitVec 5) : VReg := BitVec.allOnes 2048

/-- The issue of an instruction that names no vector register. -/
def plain (sc : BitVec 2) (srcs : List Reg) : Issue := ⟨sc, srcs, [], none, false, [], wholly⟩

/-- What an instruction's own effect ends in: the next instruction, another address, a trap with no effect, a wait before
any effect, or an effect that leaves the strand at the instruction (a raft, a chain, 09 R177, 11 R203). -/
inductive Res where
  | done (s : State)
  | jump (s : State) (pc : Word)
  | trap (x : Trap)
  | wait (c : Wait)
  | enter (s : State)
deriving Repr

/-- A strand owns a vector register: a helper its run, the control strand what no live helper holds, the upcall strand
what the strand it serves owns; vz is never refused (01 R14). -/
def State.ownsAs (s : State) (core ctx : Nat) (v : BitVec 5) : Bool :=
  if 30 ≤ v.toNat then true
  else if ctx = 0 then
    (List.range 10).all fun i =>
      let h := s.strand ⟨core, i + 1⟩
      !(h.live && decide (h.vbase ≤ v.toNat) && decide (v.toNat < h.vbase + h.vcount))
  else
    let t := s.strand ⟨core, ctx⟩
    decide (t.vbase ≤ v.toNat) && decide (v.toNat < t.vbase + t.vcount)

def State.owns (s : State) (w : StrandId) (v : BitVec 5) : Bool :=
  match (s.strand w).upcallFor with
  | some c => s.ownsAs w.core c v
  | none => s.ownsAs w.core w.ctx v

/-- The vector registers that an instruction names. -/
def Issue.vregs (x : Issue) : List (BitVec 5) := x.vdst.toList ++ x.vsrcs.map (·.1) ++ x.extra.map (·.1)

/-- The value of a vector source: the step just taken of a read stream tied to it, else the register (15 R275). -/
def State.readV (s : State) (core : Nat) (v : BitVec 5) : VReg :=
  match (s.core core).streamOf v with
  | some (_, r) => if r.write then (s.core core).getV v else r.now
  | none => (s.core core).getV v

/-- The vector sources that are read from the banks, and all that are read. -/
def Issue.banked (x : Issue) : List (BitVec 5 × Bool) := if x.idle then [] else x.vsrcs
def Issue.read (x : Issue) : List (BitVec 5 × Bool) := x.banked ++ (x.extra.filter (·.2)).map fun e => (e.1, false)

/-- A result in flight is one that the instruction would read early: a register that it reads, and of a vector register the
bytes that it reads (02 R43, R44). -/
def Issue.early (x : Issue) (s : State) (e : Pending) : Bool :=
  match e.reg with
  | .v n => (x.read.any fun r => r.1 == n) && e.mask &&& x.bytes s n != 0
  | r => x.srcs.contains r

/-- The read streams that an instruction's sources are tied to, each once. -/
def Core.readStreams (c : Core) (x : Issue) : List (Nat × RegStream) :=
  ((x.read.map (·.1)).eraseDups.filterMap c.streamOf).filter fun e => !e.2.write

/-- A step is ready to be taken: buffered, or past the last or a faulted one (15 R275). -/
def RegStream.hasStep (r : RegStream) : Bool :=
  !r.buf.isEmpty || decide (r.count ≤ r.taken) || (match r.bad with | some t => decide (t ≤ r.taken) | none => false)

/-- Take the next step of a read stream; zeros past the last and from a faulted step on. -/
def RegStream.take (r : RegStream) : RegStream :=
  if r.count ≤ r.taken then { r with now := 0, took := ([], 0) }
  else
    match r.buf with
    | h :: t => { r with now := h, buf := t, taken := r.taken + 1, took := ([h], 1) }
    | [] => { r with now := 0, taken := r.taken + 1, took := ([], 1) }

/-- A step is given back: the instruction that took it has no effect (11 R205, R220), and the next read takes that step. -/
def RegStream.giveBack (r : RegStream) (e : StepTaken) : RegStream :=
  { r with buf := e.buf ++ r.buf, taken := r.taken - e.count }

/-- What vector streams hold an instruction back for, or refuse it for (15 R275): a write to a register tied for
reading is an engine-operand fault; an empty or full buffer makes the strand wait. -/
def State.streamGate (s : State) (w : StrandId) (x : Issue) : Option Res :=
  let c := s.core w.core
  match x.vdst.bind c.streamOf with
  | some (k, r) =>
    if !r.write then some (.trap (trapOf 13 7))
    else if 4 ≤ r.buf.length ∧ r.taken < r.count then
      some (.wait (.retry (.streamRoom k)))
    else ((c.readStreams x).find? fun e => !e.2.hasStep).map fun e => .wait (.retry (.streamStep e.1))
  | none => ((c.readStreams x).find? fun e => !e.2.hasStep).map fun e => .wait (.retry (.streamStep e.1))

/-- Take one step of every read stream that the sources name. -/
def State.takeSteps (s : State) (w : StrandId) (x : Issue) : State :=
  let c := s.core w.core
  let rs := c.readStreams x
  if rs.isEmpty then s
  else s.setCore w.core (rs.foldl (fun c e => c.putStream e.1 (some e.2.take)) c)

/-- The sources that hold bits and banks are asked about: those tied to no read stream (02 R46). A source tied to one makes no
bank read, since 15 R275 gives it the step in place of the register's content (DEDUCED, log entry 102: 02 R45 names only vz and
buffered sources). -/
def State.bankSrcs (s : State) (w : StrandId) (x : Issue) : List (BitVec 5 × Bool) :=
  x.banked.filter fun e =>
    match (s.core w.core).streamOf e.1 with
    | some (_, r) => r.write
    | none => true

/-- The registers read from the banks: each once, neither vz nor a buffered one (02 R45). -/
def bankReads (buf : List (BitVec 5 × Nat)) (vs : List (BitVec 5 × Bool)) : List Nat :=
  (((vs.map (·.1)).filter fun v => decide (v.toNat < 30) && !buf.any fun e => e.1 == v).map (·.toNat)).eraseDups

/-- One slot for each read beyond the first in each bank (02 R45). -/
def bankConflicts (reads : List Nat) : Nat :=
  ((List.range 6).map fun b => (reads.filter fun v => v % 6 == b).length - 1).sum

/-- The address after an instruction, and the repeat frame there: the next instruction of the body, the next pass, or
the instruction behind the body (02 R47). -/
def Strand.follow (t : Strand) (len : Nat) : Strand :=
  let next := t.pc + BitVec.ofNat 64 len
  match t.frame with
  | none => { t with pc := next }
  | some f =>
    if f.pos < f.len then { t with pc := next, frame := some { f with pos := f.pos + 1 } }
    else if f.pass < f.cnt then { t with pc := f.body, frame := some { f with pos := 0, pass := f.pass + 1 } }
    else { t with pc := next, frame := none }

/-- In a deterministic launch a retired instruction counts toward its core's quantum and round (16 R286, R303). -/
def State.countRetired (s : State) (w : StrandId) : State :=
  if (s.strand w).det then
    s.onCore w.core fun c => { c with quantum := c.quantum + 1, round := c.round + 1, turn := w.ctx + 1 }
  else s

/-- The end of an instruction that issued in slot `n`: its stall slots and its held sources (02 R41, R46). -/
def Strand.spend (t : Strand) (n : Nat) (sc : BitVec 2) (held : List (BitVec 5 × Bool)) : Strand :=
  { t with
    slot := n + 1 + sc.toNat
    obuf := nextBuffer t.obuf held
    exempt := []
    hold := sc.toNat
    paid := 0
    conf := n - t.slot }

/-- A strand that issues waits for nothing. -/
def State.ready1 (s : State) (w : StrandId) : State :=
  if (s.strand w).wait = .free then s else s.onStrand w fun t => { t with wait := .free }

/-- The strand stops at an instruction without retiring it. -/
def State.stay (s : State) (w : StrandId) (c : Wait) : State := s.onStrand w fun t => { t with wait := c }

/-- The first operand of an instruction that fails its check code, as it would read it now: an s, f or p register, or the bytes that
it reads of a vector register that no read stream is tied to (24 R390). -/
def State.regFail (s : State) (w : StrandId) (x : Issue) : Option Trap :=
  let t := s.strand w
  let c := s.core w.core
  if t.fails.isEmpty && c.fails.isEmpty then none
  else
    let own := x.srcs.findSome? fun r => if Reg.discards r then none else failingOf t.fails (Reg.granules r) 4 fun _ => true
    let vec := x.read.findSome? fun e =>
      if (c.streamOf e.1).any fun r => !r.2.write then none
      else failingOf c.fails (granV e.1) 32 fun i => (x.bytes s e.1).extractLsb' (64 * i) 64 != 0
    (own.map (strandRegTrap w)).or (vec.map (coreRegTrap w.core))

/-- Issue one instruction of the current strand (02 R40, R41): vector ownership; a reader of a result not yet served
parks (16 R287), and one of a result that has not arrived waits (02 R42); results whose slot has come are delivered; an
early read traps under chk (02 R44); an operand that fails its check code aborts the launch (24 R390); then the
instruction's own faults and effect, given the slot it issues in. A member of a raft asks all this of its own source registers,
those of a branch or register jump too, whose outcome the leader's decide (DESIGN CHOICE, log entry 117: 09 R178 does not
say). -/
def State.issue (s : State) (x : Issue) (body : State → Nat → Res) : Out :=
  let w := s.cur
  let t := s.strand w
  if !x.vregs.all (s.owns w) then .next (s.takeTrap w (trapOf 8 0))
  else if x.srcs.any t.requests then .next (s.stay w (.parked (.results (x.srcs.filter t.requests))))
  else
    let held := s.bankSrcs w x
    let n := t.slot + bankConflicts (bankReads t.obuf held)
    let late := (x.srcs ++ x.read.map fun e => Reg.v e.1).filter fun r => t.pend.any (·.lateFor [r])
    let s1 := (s.deliver w (readyFor n)).ready1 w
    if late != [] then .next (s.stay w (.retry (.results late)))
    else if t.chk && (s1.strand w).pend.any (x.early s1) then .next (s.takeTrap w (trapOf 9 0))
    else
      match ((s1.regFail w x).map Res.trap).getD ((s1.streamGate w x).getD (body (s1.takeSteps w x) n)) with
      | .done s2 => .next ((s2.onStrand w fun t => (t.follow (irBytes s.ir)).spend n x.sc held).countRetired w)
      | .jump s2 pc => .next (((s2.onStrand w fun t => t.spend n x.sc held).countRetired w).transfer w pc)
      | .trap y => .next (s.takeTrap w y)
      | .wait c => .next (s1.stay w c)
      | .enter s2 => .next s2

end Sys2Proof.Machine
end

