-- ==== Sys2Proof/Machine/Operands.lean ====
section
/-!
DEFINITION. Operand forms: immediates, elements of vectors and predicates (05 R92, R94), and the checked access of a
strand to one aligned unit of memory (04 R81, 01 R26, R27, 20 R360).
-/
namespace Sys2Proof.Machine
open Sys2Proof

/-! ### Immediates -/

/-- A two's-complement field extended to a word (02 R31). -/
def immWord {n : Nat} (i : BitVec n) : Word := i.signExtend 64

/-- A halfword offset from an address (02 R31). -/
def offHalf {n : Nat} (pc : Word) (off : BitVec n) : Word := pc + (off.signExtend 64 <<< 1)

/-- A byte mask of all of a register. -/
abbrev fullMask : VReg := BitVec.allOnes 2048

/-! ### Elements -/

/-- Element `i` of width `w` bytes (05 R92). -/
def elem (v : VReg) (w i : Nat) : Nat := v.toNat / 2 ^ (8 * w * i) % 2 ^ (8 * w)

/-- The number whose digits to the base 2^bits are `f 0`, `f 1`, ... -/
def digits (bits : Nat) (f : Nat → Nat) : Nat → Nat
  | 0 => 0
  | n + 1 => digits bits f n + f n * 2 ^ (bits * n)

/-- The vector of elements of width `w`. -/
def ofElems (w : Nat) (f : Nat → Nat) : VReg := BitVec.ofNat 2048 (digits (8 * w) (fun i => f i % 2 ^ (8 * w)) (256 / w))

/-- Element `i` of width `w` is active (05 R94). -/
def active (p : Pred) (w i : Nat) : Bool := p.getLsbD (w * i)

/-- The bytes of the active elements, as a mask of a register. -/
def activeMask (p : Pred) (w : Nat) : VReg :=
  if p = BitVec.allOnes 256 then BitVec.allOnes 2048
  else ofElems w fun i => if active p w i then 2 ^ (8 * w) - 1 else 0

/-- The active elements in ascending order. -/
def activeList (p : Pred) (w : Nat) : List Nat := (List.range (256 / w)).filter fun i => active p w i

/-- The predicate with the `w` bits of each element for which a relation holds (05 R106). -/
def predOf (w : Nat) (f : Nat → Bool) : Pred :=
  BitVec.ofNat 256 (digits w (fun i => if f i then 2 ^ w - 1 else 0) (256 / w))

/-- An element as its type reads it: signed for the i types and .q16, whole otherwise (05 R96). -/
def elemInt (t : Ty) (x : Nat) : Int := if t.isI || t == .q16 then signExt x (8 * t.width) else x

/-- The type of an unprefixed or prefixed instruction (02 R37). -/
def typeOf (pre : Option Pre) (dflt : Ty) : Ty :=
  match pre with
  | some p => p.t1
  | none => dflt

/-- The two types of a conversion. -/
def typesOf (pre : Option Pre) : Pre := pre.getD ⟨.f32, .f32⟩

/-! ### Checked accesses -/

/-- What the checks of an access to one aligned unit find: a place, bytes out of range, or a trap. -/
inductive Reach where
  | at (l : Loc)
  | out
  | trap (x : Trap)
deriving DecidableEq, Repr

/-- The lowest address of an access of `n` bytes that watchpoint `k` of a strand matches (20 R358, R360). -/
def watchAt (t : Strand) (acc : Acc) (va : Word) (n k : Nat) : Option Word :=
  let d := t.dw[k]?.getD 0
  if d.getLsbD 63 && ((acc.reads && d.getLsbD 62) || (acc.writes && d.getLsbD 61)) && !t.exempt.contains (4 + k) then
    let len := 2 ^ (d.extractLsb' 58 3).toNat
    let lo := (d.extractLsb' 0 52).toNat / len * len
    if lo < va.toNat + n ∧ va.toNat < lo + len then some (BitVec.ofNat 64 (max lo va.toNat)) else none
  else none

/-- The watchpoints that an access of `n` bytes matches, by number, and the lowest address that one matches (20 R360). -/
def watchHit (t : Strand) (acc : Acc) (va : Word) (n : Nat) : Option (List Nat × Word) :=
  match watchAt t acc va n 0, watchAt t acc va n 1 with
  | some a, some b => some ([0, 1], if b.toNat < a.toNat then b else a)
  | some a, none => some ([0], a)
  | none, some b => some ([1], b)
  | none, none => none

/-- The trap of a watchpoint, which names all those that the access matches: resuming never traps again at the same place
(20 R360, R361). -/
def watchTrap (acc : Acc) (h : List Nat × Word) : Trap :=
  { trapAt 18 2 h.2 acc.writes with brk := h.1.map (4 + ·) }

/-- The trap of the checks of an instruction that accesses several units, given as addresses and sizes: a watchpoint's names all
those that one of them matches (20 R361). -/
def State.namesAll (s : State) (w : StrandId) (acc : Acc) (units : List (Word × Nat)) (x : Trap) : Trap :=
  if x.cls = 18 then
    { x with brk := ([0, 1].filter fun k => units.any fun u => (watchAt (s.strand w) acc u.1 u.2 k).isSome).map (4 + ·) }
  else x

/-- Bytes that a strand reads fail their check code: an uncorrectable error of the code of their source, which aborts the
launch (24 R390). They are those that its read finds, once a line that another strand wrote has gone to its home. -/
def State.failedRead (s : State) (w : StrandId) (acc : Acc) (va : Word) (l : Loc) (n : Nat) : Option Trap :=
  if acc.reads && !s.failing.isEmpty then ((s.viewRead w l n).viewFail w l n).map fun code => trapAt 0 code va acc.writes else none

/-- Some byte of an access of `n` bytes has a nonzero bit in [63:52] of its address (01 R23). -/
def badForm (va : Word) (n : Nat) : Bool :=
  va.extractLsb' 52 12 != 0#12 || (va + BitVec.ofNat 64 (n - 1)).extractLsb' 52 12 != 0#12

/-- The checks of an access of `n` bytes, in the order of 04 R81. -/
def State.checked (s : State) (w : StrandId) (acc : Acc) (va : Word) (n : Nat) : Reach :=
  if badForm va n then .trap (trapAt 4 0 va acc.writes)
  else if va.toNat % n ≠ 0 then .trap (trapAt 5 0 va acc.writes)
  else
    match s.look (s.agent w) acc va with
    | .bad cls code => .trap (trapAt cls code va acc.writes)
    | r =>
      match watchHit (s.strand w) acc va n with
      | some h => .trap (watchTrap acc h)
      | none =>
        match r with
        | .place l => .at l
        | _ => .out

/-- An access that passed its checks reads its bytes, which may fail their check code (24 R390). -/
def State.soundRead (s : State) (w : StrandId) (acc : Acc) (va : Word) (n : Nat) (r : Reach) : Reach :=
  match r with
  | .at l => match s.failedRead w acc va l n with | some x => .trap x | none => .at l
  | r => r

/-- An access of `n` bytes: its checks, then the read of its bytes. -/
def State.reach (s : State) (w : StrandId) (acc : Acc) (va : Word) (n : Nat) : Reach :=
  s.soundRead w acc va n (s.checked w acc va n)

/-- Record the first offence of a strand: the lowest byte out of range and the instruction (01 R27). -/
def State.offence (s : State) (w : StrandId) (va : Word) (wr : Bool) : State :=
  let t := s.strand w
  if t.oob.getLsbD 63 then s
  else
    let win := windowCode (va.toNat - Config.windowBase)
    s.onStrand w fun t =>
      { t with
        oob := 1#1 ++ BitVec.ofBool wr ++ win ++ 0#8 ++ va.setWidth 52
        oobpc := t.pc &&& 0xFFFFFFFFFFFFE }

/-- The berth table of a crew lets a writer write at an address: it lies in no entry, or in one that names the writer
(16 R296). -/
def Crew.berthAllows (c : Crew) (cls core va : Nat) : Bool :=
  let es := c.berth.filter fun e => decide (e.2.base ≤ va) && decide (va < e.2.base + e.2.len)
  es.isEmpty || es.any fun e => e.2.cls == cls && e.2.core == core

/-- The berth refusal of a strand's write in a deterministic launch (16 R296). -/
def State.berthRefused (s : State) (w : StrandId) (va : Word) : Option Trap :=
  match s.crewOf w.core with
  | none => none
  | some c =>
    if c.det && decide (va.toNat < Config.windowBase) && !c.berthAllows 0 (s.core w.core).index va.toNat then
      some (trapAt 15 3 va true)
    else none

/-- The checks of a strand's store that a deterministic launch adds, after those of 04 R81 (16 R294, R296). -/
def State.writeRefused (s : State) (w : StrandId) (l : Loc) (va : Word) : Option Trap :=
  match s.berthRefused w va with
  | some x => some x
  | none => if !l.isOwn && !s.wakeRoom w [l.key] then some (trapAt 15 4 va true) else none

/-- The value of a unit: bytes out of range read as zero (01 R26). -/
def State.unitValue (s : State) (w : StrandId) (r : Reach) (n : Nat) : Nat :=
  match r with
  | .at l => s.viewNat w l n
  | _ => 0

/-- A scalar load: the value on its way, which the bytes have behind the read, or a trap; an offence is recorded (04 R81, R82,
14 R241). -/
def State.scalarLoad (s : State) (w : StrandId) (va : Word) (n : Nat) (k : State → Nat → Res) : Res :=
  match s.reach w .read va n with
  | .trap x => .trap x
  | .out => k (s.offence w va false) 0
  | .at l => k (s.viewRead w l n) ((s.viewRead w l n).viewNat w l n)

/-- A write to a peer device is posted (22 R378): its acknowledgement is still to come. A rival's stands in its layer. -/
def State.post (s : State) (w : StrandId) (l : Loc) : State :=
  match l with
  | .peer .. =>
    match s.crewOf w.core with
    | some c => if c.layer.isSome then s else { s with posted := s.posted ++ [⟨w, c.launch⟩] }
    | none => s
  | _ => s

/-- The writes of buffered bytes to peer devices are posted, one for each granule (22 R378). -/
def State.postBytes (s : State) (w : StrandId) (launch : Nat) (m : FMap Byte) : State :=
  { s with posted := s.posted ++ (((m.filter fun e => decide (2 ^ 63 ≤ e.1)).map (·.1 / 8)).eraseDups.map fun _ => ⟨w, launch⟩) }

/-- A strand's own plain store to a peer device is posted; in a deterministic launch it stands in the wake buffer. -/
def State.postStore (s : State) (w : StrandId) (l : Loc) : State := if s.coreDet w.core then s else s.post w l

/-- A scalar store of the low `n` bytes of a value (04 R81, R83). -/
def State.scalarStore (s : State) (w : StrandId) (va : Word) (n : Nat) (v : Word) : Res :=
  match s.reach w .write va n with
  | .trap x => .trap x
  | .out => .done (s.offence w va true)
  | .at l =>
    match s.writeRefused w l va with
    | some x => .trap x
    | none => .done ((s.viewStore w l v.toNat n).postStore w l)

end Sys2Proof.Machine
end

