-- ==== Sys2Proof/Machine/Fetch.lean ====
section
/-!
DEFINITION. Fetching an instruction's halfwords (02 R29, 19 R339).
-/
namespace Sys2Proof.Machine
open Sys2Proof

/-- The codes of a fetch that read bytes failing their check code, above those of class 3: they are class 0 (24 R390). -/
abbrev failedFetch : Nat := 0x100

/-- A halfword as a strand fetches it: one that it holds already (04 R84, 14 R253), else memory through its view, without
the strand's own stores since its last ifence; or the code of the fetch fault. -/
def State.fetchHalf (s : State) (w : StrandId) (va : Word) : Except Nat (BitVec 16) :=
  match (s.strand w).fetched.lookup va with
  | some h => .ok h
  | none =>
    match s.look (s.agent w) .fetch va with
    | .place l =>
      let s1 := s.viewRead w l 2
      match s1.viewFail w l 2 with
      | some code => .error (failedFetch + code)
      | none => .ok (BitVec.ofNat 16 (leNat (s1.fetchByte w l) 2))
    | .bad _ code => .error code
    | .out => .error 1

/-- What a fetch finds: the halfwords of an instruction, or the failing address and its code. -/
inductive Fetched where
  | halves (hs : List (BitVec 16))
  | bad (va : Word) (code : Nat)
deriving DecidableEq, Repr

/-- The halfwords of the instruction at an address: one, two, or a c.vty with what follows it (02 R29, R36). -/
def State.fetchInstr (s : State) (w : StrandId) (pc : Word) : Fetched :=
  match s.fetchHalf w pc with
  | .error c => .bad pc c
  | .ok h =>
    if isCompact h && !isVty h then .halves [h]
    else
      match s.fetchHalf w (pc + 2) with
      | .error c => .bad (pc + 2) c
      | .ok k =>
        if isVty h && !isCompact k then
          match s.fetchHalf w (pc + 4) with
          | .error c => .bad (pc + 4) c
          | .ok m => .halves [h, k, m]
        else .halves [h, k]

/-- What the fetch of `n` halfwords does to the cluster cache: those that the strand does not hold already are read through
it (13 R224, R229). -/
def State.fetchRead (s : State) (w : StrandId) (pc : Word) (n : Nat) : State :=
  (List.range n).foldl (fun s k =>
    let va := pc + BitVec.ofNat 64 (2 * k)
    match (s.strand w).fetched.lookup va, s.look (s.agent w) .fetch va with
    | none, .place l => s.viewRead w l 2
    | _, _ => s) s

/-- The trap of a failed fetch (19 R327, R330). -/
def fetchTrap (va : Word) (code : Nat) : Trap :=
  { (if failedFetch ≤ code then trapAt 0 (code - failedFetch) va false else trapAt 3 code va false) with fetch := true }

end Sys2Proof.Machine
end

