-- ==== Sys2Proof/Machine/Site.lean ====
section
/-!
DEFINITION. Accesses other than a strand's plain ones: at the site that holds the bytes (06 R127, 14 R248), by the
engines of a core (15 R262), by the device on a job's behalf (10 R184, 22 R372), and own buffers (10 R180, 15 R262).
-/
namespace Sys2Proof.Machine
open Sys2Proof

/-! ### Committed memory and homes -/

/-- A number of real storage: a local store or a scratchpad (16 R302). -/
def realKey (key : Nat) : Bool := decide (2 ^ 60 ≤ key) && decide (key < 2 ^ 62)

/-- A byte of committed memory as a crew's requests see it: in a tournament its layer over the memory of launch start,
but for real storage (16 R290, R302). -/
def Crew.committed (c : Crew) (mem : List Host.Cell) (die key : Nat) : Byte :=
  match c.layer with
  | none => Memory.read mem (readKey die key)
  | some l =>
    if realKey key then Memory.read mem key
    else
      match FMap.find l key with
      | some b => b
      | none => Memory.read c.base (readKey die key)

/-- The snapshot that a crew's tasks read from now on (16 R290, R302). -/
def Crew.takeSnapshot (c : Crew) (mem : List Host.Cell) : List Host.Cell :=
  match c.layer with
  | none => mem
  | some l =>
    let low := c.base.filter fun e => decide (e.1 < 2 ^ 60)
    let mid := mem.filter fun e => realKey e.1
    let high := c.base.filter fun e => decide (2 ^ 62 ≤ e.1)
    l.foldl (fun m e => imageWrite m e.1 e.2) (low ++ mid ++ high)

/-- A byte at its home. -/
def State.homeByte (s : State) (core key : Nat) : Byte :=
  match s.crewOf core with
  | some c => c.committed s.mem (dieOf core) key
  | none => Memory.read s.mem (readKey (dieOf core) key)

/-- The code that a read of `n` bytes at their home meets, if they fail their check code (24 R390): a byte that a rival's layer
holds is not read there. -/
def State.homeFail (s : State) (core : Nat) (l : Loc) (n : Nat) : Option Nat :=
  if s.failing.isEmpty then none
  else
    let layer := (s.crewOf core).bind (·.layer)
    (List.range n).findSome? fun k =>
      if !realKey (l.key + k) && (layer.bind fun m => FMap.find m (l.key + k)).isSome then none
      else s.failCode (readKey (dieOf core) (l.key + k))

/-- A byte written into a rival's layer; one that needs a line more than a layer holds is not written, and nothing is behind it,
since the rival takes the fatal code 7 (16 R302). -/
def Crew.layerWrite (c : Crew) (l : FMap Byte) (key : Nat) (b : Byte) : Crew :=
  if c.overfull then c
  else if (l.any fun e => e.1 / 64 == key / 64) || decide ((l.map (·.1 / 64)).eraseDups.length < 2 ^ 20) then
    { c with layer := some (FMap.put l key b) }
  else { c with overfull := true }

/-- A byte stored at its home: into the layer of a rival, else into memory. -/
def State.homeStore (s : State) (core key : Nat) (b : Byte) : State :=
  match (s.core core).crew with
  | none => s.homeWrite key b
  | some k =>
    match FMap.find s.crews k with
    | none => s.homeWrite key b
    | some c =>
      match c.layer with
      | none => s.homeWrite key b
      | some l => if realKey key then s.homeWrite key b else s.setCrew k (c.layerWrite l key b)

/-- The little-endian number of `n` bytes at their home. -/
def State.homeNat (s : State) (core : Nat) (l : Loc) (n : Nat) : Nat := leNat (fun k => s.homeByte core (l.key + k)) n

/-- `n` bytes stored at their home from a number. -/
def State.homePut (s : State) (core : Nat) (l : Loc) (v : Nat) : Nat → State
  | 0 => s
  | n + 1 => (s.homePut core l v n).homeStore core (l.key + n) (byteOf v n)

/-- The lines of a range of device memory leave a cluster's cache, their dirty bytes for their home (13 R231, 19 R342). -/
def State.flushLines (s : State) (cluster lo hi : Nat) : State :=
  let c := s.cluster cluster
  let inside (e : Nat × CacheLine) : Bool := decide (lo ≤ e.1 * 64) && decide (e.1 * 64 < hi)
  if c.cache.any inside then
    (c.cache.filter inside).foldl (fun s e => s.lineHome e.1 e.2)
      (s.setCluster cluster { c with cache := c.cache.filter fun e => !inside e })
  else s

/-- Before an access at the home of device memory, the issuing cluster writes back and drops the lines of its bytes
(13 R231). -/
def State.toHome (s : State) (core : Nat) (l : Loc) (n : Nat) : State :=
  match l.cached with
  | some (a, _) => s.flushLines (clusterOf core) (a / 64 * 64) ((a + n + 63) / 64 * 64)
  | none => s

/-! ### Engines -/

/-- A byte as an engine of a core reads it: through the cluster cache as a core would, or committed memory when it is
served in a deterministic launch (15 R268, 16 R289). -/
def State.engineByte (s : State) (core : Nat) (l : Loc) (k : Nat) : Byte :=
  if s.coreDet core then s.homeByte core (l.key + k) else s.plainByte core l k

/-- What an engine's read of `n` bytes of a place does to the cluster cache. -/
def State.engineRead (s : State) (core : Nat) (l : Loc) (n : Nat) : State :=
  if s.coreDet core then s else s.plainRead core none l n

/-- A byte as an engine of a core writes it: an engine write reaches its site in bounded time (14 R246), so that the line it
passes through in the cluster cache is evicted with it (13 R229; at once is a DESIGN CHOICE, log entry 99). -/
def State.engineWrite (s : State) (core : Nat) (l : Loc) (k : Nat) (b : Byte) : State :=
  if s.coreDet core then s.homeStore core (l.key + k) b
  else (match l.cached with | some (a, _) => s.evictLine (clusterOf core) ((a + k) / 64) | none => s).homeWrite (l.key + k) b

/-- The code that an engine's read of `n` bytes of a place meets, if they fail their check code (24 R390). -/
def State.engineFail (s : State) (core : Nat) (l : Loc) (n : Nat) : Option Nat :=
  if s.coreDet core then s.homeFail core l n else s.plainFail core l n

/-- The same behind what the read itself does to the cluster cache. -/
def State.engineMeets (s : State) (core : Nat) (l : Loc) (n : Nat) : Option Nat :=
  if s.failing.isEmpty then none else (s.engineRead core l n).engineFail core l n

def State.engineNat (s : State) (core : Nat) (l : Loc) (n : Nat) : Nat := leNat (s.engineByte core l) n

def State.enginePut (s : State) (core : Nat) (l : Loc) (v : Nat) : Nat → State
  | 0 => s
  | n + 1 => (s.enginePut core l v n).engineWrite core l n (byteOf v n)

/-- What an engine's access to one aligned unit finds (15 R262, 19 R335, R343): a place, a failure with its class and
code, or a page on the host's side, for which it waits. -/
inductive EngineLook where
  | at (l : Loc)
  | fail (cls code : Nat)
  | waits
deriving DecidableEq, Repr

/-- The view of what a strand issues now. -/
def State.viewOf (s : State) (w : StrandId) : View :=
  let c := s.core w.core
  ⟨(s.strand w).pl, c.spBase, c.spLen, c.peermask⟩

/-- The state as an operation that was issued under a view sees its core's windows (01 R22, R24, R25, R28). -/
def State.underView (s : State) (core : Nat) (v : View) : State :=
  s.setCore core { s.core core with spBase := v.spBase, spLen := v.spLen, peermask := v.peermask }

/-- The checks of an engine's access, under the view of its issue (01 R28, 15 R262); a core of another rival is an engine's operand
fault (16 R301). -/
def State.engineLook (s : State) (core : Nat) (v : View) (acc : Acc) (va : Word) : EngineLook :=
  match (s.underView core v).look (s.engineAgent core v.pl) acc va with
  | .place l => .at l
  | .out => .fail 4 0
  | .bad cls code =>
    if cls = 6 ∧ code = 2 then .waits
    else if cls = 11 then .fail 13 5
    else .fail cls code

/-! ### The device on a job's behalf -/

/-- What the device's reads of bytes at an address for an agent do to the cluster cache. -/
def State.deviceRead (s : State) (a : Agent) (va : Word) (n : Nat) : State :=
  (List.range n).foldl (fun s k =>
    match s.look a .read (va + BitVec.ofNat 64 k) with
    | .place l => s.engineRead a.core l 1
    | _ => s) s

/-- The bytes that those reads find; none when one cannot be read. -/
def State.deviceBytes (s0 : State) (a : Agent) (va : Word) (n : Nat) : Option (List Byte) :=
  let s := s0.deviceRead a va n
  (List.range n).mapM fun k =>
    match s.look a .read (va + BitVec.ofNat 64 k) with
    | .place l => some (s.engineByte a.core l 0)
    | _ => none

/-- The first of those bytes that fails its check code (24 R390). -/
def State.deviceFail (s : State) (a : Agent) (va : Word) (n : Nat) : Option Trap :=
  if s.failing.isEmpty then none
  else
    (List.range n).findSome? fun k =>
      match s.look a .read (va + BitVec.ofNat 64 k) with
      | .place l => (s.engineMeets a.core l 1).map fun code => trapAt 0 code (va + BitVec.ofNat 64 k) false
      | _ => none

/-- Bytes stored at an address by the device for an agent; those that cannot be written are dropped. -/
def State.deviceStore (s : State) (a : Agent) (va : Word) (bs : List Byte) : State :=
  bs.zipIdx.foldl (fun s e =>
    match s.look a .write (va + BitVec.ofNat 64 e.2) with
    | .place l => s.engineWrite a.core l 0 e.1
    | _ => s) s

/-- The agent of a job's device reads, at system level. -/
def State.jobAgent (s : State) (core : Nat) : Agent := s.engineAgent core 1

/-- The little-endian number in a byte list, from byte `k` on, `n` bytes wide. -/
def fieldOf (bs : List Byte) (k n : Nat) : Nat := leNat (fun i => bs.getD (k + i) 0) n

/-- The bytes of a number, low byte first. -/
def natBytes (v n : Nat) : List Byte := (List.range n).map (byteOf v)

/-! ### Own buffers -/

/-- `n` bytes in the issuing core's own local-store or scratchpad window, all at valid offsets (10 R180, 15 R262). -/
def State.ownPlace (s : State) (core : Nat) (va : Word) (n : Nat) : Option Loc :=
  let o := va.toNat - Config.windowBase
  if va.toNat < Config.windowBase then none
  else if o + n ≤ 0x4000 ∧ o < 0x4000 then some (.store core o true)
  else if 0x200000 ≤ o ∧ o + n ≤ 0x400000 then
    match (s.core core).padByte (o - 0x200000), (s.core core).padByte (o - 0x200000 + (n - 1)) with
    | some b, some _ => some (.pad (clusterOf core) b)
    | _, _ => none
  else none

/-- An own buffer of `n` bytes that starts at a multiple of `al`. -/
def State.ownBuffer (s : State) (core : Nat) (va : Word) (n al : Nat) : Option Loc :=
  if va.toNat % al = 0 then s.ownPlace core va n else none

/-- The bytes of an own buffer, which no cache holds, as a strand reads them at issue. -/
def State.ownBytes (s : State) (w : StrandId) (l : Loc) (n : Nat) : List Byte := (List.range n).map (s.viewByte w l)

end Sys2Proof.Machine
end

