-- ==== Sys2Proof/Machine/Message.lean ====
section
/-!
DEFINITION. Messages (10): strand descriptors and header templates, posting, delivery into lanes, helpers and the start of
handlers, tasks, dependence counters and matching entries; hand-over to the services of a die (22 R370).
-/
namespace Sys2Proof.Machine
open Sys2Proof

/-! ### Descriptors and templates (10 R182, R183) -/

def descCtx (d : Word) : BitVec 4 := d.extractLsb' 0 4
def descCore (d : Word) : Nat := (d.extractLsb' 4 16).toNat
def descGen (d : Word) : BitVec 8 := d.extractLsb' 20 8
def descBound (d : Word) : Bool := d.getLsbD 32
def descPeer (d : Word) : Bool := d.getLsbD 33
def descDev (d : Word) : Nat := (d.extractLsb' 34 6).toNat

/-- A well-formed strand descriptor (10 R182). -/
def descOk (d : Word) : Bool :=
  d.extractLsb' 40 24 == 0#24 && d.extractLsb' 28 4 == 0#4 &&
    if descBound d then decide ((descCtx d).toNat ≤ 11) else descCtx d == 0#4 && descGen d == 0#8

/-- A well-formed header template, its len field looked at or not (10 R183, R196). -/
def templateOk (useLen : Bool) (h : Word) : Bool :=
  h.extractLsb' 44 20 == 0#20 && h.extractLsb' 28 8 == 0#8 &&
    (!useLen || decide ((h.extractLsb' 38 6).toNat ≤ 56))

/-- The message of a template and argument bytes, sent by a strand; argument bytes from len on are zero (10 R183). -/
def messageBits (w : StrandId) (hdr : Word) (args : List Byte) : MsgBits :=
  let h : Word := (hdr &&& 0x00000FF00FFFFFFF) ||| BitVec.ofNat 64 (w.core % 65536 * 2 ^ 48 + w.ctx % 16 * 2 ^ 44)
  let n := (hdr.extractLsb' 38 6).toNat
  BitVec.ofNat 512 (h.toNat + leNat (fun k => args.getD k 0) (min n 56) * 2 ^ 64)

/-- A template with its len field set. -/
def withLen (hdr : Word) (n : Nat) : Word := (hdr &&& ~~~((0x3F : Word) <<< 38)) ||| BitVec.ofNat 64 (n * 2 ^ 38)

/-- A header of a message that the device posts: class, tag, handler, len. -/
def deviceHeader (prio len : Nat) (tag : BitVec 16) (handler : BitVec 12) : Word :=
  BitVec.ofNat 64 (len * 2 ^ 38 + prio * 2 ^ 36 + tag.toNat * 2 ^ 12 + handler.toNat)

/-- The device of a descriptor's destination, when it is another device (10 R182, 22 R377). -/
def State.awayDev (s : State) (d : Word) : Option Nat :=
  match s.domain with
  | some m => if descPeer d && descDev d != m.dev then some (descDev d) else none
  | none => none

/-- A descriptor's destination is in reach (10 R180 code 3, R182, 16 R301). -/
def State.inReach (s : State) (core : Nat) (d : Word) : Bool :=
  (!descPeer d ||
    match s.domain with
    | some m => m.members.contains (descDev d) || descDev d == m.dev
    | none => false) &&
  ((s.awayDev d).isSome || !s.otherRival (s.core core).crew (s.relocate (s.core core).crew (descCore d)))

/-- A message as a descriptor addresses it. -/
def State.address (s : State) (w : StrandId) (d : Word) (bits : MsgBits) : Message where
  bits := bits
  bound := if descBound d then some (descCtx d, descGen d) else none
  dest := descCore d
  toDev := s.awayDev d
  srcDev := none
  crew := (s.core w.core).crew
  notice := none
  diverted := none
  scope := 0

/-! ### Lanes (10 R186, R191) -/

/-- The generation that a message carries. -/
def setGen (m : MsgBits) (g : BitVec 8) : MsgBits :=
  (m &&& ~~~((0xFF : MsgBits) <<< 28)) ||| (g.setWidth 512 <<< 28)

/-- A message in a lane is stale (10 R186). -/
def State.stale (s : State) (core : Nat) (m : Message) : Bool :=
  match m.bound with
  | some (c, g) =>
    let t := s.strand ⟨core, c.toNat⟩
    !t.live || t.gen != g
  | none => (s.strand ⟨core, 0⟩).gen != hdrGen m.bits

/-- The reason a stale message is diverted with. -/
def staleReason (m : Message) : Nat := if m.bound.isSome then 1 else 4

/-- Put a lane of a core. -/
def Core.setLane (c : Core) (i : Nat) (l : List Message) : Core :=
  if h : i < 4 then { c with lanes := c.lanes.set i l h } else c

def Core.lane (c : Core) (i : Nat) : List Message := c.lanes[i]?.getD []

/-! ### Tasks and counters (10 R193 to R195) -/

/-- The message of a task, or with an unreadable image what is left of it: its header with no template (10 R193). Its
handler acquires at die scope, which holds everyone whose decrements or messages released it (10 R194). A header that was
made malformed after the task was set is not judged again: the image is sent as it stands (DESIGN CHOICE, log entry 84). -/
def State.taskMessage (s : State) (t : Task) : Message × Bool :=
  match s.ownBuffer t.who.core t.image 64 64 with
  | some l =>
    let v := s.engineNat t.who.core l 64
    let hdr := BitVec.ofNat 64 v
    ({ s.address t.who t.dest (messageBits t.who hdr ((List.range 56).map fun k => byteOf v (8 + k))) with scope := 2 }, true)
  | none => (s.address t.who t.dest (messageBits t.who 0 []), false)

/-- The scope that holds two cores: 0 core, 1 cluster, 2 die, 3 device (10 R189). -/
def scopeBetween (a b : Nat) : Nat :=
  if a = b then 0 else if clusterOf a = clusterOf b then 1 else if dieOf a = dieOf b then 2 else 3

/-- The scope at which a message from a core is released (10 R189). -/
def State.sendScope (s : State) (core : Nat) (m : Message) : Nat :=
  if m.toDev.isSome then 4 else scopeBetween core (s.relocate m.crew m.dest)

/-- A message enters its core's outbound queue behind those sent before it; where the queue is full, its oldest leaves first
(10 R185, R189). -/
def State.queueMsg (s : State) (core : Nat) (m : Message) : State :=
  let s1 := s.release core (s.sendScope core m)
  let c := s1.core core
  let n := c.outbound.length - 7
  { s1.setCore core { c with outbound := c.outbound.drop n ++ [m] } with transit := s1.transit ++ c.outbound.take n }

/-- Collect a request behind every other one of the quantum (16 R289 step 1). -/
def State.collectLast (s : State) (w : StrandId) (r : Req) : State :=
  match (s.core w.core).crew with
  | none => s
  | some k =>
    match FMap.find s.crews k with
    | none => s
    | some c =>
      let e : ReqItem := ⟨w, (s.strand w).gen, (s.core w.core).index, c.numbered, r⟩
      s.setCrew k { c with requests := c.requests ++ [e], numbered := c.numbered + 1 }

/-- The serving order of requests: logical core, context, program order (16 R289). -/
def insertReq (e : ReqItem) : List ReqItem → List ReqItem
  | [] => [e]
  | r :: rs =>
    if r.index < e.index ∨ (r.index = e.index ∧ r.who.ctx ≤ e.who.ctx) then r :: insertReq e rs else e :: r :: rs

/-- Collect a request of a strand at its place in serving order; it will write the listed s registers (16 R288). -/
def State.collect (s : State) (w : StrandId) (ds : List (BitVec 4)) (r : Req) : State :=
  match (s.core w.core).crew with
  | none => s
  | some k =>
    match FMap.find s.crews k with
    | none => s
    | some c =>
      let e : ReqItem := ⟨w, (s.strand w).gen, (s.core w.core).index, c.numbered, r⟩
      let s1 := s.setCrew k { c with requests := insertReq e c.requests, numbered := c.numbered + 1 }
      let out := ds.filter (· != 0#4)
      if out.isEmpty then s1
      else s1.onStrand w fun t =>
        { t with
          requested := out.foldl (fun m d => FMap.put m d.toNat c.numbered) t.requested
          pend := t.pend.filter fun p => !out.any fun d => p.reg == .s d }

/-- A message leaves for its destination: into the fabric. -/
def State.dispatchMsg (s : State) (m : Message) : State := { s with transit := s.transit ++ [m] }

/-- Release a task: its message is sent as if by msend from the strand that set it, behind what its core has sent (10 R189,
R193); in a deterministic launch it is served after every request already collected (16 R289). -/
def State.releaseTask (s : State) (t : Task) : State :=
  let m := s.taskMessage t
  if !m.2 then s.divert m.1 3
  else if s.coreDet t.who.core then s.collectLast t.who (.send m.1)
  else s.queueMsg t.who.core m.1

/-- A dependence counter's state as a word (10 R194). -/
def Dep.word (d : Dep) : Word := BitVec.ofNat 64 ((if d.task.isSome then 2 ^ 63 + d.count else 0) +
  (if d.under then 2 ^ 62 else 0))

def Dep.idle : Dep := ⟨none, 0, false⟩

def Crew.dep (c : Crew) (n : Nat) : Dep := FMap.getD c.deps n Dep.idle

/-- Decrement a counter of a crew by `n` (10 R194). -/
def State.decrement (s : State) (k i n : Nat) : State :=
  match FMap.find s.crews k with
  | none => s
  | some c =>
    let d := c.dep i
    if n = 0 then s
    else
      match d.task with
      | none => s.setCrew k { c with deps := FMap.put c.deps i { d with under := true } }
      | some t =>
        if n < d.count then s.setCrew k { c with deps := FMap.put c.deps i { d with count := d.count - n } }
        else
          (s.setCrew k { c with
            deps := FMap.put c.deps i { task := none, count := 0, under := d.under || decide (d.count < n) } }).releaseTask t

/-- Set a counter: its new count and task, or the task released at once when the count is 0 (10 R195). -/
def State.armCounter (s : State) (k i n : Nat) (t : Task) : State :=
  match FMap.find s.crews k with
  | none => s
  | some c =>
    if n = 0 then (s.setCrew k { c with deps := FMap.put c.deps i Dep.idle }).releaseTask t
    else s.setCrew k { c with deps := FMap.put c.deps i ⟨some t, n, false⟩ }

/-- Count a delivered message in the armed entries of its tag, and release those that reach their target (10 R195).
Also whether an entry counted it. -/
def State.countMatching (s : State) (core : Nat) (m : MsgBits) : State × Bool :=
  let cl := clusterOf core
  match (s.core core).crew with
  | none => (s, false)
  | some k =>
    let hit (e : Nat × Matching) : Bool := e.2.crew == k && e.2.tag == hdrTag m
    let es := (s.cluster cl).matching.filter hit
    let n := (hdrLen m).toNat
    (es.foldl (fun s e =>
      let c := s.cluster cl
      if e.2.target ≤ e.2.count + n then
        (s.setCluster cl { c with matching := FMap.del c.matching e.1 }).releaseTask e.2.task
      else
        s.setCluster cl { c with matching := FMap.put c.matching e.1 { e.2 with count := e.2.count + n } }) s, !es.isEmpty)

/-! ### Handler tables (10 R184, 22 R370) -/

/-- The entries of a crew's handler table: address, register run, crew-wide flag; an empty entry has address 0
(10 R184). -/
structure Handler where
  entry : Word
  vregs : Nat
  wide : Bool
deriving DecidableEq, Repr

/-- An entry of a core's handler table; one that cannot be read is taken as empty (DESIGN CHOICE, log entry 82). -/
def State.handler (s : State) (core : Nat) (h : BitVec 12) : Handler :=
  match s.crewOf core with
  | none => ⟨0, 0, false⟩
  | some c =>
    if h = 0xFFF#12 then ⟨0, 0, false⟩
    else
      match s.deviceBytes (s.jobAgent core) (c.htab + BitVec.ofNat 64 (h.toNat * 16)) 16 with
      | none => ⟨0, 0, false⟩
      | some bs => ⟨BitVec.ofNat 64 (fieldOf bs 0 8), fieldOf bs 8 1, (bs.getD 9 0).getLsbD 0⟩

/-- What the read of an entry does to the cluster cache (13 R229). -/
def State.handlerRead (s : State) (core : Nat) (h : BitVec 12) : State :=
  match s.crewOf core with
  | none => s
  | some c => if h = 0xFFF#12 then s else s.deviceRead (s.jobAgent core) (c.htab + BitVec.ofNat 64 (h.toNat * 16)) 16

/-- The service that an entry address names: 0 the dispatcher, 1 the collective engine (22 R370). -/
def serviceOf (entry : Word) : Option Nat :=
  if entry = 0xFFFFFFFFFF000#64 then some 0
  else if entry = 0xFFFFFFFFFF040#64 then some 1
  else none

/-! ### Delivery (10 R186) -/

/-- The instruction of a strand that is not the one issuing, as it was fetched. -/
def State.refetch (s : State) (w : StrandId) : List (BitVec 16) :=
  match s.fetchInstr w (s.strand w).pc with
  | .halves hs => hs
  | .bad _ _ => []

/-- Take a trap on a strand that is not the one issuing. -/
def State.trapOn (s : State) (w : StrandId) (x : Trap) : State :=
  { ({ s with ir := s.refetch w }.takeTrap w x) with ir := s.ir, trapped := s.trapped }

/-- A ferry completion notice enters its lane: a strand held by uret.wait resumes, or enters the system handler when the
flip was refused (19 R348). -/
def State.noticeArrives (s : State) (core : Nat) (n : Notice) : State :=
  let w : StrandId := ⟨core, n.ctx⟩
  let t := s.strand w
  if t.request != n.request then s
  else if t.wait = .notice then
    let s1 := s.onStrand w fun t => { t with wait := .free }
    if n.refused then s1.trapOn w (trapAt 6 1 n.addr n.wr) else s1
  else if t.wait = .held then s.onStrand w fun t => { t with noticed := true }
  else s

/-- The core that now holds the sender of a message of this device. -/
def State.senderCore (s : State) (m : Message) : Nat := s.relocate m.crew (hdrSrcCore m.bits).toNat

/-- A message that its destination's landing will hand to the dispatcher. -/
def State.isLaunch (s : State) (m : Message) : Bool :=
  m.toDev.isNone && serviceOf (s.handler (s.relocate m.crew m.dest) (hdrHandler m.bits)).entry == some 0

/-- Launch messages of one sender to one die in one class, which the dispatcher takes in send order (22 R372). -/
def State.sameLaunches (s : State) (a b : Message) : Bool :=
  s.senderCore a == s.senderCore b && hdrSrcCtx a.bits == hdrSrcCtx b.bits && a.srcDev == b.srcDev &&
    hdrPrio a.bits == hdrPrio b.bits && dieOf (s.relocate a.crew a.dest) == dieOf (s.relocate b.crew b.dest) &&
    s.isLaunch a && s.isLaunch b

/-- A launch message waits in the fabric while one before it waits in a lane of another core of the die. -/
def State.launchWaits (s : State) (core : Nat) (m : Message) : Bool :=
  s.isLaunch m && s.cores.any fun e => e.1 != core && (e.2.lane (hdrPrio m.bits).toNat).any fun n => s.sameLaunches n m

/-- Deliver a message to its core: a full lane keeps it in the fabric (10 R185, R186, R195). One that was diverted while its
sender's job was off the machine goes to the dead-letter lane. -/
def State.deliverMsg (s : State) (m : Message) : Option State :=
  let core := s.relocate m.crew m.dest
  let c := s.core core
  match m.diverted, c.crew with
  | some r, _ => some (s.divert { m with diverted := none } r.toNat)
  | none, none => some (s.divert { m with dest := core } 4)
  | none, some _ =>
    let p := (hdrPrio m.bits).toNat
    if 16 ≤ (c.lane p).length ∨ s.launchWaits core m = true then none
    else
      let g := match m.bound with | some b => b.2 | none => (s.strand ⟨core, 0⟩).gen
      let m1 := { m with bits := setGen m.bits g, dest := core }
      let r := s.countMatching core m1.bits
      let s1 := if hdrHandler m1.bits = 0xFFF#12 && r.2 then r.1
        else r.1.onCore core fun c => c.setLane p (c.lane p ++ [m1])
      some (match m.notice with | some n => s1.noticeArrives core n | none => s1)

/-- The strand of a task identifier (16 R291). -/
def Crew.taskStrand (c : Crew) (task : Nat) : StrandId := ⟨(coreAt c.rows (task / 2 ^ 16)).getD 0, task / 2 ^ 12 % 16⟩

/-- Bytes of a task's wake buffer that do not stand in memory yet. -/
def Crew.unapplied (c : Crew) (e : Nat × FMap Byte) : Nat × FMap Byte :=
  (e.1, e.2.filter fun x => !(FMap.getD c.early e.1 []).contains x.1)

/-- Bytes of a task's wake buffer go to committed memory; what goes to peer devices is posted (22 R378). -/
def State.taskHome (s : State) (c : Crew) (e : Nat × FMap Byte) : State :=
  let s1 := e.2.foldl (fun s x => s.homeStore (c.cores.headD 0) x.1 x.2) s
  if c.layer.isSome then s1 else s1.postBytes (c.taskStrand e.1) c.launch e.2

/-- Bytes of wake buffers, by task, go to committed memory before the next sync point; the tasks go on to see their buffers
as before. -/
def State.applyEarly (s : State) (k : Nat) (now : FMap (FMap Byte)) : State :=
  match FMap.find s.crews k with
  | none => s
  | some c =>
    let s1 := now.foldl (fun s e => s.taskHome c e) s
    match FMap.find s1.crews k with
    | none => s1
    | some c1 => s1.setCrew k { c1 with
        early := now.foldl (fun m e => FMap.put m e.1 (FMap.getD m e.1 [] ++ e.2.map (·.1))) c1.early }

/-- The same of the bytes that a pre-empted crew's image holds, but for those of its own storage, which is off the machine with it
(19 R351). -/
def State.applySaved (s : State) (k : Nat) (v : Saved) (now : FMap (FMap Byte)) : State :=
  let out := now.map fun e => (e.1, e.2.filter fun x => !realKey x.1)
  let c := v.crew
  let c1 := out.foldl (fun c e => e.2.foldl (fun c x =>
    match c.layer with | some l => c.layerWrite l x.1 x.2 | none => c) c) c
  let s1 := if c.layer.isSome then s
    else out.foldl (fun s e =>
      (e.2.foldl (fun s x => s.homeWrite x.1 x.2) s).postBytes (c.taskStrand e.1) c.launch e.2) s
  { s1 with saved := FMap.put s1.saved k { v with crew := { c1 with
      early := out.foldl (fun m e => FMap.put m e.1 (FMap.getD m e.1 [] ++ e.2.map (·.1))) c1.early } } }

/-- The stores of a message's sender that a deterministic launch keeps in its wake buffers reach committed memory (DEDUCED,
log entry 87); those of a sender whose job is off the machine are in the job's image. -/
def State.releaseWake (s : State) (m : Message) : State :=
  let core := s.senderCore m
  match m.crew.bind fun k => (FMap.find s.saved k).map fun v => (k, v) with
  | some (k, v) =>
    match v.crew.indexOf core with
    | some i => s.applySaved k v ((v.crew.wake.filter fun e => e.1 / 2 ^ 12 == i * 16 + (hdrSrcCtx m.bits).toNat).map v.crew.unapplied)
    | none => s
  | none =>
  let task := (s.core core).index % 2 ^ 14 * 16 + (hdrSrcCtx m.bits).toNat
  match (s.core core).crew with
  | some k =>
    match FMap.find s.crews k with
    | some c => s.applyEarly k ((c.wake.filter fun e => e.1 / 2 ^ 12 == task).map c.unapplied)
    | none => s
  | none => s

/-- Send a message: in a deterministic launch it enters its lane as it is served, or waits in the fabric (16 R289); before one
to a peer device its sender's stores leave (22 R378). -/
def State.sendMsg (s : State) (m : Message) : State :=
  match m.toDev with
  | some _ => (if s.coreDet (s.senderCore m) then s.releaseWake m else s).dispatchMsg m
  | none =>
    if (match m.crew.bind (FMap.find s.crews) with | some c => c.det | none => false) then
      if s.transit.any fun n => (n.toDev.isNone && n.dest == m.dest && hdrPrio n.bits == hdrPrio m.bits) || s.sameLaunches n m
      then s.dispatchMsg m
      else (s.deliverMsg m).getD (s.dispatchMsg m)
    else s.dispatchMsg m

/-- Post a device message to a core's landing, on behalf of a strand (10 R185). -/
def State.postLanding (s : State) (w : StrandId) (core : Nat) (hdr : Word) (args : List Byte) (n : Option Notice) : State :=
  s.sendMsg ⟨messageBits w hdr args, none, core, none, none, (s.core w.core).crew, n, none, 0⟩

/-- Post a device message to a strand descriptor that a record or an argument names (10 R185); whoever takes it acquires at
no less than a scope. -/
def State.postTo (s : State) (w : StrandId) (desc hdr : Word) (args : List Byte) (scope : Nat) : State :=
  s.sendMsg { s.address w desc (messageBits w hdr args) with scope := scope }

/-- Post one to what a job's strand named: while the job is off the machine it waits with the job's image (19 R354). -/
def State.postFor (s : State) (crew : Option Nat) (w : StrandId) (desc hdr : Word) (args : List Byte) (scope : Nat) : State :=
  match crew with
  | none => s.postTo w desc hdr args scope
  | some k =>
    match FMap.find s.saved k with
    | none => s.postTo w desc hdr args scope
    | some v =>
      let m := { s.address w desc (messageBits w hdr args) with crew := some k, scope := scope }
      { s with saved := FMap.put s.saved k { v with transit := v.transit ++ [m] } }

/-! ### Helpers (10 R181, R187, R188) -/

/-- The breakpoints and watchpoints that a strand of a core gets when it becomes live (20 R358). -/
def State.debugRegs (s : State) (core : Nat) : Vector Word 4 × Vector Word 2 :=
  match s.crewOf core with
  | some c =>
    match c.debugger, FMap.find s.streams c.stream with
    | true, some st => (st.ib, st.dw)
    | _, _ => (Vector.replicate 4 0, Vector.replicate 2 0)
  | none => (Vector.replicate 4 0, Vector.replicate 2 0)

/-- A strand that becomes live in a context, at user level: the generation of its slot rises (10 R181, R188); in a held crew
it is held (20 R357). -/
def State.newStrand (s : State) (w : StrandId) (pc : Word) : Strand :=
  let old := s.strand w
  let dbg := s.debugRegs w.core
  let c := s.crewOf w.core
  { Strand.reset with
    live := true
    gen := old.gen + 1
    pc := pc
    pl := 0
    det := match c with | some c => c.det | none => false
    seed := match c with | some c => c.seed | none => 0
    starts := old.starts + 1
    ib := dbg.1
    dw := dbg.2
    halted := match c with | some c => c.held | none => false }

/-- The runs of vector registers granted to live helpers. -/
def State.grants (s : State) (core : Nat) : List (Nat × Nat) :=
  (List.range 10).filterMap fun i =>
    let t := s.strand ⟨core, i + 1⟩
    if t.live then some (t.vbase, t.vcount) else none

/-- The highest-numbered free run of `n` registers (10 R187); an empty run needs none. -/
def freeRun (grants : List (Nat × Nat)) (n : Nat) : Option Nat :=
  if n = 0 then some 0
  else
    ((List.range (31 - n)).reverse).find? fun b =>
      grants.all fun g => decide (b + n ≤ g.1) || decide (g.1 + g.2 ≤ b)

/-- The lowest free helper context. -/
def State.freeContext (s : State) (core : Nat) : Option Nat :=
  ((List.range 10).map (· + 1)).find? fun c => !(s.strand ⟨core, c⟩).live

/-- Start a helper if a context and a run are free; the descriptor of the helper (10 R187, R188). Bit 0 of its entry address is
taken as zero (DESIGN CHOICE, log entry 105: 07 R150 and 10 R184, R188 do not say what a set one does). -/
def State.startHelper (s : State) (core : Nat) (entry : Word) (vregs : Nat) (cls : BitVec 2) (s1 : Word) (msg : MsgBits) :
    Option (State × Word) :=
  match s.freeContext core, freeRun (s.grants core) vregs with
  | some ctx, some base =>
    let w : StrandId := ⟨core, ctx⟩
    let t := { s.newStrand w (entry &&& ~~~(1 : Word)) with cls := cls, vbase := base, vcount := vregs, msg := msg }
    let s1' := s.setStrand w t
    let d := s1'.boundDesc w
    some (s1'.setStrand w ((t.putS 1 s1).putS 2 d), d)
  | _, _ => none

/-! ### Handler start (10 R187, 22 R370) -/

/-- The scope at which a message is acquired at a core: that of its sender, beyond the device from a peer, and no less than
the message asks for. -/
def State.scopeTo (s : State) (m : Message) (core : Nat) : Nat :=
  max m.scope (if m.srcDev.isSome then 4 else scopeBetween (s.senderCore m) core)

/-- The acquire effect of a handler start or a take; none between the tasks of a deterministic launch (16 R292). -/
def State.acquireFor (s : State) (core : Nat) (m : Message) : State :=
  if s.coreDet core then s else s.acquire core (s.scopeTo m core)

/-- A lane's candidate: its oldest message whose handler is not 0xFFF, and where it stands. -/
def candidate (l : List Message) : Option (Nat × Message) :=
  match l.findIdx? fun m => hdrHandler m.bits != 0xFFF#12 with
  | some i => (l[i]?).map fun m => (i, m)
  | none => none

/-- The candidate of the highest lane that has one. -/
def Core.topCandidate (c : Core) : Option (Nat × Nat × Message) :=
  [3, 2, 1, 0].findSome? fun p => (candidate (c.lane p)).map fun e => (p, e.1, e.2)

/-- Put a lane of a service landing. -/
def setLane4 (v : Vector (List Message) 4) (p : Nat) (l : List Message) : Vector (List Message) 4 :=
  if h : p < 4 then v.set p l h else v

/-- A posted write of a message's sender is not yet acknowledged (22 R378). -/
def State.senderPosted (s : State) (m : Message) : Bool :=
  s.posted.any fun p => p.who == ⟨s.senderCore m, (hdrSrcCtx m.bits).toNat⟩

/-- A message's sender is of a deterministic launch, on the machine or off it. -/
def State.senderDet (s : State) (m : Message) : Bool :=
  match m.crew.bind (FMap.find s.saved) with
  | some v => v.crew.det
  | none => s.coreDet (s.senderCore m)

/-- The release of a message's sender at system scope, before a service reads what the message names (22 R370); a job that left the
machine has released as it left (19 R350). -/
def State.releaseSender (s : State) (m : Message) : State :=
  if m.srcDev.isSome then s
  else if s.senderDet m then s.releaseWake m
  else if (m.crew.bind (FMap.find s.saved)).isSome then s
  else s.writeBack (clusterOf (s.senderCore m))

/-- Hand a message whose sender has released to a service of the die; none while the lane that it needs is full, or while
posted writes of its sender are not acknowledged (22 R370, R378). -/
def State.handOver (s : State) (die svc p : Nat) (m : Message) : Option State :=
  let d := s.die die
  let l := (if svc = 0 then d.launches else d.collectives)[p]?.getD []
  if 16 ≤ l.length ∨ (m.srcDev.isNone && s.senderPosted m) = true then none
  else
    let l1 := l ++ [m]
    some (if svc = 0 then s.setDie die { d with launches := setLane4 d.launches p l1 }
      else s.setDie die { d with collectives := setLane4 d.collectives p l1 })

/-- One start of a core's landing: stale and unserved candidates are diverted until one starts, is handed over, or must
wait; also whether one started, or its sender's release has begun. -/
def State.landing (s0 : State) (core : Nat) : Nat → State × Bool
  | 0 => (s0, false)
  | n + 1 =>
    match (s0.core core).topCandidate with
    | none => (s0, false)
    | some (p, i, m) =>
      let s := if s0.stale core m then s0 else s0.handlerRead core (hdrHandler m.bits)
      let c := s.core core
      let taken := s.setCore core (c.setLane p ((c.lane p).eraseIdx i))
      if s.stale core m then (taken.divert m (staleReason m)).landing core n
      else
        let h := s.handler core (hdrHandler m.bits)
        if h.entry = 0 then (taken.divert m 2).landing core n
        else
          match serviceOf h.entry with
          | some svc =>
            let s1 := s.releaseSender m
            match (s1.setCore core (c.setLane p ((c.lane p).eraseIdx i))).handOver (dieOf core) svc p m with
            | some s2 => (s2, true)
            | none => (s1, decide (s.posted.length < s1.posted.length))
          | none =>
            match taken.startHelper core h.entry h.vregs (hdrPrio m.bits) (m.bits.setWidth 64) m.bits with
            | some r => (r.1.acquireFor core m, true)
            | none => (s, false)

/-- The messages that wait in a core's lanes. -/
def Core.waiting (c : Core) : Nat := (c.lanes.toList.map List.length).sum

/-- A core of a held crew, or of one that is being pre-empted, starts no handler (20 R357, 19 R350). -/
def State.heldCore (s : State) (core : Nat) : Bool :=
  match s.crewOf core with
  | some c => c.held || c.stopping
  | none => false

/-- The landing of a core acts once (10 R187). -/
def State.landingStep (s : State) (core : Nat) : State × Bool :=
  if s.heldCore core then (s, false) else s.landing core ((s.core core).waiting + 1)

end Sys2Proof.Machine
end

