-- ==== Sys2Proof/Machine/Law.lean ====
section
/-!
DEFINITION. Timed words (06): the word, laws and their ladders, advancing, thresholds, the evaluation that every timed
access begins with, crossing messages, and an access performed at the word's site.
-/
namespace Sys2Proof.Machine
open Sys2Proof

/-! ### The word (06 R114) -/

structure TWord where
  x : BitVec 32
  y : BitVec 32
  stamp : BitVec 48
  law : BitVec 8
  armed : Bool
  fired : Bool
  sat : Bool
deriving DecidableEq, Repr

/-- The fields of 16 stored bytes. -/
def TWord.ofNat (v : Nat) : TWord :=
  let b := BitVec.ofNat 128 v
  ⟨b.extractLsb' 0 32, b.extractLsb' 32 32, b.extractLsb' 64 48, b.extractLsb' 112 8, b.getLsbD 120, b.getLsbD 121,
    b.getLsbD 122⟩

/-- The 16 bytes as timed instructions write them: reserved bits are zero. -/
def TWord.toNat (w : TWord) : Nat :=
  w.x.toNat + w.y.toNat * 2 ^ 32 + w.stamp.toNat * 2 ^ 64 + w.law.toNat * 2 ^ 112 + w.armed.toNat * 2 ^ 120 +
    w.fired.toNat * 2 ^ 121 + w.sat.toNat * 2 ^ 122

/-! ### Laws (06 R118, R119) -/

def Law.kind (l : Law) : BitVec 2 := l.ctl.extractLsb' 0 2
def Law.logical (l : Law) : Bool := l.ctl.getLsbD 3
def Law.rising (l : Law) : Bool := l.ctl.getLsbD 4
def Law.prio (l : Law) : BitVec 2 := l.ctl.extractLsb' 8 2
def Law.handler (l : Law) : BitVec 12 := l.ctl.extractLsb' 32 12
def Law.tag (l : Law) : BitVec 16 := l.ctl.extractLsb' 48 16

def lowNat (x : Word) : Nat := (x.setWidth 32).toNat
def highNat (x : Word) : Nat := (x.extractLsb' 32 32).toNat

/-- Square of a Q0.32 factor. -/
def lSq (f : Nat) : Nat := (rneShift ((f : Int) * f) 32).toNat
/-- Square of a complex Q1.30 factor, each part clamped alone, and whether a part was. -/
def cSq (r i : Nat) : Nat × Nat × Bool :=
  let a := clamp32 (rneShift (signExt r 32 ^ 2 - signExt i 32 ^ 2) 30)
  let b := clamp32 (rneShift (2 * signExt r 32 * signExt i 32) 30)
  (a.1, b.1, a.2 || b.2)

/-- The next rung of a ladder, and whether a part was clamped. -/
def nextRung (kind : BitVec 2) (f : Word) : Word × Bool :=
  if kind = 1#2 then (BitVec.ofNat 64 (lSq (lowNat f)), false)
  else if kind = 3#2 then
    let c := cSq (lowNat f) (highNat f)
    (BitVec.ofNat 64 (c.1 + c.2.1 * 2 ^ 32), c.2.2)
  else (0, false)

/-- The ladder from a rung up, and the number of rungs after it that were clamped (06 R119, R134). -/
def ladderFrom (kind : BitVec 2) : Nat → Word → List Word × Nat
  | 0, f => ([f], 0)
  | n + 1, f =>
    let r := nextRung kind f
    let rest := ladderFrom kind n r.1
    (f :: rest.1, rest.2 + r.2.toNat)

/-- Doubleword `n` of a law's entry (06 R118). -/
def Law.entry (l : Law) (n : Nat) : Word :=
  if n = 0 then l.ctl
  else if n = 1 then l.factor
  else if n = 2 then l.threshold
  else if 8 ≤ n ∧ n ≤ 55 then l.ladder.getD (n - 8) 0
  else 0

/-- A law descriptor that R134 refuses. -/
def lawBad (d0 d1 d2 d3 : Word) : Bool :=
  let kind := d0.extractLsb' 0 2
  let reserved := d0.extractLsb' 44 4 != 0#4 || d0.extractLsb' 10 22 != 0#22 || d0.extractLsb' 5 3 != 0#3 || d0.getLsbD 2
  reserved || d3 != 0 || ((kind == 0#2 || kind == 2#2) && d1 != 0) || (kind == 1#2 && highNat d1 != 0) ||
    (kind != 3#2 && highNat d2 != 0)

/-! ### Advancing (06 R121) -/

/-- Walk the set bits of Δ from low to high under leak. -/
def leakWalk (ladder : List Word) (dt : Nat) : Nat → Nat → Nat
  | 0, x => x
  | n + 1, x =>
    let x1 := leakWalk ladder dt n x
    if dt / 2 ^ n % 2 = 1 then (mulQ x1 (lowNat (ladder.getD n 0)) 32).1 else x1

/-- Walk the set bits of Δ from low to high under oscillate. -/
def turnWalk (ladder : List Word) (dt : Nat) : Nat → Nat × Nat × Bool → Nat × Nat × Bool
  | 0, p => p
  | n + 1, p =>
    let q := turnWalk ladder dt n p
    if dt / 2 ^ n % 2 = 1 then
      let f := ladder.getD n 0
      let r := cMulQ q.1 q.2.1 (lowNat f) (highNat f)
      (r.1, r.2.1, q.2.2 || r.2.2)
    else q

/-- Advance a value pair by Δ ticks; the indicator says whether a value was clamped. -/
def Law.advance (l : Law) (x y dt : Nat) : Nat × Nat × Bool :=
  if l.kind = 1#2 then (leakWalk l.ladder dt 48 x, y, false)
  else if l.kind = 2#2 then
    let c := clamp32 (signExt x 32 + signExt y 32 * dt)
    (c.1, y, c.2)
  else if l.kind = 3#2 then turnWalk l.ladder dt 48 (x, y, false)
  else (x, y, false)

/-- The threshold is met by a value pair (06 R123). -/
def Law.met (l : Law) (x y : Nat) : Bool :=
  if l.kind = 3#2 then
    let a := signExt x 32 ^ 2 + signExt y 32 ^ 2
    if l.rising then decide ((l.threshold.toNat : Int) ≤ a) else decide (a < (l.threshold.toNat : Int))
  else
    let t := signExt (lowNat l.threshold) 32
    if l.rising then decide (t ≤ signExt x 32) else decide (signExt x 32 < t)

/-! ### Evaluation (06 R124) -/

/-- The last offset below Δ that the search finds with the threshold not met. -/
def Law.search (l : Law) (x y dt : Nat) : Nat → Nat → Nat
  | 0, c => c
  | n + 1, c =>
    let o := c + 2 ^ n
    let v := l.advance x y o
    l.search x y dt n (if o < dt ∧ l.met v.1 v.2.1 = false then o else c)

/-- What Eval finds: the values and indicator at now, whether a crossing was found, its tick (else now) and values. -/
structure Found where
  x : Nat
  y : Nat
  sat : Bool
  hit : Bool
  tick : BitVec 48
  xc : Nat
  yc : Nat
deriving DecidableEq, Repr

def evalWord (w : TWord) (l : Law) (now : BitVec 48) : Found :=
  let dt := (now - w.stamp).toNat
  let v := l.advance w.x.toNat w.y.toNat dt
  let sat := w.sat || v.2.2
  if w.armed && !l.met w.x.toNat w.y.toNat && l.met v.1 v.2.1 then
    let c := l.search w.x.toNat w.y.toNat dt 48 0
    let k := l.advance w.x.toNat w.y.toNat (c + 1)
    ⟨v.1, v.2.1, sat, true, w.stamp + BitVec.ofNat 48 (c + 1), k.1, k.2.1⟩
  else ⟨v.1, v.2.1, sat, false, now, 0, 0⟩

/-- The flags as Eval leaves them in the word. -/
def TWord.afterEval (w : TWord) (e : Found) : TWord := if e.hit then { w with armed := false, fired := true } else w

/-- A status value (06 R129). -/
def statusWord (tick : BitVec 48) (law : BitVec 8) (hit sat fired armed : Bool) : Word :=
  tick ++ law ++ 0#4 ++ BitVec.ofBool hit ++ BitVec.ofBool sat ++ BitVec.ofBool fired ++ BitVec.ofBool armed

/-- A value pair as an s register holds it (06 R130). -/
def pairWord (x y : Nat) : Word := BitVec.ofNat 64 (x % 2 ^ 32 + y % 2 ^ 32 * 2 ^ 32)

/-- The word that an operation writes behind Eval, and the sat value of its status (06 R130 to R132). -/
def TimedOp.write (op : TimedOp) (w : TWord) (e : Found) (now : BitVec 48) : TWord × Bool :=
  let w1 := w.afterEval e
  match op with
  | .read => (w1, e.sat)
  | .set v law => ({ w1 with
      x := v.setWidth 32, y := v.extractLsb' 32 32, law := law.getD w1.law, sat := false, stamp := now }, false)
  | .add v =>
    let a := clamp32 (signExt e.x 32 + signExt (lowNat v) 32)
    let b := clamp32 (signExt e.y 32 + signExt (highNat v) 32)
    let sat := e.sat || a.2 || b.2
    ({ w1 with x := BitVec.ofNat 32 a.1, y := BitVec.ofNat 32 b.1, sat := sat, stamp := now }, sat)
  | .touch => ({ w1 with x := BitVec.ofNat 32 e.x, y := BitVec.ofNat 32 e.y, sat := e.sat, stamp := now }, e.sat)
  | .arm => ({ w1 with
      x := BitVec.ofNat 32 e.x, y := BitVec.ofNat 32 e.y, sat := e.sat, stamp := now, armed := true, fired := false }, e.sat)
  | .clear m =>
    let w2 := { w1 with
      fired := w1.fired && !m.getLsbD 0, sat := w1.sat && !m.getLsbD 1, armed := w1.armed && !m.getLsbD 2 }
    (w2, w2.sat)

/-! ### Crossing messages (06 R126) -/

/-- A place at which timed accesses are performed (06 R127). -/
def Loc.timedSite : Loc → Bool
  | .dev _ | .store .. | .pad .. => true
  | .rep _ | .host _ | .peer .. => false

/-- The core that now holds the crew core index which registered a region, while its job is on the machine (19 R354). -/
def State.regionCore (s : State) (r : Region) : Option Nat := (FMap.find s.crews r.crew).bind fun c => coreAt c.rows r.index

/-- A word lies in a registered region: by its address in the region's address space, or in window space by the storage
that the registering core's window reaches (06 R136). -/
def State.inRegion (s : State) (root : Option Word) (va : Word) (l : Loc) (r : Region) : Bool :=
  if va.toNat < Config.windowBase then
    some r.root == root && decide (r.base ≤ va.toNat) && decide (va.toNat < r.base + r.len)
  else if r.base < Config.windowBase then false
  else
    match s.regionCore r with
    | none => false
    | some c =>
      (List.range (r.len / 16)).any fun i =>
        match s.window c (r.base + 16 * i - Config.windowBase) with
        | .place p => p.key == l.key
        | _ => false

/-- The owner core of a word: its local store's, else its region's, else the issuer (06 R126). -/
def State.ownerCore (s : State) (w : StrandId) (va : Word) (l : Loc) : Nat :=
  match l with
  | .store c _ _ => c
  | _ =>
    match s.regions.find? (s.inRegion (s.agent w).root va l) with
    | some r => (r.owner.map (s.relocate (some r.crew))).getD w.core
    | none => w.core

/-- The argument bytes of a crossing message. -/
def crossingArgs (va : Word) (law : BitVec 8) (lane : Nat) (e : Found) (now : BitVec 48) : List Byte :=
  natBytes va.toNat 8 ++ natBytes e.tick.toNat 6 ++ [law] ++ natBytes lane 1 ++ natBytes e.xc 4 ++ natBytes e.yc 4 ++
    natBytes e.x 4 ++ natBytes e.y 4 ++ natBytes now.toNat 6

/-- The crossing message of a word, on behalf of a strand. -/
def State.crossing (s : State) (w : StrandId) (va : Word) (l : Loc) (law : Law) (idx : BitVec 8) (lane : Nat) (e : Found)
    (now : BitVec 48) : Message where
  bits := messageBits w (deviceHeader law.prio.toNat 56 law.tag law.handler) (crossingArgs va idx lane e now)
  bound := none
  dest := s.ownerCore w va l
  toDev := none
  srcDev := none
  crew := (s.core w.core).crew
  notice := none
  diverted := none
  scope := 0

/-- Post the crossing message that an evaluation asks for (06 R125). -/
def State.postCrossing (s : State) (w : StrandId) (va : Word) (l : Loc) (law : Law) (idx : BitVec 8) (lane : Nat)
    (e : Found) (now : BitVec 48) : State :=
  if e.hit && law.handler != 0xFFF#12 then s.sendMsg (s.crossing w va l law idx lane e now) else s

/-! ### An access at the site -/

/-- Perform a timed access at its site, in one atomic step: the state, the values at now, and the status (06 R124 to R132).
Device memory is performed at its home, past the cluster cache (06 R127, 13 R231). -/
def State.timedAt (s0 : State) (w : StrandId) (op : TimedOp) (va : Word) (l : Loc) (now : BitVec 48) (lane : Nat) :
    State × Word × Word :=
  let s2 := s0.toHome w.core l 16
  let w0 := TWord.ofNat (s2.homeNat w.core l 16)
  let law := s2.lawAt l w0.law.toNat
  let s := s2.useLaw l w0.law.toNat
  let e := evalWord w0 law now
  let r := op.write w0 e now
  let s1 := if op = .read ∧ e.hit = false then s else s.homePut w.core l r.1.toNat 16
  (s1.postCrossing w va l law w0.law lane e now, pairWord e.x e.y,
    statusWord e.tick r.1.law e.hit r.2 r.1.fired r.1.armed)

/-- The status of a word out of range: zeros under the hold law, its writes dropped (06 R128). -/
def outStatus (now : BitVec 48) : Word := statusWord now 0 false false false false

/-- The present of a strand: its logical tide in a deterministic launch, else the wall tide (06 R117). -/
def State.nowOf (s : State) (w : StrandId) : BitVec 48 :=
  if (s.strand w).det then
    match s.crewOf w.core with
    | some c => c.tide
    | none => 0
  else s.wallTide.setWidth 48

end Sys2Proof.Machine
end

