-- ==== Sys2Proof/Machine/Ring.lean ====
section
/-!
DEFINITION. Circular-buffer units (13 R235, R236, 15 R276): their state, and the four operations on their slots.
-/
namespace Sys2Proof.Machine
open Sys2Proof

/-- A unit's state as instructions read it (13 R235). -/
def Ring.word (r : Ring) : Word :=
  BitVec.ofNat 64 (r.filled * 2 ^ 55 + r.free * 2 ^ 46 + r.head * 2 ^ 38 + r.tail * 2 ^ 30 + r.cnt * 2 ^ 22 + r.ssz * 2 ^ 16 +
    2 ^ 15 + r.base)

/-- A unit that a crew initialises (15 R276). -/
def Ring.init (crew cnt ssz base : Nat) : Ring := ⟨crew, 0, cnt + 1, 0, 0, cnt, ssz, base, 0, 0, [], []⟩

/-- The cluster-wide scratchpad offset of a slot, and the bytes of a slot. -/
def Ring.slotBytes (r : Ring) : Nat := (r.ssz + 1) * 64
def Ring.slotAt (r : Ring) (n : Nat) : Nat := r.base * 64 + n * r.slotBytes

/-- The scratchpad-window address of a slot for a core of the cluster. -/
def Ring.slotAddr (r : Ring) (x : Core) (n : Nat) : Word :=
  BitVec.ofNat 64 (Config.windowBase + 0x200000 + (r.slotAt n - x.spBase.toNat * 4096))

/-- The bytes of a ring lie within a core's grant. -/
def ringFits (x : Core) (cnt ssz base : Nat) : Bool :=
  let lo := x.spBase.toNat * 4096
  decide (lo ≤ base * 64) && decide (base * 64 + (cnt + 1) * (ssz + 1) * 64 ≤ min (lo + min x.spLen.toNat 256 * 4096) 0x100000)

/-- The unit of a core's cluster, if it is valid for the core's crew and within its grant (15 R262 code 6, R276). -/
def State.ring (s : State) (core u : Nat) : Option Ring :=
  match FMap.find (s.cluster (clusterOf core)).rings u with
  | none => none
  | some r =>
    if (s.core core).crew = some r.crew ∧ ringFits (s.core core) r.cnt r.ssz r.base then some r else none

/-- The unit of a core's cluster as its crew's requests, which were checked as they issued, find it when they are served (16 R288). -/
def State.crewRing (s : State) (core u : Nat) : Option Ring :=
  match FMap.find (s.cluster (clusterOf core)).rings u with
  | none => none
  | some r => if (s.core core).crew = some r.crew then some r else none

def State.putRing (s : State) (core u : Nat) (r : Ring) : State :=
  let c := s.cluster (clusterOf core)
  s.setCluster (clusterOf core) { c with rings := FMap.put c.rings u r }

def Ring.step (r : Ring) (n : Nat) : Nat := (n + 1) % (r.cnt + 1)
def Ring.back (r : Ring) (n k : Nat) : Nat := (n + (r.cnt + 1) - k) % (r.cnt + 1)

/-- The slot of the oldest reservation, and of the oldest take. -/
def Ring.oldestReserved (r : Ring) : Nat := r.back r.tail r.reserved
def Ring.oldestTaken (r : Ring) : Nat := r.back r.head r.taken

/-- A slot stands in the run of `k` slots from `first` on. -/
def Ring.within (r : Ring) (first k n : Nat) : Bool := decide (n ≤ r.cnt) && decide (r.back n first < k)

/-- A slot that is reserved and not committed; one that is taken and not released. -/
def Ring.isReserved (r : Ring) (n : Nat) : Bool := r.within r.oldestReserved r.reserved n && !r.committed.contains n
def Ring.isTaken (r : Ring) (n : Nat) : Bool := r.within r.oldestTaken r.taken n && !r.released.contains n

/-- Reserve a slot: none while no slot is free. -/
def Ring.reserve (r : Ring) : Option (Ring × Nat) :=
  if r.free = 0 then none else some ({ r with free := r.free - 1, tail := r.step r.tail, reserved := r.reserved + 1 }, r.tail)

/-- Take a slot: none while no slot is filled. -/
def Ring.take (r : Ring) : Option (Ring × Nat) :=
  if r.filled = 0 then none else some ({ r with filled := r.filled - 1, head := r.step r.head, taken := r.taken + 1 }, r.head)

/-- Committed slots become filled from the oldest reserved on. -/
def Ring.fillUp (r : Ring) : Nat → Ring
  | 0 => r
  | n + 1 =>
    if r.reserved ≠ 0 ∧ r.committed.contains r.oldestReserved then
      { r with
        filled := r.filled + 1
        reserved := r.reserved - 1
        committed := r.committed.filter (· != r.oldestReserved) }.fillUp n
    else r

/-- Released slots become free from the oldest taken on. -/
def Ring.freeUp (r : Ring) : Nat → Ring
  | 0 => r
  | n + 1 =>
    if r.taken ≠ 0 ∧ r.released.contains r.oldestTaken then
      { r with free := r.free + 1, taken := r.taken - 1, released := r.released.filter (· != r.oldestTaken) }.freeUp n
    else r

/-- Commit a reserved slot, and release a taken one. -/
def Ring.commit (r : Ring) (n : Nat) : Ring := { r with committed := n :: r.committed }.fillUp (r.cnt + 1)
def Ring.release (r : Ring) (n : Nat) : Ring := { r with released := n :: r.released }.freeUp (r.cnt + 1)

/-- The same as a request is served: a slot that an earlier request of the quantum has committed or released already stays so
(DESIGN CHOICE, log entry 122: 15 R276 and 16 R288 do not say what a second one does). -/
def Ring.commitOnce (r : Ring) (n : Nat) : Ring := if r.isReserved n then r.commit n else r
def Ring.releaseOnce (r : Ring) (n : Nat) : Ring := if r.isTaken n then r.release n else r

/-- The slot that starts at a scratchpad-window address of a core. -/
def State.slotOf (s : State) (core : Nat) (r : Ring) (va : Word) : Option Nat :=
  match s.ownPlace core va 1 with
  | some (.pad _ b) =>
    let o := b - r.base * 64
    if r.base * 64 ≤ b ∧ o % r.slotBytes = 0 ∧ o / r.slotBytes ≤ r.cnt then some (o / r.slotBytes) else none
  | _ => none

end Sys2Proof.Machine
end

