-- ==== Sys2Proof/Machine/Engine.lean ====
section
/-!
DEFINITION. The engines of a core (15): the elements of a transfer and their checks, footprints and their order (14 R255,
15 R279), completion (15 R261), the dredge of a list entry (17 R326), and the steps of register streams (15 R275).
-/
namespace Sys2Proof.Machine
open Sys2Proof

/-- What an engine's work ends in: a result, a failure (class, code, address), or nothing, when it must wait. -/
abbrev Try := Except (Option (Nat × Nat × Word))

/-! ### Patterns -/

/-- The number of elements of a pattern of extents and strides. -/
def patternCount (dims : List (Nat × Int)) : Nat := dims.foldl (fun n d => n * d.1) 1

/-- The byte offset of element `e` of a pattern, dimension 0 fastest (15 R268). -/
def patternOff : List (Nat × Int) → Nat → Int
  | [], _ => 0
  | d :: rest, e => ((e % d.1 : Nat) : Int) * d.2 + patternOff rest (e / d.1)

/-- An address with a signed offset, modulo 2^64. -/
def offAddr (base : Word) (o : Int) : Word := base + BitVec.ofInt 64 o

/-- The lowest and the highest byte offset of a pattern of `w`-byte elements. -/
def patternSpan (dims : List (Nat × Int)) (w : Nat) : Int × Int :=
  (dims.foldl (fun n d => n + min 0 (((d.1 - 1 : Nat) : Int) * d.2)) 0,
    dims.foldl (fun n d => n + max 0 (((d.1 - 1 : Nat) : Int) * d.2)) 0 + w - 1)

/-! ### Footprints (15 R279) -/

/-- The storage that a range of addresses names, as ranges of numbers: translated addresses as they are, window addresses
as the bytes that they reach. -/
def State.spanKeys (s : State) (core lo hi : Nat) : List (Nat × Nat) :=
  let low := if lo < Config.windowBase then [(lo, min hi (Config.windowBase - 1))] else []
  if hi < Config.windowBase then low
  else
    let a := lo - Config.windowBase
    let b := hi - Config.windowBase
    let own := if a < 0x4000 then [((Loc.store core a true).key, (Loc.store core (min b 0x3FFF) true).key)] else []
    let x := s.core core
    let pad := if a < 0x400000 ∧ 0x200000 ≤ b then
        let p := max a 0x200000 - 0x200000 + x.spBase.toNat * 4096
        let q := min b 0x3FFFFF - 0x200000 + x.spBase.toNat * 4096
        [((Loc.pad (clusterOf core) p).key, (Loc.pad (clusterOf core) q).key)]
      else []
    let peers := (List.range 32).filterMap fun i =>
      let l := 0x400000 + i * 0x10000
      if a < l + 0x4000 ∧ l ≤ b then
        let c := s.peerCore core i
        some ((Loc.store c (max a l - l) false).key, (Loc.store c (min b (l + 0x3FFF) - l) false).key)
      else none
    low ++ own ++ pad ++ peers

/-- The storage of a pattern; nothing when it has no element. -/
def State.patternKeys (s : State) (core : Nat) (base : Word) (dims : List (Nat × Int)) (w : Nat) : List (Nat × Nat) :=
  if patternCount dims = 0 then []
  else
    let p := patternSpan dims w
    s.spanKeys core ((base.toNat : Int) + p.1).toNat ((base.toNat : Int) + p.2).toNat

def State.rangeKeys (s : State) (core : Nat) (va : Word) (n : Nat) : List (Nat × Nat) :=
  if n = 0 then [] else s.spanKeys core va.toNat (va.toNat + n - 1)

/-- The storage of declared entries with one of the flags (63 write, 62 read). -/
def State.entryKeys (s : State) (core bit : Nat) (foot : List (Word × Word)) : List (Nat × Nat) :=
  (foot.filter fun e => e.1.getLsbD bit).flatMap fun e => s.rangeKeys core (e.1 &&& 0xFFFFFFFFFFFFF) e.2.toNat

/-- The fields of cp.deal (13 R237). -/
structure Deal where
  mask : BitVec 32
  lbase : Nat
  blk : Nat
  first : Nat
deriving DecidableEq, Repr

def Deal.of (d : Word) : Deal :=
  ⟨d.extractLsb' 32 32, (d.extractLsb' 16 10).toNat * 16, ((d.extractLsb' 8 6).toNat + 1) * 64, (d.extractLsb' 0 5).toNat⟩

def Deal.bits (d : Deal) : List Nat := (List.range 32).filter d.mask.getLsbD

/-- The recipient and local-store offset of byte `p` of a dealt stream. -/
def State.dealTo (s : State) (core : Nat) (d : Deal) (p : Nat) : Nat × Nat :=
  let m := d.bits.length
  let j := d.first + p / d.blk
  (s.peerCore core (d.bits.getD (j % m) 0), d.lbase + j / m * d.blk + p % d.blk)

/-- The pixels of a convolution gather: the source of element (j, e), if it lies in the image (15 R271). -/
def Conv.srcOf (c : Conv) (j e : Nat) : Option Word :=
  let q := c.q0 + j
  let n := q / c.wout
  let col : Int := ((q % c.wout * c.sw : Nat) : Int) + c.kw - c.pad
  if c.nimg ≤ n ∨ col < 0 ∨ (c.win : Int) ≤ col then none
  else some (offAddr c.src ((n : Int) * c.s2 + col * c.s1 + ((c.group * c.g + e : Nat) : Int) * c.s0))

def Conv.dstOf (c : Conv) (j e : Nat) : Word := offAddr c.dst ((j : Int) * c.d1 + (e : Int) * c.d0)

/-- The rows whose image lies past the batch (15 R271). -/
def Conv.short (c : Conv) : Nat := ((List.range c.run).filter fun j => decide (c.nimg ≤ (c.q0 + j) / c.wout)).length

/-- The lowest and highest byte of listed element addresses. -/
def spanOf (as : List Word) (w : Nat) : Option (Nat × Nat) :=
  match (as.map BitVec.toNat).min?, (as.map BitVec.toNat).max? with
  | some a, some b => some (a, b + w - 1)
  | _, _ => none

/-- The read ranges of a transfer. -/
def State.readsOf (s : State) (core : Nat) : Work → List (Nat × Nat)
  | .copy w src _ sd _ => s.patternKeys core src sd w
  | .deal w src sd _ => s.patternKeys core src sd w
  | .ring w src sd _ => s.patternKeys core src sd w
  | .conv c =>
    match spanOf ((List.range c.run).flatMap fun j => [c.srcOf j 0, c.srcOf j (c.g - 1)].filterMap id) c.w with
    | some (a, b) => s.spanKeys core a b
    | none => []
  | .gather put size target tbase buf list idx =>
    s.rangeKeys core list (4 * idx.length) ++
    if put then s.rangeKeys core buf (size * idx.length)
    else [((Loc.store (s.relocate (s.core core).crew target) tbase false).key,
      (Loc.store (s.relocate (s.core core).crew target) 0x3FFF false).key)]
  | .block src _ len => s.rangeKeys core src len
  | .order foot => s.entryKeys core 62 foot
  | .bytes src _ len => s.rangeKeys core src len
  | .fill .. => []
  | .dredge c => s.entryKeys core 62 c.foot

/-- The write ranges of a transfer. -/
def State.writesOf (s : State) (core : Nat) : Work → List (Nat × Nat)
  | .copy w _ dst _ dd => s.patternKeys core dst dd w
  | .deal w _ sd deal =>
    let n := patternCount sd * w
    let d := Deal.of deal
    if n = 0 ∨ d.bits.isEmpty then []
    else
      (List.range d.bits.length).filterMap fun r =>
        let js := (List.range ((n + d.blk - 1) / d.blk)).filter fun j => (d.first + j) % d.bits.length == r
        match js.head?, js.getLast? with
        | some a, some b =>
          let x := s.dealTo core d (a * d.blk)
          let y := s.dealTo core d (min (b * d.blk + d.blk - 1) (n - 1))
          some ((Loc.store x.1 x.2 false).key, (Loc.store y.1 y.2 false).key)
        | _, _ => none
  | .ring _ _ _ u =>
    match FMap.find (s.cluster (clusterOf core)).rings u with
    | some r => [((Loc.pad (clusterOf core) (r.base * 64)).key,
        (Loc.pad (clusterOf core) (r.base * 64 + (r.cnt + 1) * r.slotBytes - 1)).key)]
    | none => []
  | .conv c =>
    match spanOf [c.dstOf 0 0, c.dstOf 0 (c.g - 1), c.dstOf (c.run - 1) 0, c.dstOf (c.run - 1) (c.g - 1)] c.w with
    | some (a, b) => s.spanKeys core a b
    | none => []
  | .gather put size target tbase buf _ idx =>
    if put then [((Loc.store (s.relocate (s.core core).crew target) tbase false).key,
      (Loc.store (s.relocate (s.core core).crew target) 0x3FFF false).key)]
    else s.rangeKeys core buf (size * idx.length)
  | .block _ dst len => s.rangeKeys core dst len
  | .order foot => s.entryKeys core 63 foot
  | .bytes _ dst len => s.rangeKeys core dst len
  | .fill dst len _ => s.rangeKeys core dst len
  | .dredge c => s.entryKeys core 63 c.foot

/-- Two lists of ranges share a byte. -/
def overlap (a b : List (Nat × Nat)) : Bool := a.any fun x => b.any fun y => decide (x.1 ≤ y.2) && decide (y.1 ≤ x.2)

/-- An operation of the crew's scheduler: its arrival number, and the ranges that it reads and writes. -/
structure Op where
  order : Nat
  reads : List (Nat × Nat)
  writes : List (Nat × Nat)
deriving DecidableEq, Repr

/-- Two operations may not run at once (14 R255). -/
def Op.clash (a b : Op) : Bool := overlap a.writes b.writes || overlap a.writes b.reads || overlap a.reads b.writes

/-- The operations of a stream and of a transfer (15 R275, R279), their windows as they were issued (01 R28). -/
def State.streamOp (s : State) (core : Nat) (r : RegStream) : Op :=
  let k := (s.underView core r.view).patternKeys core r.base r.dims 256
  if r.write then ⟨r.order, [], k⟩ else ⟨r.order, k, []⟩

def State.transferOp (s : State) (core : Nat) (t : Transfer) : Op :=
  ⟨t.order, (s.underView core t.view).readsOf core t.work, (s.underView core t.view).writesOf core t.work⟩

/-- A stream with steps still to come. -/
def RegStream.open (r : RegStream) : Bool := r.bad.isNone && decide (r.performed < r.count)

/-- A stream that has not completed as a transfer: a write stream with steps completes at its unbind (15 R274). -/
def RegStream.running (r : RegStream) : Bool := if r.write then decide (0 < r.count) else r.open

/-- The operations of a core that have not completed. -/
def State.coreOps (s : State) (core : Nat) : List Op :=
  (s.core core).slots.map (fun e => s.transferOp core e.2) ++
    ((s.core core).streams.toList.filterMap fun r => r.bind fun r => if r.running then some (s.streamOp core r) else none)

/-- The operations of a core's crew that have not completed. -/
def State.crewOps (s : State) (core : Nat) : List Op :=
  match s.crewOf core with
  | some c => c.cores.flatMap s.coreOps
  | none => s.coreOps core

/-- An earlier operation holds this one back (14 R255). -/
def State.heldBack (s : State) (core : Nat) (o : Op) : Bool :=
  (s.crewOps core).any fun p => decide (p.order < o.order) && p.clash o

/-- The crew's next arrival number, counted. -/
def State.arrive (s : State) (core : Nat) : State × Nat :=
  match (s.core core).crew with
  | none => (s, 0)
  | some k =>
    match FMap.find s.crews k with
    | none => (s, 0)
    | some c => (s.setCrew k { c with arrivals := c.arrivals + 1 }, c.arrivals)

/-! ### Elements (15 R262, R268 to R272) -/

/-- The address that a failure at a spot names. -/
def Spot.addr : Spot → Word
  | .va a => a
  | _ => 0

/-- The aligned 8-byte granule of a spot, and its offset there. -/
def Spot.granule : Spot → Spot
  | .va a => .va (a &&& ~~~(7 : Word))
  | .store c o => .store c (o / 8 * 8)
  | .value v => .value v
def Spot.within : Spot → Nat
  | .va a => a.toNat % 8
  | .store _ o => o % 8
  | .value _ => 0

/-- The checks of one unit of `n` bytes at a spot. -/
def State.spotLook (s : State) (core : Nat) (v : View) (acc : Acc) (n : Nat) : Spot → EngineLook
  | .va a => s.engineLook core v acc a
  | .store c o => if o + n ≤ 0x4000 then .at (.store c o false) else .fail 4 0
  | .value _ => .fail 4 0

/-- Read one unit of `n` bytes, as they stand behind the read (14 R241); bytes that fail their check code are an uncorrectable error
(24 R390). -/
def State.readSpot (s : State) (core : Nat) (w : View) (n : Nat) : Spot → Try (State × Nat)
  | .value v => .ok (s, v)
  | x =>
    match s.spotLook core w .read n x with
    | .at l =>
      match s.engineMeets core l n with
      | some code => .error (some (0, code, x.addr))
      | none => .ok (s.engineRead core l n, (s.engineRead core l n).engineNat core l n)
    | .fail cls code => .error (some (cls, code, x.addr))
    | .waits => .error none

/-- Write one unit of `n` bytes; also whether it went to a peer device. -/
def State.writeSpot (s : State) (w : StrandId) (view : View) (n v : Nat) : Spot → Try (State × Bool)
  | .value _ => .ok (s, false)
  | x =>
    match s.spotLook w.core view .write n x with
    | .at l => .ok ((s.enginePut w.core l v n).post w l, match l with | .peer .. => true | _ => false)
    | .fail cls code => .error (some (cls, code, x.addr))
    | .waits => .error none

/-- Read the unit of a transfer's element: from a source granule read before, or from memory. -/
def State.readFor (s : State) (t : Transfer) (n : Nat) (x : Spot) : Try (State × Nat) :=
  match t.ahead.lookup x.granule with
  | some v => if n ≤ 8 then .ok (s, v / 256 ^ x.within % 256 ^ n) else s.readSpot t.who.core t.view n x
  | none => s.readSpot t.who.core t.view n x

/-- The number of elements of a transfer: of a dredge, its list entries and its result record. -/
def Work.count : Work → Nat
  | .copy _ _ _ sd _ => patternCount sd
  | .deal _ _ sd _ => patternCount sd
  | .ring _ _ sd _ => patternCount sd
  | .conv c => c.run * c.g
  | .gather _ _ _ _ _ _ idx => idx.length
  | .block _ _ len => len / 8
  | .order _ => 0
  | .bytes _ _ len => len
  | .fill _ len _ => len
  | .dredge c => c.npages + 1

/-- The most events that the elements of a transfer take. -/
def Work.events : Work → Nat
  | .dredge c => (c.npages + 1) * 2 ^ 14
  | w => w.count

/-- The local-store byte of the target of a gather element. -/
def State.targetSpot (s : State) (core target tbase size i : Nat) : Spot :=
  .store (s.relocate (s.core core).crew target) (tbase + i * size)

/-! ### Dredging (17 R326) -/

/-- The bytes of an access lie in entries that declare it (15 R278). -/
def declared (foot : List (Word × Word)) (bit : Nat) (va : Word) (n : Nat) : Bool :=
  (List.range n).all fun k =>
    foot.any fun e => e.1.getLsbD bit && decide ((e.1 &&& 0xFFFFFFFFFFFFF).toNat ≤ va.toNat + k) &&
      decide (va.toNat + k < (e.1 &&& 0xFFFFFFFFFFFFF).toNat + e.2.toNat)

/-- Read and write `n` bytes for a dredge. -/
def State.dredgeRead (s : State) (t : Transfer) (foot : List (Word × Word)) (va : Word) (n : Nat) : Try (State × Nat) :=
  if declared foot 62 va n then s.readSpot t.who.core t.view n (.va va) else .error (some (13, 10, va))

def State.dredgeWrite (s : State) (t : Transfer) (foot : List (Word × Word)) (va : Word) (n v : Nat) : Try State :=
  if declared foot 63 va n then (s.writeSpot t.who t.view n v (.va va)).map (·.1) else .error (some (13, 10, va))

/-- The tide that a dredge's evaluation takes: that of its issue in a deterministic launch, else the wall's. -/
def State.tideFor (s : State) (t : Transfer) : BitVec 48 :=
  if s.coreDet t.who.core then t.now else s.wallTide.setWidth 48

/-- The place of a mass word for a dredge's access; one that reads it meets bytes that fail their check code. -/
def State.massPlace (s : State) (t : Transfer) (foot : List (Word × Word)) (acc : Acc) (va : Word) : Try Loc :=
  if !declared foot (if acc.writes then 63 else 62) va 16 then .error (some (13, 10, va))
  else
    match s.engineLook t.who.core t.view acc va with
    | .fail cls code => .error (some (cls, code, va))
    | .waits => .error none
    | .at l =>
      if !l.timedSite then .error (some (14, 1, va))
      else
        match (if acc.reads then (s.toHome t.who.core l 16).homeFail t.who.core l 16 else none) with
        | some code => .error (some (0, code, va))
        | none => .ok l

/-- The place of a mass word that a dredge evaluates, whose law names the tide of the launch (06 R128). -/
def State.massEval (s : State) (t : Transfer) (foot : List (Word × Word)) (va : Word) : Try Loc := do
  let l ← s.massPlace t foot .read va
  let w := TWord.ofNat ((s.toHome t.who.core l 16).homeNat t.who.core l 16)
  if (s.lawAt l w.law.toNat).logical != s.coreDet t.who.core then .error (some (14, 2, va)) else .ok l

/-- Evaluate a slot's mass word at its site: the slot is kept when its present value is at least the threshold. -/
def State.dredgeEval (s : State) (t : Transfer) (c : DredgeCard) (info : Word) (slot : Nat) : Try (State × Bool) :=
  let va := info + BitVec.ofNat 64 (16 * slot)
  match s.massEval t c.foot va with
  | .error e => .error e
  | .ok l =>
    let r := s.timedAt t.who .read va l (s.tideFor t) slot
    .ok (r.1, decide (signExt c.thresh.toNat 32 ≤ signExt (lowNat r.2.1) 32))

/-- The bytes of a row, and the key and value rows of a slot (17 R313). -/
def DredgeCard.row (c : DredgeCard) : Nat := c.hd * (if c.fmt.toNat ≤ 1 then 2 else 1)
def keyRow (data : Word) (row t : Nat) : Word := data + BitVec.ofNat 64 (t * row)
def valueRow (data : Word) (row t : Nat) : Word := data + BitVec.ofNat 64 ((64 + t) * row)

/-- The accesses that copy, and that zero, a row of `n` bytes. -/
def copyActs (src dst : Word) (n : Nat) : List DredgeAct :=
  (List.range (n / 8)).flatMap fun k => [.load (src + BitVec.ofNat 64 (8 * k)) 8, .store (dst + BitVec.ofNat 64 (8 * k)) 8]
def zeroActs (dst : Word) (n : Nat) : List DredgeAct :=
  (List.range (n / 8)).map fun k => .put (dst + BitVec.ofNat 64 (8 * k)) 8 0

/-- The accesses that move slot `src` to slot `dst`: rows, remap entry, and the stored mass word. -/
def DredgeCard.moveActs (c : DredgeCard) (data info : Word) (src dst : Nat) : List DredgeAct :=
  copyActs (keyRow data c.row src) (keyRow data c.row dst) c.row ++
    copyActs (valueRow data c.row src) (valueRow data c.row dst) c.row ++
    [.load (info + BitVec.ofNat 64 (1024 + 4 * src)) 4, .store (info + BitVec.ofNat 64 (1024 + 4 * dst)) 4,
      .takeMass src, .giveMass dst]

/-- The accesses that vacate a slot: its mass word, its remap entry, and its rows when asked. -/
def DredgeCard.vacateActs (c : DredgeCard) (data info : Word) (slot : Nat) : List DredgeAct :=
  [.vacate slot, .put (info + BitVec.ofNat 64 (1024 + 4 * slot)) 4 0xFFFFFFFF] ++
    if c.zeroRows then zeroActs (keyRow data c.row slot) c.row ++ zeroActs (valueRow data c.row slot) c.row else []

/-- The address of a list entry. -/
def DredgeCard.entry (c : DredgeCard) (e : Nat) : Word := c.plist + BitVec.ofNat 64 (16 * e)

/-- The accesses of an entry once its kept slots are known (17 R326, steps 2 to 5). -/
def DredgeCard.restActs (c : DredgeCard) (e : Nat) (data info : Word) (kept : List Nat) : List DredgeAct :=
  let m := kept.length
  ((kept.zipIdx.filter fun p => p.1 != p.2).flatMap fun p => c.moveActs data info p.1 p.2) ++
    ((List.range (64 - m)).flatMap fun n => c.vacateActs data info (m + n)) ++ [.put (info + 1280) 8 (2 ^ m - 1)] ++
    if m = 0 ∧ c.freeEmpty = true then [.put (c.entry e) 8 0, .put (c.entry e + 8) 8 0] else []

/-- What an entry comes to: survivors, evicted tokens, and whether the page was freed. -/
def DredgeRun.outcome (r : DredgeRun) (c : DredgeCard) : Nat × Nat × Bool :=
  (r.kept.length, r.full.length - r.kept.length, r.data != 0 && r.kept.isEmpty && c.freeEmpty)

/-- The result record of a dredge (17 R325). -/
def dredgeRecord (tally : List (Nat × Nat × Bool)) : List Byte :=
  let bit (k : Nat) : Nat := if (tally.getD k (0, 0, false)).2.2 then 1 else 0
  natBytes (tally.filter (·.2.2)).length 2 ++ natBytes (tally.map (·.2.1)).sum 4 ++ [0, 0] ++
    (List.range 32).map (fun b => BitVec.ofNat 8 ((List.range 8).map fun i => bit (8 * b + i) * 2 ^ i).sum) ++
    tally.map fun e => BitVec.ofNat 8 e.1

/-- The accesses that write the result record: whole granules, and the bytes of a last one that it fills in part. -/
def DredgeCard.recordActs (c : DredgeCard) (tally : List (Nat × Nat × Bool)) : List DredgeAct :=
  let bs := dredgeRecord tally
  let at' (k : Nat) : Word := c.result + BitVec.ofNat 64 k
  let n := bs.length / 8
  (List.range n).map (fun k => .put (at' (8 * k)) 8 (fieldOf bs (8 * k) 8)) ++
    (List.range (bs.length - 8 * n)).map fun k => .put (at' (8 * n + k)) 1 (fieldOf bs (8 * n + k) 1)

/-- Make one access of a dredge, before those of `rest`. -/
def State.dredgeAct (s : State) (t : Transfer) (c : DredgeCard) (rest : List DredgeAct) : DredgeAct → Try (State × DredgeRun)
  | .list => (s.dredgeRead t c.foot (c.entry t.next) 8).map fun v =>
      (v.1, { t.run with data := BitVec.ofNat 64 v.2, acts := if v.2 = 0 then [] else [.info] })
  | .info => (s.dredgeRead t c.foot (c.entry t.next + 8) 8).map fun v =>
      (v.1, { t.run with info := BitVec.ofNat 64 v.2, acts := [.occ] })
  | .occ => (s.dredgeRead t c.foot (t.run.info + 1280) 8).map fun v =>
      let full := (List.range 64).filter fun n => v.2 / 2 ^ n % 2 == 1
      (v.1, { t.run with
        full := full
        acts := if full.isEmpty then c.restActs t.next t.run.data t.run.info [] else full.map .eval })
  | .eval slot => (s.dredgeEval t c t.run.info slot).map fun v =>
      let kept := if v.2 then t.run.kept ++ [slot] else t.run.kept
      (v.1, { t.run with
        kept := kept
        acts := if rest.isEmpty then c.restActs t.next t.run.data t.run.info kept else rest })
  | .takeMass slot => (s.massPlace t c.foot .read (t.run.info + BitVec.ofNat 64 (16 * slot))).map fun l =>
      let s1 := s.toHome t.who.core l 16
      (s1, { t.run with held := s1.homeNat t.who.core l 16, acts := rest })
  | .giveMass slot => (s.massPlace t c.foot .write (t.run.info + BitVec.ofNat 64 (16 * slot))).map fun l =>
      ((s.toHome t.who.core l 16).homePut t.who.core l t.run.held 16, { t.run with acts := rest })
  | .vacate slot => (s.massPlace t c.foot .rmw (t.run.info + BitVec.ofNat 64 (16 * slot))).map fun l =>
      let s1 := s.toHome t.who.core l 16
      let w := TWord.ofNat (s1.homeNat t.who.core l 16)
      (s1.homePut t.who.core l { w with x := 0, y := 0, armed := false, fired := false, sat := false }.toNat 16,
        { t.run with acts := rest })
  | .load va n => (s.dredgeRead t c.foot va n).map fun v => (v.1, { t.run with held := v.2, acts := rest })
  | .store va n => (s.dredgeWrite t c.foot va n t.run.held).map fun s1 => (s1, { t.run with acts := rest })
  | .put va n v => (s.dredgeWrite t c.foot va n v).map fun s1 => (s1, { t.run with acts := rest })

/-- The next access of a dredge; behind the last one of a list entry, the entry is counted and the next one begins; behind the
last entry the result record is written. -/
def State.dredgeStep (s : State) (t : Transfer) (c : DredgeCard) : Try (State × Transfer) :=
  let acts := if !t.run.acts.isEmpty then t.run.acts else if t.next < c.npages then [.list] else c.recordActs t.tally
  match acts with
  | [] => .ok (s, { t with next := t.next + 1 })
  | a :: rest =>
    (s.dredgeAct t c rest a).map fun r =>
      let t1 := { t with peered := t.peered || decide (s.posted.length < r.1.posted.length) }
      (r.1,
        if !r.2.acts.isEmpty then { t1 with run := r.2 }
        else { t1 with
          next := t.next + 1
          run := DredgeRun.idle
          tally := if t.next < c.npages then t.tally ++ [r.2.outcome c] else t.tally })

/-! ### Running a transfer -/

/-- The slot of a ring copy that its next element goes to, reserving one at a slot's first byte (15 R269). -/
def State.ringSlot (s : State) (core u p : Nat) (held : Option Nat) : Try (State × Ring × Nat) :=
  match FMap.find (s.cluster (clusterOf core)).rings u with
  | none => .error (some (13, 6, 0))
  | some r =>
    match held with
    | some n => .ok (s, r, n)
    | none =>
      if p % r.slotBytes ≠ 0 then .error (some (13, 6, 0))
      else
        match r.reserve with
        | none => .error none
        | some (r1, n) => .ok (s.putRing core u r1, r1, n)

/-- The bytes of an element of a transfer that moves one unit, where it comes from, and where it goes. -/
def State.spots (s : State) (core : Nat) (work : Work) (e : Nat) : Option (Nat × Spot × Spot) :=
  match work with
  | .copy w src dst sd dd => some (w, .va (offAddr src (patternOff sd e)), .va (offAddr dst (patternOff dd e)))
  | .deal w src sd d =>
    let g := s.dealTo core (Deal.of d) (e * w)
    some (w, .va (offAddr src (patternOff sd e)), .store g.1 g.2)
  | .conv c =>
    some (c.w, (match c.srcOf (e / c.g) (e % c.g) with | some a => .va a | none => .value 0), .va (c.dstOf (e / c.g) (e % c.g)))
  | .gather put size target tbase buf _ idx =>
    let near := Spot.va (buf + BitVec.ofNat 64 (e * size))
    let far := s.targetSpot core target tbase size (idx.getD e 0)
    some (size, if put then (near, far) else (far, near))
  | .block src dst _ => some (8, .va (src + BitVec.ofNat 64 (8 * e)), .va (dst + BitVec.ofNat 64 (8 * e)))
  | .bytes src dst _ => some (1, .va (src + BitVec.ofNat 64 e), .va (dst + BitVec.ofNat 64 e))
  | .fill dst _ pattern => some (1, .value (pattern.toNat / 256 ^ (e % 8) % 256), .va (dst + BitVec.ofNat 64 e))
  | .ring w src sd _ => some (w, .va (offAddr src (patternOff sd e)), .store core (e * w))
  | .order _ | .dredge _ => none

/-- Move the next element of a copy in ring mode: at a slot's first byte it reserves one, behind its last it commits it, a
partial one with zeros (15 R269). -/
def State.ringElement (s : State) (t : Transfer) (w : Nat) (src : Spot) (count u : Nat) : Try (State × Transfer) :=
  let core := t.who.core
  let e := t.next
  match s.ringSlot core u (e * w) t.slot with
  | .error x => .error x
  | .ok (s1, r, n) =>
    match s1.readFor t w src with
    | .error x => .error x
    | .ok (s2, v) =>
      let o := e * w % r.slotBytes
      let l := Loc.pad (clusterOf core) (r.slotAt n)
      let put (s : State) (k v : Nat) : State := s.engineWrite core l k (byteOf v 0)
      let s3 := (List.range w).foldl (fun s k => put s (o + k) (v / 256 ^ k)) s2
      if o + w = r.slotBytes ∨ e + 1 = count then
        let s4 := (List.range (r.slotBytes - (o + w))).foldl (fun s k => put s (o + w + k) 0) s3
        .ok (s4.putRing core u (r.commit n), { t with next := e + 1, slot := none })
      else .ok (s3, { t with next := e + 1, slot := some n })

/-- Perform the next element of a transfer, at index `t.next`; of a dredge, its next access. -/
def State.element (s : State) (t : Transfer) : Try (State × Transfer) :=
  match t.work, s.spots t.who.core t.work t.next with
  | .dredge c, _ => s.dredgeStep t c
  | .ring _ _ _ u, some (w, src, _) => s.ringElement t w src t.work.count u
  | _, some (w, src, dst) =>
    match s.readFor t w src with
    | .error x => .error x
    | .ok (s1, v) =>
      (s1.writeSpot t.who t.view w v dst).map fun r => (r.1, { t with next := t.next + 1, peered := t.peered || r.2 })
  | _, none => .ok (s, t)

/-! ### Granules (14 R241) -/

/-- The aligned granules that a unit of `n` bytes at a spot touches. -/
def Spot.granules (x : Spot) (n : Nat) : List Spot :=
  match x with
  | .value _ => []
  | _ => (List.range ((x.within + n + 7) / 8)).map fun k =>
      match x.granule with
      | .va a => .va (a + BitVec.ofNat 64 (8 * k))
      | .store c o => .store c (o + 8 * k)
      | y => y

/-- The source and the destination granules of an element. -/
def State.touches (s : State) (core : Nat) (work : Work) (e : Nat) : List Spot × List Spot :=
  match s.spots core work e with
  | some (n, src, dst) => (src.granules n, dst.granules n)
  | none => ([], [])

/-- Some element of `a` to `b` touches one of the granules. -/
def State.touched (s : State) (core : Nat) (work : Work) (side : List Spot × List Spot → List Spot) (gs : List Spot)
    (a b : Nat) : Bool :=
  (List.range (b - a)).any fun i => (side (s.touches core work (a + i))).any gs.contains

/-- The element at which an event of a transfer that begins with element `e` ends: no destination granule that it writes is
written by a later element, so that each granule is written as one event. -/
def State.eventEnd (s : State) (core : Nat) (work : Work) (e : Nat) : Nat :=
  let n := work.count
  let gs (k : Nat) : List Spot := (List.range (k + 1)).flatMap fun i => (s.touches core work (e + i)).2
  e + 1 + ((List.range (n - e)).find? fun k => !s.touched core work Prod.snd (gs k) (e + k + 1) n).getD 0

/-- The source granules of elements `a` to `b` that later elements read, with their bytes: each is read as one event. -/
def State.readAhead (s : State) (t : Transfer) (a b : Nat) : List (Spot × Nat) :=
  let core := t.who.core
  let gs := ((List.range (b - a)).flatMap fun i => (s.touches core t.work (a + i)).1) ++ t.ahead.map (·.1)
  (gs.eraseDups.filter fun g => s.touched core t.work Prod.fst [g] b t.work.count).filterMap fun g =>
    match s.readFor t 8 g with
    | .ok r => some (g, r.2)
    | .error _ => none

/-- How far a transfer has come: it ran to its end, it failed, or it must wait. -/
inductive Progress where
  | ended
  | waits
deriving DecidableEq, Repr

/-- Perform up to `n` elements. -/
def State.elements (s : State) : Nat → Transfer → State × Transfer × Progress
  | 0, t => (s, t, .ended)
  | n + 1, t =>
    match s.element t with
    | .ok (s1, t1) => s1.elements n t1
    | .error none => (s, t, .waits)
    | .error (some (cls, code, a)) => (s, { t with failed := some ⟨cls, code, t.next, a⟩ }, .ended)

/-- An operation begins its accesses: it sees every write of those before it (14 R255), so that no older copy of a byte stands
in the cluster cache that it reads through. -/
def State.beginOp (s : State) (core : Nat) (first : Bool) : State :=
  if first && !s.coreDet core then s.dropClean (clusterOf core) else s

/-- Perform the elements of one event; when one of them must wait, none is performed. -/
def State.event (s0 : State) (t : Transfer) : State × Transfer × Progress :=
  let s := s0.beginOp t.who.core (t.next == 0 && t.run.acts.isEmpty)
  let b := s.eventEnd t.who.core t.work t.next
  let r := s.elements (b - t.next) t
  if r.2.2 = .waits then (s0, t, .waits) else (r.1, { r.2.1 with ahead := s.readAhead t t.next b }, .ended)

/-- Perform up to `n` events, until the transfer is at its end, has failed, or must wait. -/
def State.performs (s : State) : Nat → Transfer → State × Transfer × Progress
  | 0, t => (s, t, .ended)
  | n + 1, t =>
    if t.work.count ≤ t.next ∨ t.failed.isSome then (s, t, .ended)
    else
      let r := s.event t
      if r.2.2 = .waits then r else r.1.performs n r.2.1

/-- A transfer has read bytes that fail their check code: its launch is aborted (24 R390). -/
def State.endFailed (s : State) (t : Transfer) : Option State :=
  match t.failed with
  | some f => if f.cls = 0 then some (s.consumed t.who [] (trapAt 0 f.code f.addr false)) else none
  | none => none

/-- A transfer of total size zero completes when it starts (15 R261); an ordering card is not one. -/
def Work.empty : Work → Bool
  | .order _ => false
  | w => w.count == 0

/-- The issue record of a faulted transfer (19 R335). -/
def issueRecord (t : Transfer) (f : Failure) : List Byte :=
  natBytes t.pc.toNat 8 ++ natBytes t.id.toNat 4 ++ natBytes f.cls 1 ++ natBytes f.code 1 ++ [0, 0] ++ natBytes f.elem 8 ++
    natBytes f.addr.toNat 8

def State.postRecord (s : State) (w : StrandId) (bs : List Byte) : State :=
  s.postLanding w w.core (deviceHeader 3 32 0xFFFC 0xFFC) bs none

/-- A completion counter's new value (15 R261). -/
def countDone (x : Word) (faulted : Bool) : Word :=
  x.extractLsb' 48 16 ++ (if faulted then x.extractLsb' 32 16 + 1 else x.extractLsb' 32 16) ++ (x.setWidth 32 + 1#32)

def Core.count (c : Core) (n : Nat) (faulted : Bool) : Core :=
  if h : n < 16 then { c with counters := c.counters.set n (countDone c.counters[n] faulted) h } else c

/-- The scope at which the completion of a transfer is released (14 R257): domain when it wrote to a peer device, else die; a
system-scope release does the same, as writes to host memory stand there at once. -/
def Transfer.scope (t : Transfer) : Nat := if t.peered then 4 else 2

/-- A transfer completes (15 R261): its issue record if it faulted, else its release (14 R257); counter, decrement, task;
a bget's message (10 R196), which is acquired at the scope of that release; its slot is free. -/
def State.complete (s : State) (core slot : Nat) (t : Transfer) : State :=
  let s0 := s.onCore core fun c => { c with slots := FMap.del c.slots slot }
  let s1 := match t.failed with
    | some f => s0.postRecord t.who (issueRecord t f)
    | none => if s.coreDet core then s0 else s0.writeBack (clusterOf core)
  let s2 := match t.note.ct with
    | some n => s1.onCore core fun c => c.count n t.failed.isSome
    | none => s1
  let s3 := match t.note.dc, (s2.core core).crew with
    | some n, some k => s2.decrement k n 1
    | _, _ => s2
  let s4 := match t.note.task with
    | some k => s3.releaseTask k
    | none => s3
  match t.note.send, t.failed, t.work with
  | some (tgt, hdr), none, .block src dst len =>
    s4.postTo t.who tgt (withLen hdr 20) (natBytes src.toNat 8 ++ natBytes dst.toNat 8 ++ natBytes len 4) t.scope
  | _, _, _ => s4

/-- A transfer's writes to peers are all acknowledged (22 R378). -/
def State.acked (s : State) (t : Transfer) : Bool := !t.peered || !s.posted.any fun p => p.who == t.who

/-- A copy in ring mode needs a slot of a full ring for its next element (15 R269). -/
def State.ringFull (s : State) (t : Transfer) : Bool :=
  match t.work, t.slot with
  | .ring _ _ _ u, none =>
    match FMap.find (s.cluster (clusterOf t.who.core)).rings u with
    | some r => r.reserve.isNone
    | none => false
  | _, _ => false

/-- A transfer that neither a footprint nor a ring holds up waits for a page or for acknowledgements. -/
def State.mustWait (s : State) (core slot : Nat) : Bool :=
  match FMap.find (s.core core).slots slot with
  | none => false
  | some t =>
    if !t.work.empty && s.heldBack core (s.transferOp core t) then false
    else if t.next < t.work.count ∧ t.failed.isNone then (s.event t).2.2 == .waits && !s.ringFull t
    else !s.acked t

/-- A transfer stands between its elements: a dredge has made every access of its current list entry. -/
def Transfer.between (t : Transfer) : Bool := t.failed.isSome || t.run.acts.isEmpty

def State.putSlot (s : State) (core slot : Nat) (t : Transfer) : State :=
  s.onCore core fun c => { c with slots := FMap.put c.slots slot t }

/-- Run a transfer to its end and complete it, as far as footprints, rings and pages let it; also whether it completed. -/
def State.runTransfer (s : State) (core slot : Nat) : State × Bool :=
  match FMap.find (s.core core).slots slot with
  | none => (s, false)
  | some t =>
    if !t.work.empty && s.heldBack core (s.transferOp core t) then (s, false)
    else
      let r := s.performs t.work.events t
      match r.1.endFailed r.2.1 with
      | some s1 => (s1, true)
      | none =>
        let kept := r.1.putSlot core slot r.2.1
        if r.2.2 = .waits ∨ !r.1.acked r.2.1 then (kept, false) else (r.1.complete core slot r.2.1, true)

/-- One event of a transfer in flight. -/
def State.runElement (s0 : State) (core slot : Nat) : State :=
  let s := { s0 with failing := Failing.fresh s0.failing }
  match FMap.find (s.core core).slots slot with
  | none => s0
  | some t =>
    if t.failed.isSome ∨ t.work.count ≤ t.next ∨ s.heldBack core (s.transferOp core t) then s0
    else
      let r := s.event t
      (r.1.endFailed r.2.1).getD (r.1.putSlot core slot r.2.1)

/-- A dredge finishes its current list entry, as far as pages let it (19 R350, step 2). -/
def State.finishEntry (s : State) (core slot : Nat) : Nat → State
  | 0 => s
  | n + 1 =>
    match FMap.find (s.core core).slots slot with
    | none => s
    | some t =>
      if t.between then s
      else
        let r := s.event t
        if r.2.2 = .waits then s
        else ((r.1.endFailed r.2.1).getD (r.1.putSlot core slot r.2.1)).finishEntry core slot n

def State.finishEntries (s : State) (core : Nat) : State :=
  (s.core core).slots.foldl (fun s e => s.finishEntry core e.1 (2 ^ 14)) s

/-! ### Starting a transfer (15 R260) -/

/-- The lowest free transfer slot. -/
def Core.freeSlot (c : Core) : Option Nat := (List.range 64).find? fun n => (FMap.find c.slots n).isNone

/-- What the distributor refuses of a copy by issue record (13 R237): a code that the specification does not state is a
free value. -/
def State.dealFault (s : State) (core : Nat) (w : Work) : Option Nat :=
  match w with
  | .deal e _ sd d =>
    let g := Deal.of d
    let n := patternCount sd * e
    let outside := g.bits.any fun i => (s.core (s.peerCore core i)).crew != (s.core core).crew
    let past := (List.range ((n + g.blk - 1) / g.blk)).any fun j =>
      decide (0x4000 < (s.dealTo core g (min (j * g.blk + g.blk - 1) (n - 1))).2 + 1)
    if outside then some 5
    else if g.bits.isEmpty || decide (g.bits.length ≤ g.first) || past then some ((Config.freeWord s.free).toNat % 256)
    else none
  | _ => none

/-- Start a transfer in a slot: its generation rises, it arrives at the scheduler; one of size zero completes at once.
The state and the transfer identifier. The issue record of a deal that the distributor refuses, where no element has failed,
names element 0 and address 0 (DESIGN CHOICE, log entry 37). -/
def State.startIn (s : State) (core slot : Nat) (t : Transfer) : State × Word :=
  let c := s.core core
  let gen := FMap.getD c.gens slot 0 + 1
  let id : BitVec 32 := BitVec.ofNat 32 (core % 65536 * 65536 + gen.toNat * 256 + slot)
  let r := s.arrive core
  let f := r.1.dealFault core t.work
  let t1 := { t with
    id := id
    order := r.2
    failed := f.map fun code => ⟨13, code, 0, 0⟩ }
  let s1 := { r.1.setCore core { c with gens := FMap.put c.gens slot gen, slots := FMap.put c.slots slot t1 } with
    free := r.1.free + 1 }
  (if t.work.empty || f.isSome then (s1.runTransfer core slot).1 else s1, id.setWidth 64)

/-! ### Streams (15 R273 to R275) -/

/-- The address of step `n`. -/
def RegStream.step (r : RegStream) (n : Nat) : Word := offAddr r.base (patternOff r.dims n)

/-- The 32 doublewords of a step, read. -/
def State.stepRead (s : State) (w : StrandId) (det : Bool) (view : View) (va : Word) : Nat → Try (State × Nat)
  | 0 => .ok (s, 0)
  | n + 1 =>
    match s.stepRead w det view va n with
    | .error e => .error e
    | .ok (s1, v) =>
      let a := va + BitVec.ofNat 64 (8 * n)
      match s1.engineLook w.core view .read a with
      | .at l =>
        match (if det then s1.viewFail w l 8 else s1.engineMeets w.core l 8) with
        | some code => .error (some (0, code, a))
        | none =>
          let s2 := if det then s1 else s1.engineRead w.core l 8
          .ok (s2, v + (if det then s2.viewNat w l 8 else s2.engineNat w.core l 8) * 2 ^ (64 * n))
      | .fail cls code => .error (some (cls, code, a))
      | .waits => .error none

/-- The 32 doublewords of a step, written; in a deterministic launch they take wake storage (16 R290, R294). -/
def State.stepWrite (s : State) (w : StrandId) (det : Bool) (view : View) (va : Word) (v : VReg) : Nat → Try State
  | 0 => .ok s
  | n + 1 =>
    match s.stepWrite w det view va v n with
    | .error e => .error e
    | .ok s1 =>
      let a := va + BitVec.ofNat 64 (8 * n)
      let x := v.toNat / 2 ^ (64 * n) % 2 ^ 64
      match s1.engineLook w.core view .write a with
      | .at l =>
        if !det then .ok ((s1.enginePut w.core l x 8).post w l)
        else if l.isOwn || s1.wakeRoom w [l.key] then .ok (s1.viewFill w l x 8)
        else .error (some (15, 4, a))
      | .fail cls code => .error (some (cls, code, a))
      | .waits => .error none

/-- A stream's step failed: it reads as zeros from there on, and an issue record names it (15 R275); bytes that fail their
check code abort the launch (24 R390). -/
def State.stepFailed (s : State) (core k : Nat) (r : RegStream) (f : Nat × Nat × Word) : State :=
  let w : StrandId := ⟨core, r.owner⟩
  let id : Nat := core % 65536 * 65536
  let bs := natBytes r.pc.toNat 8 ++ natBytes id 4 ++ natBytes f.1 1 ++ natBytes f.2.1 1 ++ [0, 0] ++
    natBytes r.performed 8 ++ natBytes f.2.2.toNat 8
  let s1 := s.onCore core fun c => c.putStream k (some { r with bad := some r.performed, buf := if r.write then [] else r.buf })
  if f.1 = 0 then s.consumed w [] (trapAt 0 f.2.1 f.2.2 false)
  else if s.coreDet core then
    s1.collect w [] (.send ⟨messageBits w (deviceHeader 3 32 0xFFFC 0xFFC) bs, none, core, none, none, (s.core core).crew, none, none, 0⟩)
  else s1.postRecord w bs

/-- One step of a stream's engine: a read stream fetches into a buffer of four, a write stream performs its oldest
emitted step; also whether it did. -/
def State.streamStep (s : State) (core k : Nat) : State × Bool :=
  match (s.core core).streams[k]?.join with
  | none => (s, false)
  | some r =>
    let w : StrandId := ⟨core, r.owner⟩
    let det := s.coreDet core
    if !r.open || s.heldBack core (s.streamOp core r) then (s, false)
    else if r.write then
      match r.buf with
      | [] => (s, false)
      | v :: rest =>
        match s.stepWrite w det r.view (r.step r.performed) v 32 with
        | .ok s1 =>
          (s1.onCore core fun c => c.putStream k (some { r with buf := rest, performed := r.performed + 1 }), true)
        | .error none => (s, false)
        | .error (some f) => (s.stepFailed core k r f, true)
    else if 4 ≤ r.buf.length then (s, false)
    else
      match (s.beginOp core (r.performed == 0)).stepRead w det r.view (r.step r.performed) 32 with
      | .ok (s1, v) =>
        (s1.onCore core fun c =>
          c.putStream k (some { r with buf := r.buf ++ [BitVec.ofNat 2048 v], performed := r.performed + 1 }), true)
      | .error none => (s, false)
      | .error (some f) => (s.stepFailed core k r f, true)

/-- All the steps that a core's streams can take now. -/
def State.drainStream (s : State) (core k : Nat) : Nat → State
  | 0 => s
  | n + 1 =>
    let r := s.streamStep core k
    if r.2 then r.1.drainStream core k n else s

def State.settleStreams (s : State) (core : Nat) : State :=
  (List.range 4).foldl (fun s k => s.drainStream core k 8) s

/-- The steps consumed or emitted by a stream. -/
def RegStream.used (r : RegStream) : Nat := r.taken

/-- A stream is unbound: a write stream completes as a transfer, with no release where a step of it faulted, and its
completion is acquired (15 R274, 14 R257). -/
def State.unbindStream (s : State) (core k : Nat) (r : RegStream) : State :=
  let s1 := s.onCore core fun c => c.putStream k none
  if !r.write || s.coreDet core then s1
  else (if r.bad.isSome then s1 else s1.writeBack (clusterOf core)).dropClean (clusterOf core)

end Sys2Proof.Machine
end

