-- ==== Sys2Proof/Machine/Serve.lean ====
section
/-!
DEFINITION. The effects that cross between tasks: done when the instruction issues, or, in a deterministic launch, served at
a quantum end (16 R288, R289, R394).
-/
namespace Sys2Proof.Machine
open Sys2Proof

/-- Who is answered: a strand in its generation, the request's number, and outside a deterministic launch the slot of the
issuing instruction. -/
structure Asker where
  who : StrandId
  gen : BitVec 8
  num : Nat
  slot : Option Nat
deriving DecidableEq, Repr

/-- Write s[d] of an asker: as a variable-latency result, or when a request is served, unless a later instruction wrote
the register or the strand has ended (02 R43, 16 R288). -/
def State.answer (s : State) (a : Asker) (d : BitVec 4) (x : Word) : State :=
  match a.slot with
  | some n => s.resultS a.who .variable n d x
  | none =>
    let t := s.strand a.who
    if t.live && t.gen == a.gen && FMap.find t.requested d.toNat == some a.num then
      s.onStrand a.who fun t => { t with requested := FMap.del t.requested d.toNat }.putS d x
    else s

/-! ### Atomics (14 R249, R250) -/

/-- Op(old, v) of a major-8 func on `n` bytes. -/
def atomicOp (op : BitVec 5) (n old v : Nat) : Nat :=
  match op.toNat with
  | 0 => (old + v) % 2 ^ (8 * n)
  | 1 => (BitVec.ofNat 64 old &&& BitVec.ofNat 64 v).toNat
  | 2 => (BitVec.ofNat 64 old ||| BitVec.ofNat 64 v).toNat
  | 3 => (BitVec.ofNat 64 old ^^^ BitVec.ofNat 64 v).toNat
  | 4 => if signExt v (8 * n) < signExt old (8 * n) then v else old
  | 5 => if signExt old (8 * n) < signExt v (8 * n) then v else old
  | 6 => min old v
  | 7 => max old v
  | _ => v

/-- The result of a 4-byte form is sign-extended, but for the whole minimum and maximum; an 8-byte one is whole. -/
def atomicExt (op : BitVec 5) (n old : Nat) : Word :=
  if n = 4 ∧ op.toNat ≠ 6 ∧ op.toNat ≠ 7 then BitVec.ofInt 64 (signExt old 32) else BitVec.ofNat 64 old

/-- The event writes: every func but a failed amcas and ldo. -/
def atomicWrites (op : BitVec 5) (old cmp : Nat) : Bool :=
  if op = 9#5 then old == cmp else op != 0xA#5

/-- An access at the site of `n` bytes on an asker's behalf: bytes that it would read and that fail their check code abort the
launch instead (24 R390). -/
def State.served (s : State) (a : Asker) (va : Word) (l : Loc) (n : Nat) (reads : Bool) (f : State → State) : State :=
  match (if reads then (s.toHome a.who.core l n).homeFail a.who.core l n else none) with
  | some code => s.consumed a.who [] (trapAt 0 code va false)
  | none => f s

/-- One event at the site: the state and the value read. -/
def State.atomicAt (s0 : State) (core : Nat) (op : BitVec 5) (n : Nat) (l : Loc) (v cmp : Nat) : State × Nat :=
  let s := s0.toHome core l n
  let old := s.homeNat core l n
  (if atomicWrites op old cmp then s.homePut core l (atomicOp op n old v) n else s, old)

/-! ### Serving -/

/-- A raw berth entry becomes the staged one of its index; an invalid record stages an empty one (16 R310). -/
def Crew.stage (c : Crew) (n : Nat) (e : Option Berth) : Crew :=
  { c with staged := match e with | some b => FMap.put c.staged n b | none => FMap.del c.staged n }

/-- A strand's crew changed. -/
def State.onCrew (s : State) (core : Nat) (f : Crew → Crew) : State :=
  match (s.core core).crew with
  | none => s
  | some k =>
    match FMap.find s.crews k with
    | none => s
    | some c => s.setCrew k (f c)

/-- A rival finishes: its strands stop and its final score is kept (16 R306, R312). -/
def State.finishRival (s : State) (k : Nat) (score : Option Word) : State :=
  match FMap.find s.crews k with
  | none => s
  | some c => if c.finished.isSome then s else (s.stopStrands c.cores).setCrew k { c with finished := some score }

/-- The task record of a matching entry replaces what was there. -/
def Cluster.arm (c : Cluster) (n : Nat) (m : Matching) : Cluster := { c with matching := FMap.put c.matching n m }
def Cluster.disarm (c : Cluster) (n : Nat) : Cluster := { c with matching := FMap.del c.matching n }

/-- Whether a matching entry was armed, as mtab answers. -/
def State.wasArmed (s : State) (core n : Nat) : Word :=
  if (FMap.find (s.cluster (clusterOf core)).matching n).isSome then 1 else 0

/-- A sent message: in the core's outbound queue, or in a deterministic launch on its way at once. -/
def State.sendNow (s : State) (core : Nat) (m : Message) : State :=
  if s.coreDet core then s.sendMsg m else s.queueMsg core m

/-- A decrement of a dependence counter by a core releases at the scope of its crew; in a deterministic launch serving orders
it instead (10 R194, 16 R292). -/
def State.releaseDec (s : State) (core n : Nat) : State := if n = 0 || s.coreDet core then s else s.release core 2

/-- Start a transfer that has a slot to go to; in a deterministic launch it runs wholly or is suspended in its slot. -/
def State.startTransfer (s : State) (a : Asker) (d : BitVec 4) (short : Nat) (t : Transfer) (slot : Nat) : State × Bool :=
  let core := a.who.core
  let r := s.startIn core slot t
  let s1 := r.1.answer a d (r.2 ||| BitVec.ofNat 64 (short * 2 ^ 32))
  if s1.coreDet core then
    if (FMap.find (s1.core core).slots slot).isNone then (s1, true)
    else
      let q := s1.runTransfer core slot
      if q.2 then (q.1, true)
      else
        (q.1.onCrew core fun c => { c with suspended := c.suspended ++ [.run core slot a.num] }, true)
  else (s1, true)

/-- The operation of a request that is suspended before it has begun. -/
def State.suspendedOp (s : State) (x : Suspended) : Option Op :=
  match x with
  | .item r =>
    match r.req with
    | .transfer _ _ t => some (s.transferOp r.who.core t)
    | .bind _ t => some (s.streamOp r.who.core t)
    | _ => none
  | .run .. => none

/-- An operation that has not completed, or one suspended before this one, overlaps it (16 R394). -/
def State.behindSuspended (s : State) (core : Nat) (o : Op) : Bool :=
  match s.crewOf core with
  | some c =>
    c.det && (s.heldBack core { o with order := c.arrivals } || (c.suspended.filterMap s.suspendedOp).any o.clash)
  | none => false

/-- A crew's scheduler has room for one more operation (15 R279); outside a deterministic launch the strand waits for it before
it issues one. -/
def State.schedulerRoom (s : State) (core : Nat) : Bool := !s.coreDet core || decide ((s.crewOps core).length < 1024)

/-- Serve one effect; the second part is false when it must be suspended (16 R394). Two binds of one stream in one quantum both pass
their checks: the second one's stream replaces the first's; of two unbinds the second answers a free value (DESIGN CHOICE, log
entry 121: 15 R274 and 16 R288 do not say). -/
def State.serve (s : State) (a : Asker) (r : Req) : State × Bool :=
  let core := a.who.core
  match r with
  | .send m => (s.sendNow core m, true)
  | .start d entry arg =>
    match s.startHelper core (entry &&& 0xFFFFFFFFFFFFF) (entry.extractLsb' 52 5).toNat (entry.extractLsb' 60 2) arg 0 with
    | some x => (x.1.answer a d x.2, true)
    | none => (s.answer a d 0, true)
  | .depSet d n count task =>
    match (s.core core).crew with
    | none => (s, true)
    | some k =>
      let prior := match FMap.find s.crews k with | some c => (c.dep n).word | none => 0
      ((s.answer a d prior).armCounter k n count task, true)
  | .depDec n count =>
    match (s.core core).crew with
    | none => (s, true)
    | some k => ((s.releaseDec core count).decrement k n count, true)
  | .matchSet d n tag target task =>
    let s1 := s.answer a d (s.wasArmed core n)
    let cl := clusterOf core
    (s1.setCluster cl ((s1.cluster cl).arm n ⟨(s.core core).crew.getD 0, tag, target, 0, task⟩), true)
  | .matchOff d n =>
    let s1 := s.answer a d (s.wasArmed core n)
    (s1.setCluster (clusterOf core) ((s1.cluster (clusterOf core)).disarm n), true)
  | .transfer d short t =>
    if !s.schedulerRoom core || s.behindSuspended core (s.transferOp core t) && !t.work.empty then (s, false)
    else
      match (s.core core).freeSlot with
      | none => (s, false)
      | some slot => s.startTransfer a d short t slot
  | .bind k r =>
    let x := s.arrive core
    if !s.schedulerRoom core || s.behindSuspended core (s.streamOp core r) then (s, false)
    else (x.1.onCore core fun c => c.putStream k (some { r with order := x.2 }), true)
  | .unbind d k =>
    match (s.core core).streams[k]?.join with
    | none => ({ s with free := s.free + 1 }.answer a d (Config.freeWord s.free), true)
    | some r => if r.draining then (s, false) else ((s.unbindStream core k r).answer a d (BitVec.ofNat 64 r.used), true)
  | .push d u =>
    match s.crewRing core u with
    | none => (s, true)
    | some r =>
      match r.reserve with
      | none => (s, false)
      | some (r1, n) => ((s.putRing core u r1).answer a d (r.slotAddr (s.core core) n), true)
  | .pop d u =>
    match s.crewRing core u with
    | none => (s, true)
    | some r =>
      match r.take with
      | none => (s, false)
      | some (r1, n) => ((s.putRing core u r1).answer a d (r.slotAddr (s.core core) n), true)
  | .commit u n =>
    match s.crewRing core u with
    | some r => (s.putRing core u (r.commitOnce n), true)
    | none => (s, true)
  | .release u n =>
    match s.crewRing core u with
    | some r => (s.putRing core u (r.releaseOnce n), true)
    | none => (s, true)
  | .atomic d op n va l v cmp =>
    match l with
    | none => (s.answer a d 0, true)
    | some l =>
      (s.served a va l n (op != 0xB#5) fun s =>
        let x := s.atomicAt core op n l (v.toNat % 2 ^ (8 * n)) (cmp.toNat % 2 ^ (8 * n))
        if op = 0xB#5 then x.1 else x.1.answer a d (atomicExt op n x.2), true)
  | .timed d op va l now lane =>
    match l with
    | none => (match d with | some d => s.answer a d (outStatus now) | none => s, true)
    | some l =>
      (s.served a va l 16 true fun s =>
        let x := s.timedAt a.who op va l now lane
        match d with | some d => x.1.answer a d x.2.2 | none => x.1, true)
  | .lanes ws now =>
    (ws.foldl (fun s e =>
      match e.2.2.1 with
      | some l => s.served a e.2.1 l 16 true fun s => (s.timedAt a.who (.add (e.2.2.2.setWidth 64)) e.2.1 l now e.1).1
      | none => s) s, true)
  | .answer d x => (s.answer a d x, true)
  | .mark va l now lane => (s.served a va l 16 true fun s => (s.timedAt a.who .read va l now lane).1, true)
  | .berth n e => (s.onCrew core fun c => c.stage n e, true)
  | .finish score =>
    match (s.core core).crew with
    | some k => (s.finishRival k (some score), true)
    | none => (s, true)

/-- An instruction of a strand hands over its effect in slot `n`: done now, or collected for the quantum end. It will
write the listed registers. -/
def State.submit (s : State) (w : StrandId) (n : Nat) (ds : List (BitVec 4)) (r : Req) : State :=
  if (s.strand w).det then s.collect w ds r
  else (s.serve ⟨w, (s.strand w).gen, 0, some n⟩ r).1

end Sys2Proof.Machine
end

