-- ==== Sys2Proof/Machine/Atomic.lean ====
section
/-!
DEFINITION. Atomics and ordered accesses, major 8 (14 R248 to R251), and fences, major 9 (14 R252, R253).
-/
namespace Sys2Proof.Machine
open Sys2Proof

/-- An order field has the acquire part, the release part (02 R38). -/
def ordAcq (o : BitVec 2) : Bool := o.getLsbD 0
def ordRel (o : BitVec 2) : Bool := o.getLsbD 1

/-- The size of an access. -/
def atomicBytes (size : BitVec 1) : Nat := if size = 1#1 then 8 else 4

/-- A release of domain or system scope waits for the strand's posted peer writes (22 R378). -/
def State.awaitsAcks (s : State) (w : StrandId) (scope : Nat) : Bool :=
  decide (4 ≤ scope) && s.posted.any fun p => p.who == w

/-- The release part before an access and the acquire part behind it; none in a deterministic launch (16 R292). -/
def State.ordered (s : State) (w : StrandId) (ord : BitVec 2) (scope : Nat) (f : State → State) : State :=
  if (s.strand w).det then f s
  else
    let s1 := f (if ordRel ord then s.release w.core scope else s)
    if ordAcq ord then s1.acquire w.core scope else s1

/-- The kind of access of a func. -/
def atomicAcc (op : BitVec 5) : Acc := if op = 0xA#5 then .read else if op = 0xB#5 then .write else .rmw

/-- The code that an access outside a deterministic launch meets at the site, if bytes that it reads fail their check code
(24 R390); a request meets it as it is served. -/
def State.atomicFail (s : State) (w : StrandId) (acc : Acc) (l : Loc) (n : Nat) : Option Nat :=
  if acc.reads && !(s.strand w).det then (s.toHome w.core l n).homeFail w.core l n else none

/-- A major-8 access (14 R248): its checks, then one event at the site, or a request (14 R251). -/
def atomicForm (sc : BitVec 2) (op : BitVec 5) (d a b : BitVec 4) (srcs : List Reg) (size : BitVec 1) (ord : BitVec 2)
    (scope : BitVec 3) (s : State) : Out :=
  s.issue (plain sc (.s a :: srcs)) fun s1 n =>
    let w := s1.cur
    let t := s1.strand w
    let va := t.getS a
    let size := atomicBytes size
    let acc := atomicAcc op
    let ds := if op = 0xB#5 then [] else [d]
    let req (l : Option Loc) : Req := .atomic d op size va l (t.getS b) (t.getS d)
    match s1.checked w acc va size with
    | .trap x => .trap x
    | .out =>
      if ordRel ord && s1.awaitsAcks w scope.toNat then .wait (.retry .acks)
      else .done ((s1.offence w va true).ordered w ord scope.toNat fun s => s.submit w n ds (req none))
    | .at l =>
      match (if acc.writes then s1.berthRefused w va else none) with
      | some x => .trap x
      | none =>
        if ordRel ord && s1.awaitsAcks w scope.toNat then .wait (.retry .acks)
        else if let some code := s1.atomicFail w acc l size then .trap (trapAt 0 code va acc.writes)
        else
          .done ((if acc.writes then s1.keepFetches w l size else s1).ordered w ord scope.toNat fun s =>
            s.submit w n ds (req (some l)))

/-- R249. Atomic add. -/
def execAmadd (o : At) (s : State) : Out :=
  atomicForm o.sc 0 o.d o.a o.b [.s o.b, .s o.d] o.size o.ord o.scope s
/-- R249. Atomic bitwise and. -/
def execAmand (o : At) (s : State) : Out :=
  atomicForm o.sc 1 o.d o.a o.b [.s o.b, .s o.d] o.size o.ord o.scope s
/-- R249. Atomic bitwise or. -/
def execAmor (o : At) (s : State) : Out :=
  atomicForm o.sc 2 o.d o.a o.b [.s o.b, .s o.d] o.size o.ord o.scope s
/-- R249. Atomic bitwise xor. -/
def execAmxor (o : At) (s : State) : Out :=
  atomicForm o.sc 3 o.d o.a o.b [.s o.b, .s o.d] o.size o.ord o.scope s
/-- R249. Atomic signed minimum. -/
def execAmmin (o : At) (s : State) : Out :=
  atomicForm o.sc 4 o.d o.a o.b [.s o.b, .s o.d] o.size o.ord o.scope s
/-- R249. Atomic signed maximum. -/
def execAmmax (o : At) (s : State) : Out :=
  atomicForm o.sc 5 o.d o.a o.b [.s o.b, .s o.d] o.size o.ord o.scope s
/-- R249. Atomic whole minimum. -/
def execAmminw (o : At) (s : State) : Out :=
  atomicForm o.sc 6 o.d o.a o.b [.s o.b, .s o.d] o.size o.ord o.scope s
/-- R249. Atomic whole maximum. -/
def execAmmaxw (o : At) (s : State) : Out :=
  atomicForm o.sc 7 o.d o.a o.b [.s o.b, .s o.d] o.size o.ord o.scope s
/-- R249. Atomic exchange. -/
def execAmswap (o : At) (s : State) : Out :=
  atomicForm o.sc 8 o.d o.a o.b [.s o.b, .s o.d] o.size o.ord o.scope s
/-- R249. Atomic compare and exchange. -/
def execAmcas (o : At) (s : State) : Out :=
  atomicForm o.sc 9 o.d o.a o.b [.s o.b, .s o.d] o.size o.ord o.scope s

/-- R250. Ordered single-copy-atomic load. -/
def execLdo (o : AtL) (s : State) : Out := atomicForm o.sc 0xA o.d o.a 0 [] o.size o.ord o.scope s
/-- R250. Ordered single-copy-atomic store. -/
def execSto (o : AtS) (s : State) : Out := atomicForm o.sc 0xB 0 o.a o.b [.s o.b] o.size o.ord o.scope s

/-! ### Fences -/

/-- R252. A fence: its cache actions at die scope and wider; at domain scope and wider it waits for the strand's posted
writes (22 R378). The order that it makes among the strand's own accesses is the order in which they are performed. -/
def execFence (o : Fe) (s : State) : Out :=
  s.issue (plain o.sc []) fun s1 _ =>
    let w := s1.cur
    if o.sets.getLsbD 1 && s1.awaitsAcks w o.scope.toNat then .wait (.retry .acks)
    else
      let s2 := if o.sets.getLsbD 1 then s1.release w.core o.scope.toNat else s1
      .done (if o.sets.getLsbD 2 then s2.acquire w.core o.scope.toNat else s2)

/-- R253. Discard every instruction that the strand has fetched but not issued; its later fetches find its own earlier
stores. -/
def execIfence (o : R0) (s : State) : Out :=
  s.issue (plain o.sc []) fun s1 _ => .done (s1.onStrand s1.cur fun t => { t with fetched := [], stale := [] })

end Sys2Proof.Machine
end

