-- ==== Sys2Proof/Machine/Parallel.lean ====
section
/-!
DEFINITION. Instructions for parallel work (10): messages, tasks, counters and matching entries (major 25), helpers, rafts,
barriers and priority (major 26); and the events of messages: delivery, handler start, the ferrymaster.
-/
namespace Sys2Proof.Machine
open Sys2Proof

/-! ### Operand faults (10 R180) -/

/-- A parallel-operand fault. -/
def parallelTrap (code : Nat) : Res := .trap (trapOf 11 code)

/-- The checks of a send: descriptor, image address, template, reach (10 R185). The place of the image, or the code. -/
def State.sendCheck (s : State) (w : StrandId) (desc image : Word) : Except Nat Loc :=
  if !descOk desc then .error 1
  else
    match s.ownBuffer w.core image 64 64 with
    | none => .error 4
    | some l =>
      if !templateOk true (BitVec.ofNat 64 (s.viewNat w l 8)) then .error 2
      else if !s.inReach w.core desc then .error 3
      else .ok l

/-- The task of a record, checked as msend checks its operands (10 R193). -/
def State.taskCheck (s : State) (w : StrandId) (va : Word) : Except Nat Task :=
  match s.ownPlace w.core va 16 with
  | none => .error 4
  | some l =>
    let v := s.viewNat w l 16
    let desc := BitVec.ofNat 64 v
    let image := BitVec.ofNat 64 (v / 2 ^ 64)
    match s.sendCheck w desc image with
    | .error c => .error c
    | .ok _ => .ok ⟨desc, image, w⟩

/-- The message of an image at issue. -/
def State.imageMessage (s : State) (w : StrandId) (desc : Word) (l : Loc) : Message :=
  let v := s.viewNat w l 64
  s.address w desc (messageBits w (BitVec.ofNat 64 v) ((List.range 56).map fun k => byteOf v (8 + k)))

/-! ### Sending and reading messages (10 R185, R190, R192) -/

/-- R185. Send one message: it enters the outbound queue, or is a request. -/
def execMsend (o : RAB) (s : State) : Out :=
  s.issue (plain o.sc [.s o.a, .s o.b]) fun s1 n =>
    let w := s1.cur
    let t := s1.strand w
    match s1.sendCheck w (t.getS o.a) (t.getS o.b) with
    | .error c => parallelTrap c
    | .ok l =>
      if !t.det && decide (8 ≤ (s1.core w.core).outbound.length) then .wait (.retry .outbound)
      else .done (s1.submit w n [] (.send (s1.imageMessage w (t.getS o.a) l)))

/-- R190. Read an argument or the header of the message register. -/
def execMargs (o : Mrg) (s : State) : Out :=
  s.issue (plain o.sc []) fun s1 n =>
    let m := (s1.strand s1.cur).msg
    let k := if o.k = 7#3 then 0 else 1 + o.k.toNat
    .done (s1.resultS s1.cur .variable n o.d (m.extractLsb' (64 * k) 64))

/-- Divert the stale messages at the front of a lane. -/
def State.dropStale (s : State) (core p : Nat) : Nat → State
  | 0 => s
  | n + 1 =>
    let c := s.core core
    match c.lane p with
    | [] => s
    | m :: rest => if s.stale core m then ((s.setCore core (c.setLane p rest)).divert m (staleReason m)).dropStale core p n else s

/-- Write a 64-byte message to a buffer as the strand's own store. -/
def State.writeMessage (s : State) (w : StrandId) (l : Loc) (m : MsgBits) : State := s.viewStore w l m.toNat 64

/-- R190. Take the oldest message of a lane into a buffer. -/
def execMlane (o : R3) (s : State) : Out :=
  s.issue (plain o.sc [.s o.a, .s o.b]) fun s1 n =>
    let w := s1.cur
    let t := s1.strand w
    let p := (t.getS o.a).toNat
    if 4 ≤ p then parallelTrap 5
    else
      match s1.ownBuffer w.core (t.getS o.b) 64 64 with
      | none => parallelTrap 4
      | some l =>
        let s2 := s1.dropStale w.core p 16
        let c := s2.core w.core
        match c.lane p with
        | [] => .done (s2.resultS w .variable n o.d 0)
        | m :: rest =>
          match s2.writeRefused w l (t.getS o.b) with
          | some x => .trap x
          | none =>
            let s3 := (s2.setCore w.core (c.setLane p rest)).acquireFor w.core m
            .done ((s3.writeMessage w l m.bits).resultS w .variable n o.d 1)

/-- What mdead answers for an entry (10 R192). -/
def deadWord (count : BitVec 32) (d : Dead) : Word := count ++ d.reason ++ d.gen ++ d.core ++ d.ctx

/-- R192. Take the oldest dead-letter entry into a buffer. -/
def execMdead (o : R2) (s : State) : Out :=
  s.issue (plain o.sc [.s o.a]) fun s1 n =>
    let w := s1.cur
    let va := (s1.strand w).getS o.a
    match s1.ownBuffer w.core va 64 64 with
    | none => parallelTrap 4
    | some l =>
      let c := s1.core w.core
      match c.dead with
      | [] => .done (s1.resultS w .variable n o.d (c.diverted ++ 0#32))
      | d :: rest =>
        match s1.writeRefused w l va with
        | some x => .trap x
        | none =>
          let s2 := s1.setCore w.core { c with dead := rest }
          .done ((s2.writeMessage w l d.bits).resultS w .variable n o.d (deadWord c.diverted d))

/-! ### Counters and matching entries (10 R195) -/

/-- R195. Arm a dependence counter with a task. -/
def execDcset (o : R3) (s : State) : Out :=
  s.issue (plain o.sc [.s o.a, .s o.b]) fun s1 n =>
    let w := s1.cur
    let t := s1.strand w
    let x := t.getS o.a
    if x.extractLsb' 8 24 ≠ 0#24 then parallelTrap 5
    else
      match s1.taskCheck w (t.getS o.b) with
      | .error c => parallelTrap c
      | .ok task => .done (s1.submit w n [o.d] (.depSet o.d (x.toNat % 256) (x.extractLsb' 32 32).toNat task))

/-- R194, R195. Decrement a dependence counter. -/
def execDcdec (o : RAB) (s : State) : Out :=
  s.issue (plain o.sc [.s o.a, .s o.b]) fun s1 n =>
    let w := s1.cur
    let t := s1.strand w
    if 256 ≤ (t.getS o.a).toNat ∨ 2 ^ 32 ≤ (t.getS o.b).toNat then parallelTrap 5
    else .done (s1.submit w n [] (.depDec (t.getS o.a).toNat (t.getS o.b).toNat))

/-- The state of a dependence counter of the core's crew. -/
def State.depOf (s : State) (core n : Nat) : Dep :=
  match s.crewOf core with
  | some c => c.dep n
  | none => Dep.idle

/-- Read a counter, and clear its sticky bit when asked. -/
def dcrdForm (o : R2) (clear : Bool) (s : State) : Out :=
  s.issue (plain o.sc [.s o.a]) fun s1 n =>
    let w := s1.cur
    let i := ((s1.strand w).getS o.a).toNat
    if 256 ≤ i then parallelTrap 5
    else
      let d := s1.depOf w.core i
      let s2 := if clear then s1.onCrew w.core fun c => { c with deps := FMap.put c.deps i { d with under := false } } else s1
      .done (s2.resultS w .variable n o.d d.word)

/-- R195. Read a dependence counter. -/
def execDcrd (o : R2) (s : State) : Out := dcrdForm o false s
/-- R195. Read a dependence counter, then clear under. -/
def execDcrdClr (o : R2) (s : State) : Out := dcrdForm o true s

/-- A matching entry is armed by another crew (10 R180 code 9). -/
def State.foreignEntry (s : State) (core n : Nat) : Bool :=
  match FMap.find (s.cluster (clusterOf core)).matching n with
  | some m => (s.core core).crew != some m.crew
  | none => false

/-- R195. Arm a matching entry. The specification gives its checks no order: index, task record, and then an entry armed by
another crew (DESIGN CHOICE, log entry 85). -/
def execMtab (o : R3) (s : State) : Out :=
  s.issue (plain o.sc [.s o.a, .s o.b]) fun s1 n =>
    let w := s1.cur
    let t := s1.strand w
    let x := t.getS o.a
    if x.extractLsb' 6 10 ≠ 0#10 then parallelTrap 5
    else
      match s1.taskCheck w (t.getS o.b) with
      | .error c => parallelTrap c
      | .ok task =>
        if s1.foreignEntry w.core (x.toNat % 64) then parallelTrap 9
        else
          .done (s1.submit w n [o.d]
            (.matchSet o.d (x.toNat % 64) (x.extractLsb' 16 16) (x.extractLsb' 32 32).toNat task))

/-- R195. Disarm a matching entry. -/
def execMtabDis (o : R3) (s : State) : Out :=
  s.issue (plain o.sc [.s o.a, .s o.b]) fun s1 n =>
    let w := s1.cur
    let t := s1.strand w
    let x := t.getS o.a
    if x.extractLsb' 6 10 ≠ 0#10 ∨ t.getS o.b ≠ 0 then parallelTrap 5
    else if s1.foreignEntry w.core (x.toNat % 64) then parallelTrap 9
    else .done (s1.submit w n [o.d] (.matchOff o.d (x.toNat % 64)))

/-! ### The ferry interface (10 R197, R198) -/

/-- A message that the ferrymaster may move: one for an entry that is not empty and has the crew-wide bit (10 R197). A message
for an empty entry is never moved, whatever its bit (DESIGN CHOICE, log entry 59). -/
def State.movable (s : State) (core : Nat) (m : Message) : Bool :=
  m.bound.isNone && hdrHandler m.bits != 0xFFF#12 &&
    let h := s.handler core (hdrHandler m.bits)
    h.wide && h.entry != 0 && (serviceOf h.entry).isNone

/-- The places of the `n` newest messages of a lane that may move, oldest first. -/
def pickNewest (ok : Message → Bool) (n : Nat) (l : List Message) : List Nat :=
  let good := (List.range l.length).filter fun i => match l[i]? with | some m => ok m | none => false
  good.drop (good.length - n)

/-- Migrate up to `n` messages of a lane from one core to another; the destination lane takes what it has room for
(10 R197). -/
def State.migrate (s : State) (src dst p n : Nat) : State :=
  if src = dst then s
  else
    let a := s.core src
    let b := s.core dst
    let room := 16 - (b.lane p).length
    let places := (pickNewest (s.movable src) n (a.lane p)).take room
    let g := (s.strand ⟨dst, 0⟩).gen
    let moved := (places.filterMap fun i => (a.lane p)[i]?).map fun m => { m with bits := setGen m.bits g, dest := dst }
    let keep := ((a.lane p).zipIdx.filter fun e => !places.contains e.2).map (·.1)
    (s.setCore src (a.setLane p keep)).setCore dst (b.setLane p (b.lane p ++ moved))

/-- The cores of a strand's crew hold a core. -/
def State.inCrew (s : State) (core other : Nat) : Bool :=
  match (s.core core).crew with
  | some k => (s.core other).crew == some k
  | none => core == other

/-- R198. Read the lane occupancy of a core of the crew. -/
def execFerryocc (o : R2) (s : State) : Out :=
  s.issue (plain o.sc [.s o.a]) fun s1 n =>
    let w := s1.cur
    let x := (s1.strand w).getS o.a
    let c := s1.relocate (s1.core w.core).crew (x.toNat % 65536)
    if !s1.inCrew w.core c then parallelTrap 3
    else if 65536 ≤ x.toNat then parallelTrap 5
    else
      let occ (k : Nat) : Nat := ((s1.core c).lane k).length * 2 ^ (8 * k)
      let free := ((List.range 10).filter fun i => !(s1.strand ⟨c, i + 1⟩).live).length
      .done (s1.resultS w .variable n o.d (BitVec.ofNat 64 (occ 0 + occ 1 + occ 2 + occ 3 + free * 2 ^ 32)))

/-- The strand has at least a privilege level; else it takes the privilege fault (02 R40 step 3). -/
def State.atLevel (s : State) (pl : BitVec 2) (k : State → Out) : Out :=
  if (s.strand s.cur).pl.toNat < pl.toNat then .next (s.takeTrap s.cur (trapOf 2 0)) else k s

/-- R198. Migrate messages between two cores of a crew; system level. A count of 0 or above 16 has code 5 (DESIGN CHOICE, log entry
118: 10 R198 gives its range and no code), and the deterministic launch of code 10 is that of the strand that issues (DESIGN
CHOICE, log entry 119: it does not say whose launch is meant). -/
def execFerrymig (o : RAB) (s : State) : Out :=
  s.atLevel 1 fun s => s.issue (plain o.sc [.s o.a, .s o.b]) fun s1 _ =>
    let w := s1.cur
    let t := s1.strand w
    let x := t.getS o.a
    let y := t.getS o.b
    let src := x.toNat % 65536
    let dst := y.toNat % 65536
    let n := (y.extractLsb' 16 5).toNat
    if (s1.core src).crew.isNone ∨ (s1.core src).crew ≠ (s1.core dst).crew ∨ dieOf src ≠ dieOf w.core then parallelTrap 3
    else if 65536 ≤ x.toNat ∨ y.extractLsb' 21 3 ≠ 0#3 ∨ y.extractLsb' 26 38 ≠ 0#38 ∨ n = 0 ∨ 16 < n then parallelTrap 5
    else if t.det then parallelTrap 10
    else .done (s1.migrate src dst (y.extractLsb' 24 2).toNat n)

/-! ### Helpers and priority (10 R199) -/

/-- R199. Start a helper, or write 0. -/
def execHstart (o : R3) (s : State) : Out :=
  s.issue (plain o.sc [.s o.a, .s o.b]) fun s1 n =>
    let w := s1.cur
    let t := s1.strand w
    let x := t.getS o.a
    if x.getLsbD 0 ∨ x.extractLsb' 57 3 ≠ 0#3 ∨ x.extractLsb' 62 2 ≠ 0#2 ∨ x.extractLsb' 52 5 = 31#5 then parallelTrap 5
    else .done (s1.submit w n [o.d] (.start o.d x (t.getS o.b)))

/-- R199. End the issuing helper. Its results are delivered and its streams unbound first: it waits until their steps are
performed. -/
def execHend (o : R0) (s : State) : Out :=
  s.issue (plain o.sc []) fun s1 _ =>
    let w := s1.cur
    if w.ctx = 0 ∨ w.ctx = 11 then parallelTrap 6
    else
      let s2 := s1.deliverAll w
      let s3 := if s2.coreDet w.core then s2.settleStreams w.core else s2
      match (s3.ownStreams w).find? fun e => s3.streamBusy w e.2 with
      | some e => .enter (s3.stay w (.retry (.streamDrain e.1)))
      | none => .done (s3.endStrand w)

/-- R199. Read the strand's own class and set it. -/
def execPrio (o : Pri) (s : State) : Out :=
  s.issue (plain o.sc []) fun s1 n =>
    let w := s1.cur
    let c := (s1.strand w).cls
    .done ((s1.onStrand w fun t => { t with cls := o.c }).resultS w .variable n o.d (c.setWidth 64))

/-- R199. Be passed over in the next selection when another strand of the core is ready. -/
def execYield (o : R0) (s : State) : Out :=
  s.issue (plain o.sc []) fun s1 _ => .done (s1.onCore s1.cur.core fun c => { c with yielded := some s1.cur.ctx })

/-! ### Rafts (09 R177 to R179, 10 R199) -/

/-- The cores of the set bits of a raft mask, and the mask by physical position: bits are taken in the reference placement
(01 R25). -/
def State.raftCores (s : State) (core : Nat) (mask : BitVec 32) : List Nat :=
  ((List.range 32).filter mask.getLsbD).map (s.peerCore core)

def physicalMask (cores : List Nat) : BitVec 32 := BitVec.ofNat 32 ((cores.eraseDups.map fun c => 2 ^ (c % 32)).sum)

/-- The number of mask bits below a core's own bit. -/
def State.raftRank (s : State) (core : Nat) (mask : BitVec 32) : Nat :=
  let own := ((List.range 32).find? fun i => s.peerCore core i == core).getD 0
  ((List.range own).filter mask.getLsbD).length

/-- A strand waits for a raft with this mask. -/
def State.waitsRaft (s : State) (w : StrandId) (m : BitVec 32) : Bool :=
  let t := s.strand w
  match t.wait with
  | .raft _ _ => t.raft == some m
  | _ => false

/-- A strand waits for a raft with another mask that names a core of this one. -/
def State.otherMask (s : State) (cores : List Nat) (m : BitVec 32) : Bool :=
  cores.any fun c =>
    let t := s.strand ⟨c, 0⟩
    match t.wait with
    | .raft _ _ => t.raft != some m
    | _ => false

/-- A waiting member joins the raft that forms: its rank, and the leader's next instruction. -/
def State.joinRaft (s : State) (w : StrandId) (mask : BitVec 32) (pc : Word) : State :=
  let t := s.strand w
  match t.wait with
  | .raft d sc =>
    let s1 := s.resultS w .variable t.slot d (BitVec.ofNat 64 (s.raftRank w.core mask))
    (s1.onStrand w fun t => { t.spend t.slot sc [] with pc := pc, wait := .free }).countRetired w
  | _ => s

/-- R177, R199. Join a raft: the strand waits until every named control strand has issued raft. -/
def execRaft (o : R2) (s : State) : Out :=
  s.issue (plain o.sc [.s o.a]) fun s1 n =>
    let w := s1.cur
    let t := s1.strand w
    let x := t.getS o.a
    let mask := x.setWidth 32
    let cores := s1.raftCores w.core mask
    let m := physicalMask cores
    if x.extractLsb' 32 32 ≠ 0#32 then parallelTrap 5
    else if w.ctx ≠ 0 ∨ (t.raft.isSome ∧ s.waitsRaft w m = false) then parallelTrap 6
    else if cores.length < 2 ∨ !cores.contains w.core ∨ (cores.any fun c => !s1.inCrew w.core c) ∨ s1.otherMask cores m then
      parallelTrap 7
    else
      let others := cores.filter (· != w.core)
      let leader := raftLeader (clusterOf w.core) m
      let joined := s1.onStrand w fun t => { t with raft := some m, steps := 0 }
      if others.all fun c => s1.waitsRaft ⟨c, 0⟩ m then
        let pc := (s1.strand ⟨leader, 0⟩).pc + 4
        let s2 := others.foldl (fun s c => s.joinRaft ⟨c, 0⟩ mask pc) joined
        .jump (s2.resultS w .variable n o.d (BitVec.ofNat 64 (s1.raftRank w.core mask))) pc
      else .enter (joined.onStrand w fun t => { t with wait := .raft o.d o.sc })

/-- R199. Continue at the strand's own target; a raft dissolves. -/
def execSplit (o : RA) (s : State) : Out :=
  s.issue (plain o.sc [.s o.a]) fun s1 _ =>
    let w := s1.cur
    .jump (s1.onStrand w fun t => { t with raft := none }) ((s1.strand w).getS o.a &&& ~~~(1 : Word))

/-- What raft.any and raft.all combine: the members' values, or the strand's own (09 R178). -/
def State.ballot (s : State) (w : StrandId) (a : BitVec 4) : List Bool :=
  if (s.strand w).raft.isSome then (s.strand w).votes else [(s.strand w).getS a != 0]

/-- R199. 1 if a member's value is nonzero. -/
def execRaftAny (o : R2) (s : State) : Out :=
  s.issue (plain o.sc [.s o.a]) fun s1 n =>
    .done (s1.resultS s1.cur .variable n o.d (if (s1.ballot s1.cur o.a).any id then 1 else 0))
/-- R199. 1 if every member's value is nonzero. -/
def execRaftAll (o : R2) (s : State) : Out :=
  s.issue (plain o.sc [.s o.a]) fun s1 n =>
    .done (s1.resultS s1.cur .variable n o.d (if (s1.ballot s1.cur o.a).all id then 1 else 0))

/-! ### Barriers (10 R200, R201) -/

/-- The cores whose strands take part in a barrier of a scope. -/
def Crew.barrierCores (c : Crew) (core scope : Nat) : List Nat :=
  if scope = 0 then [core]
  else if scope = 1 then c.cores.filter fun x => rowOf x == rowOf core
  else if scope = 2 then c.cores.filter fun x => clusterOf x == clusterOf core
  else c.cores

/-- The live participants of a barrier. -/
def State.participants (s : State) (cores : List Nat) (mask : BitVec 12) : List StrandId :=
  cores.flatMap fun c => ((List.range 12).filter mask.getLsbD).filterMap fun x =>
    if (s.strand ⟨c, x⟩).live then some ⟨c, x⟩ else none

/-- A strand arrives at a barrier, opening it when no instance is open: it waits, and the barrier completes when nobody is
awaited. -/
def State.arriveAt (s : State) (w : StrandId) (k : Nat) (c : Crew) (scope slot : Nat) (mask : BitVec 12) (d : BitVec 4)
    (phase : Bool) : State :=
  let key := barrierKey scope (barrierUnit w.core scope) slot
  let b := (FMap.find c.barriers key).getD ⟨mask, s.participants (c.barrierCores w.core scope) mask, []⟩
  let b1 := { b with awaited := b.awaited.filter fun v => v != w, arrived := b.arrived ++ [⟨w, d, phase⟩] }
  let s1 := ((s.unrequest w (.s d)).setCrew k { c with barriers := FMap.put c.barriers key b1 }).onStrand w fun t =>
    { t with wait := .barrier scope slot }
  s1.settleBarrier k key

/-- What refuses an arrival (10 R201): another mask than the open instance's, or a mask without the strand. -/
def Crew.barrierBad (c : Crew) (w : StrandId) (scope slot : Nat) (mask : BitVec 12) : Bool :=
  !mask.getLsbD w.ctx ||
    match FMap.find c.barriers (barrierKey scope (barrierUnit w.core scope) slot) with
    | some b => b.mask != mask
    | none => false

/-- R201. Arrive at a barrier. -/
def execBar (o : Brr) (s : State) : Out :=
  s.issue (plain o.sc [.s o.a]) fun s1 n =>
    let w := s1.cur
    let x := (s1.strand w).getS o.a
    let mask := x.setWidth 12
    let slot := (x.extractLsb' 16 4).toNat
    let scope := o.scope.toNat
    if x.extractLsb' 12 4 ≠ 0#4 ∨ x.extractLsb' 20 44 ≠ 0#44 then parallelTrap 5
    else
      match (s1.core w.core).crew with
      | none => if mask.getLsbD w.ctx then .done (s1.resultS w .variable n o.d 1) else parallelTrap 8
      | some k =>
        match FMap.find s1.crews k with
        | none => if mask.getLsbD w.ctx then .done (s1.resultS w .variable n o.d 1) else parallelTrap 8
        | some c =>
          if c.barrierBad w scope slot mask then parallelTrap 8
          else .done (s1.arriveAt w k c scope slot mask o.d false)

/-! ### Events of messages -/

/-- An earlier message of one sender to one core in one class goes first (10 R189), and so does an earlier launch message of one
sender to one die in one class (22 R372). -/
def State.sameFlow (s : State) (a b : Message) : Bool :=
  (s.senderCore a == s.senderCore b && hdrSrcCtx a.bits == hdrSrcCtx b.bits && a.toDev == b.toDev &&
    s.relocate a.crew a.dest == s.relocate b.crew b.dest && hdrPrio a.bits == hdrPrio b.bits && a.srcDev == b.srcDev) ||
    s.sameLaunches a b

/-- A message between cores of one deterministic crew: it enters its lane as it is served (16 R289). -/
def State.innerDet (s : State) (m : Message) : Bool :=
  match m.crew.bind (FMap.find s.crews) with
  | some c => c.det && m.toDev.isNone && m.diverted.isNone && (s.core (s.relocate m.crew m.dest)).crew == m.crew
  | none => false

/-- A message as it arrives from a peer device (22 R377). -/
def fromPeer (p : PeerMessage) : Message where
  bits := p.bits
  bound := p.bound
  dest := p.core
  toDev := none
  srcDev := some p.dev
  crew := none
  notice := none
  diverted := none
  scope := 0

/-- The job of a message of this device that a peer sends back: that of the message as it left (19 R354). -/
def State.returned (s : State) (p : PeerMessage) : Option Nat :=
  (s.departed.find? fun m => m.toDev == some p.dev && setGen m.bits 0 == setGen p.bits 0).bind (·.crew)

/-- A message arrives from a peer device: one of this device's own that was diverted there goes to its sender's
dead-letter lane, any other into its lane, or waits in the fabric behind earlier ones of its sender (10 R189, R191, 22
R377, 19 R354). With no job at the sender's core, the count that rises is that of the black box of the destination die, which
is the peer's and no part of this machine (DEDUCED, log entry 110). -/
def State.peerArrives (s : State) (p : PeerMessage) : State :=
  let m := fromPeer p
  match p.diverted with
  | some r =>
    let m1 := { m with srcDev := none, crew := s.returned p }
    if (m1.crew.bind (FMap.find s.saved)).isNone && (s.core (s.senderCore m1)).crew.isNone then s else s.divert m1 r.toNat
  | none =>
    let waits : State := { s with transit := s.transit ++ [m] }
    if s.transit.any fun x => s.sameFlow x m then waits else (s.deliverMsg m).getD waits

/-- R186. The `k`-th message in transit arrives, or one from a peer device does. A message to a peer device leaves once its
sender's earlier posted writes are acknowledged (22 R377, R378). -/
def execMessageDelivery (k : Nat) (peer : Option PeerMessage) (s : State) : Out :=
  match peer with
  | some p => .next (s.peerArrives p)
  | none =>
    match s.transit[k]? with
    | none => .next s
    | some m =>
      if ((s.transit.take k).any fun x => s.sameFlow x m) || s.innerDet m then .next s
      else if m.toDev.isSome then
        .next (if s.senderPosted m then s else { s with transit := s.transit.eraseIdx k, departed := s.departed ++ [m] })
      else .next ((({ s with transit := s.transit.eraseIdx k }).deliverMsg m).getD s)

/-- R187. The landing of a core starts a handler. -/
def execHandlerStart (core : Nat) (s : State) : Out :=
  if s.coreDet core then .next s else .next (s.landingStep core).1

/-- The core with the most, and with the fewest, messages in a lane; the lower number on ties. -/
def State.extreme (s : State) (cores : List Nat) (p : Nat) : Option (Nat × Nat) :=
  let n (c : Nat) : Nat := ((s.core c).lane p).length
  match cores with
  | [] => none
  | c :: cs =>
    some (cs.foldl (fun a b => if n a < n b then b else a) c, cs.foldl (fun a b => if n b < n a then b else a) c)

/-- The ferrymaster's work on one lane of a crew. -/
def State.balance (s : State) (cores : List Nat) (p : Nat) : State :=
  match s.extreme cores p with
  | none => s
  | some (a, b) =>
    let d := ((s.core a).lane p).length - ((s.core b).lane p).length
    if 8 ≤ d then s.migrate a b p (d / 2) else s

/-- R197. The ferrymaster of a die balances the lanes of every crew that is not deterministic. -/
def execFerrymasterScan (die : Nat) (s : State) : Out :=
  .next (s.crews.foldl (fun s e =>
    if e.2.det then s
    else [0, 1, 2, 3].foldl (fun s p => s.balance (e.2.cores.filter fun c => dieOf c == die) p) s) s)

end Sys2Proof.Machine
end

