-- ==== Sys2Proof/Machine/Engines.lean ====
section
/-!
DEFINITION. The instructions of the engines, major 24 (15 R260 to R282, 10 R196, 17 R325), and the events of transfers and
register streams.
-/
namespace Sys2Proof.Machine
open Sys2Proof

/-! ### Checks (15 R262) -/

/-- An engine-operand trap. -/
def engineTrap (code : Nat) : Trap := trapOf 13 code

/-- A check of an operand: it passes, or gives its trap. -/
def need13 (ok : Bool) (code : Nat) : Except Trap Unit := if ok then .ok () else .error (engineTrap code)

/-- The trap of a parallel-operand code of a task record. -/
def taskTrap {α : Type} (r : Except Nat α) : Except Trap α := r.mapError fun c => trapOf 11 c

/-- An own buffer, else code 3. -/
def State.engineBuffer (s : State) (core : Nat) (va : Word) (n al : Nat) : Except Trap Loc :=
  match s.ownBuffer core va n al with
  | some l => .ok l
  | none => .error (engineTrap 3)

/-- The lowest byte of write ranges that the berth table refuses (16 R296). Between the ends of entries the answer does
not change. -/
def Crew.berthBadByte (c : Crew) (cls core : Nat) (ranges : List (Nat × Nat)) : Option Nat :=
  let ends := c.berth.flatMap fun e => [e.2.base, e.2.base + e.2.len]
  let bad := ranges.flatMap fun r =>
    (r.1 :: ends.filter fun x => decide (r.1 ≤ x) && decide (x ≤ r.2)).filter fun x =>
      decide (x < Config.windowBase) && !c.berthAllows cls core x
  bad.min?

/-- A transfer's write ranges are checked at issue (16 R296). -/
def State.berthCheck (s : State) (core cls : Nat) (ranges : List (Nat × Nat)) : Except Trap Unit :=
  match s.crewOf core with
  | none => .ok ()
  | some c =>
    if !c.det then .ok ()
    else
      match c.berthBadByte cls (s.core core).index ranges with
      | some x => .error (trapAt 15 3 (BitVec.ofNat 64 x) true)
      | none => .ok ()

/-- The class of a transfer's writes (16 R295); an ordering card writes nothing. -/
def Work.berthClass : Work → Option Nat
  | .gather true .. => some 2
  | .dredge _ => some 3
  | .order _ => none
  | _ => some 1

/-! ### Starting (15 R260, R279) -/

/-- A transfer as an instruction issues it. -/
def State.newTransfer (s : State) (w : StrandId) (work : Work) (note : Note) : Transfer where
  id := 0
  who := w
  pc := (s.strand w).pc
  view := s.viewOf w
  order := 0
  now := s.nowOf w
  work := work
  note := note
  next := 0
  slot := none
  tally := []
  run := DredgeRun.idle
  peered := false
  ahead := []
  failed := none

/-- What a strand waits for before it may issue an operation: room in the crew's scheduler, and for a transfer a slot. -/
def State.operationWait (s : State) (core : Nat) (slot : Bool) : Option Wait :=
  if s.coreDet core then none
  else if slot && (s.core core).freeSlot.isNone then some (.retry .transferSlot)
  else if 1024 ≤ (s.crewOps core).length then some (.retry .scheduler)
  else none

/-- Issue a transfer whose operands have passed their checks: the berth check, a wait, or its start. -/
def State.launchWork (s : State) (n : Nat) (d : BitVec 4) (short : Nat) (work : Work) (note : Note) : Res :=
  let w := s.cur
  match work.berthClass.map fun c => s.berthCheck w.core c (s.writesOf w.core work) with
  | some (.error x) => .trap x
  | _ =>
    match s.operationWait w.core true with
    | some c => .wait c
    | none => .done (s.submit w n [d] (.transfer d short (s.newTransfer w work note)))

/-- The same, for the outcome of the checks. -/
def State.launchChecked (s : State) (n : Nat) (d : BitVec 4) : Except Trap (Nat × Work × Note) → Res
  | .error x => .trap x
  | .ok r => s.launchWork n d r.1 r.2.1 r.2.2

/-! ### Shadow registers and copies (15 R263 to R269) -/

/-- The bits of a shadow register that are not reserved. -/
def shadowMask (i : Nat) : Word :=
  if i = 2 then 0xF30377 else if i = 3 then 0x7F0FF else if i = 4 then 0xFFFFFFFF03FF3F1F else BitVec.allOnes 64

/-- A shadow register's value, and a write of it. -/
def shadowAt (m : FMap Word) (i : Nat) : Word := FMap.getD m i 0
def shadowPut (m : FMap Word) (i : Nat) (x : Word) : FMap Word :=
  let v := x &&& shadowMask i
  if v = 0 then FMap.del m i else FMap.put m i v

/-- The first `n` dimensions of a side: extents and signed strides. -/
def shadowDim (x : Word) : Nat × Int := ((x.setWidth 24).toNat, (x.extractLsb' 24 40).toInt)
def shadowDims (m : FMap Word) (base n : Nat) : List (Nat × Int) := (List.range n).map fun k => shadowDim (shadowAt m (base + k))

/-- The element size in bytes, the mode, the dimension counts and the ring unit of cp.ctl. -/
def ctlWidth (c : Word) : Nat := 2 ^ (c.extractLsb' 8 2).toNat
def ctlMode (c : Word) : Nat := (c.extractLsb' 16 2).toNat
def ctlSnd (c : Word) : Nat := (c.extractLsb' 0 3).toNat
def ctlDnd (c : Word) : Nat := (c.extractLsb' 4 3).toNat
def ctlUnit (c : Word) : Nat := (c.extractLsb' 20 4).toNat

/-- A base and strides are multiples of the element size. -/
def multiples (w : Nat) (base : Word) (dims : List (Nat × Int)) : Bool :=
  base.toNat % w == 0 && dims.all fun d => d.2 % w == 0

/-- The completion objects of cp.note, with the task record when it is named (15 R266, 10 R193). -/
def State.noteOf (s : State) (w : StrandId) (m : FMap Word) : Except Trap Note := do
  let n := shadowAt m 3
  let task ← if n.getLsbD 18 then (taskTrap (s.taskCheck w (shadowAt m 6))).map some else .ok none
  .ok ⟨if n.getLsbD 16 then some (n.extractLsb' 12 4).toNat else none,
    if n.getLsbD 17 then some (n.extractLsb' 0 8).toNat else none, task, none⟩

/-- The work that a shadow set describes, or the code that refuses it. -/
def State.copyOf (s : State) (core : Nat) (m : FMap Word) : Except Trap Work := do
  let c := shadowAt m 2
  let w := ctlWidth c
  let mode := ctlMode c
  let sd := shadowDims m 0x10 (ctlSnd c)
  let dd := shadowDims m 0x18 (ctlDnd c)
  let countOk (n : Nat) : Bool := decide (1 ≤ n) && decide (n ≤ 6)
  need13 (mode != 3 && countOk (ctlSnd c) &&
    (mode != 0 || (countOk (ctlDnd c) && patternCount sd == patternCount dd))) 1
  need13 (multiples w (shadowAt m 0) sd && (mode != 0 || multiples w (shadowAt m 1) dd)) 2
  need13 (decide (patternCount sd * w ≤ 2 ^ 32)) 9
  need13 (mode != 2 || (s.ring core (ctlUnit c)).isSome) 6
  .ok (if mode = 0 then .copy w (shadowAt m 0) (shadowAt m 1) sd dd
    else if mode = 1 then .deal w (shadowAt m 0) sd (shadowAt m 4)
    else .ring w (shadowAt m 0) sd (ctlUnit c))

/-- A launch of a snapshot of the shadow set. -/
def State.copyLaunch (s : State) (w : StrandId) (m : FMap Word) : Except Trap (Nat × Work × Note) := do
  let work ← s.copyOf w.core m
  let note ← s.noteOf w m
  .ok (0, work, note)

/-- R267. Write a shadow register; its reserved bits are ignored. -/
def execCpw (o : Cpw) (s : State) : Out :=
  s.issue (plain o.sc [.s o.a]) fun s1 _ =>
    .done (s1.onStrand s1.cur fun t => { t with shadow := shadowPut t.shadow o.idx.toNat (t.getS o.a) })

/-- R267. Read a shadow register; a read of cp.launch launches the copy. -/
def execCprd (o : Cpr) (s : State) : Out :=
  s.issue (plain o.sc []) fun s1 n =>
    let m := (s1.strand s1.cur).shadow
    if o.idx = 0x3F#8 then s1.launchChecked n o.d (s1.copyLaunch s1.cur m)
    else .done (s1.resultS s1.cur .variable n o.d (shadowAt m o.idx.toNat))

/-- R267. Set source and destination and launch, as one instruction. -/
def execCpgo (o : R3) (s : State) : Out :=
  s.issue (plain o.sc [.s o.a, .s o.b]) fun s1 n =>
    let t := s1.strand s1.cur
    let m := shadowPut (shadowPut t.shadow 0 (t.getS o.a)) 1 (t.getS o.b)
    (s1.onStrand s1.cur fun t => { t with shadow := m }).launchChecked n o.d (s1.copyLaunch s1.cur m)

/-! ### The convolution gather (15 R270, R271) -/

/-- The parameters of a gather, or the code that refuses them. -/
def convOf (m : FMap Word) (a b : Word) : Except Trap Conv := do
  need13 (a.extractLsb' 32 32 == 0#32 && b.extractLsb' 12 20 == 0#20 && b.extractLsb' 40 8 == 0#8) 4
  let c := shadowAt m 5
  let d (i : Nat) : Nat × Int := shadowDim (shadowAt m i)
  let g := (d 0x10).1
  let nimg := (c.extractLsb' 48 16).toNat
  let win := (c.extractLsb' 32 16).toNat
  let wout := (c.extractLsb' 16 16).toNat
  let sw := (c.extractLsb' 0 8).toNat
  let w := ctlWidth (shadowAt m 2)
  let run := (b.extractLsb' 0 12).toNat + 1
  need13 (g != 0 && nimg != 0 && win != 0 && wout != 0 && sw != 0) 1
  need13 (multiples w (shadowAt m 0) [d 0x10, d 0x11, d 0x12] && multiples w (shadowAt m 1) [d 0x18, d 0x19]) 2
  need13 (decide (run * g * w ≤ 2 ^ 32)) 9
  .ok {
    w := w
    src := shadowAt m 0
    dst := shadowAt m 1
    g := g
    group := (b.extractLsb' 48 16).toNat
    s0 := (d 0x10).2
    s1 := (d 0x11).2
    s2 := (d 0x12).2
    d0 := (d 0x18).2
    d1 := (d 0x19).2
    nimg := nimg
    win := win
    wout := wout
    pad := (c.extractLsb' 8 8).toNat
    sw := sw
    q0 := a.toNat
    run := run
    kw := (b.extractLsb' 32 8).toNat }

/-- A gather with its short rows and completion objects. -/
def State.convLaunch (s : State) (w : StrandId) (a b : Word) : Except Trap (Nat × Work × Note) := do
  let m := (s.strand w).shadow
  let c ← convOf m a b
  let note ← s.noteOf w m
  .ok (c.short, .conv c, note)

/-- R271. Gather one channel group along a run of output positions. -/
def execCpconv (o : R3) (s : State) : Out :=
  s.issue (plain o.sc [.s o.a, .s o.b]) fun s1 n =>
    let t := s1.strand s1.cur
    s1.launchChecked n o.d (s1.convLaunch s1.cur (t.getS o.a) (t.getS o.b))

/-! ### Block reads (10 R196) -/

/-- A check with a parallel-operand code. -/
def need11 (ok : Bool) (code : Nat) : Except Trap Unit := if ok then .ok () else .error (trapOf 11 code)

/-- A block read, checked in the order of R196. -/
def State.blockOf (s : State) (w : StrandId) (a b : Word) : Except Trap (Nat × Work × Note) := do
  let l ← taskTrap (match s.ownBuffer w.core b 32 32 with | some l => .ok l | none => .error 4)
  need11 (a.toNat % 8 == 0) 4
  let r := s.ownBytes w l 32
  let dst := BitVec.ofNat 64 (fieldOf r 0 8)
  let len := fieldOf r 8 4
  let tgt := BitVec.ofNat 64 (fieldOf r 16 8)
  let hdr := BitVec.ofNat 64 (fieldOf r 24 8)
  need11 (fieldOf r 12 4 == 0 && len % 8 == 0 && decide (8 ≤ len) && decide (len ≤ 16384)) 5
  need11 (s.ownBuffer w.core dst len 8).isSome 4
  need11 (descOk tgt) 1
  need11 (templateOk false hdr) 2
  need11 (s.inReach w.core tgt) 3
  .ok (0, .block a dst len, ⟨none, none, none, some (tgt, hdr)⟩)

/-- R196. Read a block; a message is sent when it has landed. -/
def execBget (o : R3) (s : State) : Out :=
  s.issue (plain o.sc [.s o.a, .s o.b]) fun s1 n =>
    let t := s1.strand s1.cur
    s1.launchChecked n o.d (s1.blockOf s1.cur (t.getS o.a) (t.getS o.b))

/-! ### Gather and scatter (15 R272) -/

/-- A gather or scatter descriptor with its index list. -/
def State.gatherOf (s : State) (w : StrandId) (put : Bool) (a b : Word) : Except Trap (Nat × Work × Note) := do
  let l ← s.engineBuffer w.core a 32 32
  let r := s.ownBytes w l 32
  let n := fieldOf r 8 4
  let ez := fieldOf r 12 1
  let size := 2 ^ ez
  let target := fieldOf r 14 2
  let tbase := fieldOf r 16 8
  let buf := BitVec.ofNat 64 (fieldOf r 24 8)
  need13 (b.extractLsb' 4 60 == 0#60 && decide (ez ≤ 8) && fieldOf r 13 1 == 0) 4
  need13 (decide (1 ≤ n) && decide (n ≤ 4096)) 9
  need13 (decide (tbase ≤ 0x3FFF) && tbase % size == 0) 2
  let at' := BitVec.ofNat 64 (fieldOf r 0 8)
  let list ← s.engineBuffer w.core at' (4 * n) 4
  let _ ← s.engineBuffer w.core buf (size * n) size
  need13 (s.inCrew w.core (s.relocate (s.core w.core).crew target)) 5
  let bs := s.ownBytes w list (4 * n)
  let idx := (List.range n).map fun i => fieldOf bs (4 * i) 4
  .ok (0, .gather put size target tbase buf at' idx, ⟨some (b.setWidth 4).toNat, none, none, none⟩)

def gatherForm (put : Bool) (o : R3) (s : State) : Out :=
  s.issue (plain o.sc [.s o.a, .s o.b]) fun s1 n =>
    let t := s1.strand s1.cur
    s1.launchChecked n o.d (s1.gatherOf s1.cur put (t.getS o.a) (t.getS o.b))

/-- R272. Gather from a core's local store. -/
def execGget (o : R3) (s : State) : Out := gatherForm false o s
/-- R272. Scatter to a core's local store. -/
def execGput (o : R3) (s : State) : Out := gatherForm true o s

/-! ### Register streams (15 R273, R274) -/

/-- A stream from its descriptor. -/
def State.streamFrom (s : State) (w : StrandId) (v : BitVec 5) (k : Nat) (a : Word) : Except Trap RegStream := do
  let l ← s.engineBuffer w.core a 64 64
  let r := s.ownBytes w l 64
  let base := BitVec.ofNat 64 (fieldOf r 0 8)
  let nd := fieldOf r 8 1
  let dir := fieldOf r 9 1
  let dims := (List.range nd).map fun i => shadowDim (BitVec.ofNat 64 (fieldOf r (16 + 8 * i) 8))
  need13 (decide (1 ≤ nd) && decide (nd ≤ 6) && decide (dir ≤ 1)) 1
  need13 (multiples 8 base dims) 2
  need13 (fieldOf r 10 6 == 0) 4
  let c := s.core w.core
  need13 (decide (v.toNat < 30) && (c.streamOf v).isNone && (c.streams[k]?.join).isNone) 7
  let t := s.strand w
  .ok {
    owner := w.ctx
    view := s.viewOf w
    pc := t.pc
    v := v
    write := dir == 1
    base := base
    dims := dims
    count := patternCount dims
    taken := 0
    performed := 0
    buf := []
    now := 0
    took := ([], 0)
    bad := none
    order := 0 }

/-- The issue of an instruction that names a vector register but neither reads nor writes it. -/
def naming (sc : BitVec 2) (srcs : List Reg) (v : BitVec 5) : Issue := ⟨sc, srcs, [], none, false, [(v, false)], wholly⟩

/-- R274. Tie a vector register to a stream of the core. -/
def execBind (o : Bnd) (s : State) : Out :=
  s.issue (naming o.sc [.s o.a] o.v) fun s1 n =>
    let w := s1.cur
    match s1.streamFrom w o.v o.k.toNat ((s1.strand w).getS o.a) with
    | .error x => .trap x
    | .ok r =>
      match s1.berthCheck w.core 4 (s1.streamOp w.core r).writes with
      | .error x => .trap x
      | .ok _ =>
        match s1.operationWait w.core false with
        | some c => .wait c
        | none => .done (s1.submit w n [] (.bind o.k.toNat r))

/-- R274. Release a stream: a write stream's emitted steps are performed first, and what its binder posted to peer devices is
acknowledged (22 R378). -/
def execUnbind (o : Unb) (s : State) : Out :=
  s.issue (plain o.sc []) fun s1 n =>
    let w := s1.cur
    match (s1.core w.core).streams[o.k.toNat]?.join with
    | none => .trap (engineTrap 7)
    | some r =>
      if s1.streamBusy ⟨w.core, r.owner⟩ r && !s1.coreDet w.core then .wait (.retry (.streamDrain o.k.toNat))
      else .done (s1.submit w n [o.d] (.unbind o.d o.k.toNat))

/-! ### Circular buffers (15 R276) -/

/-- R276. Initialise a unit; s[d] takes its prior state. -/
def execCbinit (o : R3) (s : State) : Out :=
  s.issue (plain o.sc [.s o.a, .s o.b]) fun s1 n =>
    let w := s1.cur
    let t := s1.strand w
    let u := (t.getS o.a).toNat
    let b := t.getS o.b
    let cnt := (b.extractLsb' 22 8).toNat
    let ssz := (b.extractLsb' 16 6).toNat
    let base := (b.extractLsb' 0 14).toNat
    let old := FMap.find (s1.cluster (clusterOf w.core)).rings u
    let k := (s1.core w.core).crew
    if 16 ≤ u ∨ b &&& ~~~(0x3FFF3FFF : Word) ≠ 0 then .trap (engineTrap 4)
    else if ((old.map fun r => some r.crew != k).getD false) || !ringFits (s1.core w.core) cnt ssz base then
      .trap (engineTrap 6)
    else
      .done ((s1.putRing w.core u (Ring.init (k.getD 0) cnt ssz base)).resultS w .variable n o.d ((old.map Ring.word).getD 0))

/-- The unit that s[a] names. -/
def State.unitOf (s : State) (a : Word) : Except Trap (Nat × Ring) :=
  if 16 ≤ a.toNat then .error (engineTrap 4)
  else
    match s.ring s.cur.core a.toNat with
    | some r => .ok (a.toNat, r)
    | none => .error (engineTrap 6)

/-- The number that the next request of a crew gets. -/
def State.nextRequest (s : State) (core : Nat) : Nat :=
  match s.crewOf core with
  | some c => c.numbered
  | none => 0

/-- A reserve or take: it waits for a slot; in a deterministic launch it is a request that parks the strand. -/
def slotForm (o : R2) (blocked : Ring → Bool) (c : Nat → Cond) (r : Nat → Req) (s : State) : Out :=
  s.issue (plain o.sc [.s o.a]) fun s1 n =>
    let w := s1.cur
    match s1.unitOf ((s1.strand w).getS o.a) with
    | .error x => .trap x
    | .ok u =>
      if (s1.strand w).det then
        .done ((s1.submit w n [o.d] (r u.1)).stay w (.parked (.served (s1.nextRequest w.core))))
      else if blocked u.2 then .wait (.retry (c u.1))
      else .done (s1.submit w n [o.d] (r u.1))

/-- R276. Reserve a slot. -/
def execCbpush (o : R2) (s : State) : Out := slotForm o (fun r => r.free == 0) .ringReserve (.push o.d) s
/-- R276. Take a slot. -/
def execCbpop (o : R2) (s : State) : Out := slotForm o (fun r => r.filled == 0) .ringTake (.pop o.d) s

/-- A commit or release of the slot at s[b]. -/
def slotDone (o : RAB) (fit : Ring → Nat → Bool) (r : Nat → Nat → Req) (s : State) : Out :=
  s.issue (plain o.sc [.s o.a, .s o.b]) fun s1 n =>
    let w := s1.cur
    let t := s1.strand w
    match s1.unitOf (t.getS o.a) with
    | .error x => .trap x
    | .ok u =>
      match s1.slotOf w.core u.2 (t.getS o.b) with
      | none => .trap (engineTrap 6)
      | some k => if fit u.2 k then .done (s1.submit w n [] (r u.1 k)) else .trap (engineTrap 6)

/-- R276. Commit a reserved slot. -/
def execCbpushDone (o : RAB) (s : State) : Out := slotDone o Ring.isReserved .commit s
/-- R276. Release a taken slot. -/
def execCbpopDone (o : RAB) (s : State) : Out := slotDone o Ring.isTaken .release s

/-! ### Job cards (15 R277, R278, 17 R325) -/

/-- A footprint entry: base with its flags, and length. -/
def footEntry (bs : List Byte) (i : Nat) : Word × Word :=
  (BitVec.ofNat 64 (fieldOf bs (16 * i) 8), BitVec.ofNat 64 (fieldOf bs (16 * i + 8) 8))

def footOk (e : Word × Word) : Bool :=
  e.1.extractLsb' 52 10 == 0#10 && decide (1 ≤ e.2.toNat) && decide (e.2.toNat ≤ 2 ^ 40)

/-- The footprint list of a card. -/
def State.footList (s : State) (w : StrandId) (card : List Byte) : Except Trap (List (Word × Word)) := do
  let n := fieldOf card 4 2
  if n = 0 then .ok []
  else
    let l ← s.engineBuffer w.core (BitVec.ofNat 64 (fieldOf card 8 8)) (16 * n) 16
    let bs := s.ownBytes w l (16 * n)
    let es := (List.range n).map (footEntry bs)
    need13 (es.all footOk) 4
    .ok es

/-- The completion objects of a card. -/
def State.cardNote (s : State) (w : StrandId) (card : List Byte) : Except Trap Note := do
  let f := card.getD 1 0
  let task ← if f.getLsbD 2 then
      let desc := BitVec.ofNat 64 (fieldOf card 16 8)
      let image := BitVec.ofNat 64 (fieldOf card 24 8)
      (taskTrap (s.sendCheck w desc image)).map fun _ => some (Task.mk desc image w)
    else .ok none
  .ok ⟨if f.getLsbD 1 then some (fieldOf card 3 1 % 16) else none, if f.getLsbD 0 then some (fieldOf card 2 1) else none,
    task, none⟩

/-- The body of a dredge card. -/
def State.dredgeOf (s : State) (w : StrandId) (card : List Byte) (foot : List (Word × Word)) : Except Trap Work := do
  let plist := BitVec.ofNat 64 (fieldOf card 32 8)
  let npages := fieldOf card 40 2
  let fmt : Byte := card.getD 42 0
  let flags : Byte := card.getD 43 0
  let result := BitVec.ofNat 64 (fieldOf card 48 8)
  need13 (npages != 0) 1
  need13 (decide (npages ≤ 256)) 9
  need13 (fmt.extractLsb' 4 4 == 0#4 && flags.extractLsb' 2 6 == 0#6 && fieldOf card 56 8 == 0) 4
  let _ ← s.engineBuffer w.core plist (16 * npages) 16
  let _ ← s.engineBuffer w.core result (40 + npages) 8
  .ok (.dredge {
    plist := plist
    npages := npages
    fmt := fmt.setWidth 3
    hd := if fmt.getLsbD 3 then 128 else 64
    freeEmpty := flags.getLsbD 0
    zeroRows := flags.getLsbD 1
    thresh := BitVec.ofNat 32 (fieldOf card 44 4)
    result := result
    foot := foot })

/-- The body of a card by its kind. -/
def State.cardWork (s : State) (w : StrandId) (card : List Byte) (foot : List (Word × Word)) : Except Trap Work :=
  let word (k : Nat) : Word := BitVec.ofNat 64 (fieldOf card k 8)
  match fieldOf card 0 1 with
  | 0 => (need13 (fieldOf card 32 32 == 0) 4).map fun _ => .order foot
  | 1 => (need13 (fieldOf card 52 12 == 0) 4).map fun _ => .bytes (word 32) (word 40) (fieldOf card 48 4)
  | 2 => (need13 (fieldOf card 44 4 == 0 && fieldOf card 56 8 == 0) 4).map fun _ => .fill (word 32) (fieldOf card 40 4) (word 48)
  | _ => s.dredgeOf w card foot

/-- The ranges of addresses that a card names. -/
def cardRanges (work : Work) (foot : List (Word × Word)) : List (Nat × Nat) :=
  (foot.map fun e => ((e.1 &&& 0xFFFFFFFFFFFFF).toNat, e.2.toNat)) ++
    match work with
    | .bytes src dst len => [(src.toNat, len), (dst.toNat, len)]
    | .fill dst len _ => [(dst.toNat, len)]
    | _ => []

/-- A range of `n` bytes reaches into the peer window of another rival's core (16 R301). -/
def State.namesRival (s : State) (core va n : Nat) : Bool :=
  (List.range 32).any fun i =>
    let lo := Config.windowBase + 0x400000 + i * 0x10000
    decide (va < lo + 0x10000) && decide (lo < va + n) && s.otherRival (s.core core).crew (s.peerCore core i)

/-- A card at an address of the strand's, of the kinds that the instruction takes. -/
def State.cardOf (s : State) (w : StrandId) (kinds : List Nat) (a : Word) : Except Trap (Nat × Work × Note) := do
  let l ← s.engineBuffer w.core a 64 64
  let card := s.ownBytes w l 64
  let kind := fieldOf card 0 1
  let nfp := fieldOf card 4 2
  need13 (kinds.contains kind) 8
  need13 (decide (fieldOf card 1 1 < 8) && decide (fieldOf card 3 1 < 16) && fieldOf card 6 2 == 0) 4
  need13 (decide (nfp ≤ 64)) 9
  need13 ((nfp == 0) == (kind == 1 || kind == 2)) 1
  let foot ← s.footList w card
  let work ← s.cardWork w card foot
  need13 (!(cardRanges work foot).any fun r => s.namesRival w.core r.1 r.2) 5
  let note ← s.cardNote w card
  .ok (0, work, note)

def cardForm (kinds : List Nat) (o : R2) (s : State) : Out :=
  s.issue (plain o.sc [.s o.a]) fun s1 n =>
    s1.launchChecked n o.d (s1.cardOf s1.cur kinds ((s1.strand s1.cur).getS o.a))

/-- R278. Issue a card of kind 0 to 2. -/
def execCard (o : R2) (s : State) : Out := cardForm [0, 1, 2] o s
/-- R278. Issue a card of kind 3 to the dredge engine. -/
def execDredge (o : R2) (s : State) : Out := cardForm [3] o s

/-! ### Completion counters (15 R280) -/

/-- A core's completion counter. -/
def State.counter (s : State) (core : Nat) (n : BitVec 4) : Word := (s.core core).counters[n.toNat]'(n.isLt)

/-- A counter has reached a target (15 R280). -/
def countReached (x target : Word) : Bool := decide ((x.setWidth 32 - target.setWidth 32 : BitVec 32).toNat < 2 ^ 31)

/-- The completions counted are acquired at system scope (14 R257). -/
def State.acquireCount (s : State) (core : Nat) : State := if s.coreDet core then s else s.acquire core 5

/-- R280. Wait for a completion counter to reach a value. -/
def execCtwait (o : Ctw) (s : State) : Out :=
  s.issue (plain o.sc [.s o.a]) fun s1 n =>
    let w := s1.cur
    let target := (s1.strand w).getS o.a
    let x := s1.counter w.core o.n
    if countReached x target then .done ((s1.acquireCount w.core).resultS w .variable n o.d x)
    else if (s1.strand w).det then .done (s1.stay w (.parked (.counter o.n target o.d)))
    else .wait (.retry (.counter o.n target))

/-- R280. Read a completion counter. -/
def execCtrd (o : Ctr) (s : State) : Out :=
  s.issue (plain o.sc []) fun s1 n =>
    .done ((s1.acquireCount s1.cur.core).resultS s1.cur .variable n o.d (s1.counter s1.cur.core o.n))

/-! ### Events -/

/-- R261. A transfer runs to its end and completes. In a deterministic launch transfers run at quantum ends. -/
def execTransferCompletion (core slot : Nat) (s : State) : Out :=
  if s.coreDet core then .next s else .next (s.runTransfer core slot).1

/-- A ring copy reserves its next slot, if one is free, fills it event by event, as far as pages let it, and commits it. -/
def State.copyReserve (s : State) (core slot : Nat) : State :=
  match FMap.find (s.core core).slots slot with
  | none => s
  | some t =>
    match t.work with
    | .ring _ _ _ u =>
      if t.slot.isSome || s.heldBack core (s.transferOp core t) then s
      else
        match FMap.find (s.cluster (clusterOf core)).rings u with
        | some r =>
          let x := s.performs (r.slotBytes / 8) t
          (x.1.endFailed x.2.1).getD (x.1.putSlot core slot x.2.1)
        | none => s
    | _ => s

/-- R269. A ring copy that waited on a full ring goes on with its next slot. -/
def execCopyRingReserve (core slot : Nat) (s : State) : Out :=
  if s.coreDet core then .next s else .next (s.copyReserve core slot)

/-- R275. A stream's engine takes one step. -/
def execStreamFill (core k : Nat) (s : State) : Out :=
  if s.coreDet core then .next s else .next (s.streamStep core k).1

end Sys2Proof.Machine
end

