-- ==== Sys2Proof/Machine/Keyed.lean ====
section
/-!
DEFINITION. Arithmetic of the joint array: f32 values whose NaNs carry a key (11 R215, 17 R323), formats by matrix code
(02 R38), keyed dot products (11 R213, R215), and powers of two (17 R317).
-/
namespace Sys2Proof.Machine
open Sys2Proof

/-- A value with the key that it carries as a NaN. -/
structure Keyed where
  x : FVal
  key : Nat
deriving DecidableEq, Repr

/-- An f32 pattern: a NaN's key is its low byte. -/
def Keyed.ofBits (b : Nat) : Keyed := ⟨Fmt.f32.decode b, b % 256⟩

/-- A value rounded to f32 by nearest-even, and its pattern. -/
def Keyed.bits (v : Keyed) : Nat := if v.x.isNaN then 0x7FC00000 + v.key % 256 else Fmt.f32.round .near false v.x
def Keyed.round (v : Keyed) : Keyed := { v with x := Fmt.f32.decode (Fmt.f32.round .near false v.x) }

/-- The least key of the NaN operands, or a default. -/
def leastKey (ops : List Keyed) (dflt : Nat) : Nat := (((ops.filter (·.x.isNaN)).map (·.key)).min?).getD dflt

/-- A result formed from operands: its key if it is a NaN. -/
def keyed (dflt : Nat) (ops : List Keyed) (x : FVal) : Keyed := ⟨x, leastKey ops dflt⟩

def Keyed.add (dflt : Nat) (a b : Keyed) : Keyed := keyed dflt [a, b] (FVal.sum .near a.x b.x)
def Keyed.mul (dflt : Nat) (a b : Keyed) : Keyed := keyed dflt [a, b] (FVal.prod a.x b.x)

/-! ### Formats (02 R38) -/

/-- Codes 2 to 7 are binary8. -/
def matB8 (c : BitVec 3) : Bool := decide (2 ≤ c.toNat)
/-- Bytes of an element. -/
def matWidth (c : BitVec 3) : Nat := if matB8 c then 1 else 2

/-- An element of a matrix format; a NaN's key is the low byte of its code. -/
def matDecode (c : BitVec 3) (b : Nat) : Keyed :=
  ⟨match c.toNat with
    | 0 => Fmt.bf16.decode b
    | 1 => Fmt.h16.decode b
    | 2 => b8Decode 2 false false b
    | 3 => b8Decode 3 false false b
    | 4 => b8Decode 4 false false b
    | 5 => b8Decode 2 false true b
    | 6 => b8Decode 3 false true b
    | _ => b8Decode 4 false true b, b % 256⟩

/-! ### Dot products (11 R213, R215) -/

/-- The least index of a list whose value satisfies a test. -/
def leastIndex (xs : List FVal) (f : FVal → Bool) : Option Nat := xs.findIdx? f

def FVal.isInf : FVal → Bool
  | .inf _ => true
  | _ => false

/-- The exact sum of values. -/
def exactSum : List FVal → FVal
  | [] => .zero false
  | x :: xs => xs.foldl (FVal.sum .near) x

/-- A node of a keyed tree: its value, and the least leaf under it. -/
structure Node where
  v : Keyed
  leaf : Nat
deriving DecidableEq, Repr

/-- One level of a tree sum: a NaN without a NaN operand is keyed by the least leaf of its node. -/
def nodeLevel : List Node → List Node
  | a :: b :: t => ⟨(Keyed.add a.leaf a.v b.v).round, a.leaf⟩ :: nodeLevel t
  | t => t

def nodeLevels : Nat → List Node → List Node
  | 0, l => l
  | n + 1, l => nodeLevels n (nodeLevel l)

/-- The dot product of a position from its terms: exact for 32 terms, a rounded tree for 16; its NaN is keyed by the
earliest term that is NaN, else infinite, else by its node. -/
def dotOf (p : Nat) (terms : List FVal) : Keyed :=
  let raw : Keyed :=
    if terms.length = 16 then
      match nodeLevels 4 (terms.zipIdx.map fun e => ⟨⟨e.1, e.2⟩, e.2⟩) with
      | n :: _ => n.v
      | [] => ⟨.zero false, 0⟩
    else ⟨exactSum terms, 0⟩
  let k := match leastIndex terms FVal.isNaN with
    | some k => k
    | none => (leastIndex terms FVal.isInf).getD raw.key
  ⟨raw.x, p * 32 + k⟩

/-! ### Powers of two (17 R317) -/

/-- The fraction bits that a power of two is computed with (log entry 45). -/
abbrev powBits : Nat := 320

/-- ln 2 in units of 2^-powBits: the sum of 1 / (k 2^k). -/
def lnTwo : Nat → Nat
  | 0 => 0
  | n + 1 => lnTwo n + 2 ^ powBits / ((n + 1) * 2 ^ (n + 1))

/-- The exponential series of y / 2^powBits, from term `k` on. -/
def expSeries (y : Nat) : Nat → Nat → Nat → Nat
  | 0, _, _ => 0
  | n + 1, k, term => term + expSeries y n (k + 1) (term * y / 2 ^ powBits / (k + 1))

/-- 2^(f / 2^powBits) in units of 2^-powBits, for a fraction f. -/
def powFrac (f : Nat) : Nat := expSeries (f * lnTwo 340 / 2 ^ powBits) 90 0 (2 ^ powBits)

/-- Exp2R of an exact value, as a pattern (17 R317). -/
def exp2R : FVal → FVal
  | .nan => .nan
  | .inf neg => if neg then .zero false else .inf false
  | .zero _ => Fmt.f32.decode (Fmt.f32.round .near false (.fin false 1 0))
  | .fin neg m e =>
    let v : Int := if neg then -(m : Int) else m
    let whole : Int := if 0 ≤ e then v * 2 ^ e.toNat else v / 2 ^ (-e).toNat
    if 1000 < FVal.log2 (.fin neg m e) ∨ 1000 < whole ∨ whole < -1000 then (if neg then .zero false else .inf false)
    else
      let frac : Nat := if 0 ≤ e then 0 else (v % 2 ^ (-e).toNat).toNat * 2 ^ powBits / 2 ^ (-e).toNat
      let r : FVal := if frac = 0 then .fin false 1 whole
        else .fin false (2 * powFrac frac + 1) (whole - powBits - 1)
      Fmt.f32.decode (Fmt.f32.round .near false r)

end Sys2Proof.Machine
end

