-- ==== Sys2Proof/Machine/Matrix.lean ====
section
/-!
DEFINITION. The joint array of a row (11): chain instructions and their joins, the operands and the arithmetic of mma,
budget and delivery, and the accumulator and cursor instructions (majors 21 and 22).
-/
namespace Sys2Proof.Machine
open Sys2Proof

/-! ### Accumulators -/

/-- Element `n` = 16 i + j of a tile. -/
def tileElem (t : Tile) (n : Nat) : Nat := (t.extractLsb' (32 * n) 32).toNat

/-- The tile of 256 elements. -/
def ofTile (f : Nat → Nat) : Tile := BitVec.ofNat 8192 (digits 32 (fun n => f n % 2 ^ 32) 256)

/-- The position of a core in its row. -/
def posOf (core : Nat) : Nat := core % 8

/-! ### Operands (11 R208 to R211) -/

/-- Terms of a dot product, and the bytes of a line. -/
def matK (fa fb : BitVec 3) : Nat := if matB8 fa && matB8 fb then 32 else 16
def lineBytes (f : BitVec 3) (k : Nat) : Nat := k * matWidth f

/-- The s registers and vector registers of an operand field. -/
def operandRegs (x : BitVec 4) : List Reg :=
  if x.getLsbD 3 then [] else [.s (x <<< 1), .s ((x <<< 1) + 1)]
def operandVecs (x : BitVec 4) (len : Nat) : List (BitVec 5 × Bool) :=
  if x.getLsbD 3 then
    let j : BitVec 5 := (x.setWidth 3).setWidth 5 <<< 1
    [(j, true), (j + 1, decide (len = 32))]
  else []

/-- An operand as it is read at issue. -/
def State.operand (s : State) (w : StrandId) (x : BitVec 4) : Operand :=
  if x.getLsbD 3 then
    let j : BitVec 5 := (x.setWidth 3).setWidth 5 <<< 1
    .regs (s.readV w.core j) (s.readV w.core (j + 1))
  else
    let t := s.strand w
    .desc (t.getS (x <<< 1)) (t.getS ((x <<< 1) + 1))

/-- The address of line `l` as position `p` reads it. -/
def lineAddr (base ctl : Word) (p l : Nat) : Word :=
  let rp := (ctl.extractLsb' 0 16).toNat
  let tp := (ctl.extractLsb' 16 16).toNat
  let rot := (ctl.extractLsb' 32 4).toNat
  base + BitVec.ofNat 64 (p * tp + l * rp + 64 * (l * rot % 16))

/-- The bytes of a line lie in the scratchpad window. -/
def inPadWindow (a : Word) (n : Nat) : Bool :=
  decide (Config.windowBase + 0x200000 ≤ a.toNat) && decide (a.toNat + n ≤ Config.windowBase + 0x400000)

/-- A matrix fault at line `l`. -/
def matrixTrap (code : Nat) (addr : Word) (l : Nat) : Trap := { trapAt 12 code addr false with elem := BitVec.ofNat 64 l }

/-- The checks of a descriptor of 16 lines: reserved bits, alignment of base and pitches, window (11 R211). A pitch that breaks the
alignment is recorded as the base is, with the base's address and element 0 (DESIGN CHOICE, log entry 120: 11 R211 does not
say). -/
def descCheck (base ctl : Word) (p len al : Nat) (tile : Bool) : Option Trap :=
  if ctl.extractLsb' 36 28 ≠ 0#28 then some (matrixTrap 1 0 0)
  else if base.toNat % al ≠ 0 ∨ (ctl.extractLsb' 0 16).toNat % al ≠ 0 ∨ (tile ∧ (ctl.extractLsb' 16 16).toNat % al ≠ 0) then
    some (trapAt 5 0 base false)
  else
    ((List.range 16).find? fun l => !inPadWindow (lineAddr base ctl p l) len).map fun l =>
      matrixTrap 2 (lineAddr base ctl p l) l

/-- The check of an mma operand on its position. -/
def Operand.check (o : Operand) (p len : Nat) : Option Trap :=
  match o with
  | .regs .. => none
  | .desc base ctl => descCheck base ctl p len len true

/-- A core's scratchpad grant, and the place of a scratchpad-window address under a grant: that of the issue, which a later
write of core.spgrant does not change (01 R22, R24, R28). -/
def Core.grant (c : Core) : BitVec 8 × BitVec 9 := (c.spBase, c.spLen)
def padPlace (core : Nat) (g : BitVec 8 × BitVec 9) (a : Word) : Option Loc :=
  ({ Core.reset with spBase := g.1, spLen := g.2 }.padByte (a.toNat - Config.windowBase - 0x200000)).map (.pad (clusterOf core))

/-- The value of `n` doublewords of the scratchpad window as a strand reads them, and the lowest address out of range. -/
def State.padRead (s : State) (w : StrandId) (g : BitVec 8 × BitVec 9) (a : Word) : Nat → Nat × Option Word
  | 0 => (0, none)
  | n + 1 =>
    let r := s.padRead w g a n
    let b := a + BitVec.ofNat 64 (8 * n)
    match padPlace w.core g b with
    | some l => (r.1 + s.viewNat w l 8 * 2 ^ (64 * n), r.2)
    | none => (r.1, r.2.or (some b))

/-- The first of `n` doublewords of the scratchpad window that fails its check code (24 R390). -/
def State.padFail (s : State) (w : StrandId) (g : BitVec 8 × BitVec 9) (a : Word) (n : Nat) : Option Trap :=
  (List.range n).findSome? fun k =>
    let b := a + BitVec.ofNat 64 (8 * k)
    (padPlace w.core g b).bind fun l => s.failedRead w .read b l 8

/-- The 16 lines of an operand, each as 32 bytes, and its first offence: the lowest byte out of range of its first line that
has one. An mma with more than one such line records the first in line order, operand A before operand B (DESIGN CHOICE, log
entry 81: 01 R27 does not say whether its lowest address is that of a line or of the whole instruction). -/
def State.operandLines (s : State) (w : StrandId) (g : BitVec 8 × BitVec 9) (o : Operand) (p len : Nat) :
    BitVec 4096 × Option Word :=
  match o with
  | .regs lo hi =>
    if len = 32 then (hi ++ lo, none)
    else (BitVec.ofNat 4096 (digits 256 (fun l => lo.toNat / 2 ^ (128 * l) % 2 ^ 128) 16), none)
  | .desc base ctl =>
    let rs := (List.range 16).map fun l => s.padRead w g (lineAddr base ctl p l) (len / 8)
    (BitVec.ofNat 4096 (digits 256 (fun l => (rs.getD l (0, none)).1) 16), rs.findSome? (·.2))

/-- The first line of an operand that fails its check code. -/
def State.operandFail (s : State) (w : StrandId) (g : BitVec 8 × BitVec 9) (o : Operand) (p len : Nat) : Option Trap :=
  match o with
  | .regs .. => none
  | .desc base ctl => (List.range 16).findSome? fun l => s.padFail w g (lineAddr base ctl p l) (len / 8)

/-- Record a read offence of a strand. -/
def State.readOffence (s : State) (w : StrandId) (a : Option Word) : State :=
  match a with
  | some x => s.offence w x false
  | none => s

/-! ### The chain (11 R203 to R205) -/

/-- The accumulators that an issued chain instruction names. -/
def ChainOp.accs : ChainOp → List (BitVec 2)
  | .mma acc .. => [acc]
  | .rowcfg .. => []
  | .score acc .. => [acc]
  | .soft acc .. => [acc]
  | .value acc aw .. => [acc, aw]
  | .mass acc .. => [acc]

/-- What has to agree between the eight instructions of an instance. -/
def ChainOp.kind : ChainOp → List Nat
  | .mma _ fa fb ac .. => [0, fa.toNat, fb.toNat, ac.toNat]
  | .rowcfg _ deep => [1, deep.toNat]
  | .score _ fmt hd .. => [2, fmt.toNat, hd]
  | .soft .. => [3]
  | .value _ _ fmt hd .. => [4, fmt.toNat, hd]
  | .mass .. => [5]

/-- A chain instruction issues: it takes its place in its position's queue, and the strand waits for the join. It notes the
steps that it took of read streams, those tied to the vector registers `vs` that it reads. -/
def State.chain (s : State) (w : StrandId) (n : Nat) (sc : BitVec 2) (op : ChainOp) (vs : List (BitVec 5))
    (places : List (Nat × Option Loc)) (f : Option Trap) : Res :=
  let r := rowOf w.core
  let row := s.row r
  let taken := ((vs.eraseDups.filterMap (s.core w.core).streamOf).filter fun e => !e.2.write).map fun e =>
    (⟨e.1, e.2.order, e.2.took.1, e.2.took.2⟩ : StepTaken)
  let i : ChainIssue := ⟨w, s.ir, n, sc, (s.core w.core).grant, op, places, taken, f⟩
  let q := row.queues.set (posOf w.core) (row.queues[posOf w.core]'(Nat.mod_lt _ (by decide)) ++ [i])
    (Nat.mod_lt _ (by decide))
  .enter ((s.setRow r { row with queues := q }).stay w .chain)

/-- The steps that a chain instruction took are given back to their streams: it has no effect, or is withdrawn (11 R205, R220). A
stream that has been bound since is another one. -/
def State.giveBack (s : State) (i : ChainIssue) : State :=
  i.taken.foldl (fun s e =>
    match (s.core i.who.core).streams[e.stream]?.join with
    | some r => if r.order = e.order then s.onCore i.who.core fun c => c.putStream e.stream (some (r.giveBack e)) else s
    | none => s) s

/-- Take a trap on a strand at the chain instruction that it issued. -/
def State.chainTrap (s : State) (i : ChainIssue) (x : Trap) : State :=
  let s1 := (s.giveBack i).onStrand i.who fun t => { t with wait := .free }
  { ({ s1 with ir := i.ir }.takeTrap i.who x) with ir := s.ir, trapped := s.trapped }

/-- A member's strand leaves the chain behind its instruction. -/
def State.chainDone (s : State) (i : ChainIssue) : State :=
  (s.onStrand i.who fun t => { ((t.follow (irBytes i.ir)).spend i.slot i.sc []) with wait := .free }).countRetired i.who

/-- The members of the next instance: the oldest issue of each position. -/
def Row.members (r : Row) : Option (List ChainIssue) := r.queues.toList.mapM List.head?

/-- The instance is used up. -/
def Row.pop (r : Row) : Row := { r with queues := r.queues.map List.tail, joined := r.joined + 1 }

/-- The traps of an instance that does not take effect: own faults with partner faults, or the mismatch (11 R205,
17 R316). -/
def instanceTraps (ms : List ChainIssue) : Option (List (ChainIssue × Trap)) :=
  if ms.any fun i => i.fault.isSome then some (ms.map fun i => (i, i.fault.getD (trapOf 12 5)))
  else if ms.all fun i => some i.op.kind == ms.head?.map fun j => j.op.kind then none
  else some (ms.map fun i => (i, trapOf 12 3))

/-! ### mma (11 R212 to R215) -/

/-- The exact term of element codes under scale codes. -/
def macTerm (fa fb : BitVec 3) (a b sa sb : Nat) : FVal :=
  FVal.scale (FVal.scale (FVal.prod (matDecode fa a).x (matDecode fb b).x) sa) sb

/-- Element `k` of line `l`. -/
def lineElem (v : BitVec 4096) (w l k : Nat) : Nat := v.toNat / 2 ^ (256 * l + 8 * w * k) % 2 ^ (8 * w)

/-- Byte `n` of a word. -/
def wordByte (x : Word) (n : Nat) : Nat := x.toNat / 2 ^ (8 * n) % 256

/-- The dot product of row `i` and column `j` on position `p`. -/
def Slice.dot (x : Slice) (fa fb : BitVec 3) (ac : BitVec 2) (p i j : Nat) : Keyed :=
  let sa := if ac ≠ 2#2 ∧ matB8 fa then wordByte x.scale (i / 4) else 127
  let sb := if ac ≠ 2#2 ∧ matB8 fb then wordByte x.scale (4 + j / 4) else 127
  dotOf p ((List.range (matK fa fb)).map fun k =>
    macTerm fa fb (lineElem x.a (matWidth fa) i k) (lineElem x.b (matWidth fb) j k) sa sb)

/-- Prep: what an accumulator element brings to the addition. -/
def Slice.prep (x : Slice) (ac : BitVec 2) (p c : Nat) : Keyed :=
  if ac = 0#2 then ⟨.zero false, 0⟩
  else if ac = 1#2 then Keyed.ofBits c
  else ((Keyed.ofBits c).mul (p * 32 + 31) (Keyed.ofBits (lowNat x.scale))).round

/-- The new accumulator of an active position in wide shape. -/
def Slice.wide (x : Slice) (fa fb : BitVec 3) (ac : BitVec 2) (p : Nat) (old : Tile) : Tile :=
  ofTile fun n =>
    ((x.prep ac p (tileElem old n)).add (p * 32 + 31) (x.dot fa fb ac p (n / 16) (n % 16))).bits

/-- The chain's sum over the active positions, in position order. -/
def chainSum (dots : List (Nat × Keyed)) : Option Keyed :=
  dots.foldl (fun c d =>
    match c with
    | none => some d.2.round
    | some c => some (c.add (d.1 * 32 + 31) d.2).round) none

/-- The new accumulator of position 7 in deep shape. -/
def deepTile (xs : List Slice) (fa fb : BitVec 3) (ac : BitVec 2) (x7 : Slice) (old : Tile) : Tile :=
  ofTile fun n =>
    let act := xs.zipIdx.filter fun e => e.1.act
    let c := chainSum (act.map fun e => (e.2, e.1.dot fa fb ac e.2 (n / 16) (n % 16)))
    match c with
    | some c => ((x7.prep ac 7 (tileElem old n)).add 255 c).bits
    | none => if ac = 1#2 then tileElem old n else (x7.prep ac 7 (tileElem old n)).bits

/-- The accumulators that a joined mma writes, by position. -/
def Joined.writes (j : Joined) (p : Nat) : Option (BitVec 2) :=
  match j.slices[p]? with
  | none => none
  | some x => if j.deep then (if p = 7 then some x.acc else none) else if x.act then some x.acc else none

/-- Deliver a joined mma's results to the accumulators of a row. -/
def State.deliverJoined (s : State) (r : Nat) (j : Joined) : State :=
  if j.deep then
    match j.slices[7]? with
    | none => s
    | some x => s.onCore (r * 8 + 7) fun c => c.putAcc x.acc (deepTile j.slices j.fa j.fb j.ac x (c.getAcc x.acc))
  else
    j.slices.zipIdx.foldl (fun s e =>
      if e.1.act then s.onCore (r * 8 + e.2) fun c => c.putAcc e.1.acc (e.1.wide j.fa j.fb j.ac e.2 (c.getAcc e.1.acc))
      else s) s

/-! ### The join of an mma (11 R213, R214, R218) -/

/-- The operands of an mma as issued, and the grant under which its lines are read. -/
structure MmaIssue where
  grant : BitVec 8 × BitVec 9
  acc : BitVec 2
  q : BitVec 3
  scale : Word
  a : Operand
  b : Operand
deriving DecidableEq, Repr

def ChainIssue.mmaPart (i : ChainIssue) : Option MmaIssue :=
  match i.op with
  | .mma acc _ _ _ q scale a b => some ⟨i.grant, acc, q, scale, a, b⟩
  | _ => none

/-- The bit that a strand's tile predicate selects (11 R214). -/
def Strand.tileBit (t : Strand) (q : BitVec 3) : Bool := (t.getQ q).getLsbD (t.getCursor q).toNat

/-- The number of set bits. -/
def bitCount (x : Nat) : Nat → Nat
  | 0 => 0
  | n + 1 => bitCount x n + x / 2 ^ n % 2

/-- The bits that differ between a slice's operands and its previous ones. -/
def flipsOf (a b : BitVec 4096) (prev : BitVec 4096 × BitVec 4096) : Nat :=
  bitCount (a ^^^ prev.1).toNat 4096 + bitCount (b ^^^ prev.2).toNat 4096

/-- One position's slice at the join: it reads its operands if active; in wide shape A is the leader's. An inactive slice, for
which 11 R218 gives E and no F, records F as 0 (DESIGN CHOICE, log entry 107). -/
def State.joinSlice (s : State) (row : Row) (fa fb : BitVec 3) (lead : BitVec 4096 × Option Word) (p : Nat) (who : StrandId)
    (m : MmaIssue) : State × Slice :=
  let k := matK fa fb
  if (s.strand who).tileBit m.q then
    let a := if row.deep then s.operandLines who m.grant m.a p (lineBytes fa k) else lead
    let b := s.operandLines who m.grant m.b p (lineBytes fb k)
    let own := row.deep || p == 0
    let flips := flipsOf a.1 b.1 (row.prev[p]?.getD (0, 0))
    ((s.readOffence who (if own then a.2 else none)).readOffence who b.2,
      ⟨m.acc, true, m.scale, a.1, b.1, 32 + flips / 8, flips⟩)
  else (s, ⟨m.acc, false, m.scale, 0, 0, 4, 0⟩)

/-- The slices of an instance, in position order. -/
def State.joinSlices (s : State) (row : Row) (fa fb : BitVec 3) (lead : BitVec 4096 × Option Word) :
    List (Nat × StrandId × MmaIssue) → State × List Slice
  | [] => (s, [])
  | e :: es =>
    let r := s.joinSlice row fa fb lead e.1 e.2.1 e.2.2
    let rest := r.1.joinSlices row fa fb lead es
    (rest.1, r.2 :: rest.2)

/-- The previous operands after an mma: those of active slices. -/
def Row.nextPrev (r : Row) (xs : List Slice) : Vector (BitVec 4096 × BitVec 4096) 8 :=
  Vector.ofFn fun p =>
    match xs[p.val]? with
    | some x => if x.act then (x.a, x.b) else r.prev[p]
    | none => r.prev[p]

/-- Join an mma: slices read, cursors advance, and the work waits for its grant. -/
def State.joinMma (s : State) (r : Nat) (row : Row) (ms : List ChainIssue) (fa fb : BitVec 3) (ac : BitVec 2) : State :=
  let parts := ms.zipIdx.filterMap fun e => e.1.mmaPart.map fun m => (e.2, e.1.who, m)
  let lead := match parts with
    | e :: _ => if row.deep then (0, none) else s.operandLines e.2.1 e.2.2.grant e.2.2.a 0 (lineBytes fa (matK fa fb))
    | [] => (0, none)
  let x := s.joinSlices row fa fb lead parts
  let s1 := parts.foldl (fun s e =>
    s.onStrand e.2.1 fun t => t.putCursor e.2.2.q (t.getCursor e.2.2.q + 1)) x.1
  let j : Joined := ⟨row.deep, fa, fb, ac, ms.map fun i => (i.who, (s.strand i.who).gen), x.2, false⟩
  s1.setRow r { row.pop with work := row.work ++ [j], prev := row.nextPrev x.2 }

/-- Join a rowcfg: the row takes the new shape, and each member's s[d] the former one. -/
def State.joinRowcfg (s : State) (r : Nat) (row : Row) (ms : List ChainIssue) (deep : Bool) : State :=
  let s1 := s.setRow r { row.pop with deep := deep }
  ms.foldl (fun s i =>
    match i.op with
    | .rowcfg d _ => s.resultS i.who .variable i.slot d (if row.deep then 1 else 0)
    | _ => s) s1

/-! ### Budget and delivery (11 R216, R218, R219, 24 R384) -/

/-- The units that a cluster may spend in this window: its share, or what its die gives a cluster that none was set for; no
limit before the die's first window (24 R384). -/
def State.shareOf (s : State) (cluster : Nat) : Option Nat := (s.cluster cluster).share.or (s.die (cluster / 512)).idleShare

/-- Units spent by a cluster in this window. -/
def State.spend (s : State) (cluster units : Nat) : State :=
  let c := s.cluster cluster
  let d := s.die (cluster / 512)
  (s.setCluster cluster { c with spent := c.spent + units }).setDie (cluster / 512) { d with granted := d.granted + units }

/-- Units charged to the job of a core and to its launch. -/
def State.charge (s : State) (core units : Nat) : State :=
  match (s.core core).crew with
  | none => s
  | some k =>
    match FMap.find s.crews k with
    | none => s
    | some c =>
      let s1 := s.setCrew k { c with drawn := c.drawn + units }
      match FMap.find s.launches c.launch with
      | none => s1
      | some l => { s1 with launches := FMap.put s1.launches c.launch { l with energy := l.energy + units } }

def Joined.units (j : Joined) : Nat := (j.slices.map (·.units)).sum

/-- ctx.mbudget of a member. -/
def budgetWord (row : Nat) (x : Slice) : Word := BitVec.ofNat 64 (row % 65536 * 2 ^ 32 + x.flips % 65536 * 2 ^ 16 + x.units % 65536)

/-- The oldest joined mma of a row that waits for its grant. -/
def Row.waiting (r : Row) : Option Joined := r.work.find? fun j => !j.granted

/-- The row of a cluster that is granted next: the lowest charge, then the lower number. -/
def State.nextGrant (s : State) (cluster : Nat) : Option (Nat × Joined) :=
  let rs := (List.range 4).filterMap fun i => ((s.row (cluster * 4 + i)).waiting).map fun j => (cluster * 4 + i, j)
  match rs with
  | [] => none
  | x :: xs => some (xs.foldl (fun a b => if b.2.units < a.2.units then b else a) x)

/-- Mark the oldest waiting mma of a row as granted. -/
def grantFirst : List Joined → List Joined
  | [] => []
  | j :: js => if j.granted then j :: grantFirst js else { j with granted := true } :: js

/-- The oldest waiting mma of a row is granted: its units are spent and charged, and its strands, but for those that have ended, read
them (11 R218, R219). -/
def State.grantNow (s : State) (r : Nat) (j : Joined) : State :=
  let s1 := s.spend (r / 4) j.units
  let s2 := s1.setRow r { s1.row r with work := grantFirst (s1.row r).work }
  let s3 := (j.who.zip j.slices).foldl (fun s e =>
    s.onStrand e.1.1 fun t => if t.gen = e.1.2 then { t with mbudget := budgetWord j.units e.2 } else t) s2
  s3.charge (r * 8) j.units

/-- R219, R384. Grant the next row of a cluster whose charge the remaining units cover, and charge its strands. -/
def State.grantRow (s : State) (cluster : Nat) : State :=
  match s.nextGrant cluster with
  | none => s
  | some (r, j) =>
    if (match s.shareOf cluster with | some n => decide (n - (s.cluster cluster).spent < j.units) | none => false) then s
    else s.grantNow r j

/-- R219. The cluster's arbiter grants a row. -/
def execBudgetGrant (cluster : Nat) (s : State) : Out := .next (s.grantRow cluster)

/-- The uncorrectable error of granules of an accumulator (24 R390). -/
def State.accFail (s : State) (core : Nat) (a : BitVec 2) (part : Nat → Bool) : Option Trap :=
  (failingOf (s.core core).fails (granAcc a) 128 part).map (coreRegTrap core)

/-- The same of an accumulator that a joined mma adds to, and the strand that it is for. -/
def State.addendFail (s : State) (r : Nat) (j : Joined) : Option (StrandId × Trap) :=
  if j.ac = 0#2 then none
  else
    (j.who.zipIdx).findSome? fun e => (j.writes e.2).bind fun a =>
      (s.accFail (r * 8 + e.2) a fun _ => true).map fun x => (e.1.1, x)

/-- R216. The oldest mma of a row delivers its results, once granted. -/
def State.deliverRow (s : State) (r : Nat) : State :=
  match (s.row r).work with
  | [] => s
  | j :: js =>
    if j.granted then
      let s1 := s.setRow r { s.row r with work := js }
      match s.addendFail r j with
      | some (w, x) => s1.consumed w [] x
      | none => s1.deliverJoined r j
    else s

def execMmaDelivery (r : Nat) (s : State) : Out := .next (s.deliverRow r)

/-! ### Chain instructions -/

/-- R208, R211. Issue an mma: its operands are checked on every position, then it waits at the chain. -/
def execMma (o : Mma) (s : State) : Out :=
  let k := matK o.fa o.fb
  let la := lineBytes o.fa k
  let lb := lineBytes o.fb k
  s.issue ⟨o.sc, .f o.fs :: (operandRegs o.a ++ operandRegs o.b), [], none, false, operandVecs o.a la ++ operandVecs o.b lb, wholly⟩
    fun s1 n =>
      let w := s1.cur
      let a := s1.operand w o.a
      let b := s1.operand w o.b
      match (a.check (posOf w.core) la).or (b.check (posOf w.core) lb) with
      | some x => .trap x
      | none => s1.chain w n o.sc (.mma o.acc o.fa o.fb o.ac o.q ((s1.strand w).getF o.fs) a b)
          (((operandVecs o.a la ++ operandVecs o.b lb).filter (·.2)).map (·.1)) [] none

/-- R207. Issue a rowcfg. -/
def execRowcfg (o : Sys2Proof.Row) (s : State) : Out :=
  s.issue (plain o.sc []) fun s1 n => s1.chain s1.cur n o.sc (.rowcfg o.d (o.shape == 1#1)) [] [] none

/-! ### Accumulator and cursor instructions (11 R221 to R223) -/

/-- A result for one of the masked accumulators of a core is still to come (11 R216). -/
def State.accBusy (s : State) (core : Nat) (mask : BitVec 4) : Bool :=
  let row := s.row (rowOf core)
  let p := posOf core
  (row.work.any fun j => (j.writes p).any fun a => mask.getLsbD a.toNat) ||
    ((row.queues[p]?.getD []).any fun i => i.op.accs.any fun a => mask.getLsbD a.toNat)

/-- A reader or writer of accumulators waits until earlier results are delivered. -/
def State.accWait (s : State) (core : Nat) (mask : BitVec 4) (k : Res) : Res :=
  if s.accBusy core mask then .wait (.retry (.accumulator mask)) else k

def accMask (a : BitVec 2) : BitVec 4 := 1#4 <<< a.toNat

/-- The granules of a quarter. -/
def quarterOf (g : BitVec 2) (i : Nat) : Bool := i / 32 == g.toNat

/-- R221. A quarter of an accumulator to a vector register. -/
def execAcget (o : Sys2Proof.Acc) (s : State) : Out :=
  s.issue ⟨o.sc, [], [], some o.v, false, [], wholly⟩ fun s1 n =>
    let w := s1.cur
    s1.accWait w.core (accMask o.acc)
      (match s1.accFail w.core o.acc (quarterOf o.g) with
      | some x => .trap x
      | none => .done (s1.result w .variable n (.v o.v)
          (((s1.core w.core).getAcc o.acc).extractLsb' (2048 * o.g.toNat) 2048) (BitVec.allOnes 2048)))

/-- A tile with one quarter replaced. -/
def putQuarter (t : Tile) (g : Nat) (v : VReg) : Tile :=
  (t &&& ~~~((BitVec.allOnes 2048).setWidth 8192 <<< (2048 * g))) ||| (v.setWidth 8192 <<< (2048 * g))

/-- R221. A vector register to a quarter of an accumulator. -/
def execAcput (o : Sys2Proof.Acc) (s : State) : Out :=
  s.issue ⟨o.sc, [], [(o.v, false)], none, false, [], wholly⟩ fun s1 _ =>
    let w := s1.cur
    s1.accWait w.core (accMask o.acc) (.done (s1.onCore w.core fun c =>
      c.putAccPart o.acc (quarterOf o.g) (putQuarter (c.getAcc o.acc) o.g.toNat (s1.readV w.core o.v))))

/-- R222. Zero the selected accumulators. -/
def execAczero (o : Az) (s : State) : Out :=
  s.issue (plain o.sc []) fun s1 _ =>
    let w := s1.cur
    s1.accWait w.core o.mask (.done (s1.onCore w.core fun c =>
      (List.range 4).foldl (fun c a => if o.mask.getLsbD a then c.putAcc (BitVec.ofNat 2 a) 0 else c) c))

/-- R223. Set a cursor. -/
def execQcur (o : QA) (s : State) : Out :=
  s.issue (plain o.sc [.s o.a]) fun s1 _ =>
    .done (s1.onStrand s1.cur fun t => t.putCursor o.d ((t.getS o.a).setWidth 6))

/-- The uncorrectable error of a tile predicate's register; q7 has none (24 R390, 01 R10). -/
def State.tileFail (s : State) (w : StrandId) (q : BitVec 3) : Option Trap :=
  if q = 7#3 then none else (failingOf (s.strand w).fails (granQ q) 4 fun _ => true).map (strandRegTrap w)

/-- R223. Read a cursor and the bit that it selects. -/
def execQcurrd (o : QD) (s : State) : Out :=
  s.issue (plain o.sc []) fun s1 n =>
    let t := s1.strand s1.cur
    match s1.tileFail s1.cur o.a with
    | some x => .trap x
    | none => .done (s1.resultS s1.cur .variable n o.d
        (BitVec.ofNat 64 ((t.getCursor o.a).toNat + (t.tileBit o.a).toNat * 64)))

/-- R223. Advance a cursor by n + 1. -/
def execQadv (o : QN) (s : State) : Out :=
  s.issue (plain o.sc []) fun s1 _ =>
    .done (s1.onStrand s1.cur fun t => t.putCursor o.d (t.getCursor o.d + o.n.setWidth 6 + 1))

/-- R223. Write the bits of a tile predicate. -/
def execQmovToQ (o : QA) (s : State) : Out :=
  s.issue (plain o.sc [.s o.a]) fun s1 _ => .done (s1.onStrand s1.cur fun t => t.putQ o.d (t.getS o.a))

/-- R223. Read the bits of a tile predicate. -/
def execQmovToS (o : QD) (s : State) : Out :=
  s.issue (plain o.sc []) fun s1 n =>
    match s1.tileFail s1.cur o.a with
    | some x => .trap x
    | none => .done (s1.resultS s1.cur .variable n o.d ((s1.strand s1.cur).getQ o.a))

end Sys2Proof.Machine
end

