-- ==== Sys2Proof/Machine/Vector.lean ====
section
/-!
DEFINITION. Vector instructions (05) but for memory: integer and floating arithmetic, conversions, permutes, reductions,
compares, predicate operations, and the forms with a scalar operand.
-/
namespace Sys2Proof.Machine
open Sys2Proof

/-! ### Shared forms -/

/-- A p register as an instruction reads it in the strand's next slot. -/
def State.peekP (s : State) (w : StrandId) (p : BitVec 3) : Pred :=
  ((s.deliver w (readyFor (s.strand w).slot)).strand w).getP p

def holdOf (h : BitVec 1) : Bool := h == 1#1

/-- Issue a vector instruction under a governing predicate of elements of `w` bytes; `rd` gives the bytes that it reads of a
source. -/
def vecIssueOf (rd : State → Pred → BitVec 5 → VReg) (sc : BitVec 2) (pg : BitVec 3) (w : Nat) (srcs : List Reg)
    (vs : List (BitVec 5 × Bool)) (d : Option (BitVec 5)) (body : State → Nat → Pred → Res) (s : State) : Out :=
  s.issue ⟨sc, .p pg :: srcs, vs, d, (activeList (s.peekP s.cur pg) w).isEmpty, [],
      fun s1 => rd s1 ((s1.strand s1.cur).getP pg)⟩ fun s1 n =>
    body s1 n ((s1.strand s1.cur).getP pg)

/-- The same for an instruction that reads the active elements of its sources (05 R94). -/
def vecIssue (sc : BitVec 2) (pg : BitVec 3) (w : Nat) (srcs : List Reg) (vs : List (BitVec 5 × Bool))
    (d : Option (BitVec 5)) (body : State → Nat → Pred → Res) (s : State) : Out :=
  vecIssueOf (fun _ p _ => activeMask p w) sc pg w srcs vs d body s

/-- The bytes of the elements of width `w` that a relation picks, as a mask of a register. -/
def elemMask (w : Nat) (f : Nat → Bool) : VReg := ofElems w fun i => if f i then 2 ^ (8 * w) - 1 else 0

/-- The result of a vector instruction: the active elements of width `w` change. -/
def State.vecResult (s : State) (lat n : Nat) (d : BitVec 5) (p : Pred) (w : Nat) (x : VReg) : State :=
  s.result s.cur (.fixed lat) n (.v d) x (activeMask p w)

def State.srcV (s : State) (v : BitVec 5) : VReg := s.readV s.cur.core v

/-- d := f a b on registers, written where elements of `w` bytes are active. -/
def whole2 (lat : Nat) (o : V2) (w : Nat) (f : VReg → VReg → VReg) : State → Out :=
  vecIssue o.sc o.p w [] [(o.a, holdOf o.ha), (o.b, holdOf o.hb)] (some o.d) fun s1 n p =>
    .done (s1.vecResult lat n o.d p w (f (s1.srcV o.a) (s1.srcV o.b)))

/-- d.e(i) := f a.e(i) b.e(i) at the width of a type. -/
def elem2 (lat : Nat) (o : V2) (f : Ty → Nat → Nat → Nat) : State → Out :=
  let t := typeOf o.pre .i32
  let w := t.width
  whole2 lat o w fun a b => ofElems w fun i => f t (elem a w i) (elem b w i)

/-- d := f a on a register. -/
def whole1 (lat : Nat) (o : V1) (w : Nat) (f : VReg → Pred → VReg) : State → Out :=
  vecIssue o.sc o.p w [] [(o.a, holdOf o.ha)] (some o.d) fun s1 n p =>
    .done (s1.vecResult lat n o.d p w (f (s1.srcV o.a) p))

/-! ### Integer arithmetic (05 R96) -/

def viBits (t : Ty) : Nat := 8 * t.width
def viAdd (t : Ty) (x y : Nat) : Nat := wrapNat (elemInt t x + elemInt t y) (viBits t)
def viSub (t : Ty) (x y : Nat) : Nat := wrapNat (elemInt t x - elemInt t y) (viBits t)
def viMul (t : Ty) (x y : Nat) : Nat := wrapNat (elemInt t x * elemInt t y) (viBits t)
def viMulh (t : Ty) (x y : Nat) : Nat := wrapNat (elemInt t x * elemInt t y / (2 : Int) ^ viBits t) (viBits t)
def viMin (t : Ty) (x y : Nat) : Nat := if elemInt t x ≤ elemInt t y then x else y
def viMax (t : Ty) (x y : Nat) : Nat := if elemInt t x ≤ elemInt t y then y else x
def viSll (t : Ty) (x y : Nat) : Nat := x * 2 ^ (y % viBits t)
def viSrl (t : Ty) (x y : Nat) : Nat := x / 2 ^ (y % viBits t)
def viSra (t : Ty) (x y : Nat) : Nat := wrapNat (signExt x (viBits t) / (2 : Int) ^ (y % viBits t)) (viBits t)
/-- Saturation by the signedness of the type. -/
def viSat (t : Ty) (v : Int) : Nat := wrapNat (if t.isW then satW v (viBits t) else satS v (viBits t)) (viBits t)
def viAdds (t : Ty) (x y : Nat) : Nat := viSat t (elemInt t x + elemInt t y)
def viSubs (t : Ty) (x y : Nat) : Nat := viSat t (elemInt t x - elemInt t y)
def viAbs (t : Ty) (x : Nat) : Nat := wrapNat (signExt x (viBits t)).natAbs (viBits t)

/-- R96. x + y. -/
def execVadd (o : V2) (s : State) : Out := elem2 2 o viAdd s
/-- R96. x − y. -/
def execVsub (o : V2) (s : State) : Out := elem2 2 o viSub s
/-- R96. The low bits of x × y. -/
def execVmul (o : V2) (s : State) : Out := elem2 3 o viMul s
/-- R96. The high bits of x × y. -/
def execVmulh (o : V2) (s : State) : Out := elem2 3 o viMulh s
/-- R96. The lesser. -/
def execVmin (o : V2) (s : State) : Out := elem2 2 o viMin s
/-- R96. The greater. -/
def execVmax (o : V2) (s : State) : Out := elem2 2 o viMax s
/-- R96. Shift left. -/
def execVsll (o : V2) (s : State) : Out := elem2 2 o viSll s
/-- R96. Logical shift right. -/
def execVsrl (o : V2) (s : State) : Out := elem2 2 o viSrl s
/-- R96. Arithmetic shift right. -/
def execVsra (o : V2) (s : State) : Out := elem2 2 o viSra s
/-- R96. Saturating sum. -/
def execVadds (o : V2) (s : State) : Out := elem2 2 o viAdds s
/-- R96. Saturating difference. -/
def execVsubs (o : V2) (s : State) : Out := elem2 2 o viSubs s
/-- R96. Bitwise and on byte lanes. -/
def execVand (o : V2) (s : State) : Out := whole2 2 o 1 (fun a b => a &&& b) s
/-- R96. Bitwise or on byte lanes. -/
def execVor (o : V2) (s : State) : Out := whole2 2 o 1 (fun a b => a ||| b) s
/-- R96. Bitwise xor on byte lanes. -/
def execVxor (o : V2) (s : State) : Out := whole2 2 o 1 (fun a b => a ^^^ b) s
/-- R96. a and not b on byte lanes. -/
def execVandn (o : V2) (s : State) : Out := whole2 2 o 1 (fun a b => a &&& ~~~b) s
/-- R96. Absolute value; the least value stays. -/
def execVabs (o : V1) (s : State) : Out :=
  let t := typeOf o.pre .i32
  whole1 2 o t.width (fun a _ => ofElems t.width fun i => viAbs t (elem a t.width i)) s

/-! ### Floating arithmetic (05 R97, R98) -/

/-- The rounding mode of the current strand. -/
def State.mode (s : State) : Rm := Rm.ofBits (s.strand s.cur).rm

/-- d.e(i) := f over the values of a.e(i), b.e(i) and d.e(i); `usesD` when d is a source. -/
def vfForm (lat : Nat) (o : VF3) (usesD : Bool) (f : Fmt → Rm → Bool → Bool → FVal → FVal → FVal → Nat) : State → Out :=
  let t := typeOf o.pre .f32
  let m := Fmt.ofTy t
  let w := t.width
  vecIssue o.sc o.p w [] ([(o.a, holdOf o.ha), (o.b, holdOf o.hb)] ++ (if usesD then [(o.d, false)] else [])) (some o.d)
    fun s1 n p =>
      let a := s1.srcV o.a
      let b := s1.srcV o.b
      let d := if usesD then s1.srcV o.d else 0
      .done (s1.vecResult lat n o.d p w (ofElems w fun i =>
        f m s1.mode (o.zi == 1#1) (o.zo == 1#1) (m.decode (elem a w i)) (m.decode (elem b w i)) (m.decode (elem d w i))))

/-- The fused forms: the product and the addend each keep or invert their sign, and the sum rounds once. -/
def fusedPat (negProd negAdd : Bool) (m : Fmt) (rm : Rm) (zi zo : Bool) (a b c : FVal) : Nat :=
  let x := FVal.prod (m.flush zi a) (m.flush zi b)
  let y := m.flush zi c
  m.round rm zo (FVal.sum rm (if negProd then x.neg else x) (if negAdd then y.neg else y))

/-- R97. Sum. -/
def execVfadd (o : VF3) (s : State) : Out := vfForm 4 o false (fun m rm zi zo a b _ => m.add rm zi zo a b) s
/-- R97. Difference. -/
def execVfsub (o : VF3) (s : State) : Out := vfForm 4 o false (fun m rm zi zo a b _ => m.add rm zi zo a b.neg) s
/-- R97. Product. -/
def execVfmul (o : VF3) (s : State) : Out := vfForm 4 o false (fun m rm zi zo a b _ => m.mul rm zi zo a b) s
/-- R97. Minimum, flushed on the way in and out. -/
def execVfmin (o : VF3) (s : State) : Out :=
  vfForm 4 o false (fun m rm zi zo a b _ => m.round rm zo ((m.flush zi a).fmin (m.flush zi b))) s
/-- R97. Maximum. -/
def execVfmax (o : VF3) (s : State) : Out :=
  vfForm 4 o false (fun m rm zi zo a b _ => m.round rm zo ((m.flush zi a).fmax (m.flush zi b))) s
/-- R98. a × b + d. -/
def execVfma (o : VF3) (s : State) : Out := vfForm 4 o true (fusedPat false false) s
/-- R98. a × b − d. -/
def execVfms (o : VF3) (s : State) : Out := vfForm 4 o true (fusedPat false true) s
/-- R98. −(a × b) + d. -/
def execVfnma (o : VF3) (s : State) : Out := vfForm 4 o true (fusedPat true false) s
/-- R98. −(a × b) − d. -/
def execVfnms (o : VF3) (s : State) : Out := vfForm 4 o true (fusedPat true true) s

/-! ### Conversions (05 R99 to R103) -/

/-- The source element of destination element `i` of a conversion with part `g`, if it is written (05 R99). -/
def convSource (ws wd g i : Nat) : Option Nat :=
  if wd < ws then
    let ns := 256 / ws
    if g * ns ≤ i ∧ i < (g + 1) * ns then some (i - g * ns) else none
  else if ws < wd then some (g * (256 / wd) + i)
  else some i

/-- The bytes of the destination elements that are written. -/
def convMask (ws wd g : Nat) (p : Pred) : VReg :=
  ofElems wd fun i => if active p wd i && (convSource ws wd g i).isSome then 2 ^ (8 * wd) - 1 else 0

/-- The bytes of the source elements that are read. -/
def convReads (ws wd g : Nat) (p : Pred) : VReg :=
  elemMask ws fun j => (activeList p wd).any fun i => convSource ws wd g i == some j

/-- A conversion from a source type to a destination type, element by element. -/
def convForm (o : VP) (src dst : Ty) (f : Rm → Nat → Nat) : State → Out :=
  let ws := src.width
  let wd := dst.width
  let g := o.part.toNat
  vecIssueOf (fun _ p _ => convReads ws wd g p) o.sc o.p wd [] [(o.a, holdOf o.ha)] (some o.d) fun s1 n p =>
    let a := s1.srcV o.a
    let x := ofElems wd fun i =>
      match convSource ws wd g i with
      | some j => f s1.mode (elem a ws j)
      | none => 0
    .done (s1.result s1.cur (.fixed 3) n (.v o.d) x (convMask ws wd g p))

/-- A floating value as a binary8 code or a scale byte (03 R60, 05 R101). -/
def toSmall (dst : Ty) (sat : Bool) (x : FVal) : Nat :=
  match dst with
  | .b8 p u f => b8Round p u f sat x
  | _ => sc8Round sat x

/-- An integer as a pattern of a type: wrapped or saturated (05 R100). -/
def toIntTy (dst : Ty) (sat : Bool) (v : Int) : Nat :=
  wrapNat (if sat then (if dst.isW then satW v (viBits dst) else satS v (viBits dst)) else v) (viBits dst)

/-- A floating value as an integer or Q16.16 pattern (03 R66, R67). -/
def floatToInt (dst : Ty) (rm : Rm) (sat : Bool) (x : FVal) : Nat :=
  if dst = .q16 then toQ16 x else toInt x (viBits dst) (!dst.isW) rm sat

/-- The value of an integer or Q16.16 element (03 R66, R67). -/
def intToFloat (src : Ty) (x : Nat) : FVal :=
  if src = .q16 then FVal.ofInt (signExt x 32) (-16) false else ofInteger (elemInt src x)

/-- R100. To binary8 or sc8, not saturating. -/
def execVcvtN (o : VP) (s : State) : Out :=
  let p := typesOf o.pre
  convForm o p.t2 p.t1 (fun _ x => toSmall p.t1 false (decodeTy p.t2 x)) s
/-- R100. To binary8 or sc8, saturating. -/
def execVcvtS (o : VP) (s : State) : Out :=
  let p := typesOf o.pre
  convForm o p.t2 p.t1 (fun _ x => toSmall p.t1 true (decodeTy p.t2 x)) s
/-- R100. From binary8 or sc8. -/
def execVcvtX (o : VP) (s : State) : Out :=
  let p := typesOf o.pre
  convForm o p.t1 p.t2 (fun rm x => (Fmt.ofTy p.t2).round rm false (decodeTy p.t1 x)) s
/-- R100. Between floating formats. -/
def execVcvtF (o : VP) (s : State) : Out :=
  let p := typesOf o.pre
  convForm o p.t2 p.t1 (fun rm x => (Fmt.ofTy p.t1).round rm false (decodeTy p.t2 x)) s
/-- R100. Floating to integer or Q16.16. -/
def execVcvtFi (o : VP) (s : State) : Out :=
  let p := typesOf o.pre
  convForm o p.t2 p.t1 (fun rm x => floatToInt p.t1 rm false (decodeTy p.t2 x)) s
/-- R100. Floating to integer or Q16.16, saturating. -/
def execVcvtFis (o : VP) (s : State) : Out :=
  let p := typesOf o.pre
  convForm o p.t2 p.t1 (fun rm x => floatToInt p.t1 rm true (decodeTy p.t2 x)) s
/-- R100. Integer or Q16.16 to floating. -/
def execVcvtIf (o : VP) (s : State) : Out :=
  let p := typesOf o.pre
  convForm o p.t2 p.t1 (fun rm x => (Fmt.ofTy p.t1).round rm false (intToFloat p.t2 x)) s
/-- R100. Between integers, wrapping. -/
def execVcvtIi (o : VP) (s : State) : Out :=
  let p := typesOf o.pre
  convForm o p.t2 p.t1 (fun _ x => toIntTy p.t1 false (elemInt p.t2 x)) s
/-- R100. Between integers, saturating. -/
def execVcvtIis (o : VP) (s : State) : Out :=
  let p := typesOf o.pre
  convForm o p.t2 p.t1 (fun _ x => toIntTy p.t1 true (elemInt p.t2 x)) s

/-- floor(log2 L) for the largest finite value L of a binary8 type (05 R102). -/
def b8Emax : Ty → Int
  | .b8 p u f => FVal.log2 (b8Decode p u f (b8Max u f))
  | _ => 0

/-- The scale code of a block's active values (05 R102). -/
def scaleCode (emax : Int) (xs : List FVal) : Nat :=
  if xs.any fun x => match x with | .nan | .inf _ => true | _ => false then 255
  else
    match (xs.filter fun x => !x.isZero).map FVal.log2 with
    | [] => 127
    | e :: es => (min (max (es.foldl max e - emax + 127) 0) 254).toNat

/-- R102. One scale byte for each block of 32 elements; the bytes behind them are 0. -/
def execVscget (o : V1) (s : State) : Out :=
  let t := typesOf o.pre
  let ws := t.t2.width
  vecIssue o.sc o.p ws [] [(o.a, holdOf o.ha)] (some o.d) (fun s1 n p =>
    let a := s1.srcV o.a
    let block (k : Nat) : List FVal :=
      ((List.range 32).map (fun j => 32 * k + j)).filterMap fun j =>
        if active p ws j then some (decodeTy t.t2 (elem a ws j)) else none
    let x := ofElems 1 fun k => if k < 256 / ws / 32 then scaleCode (b8Emax t.t1) (block k) else 0
    .done (s1.result s1.cur (.fixed 3) n (.v o.d) x fullMask)) s

/-- R103. Apply block scales and convert with saturation. -/
def execVscapply (o : V2) (s : State) : Out :=
  let t := typesOf o.pre
  let ws := t.t2.width
  let of (p : Pred) (r : BitVec 5) : VReg :=
    (if r = o.a then elemMask ws (active p 1) else 0) |||
      (if r = o.b then elemMask 1 fun k => (activeList p 1).any fun j => decide (j < 256 / ws) && j / 32 == k else 0)
  vecIssueOf (fun _ => of) o.sc o.p 1 [] [(o.a, holdOf o.ha), (o.b, holdOf o.hb)] (some o.d) (fun s1 n p =>
    let a := s1.srcV o.a
    let b := s1.srcV o.b
    let x := ofElems 1 fun j =>
      if j < 256 / ws then
        let c := elem b 1 (j / 32)
        toSmall t.t1 true (if c = 255 then .nan else
          match decodeTy t.t2 (elem a ws j) with
          | .fin g m e => .fin g m (e + 127 - c)
          | y => y)
      else 0
    let mask := ofElems 1 fun j => if j < 256 / ws ∧ active p 1 j then 255 else 0
    .done (s1.result s1.cur (.fixed 3) n (.v o.d) x mask)) s

/-! ### Permutes (05 R104) -/

/-- What an element of a permute takes: an element of a, an element of b, or zero. -/
inductive Pick where
  | a (k : Nat)
  | b (k : Nat)
  | zero
deriving DecidableEq, Repr

/-- The bytes of a source that a permute reads under a predicate, as a mask: the elements that its active destination elements
pick (DEDUCED, log entry 104: 05 R94 speaks of inactive elements alone, and says that no more is computed than the active
ones). -/
def pickMask (p : Pred) (w : Nat) (pick : Nat → Pick) (ofB : Bool) : VReg :=
  elemMask w fun k => (activeList p w).any fun i => pick i == (if ofB then .b k else .a k)

/-- A permute of one source at the width of its type: which element of it element i takes, of so many. -/
def perm1 (o : V1) (f : Nat → Nat → Nat) : State → Out :=
  let w := (typeOf o.pre .i32).width
  let n := 256 / w
  vecIssueOf (fun _ p _ => pickMask p w (fun i => .a (f n i)) false) o.sc o.p w [] [(o.a, holdOf o.ha)] (some o.d)
    fun s1 m p => .done (s1.vecResult 2 m o.d p w (ofElems w fun i => elem (s1.srcV o.a) w (f n i)))

/-- A permute of two sources: what element i takes, of so many; `idx` when it depends on the elements of b, which are then
read as well. -/
def perm2 (o : V2) (idx : Bool) (f : Nat → (Nat → Nat) → Nat → Pick) : State → Out :=
  let w := (typeOf o.pre .i32).width
  let n := 256 / w
  let pick (s : State) : Nat → Pick := f n (elem (s.srcV o.b) w)
  let of (s : State) (p : Pred) (r : BitVec 5) : VReg :=
    (if r = o.a then pickMask p w (pick s) false else 0) |||
      (if r = o.b then pickMask p w (pick s) true ||| (if idx then activeMask p w else 0) else 0)
  vecIssueOf of o.sc o.p w [] [(o.a, holdOf o.ha), (o.b, holdOf o.hb)] (some o.d) fun s1 m p =>
    .done (s1.vecResult 2 m o.d p w (ofElems w fun i =>
      match pick s1 i with
      | .a k => elem (s1.srcV o.a) w k
      | .b k => elem (s1.srcV o.b) w k
      | .zero => 0))

/-- R104. Byte lanes moved. -/
def execVmv (o : V1) (s : State) : Out := whole1 2 o 1 (fun a _ => a) s
/-- R104. a.e(k) for the whole number k = b.e(i), or 0. -/
def execVperm (o : V2) (s : State) : Out := perm2 o true (fun n b i => if b i < n then .a (b i) else .zero) s
/-- R104. Interleave the low halves. -/
def execVzipl (o : V2) (s : State) : Out :=
  perm2 o false (fun _ _ i => if i % 2 = 0 then .a (i / 2) else .b (i / 2)) s
/-- R104. Interleave the high halves. -/
def execVziph (o : V2) (s : State) : Out :=
  perm2 o false (fun n _ i => if i % 2 = 0 then .a (n / 2 + i / 2) else .b (n / 2 + i / 2)) s
/-- R104. The even elements of a and b. -/
def execVunze (o : V2) (s : State) : Out :=
  perm2 o false (fun n _ i => if 2 * i < n then .a (2 * i) else .b (2 * i - n)) s
/-- R104. The odd elements of a and b. -/
def execVunzo (o : V2) (s : State) : Out :=
  perm2 o false (fun n _ i => if 2 * i + 1 < n then .a (2 * i + 1) else .b (2 * i + 1 - n)) s
/-- R104. Slide up one element. -/
def execVslu (o : V2) (s : State) : Out := perm2 o false (fun n _ i => if i = 0 then .b (n - 1) else .a (i - 1)) s
/-- R104. Slide down one element. -/
def execVsld (o : V2) (s : State) : Out := perm2 o false (fun n _ i => if i < n - 1 then .a (i + 1) else .b 0) s
/-- R104. Transpose step, low. -/
def execVtrnl (o : V2) (s : State) : Out := perm2 o false (fun _ _ i => if i % 2 = 0 then .a i else .b (i - 1)) s
/-- R104. Transpose step, high. -/
def execVtrnh (o : V2) (s : State) : Out := perm2 o false (fun _ _ i => if i % 2 = 0 then .a (i + 1) else .b i) s
/-- R104. Element 0 everywhere. -/
def execVbcast (o : V1) (s : State) : Out := perm1 o (fun _ _ => 0) s
/-- R104. The elements reversed. -/
def execVrev (o : V1) (s : State) : Out := perm1 o (fun n i => n - 1 - i) s
/-- R104. The active elements packed, zeros behind; the whole destination is written. -/
def execVcompress (o : V1) (s : State) : Out :=
  let w := (typeOf o.pre .i32).width
  vecIssue o.sc o.p w [] [(o.a, holdOf o.ha)] (some o.d) (fun s1 n p =>
    let a := s1.srcV o.a
    let act := activeList p w
    let x := ofElems w fun j => match act[j]? with | some i => elem a w i | none => 0
    .done (s1.result s1.cur (.fixed 2) n (.v o.d) x fullMask)) s
/-- R104. Leading elements spread into the active positions. -/
def execVexpand (o : V1) (s : State) : Out :=
  let w := (typeOf o.pre .i32).width
  vecIssueOf (fun _ p _ => elemMask w fun k => decide (k < (activeList p w).length)) o.sc o.p w [] [(o.a, holdOf o.ha)]
    (some o.d) (fun s1 n p =>
    let act := activeList p w
    .done (s1.vecResult 2 n o.d p w
      (ofElems w fun i => match act.idxOf? i with | some j => elem (s1.srcV o.a) w j | none => 0))) s
/-- c.vmv d, a: vmv with p0 (02 R34). -/
def execCVmv (o : CVm) (s : State) : Out :=
  s.issue ⟨0, [], [(o.a, false)], some o.d, false, [], wholly⟩ fun s1 n =>
    .done (s1.result s1.cur (.fixed 2) n (.v o.d) (s1.srcV o.a) fullMask)

/-! ### Reductions (05 R105) -/

/-- A reduction: the active elements in ascending order give the low bytes of d, and every other byte is 0. -/
def redForm (o : V1) (dflt : Ty) (f : Ty → Rm → List Nat → Nat) : State → Out :=
  let t := typeOf o.pre dflt
  let w := t.width
  vecIssue o.sc o.p w [] [(o.a, holdOf o.ha)] (some o.d) fun s1 n p =>
    let a := s1.srcV o.a
    .done (s1.result s1.cur (.fixed 4) n (.v o.d) (BitVec.ofNat 2048 (f t s1.mode ((activeList p w).map (elem a w)))) fullMask)

/-- R105. The wrapped sum. -/
def execVrsum (o : V1) (s : State) : Out := redForm o .i32 (fun t _ xs => xs.sum % 2 ^ viBits t) s
/-- R105, R69. The pairwise tree sum. -/
def execVrfsum (o : V1) (s : State) : Out := redForm o .f32 (fun t rm xs => treeSum (Fmt.ofTy t) rm false false xs) s
/-- R105, R68. The integer minimum. -/
def execVrmin (o : V1) (s : State) : Out :=
  redForm o .i32 (fun t _ xs => xs.foldl (viMin t) (if t.isW then 2 ^ viBits t - 1 else 2 ^ (viBits t - 1) - 1)) s
/-- R105, R68. The integer maximum. -/
def execVrmax (o : V1) (s : State) : Out :=
  redForm o .i32 (fun t _ xs => xs.foldl (viMax t) (if t.isW then 0 else 2 ^ (viBits t - 1))) s
/-- R105. The floating minimum; empty gives +inf. -/
def execVrfmin (o : V1) (s : State) : Out :=
  redForm o .f32 (fun t _ xs =>
    let m := Fmt.ofTy t
    m.round .near false ((xs.map m.decode).foldl FVal.fmin (.inf false))) s
/-- R105. The floating maximum; empty gives −inf. -/
def execVrfmax (o : V1) (s : State) : Out :=
  redForm o .f32 (fun t _ xs =>
    let m := Fmt.ofTy t
    m.round .near false ((xs.map m.decode).foldl FVal.fmax (.inf true))) s
/-- R105. Bitwise and; empty gives all ones. -/
def execVrand (o : V1) (s : State) : Out := redForm o .i32 (fun t _ xs => xs.foldl (· &&& ·) (2 ^ viBits t - 1)) s
/-- R105. Bitwise or. -/
def execVrior (o : V1) (s : State) : Out := redForm o .i32 (fun _ _ xs => xs.foldl (· ||| ·) 0) s
/-- R105. Bitwise xor. -/
def execVrxor (o : V1) (s : State) : Out := redForm o .i32 (fun _ _ xs => xs.foldl (· ^^^ ·) 0) s
/-- R105. The tree sum in f32 of elements converted exactly. -/
def execVrfsumw (o : V1) (s : State) : Out :=
  redForm o .f32 (fun t rm xs => treeSum .f32 rm false false (xs.map fun x => Fmt.f32.round .near false (decodeTy t x))) s

/-! ### Compares and predicate operations (05 R106, R107) -/

/-- A compare: the bits of each element of p[d] are 1 where it is active and the relation holds. -/
def cmpForm (o : VC) (dflt : Ty) (f : Ty → Nat → Nat → Bool) : State → Out :=
  let t := typeOf o.pre dflt
  let w := t.width
  vecIssue o.sc o.p w [] [(o.a, holdOf o.ha), (o.b, holdOf o.hb)] none fun s1 n p =>
    let a := s1.srcV o.a
    let b := s1.srcV o.b
    .done (s1.resultP s1.cur (.fixed 2) n o.d (predOf w fun i => active p w i && f t (elem a w i) (elem b w i)))

/-- A relation of floating values. -/
def fpRel (r : FVal → FVal → Bool) (t : Ty) (x y : Nat) : Bool := r ((Fmt.ofTy t).decode x) ((Fmt.ofTy t).decode y)

/-- R106. Equal as patterns. -/
def execVceq (o : VC) (s : State) : Out := cmpForm o .i32 (fun _ x y => x == y) s
/-- R106. Not equal as patterns. -/
def execVcne (o : VC) (s : State) : Out := cmpForm o .i32 (fun _ x y => x != y) s
/-- R106. Less. -/
def execVclt (o : VC) (s : State) : Out := cmpForm o .i32 (fun t x y => decide (elemInt t x < elemInt t y)) s
/-- R106. Less or equal. -/
def execVcle (o : VC) (s : State) : Out := cmpForm o .i32 (fun t x y => decide (elemInt t x ≤ elemInt t y)) s
/-- R106. Equal. -/
def execVfceq (o : VC) (s : State) : Out := cmpForm o .f32 (fpRel FVal.eq) s
/-- R106. Less. -/
def execVfclt (o : VC) (s : State) : Out := cmpForm o .f32 (fpRel FVal.lt) s
/-- R106. Less or equal. -/
def execVfcle (o : VC) (s : State) : Out := cmpForm o .f32 (fpRel FVal.le) s
/-- R106. Unordered. -/
def execVfcun (o : VC) (s : State) : Out := cmpForm o .f32 (fpRel fun x y => x.isNaN || y.isNaN) s

/-- A predicate operation on all 256 bits. -/
def predForm (sc : BitVec 2) (d a b : BitVec 3) (f : Pred → Pred → Pred) (s : State) : Out :=
  s.issue (plain sc [.p a, .p b]) fun s1 n =>
    let t := s1.strand s1.cur
    .done (s1.resultP s1.cur (.fixed 2) n d (f (t.getP a) (t.getP b)))

/-- The lowest set bit alone. -/
def lowestBit (p : Pred) : Pred := p &&& -p

/-- R107. -/
def execPand (o : P3) (s : State) : Out := predForm o.sc o.d o.a o.b (fun a b => a &&& b) s
/-- R107. -/
def execPor (o : P3) (s : State) : Out := predForm o.sc o.d o.a o.b (fun a b => a ||| b) s
/-- R107. -/
def execPxor (o : P3) (s : State) : Out := predForm o.sc o.d o.a o.b (fun a b => a ^^^ b) s
/-- R107. -/
def execPandn (o : P3) (s : State) : Out := predForm o.sc o.d o.a o.b (fun a b => a &&& ~~~b) s
/-- R107. Not. -/
def execPnot (o : P2) (s : State) : Out := predForm o.sc o.d o.a o.a (fun a _ => ~~~a) s
/-- R107. The lowest set bit alone. -/
def execPfirst (o : P2) (s : State) : Out := predForm o.sc o.d o.a o.a (fun a _ => lowestBit a) s

/-! ### Forms with a scalar operand (05 R110, R111) -/

/-- d.e(i) := f a.e(i) c, with c the low bits of s[s]. -/
def scal (o : VXS) (f : Ty → Nat → Nat → Nat) : State → Out :=
  let t := typeOf o.pre .i32
  let w := t.width
  vecIssue o.sc o.p w [.s o.s] [(o.a, holdOf o.ha)] (some o.d) fun s1 n p =>
    let a := s1.srcV o.a
    let c := ((s1.strand s1.cur).getS o.s).toNat % 2 ^ (8 * w)
    .done (s1.vecResult 3 n o.d p w (ofElems w fun i => f t (elem a w i) c))

/-- d.e(i) := f a.e(i) c d.e(i), with c the low bits of f[s]. -/
def scalF (o : VXF) (usesD : Bool) (f : Fmt → Rm → FVal → FVal → FVal → Nat) : State → Out :=
  let t := typeOf o.pre .f32
  let m := Fmt.ofTy t
  let w := t.width
  vecIssue o.sc o.p w [.f o.s] ((o.a, holdOf o.ha) :: (if usesD then [(o.d, false)] else [])) (some o.d) fun s1 n p =>
    let a := s1.srcV o.a
    let d := if usesD then s1.srcV o.d else 0
    let c := m.decode (((s1.strand s1.cur).getF o.s).toNat % 2 ^ (8 * w))
    .done (s1.vecResult 3 n o.d p w (ofElems w fun i => f m s1.mode (m.decode (elem a w i)) c (m.decode (elem d w i))))

/-- R110. As vadd with a scalar. -/
def execVaddx (o : VXS) (s : State) : Out := scal o viAdd s
/-- R110. As vsub with a scalar. -/
def execVsubx (o : VXS) (s : State) : Out := scal o viSub s
/-- R110. As vmul with a scalar. -/
def execVmulx (o : VXS) (s : State) : Out := scal o viMul s
/-- R110. As vsll with a scalar. -/
def execVsllx (o : VXS) (s : State) : Out := scal o viSll s
/-- R110. As vsrl with a scalar. -/
def execVsrlx (o : VXS) (s : State) : Out := scal o viSrl s
/-- R110. As vsra with a scalar. -/
def execVsrax (o : VXS) (s : State) : Out := scal o viSra s
/-- R110. Floating sum with a scalar. -/
def execVfaddx (o : VXF) (s : State) : Out := scalF o false (fun m rm a c _ => m.add rm false false a c) s
/-- R110. Floating product with a scalar. -/
def execVfmulx (o : VXF) (s : State) : Out := scalF o false (fun m rm a c _ => m.mul rm false false a c) s
/-- R110. a × c + d, rounded once. -/
def execVfmacx (o : VXF) (s : State) : Out := scalF o true (fun m rm a c d => m.fma rm false false a c d) s

/-- A form with no vector source: element i from the s register. -/
def indexForm (o : VSD) (f : Nat → Nat → Nat) : State → Out :=
  let w := (typeOf o.pre .i32).width
  vecIssue o.sc o.p w [.s o.s] [] (some o.d) fun s1 n p =>
    let x := ((s1.strand s1.cur).getS o.s).toNat
    .done (s1.vecResult 3 n o.d p w (ofElems w (f x)))

/-- R111. The low bits of s[s] everywhere. -/
def execVsplat (o : VSD) (s : State) : Out := indexForm o (fun x _ => x) s
/-- R111. s[s] + i. -/
def execViota (o : VSD) (s : State) : Out := indexForm o (fun x i => x + i) s
/-- R111. The low bits of f[s] everywhere. -/
def execVfsplat (o : VFD) (s : State) : Out :=
  let w := (typeOf o.pre .f32).width
  vecIssue o.sc o.p w [.f o.s] [] (some o.d) (fun s1 n p =>
    let x := ((s1.strand s1.cur).getF o.s).toNat
    .done (s1.vecResult 3 n o.d p w (ofElems w fun _ => x))) s
/-- R111. Insert the low bits of s[s + 1] as element s[s] mod N, if it is active. -/
def execVins (o : VSD) (s : State) : Out :=
  let w := (typeOf o.pre .i32).width
  vecIssue o.sc o.p w [.s o.s, .s (o.s + 1)] [] (some o.d) (fun s1 n p =>
    let t := s1.strand s1.cur
    let k := (t.getS o.s).toNat % (256 / w)
    let x := (t.getS (o.s + 1)).toNat
    let mask := ofElems w fun i => if i = k ∧ active p w i then 2 ^ (8 * w) - 1 else 0
    .done (s1.result s1.cur (.fixed 3) n (.v o.d) (ofElems w fun _ => x) mask)) s
/-- R111. Extract element s[s] mod N into s[s], extended by its type. -/
def execVext (o : VE) (s : State) : Out :=
  let t := typeOf o.pre .i32
  let w := t.width
  let at' (s1 : State) : Nat := ((s1.strand s1.cur).getS o.s).toNat % (256 / w)
  s.issue ⟨o.sc, [.s o.s], [(o.a, holdOf o.ha)], none, false, [], fun s1 _ => elemMask w fun i => i == at' s1⟩ fun s1 n =>
    let k := ((s1.strand s1.cur).getS o.s).toNat % (256 / w)
    .done (s1.resultS s1.cur (.fixed 3) n o.s (BitVec.ofInt 64 (elemInt t (elem (s1.srcV o.a) w k))))

/-! ### The weir generator (05 R112) -/

def rotl32 (x k : Nat) : Nat := (x * 2 ^ k + x / 2 ^ (32 - k)) % 2 ^ 32

/-- The round constants of the mixer with their round numbers. -/
def weirRounds : List (Nat × Nat × Nat) :=
  [(0, 5, 13), (1, 11, 7), (2, 17, 19), (3, 23, 3), (4, 7, 29), (5, 13, 9), (6, 19, 15), (7, 27, 21)]

/-- Weir(seed, key, c). -/
def weir (seed key : Word) (c : Nat) : Nat :=
  let k (j : Nat) : Nat :=
    if j % 4 = 0 then seed.toNat % 2 ^ 32 else if j % 4 = 1 then seed.toNat / 2 ^ 32
    else if j % 4 = 2 then key.toNat % 2 ^ 32 else key.toNat / 2 ^ 32
  let r := weirRounds.foldl (fun (acc : Nat × Nat) e =>
    let x := (acc.1 + rotl32 acc.2 e.2.1 + k e.1 + e.1) % 2 ^ 32
    (x, rotl32 (acc.2 ^^^ x) e.2.2)) (c, k 0 ^^^ k 3 ^^^ 0xC3A51E69)
  (r.1 + r.2) % 2 ^ 32

/-- The seed captured for a core's launch (16 R299). -/
def State.launchSeed (s : State) (core : Nat) : Word :=
  match s.crewOf core with
  | some c => c.seed
  | none => 0

/-- R112. The generator at each active element's counter. -/
def execVweir (o : VXS) (s : State) : Out :=
  vecIssue o.sc o.p 4 [.s o.s] [(o.a, holdOf o.ha)] (some o.d) (fun s1 n p =>
    let a := s1.srcV o.a
    let key := (s1.strand s1.cur).getS o.s
    let seed := s1.launchSeed s1.cur.core
    .done (s1.vecResult 4 n o.d p 4 (ofElems 4 fun i => weir seed key (elem a 4 i)))) s

end Sys2Proof.Machine
end

