-- ==== Sys2Proof/Machine/VectorMemory.lean ====
section
/-!
DEFINITION. Vector memory (05 R108, R109): loads and stores of whole registers, elements, rows and predicates. An access
is a list of aligned units; every check of every active element comes before any effect.
-/
namespace Sys2Proof.Machine
open Sys2Proof

/-- One aligned unit of a vector access: its first active element, its address and the address of that element's first
byte, its bytes, where they stand in the register, which of them are active, whether the alignment rule holds, and whether its elements are its byte lanes. -/
structure Chunk where
  elem : Nat
  va : Word
  first : Word
  n : Nat
  pos : Nat
  act : List Nat
  aligned : Bool
  lanes : Bool
deriving DecidableEq, Repr

/-- The checks of a unit in the order of 04 R81, watchpoints on its active bytes. -/
def State.reachChunk (s : State) (w : StrandId) (acc : Acc) (c : Chunk) : Reach :=
  let fail (cls code : Nat) (a : Word) : Reach :=
    .trap { trapAt cls code a acc.writes with elem := BitVec.ofNat 64 c.elem }
  if badForm c.first (if c.lanes then 1 else c.n) then fail 4 0 c.first
  else if !c.aligned then fail 5 0 c.first
  else
    match s.look (s.agent w) acc c.va with
    | .bad cls code => fail cls code c.first
    | r =>
      match c.act.findSome? fun k => watchHit (s.strand w) acc (c.va + BitVec.ofNat 64 k) 1 with
      | some h =>
        .trap { watchTrap acc h with
          elem := BitVec.ofNat 64 (c.elem + (if c.lanes then (h.2 - c.first).toNat else 0)) }
      | none =>
        match r with
        | .place l => .at l
        | _ => .out

/-- The places of units in order, or the first trap of their checks. -/
def State.checkedAll (s : State) (w : StrandId) (acc : Acc) : List Chunk → Except Trap (List (Chunk × Option Loc))
  | [] => .ok []
  | c :: cs =>
    match s.reachChunk w acc c with
    | .trap x => .error x
    | .out => (s.checkedAll w acc cs).map fun r => (c, none) :: r
    | .at l => (s.checkedAll w acc cs).map fun r => (c, some l) :: r

/-- The first unit whose bytes fail their check code as they are read. -/
def State.failedUnit (s : State) (w : StrandId) (acc : Acc) (r : List (Chunk × Option Loc)) : Option Trap :=
  r.findSome? fun e => e.2.bind fun l =>
    (s.failedRead w acc e.1.first l e.1.n).map fun x => { x with elem := BitVec.ofNat 64 e.1.elem }

/-- The active bytes of units. -/
def activeBytes (cs : List Chunk) : List (Word × Nat) := cs.flatMap fun c => c.act.map fun j => (c.va + BitVec.ofNat 64 j, 1)

/-- The places of units in order, or the first trap: every check of every unit comes before any byte is read. -/
def State.reachAll (s : State) (w : StrandId) (acc : Acc) (cs : List Chunk) : Except Trap (List (Chunk × Option Loc)) :=
  match s.checkedAll w acc cs with
  | .error x => .error (s.namesAll w acc (activeBytes cs) x)
  | .ok r => match s.failedUnit w acc r with | some x => .error x | none => .ok r

/-- The lowest active byte out of range, if any. -/
def lowestOut (r : List (Chunk × Option Loc)) : Option Word :=
  ((r.filter fun e => e.2.isNone).map fun e => e.1.first.toNat).min?.map (BitVec.ofNat 64)

/-- Record the offence of an access with bytes out of range (01 R26, R27). -/
def State.chunkOffence (s : State) (w : StrandId) (r : List (Chunk × Option Loc)) (wr : Bool) : State :=
  match lowestOut r with
  | some a => s.offence w a wr
  | none => s

/-- The register that loaded units make. -/
def State.loadedReg (s : State) (w : StrandId) (r : List (Chunk × Option Loc)) : VReg :=
  BitVec.ofNat 2048 ((r.map fun e =>
    match e.2 with
    | some l => s.viewNat w l e.1.n * 2 ^ (8 * e.1.pos)
    | none => 0).foldl (· + ·) 0)

/-- What the reads of units do to the cluster cache; the units have the values that they have behind all of them (14 R241). -/
def State.readChunks (s : State) (w : StrandId) (r : List (Chunk × Option Loc)) : State :=
  r.foldl (fun s e => match e.2 with | some l => s.viewRead w l e.1.n | none => s) s

/-- Store the active bytes of a register, unit by unit. -/
def State.storeChunks (s : State) (w : StrandId) (x : VReg) (r : List (Chunk × Option Loc)) : State :=
  r.foldl (fun s e =>
    match e.2 with
    | some l => (e.1.act.foldl (fun s k => s.viewWrite w l k (byteOf x.toNat (e.1.pos + k))) s).postStore w l
    | none => s) s

/-- What a deterministic launch refuses of a vector store: a berth, or wake storage (16 R294, R296). -/
def State.chunksRefused (s : State) (w : StrandId) (r : List (Chunk × Option Loc)) : Option Trap :=
  match s.crewOf w.core with
  | none => none
  | some c =>
    if !c.det then none
    else
      let at' (e : Chunk) (code : Nat) : Trap := { trapAt 15 code e.first true with elem := BitVec.ofNat 64 e.elem }
      match r.find? fun e => e.2.isSome && decide (e.1.va.toNat < Config.windowBase) &&
          !c.berthAllows 0 (s.core w.core).index e.1.va.toNat with
      | some e => some (at' e.1 3)
      | none =>
        let keys := r.filterMap fun e => e.2.bind fun l => if l.isOwn then none else some l.key
        if s.wakeRoom w keys then none
        else r.head?.map fun e => at' e.1 4

/-- The 8-byte granules of a run of `8 * g` bytes at `base`, whose byte 0 is register byte `pos`: those with an active
byte (05 R109, alignment of the run's start). -/
def granules (p : Pred) (base : Word) (pos g : Nat) : List Chunk :=
  (List.range g).filterMap fun k =>
    let act := (List.range 8).filter fun j => p.getLsbD (pos + 8 * k + j)
    match act with
    | [] => none
    | j :: _ =>
      let va := base + BitVec.ofNat 64 (8 * k)
      some ⟨pos + 8 * k + j, va, va + BitVec.ofNat 64 j, 8, pos + 8 * k, act, base.toNat % 8 == 0, true⟩

/-- The elements of an indexed access (05 R109). -/
def indexed (p : Pred) (w : Nat) (base : Word) (idx : VReg) : List Chunk :=
  (activeList p w).map fun i =>
    let va := base + BitVec.ofNat 64 (elem idx w i * w)
    ⟨i, va, va, w, w * i, List.range w, va.toNat % w == 0, false⟩

/-- The eight 32-byte rows of vldh and vsth. -/
def rows8 (p : Pred) (base stride : Word) : List Chunk :=
  (List.range 8).flatMap fun r => granules p (base + stride * BitVec.ofNat 64 r) (32 * r) 4

/-- A load of units into the active bytes of a vector register. -/
def State.vecLoad (s : State) (n : Nat) (d : BitVec 5) (p : Pred) (w : Nat) (cs : List Chunk) : Res :=
  match s.reachAll s.cur .read cs with
  | .error x => .trap x
  | .ok r =>
    .done (((s.readChunks s.cur r).chunkOffence s.cur r false).result s.cur .variable n (.v d)
      ((s.readChunks s.cur r).loadedReg s.cur r) (activeMask p w))

/-- A store of units from a register. -/
def State.vecStore (s : State) (x : VReg) (cs : List Chunk) : Res :=
  match s.reachAll s.cur .write cs with
  | .error x => .trap x
  | .ok r =>
    match s.chunksRefused s.cur r with
    | some t => .trap t
    | none => .done ((s.chunkOffence s.cur r true).storeChunks s.cur x r)

/-- The base address of a vector access: s[s], with no offset (05 R108). -/
def State.baseOf (s : State) (r : BitVec 4) : Word := (s.strand s.cur).getS r

/-- R109. Load a whole vector register. -/
def execVld (o : VSD) (s : State) : Out :=
  vecIssue o.sc o.p 1 [.s o.s] [] (some o.d) (fun s1 n p => s1.vecLoad n o.d p 1 (granules p (s1.baseOf o.s) 0 32)) s
/-- R109. Store a whole vector register. -/
def execVst (o : VSA) (s : State) : Out :=
  vecIssue o.sc o.p 1 [.s o.s] [(o.a, holdOf o.ha)] none
    (fun s1 _ p => s1.vecStore (s1.srcV o.a) (granules p (s1.baseOf o.s) 0 32)) s
/-- R109. Gather elements by index. -/
def execVldx (o : VXS) (s : State) : Out :=
  let w := (typeOf o.pre .i32).width
  vecIssue o.sc o.p w [.s o.s] [(o.a, holdOf o.ha)] (some o.d)
    (fun s1 n p => s1.vecLoad n o.d p w (indexed p w (s1.baseOf o.s) (s1.srcV o.a))) s
/-- R109. Scatter elements by index; the highest-numbered element of one address stays. -/
def execVstx (o : VXS) (s : State) : Out :=
  let w := (typeOf o.pre .i32).width
  vecIssue o.sc o.p w [.s o.s] [(o.a, holdOf o.ha), (o.d, false)] none
    (fun s1 _ p => s1.vecStore (s1.srcV o.d) (indexed p w (s1.baseOf o.s) (s1.srcV o.a))) s
/-- R109. Load one element, once, into every active element. -/
def execVldb (o : VSD) (s : State) : Out :=
  let w := (typeOf o.pre .i32).width
  vecIssue o.sc o.p w [.s o.s] [] (some o.d) (fun s1 n p =>
    match activeList p w with
    | [] => .done s1
    | i :: _ =>
      let va := s1.baseOf o.s
      match s1.reachAll s1.cur .read [⟨i, va, va, w, 0, List.range w, va.toNat % w == 0, false⟩] with
      | .error x => .trap x
      | .ok r =>
        let x := ((s1.readChunks s1.cur r).loadedReg s1.cur r).toNat
        .done (((s1.readChunks s1.cur r).chunkOffence s1.cur r false).result s1.cur .variable n (.v o.d)
          (ofElems w fun _ => x) (activeMask p w))) s
/-- R109. Load eight rows of 32 bytes, s[s + 1] bytes apart. -/
def execVldh (o : VSD) (s : State) : Out :=
  vecIssue o.sc o.p 1 [.s o.s, .s (o.s + 1)] [] (some o.d)
    (fun s1 n p => s1.vecLoad n o.d p 1 (rows8 p (s1.baseOf o.s) (s1.baseOf (o.s + 1)))) s
/-- R109. Store eight rows of 32 bytes. -/
def execVsth (o : VSA) (s : State) : Out :=
  vecIssue o.sc o.p 1 [.s o.s, .s (o.s + 1)] [(o.a, holdOf o.ha)] none
    (fun s1 _ p => s1.vecStore (s1.srcV o.a) (rows8 p (s1.baseOf o.s) (s1.baseOf (o.s + 1)))) s

/-- The predicate of an instruction with no governing predicate. -/
def allOn : Pred := BitVec.allOnes 256

/-- R109. Load a predicate register. -/
def execPld (o : PLd) (s : State) : Out :=
  s.issue (plain o.sc [.s o.s]) fun s1 n =>
    match s1.reachAll s1.cur .read (granules allOn (s1.baseOf o.s) 0 4) with
    | .error x => .trap x
    | .ok r =>
      .done (((s1.readChunks s1.cur r).chunkOffence s1.cur r false).resultP s1.cur .variable n o.d
        (((s1.readChunks s1.cur r).loadedReg s1.cur r).setWidth 256))
/-- R109. Store a predicate register. -/
def execPst (o : PSt) (s : State) : Out :=
  s.issue (plain o.sc [.s o.s, .p o.a]) fun s1 _ =>
    s1.vecStore (((s1.strand s1.cur).getP o.a).setWidth 2048) (granules allOn (s1.baseOf o.s) 0 4)

end Sys2Proof.Machine
end

