-- ==== Sys2Proof/Machine/Timed.lean ====
section
/-!
DEFINITION. Timed instructions, major 20 (06 R127 to R135).
-/
namespace Sys2Proof.Machine
open Sys2Proof

/-! ### Checks (06 R128) -/

/-- The word that a strand's check and evaluation look at: its own view for a read, else the word at its site. -/
def State.timedWord (s : State) (w : StrandId) (l : Loc) (rd : Bool) : TWord :=
  TWord.ofNat (if rd && (s.strand w).det then s.viewNat w l 16
    else (s.toHome w.core l 16).homeNat w.core l 16)

/-- The code that the read of that word meets, if it fails its check code (24 R390). -/
def State.timedFail (s : State) (w : StrandId) (l : Loc) (rd : Bool) : Option Nat :=
  if rd && (s.strand w).det then s.viewFail w l 16 else (s.toHome w.core l 16).homeFail w.core l 16

/-- The tide that a law names at a word's site is the strand's. -/
def State.tideOk (s : State) (w : StrandId) (l : Loc) (law : BitVec 8) : Bool :=
  (s.lawAt l law.toNat).logical == (s.strand w).det

/-- The checks of a timed access in their order; no place for a word out of range. The word is read for the tide of its law,
behind the check of its site. `extra` is the law that tst installs. -/
def State.timedReach (s : State) (w : StrandId) (acc : Acc) (va : Word) (extra : Option (BitVec 8)) :
    Except Trap (Option Loc) :=
  match s.checked w acc va 16 with
  | .trap x => .error x
  | .out => .ok none
  | .at l =>
    if !l.timedSite then .error (trapAt 14 1 va acc.writes)
    else if let some code := s.timedFail w l (!acc.writes) then .error (trapAt 0 code va acc.writes)
    else if !s.tideOk w l (s.timedWord w l (!acc.writes)).law then .error (trapAt 14 2 va acc.writes)
    else if !(extra.map (s.tideOk w l)).getD true then .error (trapAt 14 2 va acc.writes)
    else if acc.writes then
      match s.berthRefused w va with
      | some x => .error x
      | none => .ok (some l)
    else .ok (some l)

/-! ### Reads (06 R122, R125, 16 R290) -/

/-- A timed read: the state, the values at now and the status. In a deterministic launch a word elsewhere than in the own
local store is evaluated in the strand's view, and the flags change by request; in the own local store they change at
once, and the crossing message is posted at the quantum end. -/
def State.timedRead (s : State) (w : StrandId) (va : Word) (l : Loc) (lane : Nat) : State × Word × Word :=
  let now := s.nowOf w
  if !(s.strand w).det then s.timedAt w .read va l now lane
  else
    let w0 := s.timedWord w l true
    let s := s.useLaw l w0.law.toNat
    let law := s.lawAt l w0.law.toNat
    let e := evalWord w0 law now
    let r := TimedOp.read.write w0 e now
    let answer := (pairWord e.x e.y, statusWord e.tick r.1.law e.hit r.2 r.1.fired r.1.armed)
    if !e.hit then (s, answer)
    else if l.isOwn then
      let s1 := s.viewStore w l r.1.toNat 16
      (if law.handler = 0xFFF#12 then s1
        else s1.collect w [] (.send (s1.crossing w va l law w0.law lane e now)), answer)
    else (s.collect w [] (.mark va l now lane), answer)

/-- R130. Read a timed word advanced to now, with its status. -/
def execTld (o : R2) (s : State) : Out :=
  s.issue (plain o.sc [.s o.a]) fun s1 n =>
    let w := s1.cur
    let va := (s1.strand w).getS o.a
    match s1.timedReach w .read va none with
    | .error x => .trap x
    | .ok none =>
      .done (((s1.offence w va false).resultS w .variable n o.d 0).resultS w .variable n (o.d + 1) (outStatus (s1.nowOf w)))
    | .ok (some l) =>
      let r := s1.timedRead w va l 0
      .done ((r.1.resultS w .variable n o.d r.2.1).resultS w .variable n (o.d + 1) r.2.2)

/-! ### Writes (06 R131, R132) -/

/-- A writing func: its checks, then its effect at the site, or a request. -/
def timedWrite (sc : BitVec 2) (d a : BitVec 4) (srcs : List Reg) (extra : Strand → Option (BitVec 8))
    (op : Strand → TimedOp) (s : State) : Out :=
  s.issue (plain sc (.s a :: srcs)) fun s1 n =>
    let w := s1.cur
    let va := (s1.strand w).getS a
    match s1.timedReach w .rmw va (extra (s1.strand w)) with
    | .error x => .trap x
    | .ok none => .done ((s1.offence w va true).submit w n [d] (.timed (some d) (op (s1.strand w)) va none (s1.nowOf w) 0))
    | .ok (some l) => .done (s1.submit w n [d] (.timed (some d) (op (s1.strand w)) va (some l) (s1.nowOf w) 0))

/-- R131. Store a new value pair, stamped now; the law stays. -/
def execTst (o : R3) (s : State) : Out :=
  timedWrite o.sc o.d o.a [.s o.b] (fun _ => none) (fun t => .set (t.getS o.b) none) s
/-- R131. Store a new value pair and a new law. -/
def execTstLaw (o : R3) (s : State) : Out :=
  timedWrite o.sc o.d o.a [.s o.b, .s (o.b + 1)] (fun t => some ((t.getS (o.b + 1)).setWidth 8))
    (fun t => .set (t.getS o.b) (some ((t.getS (o.b + 1)).setWidth 8))) s
/-- R131. Add to the advanced values, each half clamped. -/
def execTadd (o : R3) (s : State) : Out := timedWrite o.sc o.d o.a [.s o.b] (fun _ => none) (fun t => .add (t.getS o.b)) s
/-- R131. Rebase the word at now. -/
def execTtouch (o : R2) (s : State) : Out := timedWrite o.sc o.d o.a [] (fun _ => none) (fun _ => .touch) s
/-- R131. Rebase the word and arm it. -/
def execTarm (o : R2) (s : State) : Out := timedWrite o.sc o.d o.a [] (fun _ => none) (fun _ => .arm) s
/-- R132. Clear the selected flags without rebasing. -/
def execTclr (o : TC) (s : State) : Out := timedWrite o.sc o.d o.a [] (fun _ => none) (fun _ => .clear o.clr) s

/-! ### Vector forms (06 R133) -/

/-- The addresses of the active lanes. -/
def laneAddrs (p : Pred) (base stride : Word) : List (Nat × Word) :=
  (activeList p 4).map fun i => (i, base + stride * BitVec.ofNat 64 i)

/-- The checks of the active lanes in ascending order. -/
def State.reachLanes (s : State) (w : StrandId) (acc : Acc) : List (Nat × Word) → Except Trap (List (Nat × Word × Option Loc))
  | [] => .ok []
  | (i, va) :: rest =>
    match s.timedReach w acc va none with
    | .error x => .error { s.namesAll w acc (((i, va) :: rest).map fun e => (e.2, 16)) x with elem := BitVec.ofNat 64 i }
    | .ok l => (s.reachLanes w acc rest).map fun r => (i, va, l) :: r

/-- Record the first lane out of range. -/
def State.laneOffence (s : State) (w : StrandId) (ls : List (Nat × Word × Option Loc)) (wr : Bool) : State :=
  match ls.find? fun e => e.2.2.isNone with
  | some e => s.offence w e.2.1 wr
  | none => s

/-- Read the lanes one after another: the state and the value of each. -/
def State.readLanes (s : State) (w : StrandId) : List (Nat × Word × Option Loc) → State × List (Nat × Nat)
  | [] => (s, [])
  | (i, va, l) :: rest =>
    match l with
    | none =>
      let r := s.readLanes w rest
      (r.1, (i, 0) :: r.2)
    | some l =>
      let x := s.timedRead w va l i
      let r := x.1.readLanes w rest
      (r.1, (i, lowNat x.2.1) :: r.2)

/-- R133. Read up to 64 words into the lanes of a vector register. -/
def execVtld (o : TV) (s : State) : Out :=
  vecIssue o.sc o.p 4 [.s o.a, .s o.b] [] (some o.v) (fun s1 n p =>
    let w := s1.cur
    match s1.reachLanes w .read (laneAddrs p ((s1.strand w).getS o.a) ((s1.strand w).getS o.b)) with
    | .error x => .trap x
    | .ok ls =>
      let r := (s1.laneOffence w ls false).readLanes w ls
      .done (r.1.result w .variable n (.v o.v) (ofElems 4 fun i => (r.2.lookup i).getD 0) (activeMask p 4))) s

/-- R133. Add the lanes of a vector register to up to 64 words. -/
def execVtadd (o : TV) (s : State) : Out :=
  vecIssue o.sc o.p 4 [.s o.a, .s o.b] [(o.v, false)] none (fun s1 n p =>
    let w := s1.cur
    match s1.reachLanes w .rmw (laneAddrs p ((s1.strand w).getS o.a) ((s1.strand w).getS o.b)) with
    | .error x => .trap x
    | .ok ls =>
      let v := s1.srcV o.v
      .done ((s1.laneOffence w ls true).submit w n []
        (.lanes (ls.map fun e => (e.1, e.2.1, e.2.2, BitVec.ofNat 32 (elem v 4 e.1))) (s1.nowOf w)))) s

/-! ### Laws (06 R134, R135) -/

/-- The entry that a law descriptor defines, and how many rungs were clamped. -/
def lawOf (d0 d1 d2 : Word) : Law × Nat :=
  let r := ladderFrom (d0.extractLsb' 0 2) 47 d1
  (⟨d0, d1, d2, r.1⟩, r.2)

/-- R134. Define a law from a 32-byte descriptor. The strand stays behind it until every die's copy is the new entry and no
cluster's cache holds another. -/
def execLawset (o : R3) (s : State) : Out :=
  s.issue (plain o.sc [.s o.a, .s o.b]) fun s1 n =>
    let w := s1.cur
    let va := (s1.strand w).getS o.b
    match s1.reach w .read va 32 with
    | .trap x => .trap x
    | r =>
      let s2 := match r with | .at l => s1.viewRead w l 32 | _ => s1.offence w va false
      let v := s2.unitValue w r 32
      let d (k : Nat) : Word := BitVec.ofNat 64 (v / 2 ^ (64 * k))
      if lawBad (d 0) (d 1) (d 2) (d 3) then .trap (trapOf 14 3)
      else
        let x := lawOf (d 0) (d 1) (d 2)
        let k := ((s1.strand w).getS o.a).toNat % 256
        let s3 := ({ s2 with laws := FMap.put s2.laws k x.1 }).resultS w .variable n o.d (BitVec.ofNat 64 x.2)
        .done (if s3.lawSpread k then s3 else s3.stay w (.laws k))

/-- R135. Read a doubleword of a law's entry, as the issuing die's copy has it. -/
def execLawget (o : R3) (s : State) : Out :=
  s.issue (plain o.sc [.s o.a, .s o.b]) fun s1 n =>
    let t := s1.strand s1.cur
    .done (s1.resultS s1.cur .variable n o.d
      ((s1.dieLaw (dieOf s1.cur.core) ((t.getS o.a).toNat % 256)).entry ((t.getS o.b).toNat % 64)))

end Sys2Proof.Machine
end

