-- ==== Sys2Proof/Machine/Attention.lean ====
section
/-!
DEFINITION. The attention instructions (17 R313 to R324): their issue checks, their joins, and apos (major 23); and the
join of a chain instance of any kind (11 R203).
-/
namespace Sys2Proof.Machine
open Sys2Proof

/-- The first trap that a list of checks finds. -/
def firstTrap (l : List (Option Trap)) : Option Trap := l.findSome? id

/-! ### Pages (17 R313, R314) -/

/-- The bytes of a row of `hd` elements. -/
def pageRow (fmt : BitVec 3) (hd : Nat) : Nat := hd * matWidth fmt

/-- The check of one 8-byte read of a page (17 R316 step 3): address form and translation; with `watch` also the data
watchpoints, which the reads of the array do not meet (20 R360). -/
def State.granuleCheck (s : State) (w : StrandId) (watch : Bool) (va : Word) : Option Trap :=
  match s.look (s.agent w) .read va with
  | .bad cls code => some (trapAt cls code va false)
  | _ =>
    if watch then (watchHit (s.strand w) .read va 8).map (watchTrap .read) else none

/-- The checks of 8-byte reads at offsets of a block, in their order: of each its address form, the alignment of the block, and
its translation (04 R81, 17 R313, R316). A watchpoint's trap names all those that the reads match (20 R361). -/
def State.blockCheck (s : State) (w : StrandId) (watch : Bool) (base : Word) (offs : List Nat) : Option Trap :=
  match offs with
  | [] => none
  | o :: _ =>
    if badForm (base + BitVec.ofNat 64 o) 8 then some (trapAt 4 0 (base + BitVec.ofNat 64 o) false)
    else if base.toNat % 64 ≠ 0 then some (trapAt 5 0 base false)
    else
      (offs.findSome? fun o => s.granuleCheck w watch (base + BitVec.ofNat 64 o)).map
        (s.namesAll w .read (offs.map fun o => (base + BitVec.ofNat 64 o, 8)))

/-- The offsets of `n` bytes from an offset on, by 8-byte reads. -/
def pageOffs (o n : Nat) : List Nat := (List.range (n / 8)).map fun k => o + 8 * k

/-- The byte `k` behind a place. -/
def Loc.plus (l : Loc) (k : Nat) : Loc :=
  match l with
  | .dev a => .dev (a + k)
  | .rep a => .rep (a + k)
  | .store c o own => .store c (o + k) own
  | .pad c o => .pad c (o + k)
  | .host a => .host (a + k)
  | .peer d a => .peer d (a + k)

/-- The lines of 64 bytes of a page that a strand reads, by number, with their places as it issues; a line out of range has
none. A later change of core.spgrant, core.peermask or the translation does not move them (01 R22, R28, 19 R343). -/
def State.linePlaces (s : State) (w : StrandId) (as : List Word) : List (Nat × Option Loc) :=
  (as.map fun a => a.toNat / 64).eraseDups.map fun n =>
    (n, match s.look (s.agent w) .read (BitVec.ofNat 64 (n * 64)) with | .place l => some l | _ => none)

/-- The addresses at offsets of a block. -/
def blockAddrs (base : Word) (offs : List Nat) : List Word := offs.map fun o => base + BitVec.ofNat 64 o

/-- The place of an address, in a line that the issue found. -/
def placeIn (ps : List (Nat × Option Loc)) (a : Word) : Option Loc :=
  (ps.lookup (a.toNat / 64)).join.map (·.plus (a.toNat % 64))

/-- `n` doublewords at an address as a strand reads them, and the lowest address out of range. -/
def State.pageRead (s : State) (w : StrandId) (ps : List (Nat × Option Loc)) (a : Word) : Nat → Nat × Option Word
  | 0 => (0, none)
  | n + 1 =>
    let r := s.pageRead w ps a n
    let b := a + BitVec.ofNat 64 (8 * n)
    match placeIn ps b with
    | some l => (r.1 + s.viewNat w l 8 * 2 ^ (64 * n), r.2)
    | none => (r.1, r.2.or (some b))

/-- What the reads of `n` doublewords of a page do to the cluster cache (13 R229). -/
def State.pageFill (s : State) (w : StrandId) (ps : List (Nat × Option Loc)) (a : Word) (n : Nat) : State :=
  (List.range n).foldl (fun s k =>
    match placeIn ps (a + BitVec.ofNat 64 (8 * k)) with
    | some l => s.viewRead w l 8
    | none => s) s

/-- Read `n` bytes of a page, as they stand behind the reads (14 R241), recording an offence. -/
def State.pageGet (s : State) (w : StrandId) (ps : List (Nat × Option Loc)) (a : Word) (n : Nat) : State × Nat :=
  let s1 := s.pageFill w ps a (n / 8)
  let r := s1.pageRead w ps a (n / 8)
  (s1.readOffence w r.2, r.1)

/-- The first of `n` bytes of a page that fails its check code (24 R390). -/
def State.pageFail (s : State) (w : StrandId) (ps : List (Nat × Option Loc)) (a : Word) (n : Nat) : Option Trap :=
  (List.range (n / 8)).findSome? fun k =>
    let b := a + BitVec.ofNat 64 (8 * k)
    (placeIn ps b).bind fun l => s.failedRead w .read b l 8

/-- The occupancy mask of a page. -/
def State.occupancy (s : State) (w : StrandId) (ps : List (Nat × Option Loc)) (info : Word) : State × Nat :=
  s.pageGet w ps (info + 1280) 8

/-- Read several rows of `n` bytes, at offsets of a base. -/
def State.pageRows (s : State) (w : StrandId) (ps : List (Nat × Option Loc)) (base : Word) (n : Nat) : List Nat → State × List Nat
  | [] => (s, [])
  | o :: os =>
    let r := s.pageGet w ps (base + BitVec.ofNat 64 o) n
    let rest := r.1.pageRows w ps base n os
    (rest.1, r.2 :: rest.2)

/-- Element `k` of a row. -/
def rowElem (fmt : BitVec 3) (row k : Nat) : Keyed := matDecode fmt (row / 2 ^ (8 * matWidth fmt * k) % 2 ^ (8 * matWidth fmt))

/-- A scale byte as an operand: 127 when the format takes none. -/
def scaleByte (fmt : BitVec 3) (scale : Word) (n : Nat) : Nat := if matB8 fmt then wordByte scale n else 127
/-- A NaN scale byte is a NaN operand with key 255 (17 R323). -/
def scaleKey (c : Nat) : Keyed := ⟨if c = 255 then .nan else .zero false, 255⟩

/-- Element (i, j) of a core's accumulator. -/
def State.accElem (s : State) (core : Nat) (a : BitVec 2) (i j : Nat) : Nat := tileElem ((s.core core).getAcc a) (16 * i + j)

/-- The granules of columns 0 to 7: four of the eight of each row. -/
def leftGranules (i : Nat) : Bool := decide (i % 8 < 4)

/-- Columns 0 to 7 of an accumulator replaced. -/
def leftColumns (old : Tile) (f : Nat → Nat → Nat) : Tile :=
  ofTile fun n => if n % 16 < 8 then f (n / 16) (n % 16) else tileElem old n

/-! ### ascore (17 R318) -/

/-- The score of a query row and an occupied token. -/
def scoreElem (fmt : BitVec 3) (hd : Nat) (q k : Nat) (scale : Word) (t : Nat) : Nat :=
  let sq := scaleByte fmt scale 4
  let sk := scaleByte fmt scale 5
  let qs := (List.range hd).map (rowElem fmt q)
  let ks := (List.range hd).map (rowElem fmt k)
  let d := exactSum ((qs.zip ks).map fun e => FVal.scale (FVal.scale (FVal.prod e.1.x e.2.x) sq) sk)
  let c := Keyed.ofBits (lowNat scale)
  (keyed t (qs ++ ks ++ [scaleKey sq, scaleKey sk, c]) (FVal.prod d c.x)).bits

/-- −∞ and −0 patterns of f32. -/
def minusInf : Nat := 0xFF800000

/-- One position's part of an ascore: the scores of its occupied tokens. -/
def State.scorePart (s : State) (who : StrandId) (p : Nat) (acc : BitVec 2) (fmt : BitVec 3) (hd : Nat) (scale data info : Word)
    (ps : List (Nat × Option Loc)) (qs : List Nat) : State :=
  let n := pageRow fmt hd
  let o := s.occupancy who ps info
  let ts := ((List.range 8).map fun j => 8 * p + j).filter fun t => o.2 / 2 ^ t % 2 == 1
  let r := o.1.pageRows who ps data n (ts.map fun t => t * n)
  let rows := ts.zip r.2
  r.1.onCore who.core fun c => c.putAccPart acc leftGranules (leftColumns (c.getAcc acc) fun i j =>
    match rows.lookup (8 * p + j) with
    | some k => scoreElem fmt hd (qs.getD i 0) k scale (8 * p + j)
    | none => minusInf)

/-- The query lines that position 0 reads. -/
def State.queryLines (s : State) (who : StrandId) (g : BitVec 8 × BitVec 9) (base ctl : Word) (n : Nat) : State × List Nat :=
  let rs := (List.range 16).map fun l => s.padRead who g (lineAddr base ctl 0 l) (n / 8)
  (s.readOffence who (rs.findSome? (·.2)), rs.map (·.1))

def State.joinScore (s : State) (ms : List ChainIssue) : State :=
  let q := match ms with
    | i :: _ =>
      match i.op with
      | .score _ fmt hd _ query ctl _ _ => s.queryLines i.who i.grant query (ctl &&& ~~~(0xFFFF0000 : Word)) (pageRow fmt hd)
      | _ => (s, [])
    | [] => (s, [])
  ms.zipIdx.foldl (fun s e =>
    match e.1.op with
    | .score acc fmt hd scale _ _ data info => s.scorePart e.1.who e.2 acc fmt hd scale data info e.1.places q.2
    | _ => s) q.1

/-! ### asoft (17 R319) -/

/-- What asoft makes of one row: the weights of the 64 tokens, and m, l, r. -/
structure SoftRow where
  weights : List Nat
  m : Nat
  l : Nat
  r : Nat
deriving DecidableEq, Repr

/-- The greater of two values that are no NaN. -/
def maxOf (a b : Keyed) : Keyed := keyed 0 [a, b] (FVal.fmax a.x b.x)

/-- The tree sum of eight weights. -/
def sumEight (ws : List Keyed) : Keyed :=
  match nodeLevels 3 (ws.zipIdx.map fun e => ⟨e.1, e.2⟩) with
  | n :: _ => n.v
  | [] => ⟨.zero false, 0⟩

/-- A difference raised: Exp2R of an exact difference. -/
def powDiff (dflt : Nat) (a b : Keyed) : Keyed := keyed dflt [a, b] (exp2R (FVal.sum .near a.x b.x.neg))

/-- One row of asoft from its 64 scores, token by token. -/
def softRow (i : Nat) (m l : Nat) (scores : List Nat) : SoftRow :=
  let m0 := Keyed.ofBits m
  let l0 := Keyed.ofBits l
  let ss := scores.map Keyed.ofBits
  let top := ss.foldl maxOf m0
  if top.x.isNaN then
    let v := (keyed 0 (m0 :: ss) .nan).bits
    ⟨List.replicate 64 v, v, v, v⟩
  else if top.x = .inf true then ⟨List.replicate 64 0, minusInf, l, 0x3F800000⟩
  else
    let r := powDiff (64 + i) m0 top
    let ws := ss.zipIdx.map fun e => powDiff e.2 e.1 top
    let sums := (List.range 8).map fun p => sumEight ((ws.drop (8 * p)).take 8)
    let c := match sums with
      | x :: xs => xs.foldl (fun a b => (a.add (64 + i) b).round) x
      | [] => ⟨.zero false, 0⟩
    let l1 := keyed (64 + i) [l0, r, c] (FVal.sum .near (FVal.prod l0.x r.x) c.x)
    ⟨ws.map Keyed.bits, top.bits, l1.bits, r.bits⟩

/-- The accumulator that a soft instruction names, by position. -/
def ChainOp.softAcc : ChainOp → Option (BitVec 2 × BitVec 5 × VReg)
  | .soft acc v old => some (acc, v, old)
  | _ => none

def State.joinSoft (s : State) (ms : List ChainIssue) : State :=
  let parts := ms.zipIdx.filterMap fun e => e.1.op.softAcc.map fun x => (e.2, e.1, x)
  let old := (parts.head?.map fun e => e.2.2.2.2).getD 0
  let rows := (List.range 16).map fun i =>
    softRow i (elem old 4 i) (elem old 4 (16 + i))
      (parts.flatMap fun e => (List.range 8).map fun j => s.accElem e.2.1.who.core e.2.2.1 i j)
  let row (i : Nat) : SoftRow := rows.getD i ⟨[], 0, 0, 0⟩
  let new := ofElems 4 fun n =>
    if n < 16 then (row n).m else if n < 32 then (row (n - 16)).l else if n < 48 then (row (n - 32)).r else 0
  parts.foldl (fun s e =>
    let s1 := s.onCore e.2.1.who.core fun c =>
      c.putAccPart e.2.2.1 leftGranules (leftColumns (c.getAcc e.2.2.1) fun i j => (row i).weights.getD (8 * e.1 + j) 0)
    s1.result e.2.1.who .variable e.2.1.slot (.v e.2.2.2.1) new (BitVec.allOnes 2048)) s

/-! ### aval (17 R320) -/

/-- One element of an output: the old one rescaled, plus the weighted values of the occupied tokens. -/
def valueElem (i : Nat) (o r : Nat) (sv : Nat) (tokens : List (Nat × Keyed × Keyed)) : Nat :=
  let terms := tokens.map fun e => FVal.prod e.2.1.x (FVal.scale e.2.2.x sv)
  let first (f : FVal → Bool) : Option Nat := (terms.findIdx? f).bind fun n => (tokens[n]?).map (·.1)
  let dflt := ((first FVal.isNaN).or (first FVal.isInf)).getD 0
  let ops := tokens.flatMap (fun e => [e.2.1, e.2.2]) ++ (if tokens.isEmpty then [] else [scaleKey sv])
  let dot := keyed dflt ops (exactSum terms)
  let o1 := Keyed.ofBits o
  let r1 := Keyed.ofBits r
  (keyed (64 + i) [o1, r1, dot] (FVal.sum .near (FVal.prod o1.x r1.x) dot.x)).bits

/-- One position's part of an aval. -/
def State.valuePart (s : State) (who : StrandId) (p : Nat) (acc : BitVec 2) (fmt : BitVec 3) (hd : Nat) (scale : Word)
    (old : VReg) (data info : Word) (ps : List (Nat × Option Loc)) (weight : Nat → Nat → Nat) : State :=
  let n := pageRow fmt hd
  let part := 16 * matWidth fmt
  let o := s.occupancy who ps info
  let ts := (List.range 64).filter fun t => o.2 / 2 ^ t % 2 == 1
  let r := o.1.pageRows who ps data part (ts.map fun t => (64 + t) * n + p * part)
  let rows := ts.zip r.2
  r.1.onCore who.core fun c => c.putAcc acc (ofTile fun e =>
    valueElem (e / 16) (tileElem (c.getAcc acc) e) (elem old 4 (32 + e / 16)) (scaleByte fmt scale 5)
      (rows.map fun x => (x.1, Keyed.ofBits (weight (e / 16) x.1), rowElem fmt x.2 (e % 16))))

def State.joinValue (s : State) (ms : List ChainIssue) : State :=
  let weight (i t : Nat) : Nat :=
    match ms[t / 8]? with
    | some m =>
      match m.op with
      | .value _ aw .. => s.accElem m.who.core aw i (t % 8)
      | _ => 0
    | none => 0
  ms.zipIdx.foldl (fun s1 e =>
    match e.1.op with
    | .value acc _ fmt hd scale old data info =>
      if e.2 < hd / 16 then s1.valuePart e.1.who e.2 acc fmt hd scale old data info e.1.places weight else s1
    | _ => s1) s

/-! ### amass (17 R321) -/

/-- The addend of a token: the tree sum of its normalised weights. -/
def massAddend (n : Nat) (old : VReg) (score : Nat → Nat) : Nat :=
  let ws := (List.range n).map fun i =>
    let m := Fmt.f32.decode (elem old 4 i)
    let e := if m = .inf true then .zero false else exp2R (FVal.sum .near (Fmt.f32.decode (score i)) m.neg)
    Fmt.f32.round .near false (FVal.quot e (Fmt.f32.decode (elem old 4 (16 + i))))
  toQ16 (Fmt.f32.decode (treeSum .f32 .near false false ws))

def State.joinMass (s : State) (ms : List ChainIssue) : State :=
  match ms with
  | [] => s
  | i :: _ =>
    match i.op with
    | .mass _ n old info now words =>
      let o := s.occupancy i.who i.places info
      let score (t k : Nat) : Nat :=
        match ms[t / 8]? with
        | some m => ((m.op.accs.head?).map fun a => s.accElem m.who.core a k (t % 8)).getD 0
        | none => 0
      let ts := (List.range 64).filter fun t => o.2 / 2 ^ t % 2 == 1
      let lanes := ts.map fun t => (t, info + BitVec.ofNat 64 (16 * t), (words.lookup t).join)
      let ws := lanes.map fun e => (e.1, e.2.1, e.2.2, BitVec.ofNat 32 (massAddend n old (score e.1)))
      (o.1.laneOffence i.who lanes true).submit i.who i.slot [] (.lanes ws (if s.coreDet i.who.core then now else s.nowOf i.who))
    | _ => s

/-! ### Joins (11 R203, R204, 17 R316) -/

/-- Each position of an attention instance is charged 64 units. -/
def State.chargeAttention (s : State) (r : Nat) : State :=
  (s.spend (r / 4) 512).charge (r * 8) 512

/-- The first read of an instance, in position order, that fails its check code: its strand, its halfwords, and the
uncorrectable error (24 R390). Of registers the join reads tile predicates, and the accumulators that hold scores, weights and
outputs; an mma's addend is read as it delivers. -/
def State.instanceFail (s : State) (row : Row) (ms : List ChainIssue) : Option (ChainIssue × Trap) :=
  if s.failing.isEmpty && ms.all fun i => (s.strand i.who).fails.isEmpty && (s.core i.who.core).fails.isEmpty then none
  else
    ms.zipIdx.findSome? fun e =>
      let i := e.1
      let p := e.2
      let w := i.who
      let ps := i.places
      let occ (info : Word) : Nat := (s.occupancy w ps info).2
      let tokens (info : Word) (ts : List Nat) : List Nat := ts.filter fun t => occ info / 2 ^ t % 2 == 1
      let found : Option Trap :=
        match i.op with
        | .mma _ fa fb _ q _ a b =>
          let k := matK fa fb
          (s.tileFail w q).or <|
          if (s.strand w).tileBit q then
            (if row.deep || p == 0 then s.operandFail w i.grant a p (lineBytes fa k) else none).or
              (s.operandFail w i.grant b p (lineBytes fb k))
          else none
        | .score _ fmt hd _ query ctl data info =>
          let n := pageRow fmt hd
          firstTrap [
            if p = 0 then s.operandFail w i.grant (.desc query (ctl &&& ~~~(0xFFFF0000 : Word))) 0 n else none,
            s.pageFail w ps (info + 1280) 8,
            (tokens info ((List.range 8).map (8 * p + ·))).findSome? fun t => s.pageFail w ps (data + BitVec.ofNat 64 (t * n)) n]
        | .value acc aw fmt hd _ _ data info =>
          let n := pageRow fmt hd
          let part := 16 * matWidth fmt
          (s.accFail w.core aw leftGranules).or <|
          if p < hd / 16 then
            (s.accFail w.core acc fun _ => true).or <| (s.pageFail w ps (info + 1280) 8).or ((tokens info (List.range 64)).findSome? fun t =>
              s.pageFail w ps (data + BitVec.ofNat 64 ((64 + t) * n + p * part)) part)
          else none
        | .mass acc n _ info _ _ =>
          (s.accFail w.core acc fun i => leftGranules i && decide (i / 8 < n)).or <|
          if p = 0 then s.pageFail w ps (info + 1280) 8 else none
        | .soft acc .. => s.accFail w.core acc leftGranules
        | .rowcfg .. => none
      found.map fun x => (i, x)

/-- The effect of an instance whose members agree. -/
def State.joinEffect (s : State) (r : Nat) (row : Row) (ms : List ChainIssue) : State :=
  match ms with
  | [] => s
  | i :: _ =>
    match i.op with
    | .mma _ fa fb ac _ _ _ _ => s.joinMma r row ms fa fb ac
    | .rowcfg _ deep => s.joinRowcfg r row ms deep
    | .score .. => ((s.setRow r row.pop).joinScore ms).chargeAttention r
    | .soft .. => ((s.setRow r row.pop).joinSoft ms).chargeAttention r
    | .value .. => ((s.setRow r row.pop).joinValue ms).chargeAttention r
    | .mass .. => ((s.setRow r row.pop).joinMass ms).chargeAttention r

/-- Every slice has room for an instance: one mma behind the one in slice work; an attention instance follows the results
that are still to come (11 R216). -/
def Row.room (r : Row) (op : ChainOp) : Bool :=
  match op with
  | .mma .. | .rowcfg .. => decide (r.work.length < 2)
  | _ => r.work.isEmpty

/-- A member of a raft traps: the raft dissolves (09 R179). -/
def State.leaveRaft (s : State) (w : StrandId) : State :=
  match (s.strand w).raft with
  | none => s
  | some m =>
    ((List.range 32).filter m.getLsbD).foldl (fun s i =>
      s.onStrand ⟨clusterOf w.core * 32 + i, 0⟩ fun t => { t with raft := none }) s

/-- The next instance of a row joins, if its eight members have issued and there is room. -/
def State.joinRow (s : State) (r : Nat) : State :=
  let row := s.row r
  match row.members with
  | none => s
  | some ms =>
    match ms with
    | [] => s
    | i :: _ =>
      if !row.room i.op then s
      else
        match instanceTraps ms, s.instanceFail row ms with
        | some ts, _ => ts.foldl (fun s e => (s.leaveRaft e.1.who).chainTrap e.1 e.2) (s.setRow r row.pop)
        | none, some (i, x) => s.consumed i.who i.ir x
        | none, none => ms.foldl State.chainDone (s.joinEffect r row ms)

/-- R203. The next chain instance of a row joins. -/
def execChainJoin (r : Nat) (s : State) : Out := .next (s.joinRow r)

/-! ### Issue (17 R315, R316) -/

/-- A pair of s registers. -/
def pairRegs (k : BitVec 3) : List Reg := [.s ((0#1 ++ k) <<< 1), .s (((0#1 ++ k) <<< 1) + 1)]
def Strand.pairLow (t : Strand) (k : BitVec 3) : Word := t.getS ((0#1 ++ k) <<< 1)
def Strand.pairHigh (t : Strand) (k : BitVec 3) : Word := t.getS (((0#1 ++ k) <<< 1) + 1)
/-- The vector register of an operand value. -/
def stateReg (a : BitVec 3) : BitVec 5 := (0#2 ++ a) <<< 1

/-- A check of fs: the matrix fault with code 4. -/
def scaleCheck (bad : Bool) : Option Trap := if bad then some (trapOf 12 4) else none

/-- What an ascore reads of a page at position `p`, and an aval: offsets of the data block. -/
def scoreOffs (fmt : BitVec 3) (hd p : Nat) : List Nat := pageOffs (8 * p * pageRow fmt hd) (8 * pageRow fmt hd)
def valueOffs (fmt : BitVec 3) (hd p : Nat) : List Nat :=
  let part := 16 * matWidth fmt
  (List.range 64).flatMap fun t => pageOffs ((64 + t) * pageRow fmt hd + p * part) part

/-- The checks of an ascore at its position. -/
def State.scoreCheck (s : State) (w : StrandId) (fmt : BitVec 3) (hd : Nat) (scale query ctl data info : Word) : Option Trap :=
  let n := pageRow fmt hd
  let p := posOf w.core
  firstTrap [
    if p = 0 then descCheck query (ctl &&& ~~~(0xFFFF0000 : Word)) 0 n 64 false else none,
    scaleCheck (scale.extractLsb' 48 16 ≠ 0#16),
    s.blockCheck w false info [1280],
    s.blockCheck w false data (scoreOffs fmt hd p)]

/-- R318. Issue an ascore. -/
def execAscore (o : ASc) (s : State) : Out :=
  s.issue (plain o.sc (.f o.fs :: (pairRegs o.a ++ pairRegs o.b))) fun s1 n =>
    let w := s1.cur
    let t := s1.strand w
    let hd := if o.hd = 1#1 then 128 else 64
    let scale := t.getF o.fs
    s1.chain w n o.sc (.score o.acc o.f hd scale (t.pairLow o.a) (t.pairHigh o.a) (t.pairLow o.b) (t.pairHigh o.b)) []
      (s1.linePlaces w ((t.pairHigh o.b + 1280) :: blockAddrs (t.pairLow o.b) (scoreOffs o.f hd (posOf w.core))))
      (s1.scoreCheck w o.f hd scale (t.pairLow o.a) (t.pairHigh o.a) (t.pairLow o.b) (t.pairHigh o.b))

/-- R319. Issue an asoft. -/
def execAsoft (o : ASo) (s : State) : Out :=
  s.issue ⟨o.sc, [], [(stateReg o.a, false)], some (stateReg o.a), false, [], wholly⟩ fun s1 n =>
    let w := s1.cur
    s1.chain w n o.sc (.soft o.acc (stateReg o.a) (s1.readV w.core (stateReg o.a))) [stateReg o.a] [] none

/-- The checks of an aval at its position: one that owns columns reads them. -/
def State.valueCheck (s : State) (w : StrandId) (fmt : BitVec 3) (hd : Nat) (scale data info : Word) : Option Trap :=
  let p := posOf w.core
  firstTrap [
    scaleCheck (scale &&& ~~~(0xFF0000000000 : Word) ≠ 0),
    if p < hd / 16 then
      (s.blockCheck w false info [1280]).or
        (s.blockCheck w false data (valueOffs fmt hd p))
    else none]

/-- R320. Issue an aval. -/
def execAval (o : AVa) (s : State) : Out :=
  s.issue ⟨o.sc, .f o.fs :: pairRegs o.b, [(stateReg o.a, false)], none, false, [], wholly⟩ fun s1 n =>
    let w := s1.cur
    let t := s1.strand w
    let hd := if o.hd = 1#1 then 128 else 64
    let scale := t.getF o.fs
    s1.chain w n o.sc
      (.value o.acc o.aw o.f hd scale (s1.readV w.core (stateReg o.a)) (t.pairLow o.b) (t.pairHigh o.b)) [stateReg o.a]
      (s1.linePlaces w ((t.pairHigh o.b + 1280) :: blockAddrs (t.pairLow o.b) (valueOffs o.f hd (posOf w.core))))
      (s1.valueCheck w o.f hd scale (t.pairLow o.b) (t.pairHigh o.b))

/-- The mass words of a page: the checks of those of its occupied slots (17 R316 step 4), and the places of all, which the join
takes for the slots that are occupied then, with no check again (06 R117). A word out of range has none. -/
def State.massWords (s : State) (w : StrandId) (ps : List (Nat × Option Loc)) (info : Word) :
    Except Trap (List (Nat × Option Loc)) :=
  let occ := (s.occupancy w ps info).2
  let va (t : Nat) : Word := info + BitVec.ofNat 64 (16 * t)
  (s.reachLanes w .rmw (((List.range 64).filter fun t => occ / 2 ^ t % 2 == 1).map fun t => (t, va t))).map fun _ =>
    (List.range 64).map fun t => (t, match s.look (s.agent w) .rmw (va t) with | .place l => some l | _ => none)

/-- R321. Issue an amass. -/
def execAmass (o : AMa) (s : State) : Out :=
  s.issue ⟨o.sc, .f o.fs :: pairRegs o.b, [(stateReg o.a, false)], none, false, [], wholly⟩ fun s1 n =>
    let w := s1.cur
    let t := s1.strand w
    let scale := t.getF o.fs
    let info := t.pairHigh o.b
    let rows := (scale.extractLsb' 0 5).toNat
    let ps := s1.linePlaces w [info + 1280]
    let words : Except Trap (List (Nat × Option Loc)) :=
      if posOf w.core = 0 then
        match s1.blockCheck w false info [1280] with
        | some x => .error x
        | none => s1.massWords w ps info
      else .ok []
    let bad : Option Trap := match words with | .error x => some x | .ok _ => none
    s1.chain w n o.sc
      (.mass o.acc rows (s1.readV w.core (stateReg o.a)) info (s1.nowOf w) (words.toOption.getD [])) [stateReg o.a] ps
      (firstTrap [scaleCheck (scale.extractLsb' 5 59 ≠ 0#59 || decide (rows < 1) || decide (16 < rows)), bad])

/-- R322. Copy a page's remap entries into a vector register. -/
def execApos (o : APo) (s : State) : Out :=
  s.issue ⟨o.sc, pairRegs o.b, [], some (stateReg o.a), false, [], wholly⟩ fun s1 n =>
    let w := s1.cur
    let info := (s1.strand w).pairHigh o.b
    let ps := s1.linePlaces w (blockAddrs info (pageOffs 1024 256))
    match (s1.blockCheck w true info (pageOffs 1024 256)).or (s1.pageFail w ps (info + 1024) 256) with
    | some x => .trap x
    | none =>
      let r := s1.pageGet w ps (info + 1024) 256
      .done (r.1.result w .variable n (.v (stateReg o.a)) (BitVec.ofNat 2048 r.2) (BitVec.allOnes 2048))

end Sys2Proof.Machine
end

