-- ==== Sys2Proof/Machine/Determinism.lean ====
section
/-!
DEFINITION. Deterministic launches (16): turns and when a quantum ends, the serving of requests, barriers and merges, the
tournament, and the det instructions (major 27).
-/
namespace Sys2Proof.Machine
open Sys2Proof

/-! ### Turns (16 R285 to R287, R303) -/

/-- A parked strand is passed over in the turns. -/
def Wait.isParked : Wait → Bool
  | .parked _ => true
  | .barrier .. => true
  | _ => false

/-- The contexts of a core in turn, from `first` on. -/
def contextsFrom (first : Nat) : List Nat := (List.range 12).map fun i => (first + i) % 12

/-- The strand that holds the turn of a core. -/
def State.turnHolder (s : State) (core : Nat) : Option Nat :=
  (contextsFrom (s.core core).turn).find? fun c =>
    let t := s.strand ⟨core, c⟩
    t.live && !t.wait.isParked

/-- The turn of each core of a crew stands with the strand that holds it, whichever strands before it come to take part in the
turns (16 R285). -/
def State.pinTurn (s : State) (core : Nat) : State :=
  match s.turnHolder core with
  | some k => if (s.core core).turn = k then s else s.onCore core fun c => { c with turn := k }
  | none => s

/-- A core may issue in the quantum, unless its end is being served, and in the round. -/
def State.mayIssue (s : State) (core : Nat) (c : Crew) : Bool :=
  decide ((s.core core).quantum < 2 ^ c.qlog) && c.serving.isNone && !c.served && c.finished.isNone &&
    match c.allowance with
    | some a => decide ((s.core core).round < a)
    | none => true

/-- The cores that a core's turn holder waits for at a gang wait: a chain, a raft that forms, a raft's next step. -/
def State.gangBlockers (s : State) (core : Nat) : List Nat :=
  match s.turnHolder core with
  | none => []
  | some x =>
    let t := s.strand ⟨core, x⟩
    let physical (m : BitVec 32) : List Nat := ((List.range 32).filter m.getLsbD).map fun i => clusterOf core * 32 + i
    match t.wait with
    | .chain =>
      let row := s.row (rowOf core)
      ((List.range 8).filter fun p => (row.queues[p]?.getD []).isEmpty).map fun p => rowOf core * 8 + p
    | .raft _ _ =>
      match t.raft with
      | some m => (physical m).filter fun d => !s.waitsRaft ⟨d, 0⟩ m
      | none => []
    | .free =>
      match t.raft with
      | some m => (physical m).filter fun d => (s.strand ⟨d, 0⟩).raft == some m && decide ((s.strand ⟨d, 0⟩).steps < t.steps)
      | none => []
    | .retry .members =>
      match t.raft with
      | some m => (physical m).filter fun d => (s.strand ⟨d, 0⟩).raft == some m && match (s.strand ⟨d, 0⟩).wait with
          | .retry c => c != .members
          | .parked (.results _) => true
          | .page _ => true
          | _ => false
      | none => []
    | _ => []

/-- Every live strand of a core is parked, or it has none. -/
def State.allParked (s : State) (core : Nat) : Bool := (s.turnHolder core).isNone

/-- The cores that are done with the quantum, with those whose gang wait needs only such cores. -/
def State.growQuiet (s : State) (c : Crew) (done : List Nat) : List Nat :=
  c.cores.filter fun x =>
    done.contains x ||
      match s.gangBlockers x with
      | [] => false
      | bs => bs.all done.contains

def State.quietCores (s : State) (c : Crew) : Nat → List Nat
  | 0 => c.cores.filter fun x => !s.mayIssue x c || s.allParked x
  | n + 1 => s.growQuiet c (s.quietCores c n)

/-! ### Serving (16 R289, R394) -/

/-- A rival whose layer needed a line more than it holds takes the fatal code 7 (16 R302). -/
def State.checkLayer (s : State) (k : Nat) : State :=
  match FMap.find s.crews k with
  | some c => if c.overfull then s.abortCrew k [] else s
  | none => s

/-- The suspended operations of a crew replaced. -/
def State.setSuspended (s : State) (k : Nat) (l : List Suspended) : State :=
  match FMap.find s.crews k with
  | some c => s.setCrew k { c with suspended := l }
  | none => s

def State.suspendedOf (s : State) (k : Nat) : List Suspended :=
  match FMap.find s.crews k with
  | some c => c.suspended
  | none => []

def ReqItem.asker (r : ReqItem) : Asker := ⟨r.who, r.gen, r.num, none⟩

/-- How far a transfer in its slot has come; none once it has completed. -/
def State.progress (s : State) (core slot : Nat) : Option (Nat × Option Nat × DredgeRun) :=
  (FMap.find (s.core core).slots slot).map fun t => (t.next, t.slot, t.run)

/-- Let one suspended operation proceed, ahead of those behind it: the state, with what stands in its place, and whether
it proceeded. -/
def State.proceed (s : State) (k : Nat) (before : List Suspended) (x : Suspended) (after : List Suspended) : State × Bool :=
  match x with
  | .item r =>
    let q := (s.setSuspended k before).serve r.asker r.req
    if q.2 then (q.1.setSuspended k (q.1.suspendedOf k ++ after), true) else (s, false)
  | .run core slot _ =>
    let q := s.runTransfer core slot
    if q.2 then (q.1.setSuspended k (before ++ after), true)
    else if q.1.progress core slot = s.progress core slot then (s, false)
    else (q.1, true)

/-- The oldest suspended operation that can proceed does; whether one did. -/
def State.resumeFirst (s : State) (k : Nat) (before : List Suspended) : List Suspended → State × Bool
  | [] => (s, false)
  | x :: xs =>
    let q := s.proceed k before x xs
    if q.2 then q else s.resumeFirst k (before ++ [x]) xs

/-- What the serving of a crew waits for: each transfer is performed wholly before the next request is served (16 R289), so
that one that waits for a page or for acknowledgements stops it. -/
def State.servingOf (s : State) (k : Nat) : Option (Nat × Nat) := (FMap.find s.crews k).bind (·.serving)

def State.setServing (s : State) (k : Nat) (p : Option (Nat × Nat)) : State :=
  match FMap.find s.crews k with
  | some c => if c.serving = p ∨ c.finished.isSome then s else s.setCrew k { c with serving := p }
  | none => s

/-- Serving notes whether a transfer stops it. -/
def State.noteWait (s : State) (k : Nat) : State :=
  s.setServing k ((s.suspendedOf k).findSome? fun x =>
    match x with
    | .run core slot _ => if s.mustWait core slot then some (core, slot) else none
    | .item _ => none)

def State.resumeAll (s0 : State) (k : Nat) : Nat → State
  | 0 => s0
  | n + 1 =>
    let s := s0.noteWait k
    if (s.servingOf k).isSome then s
    else
      let q := s.resumeFirst k [] (s.suspendedOf k)
      if q.2 then q.1.resumeAll k n else s

/-- The most steps that serving can take. -/
abbrev servingBound : Nat := 2 ^ 40

/-- Serve one request, and then what it lets proceed. -/
def State.serveOne (s : State) (k : Nat) (r : ReqItem) : State :=
  let q := s.serve r.asker r.req
  let s1 := if q.2 then q.1 else s.setSuspended k (s.suspendedOf k ++ [.item r])
  (s1.resumeAll k servingBound).checkLayer k

/-- Take the next request of a crew, unless serving waits. -/
def State.takeRequest (s : State) (k : Nat) : Option (State × ReqItem) :=
  match FMap.find s.crews k with
  | none => none
  | some c =>
    match c.requests with
    | [] => none
    | r :: rs => if c.finished.isSome || c.serving.isSome then none else some (s.setCrew k { c with requests := rs }, r)

/-- Serve the requests of a quantum, those that serving adds last. -/
def State.serveRequests (s : State) (k : Nat) : Nat → State
  | 0 => s
  | n + 1 =>
    match s.takeRequest k with
    | none => s
    | some q => (q.1.serveOne k q.2).serveRequests k n

/-- A finished rival's remaining requests are discarded (16 R312). -/
def State.dropRequests (s : State) (k : Nat) : State :=
  match FMap.find s.crews k with
  | some c => if c.finished.isSome then s.setCrew k { c with requests := [], suspended := [], serving := none } else s
  | none => s

/-- Messages of the crew that wait in the fabric for a full lane enter it in order. -/
def State.flushFabric (s : State) (k : Nat) : State :=
  let mine (m : Message) : Bool := m.crew == some k && s.innerDet m
  (s.transit.filter mine).foldl (fun s m =>
    ({ s with transit := s.transit.erase m }.deliverMsg m).getD s) s

/-! ### Barriers and merges (16 R289 step 2, R292, R293) -/

/-- A strand later in logical-core order, then in context order. -/
def State.laterOf (s : State) (a b : StrandId) : StrandId :=
  let i := (s.core a.core).index
  let j := (s.core b.core).index
  if i < j ∨ (i = j ∧ a.ctx < b.ctx) then b else a

/-- Complete the barriers whose participants have all arrived; whether one had crew scope. -/
def State.closeBarriers (s : State) (k : Nat) : State × Bool :=
  match FMap.find s.crews k with
  | none => (s, false)
  | some c =>
    (c.barriers.filter fun e => e.2.awaited.isEmpty).foldl (fun acc e =>
      match e.2.arrived with
      | [] => (acc.1, acc.2)
      | a :: as =>
        let w := as.foldl (fun x y => s.laterOf x y.who) a.who
        (acc.1.completeBarrier k e.1 e.2 w, acc.2 || e.1 / 16 / 65536 == 3)) (s, false)

/-- Two tasks that wrote a byte and conflict, the lowest first: one of them at least not as its owner (16 R293, R297). -/
def Crew.conflictAt (c : Crew) (key : Nat) : Option (Nat × Nat) :=
  let ws := (c.wake.filter fun e => (FMap.find e.2 key).isSome).map (·.1)
  let all := (ws ++ FMap.getD c.direct key []).eraseDups
  if ws.isEmpty ∨ all.length < 2 then none
  else
    match all.min? with
    | none => none
    | some a => ((all.filter fun b => b != a && (ws.contains a || ws.contains b)).min?).map fun b => (a, b)

/-- The conflicting bytes of an interval. -/
def Crew.conflicts (c : Crew) : List (Nat × Nat × Nat) :=
  ((c.wake.flatMap fun e => e.2.map (·.1)).eraseDups).filterMap fun key => (c.conflictAt key).map fun t => (key, t)

/-- The lowest virtual address below an entry that reaches a physical place. -/
def State.findVa (s : State) (key : Nat) : List (Nat × Nat × Bool × Bool) → Nat → Nat → Option Nat
  | [], _, _ => none
  | (lo, w, _, _) :: rest, table, va =>
    (List.range (2 ^ w)).findSome? fun i =>
      let e := s.entryAt (table + i * 8)
      if !pteValid e then none
      else if pteLeaf e then
        let base := (leafPlace e lo 0).key
        if base ≤ key ∧ key < base + 2 ^ lo then some (va + i * 2 ^ lo + (key - base)) else none
      else if rest.isEmpty then none
      else s.findVa key rest (pteAddr e) (va + i * 2 ^ lo)

/-- Where a conflicting byte lies, as a frame orders and names it (16 R297): its storage, its owner, its address. -/
def State.conflictPlace (s : State) (c : Crew) (key : Nat) : Nat × Nat × Nat :=
  if 2 ^ 61 ≤ key ∧ key < 2 ^ 62 then
    let cl := (key - 2 ^ 61) / 2 ^ 20
    let owner := (c.cores.findIdx? fun x => clusterOf x == cl).getD 0
    (1, owner, (key - 2 ^ 61) % 2 ^ 20)
  else if 2 ^ 60 ≤ key ∧ key < 2 ^ 61 then
    let core := (key - 2 ^ 60) / 2 ^ 14
    (2, (indexIn c.rows core).getD 0, (key - 2 ^ 60) % 2 ^ 14)
  else (0, 0, (s.findVa key levels c.root.toNat 0).getD 0)

/-- The lower of two places. -/
def placeLess (a b : Nat × Nat × Nat) : Bool :=
  decide (a.1 < b.1) || (a.1 == b.1 && (decide (a.2.1 < b.2.1) || (a.2.1 == b.2.1 && decide (a.2.2 < b.2.2))))

/-- The frame of a merge conflict (16 R297). -/
def conflictFrame (c : Crew) (p : Nat × Nat × Nat) (a b : Nat) : List Byte :=
  let w := c.taskStrand a
  let cause := 15 * 2 ^ 56 + 5 * 2 ^ 48 + w.core % 65536 * 16 + w.ctx
  natBytes cause 8 ++ natBytes p.2.2 8 ++ natBytes 0 16 ++ natBytes (p.1 + p.2.1 % 2 ^ 14 * 2 ^ 16) 8 ++
    natBytes (a + b * 2 ^ 32) 8 ++ natBytes 0 80

/-- Apply the wake buffers to committed memory, and begin a new interval. -/
def State.applyWake (s : State) (k : Nat) (c : Crew) : State :=
  let s1 := (c.wake.map c.unapplied).foldl (fun s e => s.taskHome c e) s
  match FMap.find s1.crews k with
  | none => s1
  | some c1 => s1.setCrew k { c1 with wake := [], early := [], direct := [], snapshot := c1.takeSnapshot s1.mem }

/-- A sync point of a crew: the merge, or its conflict. -/
def State.merge (s : State) (k : Nat) : State :=
  match FMap.find s.crews k with
  | none => s
  | some c =>
    match c.conflicts.map fun e => (s.conflictPlace c e.1, e.2) with
    | [] => (s.applyWake k c).checkLayer k
    | x :: xs =>
      let m := xs.foldl (fun a b => if placeLess b.1 a.1 then b else a) x
      s.abortCrew k (conflictFrame c m.1 m.2.1 m.2.2)

/-! ### The tournament (16 R300 to R306) -/

/-- The score of a rival: its final score, or its control strand's (16 R301). -/
def State.scoreOf (s : State) (c : Crew) : Option Word :=
  match c.finished with
  | some x => x
  | none => some (s.strand ⟨c.cores.headD 0, 0⟩).score

/-- The strictly better of two scores under a rule; a NaN is below every number (16 R300, R304). -/
def betterScore (rule : BitVec 2) (a b : Option Word) : Bool :=
  match a, b with
  | none, _ => false
  | some x, none => !rule.getLsbD 0 || !(Fmt.f32.decode (lowNat x)).isNaN
  | some x, some y =>
    if rule.getLsbD 0 then
      let u := Fmt.f32.decode (lowNat x)
      let v := Fmt.f32.decode (lowNat y)
      if u.isNaN then false
      else if v.isNaN then true
      else if rule.getLsbD 1 then FVal.lt u v else FVal.lt v u
    else if rule.getLsbD 1 then decide (x.toInt < y.toInt) else decide (y.toInt < x.toInt)

/-- A rival with its crew number, its index and its score. -/
structure Ranked where
  crew : Nat
  rival : Nat
  score : Option Word
deriving DecidableEq, Repr

def rankInsert (rule : BitVec 2) (x : Ranked) : List Ranked → List Ranked
  | [] => [x]
  | y :: ys => if betterScore rule x.score y.score then x :: y :: ys else y :: rankInsert rule x ys

/-- The rivals of a launch that are alive, by rival index. -/
def State.rivals (s : State) (launch : Nat) : List (Nat × Crew) :=
  let rs := s.crews.filter fun e => e.2.launch == launch && e.2.rival.isSome
  (List.range 256).filterMap fun i => rs.find? fun e => e.2.rival == some i

/-- A rival is at the round barrier: every core with a live strand has retired its allowance, and there is one; or it has
finished. -/
def State.roundDone (s : State) (c : Crew) : Bool :=
  let live := c.cores.filter fun x => (List.range 12).any fun i => (s.strand ⟨x, i⟩).live
  c.finished.isSome ||
    (!live.isEmpty && live.all fun x => match c.allowance with | some a => decide (a ≤ (s.core x).round) | none => false)

/-- A rival stands between two quanta. -/
def State.between (s : State) (c : Crew) : Bool :=
  (c.requests.isEmpty && c.cores.all fun x => (s.core x).quantum == 0) || c.finished.isSome

/-- A byte is not of the local stores and the scratchpad grants of rows. -/
def State.outsideRows (s : State) (rows : List Nat) (key : Nat) : Bool :=
  !rows.any fun r =>
    let x := s.core (r * 8)
    let lo := 2 ^ 61 + r / 4 * 2 ^ 20 + x.spBase.toNat * 4096
    (decide (2 ^ 60 + r * 8 * 2 ^ 14 ≤ key) && decide (key < 2 ^ 60 + (r + 1) * 8 * 2 ^ 14)) ||
      (decide (lo ≤ key) && decide (key < lo + min x.spLen.toNat 256 * 4096))

/-- Memory without the local stores and the scratchpad grants of rows. -/
def State.zeroRows (s : State) (rows : List Nat) : State :=
  { s with mem := s.mem.filter fun e => s.outsideRows rows e.1, failing := s.failing.filter fun e => s.outsideRows rows e.1 }

/-- core.peermask of a crew's cores (09 R162). -/
def peermaskOf (rows : List Nat) (cluster : Nat) : BitVec 32 :=
  BitVec.ofNat 32 ((((rows.filter fun r => r / 4 == cluster)).map fun r => 255 * 2 ^ (8 * (r % 4))).sum)

/-- A rival is killed: its strands stop, its landings are emptied, its layer is discarded; its rows are free to be
granted. -/
def State.killRival (s : State) (k : Nat) (c : Crew) : State :=
  let s1 := s.stopStrands c.cores
  let s2 := c.cores.foldl (fun s x => s.setCore x { Core.reset with
    swallow := (s.core x).swallow, spBase := (s.core x).spBase, spLen := (s.core x).spLen }) s1
  let s3 := (clustersOf c.rows).foldl (fun s i => s.setCluster i ((s.cluster i).freeCrew k)) s2
  let s4 := { s3.returnArea c with
    crews := FMap.del s3.crews k
    rows := s3.rows.filter fun e => !c.rows.contains e.1
    images := FMap.del s3.images k
    flips := s3.flips.filter fun r => r.crew != k }
  match FMap.find s4.launches c.launch with
  | some l => { s4 with launches := FMap.put s4.launches c.launch { l with killed := l.killed + 1 } }
  | none => s4

/-- A survivor receives rows: their cores take the next crew core indices, and their storage is zero, in its snapshot too
(16 R305). -/
def State.grantRows (s : State) (k : Nat) (rows : List Nat) : State :=
  match FMap.find s.crews k with
  | none => s
  | some c =>
    let zeroed := c.snapshot.filter fun e => s.outsideRows rows e.1
    let c1 := { c with rows := c.rows ++ rows, refRows := c.refRows ++ rows, snapshot := zeroed }
    let s1 := (s.zeroRows rows).setCrew k c1
    let s2 := c1.cores.zipIdx.foldl (fun s e => s.onCore e.1 fun x => { x with crew := some k, index := e.2 }) s1
    c1.cores.foldl (fun s x => s.onCore x fun y => { y with peermask := peermaskOf c1.rows (clusterOf x) }) s2

/-- The grow message of a survivor (16 R305). -/
def State.growMessage (s : State) (k : Nat) (first rows round loser : Nat) (score : Option Word) : State :=
  match FMap.find s.crews k with
  | none => s
  | some c =>
    let core := c.cores.headD 0
    s.postLanding ⟨core, 0⟩ core (deviceHeader 3 16 0xFFFF 0xFFE)
      (natBytes first 2 ++ natBytes rows 2 ++ natBytes c.cores.length 2 ++ natBytes round 1 ++ natBytes loser 1 ++
        natBytes (score.getD 0x7FC00000).toNat 8) none

/-- The next round of a survivor of rank `r`. -/
def State.nextRound (s : State) (k r n : Nat) : State :=
  match FMap.find s.crews k with
  | none => s
  | some c =>
    let c1 := { c with
      roundNo := c.roundNo + 1
      rank := r
      won := c.won + 1
      allowance := if n = 1 then none else c.allowance.map (2 * ·) }
    c1.cores.foldl (fun s x => s.onCore x fun y => { y with round := 0 }) (s.setCrew k c1)

/-- Kill one loser in favour of one survivor. -/
def State.settlePair (s : State) (n r : Nat) (winner loser : Ranked) : State :=
  match FMap.find s.crews loser.crew, FMap.find s.crews winner.crew with
  | some l, some w =>
    let s1 := (s.killRival loser.crew l).grantRows winner.crew l.rows
    (s1.growMessage winner.crew w.rows.length l.rows.length w.roundNo loser.rival loser.score).nextRound winner.crew r n
  | _, _ => s

/-- The rivals of a launch that are pre-empted. -/
def State.savedRivals (s : State) (launch : Nat) : Nat :=
  (s.saved.filter fun e => e.2.crew.launch == launch && e.2.crew.rival.isSome).length

/-- A round barrier of a launch: merges, ranks, kills and grants (16 R304, R305). -/
def State.roundBarrier (s : State) (launch : Nat) : State :=
  let rs := s.rivals launch
  let s1 := rs.foldl (fun s e => s.merge e.1) s
  let rule := match rs with | e :: _ => e.2.rule | [] => 0
  let ranked := (s1.rivals launch).foldl (fun l e =>
    rankInsert rule ⟨e.1, e.2.rival.getD 0, s1.scoreOf e.2⟩ l) []
  let n := ranked.length / 2
  ((ranked.take n).zip (ranked.drop n)).zipIdx.foldl (fun s e => s.settlePair n e.2 e.1.1 e.1.2) s1

/-- A round barrier, and another at once while every rival left has finished. -/
def State.roundBarriers (s : State) (launch : Nat) : Nat → State
  | 0 => s
  | n + 1 =>
    let s1 := s.roundBarrier launch
    let rs := s1.rivals launch
    if 2 ≤ rs.length ∧ (rs.all fun e => e.2.finished.isSome) = true then s1.roundBarriers launch n else s1

/-- No strand of a crew is live. -/
def State.idleCrew (s : State) (c : Crew) : Bool := c.cores.all fun x => (List.range 12).all fun i => !(s.strand ⟨x, i⟩).live

/-- A rival finishes when nothing of it is live, or when nothing happened for a whole quantum (16 R303, R306). -/
def State.finishQuiet (s : State) (k : Nat) (acted : Bool) : State :=
  match FMap.find s.crews k with
  | none => s
  | some c => if c.rival.isSome && (s.idleCrew c || !acted) then s.finishRival k (s.scoreOf c) else s

/-! ### The quantum end (16 R286, R289) -/

/-- A core's landing starts all that it can. -/
def State.startHandlers (s : State) (core : Nat) : Nat → State
  | 0 => s
  | n + 1 =>
    let r := s.landingStep core
    if r.2 then r.1.startHandlers core n else r.1

/-- A parked strand whose wait is resolved joins the turns again. -/
def State.unpark (s : State) (w : StrandId) : State :=
  let t := s.strand w
  match t.wait with
  | .parked .sync => s.onStrand w fun t => { t with wait := .free }
  | .parked (.results rs) => if rs.any t.requests then s else s.onStrand w fun t => { t with wait := .free }
  | .parked (.served n) =>
    let waits := match s.crewOf w.core with
      | some c => c.suspended.any fun x => match x with | .item r => r.num == n | .run .. => false
      | none => false
    if waits then s else s.onStrand w fun t => { t with wait := .free }
  | .parked (.counter n target d) =>
    let x := s.counter w.core n
    if countReached x target then
      let s1 := if Reg.discards (.s d) then s
        else (s.unrequest w (.s d)).writeNow w (.s d) (x.setWidth 2048) (BitVec.allOnes 2048)
      s1.onStrand w fun t => { t with wait := .free }
    else s
  | _ => s

/-- The strands of a crew. -/
def Crew.strands (c : Crew) : List StrandId := c.cores.flatMap fun x => (List.range 12).map fun i => ⟨x, i⟩

/-- The next quantum begins. -/
def State.beginQuantum (s : State) (k : Nat) : State :=
  match FMap.find s.crews k with
  | none => s
  | some c =>
    let s1 := c.strands.foldl State.unpark s
    let s2 := c.cores.foldl (fun s x => s.onCore x fun y => { y with quantum := 0 }) s1
    match FMap.find s2.crews k with
    | none => s2
    | some c1 => s2.setCrew k { c1 with qlog := c1.qnext.getD c1.qlog, qnext := none }

/-- Handlers start in logical-core order. -/
def State.crewHandlers (s : State) (c : Crew) : State :=
  c.cores.foldl (fun s x => (s.pinTurn x).startHandlers x (2 * (s.core x).waiting + 1)) s

/-- The logical tide rises, and handlers start. -/
def State.tideAndHandlers (s : State) (k : Nat) : State :=
  match FMap.find s.crews k with
  | none => s
  | some c => (s.setCrew k { c with tide := c.tide + 1 }).crewHandlers c

/-- Something can change at a quantum end or after it (16 R286): serving goes on once what it waits for has come; in a
tournament a rival that does not stand at the round barrier can be finished (16 R303). -/
def State.changesAt (s : State) (k : Nat) (c : Crew) : Bool :=
  match c.serving with
  | some p => !s.mustWait p.1 p.2
  | none =>
    (c.cores.any fun x => (s.core x).quantum != 0) || !c.requests.isEmpty ||
      (s.resumeFirst k [] c.suspended).2 || (c.barriers.any fun e => e.2.awaited.isEmpty) ||
      (c.cores.any fun x => (s.landingStep x).2) ||
      (c.strands.any fun w => (s.strand w).live && (s.strand w).wait == .parked .sync) ||
      (c.rival.isSome && c.finished.isNone && !s.roundDone c)

/-- A strand that pre-emption lets go on to the end of its pass needs the next quantum for that. -/
def State.passHeld (s : State) (c : Crew) : Bool :=
  c.cores.any fun x => (List.range 12).any fun k =>
    let t := s.strand ⟨x, k⟩
    t.live && t.inPass && (t.wait.isParked || !s.mayIssue x c)

/-- Every core of a crew has come to the end of the quantum; no core of a crew that is held, or stopped for pre-emption, has
(16 R286, 19 R350, 20 R357). -/
def State.quiet (s : State) (c : Crew) : Bool :=
  !c.held && !(c.stopping && !s.passHeld c) && decide ((s.quietCores c c.cores.length).length = c.cores.length)

/-- A rival stands still at the round barrier: nothing changes at its next quantum end. -/
def State.idleRival (s : State) (k : Nat) (c : Crew) : Bool := !c.served && s.quiet c && s.between c && !s.changesAt k c

/-- The last quantum end that a rival of a launch has come to. -/
def State.lastEnd (s : State) (launch : Nat) : Nat :=
  (((s.rivals launch).filter (·.2.finished.isNone)).map (·.2.ends)).max?.getD 0

/-- A round barrier of a launch falls: every rival that is alive has finished, or meets its condition at one quantum end, which is
the last that any of them has come to (16 R303). -/
def State.barrierFalls (s : State) (launch : Nat) : Bool :=
  let rs := s.rivals launch
  let top := s.lastEnd launch
  decide (2 ≤ rs.length) && s.savedRivals launch == 0 && rs.all fun e =>
    e.2.finished.isSome ||
      (s.roundDone e.2 && !e.2.held && !e.2.stopping && ((e.2.served && e.2.ends == top) || s.idleRival e.1 e.2))

/-- No round barrier falls at the quantum end that a rival has served, since another rival has passed the same one. -/
def State.passesOn (s : State) (c : Crew) : Bool :=
  (s.rivals c.launch).any (fun e => e.2.finished.isNone && decide (c.ends < e.2.ends)) ||
    s.saved.any fun e => e.2.crew.launch == c.launch && e.2.crew.rival.isSome && decide (c.ends < e.2.crew.ends)

/-- A quantum of a crew can end. A rival's ends as any crew's do, but that one which meets the condition of the round barrier waits
behind steps 1 and 2 until the barrier falls or another rival has passed that quantum end, so that the barrier falls at the same
quantum end whatever takes time in each (log entry 56). -/
def State.quantumDue (s : State) (k : Nat) (c : Crew) : Bool :=
  c.det && !c.held &&
    match c.rival with
    | none => s.quiet c && s.changesAt k c
    | some _ =>
      s.barrierFalls c.launch ||
        c.finished.isNone && (if c.served then !c.stopping && s.passesOn c else s.quiet c && s.changesAt k c)

/-- Steps 1 and 2 of a quantum's end: requests, barriers and the merge; no more than a part of step 1 while serving must
wait. -/
def State.serveQuantum (s : State) (k : Nat) (c : Crew) : State :=
  let acted := (c.cores.any fun x => (s.core x).quantum != 0) || !c.requests.isEmpty || c.serving.isSome
  let s1 := ((((c.cores.foldl State.pinTurn s).flushFabric k).resumeAll k servingBound).checkLayer k).serveRequests k servingBound
  if (s1.servingOf k).isSome then s1
  else
    let b := (s1.dropRequests k).closeBarriers k
    let s2 := (if b.2 then b.1.merge k else b.1).finishQuiet k acted
    c.cores.foldl (fun s x => s.onCore x fun y => { y with quantum := 0 }) s2

/-- A rival's quantum end is over: the rest of it, and the next number. -/
def State.passEnd (s : State) (k : Nat) : State :=
  match FMap.find s.crews k with
  | none => s
  | some c => ((s.setCrew k { c with served := false, ends := c.ends + 1 }).tideAndHandlers k).beginQuantum k

/-- The round barrier of a launch, and behind it the rest of the quantum end at which it falls, for the rivals that survive. -/
def State.barrierEnd (s0 : State) (launch : Nat) : State :=
  (s0.rivals launch).foldl (fun s e =>
    match FMap.find s.crews e.1 with
    | none => s
    | some c =>
      if c.finished.isSome then s
      else if c.served then s.passEnd e.1
      else (s.setCrew e.1 { c with ends := s0.lastEnd launch + 1 }).crewHandlers c) (s0.roundBarriers launch 8)

/-- The end of a rival's quantum: its steps 1 and 2, and the rest unless a round barrier may fall at it. -/
def State.rivalEnd (s : State) (k : Nat) (c : Crew) : State :=
  if s.barrierFalls c.launch then s.barrierEnd c.launch
  else if c.served then s.passEnd k
  else
    let s1 := s.serveQuantum k c
    if (s1.servingOf k).isSome then s1
    else
      match FMap.find s1.crews k with
      | none => s1
      | some c1 =>
        if c1.finished.isSome then s1
        else if s1.roundDone c1 then s1.setCrew k { c1 with served := true }
        else s1.passEnd k

/-- R289. The end of a quantum, as far as serving comes. -/
def State.quantumEnd (s : State) (k : Nat) (c : Crew) : State :=
  if c.rival.isSome then s.rivalEnd k c
  else
    let s1 := s.serveQuantum k c
    if (s1.servingOf k).isSome then s1 else (s1.tideAndHandlers k).beginQuantum k

/-- R289. A quantum of a deterministic crew ends, when its cores have come that far. -/
def execQuantumEnd (k : Nat) (s : State) : Out :=
  match FMap.find s.crews k with
  | none => .next s
  | some c => .next (if s.quantumDue k c then s.quantumEnd k c else s)

/-! ### The det instructions (16 R307 to R312) -/

/-- The determinism checks of a det instruction: code 1, and code 2 for the tournament's. -/
def detIssue (sc : BitVec 2) (srcs : List Reg) (rival : Bool) (body : State → Nat → Crew → Res) (s : State) : Out :=
  s.issue (plain sc srcs) fun s1 n =>
    match s1.crewOf s1.cur.core with
    | none => .trap (trapOf 15 1)
    | some c =>
      if !c.det then .trap (trapOf 15 1)
      else if rival && c.rival.isNone then .trap (trapOf 15 2)
      else body s1 n c

/-- R308. Park until the next quantum end. -/
def execDsync (o : R0) (s : State) : Out :=
  detIssue o.sc [] false (fun s1 _ _ => .done (s1.stay s1.cur (.parked .sync))) s

/-- R309. The phase barrier of the control strands. -/
def execDphase (o : RD) (s : State) : Out :=
  detIssue o.sc [] false (fun s1 _ c =>
    let w := s1.cur
    if c.barrierBad w 3 15 1 then parallelTrap 8
    else .done (s1.arriveAt w ((s1.core w.core).crew.getD 0) c 3 15 1 o.d true)) s

/-- A berth record; none when it is invalid, and no record when it breaks a rule (16 R295, R310). -/
def berthRecord (v : Nat) : Option (Option Berth) :=
  let d0 := BitVec.ofNat 64 v
  let d1 := BitVec.ofNat 64 (v / 2 ^ 64)
  let base := (d0.extractLsb' 0 52).toNat
  let cls := (d1.extractLsb' 60 4).toNat
  let len := (d1.extractLsb' 0 40).toNat
  if d0.extractLsb' 52 11 ≠ 0#11 ∨ d1.extractLsb' 40 6 ≠ 0#6 then none
  else if !d0.getLsbD 63 then some none
  else if 4 < cls ∨ base % 64 ≠ 0 ∨ Config.windowBase ≤ base ∨ len % 64 ≠ 0 ∨ len < 64 then none
  else some (some ⟨base, len, cls, (d1.extractLsb' 46 14).toNat⟩)

/-- R310. Stage a berth entry. -/
def execBerth (o : RAB) (s : State) : Out :=
  detIssue o.sc [.s o.a, .s o.b] false (fun s1 n _ =>
    let w := s1.cur
    let t := s1.strand w
    let x := t.getS o.a
    match s1.ownBuffer w.core (t.getS o.b) 16 16 with
    | none => .trap (trapOf 15 6)
    | some l =>
      match berthRecord (s1.viewNat w l 16) with
      | none => .trap (trapOf 15 6)
      | some e =>
        if 32 ≤ x.toNat then .trap (trapOf 15 6)
        else .done (s1.submit w n [] (.berth x.toNat e))) s

/-- The rivals alive in a crew's tournament. -/
def State.aliveCount (s : State) (c : Crew) : Nat := (s.rivals c.launch).length + s.savedRivals c.launch

/-- R311. Read the round state. -/
def execTround (o : RD) (s : State) : Out :=
  detIssue o.sc [] true (fun s1 n c =>
    let left := match c.allowance with
      | some a => a - (s1.core s1.cur.core).round
      | none => 0xFFFFFFFF
    .done (s1.resultS s1.cur .variable n o.d (BitVec.ofNat 64
      (left % 2 ^ 32 * 2 ^ 32 + c.rival.getD 0 % 256 * 2 ^ 24 + s1.aliveCount c % 512 * 2 ^ 15 + c.roundNo % 256)))) s

/-- R311. Read the rank state. -/
def execTrank (o : RD) (s : State) : Out :=
  detIssue o.sc [] true (fun s1 n c =>
    .done (s1.resultS s1.cur .variable n o.d (BitVec.ofNat 64
      (c.rows.length % 2 ^ 16 * 2 ^ 32 + c.rank % 256 * 2 ^ 24 + c.won % 256 * 2 ^ 8 + c.finished.isSome.toNat * 2 +
        (decide (s1.aliveCount c = 1)).toNat)))) s

/-- R312. Finish the rival with a final score. -/
def execTdone (o : RA) (s : State) : Out :=
  detIssue o.sc [.s o.a] true (fun s1 n _ => .done (s1.submit s1.cur n [] (.finish ((s1.strand s1.cur).getS o.a)))) s

end Sys2Proof.Machine
end

