-- ==== Sys2Proof/Machine/Repeat.lean ====
section
/-!
DEFINITION. The repeat frame (02 R47 to R49, 05 R113): the checks of a body, and the fields of an instruction in a later
pass. Also nop.
-/
namespace Sys2Proof.Machine
open Sys2Proof

/-! ### Fields that a repeat frame advances -/

/-- A vector field `k` registers further; vz stays (02 R47). -/
def advV (v : BitVec 5) (k : Nat) : BitVec 5 := if v.toNat < 30 then BitVec.ofNat 5 (v.toNat + k) else v

/-- A matrix source `k` registers further, when it names a vector pair (02 R47). -/
def advP (x : BitVec 4) (k : Nat) : BitVec 4 := if 8 ≤ x.toNat then BitVec.ofNat 4 (x.toNat + k) else x

def Frame.d (f : Frame) : Nat := f.pass * f.sd
def Frame.a (f : Frame) : Nat := f.pass * f.sa
def Frame.b (f : Frame) : Nat := f.pass * f.sb

def advV2 (f : Frame) (o : V2) : V2 := { o with d := advV o.d f.d, a := advV o.a f.a, b := advV o.b f.b }
def advV1 (f : Frame) (o : V1) : V1 := { o with d := advV o.d f.d, a := advV o.a f.a }
def advVF3 (f : Frame) (o : VF3) : VF3 := { o with d := advV o.d f.d, a := advV o.a f.a, b := advV o.b f.b }
def advVP (f : Frame) (o : VP) : VP := { o with d := advV o.d f.d, a := advV o.a f.a }
def advVC (f : Frame) (o : VC) : VC := { o with a := advV o.a f.a, b := advV o.b f.b }
def advVSD (f : Frame) (o : VSD) : VSD := { o with d := advV o.d f.d }
def advVXS (f : Frame) (o : VXS) : VXS := { o with d := advV o.d f.d, a := advV o.a f.a }
def advVXF (f : Frame) (o : VXF) : VXF := { o with d := advV o.d f.d, a := advV o.a f.a }
def advVFD (f : Frame) (o : VFD) : VFD := { o with d := advV o.d f.d }
def advVE (f : Frame) (o : VE) : VE := { o with a := advV o.a f.a }
def advMma (f : Frame) (o : Mma) : Mma :=
  { o with acc := BitVec.ofNat 2 (o.acc.toNat + f.d), a := advP o.a f.a, b := advP o.b f.b }

/-- A vector field of 29 or less with its stride, and a vector pair of 8 or more. -/
def vecField (v : BitVec 5) (stride : Nat) : List (Nat × Nat × Nat) := if v.toNat < 30 then [(v.toNat, stride, 29)] else []
def pairField (x : BitVec 4) (stride : Nat) : List (Nat × Nat × Nat) := if 8 ≤ x.toNat then [(x.toNat, stride, 15)] else []

/-- An instruction in the pass of a frame (02 R47): the vector fields of V, VF and VX instructions and the tile and
pair fields of T instructions move; every other field and every other instruction stays as it is. -/
noncomputable def advance (f : Frame) : Instr → Instr
  | .vadd o => .vadd (advV2 f o)
  | .vsub o => .vsub (advV2 f o)
  | .vmul o => .vmul (advV2 f o)
  | .vmulh o => .vmulh (advV2 f o)
  | .vmin o => .vmin (advV2 f o)
  | .vmax o => .vmax (advV2 f o)
  | .vand o => .vand (advV2 f o)
  | .vor o => .vor (advV2 f o)
  | .vxor o => .vxor (advV2 f o)
  | .vsll o => .vsll (advV2 f o)
  | .vsrl o => .vsrl (advV2 f o)
  | .vsra o => .vsra (advV2 f o)
  | .vadds o => .vadds (advV2 f o)
  | .vsubs o => .vsubs (advV2 f o)
  | .vabs o => .vabs (advV1 f o)
  | .vandn o => .vandn (advV2 f o)
  | .vfadd o => .vfadd (advVF3 f o)
  | .vfsub o => .vfsub (advVF3 f o)
  | .vfmul o => .vfmul (advVF3 f o)
  | .vfmin o => .vfmin (advVF3 f o)
  | .vfmax o => .vfmax (advVF3 f o)
  | .vfma o => .vfma (advVF3 f o)
  | .vfms o => .vfms (advVF3 f o)
  | .vfnma o => .vfnma (advVF3 f o)
  | .vfnms o => .vfnms (advVF3 f o)
  | .vcvtN o => .vcvtN (advVP f o)
  | .vcvtS o => .vcvtS (advVP f o)
  | .vcvtX o => .vcvtX (advVP f o)
  | .vcvtF o => .vcvtF (advVP f o)
  | .vcvtFi o => .vcvtFi (advVP f o)
  | .vcvtFis o => .vcvtFis (advVP f o)
  | .vcvtIf o => .vcvtIf (advVP f o)
  | .vcvtIi o => .vcvtIi (advVP f o)
  | .vcvtIis o => .vcvtIis (advVP f o)
  | .vscget o => .vscget (advV1 f o)
  | .vscapply o => .vscapply (advV2 f o)
  | .vmv o => .vmv (advV1 f o)
  | .vperm o => .vperm (advV2 f o)
  | .vzipl o => .vzipl (advV2 f o)
  | .vziph o => .vziph (advV2 f o)
  | .vunze o => .vunze (advV2 f o)
  | .vunzo o => .vunzo (advV2 f o)
  | .vslu o => .vslu (advV2 f o)
  | .vsld o => .vsld (advV2 f o)
  | .vbcast o => .vbcast (advV1 f o)
  | .vrev o => .vrev (advV1 f o)
  | .vtrnl o => .vtrnl (advV2 f o)
  | .vtrnh o => .vtrnh (advV2 f o)
  | .vcompress o => .vcompress (advV1 f o)
  | .vexpand o => .vexpand (advV1 f o)
  | .vrsum o => .vrsum (advV1 f o)
  | .vrfsum o => .vrfsum (advV1 f o)
  | .vrmin o => .vrmin (advV1 f o)
  | .vrmax o => .vrmax (advV1 f o)
  | .vrfmin o => .vrfmin (advV1 f o)
  | .vrfmax o => .vrfmax (advV1 f o)
  | .vrand o => .vrand (advV1 f o)
  | .vrior o => .vrior (advV1 f o)
  | .vrxor o => .vrxor (advV1 f o)
  | .vrfsumw o => .vrfsumw (advV1 f o)
  | .vaddx o => .vaddx (advVXS f o)
  | .vsubx o => .vsubx (advVXS f o)
  | .vmulx o => .vmulx (advVXS f o)
  | .vfaddx o => .vfaddx (advVXF f o)
  | .vfmulx o => .vfmulx (advVXF f o)
  | .vfmacx o => .vfmacx (advVXF f o)
  | .vsplat o => .vsplat (advVSD f o)
  | .vfsplat o => .vfsplat (advVFD f o)
  | .vins o => .vins (advVSD f o)
  | .vext o => .vext (advVE f o)
  | .vweir o => .vweir (advVXS f o)
  | .vsllx o => .vsllx (advVXS f o)
  | .vsrlx o => .vsrlx (advVXS f o)
  | .vsrax o => .vsrax (advVXS f o)
  | .viota o => .viota (advVSD f o)
  | .vceq o => .vceq (advVC f o)
  | .vcne o => .vcne (advVC f o)
  | .vclt o => .vclt (advVC f o)
  | .vcle o => .vcle (advVC f o)
  | .vfceq o => .vfceq (advVC f o)
  | .vfclt o => .vfclt (advVC f o)
  | .vfcle o => .vfcle (advVC f o)
  | .vfcun o => .vfcun (advVC f o)
  | .mma o => .mma (advMma f o)
  | i => i
/-- A field stays in range up to the last pass (02 R48 step 3). -/
def inRange (cnt : Nat) (e : Nat × Nat × Nat) : Bool := decide (e.1 + cnt * e.2.1 ≤ e.2.2)

/-- A major that a body may hold (02 R48). -/
def bodyMajor (h : BitVec 16) : Bool :=
  let m := (h.extractLsb' 1 5).toNat
  (decide (10 ≤ m) && decide (m ≤ 16)) || m == 18 || m == 19 || m == 21

/-- A body instruction's content: a 32-bit instruction of an allowed major, perhaps with a prefix. -/
def bodyContent (hs : List (BitVec 16)) : Bool :=
  match hs with
  | [h, _] => !isCompact h && bodyMajor h
  | [_, k, _] => bodyMajor k
  | _ => false

/-- The instructions of a body, or the first fetch that fails. -/
def State.fetchBody (s : State) (w : StrandId) : Nat → Word → Except (Word × Nat) (List (List (BitVec 16)))
  | 0, _ => .ok []
  | n + 1, pc =>
    match s.fetchInstr w pc with
    | .bad va code => .error (va, code)
    | .halves hs =>
      match s.fetchBody w n (pc + BitVec.ofNat 64 (hs.length * 2)) with
      | .error e => .error e
      | .ok rest => .ok (hs :: rest)

/-- What the fetch of a body does to the cluster cache (13 R229). -/
def State.bodyRead (s : State) (w : StrandId) (pc : Word) : List (List (BitVec 16)) → State
  | [] => s
  | hs :: rest => (s.fetchRead w pc hs.length).bodyRead w (pc + BitVec.ofNat 64 (hs.length * 2)) rest

/-- The strided fields of a word of a body: those that name vector registers, and matrix pairs (02 R48, 05 R113). -/
def wordFields (f : Frame) (w : BitVec 32) : List (Nat × Nat × Nat) :=
  let d := vecField (w.extractLsb' 8 5) f.sd
  let a := vecField (w.extractLsb' 13 5) f.sa
  let b := vecField (w.extractLsb' 19 5) f.sb
  let fn := (w.extractLsb' 28 4).toNat
  let fx := (w.extractLsb' 26 6).toNat
  match (w.extractLsb' 1 5).toNat with
  | 11 => d ++ a ++ (if fn = 14 then [] else b)
  | 12 => d ++ a ++ b
  | 13 => d ++ a ++ b
  | 14 => d ++ a ++ (if fn = 10 then b else [])
  | 15 => d ++ a ++ (if fn = 0 ∨ fn = 8 ∨ fn = 9 ∨ 12 ≤ fn then [] else b)
  | 16 => d ++ a
  | 18 => (if fx = 9 then [] else d) ++ (if fx = 6 ∨ fx = 7 ∨ fx = 8 ∨ 14 ≤ fx then [] else a)
  | 19 => if fn < 8 then a ++ b else []
  | 21 => pairField (w.extractLsb' 24 4) f.sa ++ pairField (w.extractLsb' 28 4) f.sb
  | _ => []

/-- The strided fields of the halfwords of a body instruction. -/
def bodyFields (f : Frame) (hs : List (BitVec 16)) : List (Nat × Nat × Nat) :=
  match hs with
  | [h, k] => wordFields f (k ++ h)
  | [_, h, k] => wordFields f (k ++ h)
  | _ => []

/-- Another live strand's repeat frame holds the core's sequencer buffer (02 R49). -/
def State.bufferHeld (s : State) (w : StrandId) : Bool :=
  (List.range 12).any fun c =>
    let t := s.strand ⟨w.core, c⟩
    c != w.ctx && t.live && (t.frame.isSome || t.frames.toList.any Option.isSome)

/-- R47 to R49. Begin a repeat frame over the len + 1 instructions that follow, after its checks. -/
def execRepf (o : Rpf) (s : State) : Out :=
  s.issue (plain o.sc []) fun s1 _ =>
    let w := s1.cur
    let body := (s1.strand w).pc + 4
    let f : Frame := ⟨body, o.len.toNat, o.cnt.toNat, o.sd.toNat, o.sa.toNat, o.sb.toNat, 0, 0⟩
    match s1.fetchBody w (o.len.toNat + 1) body with
    | .error e => .trap (fetchTrap e.1 e.2)
    | .ok hss =>
      if !hss.all bodyContent then .trap (trapOf 10 1)
      else if !(hss.flatMap (bodyFields f)).all (inRange f.cnt) then .trap (trapOf 10 2)
      else if s1.bufferHeld w then .wait (.retry .sequencer)
      else .jump ((s1.bodyRead w body hss).onStrand w fun t => { t with frame := some f }) body

/-- R33. No effect but its stall count. -/
def execNop (o : R0) (s : State) : Out := s.issue (plain o.sc []) fun s1 _ => .done s1

end Sys2Proof.Machine
end

