-- ==== Sys2Proof/Machine/System.lean ====
section
/-!
DEFINITION. The system instructions (major 29): system registers (01 R18 to R27, 04 R89, 24 R386), traps and calls
(04 R90, R91), returns (19 R333), the end of an upcall (19 R346, R347), and debugging (20 R362); and the writes of system
registers as the device performs them.
-/
namespace Sys2Proof.Machine
open Sys2Proof

/-! ### System registers -/

/-- The write class of a system-register number (01 R18). -/
def writeClass (n : BitVec 12) : BitVec 2 := n.extractLsb' 8 2

/-- A level may read a system register: class 10 needs firmware. -/
def mayRead (pl : BitVec 2) (n : BitVec 12) : Bool := writeClass n != 2#2 || pl == 2#2

/-- A level may write a system register; a class-11 number is written by none, and its write is ignored. -/
def mayWrite (pl : BitVec 2) (n : BitVec 12) : Bool := writeClass n == 3#2 || decide ((writeClass n).toNat ≤ pl.toNat)

/-- ctx.mode (01 R20). -/
def Strand.modeWord (t : Strand) : Word := (t.pl ++ 0#4 ++ BitVec.ofBool t.det ++ BitVec.ofBool t.chk ++ t.rm).setWidth 64

/-- ctx.vgrant (01 R21). -/
def grantWord (w : StrandId) (t : Strand) : Word :=
  if w.ctx = 0 then 30 else BitVec.ofNat 64 (t.vbase % 32 * 256 + t.vcount % 32)

/-- crew.quantum (16 R283). -/
def State.quantumWord (s : State) (core : Nat) : Word :=
  match s.crewOf core with
  | some c => if c.det then BitVec.ofNat 64 c.qlog else 0
  | none => 0

/-- The value of a system register as a strand reads it. -/
def State.sysRead (s : State) (w : StrandId) (n : BitVec 12) : Word :=
  let t := s.strand w
  let c := s.core w.core
  match n.toNat with
  | 0x000 => t.modeWord
  | 0x001 => t.oob
  | 0x002 => t.oobpc
  | 0x003 => t.seed
  | 0x004 => t.score
  | 0x100 => t.upcall
  | 0x300 => idWord w
  | 0x301 => grantWord w t
  | 0x302 => t.mbudget
  | 0x500 => c.swallow.setWidth 64
  | 0x501 => (c.spLen ++ c.spBase ++ 0#8).setWidth 64
  | 0x502 => c.peermask.setWidth 64
  | 0x900 => s.quantumWord w.core
  | 0xD00 => s.plimit.setWidth 64
  | 0xD01 => s.slope.setWidth 64
  | 0xD02 => s.crbase
  | 0xE00 => s.fwEntry
  | 0xE01 => s.fwLawtab
  | 0xE02 => (BitVec.ofBool s.frozen).setWidth 64
  | 0xF00 => (s.die (dieOf w.core)).trapBase
  | _ => 0

/-- R20. ctx.mode keeps rm and chk. -/
def State.writeMode (s : State) (w : StrandId) (v : Word) : State :=
  s.onStrand w fun t => { t with rm := v.setWidth 2, chk := v.getLsbD 2 }

/-- The bits of ctx.oob and ctx.oobpc that are not reserved (01 R27). -/
abbrev oobMask : Word := 0xF00FFFFFFFFFFFFF
abbrev oobpcMask : Word := 0xFFFFFFFFFFFFE

/-- R27. ctx.oob takes the value; 0 arms the record again. -/
def State.writeOob (s : State) (w : StrandId) (v : Word) : State := s.onStrand w fun t => { t with oob := v &&& oobMask }

/-- R383. Every core of the cluster takes the pattern. -/
def State.writeSwallow (s : State) (core : Nat) (v : Word) : State :=
  let p : BitVec 16 := if v.setWidth 16 = 0#16 then 1 else v.setWidth 16
  (List.range 32).foldl (fun s i => s.onCore (clusterOf core * 32 + i) fun c => { c with swallow := p }) s

/-- R283. The quantum of a deterministic crew from the next quantum end on. -/
def State.writeQuantum (s : State) (core : Nat) (v : Word) : State :=
  let q := (v.setWidth 5 : BitVec 5).toNat
  s.onCrew core fun c => if c.det ∧ 8 ≤ q ∧ q ≤ 20 then { c with qnext := some q } else c

/-- R386. The power limit is clamped. -/
def State.writePlimit (s : State) (v : Word) : State :=
  { s with plimit := if 2800 < (v.setWidth 12 : BitVec 12).toNat then 2800 else v.setWidth 12 }

/-- R386. The record table moves only while no launch is enqueued. -/
def State.writeCrbase (s : State) (v : Word) : State :=
  if s.launches.isEmpty then { s with crbase := v &&& ~~~(0xFFF : Word) } else s

/-- R386, R391. Bit 1 clears and unfreezes the black box of every die. -/
def State.writeBbox (s : State) (v : Word) : State :=
  if v.getLsbD 1 then
    { s with frozen := false, dies := s.dies.map fun e => (e.1, { e.2 with box := [], boxNext := 0 }) }
  else s

/-- A write of a system register by a strand that may write it. -/
def State.sysWrite (s : State) (w : StrandId) (n : BitVec 12) (v : Word) : State :=
  match n.toNat with
  | 0x000 => s.writeMode w v
  | 0x001 => s.writeOob w v
  | 0x002 => s.onStrand w fun t => { t with oobpc := v &&& oobpcMask }
  | 0x003 => s.onStrand w fun t => { t with seed := v }
  | 0x004 => s.onStrand w fun t => { t with score := v }
  | 0x100 => s.onStrand w fun t => { t with upcall := v &&& 0xFFFFFFFFFFFFF }
  | 0x500 => s.writeSwallow w.core v
  | 0x501 => s.onCore w.core fun c => { c with spLen := v.extractLsb' 16 9, spBase := v.extractLsb' 8 8 }
  | 0x502 => s.onCore w.core fun c => { c with peermask := v.setWidth 32 }
  | 0x900 => s.writeQuantum w.core v
  | 0xD00 => s.writePlimit v
  | 0xD01 => { s with slope := v.setWidth 32 }
  | 0xD02 => s.writeCrbase v
  | 0xE00 => { s with fwEntry := v &&& ~~~(1 : Word) }
  | 0xE01 => { s with fwLawtab := v }
  | 0xE02 => s.writeBbox v
  | _ => s

/-- A joined mma of the strand waits for its charge (11 R219). -/
def State.uncharged (s : State) (w : StrandId) : Bool :=
  (s.row (rowOf w.core)).work.any fun j => !j.granted && j.who.contains (w, (s.strand w).gen)

/-- R89. Read a system register; ctx.mbudget waits for the strand's joined mma to be charged. -/
def execSysr (o : Sys) (s : State) : Out :=
  if !mayRead (s.strand s.cur).pl o.n then .next (s.takeTrap s.cur (trapOf 2 0))
  else
    s.issue (plain o.sc []) fun s1 n =>
      if o.n = 0x302#12 ∧ s1.uncharged s1.cur = true then .wait (.retry .budget)
      else .done (s1.resultS s1.cur .variable n o.d (s1.sysRead s1.cur o.n))

/-- R89. Write a system register. -/
def execSysw (o : Sys) (s : State) : Out :=
  if !mayWrite (s.strand s.cur).pl o.n then .next (s.takeTrap s.cur (trapOf 2 0))
  else
    s.issue (plain o.sc [.s o.d]) fun s1 _ =>
      .done (if writeClass o.n = 3#2 then s1 else s1.sysWrite s1.cur o.n ((s1.strand s1.cur).getS o.d))

/-! ### Writes of system registers as the device performs them -/

/-- R27. A write of ctx.oob by the current strand. -/
def execCtxOobWrite (v : Word) (s : State) : Out := .next (s.sysWrite s.cur 0x001 v)
/-- R20. A write of ctx.mode by the current strand. -/
def execCtxModeWrite (v : Word) (s : State) : Out := .next (s.sysWrite s.cur 0x000 v)
/-- R383. A write of core.swallow by the current strand. -/
def execCoreSwallowWrite (v : Word) (s : State) : Out := .next (s.sysWrite s.cur 0x500 v)
/-- R283. A write of crew.quantum by the current strand. -/
def execCrewQuantumWrite (v : Word) (s : State) : Out := .next (s.sysWrite s.cur 0x900 v)
/-- R386. A write of dev.plimit. -/
def execDevPlimitWrite (v : Word) (s : State) : Out := .next (s.sysWrite s.cur 0xD00 v)
/-- R386. A write of dev.crbase. -/
def execDevCrbaseWrite (v : Word) (s : State) : Out := .next (s.sysWrite s.cur 0xD02 v)
/-- R386. A write of 1 to fw.bbox bit 1. -/
def execFwBboxClear (s : State) : Out := .next (s.sysWrite s.cur 0xE02 2)

/-! ### Traps and returns -/

/-- R90. A software trap; its handler resumes behind it. -/
def execTrap (o : Cd8) (s : State) : Out :=
  s.issue (plain o.sc []) fun _ _ => .trap { trapOf 16 o.code.toNat with resume := true }

/-- R91. A system call; at firmware level a privilege fault. -/
def execScall (o : N12) (s : State) : Out :=
  s.issue (plain o.sc []) fun s1 _ =>
    .trap (if (s1.strand s1.cur).pl = 2#2 then trapOf 2 0
      else { trapOf 17 0 with resume := true, elem := o.n.setWidth 64 })

/-- The halfwords of the instruction at the start of those fetched: a c.vty whose next instruction takes no prefix stands alone
(02 R29, R36). -/
def instrLen : List (BitVec 16) → Nat
  | h :: g :: rest => if isVty h then (if !rest.isEmpty && takesPrefix g then 3 else 1) else if isCompact h then 1 else 2
  | hs => hs.length

/-- The address of position `n` of a repeat body from its start on; where an instruction of the body cannot be fetched, its own
address (02 R47, 19 R333). -/
def State.bodyPos (s : State) (w : StrandId) (pc : Word) : Nat → Word
  | 0 => pc
  | n + 1 =>
    match s.fetchInstr w pc with
    | .bad .. => pc
    | .halves hs => s.bodyPos w (pc + BitVec.ofNat 64 (2 * instrLen hs)) n

/-- Return from level `v` (19 R333): the save area into s12 to s15, the level before entry, and the repeat frame at the pass
and position of the frame's cause, or the resume address. The restored registers are later than a request of the handler
and than its results in flight (02 R43, 16 R288). -/
def State.leave (s0 : State) (w : StrandId) (v : Nat) (h : v < 2) : State :=
  let f := s0.frameAddr w v
  let s := s0.devRead w f 80
  let cause := s.devWord w f
  let rpc := s.devWord w (f + 24)
  let resume := cause.getLsbD 47 && rpc == s.devWord w (f + 16)
  let pos := (cause.extractLsb' 32 4).toNat
  let save (n : Nat) : Word := s.devWord w (f + 48 + 8 * n)
  let s1 := s.onStrand w fun t =>
    { (((t.putS 12 (save 0)).putS 13 (save 1)).putS 14 (save 2)).putS 15 (save 3) with
      pl := cause.extractLsb' 42 2
      pc := rpc &&& ~~~(1 : Word)
      requested := [12, 13, 14, 15].foldl FMap.del t.requested
      pend := t.pend.filter fun e => !([.s 12, .s 13, .s 14, .s 15] : List Reg).contains e.reg
      frame := none
      frames := t.frames.set v none h }
  match (s.strand w).frames[v]'h with
  | some g =>
    if resume then
      s1.onStrand w fun t =>
        { t with
          pc := s1.bodyPos w g.body pos &&& ~~~(1 : Word)
          frame := some { g with pass := (cause.extractLsb' 36 6).toNat, pos := pos } }
    else s1
  | none => s1

/-- A return from level `v`, which needs exactly that level: it spends its slots, and the program goes on where the frame
says (19 R333). A frame that fails its check code is an uncorrectable error (24 R390). -/
def returnForm (sc : BitVec 2) (v : Nat) (h : v < 2) (s : State) : Out :=
  if (s.strand s.cur).pl ≠ BitVec.ofNat 2 (v + 1) then .next (s.takeTrap s.cur (trapOf 2 0))
  else
    s.issue (plain sc []) fun s1 n =>
      let w := s1.cur
      match s1.failedRead w .read (BitVec.ofNat 64 (dieLoc w (s1.frameAddr w v)).key) (dieLoc w (s1.frameAddr w v)) 80 with
      | some x => .trap x
      | none => .enter (((s1.onStrand w fun t => t.spend n sc []).countRetired w).leave w v h)

/-- R333. Return from the system handler. -/
def execSret (o : R0) (s : State) : Out := returnForm o.sc 0 (by decide) s
/-- R333. Return from the firmware handler. -/
def execFret (o : R0) (s : State) : Out := returnForm o.sc 1 (by decide) s

/-! ### The end of an upcall (19 R346 to R348) -/

/-- The image of a fibre (19 R347). -/
def Strand.image (t : Strand) : List Byte :=
  natBytes t.pc.toNat 8 ++
    ((List.range 15).flatMap fun i => natBytes (t.getS (BitVec.ofNat 4 (i + 1))).toNat 8) ++
    ((List.range 8).flatMap fun i => natBytes (t.getF (BitVec.ofNat 3 i)).toNat 8) ++
    ((List.range 7).flatMap fun i => natBytes (t.getP (BitVec.ofNat 3 (i + 1))).toNat 32) ++
    ((List.range 7).flatMap fun i => natBytes (t.getQ (BitVec.ofNat 3 i)).toNat 8) ++
    ((List.range 7).map fun i => ((t.getCursor (BitVec.ofNat 3 i)).setWidth 8 : Byte)) ++ [0] ++
    natBytes (t.cls.toNat * 16 + t.chk.toNat * 4 + t.rm.toNat) 8 ++
    natBytes t.oob.toNat 8 ++ natBytes t.oobpc.toNat 8 ++ natBytes t.score.toNat 8

/-- A strand with the state of an image; the image holds no repeat frame (log entry 34). -/
def Strand.load (t : Strand) (b : List Byte) : Strand :=
  let word (k : Nat) : Word := BitVec.ofNat 64 (fieldOf b k 8)
  let t1 := (List.range 15).foldl (fun t i => t.putS (BitVec.ofNat 4 (i + 1)) (word (8 + 8 * i))) t
  let t2 := (List.range 8).foldl (fun t i => t.putF (BitVec.ofNat 3 i) (word (128 + 8 * i))) t1
  let t3 := (List.range 7).foldl (fun t i =>
    t.putP (BitVec.ofNat 3 (i + 1)) (BitVec.ofNat 256 (fieldOf b (192 + 32 * i) 32))) t2
  let t4 := (List.range 7).foldl (fun t i => (t.putQ (BitVec.ofNat 3 i) (word (416 + 8 * i))).putCursor (BitVec.ofNat 3 i)
    (BitVec.ofNat 6 (fieldOf b (472 + i) 1))) t3
  let m := word 480
  { t4 with
    pc := word 0 &&& ~~~(1 : Word)
    rm := m.setWidth 2
    chk := m.getLsbD 2
    cls := m.extractLsb' 4 2
    oob := word 488 &&& oobMask
    oobpc := word 496 &&& oobpcMask
    score := word 504
    frame := none }

/-- The checks of an image access, as the strand's own loads or stores of its doublewords: the form of its bytes, the alignment of
the image, and the rest doubleword by doubleword (04 R81, 01 R23). -/
def State.reachImage (s : State) (w : StrandId) (acc : Acc) (va : Word) : Except Trap (List (Word × Option Loc)) :=
  if va.toNat % 64 ≠ 0 then .error (trapAt (if badForm va 512 then 4 else 5) 0 va acc.writes)
  else
    match (List.range 64).mapM fun k =>
      let a := va + BitVec.ofNat 64 (8 * k)
      match s.checked w acc a 8 with
      | .trap x => (.error x : Except Trap (Word × Option Loc))
      | .out => .ok (a, none)
      | .at l => .ok (a, some l) with
    | .error x => .error (s.namesAll w acc ((List.range 64).map fun k => (va + BitVec.ofNat 64 (8 * k), 8)) x)
    | .ok r =>
      match r.findSome? fun e => e.2.bind fun l => s.failedRead w acc e.1 l 8 with
      | some x => .error x
      | none => .ok r

/-- The first offence of an image access, if it has one. -/
def State.imageOffence (s : State) (w : StrandId) (r : List (Word × Option Loc)) (wr : Bool) : State :=
  match r.find? fun e => e.2.isNone with
  | some e => s.offence w e.1 wr
  | none => s

/-- The bytes of an image; those out of range read as zero. -/
def State.imageBytes (s : State) (w : StrandId) (r : List (Word × Option Loc)) : List Byte :=
  r.flatMap fun e => match e.2 with | some l => s.ownBytes w l 8 | none => List.replicate 8 0

/-- What the read of an image does to the cluster cache. -/
def State.imageRead (s : State) (w : StrandId) (r : List (Word × Option Loc)) : State :=
  r.foldl (fun s e => match e.2 with | some l => s.viewRead w l 8 | none => s) s

/-- Store an image; bytes out of range are dropped. -/
def State.storeImage (s : State) (w : StrandId) (r : List (Word × Option Loc)) (b : List Byte) : State :=
  r.zipIdx.foldl (fun s e =>
    match e.1.2 with
    | some l => (s.viewStore w l (fieldOf b (8 * e.2) 8) 8).postStore w l
    | none => s) s

/-- The strand that an upcall strand serves goes on, and the upcall strand ends. -/
def State.endUpcall (s : State) (w x : StrandId) (wait : Bool) : State :=
  (s.onStrand x fun t => { t with wait := if wait && !t.noticed then .notice else .free }).endStrand w

/-- uret in its three modes: the strand that it serves, or a privilege fault outside context 11. -/
def uretForm (x : Issue) (s : State) (body : State → StrandId → StrandId → Res) : Out :=
  match (s.strand s.cur).upcallFor with
  | some c => if s.cur.ctx = 11 then s.issue x fun s1 _ => body s1 s1.cur ⟨s1.cur.core, c⟩ else .next (s.takeTrap s.cur (trapOf 2 0))
  | none => .next (s.takeTrap s.cur (trapOf 2 0))

/-- The pending results of the strand that an upcall serves are delivered (19 R346), or keep their slot counts as 02 R44 has it of an
upcall: the two rules differ, and which one holds is a free value (log entry 80). -/
def State.servedResults (s : State) (x : StrandId) : State :=
  if (s.strand x).pend.isEmpty then s
  else
    let s1 := { s with free := s.free + 1 }
    if (Config.freeWord s.free).getLsbD 0 then s1.deliverAll x else s1

/-- R346. End the upcall: the strand that it serves goes on. -/
def execUret (o : R0) (s : State) : Out :=
  uretForm (plain o.sc []) s fun s1 w x => .done ((s1.servedResults x).endUpcall w x false)

/-- R346. End the upcall once the strand that it serves has its notice. -/
def execUretWait (o : R0) (s : State) : Out :=
  uretForm (plain o.sc []) s fun s1 w x => .done ((s1.servedResults x).endUpcall w x true)

/-- R346. End the upcall with another fibre in the strand that it serves, whose pending results are delivered first; a register that
fails its check code is consumed as the image is written (24 R390). -/
def execUretSw (o : RAB) (s : State) : Out :=
  uretForm (plain o.sc [.s o.a, .s o.b]) s fun s1 w x =>
    let t := s1.strand w
    let tgt := t.getS o.a
    match (if tgt = 0 then .ok [] else s1.reachImage w .write tgt), s1.reachImage w .read (t.getS o.b) with
    | .error y, _ => .trap y
    | _, .error y => .trap y
    | .ok out, .ok from' =>
      let s2 := s1.deliverAll x
      match (if tgt = 0 then none else (failingOf (s2.strand x).fails 0 160 fun _ => true).map (strandRegTrap x)) with
      | some y => .trap y
      | none =>
      let s3 := ((s2.imageOffence w out true).storeImage w out (s2.strand x).image).imageOffence w from' false
      let s4 := s3.imageRead w from'
      .done ((s4.onStrand x fun t => t.load (s4.imageBytes w from')).endUpcall w x false)

/-! ### Debugging (20 R362) -/

/-- R362. A breakpoint in the program; the strand goes on behind it. -/
def execBrk (o : Cd8) (s : State) : Out :=
  s.issue (plain o.sc []) fun _ _ => .trap { trapOf 18 3 with resume := true, elem := o.code.setWidth 64 }

/-- R362. Append an entry to the die's signal ring, when a debugger is attached; a full ring makes the strand wait. -/
def execDbgsig (o : RA) (s : State) : Out :=
  s.issue (plain o.sc [.s o.a]) fun s1 _ =>
    let w := s1.cur
    let t := s1.strand w
    let d := s1.die (dieOf w.core)
    if !s1.debugged w.core then .done s1
    else if 256 ≤ d.signals.length then .wait (.retry .signalRing)
    else .done (s1.setDie (dieOf w.core) { d with signals := d.signals ++ [(t.getS o.a, t.pc, idWord w)] })

end Sys2Proof.Machine
end

