-- ==== Sys2Proof/Machine/Ready.lean ====
section
/-!
DEFINITION. Which strand of a core issues next (09 R175, R176, 16 R285), what holds one back (02 R41, R49, 20 R357), and
when a job that is told to stop stands still (19 R350).
-/
namespace Sys2Proof.Machine
open Sys2Proof

/-! ### Readiness -/

/-- A register stream that a wait is about. -/
def State.streamAtK (s : State) (core k : Nat) (f : RegStream → Bool) : Bool :=
  match (s.core core).streams[k]?.join with
  | some r => f r
  | none => true

/-- A condition of a waiting strand holds, so that it issues its instruction again; for a raft, see `membersReady`. -/
def State.condNow (s : State) (w : StrandId) : Cond → Bool
  | .counter n target => countReached (s.counter w.core n) target
  | .ringTake u => match s.ring w.core u with | some r => r.filled != 0 | none => true
  | .ringReserve u => match s.ring w.core u with | some r => r.free != 0 | none => true
  | .transferSlot => (s.core w.core).freeSlot.isSome
  | .scheduler => decide ((s.crewOps w.core).length < 1024)
  | .outbound => decide ((s.core w.core).outbound.length < 8)
  | .signalRing => !s.debugged w.core || decide ((s.die (dieOf w.core)).signals.length < 256)
  | .sequencer => !s.bufferHeld w
  | .accumulator mask => !s.accBusy w.core mask
  | .budget => !s.uncharged w
  | .acks => !s.posted.any fun p => p.who == w
  | .streamStep k => s.streamAtK w.core k RegStream.hasStep
  | .streamRoom k => s.streamAtK w.core k fun r => decide (r.buf.length < 4) || decide (r.count ≤ r.taken)
  | .streamDrain k => s.streamAtK w.core k fun r => !s.streamBusy ⟨w.core, r.owner⟩ r
  | .results rs => !(s.strand w).pend.any (·.lateFor rs)
  | .members => true

/-- The streams of a core of a deterministic launch come as far as they can before a strand of it issues. -/
def State.settled' (s : State) (core : Nat) : State := if s.coreDet core then s.settleStreams core else s

/-- Every member of the strand's raft has issued the instruction before (09 R178). -/
def State.inStep (s : State) (w : StrandId) : Bool :=
  let t := s.strand w
  t.raft.isNone || (s.members w).all fun m => (s.strand m).raft != t.raft || decide (t.steps ≤ (s.strand m).steps)

/-- The control strand stands at the exit address (09 R170). -/
def State.atExit (s : State) (w : StrandId) : Bool := w.ctx == 0 && (s.strand w).pc.toNat == Config.exitAddress

/-- No other member of a strand's raft must wait before it can issue the instruction. -/
def State.membersReady (s : State) (w : StrandId) : Bool :=
  (s.members w).all fun m =>
    m == w || (s.strand m).raft != (s.strand w).raft || match (s.strand m).wait with
      | .retry c => s.condNow m c
      | .parked (.results _) => false
      | .page _ => false
      | _ => true

/-- A wait that only another strand of the crew may end. -/
def Cond.byOthers : Cond → Bool
  | .counter .. | .ringTake _ | .ringReserve _ | .signalRing | .sequencer | .accumulator _ | .members => true
  | .transferSlot | .scheduler | .outbound | .budget | .acks | .streamStep _ | .streamRoom _ | .streamDrain _ | .results _ => false

/-- A held strand has to go on, and can by itself: it is inside a pass, or its raft has issued an instruction on some members only,
and it waits for nothing that the device does not end (20 R357, 09 R179). -/
def State.goesOn (s : State) (w : StrandId) : Bool :=
  (s.strand w).settling && s.midway w && match (s.strand w).wait with
    | .free | .laws _ => true
    | .retry c => !c.byOthers || (if c = .members then s.membersReady w else s.condNow w c)
    | _ => false

/-- The same, with the members of its raft that have fallen behind it. -/
def State.goesOnWhole (s : State) (w : StrandId) : Bool :=
  s.goesOn w && (s.members w).all fun m =>
    (s.strand m).raft != (s.strand w).raft || decide ((s.strand w).steps ≤ (s.strand m).steps) || s.goesOn m

/-- A held strand goes on to the end of its pass, or until its raft is whole (20 R357); in a deterministic launch, as far as the
quantum and the turns let it: a strand that a debugger has halted holds its turn (16 R285, R286). One that cannot go on is held
where it stands. -/
def State.settles (s : State) (w : StrandId) : Bool :=
  s.goesOnWhole w && match s.crewOf w.core with
    | some c => !c.det || s.mayIssue w.core c && match s.turnHolder w.core with
        | some k => s.goesOnWhole ⟨w.core, k⟩
        | none => true
    | none => true

/-- A debugger lets the strand issue: it is not held, or it goes on to where the hold stops it (20 R357), or it steps and has
not taken its step, or runs a handler of a trap that its step took (20 R363). -/
def State.unheld (s : State) (w : StrandId) : Bool :=
  let t := s.strand w
  !t.halted || s.settles w || match t.stepping with
    | some l => !t.stepped || decide (l.toNat < t.pl.toNat)
    | none => false

/-- Some strand of a core is inside a pass. -/
def State.coreInPass (s : State) (core : Nat) : Bool :=
  (List.range 12).any fun k => (s.strand ⟨core, k⟩).live && (s.strand ⟨core, k⟩).inPass

/-- Pre-emption has stopped a strand: it stands at an instruction boundary, between passes, and its raft is whole
(19 R350). In a deterministic launch the strands of a core take turns until none of them is inside a pass. -/
def State.stopped (s : State) (w : StrandId) : Bool :=
  match s.crewOf w.core with
  | some c => c.stopping && !s.midway w && !(c.det && (s.coreInPass w.core || s.passHeld c))
  | none => false

/-- Nothing but its slots holds a strand back (09 R176). -/
def State.canIssue (s0 : State) (w : StrandId) : Bool :=
  let s := s0.settled' w.core
  let t := s.strand w
  t.live && s.unheld w && t.branch.isNone && !(s.atExit w && s.draining w) && s.inStep w && !s.stopped w &&
    match t.wait with
    | .free => true
    | .retry .members => s.membersReady w
    | .retry c => s.condNow w c
    | .laws n => s.lawSpread n
    | _ => false

/-- A strand is ready (09 R176). -/
def State.ready (s : State) (w : StrandId) : Bool := (s.strand w).hold == 0 && s.canIssue w

/-! ### Selection -/

/-- A strand's effective class, with inheritance along chains of at most `n` barriers (09 R175). -/
def Crew.effClass (c : Crew) (own : StrandId → Nat) : Nat → StrandId → Nat
  | 0, w => own w
  | n + 1, w =>
    (c.barriers.flatMap fun b =>
      if b.2.awaited.contains w then b.2.arrived.map fun e => c.effClass own n e.who else []).foldl max (own w)

def State.effClass (s : State) (w : StrandId) : Nat :=
  let own (v : StrandId) : Nat := (s.strand v).cls.toNat
  match s.crewOf w.core with
  | none => own w
  | some c => c.effClass own c.barriers.length w

/-- The strand that issues outside a deterministic launch (09 R176): the highest effective class with a ready strand,
and in it the first after the strand of that class that issued last; a strand that yielded is passed over when any
other is ready. -/
def State.select (s : State) (core : Nat) : Option Nat :=
  let ready := (List.range 12).filter fun c => s.ready ⟨core, c⟩
  let x := s.core core
  let open' := match x.yielded with
    | some y => if ready.any (· != y) then ready.filter (· != y) else ready
    | none => ready
  let classes := open'.map fun c => (c, s.effClass ⟨core, c⟩)
  match [3, 2, 1, 0].find? fun k => classes.any fun e => e.2 == k with
  | none => none
  | some k =>
    let first := match x.lastIssued[k]?.join with | some c => c + 1 | none => 0
    (contextsFrom first).find? fun c => classes.contains (c, k)

/-- The strand that issues in a deterministic launch (16 R285): the one that holds the turn, once it is ready. -/
def State.turn (s : State) (core : Nat) (c : Crew) : Option Nat :=
  if !s.mayIssue core c then none
  else
    match s.turnHolder core with
    | some k => if s.ready ⟨core, k⟩ then some k else none
    | none => none

/-- The strand of a core that issues next. -/
def State.nextStrand (s : State) (core : Nat) : Option StrandId :=
  let k := match s.crewOf core with
    | some c => if c.det then s.turn core c else s.select core
    | none => s.select core
  k.map fun c => ⟨core, c⟩

/-! ### Slots (02 R41, 09 R176) -/

/-- A slot passes for every strand of a core but one. -/
def State.tickOthers (s : State) (w : StrandId) : State :=
  (List.range 12).foldl (fun s c =>
    if c = w.ctx ∨ (s.strand ⟨w.core, c⟩).hold = 0 then s
    else s.onStrand ⟨w.core, c⟩ fun t => { t with hold := t.hold - 1 }) s

/-- A strand of a core waits for its slots. -/
def State.ticking (s : State) (core : Nat) : Bool :=
  (List.range 12).any fun c => (s.strand ⟨core, c⟩).live && (s.strand ⟨core, c⟩).hold != 0

/-- A strand must go on before pre-emption stops it: it is inside a pass, or its raft is not whole, and it waits for nothing
that pre-emption withdraws or saves (19 R350, 02 R49). -/
def State.unfinished (s : State) (w : StrandId) : Bool :=
  let t := s.strand w
  t.live && s.midway w && (!t.halted || s.settles w) && match t.wait with
    | .chain | .raft .. | .held | .notice | .page _ => false
    | _ => true

/-- No strand of a core that is being pre-empted goes on by itself (in a deterministic launch, the one whose turn it is), none
has to, and no dredge is inside a list entry. -/
def State.coreAtRest (s : State) (c : Crew) (core : Nat) : Bool :=
  (if c.det then
    !s.mayIssue core c || match s.turnHolder core with | some k => !s.canIssue ⟨core, k⟩ | none => true
  else (List.range 12).all fun k => !s.canIssue ⟨core, k⟩) &&
    ((List.range 12).all fun k => !s.unfinished ⟨core, k⟩) && (s.core core).slots.all fun e => e.2.between

end Sys2Proof.Machine
end

