-- ==== Sys2Proof/Machine/Sha.lean ====
section
/-!
DEFINITION. SHA-256 (24 R392, R393): the specification names the standard, whose constants, padding and rounds are written
here (PRESUMED, log entry 90).
-/
namespace Sys2Proof.Machine
open Sys2Proof

/-- The whole part of the `k`-th root of `v`, found bit by bit from bit `n - 1` down, above the part `r` known so far. -/
def rootFrom (k v : Nat) : Nat → Nat → Nat
  | 0, r => r
  | n + 1, r => rootFrom k v n (if (r + 2 ^ n) ^ k ≤ v then r + 2 ^ n else r)

/-- The first 32 bits behind the point of the `k`-th root of `p`, for `p` below 1,024. -/
def rootFraction (k p : Nat) : BitVec 32 := BitVec.ofNat 32 (rootFrom k (p * 2 ^ (32 * k)) 37 0)

/-- The primes below `n`, lowest first. -/
def primesBelow (n : Nat) : List Nat :=
  (List.range n).filter fun p => 2 ≤ p && (List.range p).all fun d => d < 2 || p % d != 0

/-- The round constants: of the cube roots of the first 64 primes, the last of them 311. -/
def shaConstants : List (BitVec 32) := (primesBelow 312).map (rootFraction 3)

/-- The eight working words. -/
structure Sha where
  a : BitVec 32
  b : BitVec 32
  c : BitVec 32
  d : BitVec 32
  e : BitVec 32
  f : BitVec 32
  g : BitVec 32
  h : BitVec 32
deriving DecidableEq, Repr

/-- The words a digest starts from: of the square roots of the first eight primes. -/
def Sha.init : Sha :=
  ⟨rootFraction 2 2, rootFraction 2 3, rootFraction 2 5, rootFraction 2 7, rootFraction 2 11, rootFraction 2 13,
    rootFraction 2 17, rootFraction 2 19⟩

def Sha.add (x y : Sha) : Sha :=
  ⟨x.a + y.a, x.b + y.b, x.c + y.c, x.d + y.d, x.e + y.e, x.f + y.f, x.g + y.g, x.h + y.h⟩

/-- Two rotations and a third word combined. -/
def shaMix (x : BitVec 32) (i j : Nat) (z : BitVec 32) : BitVec 32 := x.rotateRight i ^^^ x.rotateRight j ^^^ z

/-- `n` more words of a message schedule, which is held with its newest word first. -/
def shaSchedule : Nat → List (BitVec 32) → List (BitVec 32)
  | 0, w => w
  | n + 1, w =>
    let at' (k : Nat) : BitVec 32 := w.getD k 0
    let s0 := shaMix (at' 14) 7 18 (at' 14 >>> 3)
    let s1 := shaMix (at' 1) 17 19 (at' 1 >>> 10)
    shaSchedule n ((at' 15 + s0 + at' 6 + s1) :: w)

/-- One round, with its constant and its schedule word. -/
def Sha.round (x : Sha) (kw : BitVec 32 × BitVec 32) : Sha :=
  let ch := (x.e &&& x.f) ^^^ (~~~x.e &&& x.g)
  let maj := (x.a &&& x.b) ^^^ (x.a &&& x.c) ^^^ (x.b &&& x.c)
  let t1 := x.h + shaMix x.e 6 11 (x.e.rotateRight 25) + ch + kw.1 + kw.2
  let t2 := shaMix x.a 2 13 (x.a.rotateRight 22) + maj
  ⟨t1 + t2, x.a, x.b, x.c, x.d + t1, x.e, x.f, x.g⟩

/-- A block of 16 words. -/
def Sha.block (x : Sha) (w : List (BitVec 32)) : Sha :=
  ((shaConstants.zip (shaSchedule 48 w.reverse).reverse).foldl Sha.round x).add x

/-- A number from bytes, high byte first. -/
def bigNat (bs : List Byte) : Nat := bs.foldl (fun n b => n * 256 + b.toNat) 0

/-- The 32-bit words of a byte string, `n` of them. -/
def shaWords : Nat → List Byte → List (BitVec 32)
  | 0, _ => []
  | n + 1, bs => BitVec.ofNat 32 (bigNat (bs.take 4)) :: shaWords n (bs.drop 4)

def Sha.blocks (x : Sha) : Nat → List Byte → Sha
  | 0, _ => x
  | n + 1, bs => (x.block (shaWords 16 bs)).blocks n (bs.drop 64)

/-- The string filled up to whole blocks: a 1 bit, zeros, and its length in bits. -/
def shaPad (bs : List Byte) : List Byte :=
  let n := bs.length
  bs ++ 0x80 :: List.replicate ((119 - n % 64) % 64) 0 ++
    (List.range 8).map fun k => BitVec.ofNat 8 (8 * n / 256 ^ (7 - k))

/-- The SHA-256 digest of a byte string. -/
def sha256 (bs : List Byte) : BitVec 256 :=
  let p := shaPad bs
  let x := Sha.init.blocks (p.length / 64) p
  x.a ++ x.b ++ x.c ++ x.d ++ x.e ++ x.f ++ x.g ++ x.h

/-- A digest as bytes, in the order of the standard. -/
def digestBytes (d : BitVec 256) : List Byte := (List.range 32).map fun k => d.extractLsb' (8 * (31 - k)) 8

/-- A running chain takes a measurement: the digest of the chain so far and of the measured bytes' digest (DESIGN CHOICE,
log entry 90). -/
def shaExtend (chain : BitVec 256) (bs : List Byte) : BitVec 256 := sha256 (digestBytes chain ++ digestBytes (sha256 bs))

end Sys2Proof.Machine
end

