-- ==== Sys2Proof/Machine/Start.lean ====
section
/-!
DEFINITION. Events of chapter 24 and of the wall tide: start-up and attestation (24 R392, R393), the tide and its sweep
(06 R115, R136), the budget arbiter and clock patterns (24 R383 to R385), sensors and errors (24 R388 to R391), links
(22 R366, R377), and the management requests that read or set them (22 R374, R375).
-/
namespace Sys2Proof.Machine
open Sys2Proof

/-! ### Start-up (24 R392) -/

/-- The memory that is not the device's: the host's and the peers' (13 R224). -/
def outsideMemory (m : List Host.Cell) : List Host.Cell := m.filter fun e => decide (2 ^ 62 ≤ e.1)

/-- Every state of the device but the fuses and what is kept is lost; the boot ROM waits for an image. -/
def State.restart (s : State) (dies : FMap Die) (clusters : FMap Cluster) (frozen : Bool) : State :=
  { State.reset with
    dies := dies
    clusters := clusters
    frozen := frozen
    mem := outsideMemory s.mem
    free := s.free
    agenda := s.agenda
    lag := s.lag }

/-- R392. Cold reset. -/
def execColdReset (s : State) : Out := .next (s.restart [] [] false)

/-- The black boxes that survive warm reset. -/
def keptBoxes (dies : FMap Die) : FMap Die :=
  dies.map fun e => (e.1, { Die.reset with box := e.2.box, boxNext := e.2.boxNext })

/-- The failed sensors, which stay failed until cold reset (24 R388). -/
def keptSensors (clusters : FMap Cluster) : FMap Cluster :=
  clusters.map fun e => (e.1, { Cluster.reset with failed := e.2.failed })

/-- R392. Warm reset keeps the black boxes and the frozen bit. -/
def execWarmReset (s : State) : Out :=
  .next (if s.powered then s.restart (keptBoxes s.dies) (keptSensors s.clusters) s.frozen else s)

/-- R392. Without power, every state of the device is lost. -/
def execPowerRemoval (s : State) : Out := .next { s.restart [] [] false with powered := false }

/-- The tables of firmware as it starts on the four dies, and the running chain of its measurements (24 R392). -/
def State.placeFirmware (s : State) (img : BootImage) : State :=
  let s1 := (List.range 4).foldl (fun s d => s.setDie d { s.die d with trapBase := img.trapBase.getD d 0 }) s
  { s1 with
    boot := .running
    fwLawtab := img.lawTab
    crbase := img.crBase &&& ~~~(0xFFF : Word)
    fwEntry := img.entry &&& ~~~(1 : Word)
    measures := ⟨Config.romDigest, shaExtend Config.romDigest img.bytes,
      shaExtend (shaExtend Config.romDigest img.bytes) img.runtime⟩ }

/-- R392. Die 0 receives the firmware image and verifies it; firmware starts, or the device stays in ROM. -/
def execFirmwareImage (img : BootImage) (s : State) : Out :=
  match s.boot with
  | .rom =>
    if Config.signatureValid img.bytes (sha256 img.bytes) then .next (s.placeFirmware img)
    else .next { s with boot := .refused }
  | _ => .next s

/-- The answer to a request from outside. -/
def State.answered (s : State) (status : Nat) (data : List Byte) : State := { s with reply := some ⟨status, data⟩ }

/-- A management request is answered once firmware runs (24 R392). -/
def State.managed (s : State) (k : State → State) : Out := .next (if s.boot = .running then k s else { s with reply := none })

/-- The attestation report (24 R393). -/
def State.report (s : State) (nonce : BitVec 256) : List Byte :=
  let body := natBytes Config.serial.toNat 8 ++ digestBytes s.measures.rom ++ digestBytes s.measures.firmware ++
    digestBytes s.measures.runtime ++ natBytes nonce.toNat 32
  body ++ natBytes (Config.sign (sha256 body)).toNat 384

/-- R375, R393. Management request 8: the report, or status 1 while firmware is not running. -/
def execAttestation (nonce : BitVec 256) (s : State) : Out :=
  .next (if s.boot = .running then s.answered 0 (s.report nonce) else s.answered 1 [])

/-! ### The wall tide and its sweep -/

/-- R115. A wall tick. -/
def execWallTick (s : State) : Out := .next (if s.powered then { s with wallTide := s.wallTide + 1 } else s)

/-- Who touches the words of a region: firmware, in the region's address space, through the windows of the core that
registered it where those are window addresses. With the registering job gone, the words of a region of translated addresses
are touched through core 0, which a crossing of a region with no owner is then reported to (DESIGN CHOICE, log entry 62). -/
def State.sweeper (s : State) (r : Region) : Option StrandId :=
  match s.regionCore r with
  | some c => some ⟨c, 0⟩
  | none => if r.base < Config.windowBase then some ⟨0, 0⟩ else none

/-- The core that a crossing in a region is reported to: that of its local store, the region's owner, else the registering
core (06 R126). -/
def State.sweepOwner (s : State) (r : Region) (w : StrandId) (l : Loc) : Nat :=
  match l with
  | .store c _ _ => c
  | _ => (r.owner.map (s.relocate (some r.crew))).getD w.core

/-- Touch one word of a region at its site, outside every deterministic launch (06 R117, R127, R136). A word with no site,
one whose access a check refuses, and one in the windows of a job that is off the machine are passed over (DESIGN CHOICE,
log entry 91). -/
def State.sweepWord (s : State) (r : Region) (va : Word) : State :=
  match s.sweeper r with
  | none => s
  | some w =>
    match s.look ⟨w.core, 2, some r.root, r.asid, true⟩ .rmw va with
    | .place l =>
      if !l.timedSite then s
      else
        let now : BitVec 48 := s.wallTide.setWidth 48
        let s1 := s.toHome w.core l 16
        let x := TWord.ofNat (leNat (fun k => Memory.read s1.mem (l.key + k)) 16)
        let law := s1.lawAt l x.law.toNat
        if law.logical then s
        else
          let e := evalWord x law now
          let v := (TimedOp.touch.write x e now).1.toNat
          let s2 := (List.range 16).foldl (fun s k => s.homeWrite (l.key + k) (byteOf v k)) (s1.useLaw l x.law.toNat)
          if e.hit && law.handler != 0xFFF#12 then
            s2.sendMsg { s2.crossing w va l law x.law 0 e now with dest := s2.sweepOwner r w l }
          else s2
    | _ => s

/-- Touch the words of a region in ascending order. -/
def State.sweepRegion (s : State) (r : Region) : State :=
  (List.range (r.len / 16)).foldl (fun s i => s.sweepWord r (BitVec.ofNat 64 (r.base + 16 * i))) s

/-- R136. The rebase sweep, every 2^46 wall ticks. -/
def execRebaseSweep (s : State) : Out :=
  .next (if 2 ^ 46 ≤ (s.wallTide - s.swept).toNat then { s.regions.foldl State.sweepRegion s with swept := s.wallTide } else s)

/-! ### The budget arbiter and clock patterns (24 R383 to R385) -/

/-- R383. The written pattern takes effect for the whole cluster. -/
def execSwallowBoundary (cluster : Nat) (s : State) : Out :=
  .next (s.setCluster cluster { s.cluster cluster with pattern := (s.core (cluster * 32)).swallow })

/-- A throttle pattern with half the set bits, down to 0x0101, and with twice as many, up to 0xFFFF. -/
def halfPattern (p : BitVec 16) : BitVec 16 :=
  if p = 0xFFFF#16 then 0x5555 else if p = 0x5555#16 then 0x1111 else 0x0101
def doublePattern (p : BitVec 16) : BitVec 16 :=
  if p = 0x0101#16 then 0x1111 else if p = 0x1111#16 then 0x5555 else 0xFFFF

/-- The allowance of a die for a window, in units: a quarter of what the limit leaves, over 1,024 cycles of 1.3 GHz. -/
def State.allowance (s : State) (drawW : Nat) : Nat :=
  let limit := match s.extLimit with | some w => min w s.plimit.toNat | none => s.plimit.toNat
  (limit - drawW) * 2560000 / 13

/-- The demand of a cluster in a window: what it has spent, and the units that its rows wait for. -/
def State.demandOf (s : State) (c : Nat) : Nat :=
  (s.cluster c).spent + ((List.range 4).map fun i =>
    (((s.row (c * 4 + i)).work.filter fun j => !j.granted).map Joined.units).sum).sum

/-- The clusters of a die that hold state of their own or whose rows have work. -/
def State.activeClusters (s : State) (die : Nat) : List Nat :=
  let own : List Nat := s.clusters.map (·.1)
  let busy : List Nat := s.rows.map (·.1 / 4)
  ((own ++ busy).filter fun c => c / 512 == die).eraseDups

/-- The demand of a die's engines, which the specification puts no number on: a free value. -/
def State.engineDemand (s : State) : Nat := (Config.freeWord s.free).toNat

/-- The share of a demand in a die's allowance; with no demand at all, every cluster gets the same (24 R384).
The share is rounded down (DESIGN CHOICE, log entry 25). -/
def shareFor (allowance total demand : Nat) : Nat := if total = 0 then allowance / 512 else allowance * demand / total

/-- A cluster in a new window, with the share that it had and the one that it gets: a window past its share halves its
throttle pattern, one within it doubles the pattern (24 R384). -/
def Cluster.window (c : Cluster) (had : Option Nat) (share : Nat) : Cluster :=
  { c with
    share := some share
    spent := 0
    throttle := match had with
      | some n => if n < c.spent then halfPattern c.throttle else doublePattern c.throttle
      | none => doublePattern c.throttle }

/-- A cluster enters a new window; a change of its throttle pattern is logged (24 R384, R391). -/
def State.windowAt (s : State) (c share : Nat) : State :=
  let x := s.cluster c
  let y := x.window (s.shareOf c) share
  let s1 := s.setCluster c y
  if y.throttle = x.throttle then s1 else s1.log (c / 512) 7 (c % 512) 1

/-- A die in a new window: what ran as filler in the last one keeps the fall of its draw within the slope (24 R385). -/
def Die.window (d : Die) (slope idle : Nat) : Die :=
  let filled := d.draw - slope - d.granted
  { d with
    idleShare := some idle
    draw := d.granted + filled
    filled := filled
    granted := 0
    freed := 0
    filler := d.filler.drop 1 }

/-- R384. A window begins on a die: shares for its clusters and its engines, throttle patterns, and the filler of the window
gone. -/
def execArbiterWindow (die drawW : Nat) (s : State) : Out :=
  let mine := s.activeClusters die
  let total := (mine.map s.demandOf).sum + s.engineDemand
  let a := s.allowance drawW
  let s1 := mine.foldl (fun s' c => s'.windowAt c (shareFor a total (s.demandOf c))) { s with free := s.free + 1 }
  let s2 := s1.setDie die ((s1.die die).window s.slope.toNat (shareFor a total 0))
  .next { s2 with
    crews := s2.crews.map fun e =>
      if dieOf (e.2.rows.headD 0 * 8) = die then (e.1, { e.2 with drawn := 0, lastDraw := e.2.drawn }) else e }

/-- R375. Management request 7: a package limit below dev.plimit; 0 removes it. -/
def execExternalPowerLimit (watts : Nat) (s : State) : Out :=
  s.managed fun s =>
    if 2800 < watts then s.answered 1 []
    else ({ s with extLimit := if watts = 0 then none else some watts }).answered 0 []

/-! ### Sensors (24 R388) -/

/-- The wall ticks of a second. -/
abbrev secondTicks : Nat := 20312500

/-- The neighbours of a cluster on its die's grid of 16 by 32, numbered along its rows (DESIGN CHOICE, log entry 92). -/
def neighbours (cluster : Nat) : List Nat :=
  let die := cluster / 512 * 512
  let r := cluster % 512 / 32
  let c := cluster % 32
  (List.range 16).flatMap fun i => (List.range 32).filterMap fun j =>
    if i ≤ r + 1 ∧ r ≤ i + 1 ∧ j ≤ c + 1 ∧ c ≤ j + 1 ∧ (i, j) ≠ (r, c) then some (die + i * 32 + j) else none

/-- A cluster's thermal or current sensor, and whether it has failed. -/
def Cluster.sensor (c : Cluster) (current : Bool) : Sensor := if current then c.sensors.2 else c.sensors.1
def Cluster.hasFailed (c : Cluster) (current : Bool) : Bool := if current then c.failed.2 else c.failed.1
def Cluster.putSensor (c : Cluster) (current : Bool) (x : Sensor) : Cluster :=
  { c with sensors := if current then (c.sensors.1, x) else (x, c.sensors.2) }

/-- The readings of a cluster's neighbours, and of those that work. -/
def State.nearby (s : State) (cluster : Nat) (current : Bool) : List Int :=
  (neighbours cluster).map fun k => ((s.cluster k).sensor current).reading
def State.around (s : State) (cluster : Nat) (current : Bool) : List Int :=
  (neighbours cluster).filterMap fun k =>
    if (s.cluster k).hasFailed current then none else some ((s.cluster k).sensor current).reading

/-- The median of readings: the middle one, or the mean of the middle two (DESIGN CHOICE, log entry 92). -/
def medianOf (xs : List Int) : Option Int :=
  let ys := xs.mergeSort fun a b => decide (a ≤ b)
  let n := ys.length
  if n = 0 then none
  else if n % 2 = 1 then ys[n / 2]?
  else some ((ys.getD (n / 2 - 1) 0 + ys.getD (n / 2) 0) / 2)

/-- One reading is further from another than a thermal sensor's degrees (in thousandths) or a current sensor's per cent. -/
def further (current : Bool) (degrees cent : Int) (x from' : Int) : Bool :=
  if current then decide (cent * from'.natAbs < 100 * (x - from').natAbs) else decide (degrees < (x - from').natAbs)

/-- A sensor reads outside its range, has not changed for a second while its neighbours' median moved, or differs from the median of
its working neighbours (24 R388). -/
def State.deviant (s : State) (cluster : Nat) (current : Bool) : Bool :=
  let x := (s.cluster cluster).sensor current
  (if current then decide (x.reading < 0) || decide (60000 < x.reading)
    else decide (x.reading < -40000) || decide (150000 < x.reading)) ||
    (decide (secondTicks ≤ (s.wallTide - x.since).toNat) &&
      (medianOf (s.nearby cluster current)).any fun m => further current 2000 5 m x.median) ||
    (medianOf (s.around cluster current)).any fun m => further current 15000 20 x.reading m

/-- A sensor gives a reading; a change of it is noted, with the median of its neighbours. -/
def State.sensorReads (s : State) (cluster : Nat) (current : Bool) (value : Int) : State :=
  let c := s.cluster cluster
  if (c.sensor current).reading = value then s
  else s.setCluster cluster (c.putSensor current ⟨value, s.wallTide, (medianOf (s.nearby cluster current)).getD value⟩)

/-- What the device takes a cluster's temperature to be: its sensor's reading, or for a failed one the maximum of its working
neighbours plus 5 °C, and with fewer than two of those the thermal limit (24 R388). -/
def State.temperature (s : State) (cluster : Nat) : Int :=
  let c := s.cluster cluster
  if !c.failed.1 then c.sensors.1.reading
  else
    let xs := s.around cluster false
    if xs.length < 2 then 105000 else (xs.max?.getD 0) + 5000

/-- The same for a cluster's current, plus 10 per cent; the specification names no limit for it, so with fewer than two
working neighbours it is a free value. -/
def State.amperes (s : State) (cluster : Nat) : Int :=
  let c := s.cluster cluster
  if !c.failed.2 then c.sensors.2.reading
  else
    let xs := s.around cluster true
    if xs.length < 2 then (Config.freeWord s.free).toNat else (xs.max?.getD 0) * 110 / 100

/-- The clusters of a die. -/
def clustersOn (die : Nat) : List Nat := (List.range 512).map (die * 512 + ·)

/-- R388. A deviant sensor of a cluster is marked failed, and stays so until cold reset. -/
def execSensorFailure (cluster : Nat) (current : Bool) (s : State) : Out :=
  let c := s.cluster cluster
  if c.hasFailed current || !s.deviant cluster current then .next s
  else
    .next ((s.setCluster cluster { c with failed := if current then (c.failed.1, true) else (true, c.failed.2) }).log
      (cluster / 512) 1 (cluster % 512) 1)

/-- R388. A reading on a die is above 105 °C: a sensor's own, or a substituted one. -/
def execThermalThrottle (die : Nat) (substituted : Bool) (s : State) : Out :=
  let d := s.die die
  let hot := (clustersOn die).any fun k => (s.cluster k).failed.1 == substituted && decide (105000 < s.temperature k)
  if d.hot.isSome || !hot then .next s else .next ((s.setDie die { d with hot := some substituted }).log die 7 0xFFFF 1)

/-- R388. Every reading on a die is below 100 °C. -/
def execThermalThrottleLift (die : Nat) (s : State) : Out :=
  let d := s.die die
  if d.hot.isNone || !((clustersOn die).all fun k => decide (s.temperature k < 100000)) then .next s
  else .next ((s.setDie die { d with hot := none }).log die 7 0xFFFF 1)

/-- The pattern that clocks a cluster: slots set in the written and in the throttle pattern (24 R383, R388). -/
def State.clocked (s : State) (cluster : Nat) : BitVec 16 :=
  let c := s.cluster cluster
  c.pattern &&& c.throttle &&& (if (s.die (cluster / 512)).hot.isSome then 0x0101 else 0xFFFF)

/-! ### Errors (24 R389 to R391) -/

/-- R389. A single-bit error is corrected and counted. -/
def execCorrectableError (die : Nat) (s : State) : Out :=
  let d := s.die die
  let sec := s.wallTide.toNat / secondTicks
  let n := if d.errors.1 = sec then d.errors.2 + 1 else 1
  let s1 := s.setDie die { d with errors := (sec, n) }
  .next (if n = 65 then s1.log die 2 0xFFFF n else s1)

/-- A device-fatal event: it is logged, the rings freeze, and the device stops (24 R391). -/
def State.fatalDevice (s : State) (die : Nat) : State := { s.log die 8 0xFFFF 1 with frozen := true, dead := true }

/-- Bytes that hold firmware state: a trap table, the law table, the completion records. -/
def State.firmwareByte (s : State) (a : Nat) : Bool :=
  (s.dies.any fun e => e.2.trapBase != 0 && decide (onDie e.1 e.2.trapBase.toNat ≤ a) &&
      decide (a < onDie e.1 e.2.trapBase.toNat + 48 * 2 ^ 20 + 4096)) ||
    (s.fwLawtab != 0 && decide (s.fwLawtab.toNat ≤ a) && decide (a < s.fwLawtab.toNat + 2 ^ 17)) ||
    (s.crbase != 0 && decide (s.crbase.toNat ≤ a) && decide (a < s.crbase.toNat + 65535 * 256))

/-- The granule of a byte that fails its check code: 8 bytes of an SRAM or a cache, 32 of HBM; a link or a peer keeps none
(24 R389, R390). -/
def granuleSize (code : Nat) : Nat := if code = 1 ∨ code = 2 then 8 else if code = 3 then 32 else 0

/-- The numbers of the granules that a strand's registers, and a core's, have. -/
def strandGranule (g : Nat) : Bool := decide (g < 160) && (decide (g % 4 = 0) || decide (96 ≤ g) && decide (g < 128))
def coreGranule (g : Nat) : Bool := decide (g < 960) || decide (1024 ≤ g) && decide (g < 1536)

/-- A granule of a register keeps its failing code; its location is the one that an uncorrectable error of it reports (log entry
114). -/
def State.markRegister (s : State) (code addr : Nat) : State :=
  let core := (addr - 3 * 2 ^ 62) / 2 ^ 16
  let k := addr % 2 ^ 16
  if 65536 ≤ core then s
  else if k < 12 * 4096 then
    if strandGranule (k % 4096 / 8) then
      s.onStrand ⟨core, k / 4096⟩ fun t => { t with fails := FMap.put t.fails (k % 4096 / 8) code }
    else s
  else if coreGranule ((k - 12 * 4096) / 8) then
    s.onCore core fun c => { c with fails := FMap.put c.fails ((k - 12 * 4096) / 8) code }
  else s

/-- The bytes of a granule keep their failing code; one found in a cache is in no cache of its die any longer (log
entry 30). -/
def State.markFailing (s : State) (die code addr : Nat) : State :=
  let n := granuleSize code
  if n = 0 then s
  else if 3 * 2 ^ 62 ≤ addr then if code = 1 then s.markRegister code addr else s
  else
    let a := addr / n * n
    let s1 := if code = 2 then
        ((s.clusters.map (·.1)).filter fun c => c / 512 == die).foldl (fun s c =>
          (((s.cluster c).cache.map (·.1)).filter fun n => readKey die (n * 64) / 64 == a / 64).foldl (·.evictLine c ·) s) s
      else s
    { s1 with failing := FMap.put s1.failing a ⟨code, n, 0⟩ }

/-- R390. An uncorrectable error: in firmware state it is device-fatal; otherwise its bytes keep failing, a consumer's launch
is aborted, and with no consumer it is logged. -/
def execUncorrectableError (die : Nat) (code : BitVec 8) (addr : Word) (consumer : Option StrandId) (s : State) : Out :=
  if granuleSize code.toNat ≠ 0 ∧ s.firmwareByte addr.toNat = true then .next (s.fatalDevice die)
  else
    let s1 := s.markFailing die code.toNat addr.toNat
    match consumer with
    | some w => .next (s1.consumed w (s1.refetch w) (trapAt 0 code.toNat addr false))
    | none => .next (s1.log die 3 0xFFFF 1)

/-- R366. A link replays a flit: no flit is lost, and no state changes. -/
def execLinkRetry (_die : Nat) (s : State) : Out := .next s

/-- R366, R391. A link repairs a lane from its spares. -/
def execLaneRepair (die : Nat) (s : State) : Out := .next (s.log die 6 0xFFFF 1)

/-- R366, R390. A failed die link is device-fatal. -/
def execLinkFailure (die : Nat) (s : State) : Out := .next (s.fatalDevice die)

/-- R377. A peer does not answer: an uncorrectable error of code 7 to the context that issued the access. -/
def execPeerTimeout (who : StrandId) (addr : Word) (s : State) : Out :=
  .next (s.consumed who (s.refetch who) (trapAt 0 7 addr false))

/-- R378. The home of a posted write acknowledges it. -/
def execPeerWriteAck (k : Nat) (s : State) : Out := .next { s with posted := s.posted.eraseIdx k }

/-! ### The black box (24 R391, 22 R375) -/

/-- The 32 bytes of an entry. -/
def BoxEntry.bytes (e : BoxEntry) : List Byte :=
  natBytes e.tide.toNat 8 ++ natBytes e.kind.toNat 2 ++ natBytes e.cluster.toNat 2 ++ natBytes e.count.toNat 4 ++
    natBytes e.detail.toNat 16

/-- Entry `i` of a die's ring; one that nothing has written is zero. -/
def Die.entry (d : Die) (i : Nat) : List Byte :=
  let age := (i + 4096 - d.boxNext) % 4096
  let empty := 4096 - d.box.length
  if age < empty then List.replicate 32 0
  else match d.box[age - empty]? with | some e => e.bytes | none => List.replicate 32 0

/-- R375. Management request 6. -/
def execReadBlackBox (die first count : Nat) (s : State) : Out :=
  s.managed fun s =>
    if 4 ≤ die ∨ 4096 ≤ first ∨ count = 0 ∨ 127 < count then s.answered 1 []
    else
      let d := s.die die
      s.answered 0 (natBytes d.boxNext 2 ++ [if s.frozen then 1 else 0] ++ List.replicate 29 0 ++
        (List.range count).flatMap fun k => d.entry ((first + k) % 4096))

end Sys2Proof.Machine
end

