-- ==== Sys2Proof/Machine/Preempt.lean ====
section
/-!
DEFINITION. Placements (09 R161), pre-emption and rebinding (19 R350 to R354): a job's state is taken off its cores into a
save area and put back on a placement of the same shape, its core numbers rewritten.
-/
namespace Sys2Proof.Machine
open Sys2Proof

/-! ### Placements (09 R161) -/

/-- The rows of a cluster. -/
def rowsOf (cluster : Nat) : List Nat := (List.range 4).map fun i => cluster * 4 + i

/-- The rows that a crew holds: with a crew size of five or more, whole clusters. -/
def State.heldRows (s : State) (c : Crew) : List Nat :=
  let n := match FMap.find s.launches c.launch with | some l => l.rows | none => c.rows.length
  if 5 ≤ n then (clustersOf c.rows).flatMap rowsOf else c.rows

/-- The rows that no job may be placed on. -/
def State.busyRows (s : State) : List Nat := s.crews.flatMap fun e => s.heldRows e.2

/-- The rows of a crew of `n` in a die, with some rows busy: the lowest placement. -/
def findPlacement (busy : List Nat) (die n : Nat) : Option (List Nat) :=
  if n ≤ 4 then
    (List.range 512).findSome? fun c =>
      ((List.range (5 - n)).find? fun r => (List.range n).all fun i => !busy.contains ((die * 512 + c) * 4 + r + i)).map
        fun r => (List.range n).map fun i => (die * 512 + c) * 4 + r + i
  else
    let k := (n + 3) / 4
    ((List.range (513 - k)).find? fun c => (List.range (4 * k)).all fun i => !busy.contains ((die * 512 + c) * 4 + i)).map
      fun c => (List.range n).map fun i => (die * 512 + c) * 4 + i

/-- core.spgrant of a crew's cores in a cluster: base and length (09 R162). -/
def grantOf (rows : List Nat) (cluster : Nat) : Nat × Nat :=
  let mine := rows.filter fun r => r / 4 == cluster
  ((mine.headD 0 % 4) * 64, mine.length * 64)

/-- The filler of the windows after one in which a die's draw falls from `d` to nothing: a fall of `slope` a window
(24 R385). -/
def fillerRamp (d slope : Nat) : List Nat := (List.range (d / slope)).map fun i => d - slope * (i + 1)

/-- The larger of two plans, window by window. -/
def maxLists : List Nat → List Nat → List Nat
  | [], ys => ys
  | xs, [] => xs
  | x :: xs, y :: ys => max x y :: maxLists xs ys

/-- A die's plan as a job that drew `units` a window ends: what is planned for this window stays, and the ramp behind it falls
from the filler that runs in this window, what work displaces not among it, and from all that this window has freed, so that
two jobs that end together fall by one slope a window. The filler of a window whose jobs draw `drawn` is what `Die.window`
makes of it. -/
def Die.plan (d : Die) (slope drawn units : Nat) : List Nat :=
  let now := min (d.filler.headD 0) (d.draw - slope - drawn)
  d.filler.headD 0 :: maxLists (d.filler.drop 1) ((fillerRamp (now + d.freed + units) slope).filter (0 < ·))

/-- The units that the jobs of a die draw in this window, as far as they show: those of other jobs, of the job that ends, and of
those that have ended in it. -/
def State.drawing (s : State) (die : Nat) (c : Crew) : Nat :=
  ((s.crews.filter fun e => dieOf (e.2.rows.headD 0 * 8) == die && e.2.rows != c.rows).map fun e =>
    max e.2.drawn e.2.lastDraw).sum + max c.drawn c.lastDraw + (s.die die).freed

/-- The units of a job are freed: the filler that this adds to its die's plan is charged to its launch (24 R385). With no
fall allowed at all the ramp has no end, and what the record counts is a free value. -/
def State.freeUnits (s : State) (c : Crew) : State :=
  let die := dieOf (c.rows.headD 0 * 8)
  let d := s.die die
  let plan := d.plan s.slope.toNat (s.drawing die c) c.lastDraw
  let endless := s.slope = 0#32 ∧ 0 < c.lastDraw
  let units := if endless then (Config.freeWord s.free).toNat else plan.sum - d.filler.sum
  let s1 := s.setDie die { d with filler := plan, freed := d.freed + c.lastDraw }
  let s2 := if endless then { s1 with free := s1.free + 1 } else s1
  if c.lastDraw = 0 then s
  else
    match FMap.find s2.launches c.launch with
    | some l => { s2 with launches := FMap.put s2.launches c.launch { l with energy := l.energy + units, filler := l.filler + units } }
    | none => s2

/-! ### Core numbers rewritten (19 R354) -/

/-- A job's rows before and after. -/
structure Shift where
  old : List Nat
  new : List Nat
deriving DecidableEq, Repr

def Shift.core (h : Shift) (c : Nat) : Nat :=
  match indexIn h.old c with
  | some i => (coreAt h.new i).getD c
  | none => c

def Shift.row (h : Shift) (r : Nat) : Nat := h.core (r * 8) / 8

/-- A cluster of the job. -/
def Shift.cluster (h : Shift) (cl : Nat) : Nat :=
  match h.old.find? fun r => r / 4 == cl with
  | some r => h.row r / 4
  | none => cl

def Shift.who (h : Shift) (w : StrandId) : StrandId := ⟨h.core w.core, w.ctx⟩

/-- How far the job's rows of a cluster moved within it. -/
def Shift.rows (h : Shift) (cl : Nat) : Int :=
  match h.old.find? fun r => r / 4 == cl with
  | some r => ((h.row r % 4 : Nat) : Int) - ((r % 4 : Nat) : Int)
  | none => 0

/-- The number of a byte in the job's storage: local stores, and the scratchpad of its rows. -/
def inStorage (rows : List Nat) (key : Nat) : Bool :=
  if 2 ^ 61 ≤ key ∧ key < 2 ^ 62 then
    let cl := (key - 2 ^ 61) / 2 ^ 20
    rows.contains (cl * 4 + (key - 2 ^ 61) % 2 ^ 20 / 2 ^ 18)
  else if 2 ^ 60 ≤ key ∧ key < 2 ^ 61 then (indexIn rows ((key - 2 ^ 60) / 2 ^ 14)).isSome
  else false

/-- A byte of the job's storage in its new place. -/
def Shift.key (h : Shift) (key : Nat) : Nat :=
  if !inStorage h.old key then key
  else if 2 ^ 61 ≤ key then
    let cl := (key - 2 ^ 61) / 2 ^ 20
    (2 ^ 61 + h.cluster cl * 2 ^ 20 + (((key - 2 ^ 61) % 2 ^ 20 : Nat) + h.rows cl * 2 ^ 18)).toNat
  else 2 ^ 60 + h.core ((key - 2 ^ 60) / 2 ^ 14) * 2 ^ 14 + (key - 2 ^ 60) % 2 ^ 14

/-- A map of bytes with the job's storage moved. -/
def Shift.bytes {α : Type} (h : Shift) (m : FMap α) : FMap α :=
  (m.filter fun e => inStorage h.old e.1).foldl (fun m e => FMap.put m (h.key e.1) e.2)
    (m.filter fun e => !inStorage h.old e.1 && !inStorage h.new e.1)

def Shift.loc (h : Shift) (l : Loc) : Loc :=
  match l with
  | .store c o own => .store (h.core c) o own
  | .pad cl o => .pad (h.cluster cl) ((o : Int) + h.rows cl * 2 ^ 18).toNat
  | l => l

def Shift.task (h : Shift) (t : Task) : Task := { t with who := h.who t.who }

def Shift.note (h : Shift) (n : Note) : Note := { n with task := n.task.map h.task }

def Shift.spot (h : Shift) (x : Spot) : Spot :=
  match x with
  | .store core off => .store (h.core core) off
  | x => x

/-- The view of an operation that a saved job issued moves with its rows. -/
def Shift.view (h : Shift) (oldCore : Nat) (v : View) : View :=
  { v with spBase := BitVec.ofInt 8 ((v.spBase.toNat : Int) + h.rows (clusterOf oldCore) * 64) }

def Shift.transfer (h : Shift) (t : Transfer) : Transfer :=
  { t with who := h.who t.who, view := h.view t.who.core t.view, note := h.note t.note, ahead := t.ahead.map fun e => (h.spot e.1, e.2) }

/-- The request of a strand that was on a core. -/
def Shift.req (h : Shift) (core : Nat) (r : Req) : Req :=
  match r with
  | .depSet d n c t => .depSet d n c (h.task t)
  | .matchSet d n tag target t => .matchSet d n tag target (h.task t)
  | .transfer d short t => .transfer d short (h.transfer t)
  | .bind k x => .bind k { x with view := h.view core x.view }
  | .atomic d op n va l v cmp => .atomic d op n va (l.map h.loc) v cmp
  | .timed d op va l now lane => .timed d op va (l.map h.loc) now lane
  | .lanes ws now => .lanes (ws.map fun e => (e.1, e.2.1, e.2.2.1.map h.loc, e.2.2.2)) now
  | .mark va l now lane => .mark va (h.loc l) now lane
  | r => r

def Shift.item (h : Shift) (r : ReqItem) : ReqItem := { r with who := h.who r.who, req := h.req r.who.core r.req }

def Shift.suspended (h : Shift) (x : Suspended) : Suspended :=
  match x with
  | .item r => .item (h.item r)
  | .run core slot num => .run (h.core core) slot num

def Shift.barrier (h : Shift) (e : Nat × Barrier) : Nat × Barrier :=
  let scope := e.1 / 16 / 65536
  let unit := e.1 / 16 % 65536
  let u := if scope = 0 then h.core unit else if scope = 1 then h.row unit else if scope = 2 then h.cluster unit else unit
  (barrierKey scope u (e.1 % 16), { e.2 with
    awaited := e.2.awaited.map h.who, arrived := e.2.arrived.map fun a => { a with who := h.who a.who } })

/-- A raft mask of a strand that was on a core. -/
def Shift.mask (h : Shift) (core : Nat) (m : BitVec 32) : BitVec 32 :=
  BitVec.ofNat 32 ((((List.range 32).filter m.getLsbD).map fun i => 2 ^ (h.core (clusterOf core * 32 + i) % 32)).sum)

/-- A crew's own record on its new rows; earlier placements are kept, the most recent first. -/
def Shift.crew (h : Shift) (c : Crew) : Crew :=
  { c with
    rows := h.new
    past := h.old :: c.past
    deps := c.deps.map fun e => (e.1, { e.2 with task := e.2.task.map h.task })
    requests := c.requests.map h.item
    suspended := c.suspended.map h.suspended
    snapshot := h.bytes c.snapshot
    wake := c.wake.map fun e => (e.1, h.bytes e.2)
    early := c.early.map fun e => (e.1, e.2.map h.key)
    direct := h.bytes c.direct
    barriers := (c.barriers.map h.barrier).foldl (fun m e => FMap.put m e.1 e.2) []
    serving := c.serving.map fun e => (h.core e.1, e.2) }

/-! ### Pre-emption (19 R350, R351) -/

/-- A strand stops: its unjoined chain instruction, its gang wait and its slipway are withdrawn, and its operand-buffer
entries are dropped (19 R351). A chain instruction that is withdrawn has not been issued (09 R178). -/
def Strand.withdraw (t : Strand) : Strand :=
  let t1 := { t with slipway := [], branch := none, obuf := [] }
  match t.wait with
  | .chain => { t1 with wait := .free, steps := t1.steps - 1 }
  | .raft _ _ => { t1 with wait := .free, raft := none }
  | .retry _ => { t1 with wait := .free }
  | _ => t1

/-- Deliver the joined instances of a row, which have their grants. -/
def State.flushRow (s : State) (r : Nat) : Nat → State
  | 0 => s
  | n + 1 => (s.deliverRow r).flushRow r n

/-- Every joined instance of a crew has its grant, so that its results can be delivered (11 R220, 24 R384). -/
def State.chainsGranted (s : State) (c : Crew) : Bool := c.rows.all fun r => (s.row r).work.all (·.granted)

/-- The crew at rest (19 R350, steps 1 and 2): strands at an instruction boundary, the unjoined chain instructions withdrawn with the
steps that they took given back, the latest first (11 R220), chain work delivered. -/
def State.quiesce (s0 : State) (c : Crew) : State :=
  let s := c.rows.foldl (fun s r => (s.row r).queues.toList.flatten.reverse.foldl State.giveBack s) s0
  let s1 := c.strands.foldl (fun s w =>
    if (s.strand w).live then (s.deliver w fun e => e.due.isNone).onStrand w Strand.withdraw else s) s
  let s2 := c.rows.foldl (fun s r => s.setRow r { s.row r with queues := Vector.replicate 8 [] }) s1
  c.rows.foldl (fun s r => s.flushRow r (s.row r).work.length) s2

/-- The bytes of a crew's local stores, by crew core index, and of its scratchpad, by crew row. -/
def Crew.storeBytes (c : Crew) (mem : List Host.Cell) : FMap Byte :=
  c.cores.zipIdx.flatMap fun e =>
    (mem.filter fun x => decide (2 ^ 60 + e.1 * 2 ^ 14 ≤ x.1) && decide (x.1 < 2 ^ 60 + (e.1 + 1) * 2 ^ 14)).map
      fun x => (e.2 * 2 ^ 14 + (x.1 - (2 ^ 60 + e.1 * 2 ^ 14)), x.2)

def padBase (row : Nat) : Nat := 2 ^ 61 + row / 4 * 2 ^ 20 + row % 4 * 2 ^ 18

/-- The failing granules of a crew's storage, numbered as its image has the bytes (24 R390). -/
def Crew.failingBytes (c : Crew) (m : FMap Failing) : FMap Failing :=
  let part (base lo n : Nat) : FMap Failing :=
    (m.filter fun x => decide (lo ≤ x.1) && decide (x.1 < lo + n)).map fun x => (base + (x.1 - lo), x.2)
  (c.cores.zipIdx.flatMap fun e => part (e.2 * 2 ^ 14) (2 ^ 60 + e.1 * 2 ^ 14) (2 ^ 14)) ++
    c.rows.zipIdx.flatMap fun e => part (2 ^ 40 + e.2 * 2 ^ 18) (padBase e.1) (2 ^ 18)

/-- Where a byte of an image's storage stands on rows. -/
def imageKey (rows : List Nat) (n : Nat) : Option Nat :=
  if n < 2 ^ 40 then (coreAt rows (n / 2 ^ 14)).map fun c => 2 ^ 60 + c * 2 ^ 14 + n % 2 ^ 14
  else (rows[(n - 2 ^ 40) / 2 ^ 18]?).map fun r => padBase r + (n - 2 ^ 40) % 2 ^ 18

def Crew.padBytes (c : Crew) (mem : List Host.Cell) : FMap Byte :=
  c.rows.zipIdx.flatMap fun e =>
    (mem.filter fun x => decide (padBase e.1 ≤ x.1) && decide (x.1 < padBase e.1 + 2 ^ 18)).map
      fun x => (e.2 * 2 ^ 18 + (x.1 - padBase e.1), x.2)

/-- A register, tile or line of an image: its number in the job, its bytes, and its value. -/
structure ImageUnit where
  num : Nat
  size : Nat
  value : Nat
deriving DecidableEq, Repr

/-- The registers of a strand, numbered within it. -/
def Strand.units (t : Strand) : List ImageUnit :=
  (t.s.toList.zipIdx.map fun e => ⟨e.2, 8, e.1.toNat⟩) ++ (t.f.toList.zipIdx.map fun e => ⟨16 + e.2, 8, e.1.toNat⟩) ++
    (t.p.toList.zipIdx.map fun e => ⟨24 + e.2, 32, e.1.toNat⟩) ++
    ((t.q.toList.zip t.cursor.toList).zipIdx.map fun e => ⟨32 + e.2, 9, e.1.1.toNat + 2 ^ 64 * e.1.2.toNat⟩)

/-- A 64-byte line of storage. -/
def State.lineValue (s : State) (key : Nat) : Nat := leNat (fun i => Memory.read s.mem (key + i)) 64

/-- The registers, tiles and lines of a crew's image, numbered by crew core and row indices, so that they keep their numbers
on other rows (19 R351, R352). -/
def State.imageUnits (s : State) (c : Crew) : List ImageUnit :=
  (c.cores.zipIdx.flatMap fun e =>
    let at' (base : Nat) (u : ImageUnit) : ImageUnit := { u with num := (e.2 * 64 + base) * 64 + u.num }
    ((List.range 12).flatMap fun x => (s.strand ⟨e.1, x⟩).units.map (at' x)) ++
      ((s.core e.1).v.toList.zipIdx.map fun x => at' 16 ⟨x.2, 256, x.1.toNat⟩) ++
      ((s.core e.1).acc.toList.zipIdx.map fun x => at' 17 ⟨x.2, 1024, x.1.toNat⟩) ++
      ((List.range 256).map fun i => at' 32 ⟨i, 64, s.lineValue (2 ^ 60 + e.1 * 2 ^ 14 + 64 * i)⟩)) ++
    c.rows.zipIdx.flatMap fun e =>
      (List.range 4096).map fun i => ⟨2 ^ 32 + e.2 * 4096 + i, 64, s.lineValue (padBase e.1 + 64 * i)⟩

/-- The units that a new image holds: those that differ from the job's image before it; the first holds all (19 R352). -/
def State.changedUnits (s : State) (k : Nat) (us : List ImageUnit) : List ImageUnit :=
  match FMap.find s.images k with
  | none => us
  | some old => us.filter fun u => FMap.find old u.num != some u.value

/-- Bytes written at a place of a crew's save area, which holds 40 KiB for each core and the scratchpad grant (19 R351). -/
def State.saveBytes (s : State) (c : Crew) (place : Nat) (bs : List Byte) : State :=
  match c.save with
  | none => s
  | some a =>
    let size := c.cores.length * 40960 + c.rows.length * 2 ^ 18
    bs.zipIdx.foldl (fun s b => s.homeWrite (a.toNat % 2 ^ 54 + (place + b.2) % size) b.1) s

/-- The lighter writes a crew's image to its save area: the units that have changed, and the control state and crew-wide
parts, whose bytes are free (19 R350, step 3, R352; log entry 33). -/
def State.writeImage (s : State) (k : Nat) (c : Crew) : State :=
  let us := s.imageUnits c
  let s1 := (s.changedUnits k us).foldl (fun s u => s.saveBytes c (Config.imageAt u.num) (natBytes u.value u.size)) s
  let s2 := s1.saveBytes c (Config.imageAt (2 ^ 33)) (Config.imageControl s.free)
  { s2 with images := FMap.put s2.images k (us.foldl (fun m u => FMap.put m u.num u.value) []), free := s2.free + 1 }

/-- The levels whose handlers a strand is in, each with a trap frame in use. -/
def Strand.frameLevels (t : Strand) : List Nat := if t.live then (List.range 2).filter (· < t.pl.toNat) else []

/-- The ten doublewords of a trap frame as its strand reads them. -/
def State.trapFrame (s : State) (w : StrandId) (v : Nat) : List Word :=
  (List.range 10).map fun k => s.devWord w (s.frameAddr w v + 8 * k)

/-- The trap frames in use of a crew (19 R351). They are taken from where its cores have them and stored where its new cores have
them (DESIGN CHOICE, log entry 109: 19 R329 gives each core's strands frames of their own). -/
def State.trapFrames (s : State) (c : Crew) : List (Nat × Nat × List Word) :=
  c.cores.zipIdx.flatMap fun e => (List.range 12).flatMap fun x =>
    (s.strand ⟨e.1, x⟩).frameLevels.map fun v => (e.2 * 16 + x, v, s.trapFrame ⟨e.1, x⟩ v)

/-- The numbers of the bytes of the trap frames in use of a crew. -/
def State.frameKeys (s : State) (c : Crew) : List Nat :=
  c.cores.flatMap fun core => (List.range 12).flatMap fun x =>
    (s.strand ⟨core, x⟩).frameLevels.flatMap fun v =>
      (List.range 80).map fun i => (dieLoc ⟨core, x⟩ (s.frameAddr ⟨core, x⟩ v)).key + i

/-- The crew's wake buffers without those bytes, which go with the image. -/
def Crew.dropWake (c : Crew) (keys : List Nat) : Crew :=
  if keys.isEmpty then c else { c with wake := c.wake.map fun e => (e.1, e.2.filter fun x => !keys.contains x.1) }

/-- The job's contributions that wait in the landings of the collective engines (19 R354). -/
def State.waitingParts (s : State) (k : Nat) : List Message :=
  s.dies.flatMap fun e => [3, 2, 1, 0].flatMap fun p => (e.2.collectives[p]?.getD []).filter fun m => m.crew == some k

/-- The image of a crew at rest (19 R351). The job's contributions that no collective engine has taken are among its messages in
transit (DEDUCED from 19 R354, log entry 112). -/
def State.image (s : State) (k : Nat) (c : Crew) (written : List Nat) : Saved where
  crew := c.dropWake (s.frameKeys c)
  strands := c.cores.zipIdx.flatMap fun e => (List.range 12).map fun x => (e.2 * 16 + x, s.strand ⟨e.1, x⟩)
  trapFrames := s.trapFrames c
  cores := c.cores.map s.core
  rows := c.rows.map s.row
  stores := c.storeBytes s.mem
  pads := c.padBytes s.mem
  failing := c.failingBytes s.failing
  rings := (clustersOf c.rows).map fun cl => (s.cluster cl).rings.filter fun e => e.2.crew == k
  matching := (clustersOf c.rows).map fun cl => (s.cluster cl).matching.filter fun e => e.2.crew == k
  patterns := (clustersOf c.rows).map fun cl => (s.core (cl * 32)).swallow
  transit := s.waitingParts k ++ s.transit.filter fun m => m.crew == some k && m.toDev.isNone
  written := written

/-- A context slot that no job uses keeps its generation. -/
def Strand.vacant (t : Strand) : Strand := { Strand.reset with gen := t.gen }

/-- A core that no job uses keeps its cluster's pattern. -/
def Core.vacant (c : Core) : Core := { Core.reset with swallow := c.swallow }

/-- The placement of a crew is freed without diverting anything. -/
def State.vacate (s : State) (k : Nat) (c : Crew) : State :=
  let s1 := c.strands.foldl (fun s w => s.onStrand w Strand.vacant) s
  let s2 := c.cores.foldl (fun s x => s.onCore x Core.vacant) s1
  let s3 := (clustersOf c.rows).foldl (fun s i => s.setCluster i ((s.cluster i).freeCrew k)) s2
  { s3 with
    crews := FMap.del s3.crews k
    rows := s3.rows.filter fun e => !c.rows.contains e.1
    dies := s3.dies.map fun e => (e.1, { e.2 with collectives := e.2.collectives.map fun l => l.filter fun m => m.crew != some k })
    transit := s3.transit.filter fun m => m.crew != some k || m.toDev.isSome }

/-- R350. A job whose cores have stopped leaves the machine: its image is written, its caches are written back, and its
placement is freed. -/
def State.takeOff (s : State) (k : Nat) (c : Crew) : State :=
  let s1 := s.quiesce c
  match FMap.find s1.crews k with
  | none => s1
  | some c1 =>
    let written := (s1.changedUnits k (s1.imageUnits c1)).map (·.num)
    let s2 := (clustersOf c1.rows).foldl State.writeBack (s1.writeImage k c1)
    let s3 := (s2.vacate k c1).freeUnits c1
    { s3 with saved := FMap.put s3.saved k (s2.image k { c1 with drawn := 0, lastDraw := 0, stopping := false } written) }

/-- The job's posted writes to peer devices are all acknowledged, so that its release at system scope is complete (19 R350 step 4,
14 R252, 22 R378). -/
def State.allAcked (s : State) (c : Crew) : Bool :=
  !s.posted.any fun p => p.launch == c.launch && c.cores.contains p.who.core

/-- A job that is told to stop leaves the machine once none of its cores goes on, its dredges have finished their list entries,
its joined chain instances have their grants and its writes to peer devices their acknowledgements (19 R350, 11 R220). -/
def State.stop (s0 : State) (k : Nat) : State :=
  match FMap.find s0.crews k with
  | none => s0
  | some c0 =>
    if !c0.stopping then s0
    else
      let s := c0.cores.foldl State.finishEntries s0
      match FMap.find s.crews k with
      | none => s
      | some c => if c.cores.all (s.coreAtRest c) && s.chainsGranted c && s.allAcked c then s.takeOff k c else s

/-- R350. Pre-empt a job: its cores stop at an instruction boundary, between passes and with rafts whole, and it leaves the
machine as soon as they have. It is done by call 0x802, or by the dispatcher, as a move of the agenda (DESIGN CHOICE, log entry
124). -/
def State.preempt (s : State) (k : Nat) : State :=
  match FMap.find s.crews k with
  | none => s
  | some c => (s.setCrew k { c with stopping := true }).stop k

/-! ### Rebinding (19 R353) -/

/-- Rows for a crew whose rows have the pattern of earlier ones, cluster by cluster. -/
def patternRows (busy : List Nat) (die : Nat) (old : List Nat) : List Nat → List Nat → Option (List (Nat × Nat × Nat))
  | [], _ => some []
  | cl :: cls, used =>
    let ps := (old.filter fun r => r / 4 == cl).map (· % 4)
    let lo := ps.min?.getD 0
    let span := ps.max?.getD 0 - lo
    let hit := (List.range 512).findSome? fun c =>
      if used.contains (die * 512 + c) then none
      else ((List.range (4 - span)).find? fun b => ps.all fun p => !busy.contains ((die * 512 + c) * 4 + (p - lo) + b)).map
        fun b => (die * 512 + c, b)
    match hit with
    | none => none
    | some (c, b) => (patternRows busy die old cls (c :: used)).map fun r => (cl, c, b + 4 - lo) :: r

/-- New rows for a saved crew, on its die. -/
def State.newRows (s : State) (v : Saved) : Option (List Nat) :=
  let old := v.crew.rows
  let die := dieOf (old.headD 0 * 8)
  let n := match FMap.find s.launches v.crew.launch with | some l => l.rows | none => old.length
  if old.length = n then findPlacement s.busyRows die n
  else
    (patternRows s.busyRows die old (clustersOf old) []).map fun ps =>
      old.map fun r =>
        match ps.find? fun p => p.1 == r / 4 with
        | some p => p.2.1 * 4 + (r % 4 + p.2.2 - 4)
        | none => r

/-- The units and matching entries of a saved crew are free in the clusters of its new rows. -/
def State.unitsFree (s : State) (v : Saved) (rows : List Nat) : Bool :=
  ((clustersOf rows).zip (v.rings.zip v.matching)).all fun e =>
    let c := s.cluster e.1
    e.2.1.all (fun x => (FMap.find c.rings x.1).isNone) && e.2.2.all fun x => (FMap.find c.matching x.1).isNone

/-- A strand of a saved job on its new core. -/
def Shift.strand (h : Shift) (oldCore : Nat) (t : Strand) : Strand := { t with raft := t.raft.map (h.mask oldCore) }

/-- A core of a saved job on its new core: its grant moves with its rows (log entry 51), and so do the views of its transfers and
streams. -/
def Shift.savedCore (h : Shift) (k oldCore newCore : Nat) (swallow : BitVec 16) (c : Core) : Core :=
  { c with
    crew := some k
    swallow := swallow
    spBase := BitVec.ofInt 8 ((c.spBase.toNat : Int) + h.rows (clusterOf oldCore) * 64)
    slots := c.slots.map fun e => (e.1, h.transfer e.2)
    streams := c.streams.map fun r => r.map fun x => { x with view := h.view oldCore x.view }
    yielded := none
    itlb := []
    dtlb := []
    index := (indexIn h.new newCore).getD c.index }

/-- The patterns of a saved job are written to the clusters that its new rows cover wholly. -/
def State.restorePatterns (s : State) (rows : List Nat) (ps : List (BitVec 16)) : State :=
  ((clustersOf rows).zip ps).foldl (fun s e =>
    if (rowsOf e.1).all rows.contains then
      let s1 := s.writeSwallow (e.1 * 32) (e.2.setWidth 64)
      s1.setCluster e.1 { s1.cluster e.1 with pattern := e.2 }
    else s) s

/-- A crew's storage on its new rows is what was saved, its failing granules among it. -/
def State.restoreBytes (s : State) (rows : List Nat) (v : Saved) : State :=
  let clean := s.mem.filter fun e => !inStorage rows e.1
  let m1 := v.stores.foldl (fun m e =>
    match coreAt rows (e.1 / 2 ^ 14) with
    | some c => Memory.write m (2 ^ 60 + c * 2 ^ 14 + e.1 % 2 ^ 14) e.2
    | none => m) clean
  let m2 := v.pads.foldl (fun m e =>
    match rows[e.1 / 2 ^ 18]? with
    | some r => Memory.write m (padBase r + e.1 % 2 ^ 18) e.2
    | none => m) m1
  { s with
    mem := m2
    failing := v.failing.foldl (fun m e => match imageKey rows e.1 with | some k => FMap.put m k e.2 | none => m)
      (s.failing.filter fun e => !inStorage rows e.1) }

/-- The trap frames of a saved job, where its strands have them on their new cores. -/
def State.restoreFrames (s : State) (rows : List Nat) (fs : List (Nat × Nat × List Word)) : State :=
  fs.foldl (fun s e =>
    match coreAt rows (e.1 / 16) with
    | some x => s.storeWords ⟨x, e.1 % 16⟩ (s.frameAddr ⟨x, e.1 % 16⟩ e.2.1) e.2.2
    | none => s) s

/-- R353, R354. Put a saved job on its new rows: its image, its caches invalidated, its messages on their way again. -/
def State.restore (s : State) (k : Nat) (v : Saved) (rows : List Nat) : State :=
  let h : Shift := ⟨v.crew.rows, rows⟩
  let c := h.crew v.crew
  let s1 := ({ s with saved := FMap.del s.saved k }.restoreBytes rows v).setCrew k c
  let s2 := (v.crew.cores.zip (c.cores.zip v.cores)).foldl (fun s e =>
    s.setCore e.2.1 (h.savedCore k e.1 e.2.1 (s.core e.2.1).swallow e.2.2)) s1
  let s3 := v.strands.foldl (fun s e =>
    match coreAt v.crew.rows (e.1 / 16), coreAt rows (e.1 / 16) with
    | some o, some x => s.setStrand ⟨x, e.1 % 16⟩ (h.strand o e.2)
    | _, _ => s) s2
  let s4 := (rows.zip v.rows).foldl (fun s e => s.setRow e.1 e.2) s3
  let s5 := ((clustersOf v.crew.rows).zip ((clustersOf rows).zip (v.rings.zip v.matching))).foldl (fun s e =>
    let cl := e.2.1
    let x := s.cluster cl
    let rings := e.2.2.1.map fun r => (r.1, { r.2 with base := ((r.2.base : Int) + h.rows e.1 * 4096).toNat })
    let ms := e.2.2.2.map fun m => (m.1, { m.2 with task := h.task m.2.task })
    s.setCluster cl { x with
      rings := rings.foldl (fun m r => FMap.put m r.1 r.2) x.rings
      matching := ms.foldl (fun m r => FMap.put m r.1 r.2) x.matching }) s4
  let s6 := (clustersOf rows).foldl State.dropClean s5
  let s7 := { s6 with
    transit := s6.transit ++ v.transit
    flips := s6.flips.map fun (r : FlipReq) => if r.crew = k then { r with who := h.who r.who } else r
    posted := s6.posted.map fun (p : Posted) => if p.launch = v.crew.launch then { p with who := h.who p.who } else p }
  (s7.restoreFrames rows v.trapFrames).restorePatterns rows v.patterns

/-- Rebind a pre-empted job, if a placement exists. -/
def State.rebindJob (s : State) (k : Nat) : Option State :=
  match FMap.find s.saved k with
  | none => none
  | some v =>
    match s.newRows v with
    | none => none
    | some rows => if s.unitsFree v rows then some (s.restore k v rows) else none

/-- R353. The dispatcher rebinds a pre-empted job. -/
def execRebind (crew : Nat) (s : State) : Out := .next ((s.rebindJob crew).getD s)

end Sys2Proof.Machine
end

