-- ==== Sys2Proof/Machine/Dispatcher.lean ====
section
/-!
DEFINITION. The dispatchers: launch messages and events (22 R371 to R373), binding jobs and cohorts (09 R165, R166, R169,
R173), retirement (09 R171), completion and its record (09 R167, R168, 24 R387), and the management requests of streams
and events (22 R374, R375).
-/
namespace Sys2Proof.Machine
open Sys2Proof

/-! ### Streams and descriptors -/

def streamKey (die stream : Nat) : Nat := die * 64 + stream

def State.streamAt (s : State) (die stream : Nat) : Option Stream := FMap.find s.streams (streamKey die stream)
def State.setStream (s : State) (die stream : Nat) (x : Stream) : State :=
  { s with streams := FMap.put s.streams (streamKey die stream) x }
def State.setLaunch (s : State) (id : Nat) (l : Launch) : State := { s with launches := FMap.put s.launches id l }

/-- The agent of a dispatcher that reads and writes what a message names on a stream: of no core, it holds no translation and
walks. -/
def Stream.agent (st : Stream) (die : Nat) : Agent := ⟨Config.cores + die, 1, some st.root, st.asid, true⟩

/-- The places of `n` bytes of translated memory; none when one cannot be reached. -/
def State.homePlaces (s : State) (a : Agent) (acc : Acc) (va : Word) (n : Nat) : Option (List Nat) :=
  if Config.windowBase < va.toNat + n then none
  else
    (List.range n).mapM fun k =>
      match s.look a acc (va + BitVec.ofNat 64 k) with
      | .place l => some l.key
      | _ => none

/-- The fields of a descriptor (09 R163), as a launch of a stream in its first state. -/
def launchOf (die stream : Nat) (b : List Byte) (seed : Word) : Launch :=
  let f (k n : Nat) : Nat := fieldOf b k n
  let flags := f 21 1
  let csize := f 38 1
  let cohort := f 30 2
  let det := flags % 2 == 1
  let member := flags / 2 % 2 == 1
  let rlog := f 23 1
  let a0 := f 24 4
  let q := 2 ^ f 22 1
  let plain := f 0 8 % 2 == 0 && decide (f 8 4 ≤ 2 ^ 20) && decide (f 12 4 ≤ 2 ^ 20) && decide (f 16 4 ≤ 2 ^ 20) &&
    decide (1 ≤ f 20 1) && decide (f 20 1 ≤ 64) && decide (flags < 4) &&
    (if det then decide (8 ≤ f 22 1) && decide (f 22 1 ≤ 20) else f 22 1 == 0) &&
    decide (rlog ≤ 8) && (rlog == 0 || det) && (rlog != 0 || a0 == 0) && (member || cohort == 0) &&
    (if member then decide (2 ≤ csize) && decide (csize ≤ 16) else csize == 0) && f 39 1 == 0 && (det || f 32 6 == 0)
  let tournament := rlog == 0 ||
    (f 8 4 == 2 ^ rlog && f 12 4 == 1 && f 16 4 == 1 && a0 / 4 % 64 == 0 && a0 / 256 != 0 && a0 / 256 * 256 % q == 0)
  { die := die
    stream := stream
    valid := plain && tournament
    entry := BitVec.ofNat 64 (f 0 8)
    dimx := f 8 4
    dimy := f 12 4
    dimz := f 16 4
    rows := f 20 1
    det := det
    cohort := if member && cohort != 0 then some (BitVec.ofNat 16 cohort) else none
    csize := csize
    qlog := f 22 1
    rlog := rlog
    a0 := BitVec.ofNat 32 a0
    tide0 := BitVec.ofNat 48 (f 32 6)
    htab := BitVec.ofNat 64 (f 40 8)
    seed := seed
    deps := (List.range 4).map fun i => f (56 + 2 * i) 2
    args := (List.range 8).map fun i => BitVec.ofNat 64 (f (64 + 8 * i) 8)
    next := 0
    retired := 0
    killed := 0
    status := none
    frame := []
    energy := 0
    filler := 0 }

/-! ### Launch messages (22 R371, R372) -/

/-- The lowest free event number of a die's pool (22 R373). -/
def State.freeEvent (s : State) (die : Nat) : Option Nat :=
  ((List.range 16384).map (die * 16384 + ·)).find? fun e => e != 0xFFFF && (FMap.find s.events e).isNone

/-- What the dispatcher answers to a launch message: the state, the event number, the status. -/
def State.enqueue (s : State) (die : Nat) (b : MsgBits) : State × Nat × Nat :=
  let arg (k n : Nat) : Nat := b.toNat / 2 ^ (64 + 8 * k) % 2 ^ (8 * n)
  let desc := BitVec.ofNat 64 (arg 0 8)
  let refused (st : Nat) : State × Nat × Nat := (s, 0xFFFF, st)
  if (hdrLen b).toNat < 40 ∨ arg 10 6 ≠ 0 ∨ arg 9 1 ≠ 0 ∨ 64 ≤ arg 8 1 ∨ desc.toNat % 64 ≠ 0 then refused 1
  else
    match s.streamAt die (arg 8 1) with
    | none => refused 1
    | some st =>
      match s.homePlaces (st.agent die) .read desc 128 with
      | none => refused 1
      | some ks =>
        match s.freeEvent die with
        | none => refused 2
        | some e =>
          let seed := BitVec.ofNat 64 (arg 32 8)
          let bytes := ks.map fun k => Memory.read s.mem (readKey die k)
          let put (s : State) (k : Nat) (v n : Nat) : State :=
            match s.homePlaces (st.agent die) .write (desc + BitVec.ofNat 64 k) n with
            | some ws => ws.zipIdx.foldl (fun s x => s.homeWrite x.1 (byteOf v x.2)) s
            | none => s
          let s1 := put (put s 28 e 2) 48 seed.toNat 8
          (({ s1 with events := FMap.put s1.events e none }.setLaunch e (launchOf die (arg 8 1) bytes seed)).setStream die
            (arg 8 1) { st with queue := st.queue ++ [e] }, e, 0)

/-- The acknowledgement of a launch message (22 R372 step 3). -/
def State.acknowledge (s : State) (b : MsgBits) (crew : Option Nat) (event status : Nat) : State :=
  let arg (k n : Nat) : Nat := b.toNat / 2 ^ (64 + 8 * k) % 2 ^ (8 * n)
  if arg 16 8 = 0 then s
  else
    let w : StrandId := ⟨s.relocate crew (hdrSrcCore b).toNat, (hdrSrcCtx b).toNat⟩
    s.postFor crew w (BitVec.ofNat 64 (arg 16 8)) (withLen (BitVec.ofNat 64 (arg 24 8)) 16)
      (natBytes (arg 0 8) 8 ++ natBytes event 2 ++ natBytes status 1) 0

/-- Take one launch message. -/
def State.takeLaunch (s : State) (die : Nat) (b : MsgBits) (crew : Option Nat) : State :=
  let r := s.enqueue die b
  r.1.acknowledge b crew r.2.1 r.2.2

/-- The first message of the highest lane of a service landing, and the lanes without it. -/
def nextService (v : Vector (List Message) 4) : Option (Message × Vector (List Message) 4) :=
  [3, 2, 1, 0].findSome? fun p =>
    match v[p]?.getD [] with
    | m :: ms => some (m, setLane4 v p ms)
    | [] => none

/-- A launch message of the host, as it stands in a service landing. -/
def hostLaunch (b : MsgBits) : Message where
  bits := b
  bound := none
  dest := 0
  toDev := none
  srcDev := none
  crew := none
  notice := none
  diverted := none
  scope := 0

/-- R370, R372. A launch message of the host enters the landing of a die's dispatcher, behind those of its class that wait
there, if its lane has room; or the dispatcher takes the next of its landing. -/
def execLaunchMessage (die : Nat) (host : Option MsgBits) (s : State) : Out :=
  match host with
  | some b =>
    let d := s.die die
    let p := (hdrPrio b).toNat
    let l := d.launches[p]?.getD []
    .next (if 16 ≤ l.length then s else s.setDie die { d with launches := setLane4 d.launches p (l ++ [hostLaunch b]) })
  | none =>
    match nextService (s.die die).launches with
    | some (m, v) => .next ((s.setDie die { s.die die with launches := v }).takeLaunch die m.bits m.crew)
    | none => .next s

/-! ### Heads (09 R165, R168) -/

/-- A named event has fired, or is a number not assigned now. -/
def State.fired (s : State) (e : Nat) : Bool :=
  e == 0xFFFF || match FMap.find s.events e with | some none => false | _ => true

/-- A named event fired with a status other than ok. -/
def State.failed (s : State) (e : Nat) : Bool :=
  e != 0xFFFF && match FMap.find s.events e with | some (some st) => st != 0 | _ => false

/-- The events that a launch depends on have fired. It is judged anew as long as no job of the launch is bound, so that a
number released and assigned again holds the launch back (DESIGN CHOICE, log entry 88). -/
def State.launchReady (s : State) (l : Launch) : Bool := l.deps.all s.fired
def State.launchSkipped (s : State) (l : Launch) : Bool := l.deps.any s.failed
def Launch.jobs (l : Launch) : Nat := l.dimx * l.dimy * l.dimz

/-- The head launch of a stream. -/
def State.headOf (s : State) (die stream : Nat) : Option (Nat × Launch) :=
  match s.streamAt die stream with
  | none => none
  | some st =>
    match st.queue with
    | e :: _ => (FMap.find s.launches e).map fun l => (e, l)
    | [] => none

/-- A head launch that may bind jobs. -/
def State.binds (s : State) (l : Launch) : Bool :=
  l.valid && l.status.isNone && decide (l.next < l.jobs) && (l.next != 0 || (s.launchReady l && !s.launchSkipped l))

/-! ### Binding a job (09 R169) -/

/-- A control strand as a job starts it. -/
def startStrand (old : Strand) (l : Launch) (dbg : Vector Word 4 × Vector Word 2) (job index cores : Nat) : Strand :=
  let t : Strand := { Strand.reset with
    live := true
    gen := old.gen + 1
    pc := l.entry
    pl := 0
    det := l.det
    seed := l.seed
    starts := 1
    ib := dbg.1
    dw := dbg.2 }
  let t1 := l.args.zipIdx.foldl (fun t e => t.putS (BitVec.ofNat 4 (e.2 + 1)) e.1) t
  let x := job % l.dimx
  let y := job / l.dimx % l.dimy
  let z := job / l.dimx / l.dimy
  ((((((t1.putS 9 (BitVec.ofNat 64 x)).putS 10 (BitVec.ofNat 64 y)).putS 11 (BitVec.ofNat 64 z)).putS 12
    (BitVec.ofNat 64 index)).putS 13 (BitVec.ofNat 64 cores)).putS 14 0xFFFFFFF004000).putS 15
      (BitVec.ofNat 64 Config.exitAddress)

/-- The crew of a job as it binds. -/
def startCrew (st : Stream) (id : Nat) (l : Launch) (job : Nat) (rows : List Nat) : Crew where
  stream := streamKey l.die l.stream
  launch := id
  job := job
  rows := rows
  refRows := rows
  past := []
  root := st.root
  asid := st.asid
  save := st.pool.head?
  debugger := st.debugger
  deps := []
  arrivals := 0
  det := l.det
  qlog := l.qlog
  qnext := none
  requests := []
  suspended := []
  numbered := 0
  seed := l.seed
  htab := l.htab
  tide := l.tide0
  snapshot := []
  wake := []
  early := []
  layer := if l.rlog = 0 then none else some []
  base := []
  direct := []
  barriers := []
  berth := []
  staged := []
  phase := 0
  rival := if l.rlog = 0 then none else some job
  rule := l.a0.setWidth 2
  allowance := if l.rlog = 0 then none else some (l.a0.toNat / 256 * 256)
  roundNo := 0
  rank := 0
  won := 0
  ends := 0
  served := false
  overfull := false
  finished := none
  drawn := 0
  lastDraw := 0
  held := false
  stopping := false
  serving := none

/-- The storage of a crew as a job starts: zero, but for the images of its stream. -/
def State.loadImages (s : State) (st : Stream) (rows : List Nat) : State :=
  let clean := s.mem.filter fun e => !inStorage rows e.1
  let cores := rows.flatMap fun r => (List.range 8).map fun p => r * 8 + p
  let m1 := cores.foldl (fun m c =>
    (st.lstore.take 0x4000).zipIdx.foldl (fun m b => Memory.write m (2 ^ 60 + c * 2 ^ 14 + b.2) b.1) m) clean
  let m2 := (clustersOf rows).foldl (fun m cl =>
    let g := grantOf rows cl
    (st.spad.take (g.2 * 4096)).zipIdx.foldl (fun m b => Memory.write m (2 ^ 61 + cl * 2 ^ 20 + g.1 * 4096 + b.2) b.1) m) m1
  { s with mem := m2, failing := s.failing.filter fun e => !inStorage rows e.1 }

/-- A core as a job starts on it; the pattern is its cluster's (19 R353). -/
def startCore (old : Core) (k : Nat) (rows : List Nat) (core index : Nat) : Core :=
  let g := grantOf rows (clusterOf core)
  { Core.reset with
    swallow := old.swallow
    spBase := BitVec.ofNat 8 g.1
    spLen := BitVec.ofNat 9 g.2
    peermask := peermaskOf rows (clusterOf core)
    crew := some k
    index := index }

/-- R169. Bind the next job of a launch to rows. Its crew has a number that no job had before. -/
def State.bindJob (s : State) (id : Nat) (l : Launch) (st : Stream) (rows : List Nat) : State :=
  let k := s.jobs
  let c := startCrew st id l l.next rows
  let s1 := (s.loadImages st rows).setStream l.die l.stream { st with pool := st.pool.drop 1 }
  let dbg := if st.debugger then (st.ib, st.dw) else (Vector.replicate 4 0, Vector.replicate 2 0)
  let s2 := c.cores.zipIdx.foldl (fun s e => s.setCore e.1 (startCore (s.core e.1) k rows e.1 e.2)) s1
  let s3 := c.cores.zipIdx.foldl (fun s e =>
    let s' := (List.range 11).foldl (fun s x => s.onStrand ⟨e.1, x + 1⟩ Strand.vacant) s
    s'.setStrand ⟨e.1, 0⟩ (startStrand (s'.strand ⟨e.1, 0⟩) l dbg l.next e.2 c.cores.length)) s2
  let s4 := rows.foldl (fun s r => s.setRow r Row.reset) s3
  let s5 := (clustersOf rows).foldl State.dropClean s4
  let c1 := { c with
    base := if l.rlog = 0 then [] else s5.mem
    snapshot := if l.det then s5.mem else [] }
  ({ s5 with jobs := k + 1 }.setCrew k c1).setLaunch id { l with next := l.next + 1 }

/-- Bind the next job of a launch on given rows, if its stream has a save area: without one the launch waits as if no placement
existed (DESIGN CHOICE, log entry 88). -/
def State.bindNext (s : State) (id : Nat) (rows : List Nat) : Option State :=
  match FMap.find s.launches id with
  | none => none
  | some l =>
    match s.streamAt l.die l.stream with
    | none => none
    | some st => if st.pool.isEmpty then none else some (s.bindJob id l st rows)

/-! ### Dispatch (09 R166, R173) -/

/-- Rows for `n` jobs of `k` rows each, with those that are taken added. -/
def placeJobs (die k : Nat) : Nat → List Nat → Option (List (List Nat) × List Nat)
  | 0, busy => some ([], busy)
  | n + 1, busy =>
    match findPlacement busy die k with
    | none => none
    | some rows =>
      let taken := if 5 ≤ k then (clustersOf rows).flatMap rowsOf else rows
      (placeJobs die k n (busy ++ taken)).map fun r => (rows :: r.1, r.2)

/-- Rows for every job of several launches. -/
def placeAll (die : Nat) : List (Nat × Launch) → List Nat → Option (List (Nat × List (List Nat)))
  | [], _ => some []
  | (id, l) :: rest, busy =>
    if 2048 < l.jobs then none
    else
      match placeJobs die l.rows l.jobs busy with
      | none => none
      | some r => (placeAll die rest r.2).map fun q => (id, r.1) :: q

/-- The runs of free rows in a cluster: the first row and how many. -/
def freeSegments (busy : List Nat) (cluster : Nat) : List (Nat × Nat) :=
  (rowsOf cluster).filterMap fun r =>
    if busy.contains r || (r % 4 != 0 && !busy.contains (r - 1)) then none
    else some (r, (((List.range (4 - r % 4)).find? fun i => busy.contains (r + i)).getD (4 - r % 4)))

/-- Rows for a crew of at most four in the smallest run of free rows that holds it. -/
def tightRows (busy : List Nat) (die n : Nat) : Option (List Nat) :=
  ([1, 2, 3, 4].filter (n ≤ ·)).findSome? fun m =>
    (List.range 512).findSome? fun c =>
      ((freeSegments busy (die * 512 + c)).find? fun x => x.2 == m).map fun x => (List.range n).map (x.1 + ·)

/-- The runs of wholly free clusters of a die: the first cluster and how many. -/
def freeRuns (busy : List Nat) (die : Nat) : List (Nat × Nat) :=
  let free (c : Nat) : Bool := (rowsOf (die * 512 + c)).all fun r => !busy.contains r
  (List.range 512).filterMap fun c =>
    if !free c || (c != 0 && free (c - 1)) then none
    else some (die * 512 + c, (((List.range (512 - c)).find? fun i => !free (c + i)).getD (512 - c)))

/-- Runs for crews of whole clusters, by trying each in turn: the first cluster of each crew. -/
def packRuns : List (Nat × Nat) → List (Nat × Nat) → Option (List (Nat × Nat))
  | [], _ => some []
  | (i, n) :: rest, runs =>
    (List.range runs.length).findSome? fun j =>
      match runs[j]? with
      | some (c, len) => if n ≤ len then (packRuns rest (runs.set j (c + n, len - n))).map ((i, c) :: ·) else none
      | none => none

/-- Rows for crews of at most four, one after another, each in the tightest place. -/
def packRows (die : Nat) : List (Nat × Nat) → List Nat → Option (FMap (List Nat))
  | [], _ => some []
  | (i, n) :: rest, busy =>
    (tightRows busy die n).bind fun rows => (packRows die rest (busy ++ rows)).map fun m => FMap.put m i rows

/-- Rows for crews of the given sizes, whenever there are any: whole clusters first, then the rest from the largest down,
which leaves no place unused that another order would use (log entry 88). -/
def packAll (die : Nat) (sizes busy : List Nat) : Option (List (List Nat)) :=
  let jobs := sizes.zipIdx.map fun e => (e.2, e.1)
  let large := (jobs.filter fun e => decide (5 ≤ e.2)).map fun e => (e.1, (e.2 + 3) / 4)
  let small := [4, 3, 2, 1].flatMap fun k => jobs.filter fun e => e.2 == k
  (packRuns large (freeRuns busy die)).bind fun cs =>
    let wide := cs.map fun e => (e.1, (List.range (sizes.getD e.1 0)).map (e.2 * 4 + ·))
    let taken := wide.flatMap fun e => (clustersOf e.2).flatMap rowsOf
    (packRows die small (busy ++ taken)).bind fun m =>
      let all := wide.foldl (fun m e => FMap.put m e.1 e.2) m
      (List.range sizes.length).mapM (FMap.find all)

/-- The rows of the jobs of several launches, dealt out from one list. -/
def dealRows : List (Nat × Launch) → List (List Nat) → List (Nat × List (List Nat))
  | [], _ => []
  | (id, l) :: rest, rows => (id, rows.take l.jobs) :: dealRows rest (rows.drop l.jobs)

/-- Rows for every job of several launches together: member by member in the order held, each job in the lowest placement,
or, when that leaves one without, any that hold them all (DESIGN CHOICE, log entry 88). -/
def placeTogether (die : Nat) (ls : List (Nat × Launch)) (busy : List Nat) : Option (List (Nat × List (List Nat))) :=
  if ls.any fun e => decide (2048 < e.2.jobs) then none
  else
    (placeAll die ls busy).or
      ((packAll die (ls.flatMap fun e => List.replicate e.2.jobs e.2.rows) busy).map (dealRows ls))

/-- What the dispatcher may serve: one job of a launch, or every job of several launches at once. -/
inductive Candidate where
  | one (id : Nat)
  | all (ids : List Nat)
deriving DecidableEq, Repr

/-- Hold the cohort members that are heads and ready; one whose csize differs from the first member's is refused. Of members
that become heads and ready together the one of the lowest stream number comes first (DESIGN CHOICE, log entry 106). -/
def State.holdMembers (s : State) (die : Nat) : State :=
  (List.range 64).foldl (fun s i =>
    match s.headOf die i with
    | none => s
    | some (e, l) =>
      match l.cohort with
      | none => s
      | some c =>
        let held := FMap.getD (s.die die).cohorts c.toNat []
        if !s.binds l || l.next != 0 || held.contains e then s
        else
          match held.head?.bind (FMap.find s.launches) with
          | none => s.setDie die { s.die die with cohorts := FMap.put (s.die die).cohorts c.toNat [e] }
          | some f =>
            if f.csize ≠ l.csize then s.setLaunch e { l with status := some 1 }
            else if held.length < l.csize then
              s.setDie die { s.die die with cohorts := FMap.put (s.die die).cohorts c.toNat (held ++ [e]) }
            else s) s

/-- The class of a launch's stream. -/
def State.classOf (s : State) (id : Nat) : Nat :=
  match FMap.find s.launches id with
  | some l => match s.streamAt l.die l.stream with | some st => st.cls | none => 0
  | none => 0

def State.streamOfLaunch (s : State) (id : Nat) : Nat :=
  match FMap.find s.launches id with | some l => l.stream | none => 64

/-- The candidate at a stream, with its class. -/
def State.candidateAt (s : State) (die stream : Nat) : Option (Nat × Candidate) :=
  match s.headOf die stream with
  | none => none
  | some (e, l) =>
    if !s.binds l then none
    else
      match l.cohort with
      | some c =>
        let held := FMap.getD (s.die die).cohorts c.toNat []
        if held.length = l.csize ∧ held.contains e ∧ (held.all fun x => stream ≤ s.streamOfLaunch x) then
          some ((held.map s.classOf).foldl max 0, .all held)
        else none
      | none => some (s.classOf e, if l.rlog = 0 then .one e else .all [e])

/-- The candidate of a class that is served next: the first in stream order after the stream last served. -/
def State.nextCandidate (s : State) (die cls : Nat) : Option (Nat × Candidate) :=
  let last := match (s.die die).served[cls]?.join with | some i => i + 1 | none => 0
  ((List.range 64).map fun i => (last + i) % 64).findSome? fun i =>
    match s.candidateAt die i with
    | some (c, x) => if c = cls then some (i, x) else none
    | none => none

/-- Note which stream a class was served at. -/
def State.noteServed (s : State) (die cls stream : Nat) : State :=
  if h : cls < 4 then s.setDie die { s.die die with served := (s.die die).served.set cls (some stream) h } else s

/-- Refuse launches whose jobs can never be placed together. -/
def State.refuseAll (s : State) (die : Nat) (ids : List Nat) : State :=
  let s1 := ids.foldl (fun s id =>
    match FMap.find s.launches id with
    | some l => s.setLaunch id { l with status := some 1, next := l.jobs }
    | none => s) s
  s1.setDie die { s1.die die with cohorts := (s1.die die).cohorts.filter fun e => e.2 != ids }

/-- Bind every job of several launches at once, member by member in the order held (log entry 88): the state, or nothing while placements are missing. -/
def State.bindAll (s : State) (die : Nat) (ids : List Nat) : Option State :=
  let ls := ids.filterMap fun id => (FMap.find s.launches id).map fun l => (id, l)
  if (placeTogether die ls []).isNone then some (s.refuseAll die ids)
  else
    match placeTogether die ls s.busyRows with
    | none => none
    | some ps =>
      let bound := ps.foldl (fun (acc : Option State) p =>
        p.2.foldl (fun acc rows => acc.bind fun s => s.bindNext p.1 rows) acc) (some s)
      bound.map fun s => s.setDie die { s.die die with cohorts := (s.die die).cohorts.filter fun e => e.2 != ids }

/-- Serve a candidate, if placements exist. -/
def State.serveCandidate (s : State) (die : Nat) (x : Candidate) : Option State :=
  match x with
  | .all ids => s.bindAll die ids
  | .one id =>
    match FMap.find s.launches id with
    | none => none
    | some l => (findPlacement s.busyRows die l.rows).bind fun rows => s.bindNext id rows

/-- The pre-empted jobs of a class of a die (19 R353). -/
def State.savedOf (s : State) (die cls : Nat) : List Nat :=
  (s.saved.filter fun e => dieOf (e.2.crew.rows.headD 0 * 8) == die && s.classOf e.2.crew.launch == cls).map (·.1)

/-- Serve the highest class of the listed ones that has something to bind; none when that class lacks a placement, or
nothing is left. -/
def State.serveClasses (s : State) (die : Nat) : List Nat → Option State
  | [] => none
  | cls :: rest =>
    match s.savedOf die cls with
    | k :: _ => s.rebindJob k
    | [] =>
      match s.nextCandidate die cls with
      | some (stream, x) => (s.serveCandidate die x).map fun s => s.noteServed die cls stream
      | none => s.serveClasses die rest

/-- Bind as long as something can be bound. -/
def State.dispatchAll (s : State) (die : Nat) : Nat → State
  | 0 => s
  | n + 1 =>
    match (s.holdMembers die).serveClasses die [3, 2, 1, 0] with
    | some t => t.dispatchAll die n
    | none => s.holdMembers die

/-- R166. The dispatcher of a die binds jobs. -/
def execDispatch (die : Nat) (s : State) : Out := .next (s.dispatchAll die 4096)

/-! ### Retirement and completion (09 R167, R171) -/

/-- A job is done but for its final merge: nothing of it is live, its transfers have completed and its requests are
served; a rival retires once it is finished and alone (16 R306). -/
def State.jobDone (s : State) (c : Crew) : Bool :=
  s.idleCrew c &&
    match c.rival with
    | none => (c.cores.all fun x => (s.core x).slots.isEmpty) && c.requests.isEmpty && c.suspended.isEmpty
    | some _ => c.finished.isSome && s.aliveCount c == 1

/-- A rival's layer is applied to memory. -/
def State.applyLayer (s : State) (c : Crew) : State :=
  match c.layer with
  | some l => (l.foldl (fun s e => s.homeWrite e.1 e.2) s).postBytes ⟨c.cores.headD 0, 0⟩ c.launch l
  | none => s

/-- R171. A job retires: in a deterministic launch after the final merge. -/
def State.retireJob (s : State) (k : Nat) (c : Crew) : State :=
  let s1 := if c.det then s.merge k else s
  match FMap.find s1.crews k with
  | none => s1
  | some c1 =>
    let s2 := ((s1.applyLayer c1).freeUnits c1).freeCrew k
    match FMap.find s2.launches c1.launch with
    | some l => s2.setLaunch c1.launch { l with retired := l.retired + 1 }
    | none => s2

def execJobRetire (crew : Nat) (s : State) : Out :=
  match FMap.find s.crews crew with
  | some c => .next (if s.jobDone c then s.retireJob crew c else s)
  | none => .next s

/-- The status with which a head launch completes now, if it does. -/
def State.finalStatus (s : State) (l : Launch) : Option Nat :=
  if !l.valid then some 1
  else
    match l.status with
    | some st => some st
    | none =>
      if l.next = 0 ∧ s.launchReady l = false then none
      else if l.next = 0 ∧ s.launchSkipped l = true then some 3
      else if l.retired + l.killed = l.jobs then some 0
      else none

/-- The completion record of an event (24 R387); the cycles and the mean frequency, and the throttled cycles by reason, are
free values. -/
def State.record (s : State) (e st : Nat) (l : Launch) : List Byte :=
  let free (k : Nat) : Nat := (Config.freeWord (s.free + k)).toNat
  let middle := natBytes l.retired 4 ++ natBytes l.energy 8 ++ natBytes (free 0) 8 ++ natBytes (free 1) 4 ++
    natBytes (s.posted.filter fun p => p.launch == e).length 4 ++ ((List.range 5).flatMap fun i => natBytes (free (2 + i)) 8) ++
    natBytes l.filler 8 ++ List.replicate 48 0
  natBytes e 2 ++ natBytes st 1 ++ [if l.frame.isEmpty then 0 else 1] ++
    (if st = 1 ∨ st = 3 ∨ l.jobs = 0 then List.replicate 124 0 else middle) ++
    (l.frame ++ List.replicate (128 - l.frame.length) 0)

/-- Bytes stored at their home in device memory. -/
def State.homeBytes (s : State) (a : Nat) (bs : List Byte) : State :=
  bs.zipIdx.foldl (fun s b => s.homeWrite (a + b.2) b.1) s

/-- R167. A launch completes: its record, its event, and the next launch of its stream becomes head. -/
def State.completeLaunch (s : State) (e st : Nat) (l : Launch) : State :=
  let s1 := { s.homeBytes (s.crbase.toNat + e * 256) (s.record e st l) with free := s.free + 7 }
  let s2 := { s1 with
    events := FMap.put s1.events e (some st)
    launches := FMap.del s1.launches e
    posted := s1.posted.map fun (p : Posted) => if p.launch = e then { p with launch := 0xFFFF } else p }
  let s3 := s2.setDie l.die { s2.die l.die with
    cohorts := ((s2.die l.die).cohorts.map fun x => (x.1, x.2.filter (· != e))).filter fun x => !x.2.isEmpty }
  match s3.streamAt l.die l.stream with
  | some q => s3.setStream l.die l.stream { q with queue := q.queue.filter (· != e) }
  | none => s3

def execLaunchCompletion (die stream : Nat) (s : State) : Out :=
  match s.headOf die stream with
  | some (e, l) =>
    match s.finalStatus l with
    | some st => .next (s.completeLaunch e st l)
    | none => .next s
  | none => .next s

/-! ### Management requests (22 R374, R375) -/

/-- R374. Management request 1: bind a stream, with the images of local store and scratchpad that its jobs start with (07 R140, 09
R169). That the images come with this request, one pair for a stream, is the model's (DESIGN CHOICE, log entry 116). -/
def execBindStream (die stream cls : Nat) (asid : BitVec 16) (root : Word) (pool : List Word) (lstore spad : List Byte)
    (s : State) : Out :=
  s.managed fun s =>
    if 4 ≤ die ∨ 64 ≤ stream ∨ 4 ≤ cls then s.answered 1 []
    else if (s.streamAt die stream).isSome then s.answered 2 []
    else
      (s.setStream die stream {
        cls := cls, asid := asid, root := root, pool := pool, lstore := lstore, spad := spad, queue := [],
        debugger := false, ib := Vector.replicate 4 0, dw := Vector.replicate 2 0 }).answered 0 []

/-- A die without a debugged stream keeps no signals (20 R362). -/
def State.dropSignals (s : State) (die : Nat) (debugged : Bool) : State :=
  if debugged then s.setDie die { s.die die with signals := [] } else s

/-- R374. Management request 2: unbind a stream that holds no launch. -/
def execUnbindStream (die stream : Nat) (s : State) : Out :=
  s.managed fun s =>
    if 4 ≤ die ∨ 64 ≤ stream then s.answered 1 []
    else
      match s.streamAt die stream with
      | none => s.answered 1 []
      | some st =>
        if st.queue.isEmpty then
          ({ s with streams := FMap.del s.streams (streamKey die stream) }.dropSignals die st.debugger).answered 0 []
        else s.answered 2 []

/-- R375. Management request 9: release events whose launches have completed. -/
def execReleaseEvents (die first count : Nat) (s : State) : Out :=
  s.managed fun s =>
    if 4 ≤ die ∨ count = 0 ∨ 256 < count ∨ first < die * 16384 ∨ (die + 1) * 16384 < first + count ∨ 0xFFFF < first + count then
      s.answered 1 []
    else
      let done := ((List.range count).map (first + ·)).filter fun e =>
        match FMap.find s.events e with | some (some _) => true | _ => false
      let s1 := done.foldl (fun s e =>
        { s.homeBytes (s.crbase.toNat + e * 256) (List.replicate 256 0) with events := FMap.del s.events e }) s
      s1.answered 0 (natBytes done.length 2)

end Sys2Proof.Machine
end

