-- ==== Sys2Proof/Machine/Ferry.lean ====
section
/-!
DEFINITION. Page ownership and upcalls (19 R342 to R348), the runtime's and firmware's calls (19 R334), what a cluster cache
does by itself (13 R229, R233), and results and branches that resolve (02 R42, 15 R281).
-/
namespace Sys2Proof.Machine
open Sys2Proof

/-! ### Upcalls (19 R345) -/

/-- The state of an upcall strand that serves context `q.ctx` of a core. -/
def State.upcallStrand (s : State) (core : Nat) (q : UpcallReq) : Strand :=
  let x : StrandId := ⟨core, q.ctx⟩
  let t := s.strand x
  let u : Strand := { s.newStrand ⟨core, 11⟩ (t.upcall &&& 0xFFFFFFFFFFFFE) with
    cls := t.cls
    vbase := t.vbase
    vcount := t.vcount
    upcallFor := some q.ctx }
  (((u.putS 1 q.addr).putS 2 (s.boundDesc x)).putS 3
    (BitVec.ofNat 64 (q.request.toNat + q.cls % 256 * 2 ^ 16 + q.code % 256 * 2 ^ 24))).putS 4 t.pc

/-- R345. The upcall strand of a core starts for the oldest fault that waits, when context 11 is free. -/
def execUpcallStart (core : Nat) (s : State) : Out :=
  match (s.core core).upcalls with
  | [] => .next s
  | q :: rest =>
    if (s.strand ⟨core, 11⟩).live then .next s
    else .next ((s.setStrand ⟨core, 11⟩ (s.upcallStrand core q)).onCore core fun c => { c with upcalls := rest })

/-! ### The page ferry (19 R342, R343, R348) -/

/-- The entry at which a walk of an address stops: its place, and the bits of the page that it maps. -/
def State.entryAddr (s : State) (va : Nat) : List (Nat × Nat × Bool × Bool) → Nat → Option (Nat × Nat)
  | [], _ => none
  | (lo, w, _, _) :: rest, table =>
    let a := table + (va / 2 ^ lo % 2 ^ w) * 8
    let e := s.entryAt a
    if pteValid e && !pteLeaf e then s.entryAddr va rest (pteAddr e) else some (a, lo)

/-- The device address of a page (13 R225), and its 64 KiB frames. -/
def pageAddr (e : Word) : Nat := onDie (pteHome e) (pteAddr e)
def frames (e : Word) (bits : Nat) : List Nat := (List.range (2 ^ (bits - 16))).map fun i => pageAddr e / 2 ^ 16 + i

/-- The number of the first byte of a page (13 R233). -/
def pageKey (e : Word) : Nat := (if pteRep e then 2 ^ 59 else 0) + pageAddr e

/-- The copies of a page in the other dies' HBM are those of its primary, as it comes back to the device (13 R233). -/
def State.replicate (s : State) (e : Word) (bits : Nat) : State :=
  if !pteRep e then s
  else
    let inside (d a : Nat) : Bool := decide (onDie d (pageAddr e) ≤ a) && decide (a < onDie d (pageAddr e) + 2 ^ bits)
    let others := (List.range 4).filter (· != pteHome e)
    { s with
      mem := others.foldl (fun m d => (s.mem.filter fun x => inside (pteHome e) x.1).foldl (fun m x =>
        Memory.write m (onDie d x.1) x.2) (m.filter fun x => !inside d x.1)) s.mem }

/-- Every frame has stood on its side for 16 µs (325 wall ticks), if it ever moved. -/
def State.settled (s : State) (fs : List Nat) : Bool :=
  fs.all fun f => match FMap.find s.sides f with | some x => decide (325 ≤ (s.wallTide - x.2).toNat) | none => true

/-- Note the side that frames moved to; the host's requests for them are met. -/
def State.noteSide (s : State) (fs : List Nat) (host : Bool) : State :=
  { s with
    sides := fs.foldl (fun m f => FMap.put m f (host, s.wallTide)) s.sides
    asked := if host then s.asked.filter fun f => !fs.contains f else s.asked }

/-- Store a table entry at its home. -/
def State.putEntry (s : State) (a : Nat) (e : Word) : State :=
  (List.range 8).foldl (fun s k => s.homeWrite (a + k) (byteOf e.toNat k)) s

/-- A waiting request is for the page of an address in an address space. -/
def State.asksFor (s : State) (root va : Word) (bits : Nat) (r : FlipReq) : Bool :=
  let own := match FMap.find s.crews r.crew with
    | some c => c.root == root
    | none => match FMap.find s.saved r.crew with | some v => v.crew.root == root | none => false
  own && r.va.toNat / 2 ^ bits == va.toNat / 2 ^ bits

/-- The completion notice of a request (19 R348); a pre-empted job's waits with its image. -/
def State.postNotice (s : State) (r : FlipReq) (refused : Bool) : State :=
  let hdr := deviceHeader r.cls.toNat 24 0xFFFD 0xFFD
  let args := natBytes r.va.toNat 8 ++ natBytes r.request.toNat 2 ++ [if refused then 1 else 0] ++ natBytes r.who.ctx 1 ++
    natBytes 0 4 ++ natBytes r.desc.toNat 8
  let n : Notice := ⟨r.who.ctx, r.request, refused, r.va, r.wr⟩
  match FMap.find s.saved r.crew with
  | some v =>
    { s with saved := FMap.put s.saved r.crew { v with
        transit := v.transit ++ [⟨messageBits r.who hdr args, none, r.who.core, none, none, some r.crew, some n, none, 0⟩] } }
  | none => s.postLanding r.who r.who.core hdr args (some n)

/-- A strand that a deterministic launch holds for a page goes on (19 R349). -/
def Strand.pageBack (t : Strand) (va : Word) (bits : Nat) : Strand :=
  match t.wait with
  | .page a => if a.toNat / 2 ^ bits = va.toNat / 2 ^ bits then { t with wait := .free } else t
  | _ => t

def State.releasePage (s : State) (root va : Word) (bits : Nat) : State :=
  { s with
    strands := s.strands.map fun e =>
      match s.crewOf (e.1 / 16) with
      | some c => if c.root = root then (e.1, e.2.pageBack va bits) else e
      | none => e
    saved := s.saved.map fun e =>
      if e.2.crew.root = root then
        (e.1, { e.2 with strands := e.2.strands.map fun x => (x.1, x.2.pageBack va bits) })
      else e }

/-- The requests for a page get their notices. -/
def State.noticeAll (s : State) (root va : Word) (bits : Nat) (refused : Bool) : State :=
  let rs := s.flips.filter fun r => s.asksFor root va bits r
  rs.foldl (fun s r => s.postNotice r refused) { s with flips := s.flips.filter fun r => !s.asksFor root va bits r }

/-- Every cluster cache as the release and acquire of system scope of a flip leave it (19 R342). -/
def State.syncCaches (s : State) : State :=
  (s.clusters.map (·.1)).foldl (fun s c => (s.writeBack c).dropClean c) s

/-- A flip toward the device; a page that the host keeps is refused to its requesters. -/
def State.flipIn (s : State) (refused : Bool) (root va : Word) : State :=
  match s.entryAddr va.toNat levels root.toNat with
  | none => s
  | some (a, bits) =>
    let e := s.entryAt a
    if pteValid e || !pteFerry e then s
    else if refused then s.noticeAll root va bits true
    else if !s.settled (frames e bits) then s
    else
      ((((s.syncCaches.replicate e bits).putEntry a ((e ||| (1 : Word) <<< 63) &&& ~~~((1 : Word) <<< 58))).noteSide
        (frames e bits) false).releasePage root va bits).noticeAll root va bits false

/-- Drop translations from every TLB of the device (19 R341). -/
def State.dropTlb (s : State) (keep : TlbEntry → Bool) : State :=
  { s with
    clusters := s.clusters.map fun e => (e.1, { e.2 with tlb := e.2.tlb.filter keep })
    cores := s.cores.map fun e => (e.1, { e.2 with itlb := e.2.itlb.filter keep, dtlb := e.2.dtlb.filter keep }) }

/-! ### Accesses translated before (19 R341, R343) -/

/-- A request of a deterministic launch whose access a test picks is performed now; what it answers waits for the quantum
end. -/
def State.performReq (s : State) (w : StrandId) (pick : Word → Loc → Bool) (r : Req) : State × Req :=
  match r with
  | .atomic d op n va (some l) v cmp =>
    if !pick va l then (s, r)
    else
      let x := s.atomicAt w.core op n l (v.toNat % 2 ^ (8 * n)) (cmp.toNat % 2 ^ (8 * n))
      (x.1, if op = 0xB#5 then .lanes [] 0 else .answer d (atomicExt op n x.2))
  | .timed d op va (some l) now lane =>
    if !pick va l then (s, r)
    else
      let x := s.timedAt w op va l now lane
      (x.1, match d with | some d => .answer d x.2.2 | none => .lanes [] 0)
  | .lanes ws now =>
    let q := ws.foldl (fun (q : State × List (Nat × Word × Option Loc × BitVec 32)) e =>
      match e.2.2.1 with
      | some l =>
        if pick e.2.1 l then ((q.1.timedAt w (.add (e.2.2.2.setWidth 64)) e.2.1 l now e.1).1, q.2) else (q.1, q.2 ++ [e])
      | none => (q.1, q.2 ++ [e])) (s, [])
    (q.1, .lanes q.2 now)
  | .mark va l now lane => if pick va l then ((s.timedAt w .read va l now lane).1, .lanes [] 0) else (s, r)
  | r => (s, r)

/-- The accesses of a deterministic crew that it translated before are performed: those of its requests that a test picks, in
serving order, and the bytes of its wake buffers that another picks, which its tasks go on to see as before (log entry 93). -/
def State.performEarly (s : State) (k : Nat) (pick : Word → Loc → Bool) (byte : Nat → Bool) : State :=
  match FMap.find s.crews k with
  | none => s
  | some c =>
    let q := c.requests.foldl (fun (q : State × List ReqItem) r =>
      let x := q.1.performReq r.who pick r.req
      (x.1, q.2 ++ [{ r with req := x.2 }])) (s, [])
    let now := (c.wake.map c.unapplied).map fun e => (e.1, e.2.filter fun x => byte x.1)
    let s1 := q.1.applyEarly k now
    match FMap.find s1.crews k with
    | none => s1
    | some c1 => s1.setCrew k { c1 with requests := q.2 }

/-- A change made to a pre-empted job as if it stood on the cores that it last had; what is posted for it waits with its
image. -/
def State.asBound (s : State) (k : Nat) (v : Saved) (f : State → State) : State :=
  let hold (s : State) (crew : Nat → Option Nat) : State :=
    v.crew.cores.foldl (fun s c => s.onCore c fun x => { x with crew := crew c }) s
  let s1 := f (hold (s.setCrew k { v.crew with det := false }) fun _ => some k)
  let mine (m : Message) : Bool := m.crew == some k
  let c1 := (FMap.find s1.crews k).getD v.crew
  { hold s1 fun c => (s.core c).crew with
    crews := FMap.del s1.crews k
    transit := s1.transit.filter fun m => !mine m
    saved := FMap.put s1.saved k { v with
      crew := { c1 with det := v.crew.det }
      transit := v.transit ++ s1.transit.filter mine } }

/-- The same for every deterministic crew, those of pre-empted jobs among them, with tests of the crew. -/
def State.performAll (s : State) (pick : Crew → Word → Loc → Bool) (byte : Crew → Nat → Bool) : State :=
  let s1 := (s.crews.filter (·.2.det)).foldl (fun s e => s.performEarly e.1 (pick e.2) (byte e.2)) s
  (s.saved.filter (·.2.crew.det)).foldl (fun s e =>
    s.asBound e.1 e.2 fun s => s.performEarly e.1 (pick e.2.crew) (byte e.2.crew)) s1

/-- An issued chain instruction will access a place that a test picks when its instance joins. -/
def ChainIssue.holds (i : ChainIssue) (pick : Word → Loc → Bool) : Bool :=
  (i.places.any fun e => (e.2.map (pick (BitVec.ofNat 64 (e.1 * 64)))).getD false) ||
    match i.op with
    | .mass _ _ _ info _ words => words.any fun e => (e.2.map (pick (info + BitVec.ofNat 64 (16 * e.1)))).getD false
    | _ => false

/-- Some crew has such an instruction. Its accesses are performed as its instance joins, and what drops its translations waits for
that (DESIGN CHOICE, log entry 108). -/
def State.chained (s : State) (pick : Crew → Word → Loc → Bool) : Bool :=
  s.rows.any fun e => e.2.queues.toList.flatten.any fun i =>
    ((s.crewOf i.who.core).map fun c => i.holds (pick c)).getD false

/-- A flip toward the host: the accesses translated before, the entry, the translations, the caches; the page stays in place
as a remap. -/
def State.flipOut (s : State) (root va : Word) : State :=
  match s.entryAddr va.toNat levels root.toNat with
  | none => s
  | some (a, bits) =>
    let e := s.entryAt a
    let lo := pageKey e
    let inside (key : Nat) : Bool := decide (lo ≤ key) && decide (key < lo + 2 ^ bits)
    if !pteValid e || !pteLeaf e || pteTgt e != 0#2 || !s.settled (frames e bits) then s
    else if s.chained fun _ _ l => inside l.key then s
    else
      let s0 := s.performAll (fun _ _ l => inside l.key) fun _ => inside
      let s1 := s0.syncCaches.putEntry a ((e &&& ~~~((1 : Word) <<< 63)) ||| (1 : Word) <<< 58)
      let s2 := s1.dropTlb fun t => va.toNat / 2 ^ t.bits != t.page
      let s3 := (s2.clusters.map (·.1)).foldl (fun s c => s.flushLines c lo (lo + 2 ^ bits)) s2
      s3.noteSide (frames e bits) true

/-- R342. The page ferry moves a page to the device, or to the host. -/
def execPageFlip (toDevice refused : Bool) (root : Word) (va : Word) (s : State) : Out :=
  .next (if toDevice then s.flipIn refused root va else if refused then s else s.flipOut root va)

/-! ### Cluster caches (13 R229, R233) -/

/-- R229. A cluster cache evicts a line: its dirty bytes go to their home. -/
def execCacheEviction (cluster line : Nat) (s : State) : Out := .next (s.evictLine cluster line)

/-- R233. The primary commits the dirty bytes that a cluster writes back of a line of a replicated page; they become
clean. The lock, the update of the four copies and their acknowledgements are one step: no read falls between them (R234,
log entry 79). -/
def execReplicaCommit (cluster line : Nat) (s : State) : Out :=
  .next (match FMap.find (s.cluster cluster).cache line with
    | some l => if l.rep then s.commitLine cluster line else s
    | none => s)

/-! ### Calls (19 R334) -/

/-- A strand is in the handler of level `v` for a system call of a number. -/
def State.inCall (s : State) (w : StrandId) (v number : Nat) : Bool :=
  let t := s.strand w
  let f := s.frameAddr w v
  t.live && t.pl.toNat == v + 1 && (s.devWord w f).extractLsb' 56 8 == 17#8 && s.devWord w (f + 40) == BitVec.ofNat 64 number

/-- An argument of a call, and its result in s1. -/
def State.callArg (s : State) (w : StrandId) (n : BitVec 4) : Word := (s.strand w).getS n
def State.callResult (s : State) (w : StrandId) (r : Word) : State := s.writeNow w (.s 1) (r.setWidth 2048) (BitVec.allOnes 2048)

/-- Where the words of a region of window space lie, as the core that registered it reaches them. -/
def State.regionKeys (s : State) (r : Region) : List Nat :=
  match s.regionCore r with
  | none => []
  | some c =>
    (List.range (r.len / 16)).filterMap fun i =>
      match s.window c (r.base + 16 * i - Config.windowBase) with
      | .place l => some l.key
      | _ => none

/-- Two regions share a word: addresses of one address space, or bytes of storage. -/
def State.regionsMeet (s : State) (a b : Region) : Bool :=
  if a.base < Config.windowBase ∧ b.base < Config.windowBase then
    a.root == b.root && decide (a.base < b.base + b.len) && decide (b.base < a.base + a.len)
  else if Config.windowBase ≤ a.base ∧ Config.windowBase ≤ b.base then (s.regionKeys a).any (s.regionKeys b).contains
  else false

/-- A registered region begins at the address that another names, in its address space or in its storage. -/
def State.sameBase (s : State) (x r : Region) : Bool :=
  x.base == r.base &&
    if r.base < Config.windowBase then x.root == r.root
    else (x.crew == r.crew && x.index == r.index) || (s.regionKeys x).head? == (s.regionKeys { r with len := 16 }).head?

/-- The region that a call names; an owner core above 0xFFFF is taken modulo 65,536 (DESIGN CHOICE, log entry 89). -/
def State.regionOf (s : State) (w : StrandId) : Region :=
  let owner := (s.callArg w 3).toNat
  let a := s.agent w
  { base := (s.callArg w 1).toNat
    len := (s.callArg w 2).toNat
    owner := if owner = 0xFFFF then some w.core else if owner = 0xFFFE then none else some (owner % 65536)
    crew := (s.core w.core).crew.getD 0
    index := (s.core w.core).index
    root := a.root.getD 0
    asid := a.asid }

/-- A well-formed region: a run of timed words inside the virtual space; one of no word is refused (DESIGN CHOICE, log entry
89). -/
def Region.ok (r : Region) : Bool :=
  r.base % 16 == 0 && r.len % 16 == 0 && r.len != 0 && decide (r.base + r.len ≤ 2 ^ 52)

/-- R334. Call 0x010 registers a timed region. -/
def execRegisterTimedRegion (who : StrandId) (s : State) : Out :=
  .next (if !s.inCall who 0 0x010 then s
    else
      let r := s.regionOf who
      if 1024 ≤ s.regions.length then s.callResult who 1
      else if !r.ok || s.regions.any (s.regionsMeet r) then s.callResult who 2
      else ({ s with regions := s.regions ++ [r] }).callResult who 0)

/-- R334. Call 0x011 withdraws a timed region. -/
def execWithdrawTimedRegion (who : StrandId) (s : State) : Out :=
  .next (if !s.inCall who 0 0x011 then s
    else
      let r := s.regionOf who
      match s.regions.find? fun x => s.sameBase x r with
      | some x => ({ s with regions := s.regions.erase x }).callResult who 0
      | none => s.callResult who 2)

/-- A place in translated memory. -/
def translatedKey (key : Nat) : Bool := !realKey key

/-- The translations that the TLBs of the device hold. -/
def State.translations (s : State) : List TlbEntry :=
  s.clusters.flatMap (·.2.tlb) ++ s.cores.flatMap fun e => e.2.itlb ++ e.2.dtlb

/-- The bits of the page of an address in an address space: of the largest that a TLB or a table has for it, one of the space
or a global one. -/
def State.pageBits (s : State) (asid : BitVec 16) (va : Nat) : Nat :=
  let walked := (s.crews.map (·.2) ++ s.saved.map (·.2.crew)).any fun c =>
    match s.walk va levels c.root.toNat with
    | .leaf e bits => bits == 21 && (c.asid == asid || pteGlobal e)
    | .fail _ => false
  if walked || s.translations.any fun t => t.covers asid va && t.bits == 21 then 21 else 16

/-- An access of a crew may have been translated by an entry of an address space: the crew's own, or a global one, which serves
every space (19 R338). It may have been global where the crew's own table has a global entry for the address now, or none, or
where a TLB holds one (DEDUCED, log entry 93). -/
def State.servedBy (s : State) (asid : BitVec 16) (c : Crew) (va : Word) : Bool :=
  c.asid == asid ||
    (match s.walk va.toNat levels c.root.toNat with | .leaf e _ => pteGlobal e | .fail _ => true) ||
    s.translations.any fun t => pteGlobal t.entry && t.maps va

/-- The bytes that a crew's tasks keep may have been translated so, by a global entry that a test picks: they are known by their
places alone. -/
def State.keptBy (s : State) (asid : BitVec 16) (lent : TlbEntry → Bool) (c : Crew) (key : Nat) : Bool :=
  translatedKey key && (c.asid == asid || s.translations.any fun t => pteGlobal t.entry && lent t)

/-- R334, R341. Call 0x800 drops a page's translations, once the accesses that used them are performed. -/
def execDropPageTranslations (who : StrandId) (s : State) : Out :=
  .next (if !s.inCall who 1 0x800 then s
    else
      let asid : BitVec 16 := (s.callArg who 1).setWidth 16
      let va := (s.callArg who 2).toNat
      let bits := s.pageBits asid va
      let pick (c : Crew) (a : Word) (l : Loc) : Bool :=
        translatedKey l.key && a.toNat / 2 ^ bits == va / 2 ^ bits && s.servedBy asid c a
      if s.chained pick then s
      else
        let s1 := s.performAll pick (s.keptBy asid fun t => t.maps (BitVec.ofNat 64 va))
        (s1.dropTlb fun t => !((t.asid == asid || pteGlobal t.entry) && t.page == va / 2 ^ t.bits)).callResult who 0)

/-- R334, R341. Call 0x801 drops every translation of an address space, once the accesses that used them are performed. -/
def execDropAsidTranslations (who : StrandId) (s : State) : Out :=
  .next (if !s.inCall who 1 0x801 then s
    else
      let asid : BitVec 16 := (s.callArg who 1).setWidth 16
      let pick (c : Crew) (a : Word) (l : Loc) : Bool := translatedKey l.key && s.servedBy asid c a
      if s.chained pick then s
      else
        let s1 := s.performAll pick (s.keptBy asid fun t => t.asid == asid)
        (s1.dropTlb fun t => t.asid != asid).callResult who 0)

/-- R334, R350. Call 0x802 pre-empts the job whose placement begins at a core. -/
def execPreemptJob (who : StrandId) (s : State) : Out :=
  .next (if !s.inCall who 1 0x802 then s
    else
      let first := (s.callArg who 1).toNat
      match s.crews.find? fun e => e.2.cores.head? == some first with
      | some e => (s.callResult who 0).preempt e.1
      | none => s.callResult who 1)

/-! ### Results and branches (02 R42, 15 R281) -/

/-- R42. A variable-latency result arrives. -/
def execResultDelivery (who : StrandId) (reg : Reg) (s : State) : Out :=
  .next (s.deliver who fun e => e.due.isNone && e.reg == reg)

/-- The condition of a branch (04 R76). -/
def branchTaken (cond : Nat) (a b : Word) : Bool :=
  match cond with
  | 0 => a == b
  | 1 => a != b
  | 2 => sLess a b
  | 3 => !sLess a b
  | 4 => wLess a b
  | 5 => !wLess a b
  | 6 => (a &&& b) != 0
  | _ => (a &&& b) == 0

/-- R281. A branch that a slipway ran ahead of resolves: its sources arrive, and on the predicted arm the halfwords taken
issue behind it; on the other they are discarded. -/
def execSlipwayResolve (who : StrandId) (s : State) : Out :=
  match (s.strand who).branch with
  | none => .next s
  | some b =>
    let s1 := s.deliver who fun e => e.due.isNone && (e.reg == .s b.a || e.reg == .s b.b)
    let t := s1.strand who
    let held := t.slipway.flatMap fun e => e.ir.zipIdx.map fun h => (e.pc + BitVec.ofNat 64 (2 * h.2), h.1)
    .next (s1.onStrand who fun t =>
      { t with
        branch := none
        slipway := []
        fetched := if branchTaken b.cond (t.getS b.a) (t.getS b.b) = b.taken then t.fetched ++ held else t.fetched })

end Sys2Proof.Machine
end

