-- ==== Sys2Proof/Machine/Yelik.lean ====
section
/-!
DEFINITION. The debugger (20): attaching, holding and resuming crews, stepping, breakpoints and watchpoints, what a request
reads and writes of a halted strand, and the signal ring.
-/
namespace Sys2Proof.Machine
open Sys2Proof

/-! ### Attaching (20 R356) -/

/-- The crews of a stream, resident and pre-empted, changed. -/
def State.onStreamCrews (s : State) (key : Nat) (f : Crew → Crew) : State :=
  { s with
    crews := s.crews.map fun e => if e.2.stream = key then (e.1, f e.2) else e
    saved := s.saved.map fun e => if e.2.crew.stream = key then (e.1, { e.2 with crew := f e.2.crew }) else e }

/-- The live strands of a stream's jobs, resident and pre-empted, changed. -/
def State.onStreamStrands (s : State) (key : Nat) (f : Nat → Strand → Strand) : State :=
  { s with
    strands := s.strands.map fun e =>
      match s.crewOf (e.1 / 16) with
      | some c => if c.stream = key ∧ e.2.live = true then (e.1, f (e.1 / 16) e.2) else e
      | none => e
    saved := s.saved.map fun e =>
      if e.2.crew.stream = key then
        (e.1, { e.2 with strands := e.2.strands.map fun x =>
          if x.2.live then (x.1, f ((coreAt e.2.crew.rows (x.1 / 16)).getD 0) x.2) else x })
      else e }

/-- R356. The runtime attaches a debugger to a stream; one stream at a time. -/
def execDebuggerAttach (die stream : Nat) (s : State) : Out :=
  match s.streamAt die stream with
  | none => .next s
  | some st =>
    if s.streams.any fun e => e.2.debugger then .next s
    else
      .next ((s.setStream die stream { st with debugger := true }).onStreamCrews (streamKey die stream) fun c =>
        { c with debugger := true })

/-- A strand that no debugger holds. -/
def Strand.freed (t : Strand) : Strand :=
  { t with
    halted := false
    settling := false
    stepping := none
    stepped := false
    reported := none
    ib := Vector.replicate 4 0
    dw := Vector.replicate 2 0 }

/-- R356, R362. The debugger detaches: its breakpoints and watchpoints are cleared, held strands go on, and the die's
signal ring is emptied when no stream of the die has a debugger. -/
def execDebuggerDetach (die stream : Nat) (s : State) : Out :=
  match s.streamAt die stream with
  | none => .next s
  | some st =>
    if !st.debugger then .next s
    else
      let key := streamKey die stream
      let s1 := s.setStream die stream { st with debugger := false, ib := Vector.replicate 4 0, dw := Vector.replicate 2 0 }
      let s2 := (s1.onStreamStrands key fun _ t => t.freed).onStreamCrews key fun c =>
        { c with debugger := false, held := false }
      let other := s2.streams.any fun e => e.1 / 64 == die && e.2.debugger
      .next (if other then s2 else s2.setDie die { s2.die die with signals := [] })

/-! ### Holding and stepping (20 R357, R363) -/

/-- A debugger holds a strand, which is not in a step and has come to where the hold stops it (20 R357, R363, R364). -/
def State.still (s : State) (w : StrandId) : Bool :=
  (s.strand w).halted && (s.strand w).stepping.isNone && !s.settles w

/-- A request to a strand that is not halted is refused (20 R364). -/
def State.onHalted (s : State) (w : StrandId) (k : State → State) : Out :=
  .next (if (s.strand w).live && s.still w then k s else s.answered 2 [])

/-- A read is refused only while the strand runs: a context that is not live shows its last values (01 R9, 20 R364). -/
def State.onStill (s : State) (w : StrandId) (k : State → State) : Out :=
  .next (if !(s.strand w).live || s.still w then k s else s.answered 2 [])

/-- Change every live strand of the crew of a core. -/
def State.onCrewStrands (s : State) (core : Nat) (f : Strand → Strand) : State :=
  match s.crewOf core with
  | none => s
  | some c =>
    { s with strands := s.strands.map fun e =>
        if c.cores.contains (e.1 / 16) && e.2.live then (e.1, f e.2) else e }

/-- R364. Op 1 holds a crew, and ends a step that is not over. -/
def execYelikHold (who : StrandId) (s : State) : Out :=
  match (s.core who.core).crew with
  | some k =>
    .next (if s.debugged who.core then
        ((s.holdCrew k).onCrewStrands who.core fun t => { t with stepping := none, stepped := false }).answered 0 []
      else s.answered 2 [])
  | none => .next (s.answered 2 [])

/-- R364. Op 2 resumes a held crew. -/
def execYelikResume (who : StrandId) (s : State) : Out :=
  s.onHalted who fun s =>
    ((s.onCrewStrands who.core fun t =>
      { t with halted := false, settling := false, stepping := none, stepped := false }).onCrew who.core
      fun c => { c with held := false }).answered 0 []

/-- The strand that a step releases: in a deterministic launch the one that holds the core's turn. -/
def State.stepped (s : State) (w : StrandId) : StrandId :=
  if s.coreDet w.core then match s.turnHolder w.core with | some x => ⟨w.core, x⟩ | none => w else w

/-- A step keeps the other strands held (20 R363): one that could not go on to the end of its pass is held where it stands. -/
def State.keepHeld (s : State) (core : Nat) : State :=
  match s.crewOf core with
  | none => s
  | some c =>
    { s with strands := s.strands.map fun e =>
        if c.cores.contains (e.1 / 16) && e.2.settling && !s.settles ⟨e.1 / 16, e.1 % 16⟩ then (e.1, { e.2 with settling := false })
        else e }

/-- R363. Op 3 releases one held strand for one instruction, a raft whole; a raft with a member that has not come to its halt
yet runs, and the request is refused. -/
def execYelikStep (who : StrandId) (s : State) : Out :=
  s.onHalted who fun s =>
    let ws := s.members (s.stepped who)
    if !ws.all s.still then s.answered 2 []
    else
      (ws.foldl (fun s w => s.onStrand w fun t =>
        { t with settling := false, stepping := some t.pl, stepped := false, reported := none })
        (s.keepHeld who.core)).answered 0 []

/-- A stepped strand has come to its halt: it has issued, its stall slots have passed, and no handler of a trap that it took
runs. -/
def Strand.stepOver (t : Strand) : Bool :=
  match t.stepping with
  | some l => t.stepped && t.hold == 0 && decide (t.pl.toNat ≤ l.toNat)
  | none => false

/-- R363. A stepped strand halts with class 18, code 4. -/
def execStepHalt (who : StrandId) (s : State) : Out :=
  .next (if !(s.strand who).stepOver then s
    else
      s.onStrand who fun t =>
        { t with
          stepping := none
          stepped := false
          reported := match t.wait with
            | .held => t.reported
            | _ => some (t.report (trapOf 18 4)) })

/-! ### Breakpoints (20 R358) -/

/-- The bits of a breakpoint and of a watchpoint that are not reserved. -/
abbrev ibMask : Word := 0x800FFFFFFFFFFFFE
abbrev dwMask : Word := 0xFC0FFFFFFFFFFFFF

def Strand.setBreak (t : Strand) (idx : Nat) (v : Word) : Strand :=
  if h : idx < 4 then { t with ib := t.ib.set idx (v &&& ibMask) h }
  else if h : idx - 4 < 2 then { t with dw := t.dw.set (idx - 4) (v &&& dwMask) h } else t

def Stream.setBreak (st : Stream) (idx : Nat) (v : Word) : Stream :=
  if h : idx < 4 then { st with ib := st.ib.set idx (v &&& ibMask) h }
  else if h : idx - 4 < 2 then { st with dw := st.dw.set (idx - 4) (v &&& dwMask) h } else st

/-- R358, R364. Op 6 sets a breakpoint or watchpoint for a stream, or for the strands of one core. -/
def execYelikSetBreak (die stream : Nat) (core : Option Nat) (idx : Nat) (value : Word) (s : State) : Out :=
  match s.streamAt die stream with
  | none => .next (s.answered 1 [])
  | some st =>
    if !st.debugger then .next (s.answered 2 [])
    else if 6 ≤ idx then .next (s.answered 1 [])
    else
      let s1 := if core.isNone then s.setStream die stream (st.setBreak idx value) else s
      .next ((s1.onStreamStrands (streamKey die stream) fun c t =>
        if core.isNone || core == some c then t.setBreak idx value else t).answered 0 [])

/-! ### Reading and writing (20 R364) -/

/-- The vector with one place set. -/
def setAt {α : Type} {n : Nat} (v : Vector α n) (i : Nat) (x : α) : Vector α n := if h : i < n then v.set i x h else v

/-- The number of a register among those that a debugger reads. -/
def regNumber : Reg → Nat
  | .s n => n.toNat
  | .f n => 16 + n.toNat
  | .p n => 24 + n.toNat
  | .v n => 48 + n.toNat

/-- A pending result: its register, the slots left, or all ones while it has not arrived, its value and its bytes. -/
def pendingBytes (slot : Nat) (e : Pending) : List Byte :=
  natBytes (regNumber e.reg) 1 ++ natBytes (match e.due with | some n => n - slot | none => 255) 1 ++ natBytes e.val.toNat 256 ++
    natBytes e.mask.toNat 256

/-- A repeat frame, or nothing. -/
def frameBytes : Option Frame → List Byte
  | none => []
  | some f => natBytes f.body.toNat 8 ++ natBytes f.len 1 ++ natBytes f.cnt 8 ++ natBytes f.sd 1 ++ natBytes f.sa 1 ++
      natBytes f.sb 1 ++ natBytes f.pass 8 ++ natBytes f.pos 1

/-- A diverted message. -/
def deadBytes (e : Dead) : List Byte :=
  natBytes e.bits.toNat 64 ++ natBytes e.reason.toNat 1 ++ natBytes e.gen.toNat 1 ++ natBytes e.core.toNat 2 ++
    natBytes e.ctx.toNat 1

/-- The bytes of what a number names: s 0 to 15, f 16 to 23, p 24 to 31, q 32 to 39 and their cursors 40 to 47, v 48 to 77,
accumulators 78 to 81, pc 82, message register 83, generation 84, counters 85 to 100, diversion count 101, shadow
registers 102 to 165, the row's shape 166 and joined instances 167, the pending results 168, the frame in progress 169 and
those of the two levels 170 and 171, the dead-letter lane 172, the vector grant 173. The layouts are the model's (DESIGN
CHOICE, log entry 42). -/
def State.debugRead (s : State) (w : StrandId) (n : Nat) : Option (List Byte) :=
  let t := s.strand w
  let c := s.core w.core
  if n < 16 then some (natBytes (t.getS (BitVec.ofNat 4 n)).toNat 8)
  else if n < 24 then some (natBytes (t.getF (BitVec.ofNat 3 n)).toNat 8)
  else if n < 32 then some (natBytes (t.getP (BitVec.ofNat 3 n)).toNat 32)
  else if n < 40 then some (natBytes (t.getQ (BitVec.ofNat 3 n)).toNat 8)
  else if n < 48 then some (natBytes (t.getCursor (BitVec.ofNat 3 n)).toNat 1)
  else if n < 78 then some (natBytes (c.getV (BitVec.ofNat 5 (n - 48))).toNat 256)
  else if n < 82 then some (natBytes (c.getAcc (BitVec.ofNat 2 (n - 78))).toNat 1024)
  else if n = 82 then some (natBytes t.pc.toNat 8)
  else if n = 83 then some (natBytes t.msg.toNat 64)
  else if n = 84 then some (natBytes t.gen.toNat 1)
  else if n < 101 then some (natBytes (c.counters[n - 85]?.getD 0).toNat 8)
  else if n = 101 then some (natBytes c.diverted.toNat 4)
  else if n < 166 then some (natBytes (FMap.getD t.shadow (n - 102) 0).toNat 8)
  else if n = 166 then some [if (s.row (rowOf w.core)).deep then 1 else 0]
  else if n = 167 then some (natBytes (s.row (rowOf w.core)).joined 8)
  else if n = 168 then some (t.pend.flatMap (pendingBytes t.slot))
  else if n = 169 then some (frameBytes t.frame)
  else if n < 172 then some (frameBytes (t.frames[n - 170]?.join))
  else if n = 172 then some (c.dead.flatMap deadBytes)
  else if n = 173 then some (natBytes t.vbase 1 ++ natBytes t.vcount 1)
  else none

/-- What a number of a chain and barrier request names: 0 the row's shape, 1 its joined instances, and 2 to 65 the strands
that have arrived at the barriers of the strand's scopes, 16 for each scope (log entry 42). -/
def State.chainRead (s : State) (w : StrandId) (n : Nat) : Option (List Byte) :=
  let r := s.row (rowOf w.core)
  if n = 0 then some [if r.deep then 1 else 0]
  else if n = 1 then some (natBytes r.joined 8)
  else if n < 66 then
    let key := barrierKey ((n - 2) / 16) (barrierUnit w.core ((n - 2) / 16)) ((n - 2) % 16)
    some (match (s.crewOf w.core).bind fun c => FMap.find c.barriers key with
      | some b => b.arrived.flatMap fun a => natBytes (a.who.core % 65536 * 16 + a.who.ctx) 4
      | none => [])
  else none

/-- The results of a core's strands whose slots have passed stand in their registers. -/
def State.arrived (s : State) (core : Nat) : State :=
  (List.range 12).foldl (fun s c => s.deliver ⟨core, c⟩ (readyFor (s.strand ⟨core, c⟩).slot)) s

/-- Write a register as the strand's next instruction would find it: a write of an s register takes it from a request. -/
def State.debugPut (s : State) (w : StrandId) (n : Nat) (b : List Byte) : Option State :=
  let v (k : Nat) : Nat := fieldOf b 0 k
  let reg (r : Reg) (x : VReg) : Option State := some ((s.unrequest w r).writeNow w r x (BitVec.allOnes 2048))
  if n < 16 then reg (.s (BitVec.ofNat 4 n)) (BitVec.ofNat 2048 (v 8))
  else if n < 24 then reg (.f (BitVec.ofNat 3 n)) (BitVec.ofNat 2048 (v 8))
  else if n < 32 then reg (.p (BitVec.ofNat 3 n)) (BitVec.ofNat 2048 (v 32))
  else if n < 40 then some (s.onStrand w fun t => t.putQ (BitVec.ofNat 3 n) (BitVec.ofNat 64 (v 8)))
  else if n < 48 then some (s.onStrand w fun t => t.putCursor (BitVec.ofNat 3 n) (BitVec.ofNat 6 (v 1)))
  else if n < 78 then reg (.v (BitVec.ofNat 5 (n - 48))) (BitVec.ofNat 2048 (v 256))
  else if n < 82 then some (s.onCore w.core fun c => c.putAcc (BitVec.ofNat 2 (n - 78)) (BitVec.ofNat 8192 (v 1024)))
  else if n = 82 then some (s.onStrand w fun t => { t with pc := BitVec.ofNat 64 (v 8) &&& ~~~(1 : Word) })
  else none

/-- Free bytes, where a layout is not stated. -/
def State.freeBytes (s : State) (n : Nat) : List Byte := (List.range n).map fun k => (Config.freeWord (s.free + k)).setWidth 8

/-- A debugger's access to a byte of a strand's memory is relaxed and of system scope (20 R364): at the home, behind the
write-back of the cluster's line as any access of that scope (14 R248), or in the task's view in a deterministic launch
(DEDUCED, log entry 111). -/
def State.yelikByte (s : State) (w : StrandId) (l : Loc) : Byte :=
  if s.coreDet w.core then s.viewByte w l 0 else s.homeByte w.core l.key

/-- The lines of the bytes that a debugger reads leave the cluster's cache for their homes. -/
def State.yelikHome (s : State) (w : StrandId) (l : Loc) : State := if s.coreDet w.core then s else s.toHome w.core l 1

/-- A byte of memory written by a debugger, which the strand's own fetches find behind its next ifence. -/
def State.yelikPut (s : State) (w : StrandId) (l : Loc) (b : Byte) : State :=
  if s.coreDet w.core then s.viewWrite w l 0 b
  else ((s.keepFetch w l 0).toHome w.core l 1).homeStore w.core l.key b

/-- Before a debugger's read of a space: the write-backs that its accesses make. -/
def State.yelikReach (s : State) (w : StrandId) (space : BitVec 8) (addr : Word) (len : Nat) : State :=
  if space = 2#8 then
    (List.range len).foldl (fun s k =>
      match s.look (s.agent w) .read (addr + BitVec.ofNat 64 k) with
      | .place l => s.yelikHome w l
      | _ => s) s
  else s

/-- What a read of a space finds; a layout that the specification does not state is free bytes. -/
def State.yelikFind (s : State) (w : StrandId) (space : BitVec 8) (addr : Word) (len : Nat) : Option (List Byte) :=
  match space.toNat with
  | 0 => some (((s.arrived w.core).debugRead w (Config.debugRegister addr.toNat)).getD (s.freeBytes len))
  | 1 => if sysAssigned (addr.setWidth 12) ∧ addr.toNat < 4096 then some (natBytes (s.sysRead w (addr.setWidth 12)).toNat 8) else none
  | 2 =>
    (List.range len).mapM fun k =>
      match s.look (s.agent w) .read (addr + BitVec.ofNat 64 k) with
      | .place l => some (s.yelikByte w l)
      | .out => some 0
      | .bad _ _ => none
  | 3 => if addr.toNat < 4 then some (((s.core w.core).lane addr.toNat).flatMap fun m => natBytes m.bits.toNat 64) else none
  | 4 => some ((s.chainRead w (Config.debugChain addr.toNat)).getD (s.freeBytes len))
  | 5 =>
    if addr.toNat < 4 then some (natBytes ((s.strand w).ib[addr.toNat]?.getD 0).toNat 8)
    else if addr.toNat < 6 then some (natBytes ((s.strand w).dw[addr.toNat - 4]?.getD 0).toNat 8)
    else none
  | _ => none

/-- R364. Op 4 reads state of a halted strand, or of a context that is not live. -/
def execYelikRead (who : StrandId) (space : BitVec 8) (addr : Word) (len : Nat) (s : State) : Out :=
  s.onStill who fun s =>
    if len = 0 ∨ 4096 < len then s.answered 1 []
    else
      let s1 := s.yelikReach who space addr len
      match s1.yelikFind who space addr len with
      | some b => { s1.answered 0 (b.take len) with free := s1.free + len }
      | none => s.answered 1 []

/-- Write bytes of memory through a strand's translation, if all of them can be reached. -/
def State.yelikStore (s : State) (w : StrandId) (addr : Word) (b : List Byte) : Option State :=
  let ls := (List.range b.length).map fun k => s.look (s.agent w) .write (addr + BitVec.ofNat 64 k)
  if ls.any fun l => match l with | .bad _ _ => true | _ => false then none
  else
    some ((ls.zip b).foldl (fun s e => match e.1 with | .place l => s.yelikPut w l e.2 | _ => s) s)

/-- R364. Op 5 writes state of a halted strand. -/
def execYelikWrite (who : StrandId) (space : BitVec 8) (addr : Word) (data : List Byte) (s : State) : Out :=
  s.onHalted who fun s =>
    let r := if data.length = 0 ∨ 4096 < data.length then none else match space.toNat with
      | 0 => s.debugPut who (Config.debugRegister addr.toNat) data
      | 1 => if sysAssigned (addr.setWidth 12) ∧ addr.toNat < 4096 then
          some (s.sysWrite who (addr.setWidth 12) (BitVec.ofNat 64 (fieldOf data 0 8)))
        else none
      | 2 => s.yelikStore who addr data
      | 5 => if addr.toNat < 6 then some (s.onStrand who fun t => t.setBreak addr.toNat (BitVec.ofNat 64 (fieldOf data 0 8))) else none
      | _ => none
    match r with
    | some t => t.answered 0 []
    | none => s.answered 1 []

/-- An entry of the signal ring (20 R362). -/
def signalBytes (e : Word × Word × Word) : List Byte :=
  natBytes e.1.toNat 8 ++ natBytes e.2.1.toNat 8 ++ natBytes e.2.2.toNat 4 ++ natBytes 0 4

/-- R362, R364. Op 7 reads whole entries of a die's signal ring, oldest first, and removes them. -/
def execYelikReadSignalRing (die len : Nat) (s : State) : Out :=
  .next (if len = 0 ∨ 4096 < len then s.answered 1 []
    else
      let d := s.die die
      let n := len / 24
      (s.setDie die { d with signals := d.signals.drop n }).answered 0 ((d.signals.take n).flatMap signalBytes))

end Sys2Proof.Machine
end

