-- ==== Sys2Proof/Machine/Peer.lean ====
section
/-!
DEFINITION. The load-store domain (22 R374, R376, R377), the collective engine (22 R380, R381), and accesses that arrive from
the host die and from peer devices (22 R368, R377).
-/
namespace Sys2Proof.Machine
open Sys2Proof

/-! ### Domain and groups (22 R374) -/

/-- R374. Management request 3 sets this device's number, the members of its domain and their routes. -/
def execSetDomain (dev : Nat) (members : List Nat) (routes : List (Nat × Nat)) (s : State) : Out :=
  s.managed fun s =>
    if 64 ≤ dev ∨ members.eraseDups.length ≠ members.length ∨ (members.any fun m => decide (64 ≤ m)) = true ∨
      (routes.any fun r => decide (18 ≤ r.2)) = true then s.answered 1 []
    else { s with domain := some ⟨dev, members, routes⟩ }.answered 0 []

/-- R374. Management request 4 defines a collective group; one that exists is busy. -/
def execDefineGroup (group : Nat) (members : BitVec 64) (lead : Nat) (s : State) : Out :=
  s.managed fun s =>
    if 64 ≤ group ∨ 64 ≤ lead ∨ members.getLsbD lead = false then s.answered 1 []
    else if (FMap.find s.groups group).isSome then s.answered 2 []
    else { s with groups := FMap.put s.groups group ⟨members, lead, [], []⟩ }.answered 0 []

/-- The completion message of a member's contribution, with domain-scope release of the result (22 R381); a contribution of
another device has none here. -/
def State.collectiveDone (s : State) (group k status : Nat) (p : Part) : State :=
  match p.local' with
  | none => s
  | some (w, tgt, hdr, dst) =>
    s.postFor p.crew w tgt (withLen hdr 16)
      (natBytes group 2 ++ natBytes k 4 ++ natBytes status 1 ++ natBytes 0 1 ++ natBytes dst.toNat 8) 4

/-- The contribution of a job that has moved is its strand's on the core that now holds the crew core index (19 R354). -/
def State.movedPart (s : State) (p : Part) : Part :=
  { p with local' := p.local'.map fun x => (⟨s.relocate p.crew x.1.core, x.1.ctx⟩, x.2) }

/-- R374. Management request 5 drops a group; its pending instances complete with status 2, for a job that is off the machine
with its image (19 R354). -/
def execDropGroup (group : Nat) (s : State) : Out :=
  s.managed fun s =>
    match FMap.find s.groups group with
    | none => s.answered 1 []
    | some g =>
      (g.pending.foldl (fun (s : State) (e : Nat × List Part) => e.2.foldl (fun s p => s.collectiveDone group e.1 2 (s.movedPart p)) s)
        { s with groups := FMap.del s.groups group }).answered 0 []

/-! ### Contributions (22 R380) -/

/-- The `n` bytes of a message's arguments from byte `k` on. -/
def msgArg (b : MsgBits) (k n : Nat) : Nat := b.toNat / 2 ^ (64 + 8 * k) % 2 ^ (8 * n)

/-- A contribution breaks no rule of its layout; one that breaks a rule joins with a reserved operation. -/
def contributionOk (b : MsgBits) : Bool :=
  decide (40 ≤ (hdrLen b).toNat) && msgArg b 0 8 % 8 == 0 && msgArg b 8 8 % 8 == 0 && decide (8 ≤ msgArg b 16 4) &&
    decide (msgArg b 16 4 ≤ 4096) && msgArg b 16 4 % 8 == 0 && msgArg b 23 1 == 0

/-- The range that a contribution's message names can be read for its job: one whose job has ended has none (DEDUCED, log entry
38), and bytes that fail their check code are an uncorrectable error of the job's strand (24 R390). -/
def State.contributor (s : State) (m : Message) : StrandId := ⟨s.senderCore m, (hdrSrcCtx m.bits).toNat⟩
def State.sourceAgent (s : State) (m : Message) : Agent := { s.jobAgent (s.senderCore m) with pl := 0 }
def State.sourceLive (s : State) (m : Message) : Bool :=
  contributionOk m.bits && match m.crew with | some k => (FMap.find s.crews k).isSome | none => true
def State.sourceFail (s : State) (m : Message) : Option Trap :=
  if s.sourceLive m then s.deviceFail (s.sourceAgent m) (BitVec.ofNat 64 (msgArg m.bits 0 8)) (msgArg m.bits 16 4) else none

/-- The contribution that a message of a local strand brings, with the bytes at its source and the job that its result
belongs to. -/
def State.partOf (s : State) (dev : Nat) (m : Message) : Part :=
  let b := m.bits
  let ok := contributionOk b
  { dev := dev
    op := if ok then msgArg b 21 1 else 255
    fmt := msgArg b 22 1
    len := msgArg b 16 4
    crew := m.crew
    data := if s.sourceLive m && (s.sourceFail m).isNone then
        s.deviceBytes (s.sourceAgent m) (BitVec.ofNat 64 (msgArg b 0 8)) (msgArg b 16 4)
      else none
    local' := some (s.contributor m, BitVec.ofNat 64 (msgArg b 24 8), BitVec.ofNat 64 (msgArg b 32 8), BitVec.ofNat 64 (msgArg b 8 8)) }

/-- What the read of a contribution's source does: to the cluster cache, or to the launch that it is for. -/
def State.sourceRead (s : State) (m : Message) : State :=
  match s.sourceFail m with
  | some x => s.consumed (s.contributor m) [] x
  | none =>
    if s.sourceLive m then s.deviceRead (s.sourceAgent m) (BitVec.ofNat 64 (msgArg m.bits 0 8)) (msgArg m.bits 16 4) else s

/-- A contribution joins the instance that its device's count names. -/
def Group.join (g : Group) (p : Part) : Group :=
  let k := FMap.getD g.counts p.dev 0
  { g with
    counts := FMap.put g.counts p.dev (k + 1)
    pending := FMap.put g.pending k (FMap.getD g.pending k [] ++ [p]) }

/-- Add a contribution to a group that has its device as a member. -/
def State.contribute (s : State) (group : Nat) (p : Part) : State :=
  match FMap.find s.groups group with
  | none => s
  | some g => if g.mask.getLsbD p.dev then { s with groups := FMap.put s.groups group (g.join p) } else s

/-- The number of this device; 0 while no domain is set. -/
def State.ownDev (s : State) : Nat := match s.domain with | some d => d.dev | none => 0

/-- R380. A die's collective engine takes the next message of its landing, or the part of another device arrives. -/
def execCollectiveContribution (die : Nat) (peer : Option PeerPart) (s : State) : Out :=
  match peer with
  | some p => .next (if p.dev = s.ownDev then s else s.contribute p.group ⟨p.dev, p.op, p.fmt, p.len, p.data, none, none⟩)
  | none =>
    match nextService (s.die die).collectives with
    | none => .next s
    | some (m, v) =>
      .next (((s.setDie die { s.die die with collectives := v }).sourceRead m).contribute (msgArg m.bits 20 1) (s.partOf s.ownDev m))

/-! ### Results (22 R381) -/

/-- The bytes of an element of a collective's format. -/
def collWidth (fmt : Nat) : Nat := if fmt = 3 ∨ fmt = 7 then 8 else if fmt = 9 ∨ fmt = 10 then 2 else 4

/-- The format of a floating-point type code. -/
def collFmt (fmt : Nat) : Fmt := if fmt = 9 then .h16 else if fmt = 10 then .bf16 else .f32

/-- The values of an operation and a format that are not reserved. -/
def collOk (p : Part) : Bool := decide (p.op ≤ 6) && [2, 3, 6, 7, 8, 9, 10].contains p.fmt

/-- The bytes of element `e` of a contribution as a number. -/
def elementOf (bs : List Byte) (width e : Nat) : Nat := fieldOf bs (e * width) width

/-- The fold of a minimum or maximum over patterns. -/
def collExtreme (max : Bool) (fmt : Nat) (xs : List Nat) : Nat :=
  let f := collFmt fmt
  let bits := 8 * collWidth fmt
  let x := xs.headD 0
  let rest := xs.drop 1
  if 8 ≤ fmt then
    f.round .near false ((rest.map f.decode).foldl (fun a b => if max then a.fmax b else a.fmin b) (f.decode x))
  else if fmt ≤ 3 then
    rest.foldl (fun a b => if max == decide (signExt a bits < signExt b bits) then b else a) x
  else rest.foldl (fun a b => if max then Nat.max a b else Nat.min a b) x

/-- One element of the result, from the members' elements in ascending device number. -/
def collElement (op fmt : Nat) (xs : List Nat) : Nat :=
  let w (f : Word → Word → Word) : Nat :=
    ((xs.drop 1).foldl (fun a b => f a (BitVec.ofNat 64 b)) (BitVec.ofNat 64 (xs.headD 0))).toNat
  match op with
  | 0 => if 8 ≤ fmt then treeSum (collFmt fmt) .near false false xs else xs.sum % 2 ^ (8 * collWidth fmt)
  | 1 => collExtreme false fmt xs
  | 2 => collExtreme true fmt xs
  | 3 => w (· &&& ·)
  | 4 => w (· ||| ·)
  | _ => w (· ^^^ ·)

/-- The parts of an instance in ascending device number. -/
def inOrder (ps : List Part) : List Part := (List.range 64).flatMap fun d => ps.filter fun p => p.dev == d

/-- The result of an instance whose contributions agree: the bytes, or the status that every member receives. -/
def collResult (lead : Nat) (ps : List Part) : List Byte ⊕ Nat :=
  match inOrder ps with
  | [] => .inr 1
  | p :: rest =>
    if !collOk p || rest.any fun q => q.op != p.op || q.fmt != p.fmt || q.len != p.len then .inr 1
    else
      match (p :: rest).mapM Part.data with
      | none => .inr 3
      | some bs =>
        if p.op = 6 then
          match (ps.find? fun q => q.dev == lead).bind Part.data with
          | some b => .inl b
          | none => .inr 3
        else
          let width := collWidth p.fmt
          .inl ((List.range (p.len / width)).flatMap fun e =>
            natBytes (collElement p.op p.fmt (bs.map fun b => elementOf b width e)) width)

/-- Every byte of a range can be written by an agent. -/
def State.writable (s : State) (a : Agent) (va : Word) (n : Nat) : Bool :=
  (List.range n).all fun k => match s.look a .write (va + BitVec.ofNat 64 k) with | .place _ => true | _ => false

/-- The job of a contribution is off the machine, and its result waits for the rebind. -/
def State.awayPart (s : State) (p : Part) : Bool :=
  match p.crew with
  | some k => (FMap.find s.saved k).isSome
  | none => false

/-- A member of this device receives its result and its completion message. One whose job has ended gets no result, and its
message is treated as any other to its core (DEDUCED, log entry 38). -/
def State.collectiveTo (s : State) (group k : Nat) (r : List Byte ⊕ Nat) (p0 : Part) : State :=
  let p := s.movedPart p0
  let ended := match p.crew with | some c => (FMap.find s.crews c).isNone | none => false
  match p.local', r with
  | none, _ => s
  | some _, .inr st => s.collectiveDone group k st p
  | some (w, _, _, dst), .inl bs =>
    let a : Agent := { s.jobAgent w.core with pl := 0 }
    if ended then s.collectiveDone group k 3 p
    else if s.writable a dst bs.length then
      ((s.deviceStore a dst bs).writeBack (clusterOf w.core)).collectiveDone group k 0 p
    else s.collectiveDone group k 3 p

/-- Every member of a group has contributed to an instance. -/
def Group.complete (g : Group) (ps : List Part) : Bool :=
  (List.range 64).all fun d => !g.mask.getLsbD d || ps.any fun p => p.dev == d

/-- R381. The oldest instance of a group to which every member has contributed is formed, once no job that contributed here
is off the machine. -/
def execCollectiveResult (group : Nat) (s : State) : Out :=
  match FMap.find s.groups group with
  | none => .next s
  | some g =>
    match g.pending.find? fun e => g.complete e.2 && !e.2.any s.awayPart with
    | none => .next s
    | some (k, ps) =>
      .next (ps.foldl (fun s p => s.collectiveTo group k (collResult g.lead ps) p)
        { s with groups := FMap.put s.groups group { g with pending := FMap.del g.pending k } })

/-! ### Accesses from outside (22 R368, R377) -/

/-- The first byte of an access, and how many it has. -/
def accessSpan : ExtAccess → Nat × Nat
  | .load a n => (a, n)
  | .store a d => (a, d.length)
  | .atomic _ n a _ _ => (a, n)

/-- An access is a load, a store, or an aligned atomic of 4 or 8 bytes that major 8 has. -/
def accessOk : ExtAccess → Bool
  | .load _ n => decide (n ≤ 4096)
  | .store _ d => decide (d.length ≤ 4096)
  | .atomic op n a _ _ => decide (op.toNat ≤ 9) && (n == 4 || n == 8) && a % n == 0

/-- The entries of a table in which anything is written. -/
def State.entriesOf (s : State) (table n : Nat) : List Nat :=
  ((s.mem.filter fun e => decide (table ≤ e.1) && decide (e.1 < table + 8 * n)).map fun e => (e.1 - table) / 8).eraseDups

/-- The frames of this device's pages below a table whose entries a test picks. -/
def State.leafFrames (s : State) (pick : Word → Bool) : List (Nat × Nat × Bool × Bool) → Nat → List Nat
  | [], _ => []
  | (lo, w, may, _) :: rest, table =>
    (s.entriesOf table (2 ^ w)).flatMap fun i =>
      let e := s.entryAt (table + 8 * i)
      if pteValid e && !pteLeaf e then s.leafFrames pick rest (pteAddr e)
      else if may && pteLeaf e && pteTgt e == 0#2 && pick e then frames e lo
      else []

/-- The address spaces of the device: those of its streams and of the jobs bound from them. -/
def State.roots (s : State) : List Nat :=
  (s.streams.map (·.2.root.toNat) ++ s.crews.map (·.2.root.toNat) ++ s.saved.map (·.2.crew.root.toNat)).eraseDups

/-- A 64 KiB frame of device memory is of a page that some address space has with an entry that a test picks. -/
def State.framePicked (s : State) (f : Nat) (pick : Word → Bool) : Bool :=
  s.roots.any fun r => (s.leafFrames pick levels r).contains f

/-- The host owns a 64 KiB frame of device memory: the ferry moved it to the host, or no flip has moved it and its entry says
so, v = 0 and ferry = 1 (19 R338, R342). -/
def State.hostOwns (s : State) (f : Nat) : Bool :=
  match FMap.find s.sides f with
  | some x => x.1
  | none => s.framePicked f fun e => !pteValid e && pteFerry e

/-- The number of a byte of this device that is written from outside: in a page that an address space of the device has as
replicated, it is written in every copy (13 R233; that its tables tell is DEDUCED, log entry 123). -/
def State.outsideKey (s : State) (a : Nat) : Nat :=
  if s.framePicked (a / 2 ^ 16) fun e => pteValid e && pteRep e then 2 ^ 59 + a else a

/-- The number of `n` bytes at their home. -/
def State.memNat (s : State) (a n : Nat) : Nat := leNat (fun k => Memory.read s.mem (a + k)) n

/-- Bytes stored at their home. -/
def State.memStore (s : State) (a : Nat) (bs : List Byte) : State :=
  bs.zipIdx.foldl (fun t e => t.homeWrite (s.outsideKey (a + e.2)) e.1) s

/-- Perform an access at its home, and answer it. -/
def State.perform (s : State) (acc : ExtAccess) : State :=
  match acc with
  | .load a n => s.answered 0 (natBytes (s.memNat a n) n)
  | .store a d => (s.memStore a d).answered 0 []
  | .atomic op n a v cmp =>
    let old := s.memNat a n
    let v := v.toNat % 2 ^ (8 * n)
    let s1 := if atomicWrites op old (cmp.toNat % 2 ^ (8 * n)) then s.memStore a (natBytes (atomicOp op n old v) n) else s
    s1.answered 0 (natBytes old n)

/-- The frames of an access. -/
def framesOf (a n : Nat) : List Nat := (List.range ((a + (n - 1)) / 2 ^ 16 + 1 - a / 2 ^ 16)).map fun i => a / 2 ^ 16 + i

/-- R368. A host access: to its own memory or to device memory that it owns it is performed; to a device page, it asks the
ferry for the page. -/
def execHostAccess (acc : ExtAccess) (s : State) : Out :=
  let r := accessSpan acc
  let hostSide := decide (2 ^ 62 ≤ r.1) && decide (r.1 + r.2 ≤ 2 ^ 63)
  let fs := framesOf r.1 r.2
  .next (if !accessOk acc then s.answered 1 []
    else if hostSide then s.perform acc
    else if 2 ^ 54 < r.1 + r.2 then s.answered 1 []
    else if fs.all s.hostOwns then s.perform acc
    else { s with asked := (s.asked ++ fs.filter fun f => !s.hostOwns f).eraseDups })

/-- R377. An access of another device of the domain is performed at its home die: in this device's memory, or in a peer's own, as
this device's accesses to it find it (DESIGN CHOICE, log entry 113). -/
def execPeerAccess (dev : Nat) (acc : ExtAccess) (s : State) : Out :=
  let r := accessSpan acc
  let member := match s.domain with | some d => d.members.contains dev && dev != d.dev | none => false
  let peers := decide (2 ^ 63 ≤ r.1) && decide (r.1 + r.2 ≤ 2 ^ 63 + 64 * 2 ^ 52)
  .next (if member && accessOk acc && (peers || decide (r.1 + r.2 ≤ 2 ^ 54)) then s.perform acc else s.answered 1 [])

end Sys2Proof.Machine
end

