-- ==== Sys2Proof/Machine/Scalar.lean ====
section
/-!
DEFINITION. Scalar instructions (04): integer arithmetic, immediates, branches and jumps, loads and stores, scalar
floating point, and their compact forms (02 R34). Each meaning is one line over a shared form.
-/
namespace Sys2Proof.Machine
open Sys2Proof

/-! ### Integer functions (04 R72, R73) -/

/-- Bits [31:0] sign-extended: the result of a form marked 32. -/
def sext32 (v : Word) : Word := (v.setWidth 32).signExtend 64
/-- The shift count of a 64-bit and of a 32 form. -/
def cnt64 (b : Word) : Nat := b.toNat % 64
def cnt32 (b : Word) : Nat := b.toNat % 32

def sdivW (a b : Word) : Word :=
  if b = 0 then BitVec.allOnes 64 else BitVec.ofInt 64 (a.toInt.tdiv b.toInt)
def udivW (a b : Word) : Word := if b = 0 then BitVec.allOnes 64 else BitVec.ofNat 64 (a.toNat / b.toNat)
def sremW (a b : Word) : Word := if b = 0 then a else BitVec.ofInt 64 (a.toInt.tmod b.toInt)
def uremW (a b : Word) : Word := if b = 0 then a else BitVec.ofNat 64 (a.toNat % b.toNat)
def mulhS (a b : Word) : Word := BitVec.ofInt 64 (a.toInt * b.toInt / 2 ^ 64)
def mulhU (a b : Word) : Word := BitVec.ofNat 64 (a.toNat * b.toNat / 2 ^ 64)
def clzW (a : Word) : Word := if a = 0 then 64 else BitVec.ofNat 64 (63 - Nat.log2 a.toNat)
def ctzW (a : Word) : Word := BitVec.ofNat 64 (((List.range 64).find? a.getLsbD).getD 64)
def popcW (a : Word) : Word := BitVec.ofNat 64 ((List.range 64).filter a.getLsbD).length
def rolW (a b : Word) : Word := (a <<< cnt64 b) ||| (a >>> (64 - cnt64 b))
def rorW (a b : Word) : Word := (a <<< (64 - cnt64 b)) ||| (a >>> cnt64 b)
def sllW (a b : Word) : Word := a <<< cnt64 b
def srlW (a b : Word) : Word := a >>> cnt64 b
def sraW (a b : Word) : Word := a.sshiftRight (cnt64 b)
def sll32W (a b : Word) : Word := sext32 (a <<< cnt32 b)
def srl32W (a b : Word) : Word := sext32 ((a &&& 0xFFFFFFFF) >>> cnt32 b)
def sra32W (a b : Word) : Word := ((a.setWidth 32).sshiftRight (cnt32 b)).signExtend 64
def minS (a b : Word) : Word := if sLess a b then a else b
def maxS (a b : Word) : Word := if sLess a b then b else a
def minU (a b : Word) : Word := if wLess a b then a else b
def maxU (a b : Word) : Word := if wLess a b then b else a

/-! ### Shared forms -/

/-- An instruction that reads s registers and writes s[d] in a given latency. -/
def scalarForm (lat : Latency) (sc : BitVec 2) (d : BitVec 4) (srcs : List (BitVec 4)) (f : Strand → Word) (s : State) :
    Out :=
  s.issue (plain sc (srcs.map Reg.s)) fun s1 n => .done (s1.resultS s1.cur lat n d (f (s1.strand s1.cur)))

/-- s[d] := f s[a] s[b]. -/
def form3 (lat : Latency) (o : R3) (f : Word → Word → Word) : State → Out :=
  scalarForm lat o.sc o.d [o.a, o.b] fun t => f (t.getS o.a) (t.getS o.b)
/-- s[d] := f s[a]. -/
def form2 (lat : Latency) (o : R2) (f : Word → Word) : State → Out :=
  scalarForm lat o.sc o.d [o.a] fun t => f (t.getS o.a)
/-- s[d] := f s[a] I, for the sign-extended immediate I (04 R74). -/
def formI (lat : Latency) (o : RI) (f : Word → Word → Word) : State → Out :=
  scalarForm lat o.sc o.d [o.a] fun t => f (t.getS o.a) (immWord o.imm)
/-- s[d] := f s[a] n, for a shift count n. -/
def formSh6 (o : RSh6) (f : Word → Word → Word) : State → Out :=
  scalarForm (.fixed 1) o.sc o.d [o.a] fun t => f (t.getS o.a) (o.sh.setWidth 64)
def formSh5 (o : RSh5) (f : Word → Word → Word) : State → Out :=
  scalarForm (.fixed 1) o.sc o.d [o.a] fun t => f (t.getS o.a) (o.sh.setWidth 64)
/-- The compact s[d] := f s[d] s[a] (02 R34). -/
def formC2 (o : CR2) (f : Word → Word → Word) : State → Out :=
  scalarForm (.fixed 1) 0 o.d [o.d, o.a] fun t => f (t.getS o.d) (t.getS o.a)

/-! ### Register forms (04 R72, R73) -/

/-- R72. A + B. -/
def execAdd (o : R3) (s : State) : Out := form3 (.fixed 1) o (fun a b => a + b) s
/-- R72. A − B. -/
def execSub (o : R3) (s : State) : Out := form3 (.fixed 1) o (fun a b => a - b) s
/-- R72. Bitwise and. -/
def execAnd (o : R3) (s : State) : Out := form3 (.fixed 1) o (fun a b => a &&& b) s
/-- R72. Bitwise or. -/
def execOr (o : R3) (s : State) : Out := form3 (.fixed 1) o (fun a b => a ||| b) s
/-- R72. Bitwise xor. -/
def execXor (o : R3) (s : State) : Out := form3 (.fixed 1) o (fun a b => a ^^^ b) s
/-- R72. Shift left. -/
def execSll (o : R3) (s : State) : Out := form3 (.fixed 1) o sllW s
/-- R72. Logical shift right. -/
def execSrl (o : R3) (s : State) : Out := form3 (.fixed 1) o srlW s
/-- R72. Arithmetic shift right. -/
def execSra (o : R3) (s : State) : Out := form3 (.fixed 1) o sraW s
/-- R72. 1 if SA < SB. -/
def execSlt (o : R3) (s : State) : Out := form3 (.fixed 1) o (fun a b => truth (sLess a b)) s
/-- R72. 1 if A < B. -/
def execSltw (o : R3) (s : State) : Out := form3 (.fixed 1) o (fun a b => truth (wLess a b)) s
/-- R72. 1 if A = B. -/
def execSeq (o : R3) (s : State) : Out := form3 (.fixed 1) o (fun a b => truth (a == b)) s
/-- R72. 1 if A ≠ B. -/
def execSne (o : R3) (s : State) : Out := form3 (.fixed 1) o (fun a b => truth (a != b)) s
/-- R72. The lesser of SA and SB. -/
def execMin (o : R3) (s : State) : Out := form3 (.fixed 1) o minS s
/-- R72. The greater of SA and SB. -/
def execMax (o : R3) (s : State) : Out := form3 (.fixed 1) o maxS s
/-- R72. The lesser of A and B. -/
def execMinw (o : R3) (s : State) : Out := form3 (.fixed 1) o minU s
/-- R72. The greater of A and B. -/
def execMaxw (o : R3) (s : State) : Out := form3 (.fixed 1) o maxU s
/-- R72. The low 64 bits of A × B. -/
def execMul (o : R3) (s : State) : Out := form3 (.fixed 3) o (fun a b => a * b) s
/-- R72. The high 64 bits of SA × SB. -/
def execMulh (o : R3) (s : State) : Out := form3 (.fixed 3) o mulhS s
/-- R72. The high 64 bits of A × B. -/
def execMulhw (o : R3) (s : State) : Out := form3 (.fixed 3) o mulhU s
/-- R73. Signed quotient. -/
def execDiv (o : R3) (s : State) : Out := form3 .variable o sdivW s
/-- R73. Whole quotient. -/
def execDivw (o : R3) (s : State) : Out := form3 .variable o udivW s
/-- R73. Signed remainder. -/
def execRem (o : R3) (s : State) : Out := form3 .variable o sremW s
/-- R73. Whole remainder. -/
def execRemw (o : R3) (s : State) : Out := form3 .variable o uremW s
/-- R72. Saturating signed sum. -/
def execAdds (o : R3) (s : State) : Out := form3 (.fixed 1) o addS s
/-- R72. Saturating signed difference. -/
def execSubs (o : R3) (s : State) : Out := form3 (.fixed 1) o subS s
/-- R72. Saturating whole sum. -/
def execAddsw (o : R3) (s : State) : Out := form3 (.fixed 1) o addSW s
/-- R72. Saturating whole difference. -/
def execSubsw (o : R3) (s : State) : Out := form3 (.fixed 1) o subSW s
/-- R72. 32-bit sum. -/
def execAdd32 (o : R3) (s : State) : Out := form3 (.fixed 1) o (fun a b => sext32 (a + b)) s
/-- R72. 32-bit difference. -/
def execSub32 (o : R3) (s : State) : Out := form3 (.fixed 1) o (fun a b => sext32 (a - b)) s
/-- R72. 32-bit shift left. -/
def execSll32 (o : R3) (s : State) : Out := form3 (.fixed 1) o sll32W s
/-- R72. 32-bit logical shift right. -/
def execSrl32 (o : R3) (s : State) : Out := form3 (.fixed 1) o srl32W s
/-- R72. 32-bit arithmetic shift right. -/
def execSra32 (o : R3) (s : State) : Out := form3 (.fixed 1) o sra32W s
/-- R72. 32-bit product. -/
def execMul32 (o : R3) (s : State) : Out := form3 (.fixed 3) o (fun a b => sext32 (a * b)) s
/-- R72. Leading zeros. -/
def execClz (o : R2) (s : State) : Out := form2 (.fixed 1) o clzW s
/-- R72. Trailing zeros. -/
def execCtz (o : R2) (s : State) : Out := form2 (.fixed 1) o ctzW s
/-- R72. One bits. -/
def execPopc (o : R2) (s : State) : Out := form2 (.fixed 1) o popcW s
/-- R72. Rotate left. -/
def execRol (o : R3) (s : State) : Out := form3 (.fixed 1) o rolW s
/-- R72. Rotate right. -/
def execRor (o : R3) (s : State) : Out := form3 (.fixed 1) o rorW s

/-! ### Immediate forms (04 R74, R75) -/

/-- R74. As add with the immediate. -/
def execAddi (o : RI) (s : State) : Out := formI (.fixed 1) o (fun a b => a + b) s
/-- R74. As and with the immediate. -/
def execAndi (o : RI) (s : State) : Out := formI (.fixed 1) o (fun a b => a &&& b) s
/-- R74. As or with the immediate. -/
def execOri (o : RI) (s : State) : Out := formI (.fixed 1) o (fun a b => a ||| b) s
/-- R74. As xor with the immediate. -/
def execXori (o : RI) (s : State) : Out := formI (.fixed 1) o (fun a b => a ^^^ b) s
/-- R74. As slt with the immediate. -/
def execSlti (o : RI) (s : State) : Out := formI (.fixed 1) o (fun a b => truth (sLess a b)) s
/-- R74. As sltw with the immediate. -/
def execSltwi (o : RI) (s : State) : Out := formI (.fixed 1) o (fun a b => truth (wLess a b)) s
/-- R74. As seq with the immediate. -/
def execSeqi (o : RI) (s : State) : Out := formI (.fixed 1) o (fun a b => truth (a == b)) s
/-- R74. As add32 with the immediate. -/
def execAddi32 (o : RI) (s : State) : Out := formI (.fixed 1) o (fun a b => sext32 (a + b)) s
/-- R74. As sll with a count. -/
def execSlli (o : RSh6) (s : State) : Out := formSh6 o sllW s
/-- R74. As srl with a count. -/
def execSrli (o : RSh6) (s : State) : Out := formSh6 o srlW s
/-- R74. As sra with a count. -/
def execSrai (o : RSh6) (s : State) : Out := formSh6 o sraW s
/-- R74. As sll32 with a count. -/
def execSlli32 (o : RSh5) (s : State) : Out := formSh5 o sll32W s
/-- R74. As srl32 with a count. -/
def execSrli32 (o : RSh5) (s : State) : Out := formSh5 o srl32W s
/-- R74. As sra32 with a count. -/
def execSrai32 (o : RSh5) (s : State) : Out := formSh5 o sra32W s

/-- R75. s[d] := u · 4096. -/
def execLhi (o : RU) (s : State) : Out := scalarForm (.fixed 1) o.sc o.d [] (fun _ => immWord o.u <<< 12) s
/-- R75. s[d] := pc + u · 4096. -/
def execPchi (o : RU) (s : State) : Out := scalarForm (.fixed 1) o.sc o.d [] (fun t => t.pc + (immWord o.u <<< 12)) s

/-! ### Branches and jumps (04 R76 to R80) -/

/-- A branch to `off` halfwords from itself when s[a] and s[b] meet a condition. -/
def branchForm (sc : BitVec 2) (a b : BitVec 4) (off : Word → Word) (c : Word → Word → Bool) (s : State) : Out :=
  s.issue (plain sc [.s a, .s b]) fun s1 _ =>
    let t := s1.strand s1.cur
    if c (t.getS a) (t.getS b) then .jump s1 (off t.pc) else .done s1

/-- The branches of major 3. -/
def branch (o : Br) (c : Word → Word → Bool) : State → Out :=
  branchForm o.sc o.a o.b (fun pc => offHalf pc o.off) c

/-- R76. Taken when A = B. -/
def execBeq (o : Br) (s : State) : Out := branch o (fun a b => a == b) s
/-- R76. Taken when A ≠ B. -/
def execBne (o : Br) (s : State) : Out := branch o (fun a b => a != b) s
/-- R76. Taken when SA < SB. -/
def execBlt (o : Br) (s : State) : Out := branch o sLess s
/-- R76. Taken when SA ≥ SB. -/
def execBge (o : Br) (s : State) : Out := branch o (fun a b => !sLess a b) s
/-- R76. Taken when A < B. -/
def execBltw (o : Br) (s : State) : Out := branch o wLess s
/-- R76. Taken when A ≥ B. -/
def execBgew (o : Br) (s : State) : Out := branch o (fun a b => !wLess a b) s
/-- R76. Taken when A and B ≠ 0. -/
def execBanz (o : Br) (s : State) : Out := branch o (fun a b => (a &&& b) != 0) s
/-- R76. Taken when A and B = 0. -/
def execBaz (o : Br) (s : State) : Out := branch o (fun a b => (a &&& b) == 0) s

/-- Push an address on the return-address stack of eight entries; a full stack loses its oldest (04 R80). -/
def Strand.pushRas (t : Strand) (x : Word) : Strand := { t with ras := (x :: t.ras).take 8 }
def Strand.popRas (t : Strand) : Strand := { t with ras := t.ras.drop 1 }

/-- The link of a jump: the address after its four bytes. -/
def State.link (s : State) (n : Nat) (d : BitVec 4) : State :=
  s.resultS s.cur (.fixed 1) n d ((s.strand s.cur).pc + 4)

/-- R78, R80. s[d] := pc + 4, then pc := pc + 2 · off20; with d = 15 the link is pushed. -/
def execJl (o : Jl) (s : State) : Out :=
  s.issue (plain o.sc []) fun s1 n =>
    let pc := (s1.strand s1.cur).pc
    let s2 := s1.link n o.d
    let s3 := if o.d = 15#4 then s2.onStrand s2.cur fun t => t.pushRas (pc + 4) else s2
    .jump s3 (offHalf pc o.off)

/-- The register jumps of 04 R79: the target is read before the link is written, and its bit 0 is cleared. -/
def jumpReg (o : RI) (ras : Strand → Strand) (s : State) : Out :=
  s.issue (plain o.sc [.s o.a]) fun s1 n =>
    let target := ((s1.strand s1.cur).getS o.a + immWord o.imm) &&& ~~~(1 : Word)
    .jump ((s1.link n o.d).onStrand s1.cur ras) target

/-- R79. Jump to a register. -/
def execJlr (o : RI) (s : State) : Out := jumpReg o id s
/-- R79, R80. Call: the link is pushed. -/
def execJlrCall (o : RI) (s : State) : Out := jumpReg o (fun t => t.pushRas (t.pc + 4)) s
/-- R79, R80. Return: the stack is popped. -/
def execJlrRet (o : RI) (s : State) : Out := jumpReg o Strand.popRas s

/-! ### Loads and stores (04 R81 to R83) -/

/-- The effective address of format M. -/
def ea (t : Strand) (a : BitVec 4) (off : BitVec 12) : Word := t.getS a + immWord off

/-- A load of `n` bytes into an s register. -/
def loadS (sc : BitVec 2) (d : BitVec 4) (srcs : List Reg) (n : Nat) (addr : Strand → Word) (f : Nat → Word) (s : State) :
    Out :=
  s.issue (plain sc srcs) fun s1 k =>
    s1.scalarLoad s1.cur (addr (s1.strand s1.cur)) n fun s2 v => .done (s2.resultS s2.cur .variable k d (f v))

/-- A store of the low `n` bytes of a value. -/
def storeS (sc : BitVec 2) (srcs : List Reg) (n : Nat) (addr : Strand → Word) (v : Strand → Word) (s : State) : Out :=
  s.issue (plain sc srcs) fun s1 _ =>
    let t := s1.strand s1.cur
    s1.scalarStore s1.cur (addr t) n (v t)

def loadM (o : Mem) (n : Nat) (f : Nat → Word) : State → Out :=
  loadS o.sc o.t [.s o.a] n (fun t => ea t o.a o.off) f

def loadF (o : MemF) (n : Nat) (s : State) : Out :=
  s.issue (plain o.sc [.s o.a]) fun s1 k =>
    s1.scalarLoad s1.cur (ea (s1.strand s1.cur) o.a o.off) n fun s2 v =>
      .done (s2.resultF s2.cur .variable k o.t (BitVec.ofNat 64 v))

def storeM (o : Mem) (n : Nat) : State → Out :=
  storeS o.sc [.s o.t, .s o.a] n (fun t => ea t o.a o.off) fun t => t.getS o.t

def storeF (o : MemF) (n : Nat) : State → Out :=
  storeS o.sc [.f o.t, .s o.a] n (fun t => ea t o.a o.off) fun t => t.getF o.t

/-- A loaded value sign-extended from `n` bytes, or zero-extended. -/
def loadSigned (n v : Nat) : Word := BitVec.ofInt 64 (signExt v (8 * n))
def loadWhole (v : Nat) : Word := BitVec.ofNat 64 v

/-- R82. Load 1 byte. -/
def execLdI8 (o : Mem) (s : State) : Out := loadM o 1 (loadSigned 1) s
/-- R82. Load 2 bytes. -/
def execLdI16 (o : Mem) (s : State) : Out := loadM o 2 (loadSigned 2) s
/-- R82. Load 4 bytes. -/
def execLdI32 (o : Mem) (s : State) : Out := loadM o 4 (loadSigned 4) s
/-- R82. Load 8 bytes. -/
def execLdI64 (o : Mem) (s : State) : Out := loadM o 8 loadWhole s
/-- R82. Load 1 byte. -/
def execLdW8 (o : Mem) (s : State) : Out := loadM o 1 loadWhole s
/-- R82. Load 2 bytes. -/
def execLdW16 (o : Mem) (s : State) : Out := loadM o 2 loadWhole s
/-- R82. Load 4 bytes. -/
def execLdW32 (o : Mem) (s : State) : Out := loadM o 4 loadWhole s
/-- R82. Load 4 bytes into an f register, the bits above cleared. -/
def execFldF32 (o : MemF) (s : State) : Out := loadF o 4 s
/-- R82. Load 2 bytes into an f register, the bits above cleared. -/
def execFldH16 (o : MemF) (s : State) : Out := loadF o 2 s
/-- R82. Load 2 bytes into an f register, the bits above cleared. -/
def execFldBf16 (o : MemF) (s : State) : Out := loadF o 2 s
/-- R82. Load 8 bytes into an f register, the bits above cleared. -/
def execFld64 (o : MemF) (s : State) : Out := loadF o 8 s
/-- R83. Store 1 byte of s[t]. -/
def execSt8 (o : Mem) (s : State) : Out := storeM o 1 s
/-- R83. Store 2 bytes of s[t]. -/
def execSt16 (o : Mem) (s : State) : Out := storeM o 2 s
/-- R83. Store 4 bytes of s[t]. -/
def execSt32 (o : Mem) (s : State) : Out := storeM o 4 s
/-- R83. Store 8 bytes of s[t]. -/
def execSt64 (o : Mem) (s : State) : Out := storeM o 8 s
/-- R83. Store 4 bytes of f[t]. -/
def execFst32 (o : MemF) (s : State) : Out := storeF o 4 s
/-- R83. Store 2 bytes of f[t]. -/
def execFst16 (o : MemF) (s : State) : Out := storeF o 2 s
/-- R83. Store 8 bytes of f[t]. -/
def execFst64 (o : MemF) (s : State) : Out := storeF o 8 s

/-! ### Scalar floating point (04 R85 to R88) -/

def Strand.mode (t : Strand) : Rm := Rm.ofBits t.rm
/-- The pattern of an f register in a format: its low bits (01 R11). -/
def fpat (x : Word) (f : Fmt) : Nat := x.toNat % 2 ^ f.width
def fval (x : Word) (f : Fmt) : FVal := f.decode (fpat x f)
/-- A result pattern with the bits above it cleared. -/
def ofPat (p : Nat) : Word := BitVec.ofNat 64 p

/-- An instruction of major 10 that writes f[d]. -/
def fpForm (lat : Latency) (sc : BitVec 2) (d : BitVec 3) (srcs : List Reg) (f : Strand → Word) (s : State) : Out :=
  s.issue (plain sc srcs) fun s1 n => .done (s1.resultF s1.cur lat n d (f (s1.strand s1.cur)))

/-- f[d] := f over the formats' values of f[a] and f[b]. -/
def fp2 (lat : Latency) (o : F3) (f : Fmt → Rm → FVal → FVal → Nat) : State → Out :=
  fpForm lat o.sc o.d [.f o.a, .f o.b] fun t =>
    let m := Fmt.ofCode o.fmt
    ofPat (f m t.mode (fval (t.getF o.a) m) (fval (t.getF o.b) m))

/-- f[d] := f of the pattern of f[a]. -/
def fp1 (lat : Latency) (o : F2) (f : Fmt → Rm → Nat → Nat) : State → Out :=
  fpForm lat o.sc o.d [.f o.a] fun t =>
    let m := Fmt.ofCode o.fmt
    ofPat (f m t.mode (fpat (t.getF o.a) m))

/-- s[d] := 1 if f[a] and f[b] stand in a relation, else 0. -/
def fpCmp (o : FC) (c : FVal → FVal → Bool) (s : State) : Out :=
  s.issue (plain o.sc [.f o.a, .f o.b]) fun s1 n =>
    let t := s1.strand s1.cur
    let m := Fmt.ofCode o.fmt
    .done (s1.resultS s1.cur (.fixed 4) n o.d (truth (c (fval (t.getF o.a) m) (fval (t.getF o.b) m))))

/-- A rounded sum, difference or product. -/
def faddPat (m : Fmt) (rm : Rm) (a b : FVal) : Nat := m.add rm false false a b
def fsubPat (m : Fmt) (rm : Rm) (a b : FVal) : Nat := m.add rm false false a b.neg
def fmulPat (m : Fmt) (rm : Rm) (a b : FVal) : Nat := m.mul rm false false a b
/-- A minimum or maximum is one of the operands, so it is never rounded (03 R57). -/
def fminPat (m : Fmt) (_ : Rm) (a b : FVal) : Nat := m.round .near false (a.fmin b)
def fmaxPat (m : Fmt) (_ : Rm) (a b : FVal) : Nat := m.round .near false (a.fmax b)
/-- The sign bit inverted, or cleared. -/
def fnegPat (m : Fmt) (_ : Rm) (x : Nat) : Nat := m.negBits x
def fabsPat (m : Fmt) (_ : Rm) (x : Nat) : Nat := x % 2 ^ (m.width - 1)

/-- R86. f[a] + f[b]. -/
def execFadd (o : F3) (s : State) : Out := fp2 (.fixed 4) o faddPat s
/-- R86. f[a] − f[b]. -/
def execFsub (o : F3) (s : State) : Out := fp2 (.fixed 4) o fsubPat s
/-- R86. f[a] × f[b]. -/
def execFmul (o : F3) (s : State) : Out := fp2 (.fixed 4) o fmulPat s
/-- R86. f[a] ÷ f[b]. -/
def execFdiv (o : F3) (s : State) : Out := fp2 .variable o (fun m rm a b => m.round rm false (a.quot b)) s
/-- R86. The square root of f[a]. -/
def execFsqrt (o : F2) (s : State) : Out := fp1 .variable o (fun m rm x => m.round rm false (m.decode x).sqrt) s
/-- R86, R57. The minimum. -/
def execFmin (o : F3) (s : State) : Out := fp2 (.fixed 4) o fminPat s
/-- R86, R57. The maximum. -/
def execFmax (o : F3) (s : State) : Out := fp2 (.fixed 4) o fmaxPat s
/-- R86. f[a] × f[b] + f[d], rounded once. -/
def execFma (o : F3) (s : State) : Out :=
  fpForm (.fixed 4) o.sc o.d [.f o.a, .f o.b, .f o.d] (fun t =>
    let m := Fmt.ofCode o.fmt
    ofPat (m.fma t.mode false false (fval (t.getF o.a) m) (fval (t.getF o.b) m) (fval (t.getF o.d) m))) s
/-- R86. f[a] with its sign inverted. -/
def execFneg (o : F2) (s : State) : Out := fp1 (.fixed 4) o fnegPat s
/-- R86. f[a] with its sign cleared. -/
def execFabs (o : F2) (s : State) : Out := fp1 (.fixed 4) o fabsPat s
/-- R87. Equal. -/
def execFceq (o : FC) (s : State) : Out := fpCmp o FVal.eq s
/-- R87. Less. -/
def execFclt (o : FC) (s : State) : Out := fpCmp o FVal.lt s
/-- R87. Less or equal. -/
def execFcle (o : FC) (s : State) : Out := fpCmp o FVal.le s

/-- R88. Floating to integer: a 32-bit result is extended by its signedness. -/
def execFcvti (o : FToI) (s : State) : Out :=
  s.issue (plain o.sc [.f o.a]) fun s1 n =>
    let t := s1.strand s1.cur
    let bits := if o.wide = 1#1 then 64 else 32
    let sgn := o.whole == 0#1
    let v := toInt (fval (t.getF o.a) (Fmt.ofCode o.fmt)) bits sgn t.mode (o.sat == 1#1)
    .done (s1.resultS s1.cur (.fixed 4) n o.d (if sgn then BitVec.ofInt 64 (signExt v bits) else BitVec.ofNat 64 v))

/-- R88. Integer to floating, from the low 32 or 64 bits of s[a]. -/
def execFcvtf (o : IToF) (s : State) : Out :=
  fpForm (.fixed 4) o.sc o.d [.s o.a] (fun t =>
    let bits := if o.wide = 1#1 then 64 else 32
    let v := (t.getS o.a).toNat % 2 ^ bits
    let i : Int := if o.whole = 0#1 then signExt v bits else v
    ofPat ((Fmt.ofCode o.fmt).round t.mode false (ofInteger i))) s

/-- R88, R65. Between formats; equal formats keep the value, and a NaN becomes canonical. -/
def execFcvt (o : FCv) (s : State) : Out :=
  fpForm (.fixed 4) o.sc o.d [.f o.a] (fun t =>
    ofPat ((Fmt.ofCode o.fmt).round t.mode false (fval (t.getF o.a) (Fmt.ofCode o.src)))) s

/-- R87. The bits of f[a] to s[d]. -/
def execFmvs (o : MvS) (s : State) : Out :=
  s.issue (plain o.sc [.f o.a]) fun s1 n =>
    .done (s1.resultS s1.cur (.fixed 4) n o.d ((s1.strand s1.cur).getF o.a))
/-- R87. The bits of s[a] to f[d]. -/
def execFmvf (o : MvF) (s : State) : Out := fpForm (.fixed 4) o.sc o.d [.s o.a] (fun t => t.getS o.a) s

/-! ### Compact forms (02 R34) -/

/-- addi d, d, imm7. -/
def execCInc (o : CI7) (s : State) : Out :=
  scalarForm (.fixed 1) 0 o.d [o.d] (fun t => t.getS o.d + immWord o.imm) s
/-- addi d, s0, imm7. -/
def execCSet (o : CI7) (s : State) : Out := scalarForm (.fixed 1) 0 o.d [] (fun _ => immWord o.imm) s
/-- add d, a, s0. -/
def execCCp (o : CR2) (s : State) : Out := scalarForm (.fixed 1) 0 o.d [o.a] (fun t => t.getS o.a) s
/-- add d, d, a. -/
def execCAddr (o : CR2) (s : State) : Out := formC2 o (fun a b => a + b) s
/-- sub d, d, a. -/
def execCSubr (o : CR2) (s : State) : Out := formC2 o (fun a b => a - b) s
/-- and d, d, a. -/
def execCAndr (o : CR2) (s : State) : Out := formC2 o (fun a b => a &&& b) s
/-- or d, d, a. -/
def execCOrr (o : CR2) (s : State) : Out := formC2 o (fun a b => a ||| b) s
/-- xor d, d, a. -/
def execCXorr (o : CR2) (s : State) : Out := formC2 o (fun a b => a ^^^ b) s
/-- sll d, d, a. -/
def execCSllr (o : CR2) (s : State) : Out := formC2 o sllW s
/-- sra d, d, a. -/
def execCSrar (o : CR2) (s : State) : Out := formC2 o sraW s
/-- slt d, d, a. -/
def execCSltr (o : CR2) (s : State) : Out := formC2 o (fun a b => truth (sLess a b)) s
/-- sltw d, d, a. -/
def execCSltwr (o : CR2) (s : State) : Out := formC2 o (fun a b => truth (wLess a b)) s
/-- seq d, d, a. -/
def execCSeqr (o : CR2) (s : State) : Out := formC2 o (fun a b => truth (a == b)) s
/-- sne d, d, a. -/
def execCSner (o : CR2) (s : State) : Out := formC2 o (fun a b => truth (a != b)) s
/-- min d, d, a. -/
def execCMinr (o : CR2) (s : State) : Out := formC2 o minS s
/-- max d, d, a. -/
def execCMaxr (o : CR2) (s : State) : Out := formC2 o maxS s
/-- minw d, d, a. -/
def execCMinwr (o : CR2) (s : State) : Out := formC2 o minU s
/-- maxw d, d, a. -/
def execCMaxwr (o : CR2) (s : State) : Out := formC2 o maxU s
/-- slli d, d, sh6. -/
def execCShl (o : CSh) (s : State) : Out :=
  scalarForm (.fixed 1) 0 o.d [o.d] (fun t => sllW (t.getS o.d) (o.sh.setWidth 64)) s
/-- srai d, d, sh6. -/
def execCSar (o : CSh) (s : State) : Out :=
  scalarForm (.fixed 1) 0 o.d [o.d] (fun t => sraW (t.getS o.d) (o.sh.setWidth 64)) s
/-- jlr s0, a, 0; jlr.ret when a is 15. -/
def execCJreg (o : CA) (s : State) : Out :=
  s.issue (plain 0 [.s o.a]) fun s1 _ =>
    .jump (if o.a = 15#4 then s1.onStrand s1.cur Strand.popRas else s1) ((s1.strand s1.cur).getS o.a &&& ~~~(1 : Word))

/-- The compact f[d] := f f[d] f[a] in f32. -/
def formCF (o : CF2) (f : Fmt → Rm → FVal → FVal → Nat) : State → Out :=
  fpForm (.fixed 4) 0 o.d [.f o.d, .f o.a] fun t =>
    ofPat (f .f32 t.mode (fval (t.getF o.d) .f32) (fval (t.getF o.a) .f32))

/-- fadd.f32 fd, fd, fa. -/
def execCFadd (o : CF2) (s : State) : Out := formCF o faddPat s
/-- fsub.f32 fd, fd, fa. -/
def execCFsub (o : CF2) (s : State) : Out := formCF o fsubPat s
/-- fmul.f32 fd, fd, fa. -/
def execCFmul (o : CF2) (s : State) : Out := formCF o fmulPat s
/-- fmin.f32 fd, fd, fa. -/
def execCFmin (o : CF2) (s : State) : Out := formCF o fminPat s
/-- fmax.f32 fd, fd, fa. -/
def execCFmax (o : CF2) (s : State) : Out := formCF o fmaxPat s
/-- fneg.f32 fd, fa. -/
def execCFneg (o : CF2) (s : State) : Out :=
  fpForm (.fixed 4) 0 o.d [.f o.a] (fun t => ofPat (fnegPat .f32 t.mode (fpat (t.getF o.a) .f32))) s
/-- fabs.f32 fd, fa. -/
def execCFabs (o : CF2) (s : State) : Out :=
  fpForm (.fixed 4) 0 o.d [.f o.a] (fun t => ofPat (fabsPat .f32 t.mode (fpat (t.getF o.a) .f32))) s

/-- A c.vty that prefixes no instruction of majors 11 to 19 raises an illegal-instruction fault (02 R36). -/
def execCVty (_ : CTy) (s : State) : Out := .next (s.takeTrap s.cur (trapOf 1 0))

/-- beq a, s0, off7. -/
def execCBrz (o : CBr) (s : State) : Out := branchForm 0 o.a 0 (fun pc => offHalf pc o.off) (fun a b => a == b) s
/-- bne a, s0, off7. -/
def execCBrnz (o : CBr) (s : State) : Out := branchForm 0 o.a 0 (fun pc => offHalf pc o.off) (fun a b => a != b) s
/-- jl s0, off11. -/
def execCGo (o : CGo) (s : State) : Out :=
  s.issue (plain 0 []) fun s1 _ => .jump s1 (offHalf (s1.strand s1.cur).pc o.off)

/-- The own local-store address of an 8-byte slot. -/
def storeSlot (off : BitVec 7) : Word := BitVec.ofNat 64 (Config.windowBase + off.toNat * 8)

/-- ld.i64 of an own local-store slot. -/
def execCLld (o : CLs) (s : State) : Out := loadS 0 o.d [] 8 (fun _ => storeSlot o.off) loadWhole s
/-- st.64 to an own local-store slot. -/
def execCLsd (o : CLs) (s : State) : Out := storeS 0 [.s o.d] 8 (fun _ => storeSlot o.off) (fun t => t.getS o.d) s
/-- ld.T d, 0(a), with the load func 0 to 6. -/
def execCLr (o : CLr) (s : State) : Out :=
  let f := o.f.toNat
  let n := if f = 0 ∨ f = 4 then 1 else if f = 1 ∨ f = 5 then 2 else if f = 2 ∨ f = 6 then 4 else 8
  loadS 0 o.d [.s o.a] n (fun t => t.getS o.a) (if f < 3 then loadSigned n else loadWhole) s
/-- st.N t, 0(a), with the store func 0 to 3. -/
def execCSr (o : CSr) (s : State) : Out :=
  storeS 0 [.s o.t, .s o.a] (2 ^ o.n.toNat) (fun t => t.getS o.a) (fun t => t.getS o.t) s

end Sys2Proof.Machine
end

