-- ==== Sys2Proof/Machine/Dispatch.lean ====
section
/-!
DEFINITION. One arm per instruction and event of spec/opcode_table.json: each is one call of its meaning.
-/
namespace Sys2Proof.Machine
open Sys2Proof

/-- The effect of an instruction of the current strand, or of an event. -/
def exec (i : Instr) (s : State) : Host.Outcome State Fault Refusal :=
  match i with
  | .coldReset => Sys2Proof.Machine.execColdReset s
  | .warmReset => Sys2Proof.Machine.execWarmReset s
  | .firmwareImage img => Sys2Proof.Machine.execFirmwareImage img s
  | .wallTick => Sys2Proof.Machine.execWallTick s
  | .quantumEnd crew => Sys2Proof.Machine.execQuantumEnd crew s
  | .rebaseSweep => Sys2Proof.Machine.execRebaseSweep s
  | .ferrymasterScan die => Sys2Proof.Machine.execFerrymasterScan die s
  | .arbiterWindow die drawW => Sys2Proof.Machine.execArbiterWindow die drawW s
  | .swallowBoundary cluster => Sys2Proof.Machine.execSwallowBoundary cluster s
  | .sensorFailure cluster current => Sys2Proof.Machine.execSensorFailure cluster current s
  | .thermalThrottle die substituted => Sys2Proof.Machine.execThermalThrottle die substituted s
  | .correctableError die => Sys2Proof.Machine.execCorrectableError die s
  | .uncorrectableError die code addr consumer => Sys2Proof.Machine.execUncorrectableError die code addr consumer s
  | .linkRetry die => Sys2Proof.Machine.execLinkRetry die s
  | .laneRepair die => Sys2Proof.Machine.execLaneRepair die s
  | .linkFailure die => Sys2Proof.Machine.execLinkFailure die s
  | .peerTimeout who addr => Sys2Proof.Machine.execPeerTimeout who addr s
  | .peerWriteAck k => Sys2Proof.Machine.execPeerWriteAck k s
  | .messageDelivery k peer => Sys2Proof.Machine.execMessageDelivery k peer s
  | .handlerStart core => Sys2Proof.Machine.execHandlerStart core s
  | .transferCompletion core slot => Sys2Proof.Machine.execTransferCompletion core slot s
  | .copyRingReserve core slot => Sys2Proof.Machine.execCopyRingReserve core slot s
  | .streamFill core k => Sys2Proof.Machine.execStreamFill core k s
  | .chainJoin row => Sys2Proof.Machine.execChainJoin row s
  | .budgetGrant cluster => Sys2Proof.Machine.execBudgetGrant cluster s
  | .mmaDelivery row => Sys2Proof.Machine.execMmaDelivery row s
  | .resultDelivery who reg => Sys2Proof.Machine.execResultDelivery who reg s
  | .slipwayResolve who => Sys2Proof.Machine.execSlipwayResolve who s
  | .launchMessage die host => Sys2Proof.Machine.execLaunchMessage die host s
  | .dispatch die => Sys2Proof.Machine.execDispatch die s
  | .jobRetire crew => Sys2Proof.Machine.execJobRetire crew s
  | .launchCompletion die stream => Sys2Proof.Machine.execLaunchCompletion die stream s
  | .stepHalt who => Sys2Proof.Machine.execStepHalt who s
  | .upcallStart core => Sys2Proof.Machine.execUpcallStart core s
  | .pageFlip toDevice refused root va => Sys2Proof.Machine.execPageFlip toDevice refused root va s
  | .replicaCommit cluster line => Sys2Proof.Machine.execReplicaCommit cluster line s
  | .cacheEviction cluster line => Sys2Proof.Machine.execCacheEviction cluster line s
  | .registerTimedRegion who => Sys2Proof.Machine.execRegisterTimedRegion who s
  | .withdrawTimedRegion who => Sys2Proof.Machine.execWithdrawTimedRegion who s
  | .dropPageTranslations who => Sys2Proof.Machine.execDropPageTranslations who s
  | .dropAsidTranslations who => Sys2Proof.Machine.execDropAsidTranslations who s
  | .preemptJob who => Sys2Proof.Machine.execPreemptJob who s
  | .rebind crew => Sys2Proof.Machine.execRebind crew s
  | .bindStream die stream cls asid root pool lstore spad => Sys2Proof.Machine.execBindStream die stream cls asid root pool lstore spad s
  | .unbindStream die stream => Sys2Proof.Machine.execUnbindStream die stream s
  | .setDomain dev members routes => Sys2Proof.Machine.execSetDomain dev members routes s
  | .defineGroup group members lead => Sys2Proof.Machine.execDefineGroup group members lead s
  | .dropGroup group => Sys2Proof.Machine.execDropGroup group s
  | .readBlackBox die first count => Sys2Proof.Machine.execReadBlackBox die first count s
  | .externalPowerLimit watts => Sys2Proof.Machine.execExternalPowerLimit watts s
  | .attestation nonce => Sys2Proof.Machine.execAttestation nonce s
  | .releaseEvents die first count => Sys2Proof.Machine.execReleaseEvents die first count s
  | .yelikHold who => Sys2Proof.Machine.execYelikHold who s
  | .yelikResume who => Sys2Proof.Machine.execYelikResume who s
  | .yelikStep who => Sys2Proof.Machine.execYelikStep who s
  | .yelikRead who space addr len => Sys2Proof.Machine.execYelikRead who space addr len s
  | .yelikWrite who space addr data => Sys2Proof.Machine.execYelikWrite who space addr data s
  | .yelikSetBreak die stream core idx value => Sys2Proof.Machine.execYelikSetBreak die stream core idx value s
  | .yelikReadSignalRing die len => Sys2Proof.Machine.execYelikReadSignalRing die len s
  | .debuggerAttach die stream => Sys2Proof.Machine.execDebuggerAttach die stream s
  | .debuggerDetach die stream => Sys2Proof.Machine.execDebuggerDetach die stream s
  | .collectiveContribution die peer => Sys2Proof.Machine.execCollectiveContribution die peer s
  | .collectiveResult group => Sys2Proof.Machine.execCollectiveResult group s
  | .ctxOobWrite v => Sys2Proof.Machine.execCtxOobWrite v s
  | .ctxModeWrite v => Sys2Proof.Machine.execCtxModeWrite v s
  | .coreSwallowWrite v => Sys2Proof.Machine.execCoreSwallowWrite v s
  | .crewQuantumWrite v => Sys2Proof.Machine.execCrewQuantumWrite v s
  | .devPlimitWrite v => Sys2Proof.Machine.execDevPlimitWrite v s
  | .devCrbaseWrite v => Sys2Proof.Machine.execDevCrbaseWrite v s
  | .fwBboxClear => Sys2Proof.Machine.execFwBboxClear s
  | .add o => Sys2Proof.Machine.execAdd o s
  | .sub o => Sys2Proof.Machine.execSub o s
  | .and o => Sys2Proof.Machine.execAnd o s
  | .or o => Sys2Proof.Machine.execOr o s
  | .xor o => Sys2Proof.Machine.execXor o s
  | .sll o => Sys2Proof.Machine.execSll o s
  | .srl o => Sys2Proof.Machine.execSrl o s
  | .sra o => Sys2Proof.Machine.execSra o s
  | .slt o => Sys2Proof.Machine.execSlt o s
  | .sltw o => Sys2Proof.Machine.execSltw o s
  | .seq o => Sys2Proof.Machine.execSeq o s
  | .sne o => Sys2Proof.Machine.execSne o s
  | .min o => Sys2Proof.Machine.execMin o s
  | .max o => Sys2Proof.Machine.execMax o s
  | .minw o => Sys2Proof.Machine.execMinw o s
  | .maxw o => Sys2Proof.Machine.execMaxw o s
  | .mul o => Sys2Proof.Machine.execMul o s
  | .mulh o => Sys2Proof.Machine.execMulh o s
  | .mulhw o => Sys2Proof.Machine.execMulhw o s
  | .div o => Sys2Proof.Machine.execDiv o s
  | .divw o => Sys2Proof.Machine.execDivw o s
  | .rem o => Sys2Proof.Machine.execRem o s
  | .remw o => Sys2Proof.Machine.execRemw o s
  | .adds o => Sys2Proof.Machine.execAdds o s
  | .subs o => Sys2Proof.Machine.execSubs o s
  | .addsw o => Sys2Proof.Machine.execAddsw o s
  | .subsw o => Sys2Proof.Machine.execSubsw o s
  | .add32 o => Sys2Proof.Machine.execAdd32 o s
  | .sub32 o => Sys2Proof.Machine.execSub32 o s
  | .sll32 o => Sys2Proof.Machine.execSll32 o s
  | .srl32 o => Sys2Proof.Machine.execSrl32 o s
  | .sra32 o => Sys2Proof.Machine.execSra32 o s
  | .mul32 o => Sys2Proof.Machine.execMul32 o s
  | .clz o => Sys2Proof.Machine.execClz o s
  | .ctz o => Sys2Proof.Machine.execCtz o s
  | .popc o => Sys2Proof.Machine.execPopc o s
  | .rol o => Sys2Proof.Machine.execRol o s
  | .ror o => Sys2Proof.Machine.execRor o s
  | .addi o => Sys2Proof.Machine.execAddi o s
  | .andi o => Sys2Proof.Machine.execAndi o s
  | .ori o => Sys2Proof.Machine.execOri o s
  | .xori o => Sys2Proof.Machine.execXori o s
  | .slli o => Sys2Proof.Machine.execSlli o s
  | .srli o => Sys2Proof.Machine.execSrli o s
  | .srai o => Sys2Proof.Machine.execSrai o s
  | .slti o => Sys2Proof.Machine.execSlti o s
  | .sltwi o => Sys2Proof.Machine.execSltwi o s
  | .seqi o => Sys2Proof.Machine.execSeqi o s
  | .addi32 o => Sys2Proof.Machine.execAddi32 o s
  | .slli32 o => Sys2Proof.Machine.execSlli32 o s
  | .srli32 o => Sys2Proof.Machine.execSrli32 o s
  | .srai32 o => Sys2Proof.Machine.execSrai32 o s
  | .lhi o => Sys2Proof.Machine.execLhi o s
  | .pchi o => Sys2Proof.Machine.execPchi o s
  | .beq o => Sys2Proof.Machine.execBeq o s
  | .bne o => Sys2Proof.Machine.execBne o s
  | .blt o => Sys2Proof.Machine.execBlt o s
  | .bge o => Sys2Proof.Machine.execBge o s
  | .bltw o => Sys2Proof.Machine.execBltw o s
  | .bgew o => Sys2Proof.Machine.execBgew o s
  | .banz o => Sys2Proof.Machine.execBanz o s
  | .baz o => Sys2Proof.Machine.execBaz o s
  | .jl o => Sys2Proof.Machine.execJl o s
  | .jlr o => Sys2Proof.Machine.execJlr o s
  | .jlrCall o => Sys2Proof.Machine.execJlrCall o s
  | .jlrRet o => Sys2Proof.Machine.execJlrRet o s
  | .ldI8 o => Sys2Proof.Machine.execLdI8 o s
  | .ldI16 o => Sys2Proof.Machine.execLdI16 o s
  | .ldI32 o => Sys2Proof.Machine.execLdI32 o s
  | .ldI64 o => Sys2Proof.Machine.execLdI64 o s
  | .ldW8 o => Sys2Proof.Machine.execLdW8 o s
  | .ldW16 o => Sys2Proof.Machine.execLdW16 o s
  | .ldW32 o => Sys2Proof.Machine.execLdW32 o s
  | .fldF32 o => Sys2Proof.Machine.execFldF32 o s
  | .fldH16 o => Sys2Proof.Machine.execFldH16 o s
  | .fldBf16 o => Sys2Proof.Machine.execFldBf16 o s
  | .fld64 o => Sys2Proof.Machine.execFld64 o s
  | .st8 o => Sys2Proof.Machine.execSt8 o s
  | .st16 o => Sys2Proof.Machine.execSt16 o s
  | .st32 o => Sys2Proof.Machine.execSt32 o s
  | .st64 o => Sys2Proof.Machine.execSt64 o s
  | .fst32 o => Sys2Proof.Machine.execFst32 o s
  | .fst16 o => Sys2Proof.Machine.execFst16 o s
  | .fst64 o => Sys2Proof.Machine.execFst64 o s
  | .amadd o => Sys2Proof.Machine.execAmadd o s
  | .amand o => Sys2Proof.Machine.execAmand o s
  | .amor o => Sys2Proof.Machine.execAmor o s
  | .amxor o => Sys2Proof.Machine.execAmxor o s
  | .ammin o => Sys2Proof.Machine.execAmmin o s
  | .ammax o => Sys2Proof.Machine.execAmmax o s
  | .amminw o => Sys2Proof.Machine.execAmminw o s
  | .ammaxw o => Sys2Proof.Machine.execAmmaxw o s
  | .amswap o => Sys2Proof.Machine.execAmswap o s
  | .amcas o => Sys2Proof.Machine.execAmcas o s
  | .ldo o => Sys2Proof.Machine.execLdo o s
  | .sto o => Sys2Proof.Machine.execSto o s
  | .fence o => Sys2Proof.Machine.execFence o s
  | .ifence o => Sys2Proof.Machine.execIfence o s
  | .fadd o => Sys2Proof.Machine.execFadd o s
  | .fsub o => Sys2Proof.Machine.execFsub o s
  | .fmul o => Sys2Proof.Machine.execFmul o s
  | .fdiv o => Sys2Proof.Machine.execFdiv o s
  | .fsqrt o => Sys2Proof.Machine.execFsqrt o s
  | .fmin o => Sys2Proof.Machine.execFmin o s
  | .fmax o => Sys2Proof.Machine.execFmax o s
  | .fma o => Sys2Proof.Machine.execFma o s
  | .fneg o => Sys2Proof.Machine.execFneg o s
  | .fabs o => Sys2Proof.Machine.execFabs o s
  | .fceq o => Sys2Proof.Machine.execFceq o s
  | .fclt o => Sys2Proof.Machine.execFclt o s
  | .fcle o => Sys2Proof.Machine.execFcle o s
  | .fcvti o => Sys2Proof.Machine.execFcvti o s
  | .fcvtf o => Sys2Proof.Machine.execFcvtf o s
  | .fcvt o => Sys2Proof.Machine.execFcvt o s
  | .fmvs o => Sys2Proof.Machine.execFmvs o s
  | .fmvf o => Sys2Proof.Machine.execFmvf o s
  | .vadd o => Sys2Proof.Machine.execVadd o s
  | .vsub o => Sys2Proof.Machine.execVsub o s
  | .vmul o => Sys2Proof.Machine.execVmul o s
  | .vmulh o => Sys2Proof.Machine.execVmulh o s
  | .vmin o => Sys2Proof.Machine.execVmin o s
  | .vmax o => Sys2Proof.Machine.execVmax o s
  | .vand o => Sys2Proof.Machine.execVand o s
  | .vor o => Sys2Proof.Machine.execVor o s
  | .vxor o => Sys2Proof.Machine.execVxor o s
  | .vsll o => Sys2Proof.Machine.execVsll o s
  | .vsrl o => Sys2Proof.Machine.execVsrl o s
  | .vsra o => Sys2Proof.Machine.execVsra o s
  | .vadds o => Sys2Proof.Machine.execVadds o s
  | .vsubs o => Sys2Proof.Machine.execVsubs o s
  | .vabs o => Sys2Proof.Machine.execVabs o s
  | .vandn o => Sys2Proof.Machine.execVandn o s
  | .vfadd o => Sys2Proof.Machine.execVfadd o s
  | .vfsub o => Sys2Proof.Machine.execVfsub o s
  | .vfmul o => Sys2Proof.Machine.execVfmul o s
  | .vfmin o => Sys2Proof.Machine.execVfmin o s
  | .vfmax o => Sys2Proof.Machine.execVfmax o s
  | .vfma o => Sys2Proof.Machine.execVfma o s
  | .vfms o => Sys2Proof.Machine.execVfms o s
  | .vfnma o => Sys2Proof.Machine.execVfnma o s
  | .vfnms o => Sys2Proof.Machine.execVfnms o s
  | .vcvtN o => Sys2Proof.Machine.execVcvtN o s
  | .vcvtS o => Sys2Proof.Machine.execVcvtS o s
  | .vcvtX o => Sys2Proof.Machine.execVcvtX o s
  | .vcvtF o => Sys2Proof.Machine.execVcvtF o s
  | .vcvtFi o => Sys2Proof.Machine.execVcvtFi o s
  | .vcvtFis o => Sys2Proof.Machine.execVcvtFis o s
  | .vcvtIf o => Sys2Proof.Machine.execVcvtIf o s
  | .vcvtIi o => Sys2Proof.Machine.execVcvtIi o s
  | .vcvtIis o => Sys2Proof.Machine.execVcvtIis o s
  | .vscget o => Sys2Proof.Machine.execVscget o s
  | .vscapply o => Sys2Proof.Machine.execVscapply o s
  | .vmv o => Sys2Proof.Machine.execVmv o s
  | .vperm o => Sys2Proof.Machine.execVperm o s
  | .vzipl o => Sys2Proof.Machine.execVzipl o s
  | .vziph o => Sys2Proof.Machine.execVziph o s
  | .vunze o => Sys2Proof.Machine.execVunze o s
  | .vunzo o => Sys2Proof.Machine.execVunzo o s
  | .vslu o => Sys2Proof.Machine.execVslu o s
  | .vsld o => Sys2Proof.Machine.execVsld o s
  | .vbcast o => Sys2Proof.Machine.execVbcast o s
  | .vrev o => Sys2Proof.Machine.execVrev o s
  | .vtrnl o => Sys2Proof.Machine.execVtrnl o s
  | .vtrnh o => Sys2Proof.Machine.execVtrnh o s
  | .vcompress o => Sys2Proof.Machine.execVcompress o s
  | .vexpand o => Sys2Proof.Machine.execVexpand o s
  | .vrsum o => Sys2Proof.Machine.execVrsum o s
  | .vrfsum o => Sys2Proof.Machine.execVrfsum o s
  | .vrmin o => Sys2Proof.Machine.execVrmin o s
  | .vrmax o => Sys2Proof.Machine.execVrmax o s
  | .vrfmin o => Sys2Proof.Machine.execVrfmin o s
  | .vrfmax o => Sys2Proof.Machine.execVrfmax o s
  | .vrand o => Sys2Proof.Machine.execVrand o s
  | .vrior o => Sys2Proof.Machine.execVrior o s
  | .vrxor o => Sys2Proof.Machine.execVrxor o s
  | .vrfsumw o => Sys2Proof.Machine.execVrfsumw o s
  | .vld o => Sys2Proof.Machine.execVld o s
  | .vst o => Sys2Proof.Machine.execVst o s
  | .vldx o => Sys2Proof.Machine.execVldx o s
  | .vstx o => Sys2Proof.Machine.execVstx o s
  | .vldb o => Sys2Proof.Machine.execVldb o s
  | .vldh o => Sys2Proof.Machine.execVldh o s
  | .vsth o => Sys2Proof.Machine.execVsth o s
  | .pld o => Sys2Proof.Machine.execPld o s
  | .pst o => Sys2Proof.Machine.execPst o s
  | .vaddx o => Sys2Proof.Machine.execVaddx o s
  | .vsubx o => Sys2Proof.Machine.execVsubx o s
  | .vmulx o => Sys2Proof.Machine.execVmulx o s
  | .vfaddx o => Sys2Proof.Machine.execVfaddx o s
  | .vfmulx o => Sys2Proof.Machine.execVfmulx o s
  | .vfmacx o => Sys2Proof.Machine.execVfmacx o s
  | .vsplat o => Sys2Proof.Machine.execVsplat o s
  | .vfsplat o => Sys2Proof.Machine.execVfsplat o s
  | .vins o => Sys2Proof.Machine.execVins o s
  | .vext o => Sys2Proof.Machine.execVext o s
  | .vweir o => Sys2Proof.Machine.execVweir o s
  | .vsllx o => Sys2Proof.Machine.execVsllx o s
  | .vsrlx o => Sys2Proof.Machine.execVsrlx o s
  | .vsrax o => Sys2Proof.Machine.execVsrax o s
  | .viota o => Sys2Proof.Machine.execViota o s
  | .vceq o => Sys2Proof.Machine.execVceq o s
  | .vcne o => Sys2Proof.Machine.execVcne o s
  | .vclt o => Sys2Proof.Machine.execVclt o s
  | .vcle o => Sys2Proof.Machine.execVcle o s
  | .vfceq o => Sys2Proof.Machine.execVfceq o s
  | .vfclt o => Sys2Proof.Machine.execVfclt o s
  | .vfcle o => Sys2Proof.Machine.execVfcle o s
  | .vfcun o => Sys2Proof.Machine.execVfcun o s
  | .pand o => Sys2Proof.Machine.execPand o s
  | .por o => Sys2Proof.Machine.execPor o s
  | .pxor o => Sys2Proof.Machine.execPxor o s
  | .pandn o => Sys2Proof.Machine.execPandn o s
  | .pnot o => Sys2Proof.Machine.execPnot o s
  | .pfirst o => Sys2Proof.Machine.execPfirst o s
  | .tld o => Sys2Proof.Machine.execTld o s
  | .tst o => Sys2Proof.Machine.execTst o s
  | .tstLaw o => Sys2Proof.Machine.execTstLaw o s
  | .tadd o => Sys2Proof.Machine.execTadd o s
  | .ttouch o => Sys2Proof.Machine.execTtouch o s
  | .tarm o => Sys2Proof.Machine.execTarm o s
  | .tclr o => Sys2Proof.Machine.execTclr o s
  | .vtld o => Sys2Proof.Machine.execVtld o s
  | .vtadd o => Sys2Proof.Machine.execVtadd o s
  | .lawset o => Sys2Proof.Machine.execLawset o s
  | .lawget o => Sys2Proof.Machine.execLawget o s
  | .mma o => Sys2Proof.Machine.execMma o s
  | .rowcfg o => Sys2Proof.Machine.execRowcfg o s
  | .acget o => Sys2Proof.Machine.execAcget o s
  | .acput o => Sys2Proof.Machine.execAcput o s
  | .aczero o => Sys2Proof.Machine.execAczero o s
  | .qcur o => Sys2Proof.Machine.execQcur o s
  | .qcurrd o => Sys2Proof.Machine.execQcurrd o s
  | .qadv o => Sys2Proof.Machine.execQadv o s
  | .qmovToQ o => Sys2Proof.Machine.execQmovToQ o s
  | .qmovToS o => Sys2Proof.Machine.execQmovToS o s
  | .ascore o => Sys2Proof.Machine.execAscore o s
  | .asoft o => Sys2Proof.Machine.execAsoft o s
  | .aval o => Sys2Proof.Machine.execAval o s
  | .amass o => Sys2Proof.Machine.execAmass o s
  | .apos o => Sys2Proof.Machine.execApos o s
  | .cpw o => Sys2Proof.Machine.execCpw o s
  | .cprd o => Sys2Proof.Machine.execCprd o s
  | .cpgo o => Sys2Proof.Machine.execCpgo o s
  | .cpconv o => Sys2Proof.Machine.execCpconv o s
  | .bget o => Sys2Proof.Machine.execBget o s
  | .gget o => Sys2Proof.Machine.execGget o s
  | .gput o => Sys2Proof.Machine.execGput o s
  | .bind o => Sys2Proof.Machine.execBind o s
  | .unbind o => Sys2Proof.Machine.execUnbind o s
  | .card o => Sys2Proof.Machine.execCard o s
  | .cbinit o => Sys2Proof.Machine.execCbinit o s
  | .cbpop o => Sys2Proof.Machine.execCbpop o s
  | .cbpopDone o => Sys2Proof.Machine.execCbpopDone o s
  | .cbpush o => Sys2Proof.Machine.execCbpush o s
  | .cbpushDone o => Sys2Proof.Machine.execCbpushDone o s
  | .dredge o => Sys2Proof.Machine.execDredge o s
  | .ctwait o => Sys2Proof.Machine.execCtwait o s
  | .ctrd o => Sys2Proof.Machine.execCtrd o s
  | .msend o => Sys2Proof.Machine.execMsend o s
  | .margs o => Sys2Proof.Machine.execMargs o s
  | .mlane o => Sys2Proof.Machine.execMlane o s
  | .mtab o => Sys2Proof.Machine.execMtab o s
  | .mtabDis o => Sys2Proof.Machine.execMtabDis o s
  | .dcset o => Sys2Proof.Machine.execDcset o s
  | .dcdec o => Sys2Proof.Machine.execDcdec o s
  | .dcrd o => Sys2Proof.Machine.execDcrd o s
  | .dcrdClr o => Sys2Proof.Machine.execDcrdClr o s
  | .ferryocc o => Sys2Proof.Machine.execFerryocc o s
  | .ferrymig o => Sys2Proof.Machine.execFerrymig o s
  | .mdead o => Sys2Proof.Machine.execMdead o s
  | .hstart o => Sys2Proof.Machine.execHstart o s
  | .hend o => Sys2Proof.Machine.execHend o s
  | .raft o => Sys2Proof.Machine.execRaft o s
  | .split o => Sys2Proof.Machine.execSplit o s
  | .raftAny o => Sys2Proof.Machine.execRaftAny o s
  | .raftAll o => Sys2Proof.Machine.execRaftAll o s
  | .bar o => Sys2Proof.Machine.execBar o s
  | .prio o => Sys2Proof.Machine.execPrio o s
  | .yield o => Sys2Proof.Machine.execYield o s
  | .dsync o => Sys2Proof.Machine.execDsync o s
  | .dphase o => Sys2Proof.Machine.execDphase o s
  | .berth o => Sys2Proof.Machine.execBerth o s
  | .tround o => Sys2Proof.Machine.execTround o s
  | .trank o => Sys2Proof.Machine.execTrank o s
  | .tdone o => Sys2Proof.Machine.execTdone o s
  | .repf o => Sys2Proof.Machine.execRepf o s
  | .nop o => Sys2Proof.Machine.execNop o s
  | .sysr o => Sys2Proof.Machine.execSysr o s
  | .sysw o => Sys2Proof.Machine.execSysw o s
  | .trap o => Sys2Proof.Machine.execTrap o s
  | .scall o => Sys2Proof.Machine.execScall o s
  | .uret o => Sys2Proof.Machine.execUret o s
  | .uretSw o => Sys2Proof.Machine.execUretSw o s
  | .uretWait o => Sys2Proof.Machine.execUretWait o s
  | .sret o => Sys2Proof.Machine.execSret o s
  | .fret o => Sys2Proof.Machine.execFret o s
  | .brk o => Sys2Proof.Machine.execBrk o s
  | .dbgsig o => Sys2Proof.Machine.execDbgsig o s
  | .cInc o => Sys2Proof.Machine.execCInc o s
  | .cSet o => Sys2Proof.Machine.execCSet o s
  | .cCp o => Sys2Proof.Machine.execCCp o s
  | .cAddr o => Sys2Proof.Machine.execCAddr o s
  | .cSubr o => Sys2Proof.Machine.execCSubr o s
  | .cAndr o => Sys2Proof.Machine.execCAndr o s
  | .cOrr o => Sys2Proof.Machine.execCOrr o s
  | .cXorr o => Sys2Proof.Machine.execCXorr o s
  | .cSllr o => Sys2Proof.Machine.execCSllr o s
  | .cSrar o => Sys2Proof.Machine.execCSrar o s
  | .cSltr o => Sys2Proof.Machine.execCSltr o s
  | .cSltwr o => Sys2Proof.Machine.execCSltwr o s
  | .cSeqr o => Sys2Proof.Machine.execCSeqr o s
  | .cSner o => Sys2Proof.Machine.execCSner o s
  | .cMinr o => Sys2Proof.Machine.execCMinr o s
  | .cMaxr o => Sys2Proof.Machine.execCMaxr o s
  | .cMinwr o => Sys2Proof.Machine.execCMinwr o s
  | .cMaxwr o => Sys2Proof.Machine.execCMaxwr o s
  | .cShl o => Sys2Proof.Machine.execCShl o s
  | .cSar o => Sys2Proof.Machine.execCSar o s
  | .cJreg o => Sys2Proof.Machine.execCJreg o s
  | .cFadd o => Sys2Proof.Machine.execCFadd o s
  | .cFsub o => Sys2Proof.Machine.execCFsub o s
  | .cFmul o => Sys2Proof.Machine.execCFmul o s
  | .cFmin o => Sys2Proof.Machine.execCFmin o s
  | .cFmax o => Sys2Proof.Machine.execCFmax o s
  | .cFneg o => Sys2Proof.Machine.execCFneg o s
  | .cFabs o => Sys2Proof.Machine.execCFabs o s
  | .cVty o => Sys2Proof.Machine.execCVty o s
  | .cBrz o => Sys2Proof.Machine.execCBrz o s
  | .cBrnz o => Sys2Proof.Machine.execCBrnz o s
  | .cGo o => Sys2Proof.Machine.execCGo o s
  | .cLld o => Sys2Proof.Machine.execCLld o s
  | .cLsd o => Sys2Proof.Machine.execCLsd o s
  | .cLr o => Sys2Proof.Machine.execCLr o s
  | .cSr o => Sys2Proof.Machine.execCSr o s
  | .cVmv o => Sys2Proof.Machine.execCVmv o s
  | .thermalThrottleLift die => Sys2Proof.Machine.execThermalThrottleLift die s
  | .powerRemoval => Sys2Proof.Machine.execPowerRemoval s
  | .hostAccess acc => Sys2Proof.Machine.execHostAccess acc s
  | .peerAccess dev acc => Sys2Proof.Machine.execPeerAccess dev acc s

end Sys2Proof.Machine
end

