-- ==== Sys2Proof/Machine/Sched.lean ====
section
/-!
DEFINITION. Breakpoints (20 R359), the issue of one instruction from its bytes, rafts (09 R178, R179), the issue of a core and
its slots (02 R41), what the device does by itself, and the placing of an instruction in memory.
-/
namespace Sys2Proof.Machine
open Sys2Proof

/-! ### The issue of a core -/

/-- Note which strand issues: the memory of its class, and the turn of a deterministic core. -/
def State.noteIssue (s : State) (w : StrandId) : State :=
  let x := s.core w.core
  let k := s.effClass w
  let x1 := if h : k < 4 then { x with lastIssued := x.lastIssued.set k (some w.ctx) h } else x
  let x2 := { x1 with yielded := none, turn := if (s.strand w).det then w.ctx else x1.turn }
  if x2 = x then s else s.setCore w.core x2

/-! ### One instruction -/

/-- The breakpoints that an instruction address matches (20 R358, R359). -/
def breakHit (t : Strand) : List Nat :=
  (List.range 4).filter fun k =>
    let b := t.ib[k]?.getD 0
    b.getLsbD 63 && (b.extractLsb' 1 51 == t.pc.extractLsb' 1 51) && t.pc.extractLsb' 52 12 == 0#12 &&
      !t.exempt.contains k

/-- The trap of instruction breakpoints. -/
def breakTrap (ks : List Nat) : Trap := { trapOf 18 1 with brk := ks }

/-- The state in which a strand's instruction runs: it is current, its halfwords are those fetched, and no write of a granule
is in progress. -/
def State.present (s : State) (w : StrandId) (hs : List (BitVec 16)) : State :=
  { s with cur := w, ir := hs, trapped := false, failing := Failing.fresh s.failing }

/-- An instruction as the strand's repeat frame has it. -/
noncomputable def framed (t : Strand) (i : Instr) : Instr :=
  match t.frame with
  | some f => advance f i
  | none => i

/-- Run the instruction of fetched halfwords on a strand (02 R39, R40); its breakpoints come first (20 R359). -/
noncomputable def State.runHalves (s : State) (w : StrandId) (hs : List (BitVec 16)) : Out :=
  match breakHit (s.strand w) with
  | k :: ks => .next ((s.present w hs).takeTrap w (breakTrap (k :: ks)))
  | [] =>
    match decode hs with
    | .ok i _ => exec (framed (s.strand w) i) (s.present w hs)
    | .reject _ => .next ((s.present w hs).takeTrap w (trapOf 1 0))

/-- Issue one strand's instruction: its fetch, its breakpoints, its decoding, its effect. -/
noncomputable def State.issueOne (s : State) (w : StrandId) : Out :=
  match s.fetchInstr w (s.strand w).pc with
  | .halves hs => (s.fetchRead w (s.strand w).pc hs.length).runHalves w hs
  | .bad va code =>
    match breakHit (s.strand w) with
    | k :: ks => .next ((s.present w []).takeTrap w (breakTrap (k :: ks)))
    | [] => .next ((s.present w []).takeTrap w (fetchTrap va code))

/-! ### Rafts (09 R177 to R179) -/

/-- A strand stands where a debugger stopped it. -/
def Strand.debugHalt (t : Strand) : Bool := t.halted && match t.reported with | some r => r.cls == 18#8 | none => false

/-- A strand has issued a chain instruction whose own check failed, which is taken at the join (17 R316). -/
def State.chainFault (s : State) (w : StrandId) : Bool :=
  ((s.row (rowOf w.core)).queues.toList.getD (posOf w.core) []).any fun i => i.who == w && i.fault.isSome

/-- The strand did not issue: it waits for a condition, for the result of a request, or for a page. -/
def Strand.unissued (t : Strand) : Bool :=
  match t.wait with
  | .retry _ => true
  | .parked (.results _) => true
  | .page _ => true
  | _ => false

/-- A member must wait before it can issue an instruction, or a debugger stops it there: no member issues it (09 R179). -/
noncomputable def State.mustHold (s : State) (hs : List (BitVec 16)) (w : StrandId) : Bool :=
  match s.runHalves w hs with
  | .next t => if t.trapped then (t.strand w).debugHalt else (t.strand w).unissued
  | _ => false

/-- An instruction faults on a member, judged on the state before any member has issued it; a stop for the debugger is no
fault of the raft. -/
noncomputable def State.faults (s : State) (hs : List (BitVec 16)) (w : StrandId) : Bool :=
  match s.runHalves w hs with
  | .next t => (t.trapped && !(t.strand w).debugHalt) || t.chainFault w
  | _ => false

/-- A step goes over to the strand that holds the turn of a core, once the one that held it has parked (20 R363). -/
def State.passStep (s : State) (w : StrandId) : State :=
  match (if (s.strand w).det && (s.strand w).wait.isParked then s.turnHolder w.core else none) with
  | some k =>
    let s1 := s.onStrand w fun t => { t with stepping := none }
    s1.onStrand ⟨w.core, k⟩ fun t => { t with stepping := some t.pl, stepped := false, reported := none }
  | none => s

/-- A strand that a debugger steps has taken its step once it has issued. -/
def State.noteStep (s : State) (w : StrandId) : State :=
  let t := s.strand w
  if t.stepping.isSome && !t.stepped then
    if t.unissued then s.passStep w else s.onStrand w fun t => { t with stepped := true }
  else s

/-- A member that came to the raft's instruction did not issue it, unless `own`: it stays before it, if it still lives. -/
def State.notIssued (s : State) (w : StrandId) (own : Bool) : State :=
  if own || !(s.strand w).live then s else s.stay w (.retry .members)

/-- A stop of a member for the debugger is the end of a step of its raft, which none has issued (20 R363, 09 R179). -/
def State.endSteps (s : State) (ws : List StrandId) : State :=
  ws.foldl (fun s w => s.onStrand w fun t => { t with stepping := none, stepped := false }) s

/-- A raft dissolves: every member continues alone at its instruction. -/
def State.dissolve (s : State) (ws : List StrandId) : State :=
  ws.foldl (fun s w => s.onStrand w fun t => { t with raft := none }) s

/-- Each of the members takes its own trap, in core order, as members of the raft; it is what a step of them comes to (20 R363). -/
noncomputable def trapMembers (hs : List (BitVec 16)) : List StrandId → State → Out
  | [], s => .next s
  | w :: ws, s =>
    match s.runHalves w hs with
    | .next t => trapMembers hs ws (t.noteStep w)
    | r => r

/-- The register whose values raft.any and raft.all combine. -/
noncomputable def ballotReg (hs : List (BitVec 16)) : Option (BitVec 4) :=
  match decode hs with
  | .ok (.raftAny o) _ => some o.a
  | .ok (.raftAll o) _ => some o.a
  | _ => none

/-- A member's value for a ballot. -/
def State.voteOf (s : State) (a : BitVec 4) (w : StrandId) : Bool :=
  ((s.deliver w (readyFor (s.strand w).slot)).strand w).getS a != 0

/-- As the first member issues a ballot, every member holds every member's value. -/
def State.holdVotes (s : State) (ws : List StrandId) (a : BitVec 4) : State :=
  let v := ws.map (s.voteOf a)
  ws.foldl (fun s w => s.onStrand w fun t => { t with votes := v }) s

/-- After a member has issued: it has come a step further, and those that have follow the leader's address. -/
def State.followLeader (s : State) (leader : StrandId) (ws : List StrandId) (w : StrandId) : State :=
  let s1 := s.onStrand w fun t => { t with steps := t.steps + 1 }
  let l := s1.strand leader
  if l.wait ≠ .free ∨ l.steps < (s1.strand w).steps then s1
  else
    ws.foldl (fun s x =>
      let t := s.strand x
      if x = leader ∨ t.raft ≠ l.raft ∨ t.wait ≠ .free ∨ t.steps < l.steps ∨ t.pc = l.pc then s
      else s.onStrand x fun t => { t with pc := l.pc }) s1

/-- A member issues the raft's instruction; once one member has, a fault of another dissolves the raft. -/
noncomputable def State.memberRuns (s : State) (leader : StrandId) (ws : List StrandId) (w : StrandId)
    (hs : List (BitVec 16)) : Out :=
  match s.runHalves w hs with
  | .next t =>
    if t.trapped && !(t.strand w).debugHalt then .next (t.dissolve ws)
    else if (t.strand w).unissued || t.trapped then .next t
    else if (t.strand w).raft = (s.strand w).raft then .next (t.followLeader leader ws w)
    else .next t
  | r => r

/-- The leader's fetch fails, for the first member that comes to the instruction, or a later one's does; breakpoints come
first, and a stop for the debugger leaves the raft as it is (09 R179, 20 R359). -/
def State.raftFetch (s : State) (leader : StrandId) (ws : List StrandId) (w : StrandId) (first : Bool) (x : Trap) : State :=
  let y := if first && (breakHit (s.strand w)).isEmpty then leader else w
  let x' := match breakHit (s.strand y) with | [] => x | ks => breakTrap ks
  let t := (s.present y []).takeTrap y x'
  if (t.strand y).debugHalt then (t.endSteps ws).notIssued w (y == w)
  else ((((s.dissolve ws).present y []).takeTrap y x').noteStep y).notIssued w (y == w)

/-- The instruction of a raft is checked on every member: one that must wait first, or that a debugger stops, holds them all;
if any faults, it takes effect on none; else a member issues it. -/
noncomputable def State.checkRaft (s : State) (leader : StrandId) (ws : List StrandId) (w : StrandId)
    (hs : List (BitVec 16)) : Out :=
  match ws.find? (s.mustHold hs) with
  | some x =>
    match s.runHalves x hs with
    | .next t => .next ((if t.trapped then t.endSteps ws else t).notIssued w (x == w))
    | r => r
  | none =>
    let bad := ws.filter (s.faults hs)
    if bad.isEmpty then s.memberRuns leader ws w hs
    else
      match trapMembers hs bad s with
      | .next t => .next ((t.dissolve ws).notIssued w (bad.contains w))
      | r => r

/-- Issue the instruction of a raft on a member, as its leader fetches it; the first member to issue it checks it on every
one. -/
noncomputable def State.issueRaft (s0 : State) (leader : StrandId) (ws : List StrandId) (w : StrandId) : Out :=
  let first := ws.all fun x => (s0.strand x).steps == (s0.strand w).steps
  let pc := (s0.strand w).pc
  match s0.fetchInstr leader pc with
  | .bad va code => .next (s0.raftFetch leader ws w first (fetchTrap va code))
  | .halves hs =>
    let s := s0.fetchRead leader pc hs.length
    if !first then s.memberRuns leader ws w hs
    else
      match ballotReg hs with
      | none => s.checkRaft leader ws w hs
      | some a => (s.holdVotes ws a).checkRaft leader ws w hs

/-! ### The issue of a core -/

/-- A strand that had to wait did not issue: the core's memory of who issued last is as before (09 R176). -/
def State.keepOrder (s s0 : State) (w : StrandId) : State :=
  if (s.strand w).unissued then
    s.onCore w.core fun c => { c with lastIssued := (s0.core w.core).lastIssued, yielded := (s0.core w.core).yielded }
  else s

/-- After an instruction of a strand: one that needs more bank-conflict slots than have passed is put off by them, and else a
slot has passed for the other strands of the core (02 R41, R45, 09 R176); one that did not issue took no slot. -/
def State.passSlot (s0 : State) (w : StrandId) (t : State) : State :=
  let n := (t.strand w).conf
  if (t.strand w).unissued then t
  else if (s0.strand w).paid < n then s0.onStrand w fun x => { x with hold := n - x.paid, paid := n }
  else (if n = 0 then t else t.onStrand w fun x => { x with conf := 0 }).tickOthers w

/-- Issue the instruction of a strand, or the end of one at the exit address (09 R170). -/
noncomputable def State.issueStrand (s0 : State) (w : StrandId) : Out :=
  let s := (s0.settled' w.core).noteIssue w
  if s.atExit w then .next ((s.endStrand w).tickOthers w)
  else
    let r := match (s.strand w).raft with
      | none => s.issueOne w
      | some m => s.issueRaft ⟨raftLeader (clusterOf w.core) m, 0⟩
          ((s.members w).filter fun x => (s.strand x).raft == some m) w
    match r with
    | .next t => .next (s0.passSlot w ((t.noteStep w).keepOrder s0 w))
    | r => r

/-- A core issues one instruction if a strand of it is ready; if none is, a slot passes for those that wait for theirs. -/
noncomputable def State.issueCore (s : State) (core : Nat) : Out :=
  match s.nextStrand core with
  | some w => s.issueStrand w
  | none => .next (s.tickOthers ⟨core, 16⟩)

/-- A core has a strand that is ready, or one that waits for its slots. -/
def State.active (s : State) (core : Nat) : Bool := (s.nextStrand core).isSome || s.ticking core

/-- The core that issues when nothing is on the agenda: the one in focus, or else the first that is active. -/
def State.activeCore (s : State) : Option Nat :=
  if s.active s.focus then some s.focus else (s.cores.map (·.1)).find? s.active

/-! ### Moves of the device -/

/-- A branch with its condition, registers, hint, and the addresses of its two arms. -/
structure BranchInfo where
  cond : Nat
  a : BitVec 4
  b : BitVec 4
  hint : Bool
  target : Word
  behind : Word

def brInfo (cond : Nat) (o : Br) (pc : Word) : BranchInfo := ⟨cond, o.a, o.b, o.hint == 1#1, offHalf pc o.off, pc + 4⟩

/-- The conditional branches (04 R76); a compact one is hinted taken when it goes backward (02 R34). -/
noncomputable def branchOf (pc : Word) : Instr → Option BranchInfo
  | .beq o => some (brInfo 0 o pc)
  | .bne o => some (brInfo 1 o pc)
  | .blt o => some (brInfo 2 o pc)
  | .bge o => some (brInfo 3 o pc)
  | .bltw o => some (brInfo 4 o pc)
  | .bgew o => some (brInfo 5 o pc)
  | .banz o => some (brInfo 6 o pc)
  | .baz o => some (brInfo 7 o pc)
  | .cBrz o => some ⟨0, o.a, 0, o.off.msb, offHalf pc o.off, pc + 2⟩
  | .cBrnz o => some ⟨1, o.a, 0, o.off.msb, offHalf pc o.off, pc + 2⟩
  | _ => none

/-- The s registers that an instruction reads which may enter a slipway (15 R281). -/
noncomputable def slipReads : Instr → Option (List (BitVec 4))
  | .cpw o => some [o.a]
  | .cprd _ => some []
  | .cpgo o => some [o.a, o.b]
  | .cpconv o => some [o.a, o.b]
  | .bget o => some [o.a, o.b]
  | .gget o => some [o.a, o.b]
  | .gput o => some [o.a, o.b]
  | .bind o => some [o.a]
  | .unbind _ => some []
  | .card o => some [o.a]
  | .dredge o => some [o.a]
  | .cbinit o => some [o.a, o.b]
  | .cbpushDone o => some [o.a, o.b]
  | .cbpopDone o => some [o.a, o.b]
  | _ => none

/-- The s register that an instruction in a slipway will write. -/
noncomputable def slipWrites : Instr → Option (BitVec 4)
  | .cprd o => some o.d
  | .cpgo o => some o.d
  | .cpconv o => some o.d
  | .bget o => some o.d
  | .gget o => some o.d
  | .gput o => some o.d
  | .unbind o => some o.d
  | .card o => some o.d
  | .dredge o => some o.d
  | .cbinit o => some o.d
  | _ => none

/-- A value of an s register is still to come: a result of the strand, or of an entry of its slipway. -/
noncomputable def Strand.awaits (t : Strand) (a : BitVec 4) : Bool :=
  t.requests (.s a) ||
    (t.pend.any fun e => e.reg == .s a && match e.due with | some d => decide (t.slot < d) | none => true) ||
    a != 0 && t.slipway.any fun e => match decode e.ir with | .ok i _ => slipWrites i == some a | .reject _ => false

/-- A branch whose condition is still to come lets the core run ahead on its predicted arm. -/
def State.startSlip (s : State) (w : StrandId) (b : BranchInfo) : State :=
  let late (r : BitVec 4) : Bool := (s.strand w).pend.any fun e => e.reg == .s r && e.due.isNone
  if late b.a || late b.b then
    s.onStrand w fun t => { t with branch := some ⟨b.cond, b.a, b.b, b.hint, if b.hint then b.target else b.behind⟩ }
  else s

/-- The next instruction of the predicted arm enters the slipway. -/
noncomputable def State.slipEntry (s : State) (w : StrandId) (b : HeldBranch) : State :=
  let t := s.strand w
  if 8 ≤ t.slipway.length then s
  else
    match s.fetchInstr w b.next with
    | .bad _ _ => s
    | .halves hs =>
      match decode hs with
      | .ok i n =>
        match slipReads i with
        | some rs =>
          if rs.any t.awaits then s
          else
            (s.fetchRead w b.next hs.length).onStrand w fun t =>
              { t with
                branch := some { b with next := b.next + BitVec.ofNat 64 (2 * n) }
                slipway := t.slipway ++ [⟨b.next, hs.take n⟩] }
        | none => s
      | .reject _ => s

/-- R281. A strand's slipway takes a step: it begins behind a waiting branch, or takes its next entry. -/
noncomputable def State.slip (s : State) (w : StrandId) : State :=
  let t := s.strand w
  let waits := match t.wait with | .free => false | .retry (.results _) => false | _ => true
  if !t.live || t.halted || waits || t.frame.isSome || t.raft.isSome then s
  else
    match t.branch with
    | some b => s.slipEntry w b
    | none =>
      match s.fetchInstr w t.pc with
      | .bad _ _ => s
      | .halves hs =>
        match decode hs with
        | .ok i _ => match branchOf t.pc i with | some b => s.startSlip w b | none => s
        | .reject _ => s

/-- A core's instruction TLB of 16 entries, or its data TLB of 32, takes a translation where it has room (19 R340). -/
def State.coreFill (s : State) (core : Nat) (fetch : Bool) (e : TlbEntry) (va : Word) : State :=
  let x := s.core core
  if (x.held fetch e.asid va.toNat).isSome then s
  else if fetch then if x.itlb.length < 16 then s.setCore core { x with itlb := x.itlb ++ [e] } else s
  else if x.dtlb.length < 32 then s.setCore core { x with dtlb := x.dtlb ++ [e] } else s

/-- A core takes a translation from its home slice, which a walk fills first where it has it not: a slice of 256 entries
takes one where it has room (19 R340). -/
def State.tlbFill (s : State) (core : Nat) (fetch : Bool) (va : Word) : State :=
  let k := clusterOf core
  let x := s.cluster k
  match s.crewOf core with
  | none => s
  | some c =>
    if Config.windowBase ≤ va.toNat then s
    else
      match x.held c.asid va.toNat, s.walk va.toNat levels c.root.toNat with
      | some e, _ => s.coreFill core fetch e va
      | none, .leaf e bits =>
        let t : TlbEntry := ⟨c.asid, va.toNat / 2 ^ bits, bits, e⟩
        if (x.tlb.filter fun y => y.slice == t.slice).length < 256 then
          (s.setCluster k { x with tlb := x.tlb ++ [t] }).coreFill core fetch t va
        else s
      | none, .fail _ => s

/-- A core's instruction or data TLB loses the translations of an address (19 R340). -/
def State.tlbEvict (s : State) (core : Nat) (fetch : Bool) (va : Word) : State :=
  let x := s.core core
  let keep (t : TlbEntry) : Bool := !t.maps va
  if (if fetch then x.itlb else x.dtlb).all keep then s
  else s.setCore core (if fetch then { x with itlb := x.itlb.filter keep } else { x with dtlb := x.dtlb.filter keep })

/-- The slices of a cluster lose the translations of an address (19 R340). -/
def State.sliceEvict (s : State) (cluster : Nat) (va : Word) : State :=
  let x := s.cluster cluster
  if x.tlb.all fun t => !t.maps va then s else s.setCluster cluster { x with tlb := x.tlb.filter fun t => !t.maps va }

/-- The oldest message of an outbound queue leaves its core (10 R185). -/
def State.depart (s : State) (core : Nat) : State :=
  let c := s.core core
  match c.outbound with
  | [] => s
  | m :: ms => { s.setCore core { c with outbound := ms } with transit := s.transit ++ [m] }

/-- A strand fetches a halfword ahead (04 R84, 14 R253). -/
def State.prefetch (s : State) (w : StrandId) (va : Word) : State :=
  match (s.strand w).fetched.lookup va, s.fetchHalf w va with
  | none, .ok h => (s.fetchRead w va 1).onStrand w fun t => { t with fetched := t.fetched ++ [(va, h)] }
  | _, _ => s

/-- A die's copy of the law table takes an entry (06 R134). -/
def State.lawCopy (s : State) (die n : Nat) : State :=
  if s.dieLaw die n = s.law n ∨ 4 ≤ die then s else s.setDie die { s.die die with laws := FMap.put (s.die die).laws n (s.law n) }

/-- A cluster's law cache drops an entry (06 R120, R134). -/
def State.lawDrop (s : State) (cluster n : Nat) : State :=
  let c := s.cluster cluster
  if (c.laws.lookup n).isNone then s else s.setCluster cluster { c with laws := c.laws.filter fun e => e.1 != n }

/-- The copies of a law's entry that a lawset waits for. -/
def State.lawMoves (s : State) : List Move :=
  s.strands.flatMap fun e =>
    match e.2.wait with
    | .laws n => (List.range 4).map (fun d => Move.lawCopy d n) ++ s.clusters.map fun c => Move.lawDrop c.1 n
    | _ => []

/-- The results that strands wait for arrive (02 R42). -/
def State.lateMoves (s : State) : List Move :=
  s.strands.flatMap fun e =>
    match e.2.wait with
    | .retry (.results rs) => rs.map fun r => Move.event (.resultDelivery ⟨e.1 / 16, e.1 % 16⟩ r)
    | _ => []

/-- The source core of a diverted message that left for its sender's device has no job there, as that device tells: the count of
the black box of its destination's die rises, on this device (10 R191; that the peer's answer is a move of the agenda is the model's,
log entry 124). -/
def State.lostAway (s : State) (n : Nat) : State :=
  match s.departed[n]? with
  | some m => if m.diverted.isSome then { s with departed := s.departed.eraseIdx n }.loseMessage m.dest else s
  | none => s

/-- One of the device's own moves. -/
noncomputable def State.move (s : State) : Move → Out
  | .event i => exec i s
  | .issue c => s.issueCore c
  | .slip c x => .next (s.slip ⟨c, x⟩)
  | .element c n => .next (if s.coreDet c then s else s.runElement c n)
  | .tlbFill c f va => .next (s.tlbFill c f va)
  | .tlbEvict c f va => .next (s.tlbEvict c f va)
  | .sliceEvict c va => .next (s.sliceEvict c va)
  | .depart c => .next (s.depart c)
  | .prefetch c x va => .next (s.prefetch ⟨c, x⟩ va)
  | .lawCopy d n => .next (s.lawCopy d n)
  | .lawDrop k n => .next (s.lawDrop k n)
  | .reading k i v => .next (s.sensorReads k i v)
  | .stop k => .next (s.stop k)
  | .preempt k => .next (s.preempt k)
  | .lost n => .next (s.lostAway n)

/-- What the device may do by itself when no strand is ready. -/
def State.pending (s : State) : List Move :=
  let rows := s.rows.map (·.1)
  let cores := s.cores.map (·.1)
  let dies := s.dies.map (·.1)
  s.lawMoves ++ s.lateMoves ++ ((s.crews.filter fun c => c.2.stopping).map fun c => .stop c.1) ++ rows.flatMap (fun r => [.event (.chainJoin r), .event (.budgetGrant (r / 4)), .event (.mmaDelivery r)]) ++
    cores.flatMap (fun c => .depart c :: .event (.handlerStart c) :: .event (.upcallStart c) ::
      ((s.core c).slots.flatMap fun t => [.event (.transferCompletion c t.1), .event (.copyRingReserve c t.1)]) ++
      (List.range 4).map fun k => .event (.streamFill c k)) ++
    s.strands.flatMap (fun e => [.event (.stepHalt ⟨e.1 / 16, e.1 % 16⟩), .event (.slipwayResolve ⟨e.1 / 16, e.1 % 16⟩)]) ++
    (List.range s.transit.length).map (fun k => .event (.messageDelivery k none)) ++
    dies.flatMap (fun d => [.event (.launchMessage d none), .event (.collectiveContribution d none)]) ++
    s.groups.map (fun g => .event (.collectiveResult g.1)) ++
    s.crews.flatMap (fun c => [.event (.quantumEnd c.1), .event (.jobRetire c.1)]) ++
    s.streams.flatMap (fun t => [.event (.launchCompletion (t.1 / 64) (t.1 % 64)), .event (.dispatch (t.1 / 64))])

/-- A move changes the state. -/
noncomputable def State.changes (s : State) (m : Move) : Bool :=
  match s.move m with
  | .next t => decide (t ≠ s)
  | _ => true

/-- The device acts by itself: the first move that changes anything, if one does. -/
noncomputable def State.idle (s : State) : Out :=
  match s.pending.find? s.changes with
  | some m => s.move m
  | none => .next s

/-! ### Placing an instruction -/

/-- The address at which `placeWord` puts an instruction, and the tables that map it (19 R337, R338). -/
def placePc : Nat := 0x400000
def placeRoot : Nat := 0x100000

/-- Store a doubleword in device memory at its home. -/
def State.putWord (s : State) (a v : Nat) : State := (List.range 8).foldl (fun s k => s.homeWrite (a + k) (byteOf v k)) s

/-- Tables that map the 2 MiB page of `placePc` onto the same frame, for any level and any use. -/
def State.placeTables (s : State) : State :=
  ((s.putWord placeRoot (2 ^ 63 + (placeRoot + 0x2000))).putWord (placeRoot + 0x2000) (2 ^ 63 + (placeRoot + 0x4000))).putWord
    (placeRoot + 0x4000 + 2 * 8) (2 ^ 63 + 2 ^ 62 + placePc + 0xF0)

/-- A crew of row 0, as a job of an undeterministic launch has it. -/
def placeCrew : Crew where
  stream := 0
  launch := 0
  job := 0
  rows := [0]
  refRows := [0]
  past := []
  root := BitVec.ofNat 64 placeRoot
  asid := 0
  save := none
  debugger := false
  deps := []
  arrivals := 0
  det := false
  qlog := 0
  qnext := none
  requests := []
  suspended := []
  numbered := 0
  seed := 0
  htab := 0
  tide := 0
  snapshot := []
  wake := []
  early := []
  layer := none
  base := []
  direct := []
  barriers := []
  berth := []
  staged := []
  phase := 0
  rival := none
  rule := 0
  allowance := none
  roundNo := 0
  rank := 0
  won := 0
  ends := 0
  served := false
  overfull := false
  finished := none
  drawn := 0
  lastDraw := 0
  held := false
  stopping := false
  serving := none

/-- Place an instruction as the next that the control strand of core 0 fetches: the load that a launch of a program
performs (log entry 1). The strand keeps the level it has; it is live, ready, and alone, and the slots before its issue have
passed. -/
def State.placeWord (s : State) (nbits w : Nat) : State :=
  let bytes := (tableHalves nbits w).flatMap fun (h : BitVec 16) => [h.setWidth 8, (h >>> 8).setWidth 8]
  let s1 := (bytes.zipIdx.foldl (fun s e => s.homeWrite (placePc + e.2) e.1) (s.setCrew 0 placeCrew).placeTables)
  let s2 := s1.onCore 0 fun c => { c with crew := some 0, index := 0, yielded := none, itlb := [], dtlb := [] }
  let s3 := s2.setCluster 0 { s2.cluster 0 with cache := [], tlb := [] }
  let s4 := s3.onStrand ⟨0, 0⟩ fun t =>
    { t with
      live := true
      pc := BitVec.ofNat 64 placePc
      det := false
      frame := none
      wait := .free
      halted := false
      settling := false
      branch := none
      raft := none
      ib := Vector.replicate 4 0
      fetched := []
      stale := []
      hold := 0
      paid := 255
      conf := 0 }
  { s4 with
    jobs := max s4.jobs 1
    strands := s4.strands.filter fun e => e.1 / 16 != 0 || e.1 == 0
    dead := false
    powered := true
    agenda := []
    focus := 0 }

end Sys2Proof.Machine
end

