-- ==== Sys2Proof/Machine/Step.lean ====
section
/-!
DEFINITION. One step of the device: the oldest event or move of the agenda, or else the next instruction of the core in
focus, or else what the device does by itself. `State.withFetchWord` places an instruction where the next step fetches.
-/
namespace Sys2Proof.Machine
open Sys2Proof

/-- What a device still takes that a device-fatal error stopped (24 R390 to R392). -/
def Move.survives : Move → Bool
  | .event .coldReset => true
  | .event .warmReset => true
  | .event .powerRemoval => true
  | .event (.readBlackBox ..) => true
  | _ => false

/-- What a device takes that has no power. -/
def Move.wakes : Move → Bool
  | .event .coldReset => true
  | _ => false

/-- One step. -/
noncomputable def step (s : State) : Host.Outcome State Fault Refusal :=
  match s.agenda with
  | m :: rest =>
    let s1 := { s with agenda := rest }
    if s.dead && !m.survives then .fault .deviceFatal
    else if !s.powered && !m.wakes then .next s1
    else s1.move m
  | [] =>
    if s.dead then .fault .deviceFatal
    else
      match s.activeCore with
      | some c => s.issueCore c
      | none => s.idle

/-- The next step fetches the instruction whose bits are `w`. -/
def State.withFetchWord (s : State) (nbits w : Nat) : State := s.placeWord nbits w

end Sys2Proof.Machine
end

