-- ==== Sys2Proof/Safety.lean ====
section
/-!
DEFINITION. The terms in which claims are made: a strand that nothing holds back, what it means that an instruction retires
with an effect, and the invariants of the state.
-/
namespace Sys2Proof.Machine
open Sys2Proof

/-! ### Retiring with an effect -/

/-- Nothing holds the current strand back: no result of it is in flight or requested, it waits for nothing, and no register of it or
of its core fails its check code (24 R390). -/
structure Settled (s : State) : Prop where
  pend : (s.strand s.cur).pend = []
  requested : (s.strand s.cur).requested = []
  wait : (s.strand s.cur).wait = .free
  sound : (s.strand s.cur).fails = []
  coreSound : (s.core s.cur.core).fails = []

/-- Nothing holds the current strand back at its registers: it is settled, and no register stream is bound on its core. -/
structure Calm (s : State) : Prop extends Settled s where
  streams : (s.core s.cur.core).streams = Vector.replicate 4 none

/-- The current strand owns every vector register of a list (01 R14). -/
def Owned (s : State) (vs : List (BitVec 5)) : Prop := ∀ v ∈ vs, s.owns s.cur v = true

/-- The slot in which an instruction of the current strand issues: bank-conflict slots come first (02 R41, R45). -/
def State.issueSlot (s : State) (x : Issue) : Nat :=
  (s.strand s.cur).slot + bankConflicts (bankReads (s.strand s.cur).obuf (s.bankSrcs s.cur x))

/-- The state after an instruction of the current strand whose effect on `s` is `u` retires: the strand goes on to the
next instruction, its slots are spent, and a deterministic launch counts it (02 R40, R41, 16 R286). -/
def State.retire (s u : State) (x : Issue) : State :=
  (u.onStrand s.cur fun t => (t.follow (irBytes s.ir)).spend (s.issueSlot x) x.sc (s.bankSrcs s.cur x)).countRetired s.cur

/-- The state after a control transfer to `pc` by an instruction of the current strand whose effect on `s` is `u`. -/
def State.retireTo (s u : State) (x : Issue) (pc : Word) : State :=
  ((u.onStrand s.cur fun t => t.spend (s.issueSlot x) x.sc (s.bankSrcs s.cur x)).countRetired s.cur).transfer s.cur pc

/-- The bytes of a mask written to a register; s0, p0 and vz discard what is written to them (01 R10, R13). -/
def State.write (s : State) (w : StrandId) (r : Reg) (v mask : VReg) : State :=
  if Reg.discards r then s else s.putReg w r v mask

/-- The instruction answers a next state, and once its result is delivered that state is the one in which it has retired
with the effect `u` on the state `s`, one register written, and nothing else changed. -/
def GivesOn (s u : State) (i : Instr) (x : Issue) (r : Reg) (v mask : VReg) : Prop :=
  ∃ t, exec i s = .next t ∧ t.deliverAll s.cur = s.retire (u.write s.cur r v mask) x

/-- The same with no effect but the register. -/
def Gives (s : State) (i : Instr) (x : Issue) (r : Reg) (v mask : VReg) : Prop := GivesOn s s i x r v mask

/-- The instruction answers the state in which it has retired with the effect `u` on the state `s`. -/
def Does (s : State) (i : Instr) (x : Issue) (u : State) : Prop := exec i s = .next (s.retire u x)

/-- The instruction answers the state in which it has retired with the effect `u` and control is at `pc`. -/
def Jumps (s : State) (i : Instr) (x : Issue) (u : State) (pc : Word) : Prop := exec i s = .next (s.retireTo u x pc)

/-- The instruction answers the state in which it has trapped, with no effect of its own (19 R330). -/
def Traps (s : State) (i : Instr) (y : Trap) : Prop := exec i s = .next (s.takeTrap s.cur y)

/-- The same for an s, f and p register. -/
def GivesS (s : State) (i : Instr) (x : Issue) (d : BitVec 4) (v : Word) : Prop := Gives s i x (.s d) (v.setWidth 2048) fullMask
def GivesF (s : State) (i : Instr) (x : Issue) (d : BitVec 3) (v : Word) : Prop := Gives s i x (.f d) (v.setWidth 2048) fullMask
def GivesP (s : State) (i : Instr) (x : Issue) (d : BitVec 3) (v : Pred) : Prop := Gives s i x (.p d) (v.setWidth 2048) fullMask

/-- A word written to an s register of the current strand. -/
def State.writeS (s : State) (d : BitVec 4) (v : Word) : State := s.write s.cur (.s d) (v.setWidth 2048) fullMask

/-- The instruction retires with the effect `u`, and once its results are delivered two s registers are written, the first
before the second. -/
def GivesTwo (s u : State) (i : Instr) (x : Issue) (d : BitVec 4) (v : Word) (d' : BitVec 4) (v' : Word) : Prop :=
  ∃ t, exec i s = .next t ∧ t.deliverAll s.cur = s.retire ((u.writeS d v).writeS d' v') x

/-- An s register is written, on an effect `u`. -/
def GivesSOn (s u : State) (i : Instr) (x : Issue) (d : BitVec 4) (v : Word) : Prop :=
  GivesOn s u i x (.s d) (v.setWidth 2048) fullMask

/-- The instruction answers the state in which it has retired with the effect `u` and a variable-latency result for an s
register is on its way or written (02 R42). -/
def Answers (s u : State) (i : Instr) (x : Issue) (d : BitVec 4) (v : Word) : Prop :=
  Does s i x (u.resultS s.cur .variable (s.issueSlot x) d v)

/-- The instruction answers the state in which the strand waits at it for a condition, with no effect (02 R41). -/
def Waits (s : State) (i : Instr) (c : Cond) : Prop := exec i s = .next (s.stay s.cur (.retry c))

/-- The current strand's s, f and p registers, and vector registers as it reads them. -/
def State.rs (s : State) (n : BitVec 4) : Word := (s.strand s.cur).getS n
def State.rf (s : State) (n : BitVec 3) : Word := (s.strand s.cur).getF n
def State.rp (s : State) (n : BitVec 3) : Pred := (s.strand s.cur).getP n
/-- The address of the instruction that the current strand issues. -/
def State.rpc (s : State) : Word := (s.strand s.cur).pc
def State.rv (s : State) (n : BitVec 5) : VReg := (s.core s.cur.core).getV n

/-! ### Views of memory -/

/-- What a strand of the core has written stays in its view of memory: in a deterministic launch always, and elsewhere as long as
its cluster's cache holds no dirty byte of a replicated page, which would go to the copy of each die (13 R233). -/
def State.apart (s : State) (core : Nat) : Prop :=
  s.coreDet core = true ∨ ∀ e l, FMap.find (s.cluster (clusterOf core)).cache e = some l → l.dirty ≠ 0 → repKey (e * 64) = false

/-- A strand's read of `n` bytes from a number on evicts no line that another strand wrote: in a deterministic launch it reads past
the cache (16 R290), and elsewhere the lines are clean or its own (log entry 6). -/
def State.readsOwn (s : State) (w : StrandId) (key n : Nat) : Prop :=
  s.coreDet w.core = true ∨ ∀ k l, k < n →
    FMap.find (s.cluster (clusterOf w.core)).cache ((key + k) / 64) = some l → l.dirty = 0 ∨ l.writer = some (StrandId.key w)

/-! ### Invariants -/

/-- Memory stands in its canonical form, so that equal memories are equal data. -/
def State.memOk (s : State) : Prop := Memory.wf s.mem = true

/-- The maps of the state's parts have rising numbers. -/
def State.mapsOk (s : State) : Prop :=
  FMap.rising s.strands = true ∧ FMap.rising s.cores = true ∧ FMap.rising s.clusters = true ∧ FMap.rising s.dies = true

end Sys2Proof.Machine
end

