-- ==== Sys2Proof/Certificates/Slice0/Obligations.lean ====
section
/-!
DEFINITION. The statements for the provers. Each names the rules of the specification that it formalises. A completion
statement says of an instruction that `exec` answers a next state, and which: `Gives`, `Does` and `Traps` (Safety.lean)
name that whole state, so each of them is the instruction's frame too.
-/
section
open Sys2Proof Sys2Proof.Machine

/-! ### Scalar integers (04) -/

/-- 04 R72, R73: what each register form writes to s[d], in whole numbers: A and B are the patterns of s[a] and s[b], SA and SB
their signed values, and a form marked 32 extends bit 31 of its value; the unary forms count the leading zeros, the trailing zeros and the ones of s[a]. The divides
truncate toward zero, the remainders take the sign of the dividend, division by zero gives all ones with the dividend as the remainder, and no case faults. -/
def Obligations.IntegerForms : Prop :=
  (∀ (s : State) (o : R3), Calm s →
    let A : Nat := (s.rs o.a).toNat
    let B : Nat := (s.rs o.b).toNat
    let SA : Int := (s.rs o.a).toInt
    let SB : Int := (s.rs o.b).toInt
    let k : Nat := B % 64
    let k32 : Nat := B % 32
    let W (v : Int) : Word := BitVec.ofInt 64 v
    let W32 (v : Int) : Word := (BitVec.ofInt 32 v).signExtend 64
    let clamp (v : Int) : Int := if v < -2 ^ 63 then -2 ^ 63 else if 2 ^ 63 - 1 < v then 2 ^ 63 - 1 else v
    let clampW (v : Int) : Int := if v < 0 then 0 else if 2 ^ 64 - 1 < v then 2 ^ 64 - 1 else v
    let gives (i : Instr) (v : Word) : Prop := GivesS s i (plain o.sc [.s o.a, .s o.b]) o.d v
    gives (.add o) (W (A + B)) ∧ gives (.sub o) (W (A - B)) ∧
    gives (.and o) (s.rs o.a &&& s.rs o.b) ∧ gives (.or o) (s.rs o.a ||| s.rs o.b) ∧
    gives (.xor o) (s.rs o.a ^^^ s.rs o.b) ∧
    gives (.sll o) (W (A * 2 ^ k)) ∧ gives (.srl o) (W (A / 2 ^ k)) ∧ gives (.sra o) (W (SA / 2 ^ k)) ∧
    gives (.slt o) (if SA < SB then 1 else 0) ∧ gives (.sltw o) (if A < B then 1 else 0) ∧
    gives (.seq o) (if A = B then 1 else 0) ∧ gives (.sne o) (if A ≠ B then 1 else 0) ∧
    gives (.min o) (W (min SA SB)) ∧ gives (.max o) (W (max SA SB)) ∧
    gives (.minw o) (W (min A B : Nat)) ∧ gives (.maxw o) (W (max A B : Nat)) ∧
    gives (.mul o) (W (A * B)) ∧ gives (.mulh o) (W (SA * SB / 2 ^ 64)) ∧ gives (.mulhw o) (W (A * B / 2 ^ 64)) ∧
    gives (.adds o) (W (clamp (SA + SB))) ∧ gives (.subs o) (W (clamp (SA - SB))) ∧
    gives (.addsw o) (W (clampW (A + B))) ∧ gives (.subsw o) (W (clampW (A - B))) ∧
    gives (.add32 o) (W32 (A + B)) ∧ gives (.sub32 o) (W32 (A - B)) ∧ gives (.mul32 o) (W32 (A * B)) ∧
    gives (.sll32 o) (W32 (A * 2 ^ k32)) ∧ gives (.srl32 o) (W32 (A % 2 ^ 32 / 2 ^ k32)) ∧
    gives (.sra32 o) (W32 ((BitVec.ofNat 32 A).toInt / 2 ^ k32)) ∧
    gives (.rol o) (W (A * 2 ^ k + A / 2 ^ (64 - k))) ∧ gives (.ror o) (W (A * 2 ^ (64 - k) + A / 2 ^ k))) ∧
  (∀ (s : State) (o : R2), Calm s →
    let A : Word := s.rs o.a
    let gives (i : Instr) (v : Nat) : Prop := GivesS s i (plain o.sc [.s o.a]) o.d (BitVec.ofNat 64 v)
    gives (.clz o) ((List.range 64).takeWhile fun i => !A.getMsbD i).length ∧
    gives (.ctz o) ((List.range 64).takeWhile fun i => !A.getLsbD i).length ∧
    gives (.popc o) ((List.range 64).filter fun i => A.getLsbD i).length) ∧
  (∀ (s : State) (o : R3), Calm s →
    let A : Word := s.rs o.a
    let B : Word := s.rs o.b
    let gives (i : Instr) (v : Word) : Prop := GivesS s i (plain o.sc [.s o.a, .s o.b]) o.d v
    (B = 0 →
      gives (.div o) (BitVec.allOnes 64) ∧ gives (.divw o) (BitVec.allOnes 64) ∧ gives (.rem o) A ∧ gives (.remw o) A) ∧
    (A = 0x8000000000000000 → B = BitVec.allOnes 64 → gives (.div o) 0x8000000000000000 ∧ gives (.rem o) 0) ∧
    (B ≠ 0 →
      gives (.div o) (BitVec.ofInt 64 (A.toInt.tdiv B.toInt)) ∧ gives (.divw o) (BitVec.ofNat 64 (A.toNat / B.toNat)) ∧
      gives (.rem o) (BitVec.ofInt 64 (A.toInt - B.toInt * A.toInt.tdiv B.toInt)) ∧
      gives (.remw o) (BitVec.ofNat 64 (A.toNat - B.toNat * (A.toNat / B.toNat)))))

/-- 04 R74, R75: an immediate form has the effect of its register form with the sign-extended immediate, a shift form takes
its count from the immediate, and the upper immediates stand in bit 12 up. -/
def Obligations.ImmediateForms : Prop :=
  ∀ (s : State), Calm s →
    let W (v : Int) : Word := BitVec.ofInt 64 v
    let W32 (v : Int) : Word := (BitVec.ofInt 32 v).signExtend 64
    (∀ o : RI,
      let A : Word := s.rs o.a
      let I : Word := W o.imm.toInt
      let gives (i : Instr) (v : Word) : Prop := GivesS s i (plain o.sc [.s o.a]) o.d v
      gives (.addi o) (W (A.toNat + I.toNat)) ∧ gives (.andi o) (A &&& I) ∧ gives (.ori o) (A ||| I) ∧
      gives (.xori o) (A ^^^ I) ∧ gives (.slti o) (if A.toInt < o.imm.toInt then 1 else 0) ∧
      gives (.sltwi o) (if A.toNat < I.toNat then 1 else 0) ∧ gives (.seqi o) (if A = I then 1 else 0) ∧
      gives (.addi32 o) (W32 (A.toNat + I.toNat))) ∧
    (∀ o : RSh6,
      let A : Word := s.rs o.a
      let n : Nat := o.sh.toNat
      let gives (i : Instr) (v : Word) : Prop := GivesS s i (plain o.sc [.s o.a]) o.d v
      gives (.slli o) (W (A.toNat * 2 ^ n)) ∧ gives (.srli o) (W (A.toNat / 2 ^ n)) ∧ gives (.srai o) (W (A.toInt / 2 ^ n))) ∧
    (∀ o : RSh5,
      let A : Word := s.rs o.a
      let n : Nat := o.sh.toNat
      let gives (i : Instr) (v : Word) : Prop := GivesS s i (plain o.sc [.s o.a]) o.d v
      gives (.slli32 o) (W32 (A.toNat * 2 ^ n)) ∧ gives (.srli32 o) (W32 (A.toNat % 2 ^ 32 / 2 ^ n)) ∧
      gives (.srai32 o) (W32 ((BitVec.ofNat 32 A.toNat).toInt / 2 ^ n))) ∧
    (∀ o : RU,
      GivesS s (.lhi o) (plain o.sc []) o.d (W (o.u.toInt * 4096)) ∧
      GivesS s (.pchi o) (plain o.sc []) o.d (W ((s.strand s.cur).pc.toNat + o.u.toInt * 4096)))

/-- 02 R34: each compact form that computes, branches, jumps, or loads or stores through a register answers the next state that the
instruction answers which it stands for, with stall count 0. -/
def Obligations.CompactForms : Prop :=
  ∀ (s : State), Calm s →
    let same (c i : Instr) : Prop := ∃ t, exec c s = .next t ∧ exec i s = .next t
    (∀ o : CI7, same (.cInc o) (.addi ⟨o.d, o.d, o.imm.signExtend 12, 0⟩) ∧
      same (.cSet o) (.addi ⟨o.d, 0, o.imm.signExtend 12, 0⟩)) ∧
    (∀ o : CR2,
      let r : R3 := ⟨o.d, o.d, o.a, 0⟩
      same (.cCp o) (.add ⟨o.d, o.a, 0, 0⟩) ∧
      same (.cAddr o) (.add r) ∧ same (.cSubr o) (.sub r) ∧ same (.cAndr o) (.and r) ∧ same (.cOrr o) (.or r) ∧
      same (.cXorr o) (.xor r) ∧ same (.cSllr o) (.sll r) ∧ same (.cSrar o) (.sra r) ∧ same (.cSltr o) (.slt r) ∧
      same (.cSltwr o) (.sltw r) ∧ same (.cSeqr o) (.seq r) ∧ same (.cSner o) (.sne r) ∧ same (.cMinr o) (.min r) ∧
      same (.cMaxr o) (.max r) ∧ same (.cMinwr o) (.minw r) ∧ same (.cMaxwr o) (.maxw r)) ∧
    (∀ o : CSh, same (.cShl o) (.slli ⟨o.d, o.d, o.sh, 0⟩) ∧ same (.cSar o) (.srai ⟨o.d, o.d, o.sh, 0⟩)) ∧
    (∀ o : CF2,
      let r : F3 := ⟨o.d, o.d, o.a, 0, 0⟩
      same (.cFadd o) (.fadd r) ∧ same (.cFsub o) (.fsub r) ∧ same (.cFmul o) (.fmul r) ∧ same (.cFmin o) (.fmin r) ∧
      same (.cFmax o) (.fmax r) ∧ same (.cFneg o) (.fneg ⟨o.d, o.a, 0, 0⟩) ∧ same (.cFabs o) (.fabs ⟨o.d, o.a, 0, 0⟩)) ∧
    (∀ o : CBr,
      let hint : BitVec 1 := if o.off.toInt < 0 then 1 else 0
      same (.cBrz o) (.beq ⟨o.a, 0, hint, o.off.signExtend 12, 0⟩) ∧
      same (.cBrnz o) (.bne ⟨o.a, 0, hint, o.off.signExtend 12, 0⟩)) ∧
    (∀ o : CA, same (.cJreg o) (if o.a = 15 then .jlrRet ⟨0, 15, 0, 0⟩ else .jlr ⟨0, o.a, 0, 0⟩)) ∧
    (∀ o : CGo, same (.cGo o) (.jl ⟨0, o.off.signExtend 20, 0⟩)) ∧
    (∀ d a : BitVec 4,
      let m : Mem := ⟨d, a, 0, 0⟩
      same (.cLr ⟨d, a, 0⟩) (.ldI8 m) ∧ same (.cLr ⟨d, a, 1⟩) (.ldI16 m) ∧ same (.cLr ⟨d, a, 2⟩) (.ldI32 m) ∧
      same (.cLr ⟨d, a, 3⟩) (.ldI64 m) ∧ same (.cLr ⟨d, a, 4⟩) (.ldW8 m) ∧ same (.cLr ⟨d, a, 5⟩) (.ldW16 m) ∧
      same (.cLr ⟨d, a, 6⟩) (.ldW32 m) ∧ same (.cSr ⟨d, a, 0⟩) (.st8 m) ∧ same (.cSr ⟨d, a, 1⟩) (.st16 m) ∧
      same (.cSr ⟨d, a, 2⟩) (.st32 m) ∧ same (.cSr ⟨d, a, 3⟩) (.st64 m)) ∧
    (∀ o : CVm, Owned s [o.d, o.a] → same (.cVmv o) (.vmv ⟨none, 0, 0, o.a, o.d, 0⟩))

/-! ### Control transfers (04) -/

/-- 04 R76: a branch goes to its target exactly when its condition holds, else to the next instruction; it writes no
register, and its hint never changes the result. -/
def Obligations.BranchForms : Prop :=
  ∀ (s : State) (o : Br), Calm s →
    let A : Word := s.rs o.a
    let B : Word := s.rs o.b
    let x : Issue := plain o.sc [.s o.a, .s o.b]
    let target : Word := BitVec.ofInt 64 (s.rpc.toNat + o.off.toInt * 2)
    let branches (i : Instr) (c : Prop) : Prop := (c → Jumps s i x s target) ∧ (¬c → Does s i x s)
    branches (.beq o) (A = B) ∧ branches (.bne o) (A ≠ B) ∧
    branches (.blt o) (A.toInt < B.toInt) ∧ branches (.bge o) (B.toInt ≤ A.toInt) ∧
    branches (.bltw o) (A.toNat < B.toNat) ∧ branches (.bgew o) (B.toNat ≤ A.toNat) ∧
    branches (.banz o) (A &&& B ≠ 0) ∧ branches (.baz o) (A &&& B = 0)

/-- 04 R78, R79, R80, 09 R170: a jump writes the address behind it to s[d], after its target has been read; jl with d = 15 and
jlr.call push that address on the return-address stack of eight entries, and jlr.ret pops it. A control transfer sets the pc and nothing else, but to the exit address, where
a control strand of no raft with no stream ends: it stops being live. -/
def Obligations.JumpForms : Prop :=
  (∀ (s : State), Calm s →
    let link (u : State) (d : BitVec 4) : State := u.writeS d (s.rpc + 4)
    let push (u : State) : State := u.onStrand s.cur fun t => { t with ras := ((s.rpc + 4) :: t.ras).take 8 }
    let pop (u : State) : State := u.onStrand s.cur fun t => { t with ras := t.ras.drop 1 }
    (∀ o : Jl,
      let target : Word := BitVec.ofInt 64 (s.rpc.toNat + o.off.toInt * 2)
      Jumps s (.jl o) (plain o.sc []) (if o.d = 15 then push (link s o.d) else link s o.d) target) ∧
    (∀ o : RI,
      let t : Nat := (s.rs o.a + o.imm.signExtend 64).toNat
      let target : Word := BitVec.ofNat 64 (t - t % 2)
      let x : Issue := plain o.sc [.s o.a]
      Jumps s (.jlr o) x (link s o.d) target ∧
      Jumps s (.jlrCall o) x (push (link s o.d)) target ∧
      Jumps s (.jlrRet o) x (pop (link s o.d)) target)) ∧
  (∀ (s : State) (w : StrandId) (pc : Word),
    ((w.ctx ≠ 0 ∨ pc ≠ 0xFFFFFFFFFFFFE) →
      s.transfer w pc = s.setStrand w { s.strand w with pc := pc }) ∧
    (w.ctx = 0 → pc = 0xFFFFFFFFFFFFE → (s.strand w).raft = none →
      (s.core w.core).streams = Vector.replicate 4 none → ((s.transfer w pc).strand w).live = false))


/-! ### Scalar loads and stores (04, 01) -/

/-- 04 R81, 01 R23, R27: the checks of an access of n bytes, in their order: the address form of every byte of it, the alignment, translation,
ownership and permission, and the watchpoints, of which the trap names all that match (20 R361); the first that fails traps with its class and code, and the address is the access's.
Behind them a read of bytes that fail their check code, as the read finds them, traps with class 0 (24 R390). The first offence of a strand is recorded in ctx.oob and
ctx.oobpc: valid, whether it wrote, its window and its address, and the pc; a later one changes nothing. -/
def Obligations.AccessChecks : Prop :=
  (∀ (s : State) (w : StrandId) (acc : Machine.Acc) (va : Word) (n : Nat), n = 1 ∨ n = 2 ∨ n = 4 ∨ n = 8 →
    let wr : Bool := acc = .write ∨ acc = .rmw
    ((∃ k, k < n ∧ 2 ^ 52 ≤ (va + BitVec.ofNat 64 k).toNat) → s.reach w acc va n = .trap (trapAt 4 0 va wr)) ∧
    ((∀ k, k < n → (va + BitVec.ofNat 64 k).toNat < 2 ^ 52) → va.toNat % n ≠ 0 →
      s.reach w acc va n = .trap (trapAt 5 0 va wr)) ∧
    (va.toNat < 2 ^ 52 → va.toNat % n = 0 →
      (∀ cls code, s.look (s.agent w) acc va = .bad cls code → s.reach w acc va n = .trap (trapAt cls code va wr)) ∧
      (∀ ks a, (∀ cls code, s.look (s.agent w) acc va ≠ .bad cls code) → watchHit (s.strand w) acc va n = some (ks, a) →
        s.reach w acc va n = .trap { trapAt 18 2 a wr with brk := ks.map (4 + ·) } ∧
        ∀ k, k ∈ ks ↔ k < 2 ∧ (watchAt (s.strand w) acc va n k).isSome = true) ∧
      (∀ l, s.look (s.agent w) acc va = .place l → watchHit (s.strand w) acc va n = none →
        ((acc.reads = true → (s.viewRead w l n).viewFail w l n = none) → s.reach w acc va n = .at l) ∧
        (∀ code, acc.reads = true → (s.viewRead w l n).viewFail w l n = some code → s.reach w acc va n = .trap (trapAt 0 code va wr))) ∧
      (s.look (s.agent w) acc va = .out → watchHit (s.strand w) acc va n = none → s.reach w acc va n = .out))) ∧
  (∀ (s : State) (w : StrandId) (va : Word) (wr : Bool),
    let t : Strand := s.strand w
    (t.oob.getLsbD 63 = true → s.offence w va wr = s) ∧
    (t.oob.getLsbD 63 = false → va.toNat < 2 ^ 52 → 0xFFFFFFF000000 ≤ va.toNat →
      let o : Nat := va.toNat - 0xFFFFFFF000000
      let win : Nat := if o < 0x10000 then 0 else if 0x200000 ≤ o ∧ o < 0x400000 then 1
        else if 0x400000 ≤ o ∧ o < 0x600000 then 2 else 3
      s.offence w va wr = s.setStrand w
        { t with
          oob := BitVec.ofNat 64 (2 ^ 63 + (if wr then 2 ^ 62 else 0) + win * 2 ^ 60 + va.toNat)
          oobpc := BitVec.ofNat 64 (t.pc.toNat % 2 ^ 52 / 2 * 2) }))

/-- 01 R23 to R26: where a window address of a core goes: the first 16 KiB of the own local-store window, the granted pages of
the scratchpad window, and a peer's local store when it is the own core's or the peer mask names it, but never that of a core of another rival, which
is class 11 code 3 (16 R301); every other byte of window space is out of range, and no translation takes part. -/
def Obligations.WindowPlaces : Prop :=
  ∀ (s : State) (a : Agent) (acc : Machine.Acc) (o : Nat), acc ≠ .fetch → o < 0x1000000 →
    let c : Core := s.core a.core
    let at' : Look := s.look a acc (BitVec.ofNat 64 (0xFFFFFFF000000 + o))
    (o < 0x4000 → at' = .place (.store a.core o true)) ∧
    (0x4000 ≤ o → o < 0x10000 → at' = .out) ∧
    (0x10000 ≤ o → o < 0x200000 → at' = .out) ∧
    (0x200000 ≤ o → o < 0x400000 →
      let b : Nat := c.spBase.toNat * 4096 + (o - 0x200000)
      (o - 0x200000 < min c.spLen.toNat 256 * 4096 → b < 0x100000 → at' = .place (.pad (a.core / 32) b)) ∧
      (¬(o - 0x200000 < min c.spLen.toNat 256 * 4096 ∧ b < 0x100000) → at' = .out)) ∧
    (0x400000 ≤ o → o < 0x600000 →
      let i : Nat := (o - 0x400000) / 0x10000
      let b : Nat := (o - 0x400000) % 0x10000
      let p : Nat := s.peerCore a.core i
      let rival : Bool := s.otherRival c.crew p
      (rival = true → at' = .bad 11 3) ∧
      (rival = false → b < 0x4000 → (p = a.core ∨ c.peermask.getLsbD i = true) → at' = .place (.store p b false)) ∧
      (rival = false → ¬(b < 0x4000 ∧ (p = a.core ∨ c.peermask.getLsbD i = true)) → at' = .out)) ∧
    (0x600000 ≤ o → at' = .out)

/-- 04 R82: what the loads give: the bytes found at the place, low byte first, as the read itself leaves the lines that hold them (14 R241), extended as the mnemonic says; bytes out of
range read as zero, and the strand's first such access is recorded (01 R26, R27); outside a deterministic launch the lines read are filled in the cluster cache (13 R229). -/
def Obligations.LoadForms : Prop :=
  ∀ (s : State), Calm s →
    let after (r : Reach) (va : Word) (n : Nat) : State := match r with
      | .at l => s.viewRead s.cur l n
      | .out => s.offence s.cur va false
      | .trap _ => s
    let value (r : Reach) (va : Word) (n : Nat) : Nat := (after r va n).unitValue s.cur r n
    let signed (n v : Nat) : Word := BitVec.ofInt 64 (if 2 ^ (8 * n - 1) ≤ v then (v : Int) - 2 ^ (8 * n) else v)
    let whole (v : Nat) : Word := BitVec.ofNat 64 v
    (∀ o : Mem,
      let va : Word := s.rs o.a + o.off.signExtend 64
      let loads (i : Instr) (n : Nat) (f : Nat → Word) : Prop :=
        (∀ r, s.reach s.cur .read va n = r → (∀ y, r ≠ .trap y) →
          GivesOn s (after r va n) i (plain o.sc [.s o.a]) (.s o.t) ((f (value r va n)).setWidth 2048) fullMask) ∧
        (∀ y, s.reach s.cur .read va n = .trap y → Traps s i y)
      loads (.ldI8 o) 1 (signed 1) ∧ loads (.ldI16 o) 2 (signed 2) ∧ loads (.ldI32 o) 4 (signed 4) ∧
      loads (.ldI64 o) 8 whole ∧ loads (.ldW8 o) 1 whole ∧ loads (.ldW16 o) 2 whole ∧ loads (.ldW32 o) 4 whole) ∧
    (∀ o : MemF,
      let va : Word := s.rs o.a + o.off.signExtend 64
      let loads (i : Instr) (n : Nat) : Prop :=
        (∀ r, s.reach s.cur .read va n = r → (∀ y, r ≠ .trap y) →
          GivesOn s (after r va n) i (plain o.sc [.s o.a]) (.f o.t) ((whole (value r va n)).setWidth 2048) fullMask) ∧
        (∀ y, s.reach s.cur .read va n = .trap y → Traps s i y)
      loads (.fldF32 o) 4 ∧ loads (.fldH16 o) 2 ∧ loads (.fldBf16 o) 2 ∧ loads (.fld64 o) 8) ∧
    (∀ d a : BitVec 4,
      let va : Word := s.rs a
      let loads (c : BitVec 3) (n : Nat) (f : Nat → Word) : Prop :=
        (∀ r, s.reach s.cur .read va n = r → (∀ y, r ≠ .trap y) →
          GivesOn s (after r va n) (.cLr ⟨d, a, c⟩) (plain 0 [.s a]) (.s d) ((f (value r va n)).setWidth 2048) fullMask) ∧
        (∀ y, s.reach s.cur .read va n = .trap y → Traps s (.cLr ⟨d, a, c⟩) y)
      loads 0 1 (signed 1) ∧ loads 1 2 (signed 2) ∧ loads 2 4 (signed 4) ∧ loads 3 8 whole ∧ loads 4 1 whole ∧
      loads 5 2 whole ∧ loads 6 4 whole) ∧
    (∀ o : CLs,
      let va : Word := BitVec.ofNat 64 (0xFFFFFFF000000 + o.off.toNat * 8)
      (∀ r, s.reach s.cur .read va 8 = r → (∀ y, r ≠ .trap y) →
        GivesOn s (after r va 8) (.cLld o) (plain 0 []) (.s o.d) ((whole (value r va 8)).setWidth 2048) fullMask) ∧
      (∀ y, s.reach s.cur .read va 8 = .trap y → Traps s (.cLld o) y))

/-- 04 R83: what the stores do: the low n bytes of the register go to the place, low byte first; bytes out of range are
discarded, and the strand's first such access is recorded (01 R26, R27); a store that a check refuses traps. -/
def Obligations.StoreForms : Prop :=
  ∀ (s : State), Calm s →
    let stores (i : Instr) (x : Issue) (va : Word) (n : Nat) (v : Word) : Prop :=
      (∀ l, s.reach s.cur .write va n = .at l →
        (s.writeRefused s.cur l va = none → Does s i x ((s.viewStore s.cur l v.toNat n).postStore s.cur l)) ∧
        (∀ y, s.writeRefused s.cur l va = some y → Traps s i y)) ∧
      (s.reach s.cur .write va n = .out → Does s i x (s.offence s.cur va true)) ∧
      (∀ y, s.reach s.cur .write va n = .trap y → Traps s i y)
    (∀ o : Mem,
      let st (i : Instr) (n : Nat) : Prop :=
        stores i (plain o.sc [.s o.t, .s o.a]) (s.rs o.a + o.off.signExtend 64) n (s.rs o.t)
      st (.st8 o) 1 ∧ st (.st16 o) 2 ∧ st (.st32 o) 4 ∧ st (.st64 o) 8) ∧
    (∀ o : MemF,
      let st (i : Instr) (n : Nat) : Prop :=
        stores i (plain o.sc [.f o.t, .s o.a]) (s.rs o.a + o.off.signExtend 64) n (s.rf o.t)
      st (.fst32 o) 4 ∧ st (.fst16 o) 2 ∧ st (.fst64 o) 8) ∧
    (∀ o : CSr, stores (.cSr o) (plain 0 [.s o.t, .s o.a]) (s.rs o.a) (2 ^ o.n.toNat) (s.rs o.t)) ∧
    (∀ o : CLs, stores (.cLsd o) (plain 0 [.s o.d]) (BitVec.ofNat 64 (0xFFFFFFF000000 + o.off.toNat * 8)) 8 (s.rs o.d))

/-- 04 R83, R84, 13 R229: the byte frame of a store of n bytes at a place, within one line where it is cached: the storing strand reads each stored byte
back, and every byte outside the stored ones, of any place and as any strand reads it, is as before; no core changes, and of the strands only what the
fetches of the storing one keep finding at the stored bytes until its next ifence. Outside a deterministic launch a full set of the cluster cache first gives up one line, whose dirty
bytes go home, those of a replicated page to the copy of every die (13 R233): then "as before" is as after that eviction (which line goes is free, log 5). A read changes nothing but the cluster's cache, and at their
home only bytes that the cluster held dirty (log 6); in a deterministic launch it changes nothing at all. -/
def Obligations.AccessByteFrames : Prop :=
  (∀ (s : State) (w : StrandId) (l : Loc) (v n : Nat), (∀ a rep, l.cached = some (a, rep) → a % 64 + n ≤ 64) →
    let t : State := s.viewStore w l v n
    let cl : Nat := clusterOf w.core
    let u : State := match l.cached with
      | some (a, _) => if s.coreDet w.core ∨ n = 0 then s else s.makeWay cl (a / 64)
      | none => s
    (∀ k, k < n → t.viewByte w l k = BitVec.ofNat 8 (v / 256 ^ k)) ∧
    (∀ (w' : StrandId) (l' : Loc) (k' : Nat), (∀ k, k < n → l'.key + k' ≠ l.key + k) → t.viewByte w' l' k' = u.viewByte w' l' k') ∧
    (∀ w', t.strand w' = { s.strand w' with stale := (t.strand w').stale } ∧
      (StrandId.key w' ≠ StrandId.key w → t.strand w' = s.strand w')) ∧
    (l.inWindow = false → ∀ k, k < n → t.fetchByte w l k = s.fetchByte w l k ∨ t.fetchByte w l k = u.fetchByte w l k) ∧
    (∀ c, t.core c = s.core c) ∧
    (∀ ln, (s.cluster cl).hasWay ln = true → s.makeWay cl ln = s) ∧
    (∀ ln, (s.cluster cl).hasWay ln = false → ∃ e ∈ (s.cluster cl).setOf ln,
      s.makeWay cl ln = { s.evictLine cl e with free := s.free + 1 }) ∧
    (∀ e x, FMap.find (s.cluster cl).cache e = some x →
      FMap.find ((s.evictLine cl e).cluster cl).cache e = none ∧
      (∀ o key, o < 64 → x.dirty.getLsbD o = true → key ∈ homeKeys (e * 64 + o) →
        Memory.read (s.evictLine cl e).mem key = x.byte o) ∧
      (∀ key, (∀ o, o < 64 → x.dirty.getLsbD o = true → key ∉ homeKeys (e * 64 + o)) →
        Memory.read (s.evictLine cl e).mem key = Memory.read s.mem key))) ∧
  (∀ (s : State) (w : StrandId) (l : Loc) (n : Nat),
    let t : State := s.viewRead w l n
    let cl : Nat := clusterOf w.core
    (s.coreDet w.core = true → t = s) ∧
    t = { s with clusters := t.clusters, mem := t.mem, failing := t.failing, free := t.free } ∧
    (∀ c, c ≠ cl → t.cluster c = s.cluster c) ∧
    (∀ key, (∀ e o x, FMap.find (s.cluster cl).cache e = some x → o < 64 → x.dirty.getLsbD o = true →
        key ∉ homeKeys (e * 64 + o)) →
      Memory.read t.mem key = Memory.read s.mem key)) ∧
  (∀ key, (repKey key = false → homeKeys key = [key]) ∧
    (repKey key = true → homeKeys key = [0, 1, 2, 3].map fun d => d * 2 ^ 52 + key % 2 ^ 52))

/-! ### Scalar floating point (03, 04) -/

/-- 03 R51, R52, R54, R65: a NaN becomes the canonical NaN of the format, infinities and zeros keep their sign, every value of
the format is its own result; a magnitude below the next power of two above the largest finite value is rounded once at the last place that the format has there, that of the
subnormals at the least, and the result stands for the rounded value, with the sign kept where that is zero, or is infinity where it is that power of two; and a magnitude of the next power of two above the largest finite value or more gives what the mode's row says. The one rounding of a
magnitude m / 2^k to a whole number is nearest with a tie to even, toward zero, up, and down, by the sign of the value. -/
def Obligations.RoundingRules : Prop :=
  (∀ (f : Fmt) (rm : Rm), f = .f32 ∨ f = .h16 ∨ f = .bf16 →
    let canonical : Nat := if f = .f32 then 0x7FC00000 else if f = .h16 then 0x7E00 else 0x7FC0
    let infinity : Nat := if f = .f32 then 0x7F800000 else if f = .h16 then 0x7C00 else 0x7F80
    let largest : Nat := infinity - 1
    let emax : Int := if f = .h16 then 15 else 127
    let sign (b : Bool) : Nat := if b then 2 ^ (f.width - 1) else 0
    f.round rm false .nan = canonical ∧
    (∀ b, f.round rm false (.inf b) = sign b + infinity ∧ f.round rm false (.zero b) = sign b) ∧
    (∀ p, p < 2 ^ f.width → f.decode p ≠ .nan → f.round rm false (f.decode p) = p) ∧
    (∀ b m e, 0 < m → emax < FVal.log2 (.fin b m e) →
      f.round rm false (.fin b m e) = sign b + (match rm, b with
        | .near, _ => infinity
        | .zero, _ => largest
        | .up, false => infinity
        | .up, true => largest
        | .down, false => largest
        | .down, true => infinity)) ∧
    (∀ b m e, 0 < m → FVal.log2 (.fin b m e) ≤ emax →
      let frac : Int := if f = .f32 then 23 else if f = .h16 then 10 else 7
      let place : Int := max (FVal.log2 (.fin b m e)) (1 - emax) - frac
      let n : Nat := if place ≤ e then m * 2 ^ (e - place).toNat else roundMag rm b m (place - e).toNat
      let v : ℚ := n * 2 ^ place
      let p : Nat := f.round rm false (.fin b m e)
      (n = 0 → p = sign b) ∧
      (v = 2 ^ (emax + 1) → p = sign b + infinity) ∧
      (0 < n → v < 2 ^ (emax + 1) → ∃ M E, f.decode p = .fin b M E ∧ (M : ℚ) * 2 ^ E = v))) ∧
  (∀ (neg : Bool) (m k : Nat),
    let r (rm : Rm) : Int := roundMag rm neg m k
    let v : Int := if neg then -m else m
    let signed (n : Int) : Int := if neg then -n else n
    (2 * |r .near * 2 ^ k - m| ≤ 2 ^ k ∧ (2 * |r .near * 2 ^ k - m| = 2 ^ k → r .near % 2 = 0)) ∧
    (r .zero * 2 ^ k ≤ m ∧ m < (r .zero + 1) * 2 ^ k) ∧
    (v ≤ signed (r .up) * 2 ^ k ∧ (signed (r .up) - 1) * 2 ^ k < v) ∧
    (signed (r .down) * 2 ^ k ≤ v ∧ v < (signed (r .down) + 1) * 2 ^ k))

/-- 04 R86, 03 R53, R55: the arithmetic of f registers in the format that the instruction names, rounded once under ctx.mode.rm; fneg and
fabs change the sign bit alone. What is rounded: a sum and a product of finite values have exactly their rational value, a quotient and a square root lie on the side of every number of
no more bits than a format keeps on which the exact one lies, and are equal to it where the exact one is; a zero takes its sign as R55 says; infinities, zero divisors and NaNs give what R53 says. -/
def Obligations.FloatArithmetic : Prop :=
  (let value (x : FVal) : Option ℚ := match x with
     | .fin b m e => some ((if b then -(m : ℚ) else m) * 2 ^ e)
     | .zero _ => some 0
     | _ => none
   let proper (x : FVal) : Prop := ∀ b m e, x = .fin b m e → 0 < m ∧ m < 2 ^ 54
   let endless (x : FVal) : Prop := ∃ b, x = .inf b
   (∀ (rm : Rm) (x y : FVal) (p q : ℚ), proper x → proper y → value x = some p → value y = some q →
     let negative : Bool := x.signed != y.signed
     value (FVal.sum rm x y) = some (p + q) ∧ value (FVal.prod x y) = some (p * q) ∧
     ((∀ b, ¬(x = .zero b ∧ y = .zero b)) → p + q = 0 → FVal.sum rm x y = .zero (rm == .down)) ∧
     (∀ b, x = .zero b → y = .zero b → FVal.sum rm x y = .zero b) ∧
     (p * q = 0 → FVal.prod x y = .zero negative) ∧
     (p = 0 → q ≠ 0 → x.quot y = .zero negative) ∧ (p ≠ 0 → q = 0 → x.quot y = .inf negative) ∧ (p = 0 → q = 0 → x.quot y = .nan) ∧
     (p ≠ 0 → q ≠ 0 → ∃ r, value (x.quot y) = some r ∧ (x.quot y).signed = negative ∧
       ∀ (n : Nat) (k : Int), n < 2 ^ 60 → (|r| < n * 2 ^ k ↔ |p / q| < n * 2 ^ k) ∧ (|r| = n * 2 ^ k ↔ |p / q| = n * 2 ^ k)) ∧
     (p < 0 → x.sqrt = .nan) ∧ (∀ b, x = .zero b → x.sqrt = .zero b) ∧
     (0 < p → ∃ r, value x.sqrt = some r ∧ 0 < r ∧
       ∀ (n : Nat) (k : Int), n < 2 ^ 32 → (r < n * 2 ^ k ↔ p < (n * 2 ^ k) ^ 2) ∧ (r = n * 2 ^ k ↔ p = (n * 2 ^ k) ^ 2))) ∧
   (∀ (rm : Rm) (x : FVal), FVal.sum rm .nan x = .nan ∧ FVal.sum rm x .nan = .nan ∧ FVal.prod .nan x = .nan ∧ FVal.prod x .nan = .nan ∧
     FVal.quot .nan x = .nan ∧ FVal.quot x .nan = .nan ∧ FVal.sqrt .nan = .nan) ∧
   (∀ (rm : Rm) (b c : Bool), FVal.sum rm (.inf b) (.inf c) = (if b = c then .inf b else .nan) ∧
     FVal.prod (.inf b) (.inf c) = .inf (b != c) ∧ FVal.quot (.inf b) (.inf c) = .nan ∧
     FVal.prod (.inf b) (.zero c) = .nan ∧ FVal.prod (.zero c) (.inf b) = .nan ∧ FVal.sqrt (.inf b) = if b then .nan else .inf false) ∧
   (∀ (rm : Rm) (x : FVal) (b : Bool), x ≠ .nan → ¬endless x → FVal.sum rm (.inf b) x = .inf b ∧ FVal.sum rm x (.inf b) = .inf b ∧
     FVal.quot x (.inf b) = .zero (x.signed != b) ∧ FVal.quot (.inf b) x = .inf (b != x.signed) ∧
     (x.isZero = false → FVal.prod (.inf b) x = .inf (b != x.signed) ∧ FVal.prod x (.inf b) = .inf (x.signed != b)))) ∧
  ∀ (s : State), Calm s →
    let rm : Rm := s.mode
    let pat (m : Fmt) (r : BitVec 3) : Nat := (s.rf r).toNat % 2 ^ m.width
    let val (m : Fmt) (r : BitVec 3) : FVal := m.decode (pat m r)
    (∀ o : F3,
      let m : Fmt := if o.fmt = 0 then .f32 else if o.fmt = 1 then .h16 else .bf16
      let a : FVal := val m o.a
      let b : FVal := val m o.b
      let gives (i : Instr) (x : FVal) : Prop :=
        GivesF s i (plain o.sc [.f o.a, .f o.b]) o.d (BitVec.ofNat 64 (m.round rm false x))
      gives (.fadd o) (FVal.sum rm a b) ∧ gives (.fsub o) (FVal.sum rm a b.neg) ∧ gives (.fmul o) (FVal.prod a b) ∧
      gives (.fdiv o) (a.quot b) ∧ gives (.fmin o) (a.fmin b) ∧ gives (.fmax o) (a.fmax b) ∧
      GivesF s (.fma o) (plain o.sc [.f o.a, .f o.b, .f o.d]) o.d
        (BitVec.ofNat 64 (m.round rm false (FVal.sum rm (FVal.prod a b) (val m o.d))))) ∧
    (∀ o : F2,
      let m : Fmt := if o.fmt = 0 then .f32 else if o.fmt = 1 then .h16 else .bf16
      let gives (i : Instr) (x : Nat) : Prop := GivesF s i (plain o.sc [.f o.a]) o.d (BitVec.ofNat 64 x)
      gives (.fsqrt o) (m.round rm false (val m o.a).sqrt) ∧
      gives (.fneg o) (pat m o.a ^^^ 2 ^ (m.width - 1)) ∧ gives (.fabs o) (pat m o.a % 2 ^ (m.width - 1)))

/-- 04 R87, R88, 03 R66: compares give 1 or 0, never 1 with a NaN; moves copy all 64 bits; conversions go through the exact value: one to an integer rounds it to a whole number
(RoundingRules says how), and one that the destination cannot hold, an infinity and a NaN give the indefinite value, or saturated the nearest end of the range, and 0 for a NaN. -/
def Obligations.FloatMoves : Prop :=
  (∀ (n : Nat) (sgn : Bool) (rm : Rm), 1 ≤ n →
    let lo : Int := if sgn then -2 ^ (n - 1) else 0
    let hi : Int := if sgn then 2 ^ (n - 1) - 1 else 2 ^ n - 1
    let pattern (v : Int) : Nat := (v % 2 ^ n).toNat
    let indefinite : Nat := if sgn then 2 ^ (n - 1) else 2 ^ n - 1
    let out (sat below : Bool) : Nat := if sat then pattern (if below then lo else hi) else indefinite
    ∀ sat : Bool,
      Machine.toInt .nan n sgn rm sat = (if sat then 0 else indefinite) ∧
      (∀ b, Machine.toInt (.inf b) n sgn rm sat = out sat b ∧ Machine.toInt (.zero b) n sgn rm sat = 0) ∧
      ∀ (b : Bool) (m : Nat) (e : Int),
        let size : Int := if 0 ≤ e then m * 2 ^ e.toNat else roundMag rm b m (-e).toNat
        let v : Int := if b then -size else size
        (lo ≤ v → v ≤ hi → Machine.toInt (.fin b m e) n sgn rm sat = pattern v) ∧
        (v < lo → Machine.toInt (.fin b m e) n sgn rm sat = out sat true) ∧
        (hi < v → Machine.toInt (.fin b m e) n sgn rm sat = out sat false)) ∧
  ∀ (s : State), Calm s →
    let rm : Rm := s.mode
    let fmt (c : BitVec 2) : Fmt := if c = 0 then .f32 else if c = 1 then .h16 else .bf16
    let val (m : Fmt) (r : BitVec 3) : FVal := m.decode ((s.rf r).toNat % 2 ^ m.width)
    (∀ o : FC,
      let a : FVal := val (fmt o.fmt) o.a
      let b : FVal := val (fmt o.fmt) o.b
      let gives (i : Instr) (c : Prop) : Prop :=
        (c → GivesS s i (plain o.sc [.f o.a, .f o.b]) o.d 1) ∧ (¬c → GivesS s i (plain o.sc [.f o.a, .f o.b]) o.d 0)
      let ordered : Prop := a ≠ .nan ∧ b ≠ .nan
      gives (.fceq o) (ordered ∧ FVal.compare a b = 0) ∧ gives (.fclt o) (ordered ∧ FVal.compare a b < 0) ∧
      gives (.fcle o) (ordered ∧ FVal.compare a b ≤ 0)) ∧
    (∀ o : MvS, GivesS s (.fmvs o) (plain o.sc [.f o.a]) o.d (s.rf o.a)) ∧
    (∀ o : MvF, GivesF s (.fmvf o) (plain o.sc [.s o.a]) o.d (s.rs o.a)) ∧
    (∀ o : FToI,
      let n : Nat := if o.wide = 1 then 64 else 32
      let v : Nat := Machine.toInt (val (fmt o.fmt) o.a) n (o.whole = 0) rm (o.sat = 1)
      GivesS s (.fcvti o) (plain o.sc [.f o.a]) o.d
        (if o.whole = 0 ∧ o.wide = 0 then (BitVec.ofNat 32 v).signExtend 64 else BitVec.ofNat 64 v)) ∧
    (∀ o : IToF,
      let n : Nat := if o.wide = 1 then 64 else 32
      let v : Int := if o.whole = 1 then ((s.rs o.a).toNat % 2 ^ n : Nat)
        else if o.wide = 1 then (s.rs o.a).toInt else ((s.rs o.a).setWidth 32).toInt
      GivesF s (.fcvtf o) (plain o.sc [.s o.a]) o.d
        (BitVec.ofNat 64 ((fmt o.fmt).round rm false (if v = 0 then .zero false else .fin (decide (v < 0)) v.natAbs 0)))) ∧
    (∀ o : FCv,
      GivesF s (.fcvt o) (plain o.sc [.f o.a]) o.d
        (BitVec.ofNat 64 ((fmt o.fmt).round rm false (val (fmt o.src) o.a))))

/-! ### Vectors (05) -/

/-- 05 R92, R94, R96: element i of a vector written under a predicate is the new element where it is active and the old one where it is not. Integer vector arithmetic,
element by element at the width of the type: the wrapped sum, difference and product, the high half of the product, the lesser and the greater, shifts by the count modulo the
width, and the saturating forms; the bitwise forms work on byte lanes. -/
def Obligations.VectorIntegerForms : Prop :=
  (∀ (old : VReg) (p : Pred) (w i : Nat) (f : Nat → Nat), w = 1 ∨ w = 2 ∨ w = 4 ∨ w = 8 → i < 256 / w →
    elem (blend old (ofElems w f) (activeMask p w)) w i =
      if p.getLsbD (w * i) then f i % 2 ^ (8 * w) else elem old w i) ∧
  (∀ (s : State), Calm s →
    (∀ o : V2, Owned s [o.d, o.a, o.b] →
      let t : Ty := typeOf o.pre .i32
      let bits : Nat := 8 * t.width
      let signed (x : Nat) : Int := if t.isI ∨ t = .q16 then (BitVec.ofNat bits x).toInt else x
      let wrap (v : Int) : Nat := (BitVec.ofInt bits v).toNat
      let sat (v : Int) : Nat :=
        wrap (if t.isW then (if v < 0 then 0 else if 2 ^ bits - 1 < v then 2 ^ bits - 1 else v)
          else if v < -2 ^ (bits - 1) then -2 ^ (bits - 1) else if 2 ^ (bits - 1) - 1 < v then 2 ^ (bits - 1) - 1 else v)
      let x (w : Nat) : Issue :=
        ⟨o.sc, [.p o.p], [(o.a, o.ha = 1), (o.b, o.hb = 1)], some o.d, (activeList (s.rp o.p) w).isEmpty, [], wholly⟩
      let gives (i : Instr) (f : Nat → Nat → Nat) : Prop :=
        Gives s i (x t.width) (.v o.d)
          (ofElems t.width fun k => f (elem (s.rv o.a) t.width k) (elem (s.rv o.b) t.width k)) (activeMask (s.rp o.p) t.width)
      let bitwise (i : Instr) (f : VReg) : Prop := Gives s i (x 1) (.v o.d) f (activeMask (s.rp o.p) 1)
      gives (.vadd o) (fun a b => wrap (signed a + signed b)) ∧ gives (.vsub o) (fun a b => wrap (signed a - signed b)) ∧
      gives (.vmul o) (fun a b => wrap (signed a * signed b)) ∧
      gives (.vmulh o) (fun a b => wrap (signed a * signed b / 2 ^ bits)) ∧
      gives (.vmin o) (fun a b => if signed a ≤ signed b then a else b) ∧
      gives (.vmax o) (fun a b => if signed a ≤ signed b then b else a) ∧
      gives (.vsll o) (fun a b => a * 2 ^ (b % bits)) ∧ gives (.vsrl o) (fun a b => a / 2 ^ (b % bits)) ∧
      gives (.vsra o) (fun a b => wrap ((BitVec.ofNat bits a).toInt / 2 ^ (b % bits))) ∧
      gives (.vadds o) (fun a b => sat (signed a + signed b)) ∧ gives (.vsubs o) (fun a b => sat (signed a - signed b)) ∧
      bitwise (.vand o) (s.rv o.a &&& s.rv o.b) ∧ bitwise (.vor o) (s.rv o.a ||| s.rv o.b) ∧
      bitwise (.vxor o) (s.rv o.a ^^^ s.rv o.b) ∧ bitwise (.vandn o) (s.rv o.a &&& ~~~s.rv o.b)) ∧
    (∀ o : V1, Owned s [o.d, o.a] →
      let t : Ty := typeOf o.pre .i32
      let bits : Nat := 8 * t.width
      Gives s (.vabs o)
        ⟨o.sc, [.p o.p], [(o.a, o.ha = 1)], some o.d, (activeList (s.rp o.p) t.width).isEmpty, [], wholly⟩ (.v o.d)
        (ofElems t.width fun k =>
          (BitVec.ofInt bits ((BitVec.ofNat bits (elem (s.rv o.a) t.width k)).toInt.natAbs)).toNat)
        (activeMask (s.rp o.p) t.width)))

/-- 05 R97, R98, 03 R56, R57: floating vector arithmetic, element by element in the format of the type: operands flushed with
zi, one rounding under ctx.mode.rm, and the result flushed with zo; the fused forms round the sum of an exact product and d. -/
def Obligations.VectorFloatForms : Prop :=
  ∀ (s : State) (o : VF3), Calm s → Owned s [o.d, o.a, o.b] →
    let t : Ty := typeOf o.pre .f32
    let m : Fmt := if t = .h16 then .h16 else if t = .bf16 then .bf16 else .f32
    let w : Nat := t.width
    let rm : Rm := s.mode
    let sources (d : Bool) : List (BitVec 5 × Bool) := [(o.a, decide (o.ha = 1)), (o.b, decide (o.hb = 1))] ++ if d then [(o.d, false)] else []
    let src (v : BitVec 5) (k : Nat) : FVal := m.flush (o.zi = 1) (m.decode (elem (s.rv v) w k))
    let gives (i : Instr) (d : Bool) (f : Nat → FVal) : Prop :=
      Gives s i ⟨o.sc, [.p o.p], sources d, some o.d, (activeList (s.rp o.p) w).isEmpty, [], wholly⟩ (.v o.d)
        (ofElems w fun k => m.round rm (o.zo = 1) (f k)) (activeMask (s.rp o.p) w)
    let product (k : Nat) : FVal := FVal.prod (src o.a k) (src o.b k)
    gives (.vfadd o) false (fun k => FVal.sum rm (src o.a k) (src o.b k)) ∧
    gives (.vfsub o) false (fun k => FVal.sum rm (src o.a k) (src o.b k).neg) ∧
    gives (.vfmul o) false product ∧
    gives (.vfmin o) false (fun k => (src o.a k).fmin (src o.b k)) ∧
    gives (.vfmax o) false (fun k => (src o.a k).fmax (src o.b k)) ∧
    gives (.vfma o) true (fun k => FVal.sum rm (product k) (src o.d k)) ∧
    gives (.vfms o) true (fun k => FVal.sum rm (product k) (src o.d k).neg) ∧
    gives (.vfnma o) true (fun k => FVal.sum rm (product k).neg (src o.d k)) ∧
    gives (.vfnms o) true (fun k => FVal.sum rm (product k).neg (src o.d k).neg)

/-- 05 R99, R100, R101: vector conversions: which source element each destination element takes by the part when the widths
differ, and its value: rounded, wrapped or saturated as the mnemonic says. -/
def Obligations.VectorConversions : Prop :=
  ∀ (s : State) (o : VP), Calm s → Owned s [o.d, o.a] →
    let t1 : Ty := (typesOf o.pre).t1
    let t2 : Ty := (typesOf o.pre).t2
    let rm : Rm := s.mode
    let source (ws wd i : Nat) : Option Nat :=
      if wd < ws then
        (if o.part.toNat * (256 / ws) ≤ i ∧ i < (o.part.toNat + 1) * (256 / ws) then some (i - o.part.toNat * (256 / ws)) else none)
      else if ws < wd then some (o.part.toNat * (256 / wd) + i)
      else some i
    let gives (i : Instr) (src dst : Ty) (f : Nat → Nat) : Prop :=
      Gives s i ⟨o.sc, [.p o.p], [(o.a, o.ha = 1)], some o.d, (activeList (s.rp o.p) dst.width).isEmpty, [], wholly⟩ (.v o.d)
        (ofElems dst.width fun k => match source src.width dst.width k with
          | some j => f (elem (s.rv o.a) src.width j)
          | none => 0)
        (ofElems dst.width fun k =>
          if (s.rp o.p).getLsbD (dst.width * k) ∧ (source src.width dst.width k).isSome then 2 ^ (8 * dst.width) - 1 else 0)
    let small (sat : Bool) (x : FVal) : Nat := match t1 with
      | .b8 p u f => b8Round p u f sat x
      | _ => sc8Round sat x
    let clamp (v : Int) : Int := if t1.isW then satW v (8 * t1.width) else satS v (8 * t1.width)
    let integer (sat : Bool) (x : FVal) : Nat :=
      if t1 = .q16 then toQ16 x else Machine.toInt x (8 * t1.width) (!t1.isW) rm sat
    gives (.vcvtN o) t2 t1 (fun x => small false (decodeTy t2 x)) ∧
    gives (.vcvtS o) t2 t1 (fun x => small true (decodeTy t2 x)) ∧
    gives (.vcvtX o) t1 t2 (fun x => (Fmt.ofTy t2).round rm false (decodeTy t1 x)) ∧
    gives (.vcvtF o) t2 t1 (fun x => (Fmt.ofTy t1).round rm false (decodeTy t2 x)) ∧
    gives (.vcvtFi o) t2 t1 (fun x => integer false (decodeTy t2 x)) ∧
    gives (.vcvtFis o) t2 t1 (fun x => integer true (decodeTy t2 x)) ∧
    gives (.vcvtIf o) t2 t1 (fun x => (Fmt.ofTy t1).round rm false
      (if t2 = .q16 then FVal.ofInt (signExt x 32) (-16) false else FVal.ofInt (elemInt t2 x) 0 false)) ∧
    gives (.vcvtIi o) t2 t1 (fun x => wrapNat (elemInt t2 x) (8 * t1.width)) ∧
    gives (.vcvtIis o) t2 t1 (fun x => wrapNat (clamp (elemInt t2 x)) (8 * t1.width))

/-- 05 R104: the permutes of two sources, element by element; and the moves and permutes of one source: copy, broadcast, reverse, the active elements packed with
zeros behind, and the leading elements spread into the active positions. -/
def Obligations.VectorPermutes : Prop :=
  (∀ (s : State) (o : V2), Calm s → Owned s [o.d, o.a, o.b] →
    let w : Nat := (typeOf o.pre .i32).width
    let n : Nat := 256 / w
    let a : Nat → Nat := elem (s.rv o.a) w
    let b : Nat → Nat := elem (s.rv o.b) w
    let gives (i : Instr) (f : Nat → Nat) : Prop :=
      Gives s i ⟨o.sc, [.p o.p], [(o.a, o.ha = 1), (o.b, o.hb = 1)], some o.d, (activeList (s.rp o.p) w).isEmpty, [], wholly⟩
        (.v o.d) (ofElems w f) (activeMask (s.rp o.p) w)
    gives (.vperm o) (fun i => if b i < n then a (b i) else 0) ∧
    gives (.vzipl o) (fun i => if i % 2 = 0 then a (i / 2) else b (i / 2)) ∧
    gives (.vziph o) (fun i => if i % 2 = 0 then a (n / 2 + i / 2) else b (n / 2 + i / 2)) ∧
    gives (.vunze o) (fun i => if 2 * i < n then a (2 * i) else b (2 * i - n)) ∧
    gives (.vunzo o) (fun i => if 2 * i + 1 < n then a (2 * i + 1) else b (2 * i + 1 - n)) ∧
    gives (.vslu o) (fun i => if i = 0 then b (n - 1) else a (i - 1)) ∧
    gives (.vsld o) (fun i => if i < n - 1 then a (i + 1) else b 0) ∧
    gives (.vtrnl o) (fun i => if i % 2 = 0 then a i else b (i - 1)) ∧
    gives (.vtrnh o) (fun i => if i % 2 = 0 then a (i + 1) else b i)) ∧
  (∀ (s : State) (o : V1), Calm s → Owned s [o.d, o.a] →
    let w : Nat := (typeOf o.pre .i32).width
    let n : Nat := 256 / w
    let a : Nat → Nat := elem (s.rv o.a) w
    let p : Pred := s.rp o.p
    let act : List Nat := (List.range n).filter fun i => p.getLsbD (w * i)
    let gives (i : Instr) (w : Nat) (v mask : VReg) : Prop :=
      Gives s i ⟨o.sc, [.p o.p], [(o.a, o.ha = 1)], some o.d, (activeList p w).isEmpty, [], wholly⟩ (.v o.d) v mask
    gives (.vmv o) 1 (s.rv o.a) (activeMask p 1) ∧
    gives (.vbcast o) w (ofElems w fun _ => a 0) (activeMask p w) ∧
    gives (.vrev o) w (ofElems w fun i => a (n - 1 - i)) (activeMask p w) ∧
    gives (.vcompress o) w (ofElems w fun j => (act[j]?.map a).getD 0) fullMask ∧
    gives (.vexpand o) w (ofElems w fun i => ((act.idxOf? i).map a).getD 0) (activeMask p w))

/-- 05 R105, 03 R68, R69: a reduction takes the active elements in ascending order, writes its result in the low bytes of d
and zeros behind it; over no element it gives its neutral value. -/
def Obligations.VectorReductions : Prop :=
  ∀ (s : State) (o : V1), Calm s → Owned s [o.d, o.a] →
    let rm : Rm := s.mode
    let gives (i : Instr) (t : Ty) (f : List Nat → Nat) : Prop :=
      Gives s i ⟨o.sc, [.p o.p], [(o.a, o.ha = 1)], some o.d, (activeList (s.rp o.p) t.width).isEmpty, [], wholly⟩ (.v o.d)
        (BitVec.ofNat 2048 (f (((List.range (256 / t.width)).filter fun k => (s.rp o.p).getLsbD (t.width * k)).map
          (elem (s.rv o.a) t.width)))) fullMask
    let ti : Ty := typeOf o.pre .i32
    let tf : Ty := typeOf o.pre .f32
    let bits : Nat := 8 * ti.width
    let m : Fmt := Fmt.ofTy tf
    let lesser (x y : Nat) : Nat := if elemInt ti x ≤ elemInt ti y then x else y
    let greater (x y : Nat) : Nat := if elemInt ti x ≤ elemInt ti y then y else x
    gives (.vrsum o) ti (fun xs => xs.sum % 2 ^ bits) ∧
    gives (.vrmin o) ti (fun xs => xs.foldl lesser (if ti.isW then 2 ^ bits - 1 else 2 ^ (bits - 1) - 1)) ∧
    gives (.vrmax o) ti (fun xs => xs.foldl greater (if ti.isW then 0 else 2 ^ (bits - 1))) ∧
    gives (.vrand o) ti (fun xs => xs.foldl (· &&& ·) (2 ^ bits - 1)) ∧
    gives (.vrior o) ti (fun xs => xs.foldl (· ||| ·) 0) ∧
    gives (.vrxor o) ti (fun xs => xs.foldl (· ^^^ ·) 0) ∧
    gives (.vrfsum o) tf (fun xs => treeSum m rm false false xs) ∧
    gives (.vrfmin o) tf (fun xs => m.round .near false ((xs.map m.decode).foldl FVal.fmin (.inf false))) ∧
    gives (.vrfmax o) tf (fun xs => m.round .near false ((xs.map m.decode).foldl FVal.fmax (.inf true))) ∧
    gives (.vrfsumw o) tf (fun xs => treeSum .f32 rm false false (xs.map fun x => Fmt.f32.round .near false (decodeTy tf x)))

/-- 05 R106, R107: a compare writes p[d]: the bits of an element are 1 where it is active and the relation holds, else 0. The predicate operations act on all 256 bits;
pfirst keeps the lowest set bit alone; a write of p0 is discarded. -/
def Obligations.VectorCompares : Prop :=
  (∀ (s : State) (o : VC), Calm s → Owned s [o.a, o.b] →
    let gives (i : Instr) (t : Ty) (r : Nat → Nat → Bool) : Prop :=
      GivesP s i ⟨o.sc, [.p o.p], [(o.a, o.ha = 1), (o.b, o.hb = 1)], none, (activeList (s.rp o.p) t.width).isEmpty, [], wholly⟩ o.d
        (predOf t.width fun k =>
          (s.rp o.p).getLsbD (t.width * k) && r (elem (s.rv o.a) t.width k) (elem (s.rv o.b) t.width k))
    let ti : Ty := typeOf o.pre .i32
    let tf : Ty := typeOf o.pre .f32
    let val (x : Nat) : FVal := (Fmt.ofTy tf).decode x
    let ordered (x y : Nat) : Bool := val x != .nan && val y != .nan
    gives (.vceq o) ti (fun x y => x == y) ∧ gives (.vcne o) ti (fun x y => x != y) ∧
    gives (.vclt o) ti (fun x y => elemInt ti x < elemInt ti y) ∧
    gives (.vcle o) ti (fun x y => elemInt ti x ≤ elemInt ti y) ∧
    gives (.vfceq o) tf (fun x y => ordered x y && FVal.compare (val x) (val y) == 0) ∧
    gives (.vfclt o) tf (fun x y => ordered x y && FVal.compare (val x) (val y) < 0) ∧
    gives (.vfcle o) tf (fun x y => ordered x y && FVal.compare (val x) (val y) ≤ 0) ∧
    gives (.vfcun o) tf (fun x y => !ordered x y)) ∧
  (∀ (s : State), Calm s →
    (∀ o : P3,
      let gives (i : Instr) (v : Pred) : Prop := GivesP s i (plain o.sc [.p o.a, .p o.b]) o.d v
      gives (.pand o) (s.rp o.a &&& s.rp o.b) ∧ gives (.por o) (s.rp o.a ||| s.rp o.b) ∧
      gives (.pxor o) (s.rp o.a ^^^ s.rp o.b) ∧ gives (.pandn o) (s.rp o.a &&& ~~~s.rp o.b)) ∧
    (∀ o : P2,
      let gives (i : Instr) (v : Pred) : Prop := GivesP s i (plain o.sc [.p o.a, .p o.a]) o.d v
      gives (.pnot o) (~~~s.rp o.a) ∧
      (∃ v, gives (.pfirst o) v ∧ ∀ k, v.getLsbD k = true ↔
        ((s.rp o.a).getLsbD k = true ∧ ∀ j, j < k → (s.rp o.a).getLsbD j = false))))

/-- 05 R110, R111: the forms with a scalar operand: arithmetic with the low bits of s[s] or f[s], splats, the index vector, and
the insertion and extraction of one element. -/
def Obligations.ScalarOperandForms : Prop :=
  ∀ (s : State), Calm s →
    (∀ o : VXS, Owned s [o.d, o.a] →
      let t : Ty := typeOf o.pre .i32
      let w : Nat := t.width
      let bits : Nat := 8 * w
      let c : Nat := (s.rs o.s).toNat % 2 ^ bits
      let gives (i : Instr) (f : Nat → Nat) : Prop :=
        Gives s i ⟨o.sc, [.p o.p, .s o.s], [(o.a, o.ha = 1)], some o.d, (activeList (s.rp o.p) w).isEmpty, [], wholly⟩ (.v o.d)
          (ofElems w fun k => f (elem (s.rv o.a) w k)) (activeMask (s.rp o.p) w)
      gives (.vaddx o) (fun x => wrapNat (elemInt t x + elemInt t c) bits) ∧
      gives (.vsubx o) (fun x => wrapNat (elemInt t x - elemInt t c) bits) ∧
      gives (.vmulx o) (fun x => wrapNat (elemInt t x * elemInt t c) bits) ∧
      gives (.vsllx o) (fun x => x * 2 ^ (c % bits)) ∧ gives (.vsrlx o) (fun x => x / 2 ^ (c % bits)) ∧
      gives (.vsrax o) (fun x => wrapNat (signExt x bits / 2 ^ (c % bits)) bits)) ∧
    (∀ o : VXF, Owned s [o.d, o.a] →
      let t : Ty := typeOf o.pre .f32
      let m : Fmt := Fmt.ofTy t
      let w : Nat := t.width
      let c : FVal := m.decode ((s.rf o.s).toNat % 2 ^ (8 * w))
      let src (v : BitVec 5) (k : Nat) : FVal := m.decode (elem (s.rv v) w k)
      let gives (i : Instr) (d : Bool) (f : Nat → FVal) : Prop :=
        Gives s i ⟨o.sc, [.p o.p, .f o.s], (o.a, decide (o.ha = 1)) :: (if d then [(o.d, false)] else []), some o.d,
            (activeList (s.rp o.p) w).isEmpty, [], wholly⟩ (.v o.d)
          (ofElems w fun k => m.round s.mode false (f k)) (activeMask (s.rp o.p) w)
      gives (.vfaddx o) false (fun k => FVal.sum s.mode (src o.a k) c) ∧
      gives (.vfmulx o) false (fun k => FVal.prod (src o.a k) c) ∧
      gives (.vfmacx o) true (fun k => FVal.sum s.mode (FVal.prod (src o.a k) c) (src o.d k))) ∧
    (∀ o : VSD, Owned s [o.d] →
      let w : Nat := (typeOf o.pre .i32).width
      let x : Nat := (s.rs o.s).toNat
      let i1 : Issue := ⟨o.sc, [.p o.p, .s o.s], [], some o.d, (activeList (s.rp o.p) w).isEmpty, [], wholly⟩
      Gives s (.vsplat o) i1 (.v o.d) (ofElems w fun _ => x) (activeMask (s.rp o.p) w) ∧
      Gives s (.viota o) i1 (.v o.d) (ofElems w fun k => x + k) (activeMask (s.rp o.p) w) ∧
      Gives s (.vins o) { i1 with srcs := [.p o.p, .s o.s, .s (o.s + 1)] } (.v o.d)
        (ofElems w fun _ => (s.rs (o.s + 1)).toNat)
        (ofElems w fun k => if k = x % (256 / w) ∧ (s.rp o.p).getLsbD (w * k) then 2 ^ (8 * w) - 1 else 0)) ∧
    (∀ o : VFD, Owned s [o.d] →
      let w : Nat := (typeOf o.pre .f32).width
      Gives s (.vfsplat o) ⟨o.sc, [.p o.p, .f o.s], [], some o.d, (activeList (s.rp o.p) w).isEmpty, [], wholly⟩ (.v o.d)
        (ofElems w fun _ => (s.rf o.s).toNat) (activeMask (s.rp o.p) w)) ∧
    (∀ o : VE, Owned s [o.a] →
      let t : Ty := typeOf o.pre .i32
      GivesS s (.vext o) ⟨o.sc, [.s o.s], [(o.a, o.ha = 1)], none, false, [], wholly⟩ o.s
        (BitVec.ofInt 64 (elemInt t (elem (s.rv o.a) t.width ((s.rs o.s).toNat % (256 / t.width))))))

/-- 05 R102, R103, R112: block scales: one scale byte for each 32 elements, 255 where one of them is NaN or infinite, 127 where
all are zeros, else the biased exponent of the greatest magnitude less that of the type's largest finite value (03 R59), clamped to 0 and 254; their application with saturation; and the
weir generator, eight rounds of the mixer, at the counter of each active lane. -/
def Obligations.BlockScalesAndWeir : Prop :=
  (∀ (emax : Int) (xs : List FVal),
    let c : Nat := scaleCode emax xs
    ((∃ x ∈ xs, x = .nan ∨ ∃ b, x = .inf b) → c = 255) ∧
    ((∀ x ∈ xs, ∃ b, x = .zero b) → c = 127) ∧
    (∀ b m e, (∀ x ∈ xs, (∃ g, x = .zero g) ∨ ∃ g n i, x = .fin g n i ∧ i + (Nat.log2 n : Int) ≤ e + (Nat.log2 m : Int)) →
      .fin b m e ∈ xs → (c : Int) = min (max (e + (Nat.log2 m : Int) - emax + 127) 0) 254)) ∧
  (let emax (u f : Bool) : List Int := [0, 1, 2, 3, 4, 5, 6].map fun p => b8Emax (.b8 p u f)
   emax false false = [62, 31, 15, 7, 3, 1, 0] ∧ emax false true = [63, 31, 15, 7, 3, 1, 0] ∧
   emax true false = [125, 62, 31, 15, 7, 3, 1] ∧ emax true true = [126, 63, 31, 15, 7, 3, 1]) ∧
  (∀ (seed key : Word) (c : Nat),
    let k (j : Nat) : Nat := [seed.toNat % 2 ^ 32, seed.toNat / 2 ^ 32, key.toNat % 2 ^ 32, key.toNat / 2 ^ 32].getD (j % 4) 0
    let rot (x n : Nat) : Nat := (x * 2 ^ n + x / 2 ^ (32 - n)) % 2 ^ 32
    let ra (j : Nat) : Nat := [5, 11, 17, 23, 7, 13, 19, 27].getD j 0
    let rb (j : Nat) : Nat := [13, 7, 19, 3, 29, 9, 15, 21].getD j 0
    ∃ x y : Nat → Nat, x 0 = c ∧ y 0 = (k 0 ^^^ k 3) ^^^ 0xC3A51E69 ∧
      (∀ j, j < 8 → x (j + 1) = (x j + rot (y j) (ra j) + k j + j) % 2 ^ 32 ∧ y (j + 1) = rot (y j ^^^ x (j + 1)) (rb j)) ∧
      weir seed key c = (x 8 + y 8) % 2 ^ 32) ∧
  ∀ (s : State), Calm s →
    (∀ o : V1, Owned s [o.d, o.a] →
      let t1 : Ty := (typesOf o.pre).t1
      let t2 : Ty := (typesOf o.pre).t2
      let w : Nat := t2.width
      let block (k : Nat) : List FVal :=
        (((List.range 32).map fun j => 32 * k + j).filter fun j => (s.rp o.p).getLsbD (w * j)).map
          fun j => decodeTy t2 (elem (s.rv o.a) w j)
      Gives s (.vscget o) ⟨o.sc, [.p o.p], [(o.a, o.ha = 1)], some o.d, (activeList (s.rp o.p) w).isEmpty, [], wholly⟩ (.v o.d)
        (ofElems 1 fun k => if k < 256 / w / 32 then scaleCode (b8Emax t1) (block k) else 0) fullMask) ∧
    (∀ o : V2, Owned s [o.d, o.a, o.b] →
      let t1 : Ty := (typesOf o.pre).t1
      let t2 : Ty := (typesOf o.pre).t2
      let n : Nat := 256 / t2.width
      let scaled (c : Nat) (x : FVal) : FVal := if c = 255 then .nan else match x with
        | .fin g m e => .fin g m (e + 127 - c)
        | y => y
      Gives s (.vscapply o)
        ⟨o.sc, [.p o.p], [(o.a, o.ha = 1), (o.b, o.hb = 1)], some o.d, (activeList (s.rp o.p) 1).isEmpty, [], wholly⟩ (.v o.d)
        (ofElems 1 fun j => if j < n then
            (match t1 with
              | .b8 p u f => b8Round p u f true (scaled (elem (s.rv o.b) 1 (j / 32)) (decodeTy t2 (elem (s.rv o.a) t2.width j)))
              | _ => sc8Round true (scaled (elem (s.rv o.b) 1 (j / 32)) (decodeTy t2 (elem (s.rv o.a) t2.width j))))
          else 0)
        (ofElems 1 fun j => if j < n ∧ (s.rp o.p).getLsbD j then 255 else 0)) ∧
    (∀ o : VXS, Owned s [o.d, o.a] →
      Gives s (.vweir o) ⟨o.sc, [.p o.p, .s o.s], [(o.a, o.ha = 1)], some o.d, (activeList (s.rp o.p) 4).isEmpty, [], wholly⟩ (.v o.d)
        (ofElems 4 fun k => weir (s.launchSeed s.cur.core) (s.rs o.s) (elem (s.rv o.a) 4 k)) (activeMask (s.rp o.p) 4))

/-! ### Vector memory (05) -/

/-- 05 R108, R109: the vector loads and stores: every check of every active element comes before any effect, and the first that
fails traps with its element; else the active bytes move, a load has filled the lines it read (13 R229) and gives what they then hold (14 R241), and the lowest byte out of range is recorded as an offence. -/
def Obligations.VectorMemoryForms : Prop :=
  ∀ (s : State), Calm s →
    let load (i : Instr) (x : Issue) (d : BitVec 5) (mask : VReg) (cs : List Chunk) (value : List (Chunk × Option Loc) → VReg) : Prop :=
      (∀ r, s.reachAll s.cur .read cs = .ok r → GivesOn s ((s.readChunks s.cur r).chunkOffence s.cur r false) i x (.v d) (value r) mask) ∧
      (∀ y, s.reachAll s.cur .read cs = .error y → Traps s i y)
    let store (i : Instr) (x : Issue) (v : VReg) (cs : List Chunk) : Prop :=
      (∀ r, s.reachAll s.cur .write cs = .ok r →
        (s.chunksRefused s.cur r = none → Does s i x ((s.chunkOffence s.cur r true).storeChunks s.cur v r)) ∧
        (∀ y, s.chunksRefused s.cur r = some y → Traps s i y)) ∧
      (∀ y, s.reachAll s.cur .write cs = .error y → Traps s i y)
    let p (n : BitVec 3) : Pred := s.rp n
    let loaded (r : List (Chunk × Option Loc)) : VReg := (s.readChunks s.cur r).loadedReg s.cur r
    let none' (n : BitVec 3) (w : Nat) : Bool := (activeList (s.rp n) w).isEmpty
    (∀ o : VSD, Owned s [o.d] →
      let x : Issue := ⟨o.sc, [.p o.p, .s o.s], [], some o.d, none' o.p 1, [], wholly⟩
      load (.vld o) x o.d (activeMask (p o.p) 1) (granules (p o.p) (s.rs o.s) 0 32) loaded ∧
      load (.vldh o) { x with srcs := [.p o.p, .s o.s, .s (o.s + 1)] } o.d (activeMask (p o.p) 1)
        (rows8 (p o.p) (s.rs o.s) (s.rs (o.s + 1))) loaded ∧
      (let w : Nat := (typeOf o.pre .i32).width
       let xb : Issue := { x with idle := none' o.p w }
       (activeList (p o.p) w = [] → Does s (.vldb o) xb s) ∧
       (∀ i rest, activeList (p o.p) w = i :: rest →
         load (.vldb o) xb o.d (activeMask (p o.p) w)
           [⟨i, s.rs o.s, s.rs o.s, w, 0, List.range w, (s.rs o.s).toNat % w == 0, false⟩]
           fun r => ofElems w fun _ => (loaded r).toNat))) ∧
    (∀ o : VSA, Owned s [o.a] →
      let x : Issue := ⟨o.sc, [.p o.p, .s o.s], [(o.a, o.ha = 1)], none, none' o.p 1, [], wholly⟩
      store (.vst o) x (s.rv o.a) (granules (p o.p) (s.rs o.s) 0 32) ∧
      store (.vsth o) { x with srcs := [.p o.p, .s o.s, .s (o.s + 1)] } (s.rv o.a)
        (rows8 (p o.p) (s.rs o.s) (s.rs (o.s + 1)))) ∧
    (∀ o : VXS, Owned s [o.d, o.a] →
      let w : Nat := (typeOf o.pre .i32).width
      let x : Issue := ⟨o.sc, [.p o.p, .s o.s], [(o.a, o.ha = 1)], some o.d, none' o.p w, [], wholly⟩
      load (.vldx o) x o.d (activeMask (p o.p) w) (indexed (p o.p) w (s.rs o.s) (s.rv o.a)) loaded ∧
      store (.vstx o) { x with vdst := none, vsrcs := [(o.a, o.ha = 1), (o.d, false)] } (s.rv o.d)
        (indexed (p o.p) w (s.rs o.s) (s.rv o.a))) ∧
    (∀ o : PLd,
      (∀ r, s.reachAll s.cur .read (granules (BitVec.allOnes 256) (s.rs o.s) 0 4) = .ok r →
        GivesOn s ((s.readChunks s.cur r).chunkOffence s.cur r false) (.pld o) (plain o.sc [.s o.s]) (.p o.d)
          (((loaded r).setWidth 256).setWidth 2048) fullMask) ∧
      (∀ y, s.reachAll s.cur .read (granules (BitVec.allOnes 256) (s.rs o.s) 0 4) = .error y → Traps s (.pld o) y)) ∧
    (∀ o : PSt, store (.pst o) (plain o.sc [.s o.s, .p o.a]) ((s.rp o.a).setWidth 2048)
      (granules (BitVec.allOnes 256) (s.rs o.s) 0 4))

/-- 05 R109: which bytes move. A loaded register holds at an active byte i of a whole-register access the byte at the base
address plus i as the strand reads it then (zero out of range), and at an active element of an indexed access the bytes at the base plus index times
width; a store leaves every byte outside its active ones as before, as any strand reads it. Where its lines need the ways of others in the cluster cache (the count of free values rises), the
dirty bytes of an evicted line go home, and a byte read there is then what its home holds (13 R229), the copy of the reader's die of a replicated page
(13 R233). A stored byte is read back, where no other byte that goes home has its place. -/
def Obligations.VectorMemoryBytes : Prop :=
  ∀ (s : State) (w : StrandId),
    (∀ p base r, s.reachAll w .read (granules p base 0 32) = .ok r →
      ∀ (t : State) i, i < 256 → p.getLsbD i = true → ∃ e ∈ r, e.1.va = base + BitVec.ofNat 64 (i / 8 * 8) ∧
        elem (t.loadedReg w r) 1 i = match e.2 with
          | some l => (t.viewByte w l (i % 8)).toNat
          | none => 0) ∧
    (∀ p n base idx r, n = 1 ∨ n = 2 ∨ n = 4 ∨ n = 8 → s.reachAll w .read (indexed p n base idx) = .ok r →
      ∀ (t : State) i, i < 256 / n → p.getLsbD (n * i) = true → ∃ e ∈ r, e.1.va = base + BitVec.ofNat 64 (elem idx n i * n) ∧
        elem (t.loadedReg w r) n i = match e.2 with
          | some l => t.viewNat w l n
          | none => 0) ∧
    (∀ v r (w' : StrandId) (l' : Loc) (k' : Nat),
      let t : State := s.storeChunks w v r
      let key : Nat := readKey (dieOf w'.core) (l'.key + k')
      (∀ e ∈ r, ∀ l, e.2 = some l → ∀ k ∈ e.1.act, l'.key + k' ≠ l.key + k ∧ key ∉ homeKeys (l.key + k)) →
      (t.free = s.free → t.viewByte w' l' k' = s.viewByte w' l' k') ∧
      (t.viewByte w' l' k' = s.viewByte w' l' k' ∨ t.viewByte w' l' k' = Memory.read t.mem key) ∧
      (Memory.read t.mem key = Memory.read s.mem key ∨
        ∃ e o x, FMap.find (s.cluster (clusterOf w.core)).cache e = some x ∧ o < 64 ∧ x.dirty.getLsbD o = true ∧
          key ∈ homeKeys (e * 64 + o) ∧ Memory.read t.mem key = x.byte o)) ∧
    (∀ v c l k rest, k ∈ c.act →
      let key : Nat := readKey (dieOf w.core) (l.key + k)
      (∀ e ∈ rest, ∀ l', e.2 = some l' → ∀ k' ∈ e.1.act, l'.key + k' ≠ l.key + k) →
      (∀ e ∈ (c, some l) :: rest, ∀ l', e.2 = some l' → ∀ k' ∈ e.1.act, l'.key + k' ≠ l.key + k → key ∉ homeKeys (l'.key + k')) →
      (∀ e o x, FMap.find (s.cluster (clusterOf w.core)).cache e = some x → o < 64 → x.dirty.getLsbD o = true →
        key ∈ homeKeys (e * 64 + o) → e * 64 + o = l.key + k ∧ l.cached ≠ none) →
      (s.storeChunks w v ((c, some l) :: rest)).viewByte w l k = BitVec.ofNat 8 (v.toNat / 256 ^ (c.pos + k)))

/-! ### Atomics and fences (14) -/

/-- 14 R248 to R253, 16 R288: an atomic outside a deterministic launch reads and writes its n bytes at their site in one event,
with the release part before it and the acquire part behind it, and gives the old value; inside one it is a request that will write its
destination. ldo reads, sto writes. Out of range they read zero and discard what they would write, and the first such access counts as a write offence (R248); a failed check
traps, and so does a read, outside a deterministic launch, of bytes that fail their check code (24 R390); a release of domain or system scope waits for the strand's posted peer writes
(22 R378). A strand's fetches keep what they found at the bytes that it writes, until ifence, which discards what the strand has fetched (04 R84); a fence takes the cache
actions of its scope. -/
def Obligations.AtomicForms : Prop :=
  ∀ (s : State), Calm s →
    let w : StrandId := s.cur
    let plainLaunch : Prop := (s.strand w).det = false ∧ s.coreDet w.core = false
    let bytes (size : BitVec 1) : Nat := if size = 1 then 8 else 4
    let released (u : State) (ord : BitVec 2) (scope : BitVec 3) : State := if ord.getLsbD 1 then u.release w.core scope.toNat else u
    let behind (ord : BitVec 2) (scope : BitVec 3) (u : State) : State := if ord.getLsbD 0 then u.acquire w.core scope.toNat else u
    let free (ord : BitVec 2) (scope : BitVec 3) : Prop := ord.getLsbD 1 = true → 4 ≤ scope.toNat → ∀ p ∈ s.posted, p.who ≠ w
    let sound (l : Loc) (n : Nat) : Prop := (s.toHome w.core l n).homeFail w.core l n = none
    let signed (n old : Nat) : Word := if n = 4 then (BitVec.ofNat 32 old).signExtend 64 else BitVec.ofNat 64 old
    (plainLaunch → ∀ (o : At) (l : Loc), s.checked w .rmw (s.rs o.a) (bytes o.size) = .at l → free o.ord o.scope →
      sound l (bytes o.size) →
      let n : Nat := bytes o.size
      let at' : State := (released (s.keepFetches w l n) o.ord o.scope).toHome w.core l n
      let old : Nat := at'.homeNat w.core l n
      let v : Nat := (s.rs o.b).toNat % 2 ^ (8 * n)
      let cmp : Nat := (s.rs o.d).toNat % 2 ^ (8 * n)
      let value (x : Nat) : Int := (BitVec.ofNat (8 * n) x).toInt
      let x : Issue := plain o.sc [.s o.a, .s o.b, .s o.d]
      let event (i : Instr) (new : Nat) (ext : Word) : Prop :=
        GivesSOn s (behind o.ord o.scope (at'.homePut w.core l new n)) i x o.d ext
      event (.amadd o) ((old + v) % 2 ^ (8 * n)) (signed n old) ∧
      event (.amand o) (old &&& v) (signed n old) ∧ event (.amor o) (old ||| v) (signed n old) ∧
      event (.amxor o) (old ^^^ v) (signed n old) ∧
      event (.ammin o) (if value v < value old then v else old) (signed n old) ∧
      event (.ammax o) (if value old < value v then v else old) (signed n old) ∧
      event (.amminw o) (min old v) (BitVec.ofNat 64 old) ∧ event (.ammaxw o) (max old v) (BitVec.ofNat 64 old) ∧
      event (.amswap o) v (signed n old) ∧
      (old = cmp → event (.amcas o) v (signed n old)) ∧
      (old ≠ cmp → GivesSOn s (behind o.ord o.scope at') (.amcas o) x o.d (signed n old))) ∧
    (plainLaunch → ∀ (o : AtL) (l : Loc), s.checked w .read (s.rs o.a) (bytes o.size) = .at l → free o.ord o.scope →
      sound l (bytes o.size) →
      let n : Nat := bytes o.size
      let at' : State := (released s o.ord o.scope).toHome w.core l n
      GivesSOn s (behind o.ord o.scope at') (.ldo o) (plain o.sc [.s o.a]) o.d (signed n (at'.homeNat w.core l n))) ∧
    (plainLaunch → ∀ (o : AtS) (l : Loc), s.checked w .write (s.rs o.a) (bytes o.size) = .at l → free o.ord o.scope →
      let n : Nat := bytes o.size
      let at' : State := (released (s.keepFetches w l n) o.ord o.scope).toHome w.core l n
      Does s (.sto o) (plain o.sc [.s o.a, .s o.b])
        (behind o.ord o.scope (at'.homePut w.core l ((s.rs o.b).toNat % 2 ^ (8 * n)) n))) ∧
    ((s.strand w).det = true → ∀ (o : At) (l : Loc), s.checked w .rmw (s.rs o.a) (bytes o.size) = .at l → free o.ord o.scope →
      s.berthRefused w (s.rs o.a) = none →
      let request (i : Instr) (op : BitVec 5) : Prop :=
        Does s i (plain o.sc [.s o.a, .s o.b, .s o.d])
          ((s.keepFetches w l (bytes o.size)).collect w [o.d]
            (.atomic o.d op (bytes o.size) (s.rs o.a) (some l) (s.rs o.b) (s.rs o.d)))
      request (.amadd o) 0 ∧ request (.amand o) 1 ∧ request (.amor o) 2 ∧ request (.amxor o) 3 ∧ request (.ammin o) 4 ∧
      request (.ammax o) 5 ∧ request (.amminw o) 6 ∧ request (.ammaxw o) 7 ∧ request (.amswap o) 8 ∧ request (.amcas o) 9) ∧
    ((s.strand w).det = true → ∀ (o : AtL) (l : Loc), s.checked w .read (s.rs o.a) (bytes o.size) = .at l → free o.ord o.scope →
      Does s (.ldo o) (plain o.sc [.s o.a])
        (s.collect w [o.d] (.atomic o.d 10 (bytes o.size) (s.rs o.a) (some l) 0 (s.rs o.d)))) ∧
    ((s.strand w).det = true → ∀ (o : AtS) (l : Loc), s.checked w .write (s.rs o.a) (bytes o.size) = .at l → free o.ord o.scope →
      s.berthRefused w (s.rs o.a) = none →
      Does s (.sto o) (plain o.sc [.s o.a, .s o.b])
        ((s.keepFetches w l (bytes o.size)).collect w [] (.atomic 0 11 (bytes o.size) (s.rs o.a) (some l) (s.rs o.b) 0))) ∧
    (plainLaunch → ∀ o : At, s.checked w .rmw (s.rs o.a) (bytes o.size) = .out → free o.ord o.scope →
      let u : State := s.offence w (s.rs o.a) true
      let out (i : Instr) : Prop := GivesSOn s (behind o.ord o.scope (released u o.ord o.scope)) i (plain o.sc [.s o.a, .s o.b, .s o.d]) o.d 0
      out (.amadd o) ∧ out (.amand o) ∧ out (.amor o) ∧ out (.amxor o) ∧ out (.ammin o) ∧ out (.ammax o) ∧
      out (.amminw o) ∧ out (.ammaxw o) ∧ out (.amswap o) ∧ out (.amcas o)) ∧
    (plainLaunch → ∀ o : AtL, s.checked w .read (s.rs o.a) (bytes o.size) = .out → free o.ord o.scope →
      GivesSOn s (behind o.ord o.scope (released (s.offence w (s.rs o.a) true) o.ord o.scope)) (.ldo o) (plain o.sc [.s o.a]) o.d 0) ∧
    (plainLaunch → ∀ o : AtS, s.checked w .write (s.rs o.a) (bytes o.size) = .out → free o.ord o.scope →
      Does s (.sto o) (plain o.sc [.s o.a, .s o.b])
        (behind o.ord o.scope (released (s.offence w (s.rs o.a) true) o.ord o.scope))) ∧
    ((s.strand w).det = true →
      (∀ o : At, s.checked w .rmw (s.rs o.a) (bytes o.size) = .out → free o.ord o.scope →
        let request (i : Instr) (op : BitVec 5) : Prop :=
          Does s i (plain o.sc [.s o.a, .s o.b, .s o.d])
            ((s.offence w (s.rs o.a) true).collect w [o.d]
              (.atomic o.d op (bytes o.size) (s.rs o.a) none (s.rs o.b) (s.rs o.d)))
        request (.amadd o) 0 ∧ request (.amand o) 1 ∧ request (.amor o) 2 ∧ request (.amxor o) 3 ∧ request (.ammin o) 4 ∧
        request (.ammax o) 5 ∧ request (.amminw o) 6 ∧ request (.ammaxw o) 7 ∧ request (.amswap o) 8 ∧ request (.amcas o) 9) ∧
      (∀ o : AtL, s.checked w .read (s.rs o.a) (bytes o.size) = .out → free o.ord o.scope →
        Does s (.ldo o) (plain o.sc [.s o.a])
          ((s.offence w (s.rs o.a) true).collect w [o.d] (.atomic o.d 10 (bytes o.size) (s.rs o.a) none 0 (s.rs o.d)))) ∧
      (∀ o : AtS, s.checked w .write (s.rs o.a) (bytes o.size) = .out → free o.ord o.scope →
        Does s (.sto o) (plain o.sc [.s o.a, .s o.b])
          ((s.offence w (s.rs o.a) true).collect w [] (.atomic 0 11 (bytes o.size) (s.rs o.a) none (s.rs o.b) 0)))) ∧
    (∀ (o : At) (y : Trap), (s.checked w .rmw (s.rs o.a) (bytes o.size) = .trap y ∨
        ∃ l, s.checked w .rmw (s.rs o.a) (bytes o.size) = .at l ∧ s.berthRefused w (s.rs o.a) = some y) →
      Traps s (.amadd o) y ∧ Traps s (.amand o) y ∧ Traps s (.amor o) y ∧ Traps s (.amxor o) y ∧ Traps s (.ammin o) y ∧
      Traps s (.ammax o) y ∧ Traps s (.amminw o) y ∧ Traps s (.ammaxw o) y ∧ Traps s (.amswap o) y ∧ Traps s (.amcas o) y) ∧
    (∀ (o : AtL) (y : Trap), s.checked w .read (s.rs o.a) (bytes o.size) = .trap y → Traps s (.ldo o) y) ∧
    (∀ (o : AtS) (y : Trap), (s.checked w .write (s.rs o.a) (bytes o.size) = .trap y ∨
        ∃ l, s.checked w .write (s.rs o.a) (bytes o.size) = .at l ∧ s.berthRefused w (s.rs o.a) = some y) → Traps s (.sto o) y) ∧
    (plainLaunch → ∀ (l : Loc) (n code : Nat), (s.toHome w.core l n).homeFail w.core l n = some code →
      (∀ o : At, n = bytes o.size → s.checked w .rmw (s.rs o.a) n = .at l → free o.ord o.scope →
        let y : Trap := trapAt 0 code (s.rs o.a) true
        Traps s (.amadd o) y ∧ Traps s (.amand o) y ∧ Traps s (.amor o) y ∧ Traps s (.amxor o) y ∧ Traps s (.ammin o) y ∧
        Traps s (.ammax o) y ∧ Traps s (.amminw o) y ∧ Traps s (.ammaxw o) y ∧ Traps s (.amswap o) y ∧ Traps s (.amcas o) y) ∧
      (∀ o : AtL, n = bytes o.size → s.checked w .read (s.rs o.a) n = .at l → free o.ord o.scope →
        Traps s (.ldo o) (trapAt 0 code (s.rs o.a) false))) ∧
    (∀ (i : Instr) (ord : BitVec 2) (scope : BitVec 3) (va : Word) (n : Nat) (acc : Machine.Acc),
      ((∃ o : At, i = .amadd o ∧ acc = .rmw ∧ ord = o.ord ∧ scope = o.scope ∧ va = s.rs o.a ∧ n = bytes o.size) ∨
       (∃ o : AtL, i = .ldo o ∧ acc = .read ∧ ord = o.ord ∧ scope = o.scope ∧ va = s.rs o.a ∧ n = bytes o.size) ∨
       (∃ o : AtS, i = .sto o ∧ acc = .write ∧ ord = o.ord ∧ scope = o.scope ∧ va = s.rs o.a ∧ n = bytes o.size)) →
      (∀ y, s.checked w acc va n ≠ .trap y) → s.berthRefused w va = none → ¬free ord scope → Waits s i .acks) ∧
    (∀ o : Fe, (o.sets.getLsbD 1 = true → 4 ≤ o.scope.toNat → ∀ p ∈ s.posted, p.who ≠ w) →
      let u : State := if o.sets.getLsbD 1 then s.release w.core o.scope.toNat else s
      Does s (.fence o) (plain o.sc []) (if o.sets.getLsbD 2 then u.acquire w.core o.scope.toNat else u)) ∧
    (∀ o : R0, Does s (.ifence o) (plain o.sc []) (s.onStrand w fun t => { t with fetched := [], stale := [] }))

/-! ### Timed words and laws (06) -/

/-- 06 R128 to R133, 16 R288: a timed read gives the values and the status of its word at now and leaves the word but for a
crossing; a writing func is performed at the word's site in one step and gives its status, or in a deterministic launch is a request; a word
out of range reads as zeros and counts as an offence; the first check that fails traps.
The model's choices: which funcs count as reads and which as writes in their permissions and offences (log 15), and the first offending lane and the lowest offence of the lane forms (log 16). -/
def Obligations.TimedForms : Prop :=
  ∀ (s : State), Calm s →
    let w : StrandId := s.cur
    let now : BitVec 48 := s.nowOf w
    (∀ o : R2,
      let x : Issue := plain o.sc [.s o.a]
      (∀ l, s.timedReach w .read (s.rs o.a) none = .ok (some l) →
        let r : State × Word × Word := s.timedRead w (s.rs o.a) l 0
        GivesTwo s r.1 (.tld o) x o.d r.2.1 (o.d + 1) r.2.2) ∧
      (s.timedReach w .read (s.rs o.a) none = .ok none →
        GivesTwo s (s.offence w (s.rs o.a) false) (.tld o) x o.d 0 (o.d + 1) (BitVec.ofNat 64 (now.toNat * 2 ^ 16))) ∧
      (∀ y, s.timedReach w .read (s.rs o.a) none = .error y → Traps s (.tld o) y)) ∧
    (let writes (i : Instr) (sc : BitVec 2) (d a : BitVec 4) (srcs : List Reg) (law : Option (BitVec 8)) (op : TimedOp) : Prop :=
      let x : Issue := plain sc (.s a :: srcs)
      let va : Word := s.rs a
      (∀ l, s.timedReach w .rmw va law = .ok (some l) →
        ((s.strand w).det = false → let r : State × Word × Word := s.timedAt w op va l now 0
          GivesSOn s r.1 i x d r.2.2) ∧
        ((s.strand w).det = true → Does s i x (s.collect w [d] (.timed (some d) op va (some l) now 0)))) ∧
      (s.timedReach w .rmw va law = .ok none →
        ((s.strand w).det = false → GivesSOn s (s.offence w va true) i x d (BitVec.ofNat 64 (now.toNat * 2 ^ 16))) ∧
        ((s.strand w).det = true →
          Does s i x ((s.offence w va true).collect w [d] (.timed (some d) op va none now 0)))) ∧
      (∀ y, s.timedReach w .rmw va law = .error y → Traps s i y)
     (∀ o : R3,
       writes (.tst o) o.sc o.d o.a [.s o.b] none (.set (s.rs o.b) none) ∧
       writes (.tstLaw o) o.sc o.d o.a [.s o.b, .s (o.b + 1)] (some ((s.rs (o.b + 1)).setWidth 8))
         (.set (s.rs o.b) (some ((s.rs (o.b + 1)).setWidth 8))) ∧
       writes (.tadd o) o.sc o.d o.a [.s o.b] none (.add (s.rs o.b))) ∧
     (∀ o : R2, writes (.ttouch o) o.sc o.d o.a [] none .touch ∧ writes (.tarm o) o.sc o.d o.a [] none .arm) ∧
     (∀ o : TC, writes (.tclr o) o.sc o.d o.a [] none (.clear o.clr))) ∧
    (∀ o : TV, Owned s [o.v] →
      let p : Pred := s.rp o.p
      let lanes : List (Nat × Word) := laneAddrs p (s.rs o.a) (s.rs o.b)
      let idle : Bool := (activeList p 4).isEmpty
      let xr : Issue := ⟨o.sc, [.p o.p, .s o.a, .s o.b], [], some o.v, idle, [], wholly⟩
      let xw : Issue := ⟨o.sc, [.p o.p, .s o.a, .s o.b], [(o.v, false)], none, idle, [], wholly⟩
      (∀ ls, s.reachLanes w .read lanes = .ok ls →
        let r : State × List (Nat × Nat) := (s.laneOffence w ls false).readLanes w ls
        GivesOn s r.1 (.vtld o) xr (.v o.v) (ofElems 4 fun i => (r.2.lookup i).getD 0) (activeMask p 4)) ∧
      (∀ y, s.reachLanes w .read lanes = .error y → Traps s (.vtld o) y) ∧
      (∀ ls, s.reachLanes w .rmw lanes = .ok ls →
        let ws : List (Nat × Word × Option Loc × BitVec 32) :=
          ls.map fun e => (e.1, e.2.1, e.2.2, BitVec.ofNat 32 (elem (s.rv o.v) 4 e.1))
        ((s.strand w).det = true → Does s (.vtadd o) xw ((s.laneOffence w ls true).collect w [] (.lanes ws now))) ∧
        ((s.strand w).det = false → Does s (.vtadd o) xw
          (ws.foldl (fun u e => match e.2.2.1 with
            | some l => (u.timedAt w (.add (e.2.2.2.setWidth 64)) e.2.1 l now e.1).1
            | none => u) (s.laneOffence w ls true)))) ∧
      (∀ y, s.reachLanes w .rmw lanes = .error y → Traps s (.vtadd o) y))

/-- 06 R122, R124, R125, R131, R132: evaluating a word advances its values from its stamp to now; a crossing is found exactly
when the word is armed and its threshold is not met as stored and is met at now; its tick is the stamp plus c + 1, not behind now, with the
threshold not met at offset c; a read changes the flags alone, and a write stamps now; a sum is clamped half by half and sets sat when it is. 06 R114, R126, R129: an access at a word's
site reads its fields from its 16 bytes, uses the law's entry at that site, stores the word, answers the value pair and the status field by field, and posts one crossing message, to the word's
owner core, when it found a crossing and the law has a handler. -/
def Obligations.TimedEvaluation : Prop :=
  (∀ (w : TWord) (l : Law) (now : BitVec 48),
    let dt : Nat := (now - w.stamp).toNat
    let at' (o : Nat) : Nat × Nat × Bool := l.advance w.x.toNat w.y.toNat o
    let e : Found := evalWord w l now
    let r (op : TimedOp) : TWord := (op.write w e now).1
    let raw (a b : Nat) : Int := signExt a 32 + signExt b 32
    let sum (a b : Nat) : Nat := (BitVec.ofInt 32 (satS (raw a b) 32)).toNat
    let clamped (a b : Nat) : Prop := raw a b < -2 ^ 31 ∨ 2 ^ 31 ≤ raw a b
    (e.x = (at' dt).1 ∧ e.y = (at' dt).2.1 ∧ e.sat = (w.sat || (at' dt).2.2)) ∧
    (e.hit = true ↔ w.armed = true ∧ l.met w.x.toNat w.y.toNat = false ∧ l.met (at' dt).1 (at' dt).2.1 = true) ∧
    (e.hit = false → e.tick = now) ∧
    (e.hit = true → ∃ c, c < dt ∧ e.tick = w.stamp + BitVec.ofNat 48 (c + 1) ∧
      (c = 0 ∨ l.met (at' c).1 (at' c).2.1 = false) ∧ e.xc = (at' (c + 1)).1 ∧ e.yc = (at' (c + 1)).2.1) ∧
    (r .read = if e.hit then { w with armed := false, fired := true } else w) ∧
    (∀ v, r (.set v none) = { r .read with x := v.setWidth 32, y := v.extractLsb' 32 32, sat := false, stamp := now }) ∧
    (∀ v k, r (.set v (some k)) =
      { r .read with x := v.setWidth 32, y := v.extractLsb' 32 32, sat := false, stamp := now, law := k }) ∧
    (∀ v : Word, (r (.add v)).x.toNat = sum e.x (v.toNat % 2 ^ 32) ∧ (r (.add v)).y.toNat = sum e.y (v.toNat / 2 ^ 32) ∧
      (r (.add v)).stamp = now ∧ (r (.add v)).law = w.law ∧ (r (.add v)).armed = (r .read).armed ∧
      (r (.add v)).fired = (r .read).fired ∧
      ((r (.add v)).sat = true ↔ e.sat = true ∨ clamped e.x (v.toNat % 2 ^ 32) ∨ clamped e.y (v.toNat / 2 ^ 32))) ∧
    (r .touch = { r .read with x := BitVec.ofNat 32 e.x, y := BitVec.ofNat 32 e.y, sat := e.sat, stamp := now }) ∧
    (r .arm = { r .touch with armed := true, fired := false }) ∧
    (∀ m, r (.clear m) = { r .read with
      fired := (r .read).fired && !m.getLsbD 0, sat := w.sat && !m.getLsbD 1, armed := (r .read).armed && !m.getLsbD 2 })) ∧
  (∀ (b : Nat),
    let w : TWord := TWord.ofNat b
    w.x.toNat = b % 2 ^ 32 ∧ w.y.toNat = b / 2 ^ 32 % 2 ^ 32 ∧ w.stamp.toNat = b / 2 ^ 64 % 2 ^ 48 ∧
    w.law.toNat = b / 2 ^ 112 % 2 ^ 8 ∧ w.armed = b.testBit 120 ∧ w.fired = b.testBit 121 ∧ w.sat = b.testBit 122) ∧
  (∀ (s : State) (w : StrandId) (op : TimedOp) (va : Word) (l : Loc) (now : BitVec 48) (lane : Nat),
    let at' : State := s.toHome w.core l 16
    let old : TWord := TWord.ofNat (at'.homeNat w.core l 16)
    let law : Law := at'.lawAt l old.law.toNat
    let e : Found := evalWord old law now
    let new : TWord := (op.write old e now).1
    let sat : Bool := if op = .read then e.sat else new.sat
    let u : State := at'.useLaw l old.law.toNat
    let v : State := if op = .read ∧ e.hit = false then u else u.homePut w.core l new.toNat 16
    let r : State × Word × Word := s.timedAt w op va l now lane
    r.2.1 = BitVec.ofNat 32 e.y ++ BitVec.ofNat 32 e.x ∧
    r.2.2.toNat = e.tick.toNat * 2 ^ 16 + new.law.toNat * 2 ^ 8 + e.hit.toNat * 8 + sat.toNat * 4 + new.fired.toNat * 2 +
      new.armed.toNat ∧
    ((e.hit = false ∨ law.ctl.extractLsb' 32 12 = 0xFFF#12) → r.1 = v) ∧
    (e.hit = true → law.ctl.extractLsb' 32 12 ≠ 0xFFF#12 →
      ∃ m : Message, r.1 = v.sendMsg m ∧
        m.dest = (match l with
          | .store c _ _ => c
          | _ => match v.regions.find? (v.inRegion (v.agent w).root va l) with
            | some g => (g.owner.map (v.relocate (some g.crew))).getD w.core
            | none => w.core) ∧
        hdrHandler m.bits = law.ctl.extractLsb' 32 12 ∧ hdrTag m.bits = law.ctl.extractLsb' 48 16 ∧
        hdrPrio m.bits = law.ctl.extractLsb' 8 2 ∧ hdrLen m.bits = 56 ∧ hdrGen m.bits = 0 ∧
        hdrSrcCore m.bits = BitVec.ofNat 16 w.core ∧ hdrSrcCtx m.bits = BitVec.ofNat 4 w.ctx ∧
        m.bits.toNat / 2 ^ 64 = va.toNat + e.tick.toNat * 2 ^ 64 + old.law.toNat * 2 ^ 112 + lane % 2 ^ 8 * 2 ^ 120 +
          e.xc % 2 ^ 32 * 2 ^ 128 + e.yc % 2 ^ 32 * 2 ^ 160 + e.x % 2 ^ 32 * 2 ^ 192 + e.y % 2 ^ 32 * 2 ^ 224 +
          now.toNat * 2 ^ 256))

/-- 06 R118, R119, R134, R135: lawset defines a law from its 32-byte descriptor (zeros, where that is out of range), with its ladder and the count of clamped
rungs, and the strand waits behind it while a die's copy or a cluster's cache holds another entry; or it traps and changes nothing when the descriptor breaks a rule (address 0, log 15). lawget reads a
doubleword of an entry as the issuing die's copy has it.
Each die has a copy of its own, and each cluster a cache of entries (log 94). -/
def Obligations.LawForms : Prop :=
  ∀ (s : State) (o : R3), Calm s →
    let w : StrandId := s.cur
    let x : Issue := plain o.sc [.s o.a, .s o.b]
    let n : Nat := (s.rs o.a).toNat % 256
    let law : Law := s.dieLaw (dieOf w.core) n
    let defines (u : State) (d : Nat → Word) : Prop :=
      let r : List Word × Nat := ladderFrom ((d 0).extractLsb' 0 2) 47 (d 1)
      let u1 : State := { u with laws := FMap.put u.laws n ⟨d 0, d 1, d 2, r.1⟩ }
      GivesSOn s (if u1.lawSpread n then u1 else u1.stay w (.laws n)) (.lawset o) x o.d (BitVec.ofNat 64 r.2)
    let k : Nat := (s.rs o.b).toNat % 64
    GivesS s (.lawget o) x o.d
      (if k = 0 then law.ctl else if k = 1 then law.factor else if k = 2 then law.threshold
        else if 8 ≤ k ∧ k ≤ 55 then law.ladder.getD (k - 8) 0 else 0) ∧
    (∀ y, s.reach w .read (s.rs o.b) 32 = .trap y → Traps s (.lawset o) y) ∧
    (∀ l, s.reach w .read (s.rs o.b) 32 = .at l →
      let d (j : Nat) : Word := BitVec.ofNat 64 ((s.viewRead w l 32).viewNat w l 32 / 2 ^ (64 * j))
      let kind : BitVec 2 := (d 0).extractLsb' 0 2
      let bad : Prop := (d 0) &&& 0x0000F000FFFFFCE4 ≠ 0 ∨ d 3 ≠ 0 ∨ ((kind = 0 ∨ kind = 2) ∧ d 1 ≠ 0) ∨
        (kind = 1 ∧ 2 ^ 32 ≤ (d 1).toNat) ∨ (kind ≠ 3 ∧ 2 ^ 32 ≤ (d 2).toNat)
      (bad → Traps s (.lawset o) (trapOf 14 3)) ∧
      (¬bad → defines (s.viewRead w l 32) d)) ∧
    (s.reach w .read (s.rs o.b) 32 = .out → defines (s.offence w (s.rs o.b) false) fun _ => 0) ∧
    (∀ d k, d < 4 → k < 256 → s.lawSpread k = true → s.dieLaw d k = s.law k)

/-! ### The joint array (11, 17) -/

/-- 11 R221 to R223: acget and acput move a quarter of an accumulator and aczero clears the masked ones, once no result for them
is still to come; the cursor forms set, read and advance a cursor modulo 64 and move the bits of a tile predicate; q7 discards writes. -/
def Obligations.AccumulatorForms : Prop :=
  ∀ (s : State), Calm s →
    let c : Nat := s.cur.core
    let bit (a : BitVec 2) : BitVec 4 := 1#4 <<< a.toNat
    let waits (i : Instr) (m : BitVec 4) : Prop :=
      s.accBusy c m = true → exec i s = .next (s.stay s.cur (.retry (.accumulator m)))
    (∀ o : Sys2Proof.Acc, Owned s [o.v] →
      let lo : Nat := 2048 * o.g.toNat
      waits (.acget o) (bit o.acc) ∧ waits (.acput o) (bit o.acc) ∧
      (s.accBusy c (bit o.acc) = false →
        Gives s (.acget o) ⟨o.sc, [], [], some o.v, false, [], wholly⟩ (.v o.v)
          (((s.core c).acc[o.acc.toNat]'o.acc.isLt).extractLsb' lo 2048) fullMask ∧
        ∃ tile : Tile, Does s (.acput o) ⟨o.sc, [], [(o.v, false)], none, false, [], wholly⟩
            (s.setCore c { s.core c with acc := (s.core c).acc.set o.acc.toNat tile o.acc.isLt }) ∧
          ∀ k, k < 8192 → tile.getLsbD k =
            if lo ≤ k ∧ k < lo + 2048 then (s.rv o.v).getLsbD (k - lo) else ((s.core c).acc[o.acc.toNat]'o.acc.isLt).getLsbD k)) ∧
    (∀ o : Az, waits (.aczero o) o.mask ∧ (s.accBusy c o.mask = false →
      ∃ accs : Vector Tile 4, Does s (.aczero o) (plain o.sc []) (s.setCore c { s.core c with acc := accs }) ∧
        ∀ k (h : k < 4), accs[k] = if o.mask.getLsbD k then 0 else (s.core c).acc[k])) ∧
    (∀ o : QA,
      let x : Issue := plain o.sc [.s o.a]
      (o.d ≠ 7 → Does s (.qcur o) x (s.onStrand s.cur fun t => { t with cursor := t.cursor.set o.d.toNat ((s.rs o.a).setWidth 6) o.d.isLt }) ∧
        Does s (.qmovToQ o) x (s.onStrand s.cur fun t => { t with q := t.q.set o.d.toNat (s.rs o.a) o.d.isLt })) ∧
      (o.d = 7 → Does s (.qcur o) x (s.onStrand s.cur id) ∧ Does s (.qmovToQ o) x (s.onStrand s.cur id))) ∧
    (∀ o : QD,
      let q : Word := (s.strand s.cur).getQ o.a
      let k : Nat := ((s.strand s.cur).getCursor o.a).toNat
      GivesS s (.qcurrd o) (plain o.sc []) o.d (BitVec.ofNat 64 (k + if q.getLsbD k then 64 else 0)) ∧
      GivesS s (.qmovToS o) (plain o.sc []) o.d q) ∧
    (∀ o : QN,
      let k : Nat := ((s.strand s.cur).cursor[o.d.toNat]'o.d.isLt).toNat
      (o.d ≠ 7 → Does s (.qadv o) (plain o.sc [])
        (s.onStrand s.cur fun t => { t with cursor := t.cursor.set o.d.toNat (BitVec.ofNat 6 ((k + o.n.toNat + 1) % 64)) o.d.isLt })) ∧
      (o.d = 7 → Does s (.qadv o) (plain o.sc []) (s.onStrand s.cur id)))

/-- 11 R203, R208 to R211, 17 R315, R316: a chain instruction that passes the checks of its issue takes its place behind the
earlier ones of its position, with the operands it read, and its strand waits for the join; nothing else changes. An mma's operand that breaks
a rule of R211 traps at issue; the lines of a page that the join reads keep the places that they have at issue; an amass at position 0 keeps the places of its mass words, or the fault of their checks, which the join does not repeat; apos copies a page's remap entries. -/
def Obligations.ChainForms : Prop :=
  ∀ (s : State), Calm s →
    let w : StrandId := s.cur
    let r : Nat := w.core / 8
    let t : Strand := s.strand w
    let enters (i : Instr) (x : Issue) (op : ChainOp) (ps : List (Nat × Option Loc)) (f : Option Trap) : Prop :=
      ∃ u, exec i s = .next u ∧ u.strand w = { t with wait := .chain } ∧
        (∀ p (h : p < 8), (u.row r).queues[p] =
          (s.row r).queues[p] ++ if p = w.core % 8 then [⟨w, s.ir, s.issueSlot x, x.sc, (s.core w.core).grant, op, ps, [], f⟩] else []) ∧
        u.mem = s.mem ∧ (∀ c, u.core c = s.core c) ∧ (∀ v, StrandId.key v ≠ StrandId.key w → u.strand v = s.strand v)
    let low (k : BitVec 3) : Word := t.getS (BitVec.ofNat 4 (2 * k.toNat))
    let high (k : BitVec 3) : Word := t.getS (BitVec.ofNat 4 (2 * k.toNat + 1))
    let pair (k : BitVec 3) : List Reg := [.s (BitVec.ofNat 4 (2 * k.toNat)), .s (BitVec.ofNat 4 (2 * k.toNat + 1))]
    let vec (k : BitVec 3) : BitVec 5 := BitVec.ofNat 5 (2 * k.toNat)
    let size (h : BitVec 1) : Nat := if h = 1 then 128 else 64
    (∀ o : Mma,
      let la : Nat := lineBytes o.fa (matK o.fa o.fb)
      let lb : Nat := lineBytes o.fb (matK o.fa o.fb)
      let a : Operand := s.operand w o.a
      let b : Operand := s.operand w o.b
      let x : Issue := ⟨o.sc, .f o.fs :: (operandRegs o.a ++ operandRegs o.b), [], none, false, operandVecs o.a la ++ operandVecs o.b lb, wholly⟩
      Owned s (x.extra.map (·.1)) →
      (a.check (w.core % 8) la = none → b.check (w.core % 8) lb = none →
        enters (.mma o) x (.mma o.acc o.fa o.fb o.ac o.q (s.rf o.fs) a b) [] none) ∧
      (∀ y, a.check (w.core % 8) la = some y → Traps s (.mma o) y) ∧
      (∀ y, a.check (w.core % 8) la = none → b.check (w.core % 8) lb = some y → Traps s (.mma o) y)) ∧
    (∀ o : Sys2Proof.Row, enters (.rowcfg o) (plain o.sc []) (.rowcfg o.d (o.shape = 1)) [] none) ∧
    (∀ o : ASc, enters (.ascore o) (plain o.sc (.f o.fs :: (pair o.a ++ pair o.b)))
      (.score o.acc o.f (size o.hd) (s.rf o.fs) (low o.a) (high o.a) (low o.b) (high o.b))
      (s.linePlaces w ((high o.b + 1280) :: blockAddrs (low o.b) (scoreOffs o.f (size o.hd) (w.core % 8))))
      (s.scoreCheck w o.f (size o.hd) (s.rf o.fs) (low o.a) (high o.a) (low o.b) (high o.b))) ∧
    (∀ o : ASo, Owned s [vec o.a] →
      enters (.asoft o) ⟨o.sc, [], [(vec o.a, false)], some (vec o.a), false, [], wholly⟩ (.soft o.acc (vec o.a) (s.rv (vec o.a))) [] none) ∧
    (∀ o : AVa, Owned s [vec o.a] →
      enters (.aval o) ⟨o.sc, .f o.fs :: pair o.b, [(vec o.a, false)], none, false, [], wholly⟩
        (.value o.acc o.aw o.f (size o.hd) (s.rf o.fs) (s.rv (vec o.a)) (low o.b) (high o.b))
        (s.linePlaces w ((high o.b + 1280) :: blockAddrs (low o.b) (valueOffs o.f (size o.hd) (w.core % 8))))
        (s.valueCheck w o.f (size o.hd) (s.rf o.fs) (low o.b) (high o.b))) ∧
    (∀ o : AMa, Owned s [vec o.a] →
      let scale : Word := s.rf o.fs
      let n : Nat := scale.toNat % 32
      let ok : Prop := scale.toNat < 32 ∧ 1 ≤ n ∧ n ≤ 16
      ∃ f words, enters (.amass o) ⟨o.sc, .f o.fs :: pair o.b, [(vec o.a, false)], none, false, [], wholly⟩
          (.mass o.acc n (s.rv (vec o.a)) (high o.b) (s.nowOf w) words)
          (s.linePlaces w [high o.b + 1280]) f ∧
        (¬ok → f = some (trapOf 12 4)) ∧
        (w.core % 8 ≠ 0 → words = [] ∧ (ok → f = none)) ∧
        (w.core % 8 = 0 →
          (∀ y, s.blockCheck w false (high o.b) [1280] = some y → words = [] ∧ (ok → f = some y)) ∧
          (s.blockCheck w false (high o.b) [1280] = none →
            (∀ y, s.massWords w (s.linePlaces w [high o.b + 1280]) (high o.b) = .error y → words = [] ∧ (ok → f = some y)) ∧
            (∀ ls, s.massWords w (s.linePlaces w [high o.b + 1280]) (high o.b) = .ok ls → words = ls ∧ (ok → f = none))))) ∧
    (∀ o : APo, Owned s [vec o.a] →
      let x : Issue := ⟨o.sc, pair o.b, [], some (vec o.a), false, [], wholly⟩
      let ps : List (Nat × Option Loc) := s.linePlaces w (blockAddrs (high o.b) (pageOffs 1024 256))
      (∀ y, s.blockCheck w true (high o.b) (pageOffs 1024 256) = some y → Traps s (.apos o) y) ∧
      (∀ y, s.blockCheck w true (high o.b) (pageOffs 1024 256) = none → s.pageFail w ps (high o.b + 1024) 256 = some y →
        Traps s (.apos o) y) ∧
      (s.blockCheck w true (high o.b) (pageOffs 1024 256) = none → s.pageFail w ps (high o.b + 1024) 256 = none →
        let g : State × Nat := s.pageGet w ps (high o.b + 1024) 256
        GivesOn s g.1 (.apos o) x (.v (vec o.a)) (BitVec.ofNat 2048 g.2) fullMask))

/-- 11 R203 to R205, R207, R213 to R219: the joins of a row: an instance joins when all eight positions have issued and there is
room; a mismatch traps on every member with no effect, and a step that it took of a stream is given back; a joined mma charges 32 units and an eighth of the flipped bits for an active slice and 4 for
an inactive one; the cluster grants the row of least charge, of equal ones the lowest numbered, when the units left of its share cover it; a granted mma delivers the sums of R213 to the accumulators of its
active positions, in deep shape to that of position 7, and to no other accumulator, position or row. Operand bytes, and a register or an accumulator that is read, which fail their check code end the launch instead (24 R390).
The model's choices: a cluster that has no share before the first arbiter window of its die grants without limit (log 24), and an inactive slice records no flips (log 107). -/
def Obligations.ChainEvents : Prop :=
  ∀ (s : State) (r : Nat),
    let row : Machine.Row := s.row r
    (row.queues.toList.mapM List.head? = none → exec (.chainJoin r) s = .next s) ∧
    (∀ i rest, row.queues.toList.mapM List.head? = some (i :: rest) → row.room i.op = false → exec (.chainJoin r) s = .next s) ∧
    (∀ i rest, row.queues.toList.mapM List.head? = some (i :: rest) → row.room i.op = true →
      let popped : Machine.Row := { row with queues := row.queues.map List.tail, joined := row.joined + 1 }
      ((∀ m ∈ i :: rest, m.fault = none) → (∀ m ∈ i :: rest, m.op.kind = i.op.kind) →
        (s.instanceFail row (i :: rest) = none →
          exec (.chainJoin r) s = .next ((i :: rest).foldl State.chainDone (s.joinEffect r row (i :: rest)))) ∧
        (∀ m x, s.instanceFail row (i :: rest) = some (m, x) → exec (.chainJoin r) s = .next (s.consumed m.who m.ir x))) ∧
      (s.failing = [] → (∀ m ∈ i :: rest, (s.strand m.who).fails = [] ∧ (s.core m.who.core).fails = []) →
        s.instanceFail row (i :: rest) = none) ∧
      ((∀ m ∈ i :: rest, m.fault = none) → (∃ m ∈ i :: rest, m.op.kind ≠ i.op.kind) →
        exec (.chainJoin r) s =
          .next ((i :: rest).foldl (fun u m => (u.leaveRaft m.who).chainTrap m (trapOf 12 3)) (s.setRow r popped))) ∧
      ((∃ m ∈ i :: rest, m.fault ≠ none) →
        exec (.chainJoin r) s = .next ((i :: rest).foldl
          (fun u m => (u.leaveRaft m.who).chainTrap m (m.fault.getD (trapOf 12 5))) (s.setRow r popped)))) ∧
    (∀ ms deep, ((s.joinRowcfg r row ms deep).row r).deep = deep) ∧
    (∀ ms fa fb ac, ∃ j : Joined, ((s.joinMma r row ms fa fb ac).row r).work = row.work ++ [j] ∧ j.granted = false ∧
      j.who = (ms.map fun m => (m.who, (s.strand m.who).gen)) ∧ ∀ x ∈ j.slices, x.units = if x.act then 32 + x.flips / 8 else 4) ∧
    (∀ cluster,
      let waits (n : Nat) : Option Joined := (s.row n).work.find? fun j => !j.granted
      let left : Option Nat := ((s.cluster cluster).share.or (s.die (cluster / 512)).idleShare).map (· - (s.cluster cluster).spent)
      ((∀ n, n / 4 = cluster → waits n = none) → exec (.budgetGrant cluster) s = .next s) ∧
      (∀ n j, n / 4 = cluster → waits n = some j →
        (∀ n' j', n' / 4 = cluster → waits n' = some j' → j.units < j'.units ∨ (j.units = j'.units ∧ n ≤ n')) →
        (∀ k, left = some k → k < j.units → exec (.budgetGrant cluster) s = .next s) ∧
        ((∀ k, left = some k → j.units ≤ k) → ∃ t, exec (.budgetGrant cluster) s = .next t ∧
          (t.row n).work = grantFirst (s.row n).work ∧ (∀ n', n' ≠ n → t.row n' = s.row n') ∧
          (t.cluster cluster).spent = (s.cluster cluster).spent + j.units ∧ t.mem = s.mem ∧ ∀ c, t.core c = s.core c))) ∧
    (row.work = [] → exec (.mmaDelivery r) s = .next s) ∧
    (∀ m e st, m.taken = [e] → e.stream < 4 → (s.core m.who.core).streams[e.stream]? = some (some st) →
      ((s.giveBack m).core m.who.core).streams[e.stream]? = some (some (if st.order = e.order
        then { st with buf := e.buf ++ st.buf, taken := st.taken - e.count } else st))) ∧
    ((∀ c, (s.core c).fails = []) → ∀ j, s.addendFail r j = none) ∧
    (∀ j rest w x, row.work = j :: rest → j.granted = true → s.addendFail r j = some (w, x) →
      exec (.mmaDelivery r) s = .next ((s.setRow r { row with work := rest }).consumed w [] x)) ∧
    (∀ j rest, row.work = j :: rest → j.granted = true → s.addendFail r j = none → j.slices.length = 8 → ∃ t, exec (.mmaDelivery r) s = .next t ∧
      t.row r = { row with work := rest } ∧ (∀ k, k ≠ r → t.row k = s.row k) ∧ t.mem = s.mem ∧
      (∀ w, t.strand w = s.strand w) ∧ (∀ c, c / 8 ≠ r → t.core c = s.core c) ∧
      (∀ c, t.core c = { s.core c with acc := (t.core c).acc, fails := (t.core c).fails }) ∧
      (j.deep = false → ∀ p (x : Slice), j.slices[p]? = some x →
        (x.act = false → t.core (r * 8 + p) = s.core (r * 8 + p)) ∧
        (x.act = true → (∀ a, a ≠ x.acc → (t.core (r * 8 + p)).getAcc a = (s.core (r * 8 + p)).getAcc a) ∧ ∀ n, n < 256 → tileElem ((t.core (r * 8 + p)).getAcc x.acc) n =
          ((x.prep j.ac p (tileElem ((s.core (r * 8 + p)).getAcc x.acc) n)).add (p * 32 + 31)
            (x.dot j.fa j.fb j.ac p (n / 16) (n % 16))).bits)) ∧
      (j.deep = true → (∀ p, p < 7 → t.core (r * 8 + p) = s.core (r * 8 + p)) ∧
        ∀ x, j.slices[7]? = some x → (∀ a, a ≠ x.acc → (t.core (r * 8 + 7)).getAcc a = (s.core (r * 8 + 7)).getAcc a) ∧
          (t.core (r * 8 + 7)).getAcc x.acc = deepTile j.slices j.fa j.fb j.ac x ((s.core (r * 8 + 7)).getAcc x.acc)))

/-! ### The engines (15) -/

/-- 15 R262, R264 to R267, R270, R271: which engine-operand code refuses a copy and a convolution gather, in the order of R267 for a copy and with the operands of R271 first for a gather, and the work that an accepted one is.
The model's readings: R262's list is read in the order that R267 gives for a copy (codes 1, 2, 9, 6), and for a gather the operands' code 4 stands before the others (log 8, 48). -/
def Obligations.TransferChecks : Prop :=
  ∀ (s : State) (core : Nat) (m : FMap Word) (a b : Word),
    let c : Word := shadowAt m 2
    let size : Nat := 2 ^ (c.extractLsb' 8 2).toNat
    let mode : Nat := (c.extractLsb' 16 2).toNat
    let snd : Nat := (c.extractLsb' 0 3).toNat
    let dnd : Nat := (c.extractLsb' 4 3).toNat
    let unit : Nat := (c.extractLsb' 20 4).toNat
    let sd : List (Nat × Int) := shadowDims m 0x10 snd
    let dd : List (Nat × Int) := shadowDims m 0x18 dnd
    let shape : Prop := mode ≠ 3 ∧ 1 ≤ snd ∧ snd ≤ 6 ∧ (mode = 0 → 1 ≤ dnd ∧ dnd ≤ 6 ∧ patternCount sd = patternCount dd)
    let even (base : Word) (dims : List (Nat × Int)) : Prop := base.toNat % size = 0 ∧ ∀ d ∈ dims, d.2 % size = 0
    let steps : Prop := even (shadowAt m 0) sd ∧ (mode = 0 → even (shadowAt m 1) dd)
    let total : Prop := patternCount sd * size ≤ 2 ^ 32
    (¬shape → s.copyOf core m = .error (trapOf 13 1)) ∧
    (shape → ¬steps → s.copyOf core m = .error (trapOf 13 2)) ∧
    (shape → steps → ¬total → s.copyOf core m = .error (trapOf 13 9)) ∧
    (shape → steps → total → mode = 2 → s.ring core unit = none → s.copyOf core m = .error (trapOf 13 6)) ∧
    (shape → steps → total → mode = 0 → s.copyOf core m = .ok (.copy size (shadowAt m 0) (shadowAt m 1) sd dd)) ∧
    (shape → steps → total → mode = 1 → s.copyOf core m = .ok (.deal size (shadowAt m 0) sd (shadowAt m 4))) ∧
    (shape → steps → total → mode = 2 → (s.ring core unit).isSome = true →
      s.copyOf core m = .ok (.ring size (shadowAt m 0) sd unit)) ∧
    let v : Word := shadowAt m 5
    let dim (i : Nat) : Nat × Int := shadowDim (shadowAt m i)
    let fields : Prop := a.extractLsb' 32 32 = 0#32 ∧ b.extractLsb' 12 20 = 0#20 ∧ b.extractLsb' 40 8 = 0#8
    let some' : Prop := (dim 0x10).1 ≠ 0 ∧ v.extractLsb' 48 16 ≠ 0#16 ∧ v.extractLsb' 32 16 ≠ 0#16 ∧ v.extractLsb' 16 16 ≠ 0#16 ∧
      v.extractLsb' 0 8 ≠ 0#8
    let whole : Prop := even (shadowAt m 0) [dim 0x10, dim 0x11, dim 0x12] ∧ even (shadowAt m 1) [dim 0x18, dim 0x19]
    let run : Nat := (b.extractLsb' 0 12).toNat + 1
    let few : Prop := run * (dim 0x10).1 * size ≤ 2 ^ 32
    (¬fields → convOf m a b = .error (trapOf 13 4)) ∧
    (fields → ¬some' → convOf m a b = .error (trapOf 13 1)) ∧
    (fields → some' → ¬whole → convOf m a b = .error (trapOf 13 2)) ∧
    (fields → some' → whole → ¬few → convOf m a b = .error (trapOf 13 9)) ∧
    (fields → some' → whole → few → ∃ g, convOf m a b = .ok g ∧ g.w = size ∧ g.run = run ∧ g.q0 = a.toNat ∧
      g.g = (dim 0x10).1 ∧ g.kw = (b.extractLsb' 32 8).toNat ∧ g.group = (b.extractLsb' 48 16).toNat ∧
      ∀ j, j < run → ∀ e,
        let q : Nat := a.toNat + j
        let n : Nat := q / (v.extractLsb' 16 16).toNat
        let col : Int := (q % (v.extractLsb' 16 16).toNat * (v.extractLsb' 0 8).toNat : Nat) + (b.extractLsb' 32 8).toNat -
          (v.extractLsb' 8 8).toNat
        g.srcOf j e =
          if (v.extractLsb' 48 16).toNat ≤ n ∨ col < 0 ∨ ((v.extractLsb' 32 16).toNat : Int) ≤ col then none
          else some (shadowAt m 0 + BitVec.ofInt 64 ((n : Int) * (dim 0x12).2 + col * (dim 0x11).2 +
            (((b.extractLsb' 48 16).toNat * (dim 0x10).1 + e : Nat) : Int) * (dim 0x10).2)))

/-- 15 R260, R262, R263, R267, R271, R272, R278, 10 R196, 16 R288, R296: cpw and cprd write and read a shadow register; every
instruction that starts a transfer checks its operands on the state at issue; then it is a request in a deterministic
launch, waits for a slot and for room in the scheduler, or starts the transfer in the lowest free slot and answers its identifier.
The model's readings: a transfer of a deterministic launch completes as a request whatever the scheduler's limit on operations (log 48). -/
def Obligations.TransferForms : Prop :=
  ∀ (s : State), Calm s →
    let w : StrandId := s.cur
    let t : Strand := s.strand w
    let launch (u : State) (i : Instr) (x : Issue) (d : BitVec 4) (r : Except Trap (Nat × Work × Note)) : Prop :=
      (∀ y, r = .error y → Traps s i y) ∧
      ∀ short work note, r = .ok (short, work, note) →
        let check (c : Nat) : Except Trap Unit := u.berthCheck w.core c (u.writesOf w.core work)
        (∀ c y, work.berthClass = some c → check c = .error y → Traps s i y) ∧
        ((∀ c, work.berthClass = some c → check c = .ok ()) →
          (t.det = true → s.coreDet w.core = true →
            Does s i x (u.collect w [d] (.transfer d short (u.newTransfer w work note)))) ∧
          (t.det = false → s.coreDet w.core = false →
            ((s.core w.core).freeSlot = none → Waits s i .transferSlot) ∧
            ∀ slot, (s.core w.core).freeSlot = some slot →
              (1024 ≤ (s.crewOps w.core).length → Waits s i .scheduler) ∧
              ((s.crewOps w.core).length < 1024 →
                let g : State × Word := u.startIn w.core slot (u.newTransfer w work note)
                Answers s g.1 i x d (g.2 ||| BitVec.ofNat 64 (short * 2 ^ 32)))))
    (∀ o : Cpw, Does s (.cpw o) (plain o.sc [.s o.a])
      (s.onStrand w fun t => { t with shadow := shadowPut t.shadow o.idx.toNat (s.rs o.a) })) ∧
    (∀ o : Cpr, (o.idx ≠ 0x3F → GivesS s (.cprd o) (plain o.sc []) o.d (shadowAt t.shadow o.idx.toNat)) ∧
      (o.idx = 0x3F → launch s (.cprd o) (plain o.sc []) o.d (s.copyLaunch w t.shadow))) ∧
    (∀ o : R3,
      let x : Issue := plain o.sc [.s o.a, .s o.b]
      let m : FMap Word := shadowPut (shadowPut t.shadow 0 (s.rs o.a)) 1 (s.rs o.b)
      launch (s.onStrand w fun t => { t with shadow := m }) (.cpgo o) x o.d (s.copyLaunch w m) ∧
      launch s (.cpconv o) x o.d (s.convLaunch w (s.rs o.a) (s.rs o.b)) ∧
      launch s (.bget o) x o.d (s.blockOf w (s.rs o.a) (s.rs o.b)) ∧
      launch s (.gget o) x o.d (s.gatherOf w false (s.rs o.a) (s.rs o.b)) ∧
      launch s (.gput o) x o.d (s.gatherOf w true (s.rs o.a) (s.rs o.b))) ∧
    (∀ o : R2,
      launch s (.card o) (plain o.sc [.s o.a]) o.d (s.cardOf w [0, 1, 2] (s.rs o.a)) ∧
      launch s (.dredge o) (plain o.sc [.s o.a]) o.d (s.cardOf w [3] (s.rs o.a))) ∧
    (∀ (m : FMap Word) i v,
      shadowAt (shadowPut m i v) i = v &&& shadowMask i ∧ ∀ j, j ≠ i → shadowAt (shadowPut m i v) j = shadowAt m j) ∧
    (∀ (u : State) core slot tr, tr.work.empty = false → u.dealFault core tr.work = none →
      let gen : BitVec 8 := FMap.getD (u.core core).gens slot 0 + 1
      let g : State × Word := u.startIn core slot tr
      (slot < 64 → core < 65536 → g.2 = BitVec.ofNat 64 (core * 65536 + gen.toNat * 256 + slot)) ∧ g.1.mem = u.mem ∧
      (∃ t1, FMap.find (g.1.core core).slots slot = some t1 ∧ t1.work = tr.work ∧ t1.note = tr.note ∧ t1.next = tr.next ∧
        t1.failed = none) ∧
      (∀ k, k ≠ slot → FMap.find (g.1.core core).slots k = FMap.find (u.core core).slots k) ∧ ∀ v, g.1.strand v = u.strand v)

/-- 15 R273, R274, R280, 14 R257, 22 R378: bind ties a vector register to a stream of the core and unbind releases it and answers the steps used, a write stream only once its
steps are performed and the writes to peers of the strand that bound it acknowledged; ctwait answers once the counter has reached the value, and waits or parks before; ctrd answers it.
The model's readings: in a deterministic launch the scheduler's limit is judged as a bind is served (log 48); an unbind waits for every posted peer write of the strand that bound the stream, and releases nothing behind a failed
step (log 47); a ctwait has issued and parks there (log 54). -/
def Obligations.StreamForms : Prop :=
  ∀ (s : State), Settled s →
    let w : StrandId := s.cur
    let t : Strand := s.strand w
    let c : Machine.Core := s.core w.core
    let plainLaunch : Prop := t.det = false ∧ s.coreDet w.core = false
    let det : Prop := t.det = true ∧ s.coreDet w.core = true
    (∀ o : Bnd, s.owns w o.v = true →
      let x : Issue := ⟨o.sc, [.s o.a], [], none, false, [(o.v, false)], wholly⟩
      let r : Except Trap RegStream := s.streamFrom w o.v o.k.toNat (s.rs o.a)
      (∀ y, r = .error y → Traps s (.bind o) y) ∧
      (∀ b, r = .ok b →
        (30 ≤ o.v.toNat ∨ (c.streamOf o.v).isSome = true → False) ∧
        (∀ y, s.berthCheck w.core 4 (s.streamOp w.core b).writes = .error y → Traps s (.bind o) y) ∧
        (s.berthCheck w.core 4 (s.streamOp w.core b).writes = .ok () →
          (det → Does s (.bind o) x (s.collect w [] (.bind o.k.toNat b))) ∧
          (plainLaunch → 1024 ≤ (s.crewOps w.core).length → Waits s (.bind o) .scheduler) ∧
          (plainLaunch → (s.crewOps w.core).length < 1024 →
            let u : State := (s.arrive w.core).1
            Does s (.bind o) x (u.setCore w.core ((u.core w.core).putStream o.k.toNat (some { b with order := (s.arrive w.core).2 }))))))) ∧
    (∀ o : Unb,
      let x : Issue := plain o.sc []
      (c.streams[o.k.toNat]'o.k.isLt = none → Traps s (.unbind o) (trapOf 13 7)) ∧
      (∀ r, c.streams[o.k.toNat]'o.k.isLt = some r →
        (det → Does s (.unbind o) x (s.collect w [o.d] (.unbind o.d o.k.toNat))) ∧
        (plainLaunch → r.write = true → (r.buf ≠ [] ∨ ∃ p ∈ s.posted, p.who = ⟨w.core, r.owner⟩) → Waits s (.unbind o) (.streamDrain o.k.toNat)) ∧
        (plainLaunch → (r.write = false ∨ (r.buf = [] ∧ ∀ p ∈ s.posted, p.who ≠ ⟨w.core, r.owner⟩)) →
          let freed : State := s.setCore w.core (c.putStream o.k.toNat none)
          let done : State := if r.bad = none then freed.writeBack (clusterOf w.core) else freed
          let u : State := if r.write then done.dropClean (clusterOf w.core) else freed
          Answers s u (.unbind o) x o.d (BitVec.ofNat 64 r.taken)))) ∧
    (∀ o : Ctw,
      let v : Word := c.counters[o.n.toNat]'o.n.isLt
      let reached : Prop := (v.setWidth 32 - (s.rs o.a).setWidth 32 : BitVec 32).toNat < 2 ^ 31
      (reached → plainLaunch → Answers s (s.acquire w.core 5) (.ctwait o) (plain o.sc [.s o.a]) o.d v) ∧
      (reached → det → Answers s s (.ctwait o) (plain o.sc [.s o.a]) o.d v) ∧
      (¬reached → plainLaunch → Waits s (.ctwait o) (.counter o.n (s.rs o.a))) ∧
      (¬reached → det → Does s (.ctwait o) (plain o.sc [.s o.a]) (s.stay w (.parked (.counter o.n (s.rs o.a) o.d))))) ∧
    (∀ o : Ctr,
      let v : Word := c.counters[o.n.toNat]'o.n.isLt
      (plainLaunch → Answers s (s.acquire w.core 5) (.ctrd o) (plain o.sc []) o.d v) ∧
      (det → Answers s s (.ctrd o) (plain o.sc []) o.d v))

/-- 15 R275: vector instructions and streams: a write to a register tied for reading is an engine-operand fault; a read of one whose stream has no step waits; otherwise the
source's value is the step, which the stream has taken, and zero once every step has been taken or from a step that failed on; a delivered write of a register tied for writing emits the whole
register as the next step, behind a step that failed the step is discarded, and beyond the count it emits nothing. The model's readings: an instruction with no active element writes nothing and emits no step (log 101);
what is emitted behind a failed step is discarded (log 47). -/
def Obligations.StreamRegisters : Prop :=
  (∀ (s : State) (v : BitVec 5) (vdst : Option (BitVec 5)) (sc : BitVec 2) (body : State → Nat → Res), Settled s →
    let w : StrandId := s.cur
    let c : Machine.Core := s.core w.core
    let x : Issue := ⟨sc, [], [(v, false)], vdst, false, [], wholly⟩
    Owned s (vdst.toList ++ [v]) →
      (∀ d k r, vdst = some d → c.streamOf d = some (k, r) → r.write = false → s.issue x body = .next (s.takeTrap w (trapOf 13 7))) ∧
      (∀ k r, vdst.bind c.streamOf = none → c.streamOf v = some (k, r) → r.write = false →
        (r.buf = [] → r.taken < r.count → r.bad = none → s.issue x body = .next (s.stay w (.retry (.streamStep k)))) ∧
        (∀ step rest, r.taken < r.count → r.buf = step :: rest →
          let u : State := s.setCore w.core (c.putStream k (some { r with now := step, buf := rest, taken := r.taken + 1, took := ([step], 1) }))
          u.readV w.core v = step ∧
          ∀ u1, body u (s.issueSlot x) = .done u1 → s.issue x body = .next (s.retire u1 x)) ∧
        (r.count ≤ r.taken →
          let u : State := s.setCore w.core (c.putStream k (some { r with now := 0, took := ([], 0) }))
          u.readV w.core v = 0 ∧
          ∀ u1, body u (s.issueSlot x) = .done u1 → s.issue x body = .next (s.retire u1 x)) ∧
        (∀ bad, r.taken < r.count → r.buf = [] → r.bad = some bad → bad ≤ r.taken →
          let u : State := s.setCore w.core (c.putStream k (some { r with now := 0, taken := r.taken + 1, took := ([], 1) }))
          u.readV w.core v = 0 ∧
          ∀ u1, body u (s.issueSlot x) = .done u1 → s.issue x body = .next (s.retire u1 x)))) ∧
  (∀ (s : State) (w : StrandId) (n : BitVec 5) (v mask : VReg) k r,
    let c : Machine.Core := s.core w.core
    let c1 : Machine.Core := { c.putV n (blend (c.getV n) v mask) with
      fails := c.fails.filter fun e => !(decide (32 * n.toNat ≤ e.1) && decide (e.1 < 32 * n.toNat + 32) &&
        mask.extractLsb' (64 * (e.1 - 32 * n.toNat)) 64 == BitVec.allOnes 64) }
    (mask = 0 → s.putReg w (.v n) v mask = s.setCore w.core c) ∧
    (c.streamOf n = some (k, r) → r.write = true → mask ≠ 0 →
      (r.taken < r.count → s.putReg w (.v n) v mask =
        s.setCore w.core (c1.putStream k (some { r with taken := r.taken + 1, buf := if r.bad.isSome then r.buf else r.buf ++ [c1.getV n] }))) ∧
      (r.count ≤ r.taken → s.putReg w (.v n) v mask = s.setCore w.core c1)))

/-- 13 R235, R236, 15 R276: cbinit sets a unit to an empty ring and answers its prior state; a reserve answers the address of the next
slot and a take that of the oldest filled one, when there is one, and otherwise the strand waits; a commit and a release take a slot's address and trap on any other;
each step of a slot keeps the sum of the slots free, reserved, filled and taken. -/
def Obligations.RingForms : Prop :=
  ∀ (s : State), Settled s →
    let w : StrandId := s.cur
    let t : Strand := s.strand w
    let c : Machine.Core := s.core w.core
    let plainLaunch : Prop := t.det = false
    (∀ o : R3,
      let u : Nat := (s.rs o.a).toNat
      let b : Word := s.rs o.b
      let cnt : Nat := (b.extractLsb' 22 8).toNat
      let ssz : Nat := (b.extractLsb' 16 6).toNat
      let base : Nat := (b.extractLsb' 0 14).toNat
      let old : Option Ring := FMap.find (s.cluster (clusterOf w.core)).rings u
      let fields : Prop := u < 16 ∧ b.extractLsb' 14 2 = 0#2 ∧ b.extractLsb' 30 34 = 0#34
      let granted : Prop := (∀ r, old = some r → c.crew = some r.crew) ∧ ringFits c cnt ssz base = true
      (¬fields → Traps s (.cbinit o) (trapOf 13 4)) ∧ (fields → ¬granted → Traps s (.cbinit o) (trapOf 13 6)) ∧
      (fields → granted → ∃ q : Ring, q.free = cnt + 1 ∧ q.filled = 0 ∧ q.head = 0 ∧ q.tail = 0 ∧ q.cnt = cnt ∧ q.ssz = ssz ∧
        q.base = base ∧ q.reserved = 0 ∧ q.taken = 0 ∧ q.crew = c.crew.getD 0 ∧
        Answers s (s.putRing w.core u q) (.cbinit o) (plain o.sc [.s o.a, .s o.b]) o.d ((old.map Ring.word).getD 0))) ∧
    (∀ o : R2,
      let u : Nat := (s.rs o.a).toNat
      let x : Issue := plain o.sc [.s o.a]
      (16 ≤ u → Traps s (.cbpush o) (trapOf 13 4) ∧ Traps s (.cbpop o) (trapOf 13 4)) ∧
      (u < 16 → s.ring w.core u = none → Traps s (.cbpush o) (trapOf 13 6) ∧ Traps s (.cbpop o) (trapOf 13 6)) ∧
      ∀ r, u < 16 → s.ring w.core u = some r →
        (plainLaunch → r.free = 0 → Waits s (.cbpush o) (.ringReserve u)) ∧
        (plainLaunch → r.free ≠ 0 → ∃ q, Answers s (s.putRing w.core u q) (.cbpush o) x o.d (r.slotAddr c r.tail) ∧
          q = { r with free := r.free - 1, tail := (r.tail + 1) % (r.cnt + 1), reserved := r.reserved + 1 }) ∧
        (plainLaunch → r.filled = 0 → Waits s (.cbpop o) (.ringTake u)) ∧
        (plainLaunch → r.filled ≠ 0 → ∃ q, Answers s (s.putRing w.core u q) (.cbpop o) x o.d (r.slotAddr c r.head) ∧
          q = { r with filled := r.filled - 1, head := (r.head + 1) % (r.cnt + 1), taken := r.taken + 1 }) ∧
        (t.det = true →
          Does s (.cbpush o) x ((s.collect w [o.d] (.push o.d u)).stay w (.parked (.served (s.nextRequest w.core)))) ∧
          Does s (.cbpop o) x ((s.collect w [o.d] (.pop o.d u)).stay w (.parked (.served (s.nextRequest w.core)))))) ∧
    (∀ o : RAB,
      let u : Nat := (s.rs o.a).toNat
      let x : Issue := plain o.sc [.s o.a, .s o.b]
      (16 ≤ u → Traps s (.cbpushDone o) (trapOf 13 4) ∧ Traps s (.cbpopDone o) (trapOf 13 4)) ∧
      (u < 16 → s.ring w.core u = none → Traps s (.cbpushDone o) (trapOf 13 6) ∧ Traps s (.cbpopDone o) (trapOf 13 6)) ∧
      ∀ r, u < 16 → s.ring w.core u = some r →
        (s.slotOf w.core r (s.rs o.b) = none → Traps s (.cbpushDone o) (trapOf 13 6) ∧ Traps s (.cbpopDone o) (trapOf 13 6)) ∧
        ∀ k, s.slotOf w.core r (s.rs o.b) = some k →
          (r.isReserved k = false → Traps s (.cbpushDone o) (trapOf 13 6)) ∧
          (r.isTaken k = false → Traps s (.cbpopDone o) (trapOf 13 6)) ∧
          (plainLaunch → r.isReserved k = true → Does s (.cbpushDone o) x (s.putRing w.core u (r.commit k))) ∧
          (plainLaunch → r.isTaken k = true → Does s (.cbpopDone o) x (s.putRing w.core u (r.release k))) ∧
          (t.det = true → r.isReserved k = true → Does s (.cbpushDone o) x (s.collect w [] (.commit u k))) ∧
          (t.det = true → r.isTaken k = true → Does s (.cbpopDone o) x (s.collect w [] (.release u k)))) ∧
    (∀ (r : Ring) k,
      let sum (q : Ring) : Nat := q.free + q.reserved + q.filled + q.taken
      (∀ q n, r.reserve = some (q, n) → sum q = sum r) ∧ (∀ q n, r.take = some (q, n) → sum q = sum r) ∧
      sum (r.commit k) = sum r ∧ sum (r.release k) = sum r)

/-- 15 R261, R268, R269, R275, 14 R255: a transfer whose footprint an earlier operation of the crew holds back does not act; one with nothing to notify that has come to its
end frees its slot; a count of a completion adds to its counter's field of completions, and of a fault to both fields; a plain copy moves an element from its source (or from the source granule
that an earlier element read with it, 14 R241) to its destination address, faults at the address that an engine may not use, and waits for a page on the host's side; a stream's read step buffers the next doublewords, the first of them behind the discard of the cluster's clean lines (14 R255). A ring copy reserves a slot at the slot's first byte and waits while the ring is full; behind a slot's last byte, or its own last element with zeros
in what is left of the slot, it commits the slot (R269). In a deterministic launch these events do nothing: transfers run as
their requests are served at quantum ends, and the streams of a core come as far as they can before each issue there. The model's readings: those two (log 47, 48), and that a granule which later elements read is read
once, with the first of them (log 48). -/
def Obligations.EngineEvents : Prop :=
  ∀ (s : State) (core slot : Nat),
    (s.coreDet core = true → exec (.transferCompletion core slot) s = .next s ∧ exec (.copyRingReserve core slot) s = .next s ∧
      exec (.streamFill core slot) s = .next s) ∧
    (s.coreDet core = false →
      exec (.transferCompletion core slot) s = .next (s.runTransfer core slot).1 ∧
      exec (.copyRingReserve core slot) s = .next (s.copyReserve core slot) ∧
      exec (.streamFill core slot) s = .next (s.streamStep core slot).1) ∧
    (FMap.find (s.core core).slots slot = none → (s.runTransfer core slot).1 = s ∧ s.copyReserve core slot = s) ∧
    (∀ t, FMap.find (s.core core).slots slot = some t → t.work.empty = false → s.heldBack core (s.transferOp core t) = true →
      (s.runTransfer core slot).1 = s) ∧
    (∀ t n src dst sd dd, t.work = .copy n src dst sd dd →
      let from' : Word := src + BitVec.ofInt 64 (patternOff sd t.next)
      let to' : Word := dst + BitVec.ofInt 64 (patternOff dd t.next)
      let moves (u : State) (v : Nat) : Prop :=
        (∀ cls code, u.engineLook t.who.core t.view .write to' = .fail cls code →
          s.element t = .error (some (cls, code, to'))) ∧
        (u.engineLook t.who.core t.view .write to' = .waits → s.element t = .error none) ∧
        ∀ l', u.engineLook t.who.core t.view .write to' = .at l' → ∃ t1,
          s.element t = .ok ((u.enginePut t.who.core l' v n).post t.who l', t1) ∧
          t1.next = t.next + 1 ∧ t1.work = t.work ∧ t1.failed = t.failed
      let ahead : Option Nat := t.ahead.lookup (.va (from' &&& ~~~(7 : Word)))
      (∀ v, ahead = some v → n ≤ 8 → moves s (v / 256 ^ (from'.toNat % 8) % 256 ^ n)) ∧
      (ahead = none →
        (∀ cls code, s.engineLook t.who.core t.view .read from' = .fail cls code →
          s.element t = .error (some (cls, code, from'))) ∧
        (s.engineLook t.who.core t.view .read from' = .waits → s.element t = .error none) ∧
        (∀ l, s.engineLook t.who.core t.view .read from' = .at l →
          (∀ code, s.engineMeets t.who.core l n = some code → s.element t = .error (some (0, code, from'))) ∧
          (s.engineMeets t.who.core l n = none →
            moves (s.engineRead t.who.core l n) ((s.engineRead t.who.core l n).engineNat t.who.core l n))))) ∧
    (∀ t w src sd u r, t.work = .ring w src sd u → w = 1 ∨ w = 2 ∨ w = 4 ∨ w = 8 → t.who.core = core →
      FMap.find (s.cluster (clusterOf core)).rings u = some r →
      let p : Nat := t.next * w % r.slotBytes
      let from' : Spot := .va (src + BitVec.ofInt 64 (patternOff sd t.next))
      (t.slot = none → p = 0 → r.free = 0 → s.element t = .error none ∧
        (FMap.find (s.core core).slots slot = some t → t.next < t.work.count → t.failed = none →
          s.heldBack core (s.transferOp core t) = false →
          s.copyReserve core slot = s.putSlot core slot t ∧ (s.runTransfer core slot).1 = s.putSlot core slot t)) ∧
      (t.slot = none → p = 0 → r.free ≠ 0 →
        let r1 : Ring := { r with free := r.free - 1, tail := (r.tail + 1) % (r.cnt + 1), reserved := r.reserved + 1 }
        s.element t = (s.putRing core u r1).element { t with slot := some r.tail }) ∧
      (∀ n, t.slot = some n →
        (∀ e, s.readFor t w from' = .error e → s.element t = .error e) ∧
        (∀ u1 v, s.readFor t w from' = .ok (u1, v) →
          let put (m : Nat) : State := (List.range m).foldl (fun q k =>
            q.engineWrite core (.pad (clusterOf core) (r.slotAt n)) (p + k) (if k < w then BitVec.ofNat 8 (v / 256 ^ k) else 0)) u1
          (p + w < r.slotBytes → t.next + 1 < t.work.count →
            s.element t = .ok (put w, { t with next := t.next + 1, slot := some n })) ∧
          (p + w = r.slotBytes ∨ t.next + 1 = t.work.count →
            s.element t = .ok ((put (r.slotBytes - p)).putRing core u (r.commit n), { t with next := t.next + 1, slot := none }))))) ∧
    (∀ t, let u : State := s.complete core slot t
      t.note = ⟨none, none, none, none⟩ → t.failed = none →
        FMap.find (u.core core).slots slot = none ∧ ∀ k, k ≠ slot → FMap.find (u.core core).slots k = FMap.find (s.core core).slots k) ∧
    (∀ (c : Machine.Core) n (h : n < 16) faulted,
      let v : Word := c.counters[n]
      let v' : Word := (c.count n faulted).counters[n]
      v'.extractLsb' 0 32 = v.extractLsb' 0 32 + 1 ∧
      v'.extractLsb' 32 16 = v.extractLsb' 32 16 + (if faulted then 1 else 0) ∧ v'.extractLsb' 48 16 = v.extractLsb' 48 16 ∧
      ∀ k (h' : k < 16), k ≠ n → (c.count n faulted).counters[k] = c.counters[k]) ∧
    (∀ k r u v, (s.core core).streams[k]?.join = some r → r.open = true → s.heldBack core (s.streamOp core r) = false →
      r.write = false → r.buf.length < 4 →
      let first : Prop := r.performed = 0 ∧ s.coreDet core = false
      (if first then s.dropClean (clusterOf core) else s).stepRead ⟨core, r.owner⟩ (s.coreDet core) r.view (offAddr r.base (patternOff r.dims r.performed)) 32 = .ok (u, v) →
      (s.streamStep core k).1 = u.setCore core ((u.core core).putStream k
        (some { r with buf := r.buf ++ [BitVec.ofNat 2048 v], performed := r.performed + 1 })))

/-! ### Messages, tasks and strands (10) -/

/-- 10 R180, R183, R185, R190, R192, 16 R288: msend checks its operands and sends the message of the image, with the sender's core and context in it and
the bytes past len zero, into the outbound queue behind a release, or as a request in a deterministic launch; margs reads a word of the message register; mlane takes the oldest
message of a lane that is not stale into a buffer with an acquire; mdead takes the oldest dead-letter entry. -/
def Obligations.MessageForms : Prop :=
  ∀ (s : State), Settled s →
    let w : StrandId := s.cur
    let t : Strand := s.strand w
    (∀ o : RAB,
      let x : Issue := plain o.sc [.s o.a, .s o.b]
      let d : Word := s.rs o.a
      (descOk d = false → Traps s (.msend o) (trapOf 11 1)) ∧
      (descOk d = true → s.ownBuffer w.core (s.rs o.b) 64 64 = none → Traps s (.msend o) (trapOf 11 4)) ∧
      ∀ l, descOk d = true → s.ownBuffer w.core (s.rs o.b) 64 64 = some l →
        let hdr : Word := BitVec.ofNat 64 (s.viewNat w l 8)
        (templateOk true hdr = false → Traps s (.msend o) (trapOf 11 2)) ∧
        (templateOk true hdr = true → s.inReach w.core d = false → Traps s (.msend o) (trapOf 11 3)) ∧
        (templateOk true hdr = true → s.inReach w.core d = true →
          let m : Message := s.imageMessage w d l
          (t.det = true → Does s (.msend o) x (s.collect w [] (.send m))) ∧
          (t.det = false → 8 ≤ (s.core w.core).outbound.length → Waits s (.msend o) .outbound) ∧
          (t.det = false → s.coreDet w.core = false → (s.core w.core).outbound.length < 8 →
            let u : State := s.release w.core (if m.toDev.isSome then 4 else scopeBetween w.core (s.relocate m.crew m.dest))
            Does s (.msend o) x (u.onCore w.core fun c => { c with outbound := c.outbound ++ [m] })))) ∧
    (∀ (hdr : Word) (args : List Byte), w.ctx < 16 → w.core < 65536 → args.length = 56 →
      let b : MsgBits := messageBits w hdr args
      let len : Nat := (hdr.extractLsb' 38 6).toNat
      (b.extractLsb' 48 16).toNat = w.core ∧ (b.extractLsb' 44 4).toNat = w.ctx ∧ b.extractLsb' 28 8 = 0#8 ∧
      b.extractLsb' 0 28 = hdr.extractLsb' 0 28 ∧ b.extractLsb' 36 8 = hdr.extractLsb' 36 8 ∧
      ∀ k, k < 56 → b.extractLsb' (64 + 8 * k) 8 = if k < len then args.getD k 0 else 0) ∧
    (∀ o : Mrg, Answers s s (.margs o) (plain o.sc []) o.d (t.msg.extractLsb' (if o.k = 7 then 0 else 64 * (1 + o.k.toNat)) 64)) ∧
    (∀ o : R3,
      let p : Nat := (s.rs o.a).toNat
      let x : Issue := plain o.sc [.s o.a, .s o.b]
      (4 ≤ p → Traps s (.mlane o) (trapOf 11 5)) ∧
      (p < 4 → s.ownBuffer w.core (s.rs o.b) 64 64 = none → Traps s (.mlane o) (trapOf 11 4)) ∧
      ∀ l, p < 4 → s.ownBuffer w.core (s.rs o.b) 64 64 = some l →
        let u : State := s.dropStale w.core p 16
        ((u.core w.core).lane p = [] → Answers s u (.mlane o) x o.d 0) ∧
        ∀ m rest, (u.core w.core).lane p = m :: rest →
          (∀ y, u.writeRefused w l (s.rs o.b) = some y → Traps s (.mlane o) y) ∧
          (u.writeRefused w l (s.rs o.b) = none → Answers s
            (((u.setCore w.core ((u.core w.core).setLane p rest)).acquireFor w.core m).writeMessage w l m.bits) (.mlane o) x o.d 1)) ∧
    (∀ o : R2,
      let x : Issue := plain o.sc [.s o.a]
      let c : Machine.Core := s.core w.core
      (s.ownBuffer w.core (s.rs o.a) 64 64 = none → Traps s (.mdead o) (trapOf 11 4)) ∧
      ∀ l, s.ownBuffer w.core (s.rs o.a) 64 64 = some l →
        (c.dead = [] → Answers s s (.mdead o) x o.d (c.diverted ++ 0#32)) ∧
        ∀ e rest, c.dead = e :: rest →
          (∀ y, s.writeRefused w l (s.rs o.a) = some y → Traps s (.mdead o) y) ∧
          (s.writeRefused w l (s.rs o.a) = none →
            Answers s ((s.setCore w.core { c with dead := rest }).writeMessage w l e.bits) (.mdead o) x o.d
              (c.diverted ++ e.reason ++ e.gen ++ e.core ++ e.ctx)))

/-- 10 R193 to R195, R197, R198: dcset arms a counter of the crew with a task, or releases it at once for a count of 0; dcdec counts it down and releases the
task at 0, setting under below it, with a release at the scope of the crew outside a deterministic launch; dcrd reads it; mtab and mtabDis arm and disarm a matching entry; ferryocc reads the occupancy of a core's lanes; ferrymig moves the newest
messages that may move, at system level only.
The model's readings: ferryocc judges code 3 before code 5 (log 59); a disarming mtab whose s[b] is not zero is code 5 (log 60); mtab's order of checks is 5, the task's codes, 9 (log 85); a decrement releases at die
scope (log 72). -/
def Obligations.DependenceForms : Prop :=
  ∀ (s : State), Settled s →
    let w : StrandId := s.cur
    let t : Strand := s.strand w
    let n (x : Issue) : Nat := s.issueSlot x
    (∀ o : R3,
      let a : Word := s.rs o.a
      let x : Issue := plain o.sc [.s o.a, .s o.b]
      let task : Except Nat Task := s.taskCheck w (s.rs o.b)
      (a.extractLsb' 8 24 ≠ 0#24 → Traps s (.dcset o) (trapOf 11 5)) ∧
      (∀ c, a.extractLsb' 8 24 = 0#24 → task = .error c → Traps s (.dcset o) (trapOf 11 c)) ∧
      (∀ k, a.extractLsb' 8 24 = 0#24 → task = .ok k →
        let i : Nat := a.toNat % 256
        let count : Nat := (a.extractLsb' 32 32).toNat
        (t.det = true → Does s (.dcset o) x (s.collect w [o.d] (.depSet o.d i count k))) ∧
        (t.det = false → ∀ crew, (s.core w.core).crew = some crew →
          let prior : Word := match FMap.find s.crews crew with | some c => (c.dep i).word | none => 0
          Does s (.dcset o) x ((s.resultS w .variable (n x) o.d prior).armCounter crew i count k))) ∧
      (a.extractLsb' 6 10 ≠ 0#10 → Traps s (.mtab o) (trapOf 11 5)) ∧
      (∀ c, a.extractLsb' 6 10 = 0#10 → task = .error c → Traps s (.mtab o) (trapOf 11 c)) ∧
      (∀ k, a.extractLsb' 6 10 = 0#10 → task = .ok k →
        let i : Nat := a.toNat % 64
        let target : Nat := (a.extractLsb' 32 32).toNat
        (s.foreignEntry w.core i = true → Traps s (.mtab o) (trapOf 11 9)) ∧
        (s.foreignEntry w.core i = false → t.det = true →
          Does s (.mtab o) x (s.collect w [o.d] (.matchSet o.d i (a.extractLsb' 16 16) target k))) ∧
        (s.foreignEntry w.core i = false → t.det = false →
          let u : State := s.resultS w .variable (n x) o.d (s.wasArmed w.core i)
          let c : Cluster := u.cluster (clusterOf w.core)
          Does s (.mtab o) x (u.setCluster (clusterOf w.core) { c with
            matching := FMap.put c.matching i ⟨(s.core w.core).crew.getD 0, a.extractLsb' 16 16, target, 0, k⟩ }))) ∧
      ((a.extractLsb' 6 10 ≠ 0#10 ∨ s.rs o.b ≠ 0) → Traps s (.mtabDis o) (trapOf 11 5)) ∧
      (a.extractLsb' 6 10 = 0#10 → s.rs o.b = 0 →
        let i : Nat := a.toNat % 64
        (s.foreignEntry w.core i = true → Traps s (.mtabDis o) (trapOf 11 9)) ∧
        (s.foreignEntry w.core i = false → t.det = true → Does s (.mtabDis o) x (s.collect w [o.d] (.matchOff o.d i))) ∧
        (s.foreignEntry w.core i = false → t.det = false →
          let u : State := s.resultS w .variable (n x) o.d (s.wasArmed w.core i)
          let c : Cluster := u.cluster (clusterOf w.core)
          Does s (.mtabDis o) x (u.setCluster (clusterOf w.core) { c with matching := FMap.del c.matching i })))) ∧
    (∀ o : RAB,
      let i : Nat := (s.rs o.a).toNat
      let m : Nat := (s.rs o.b).toNat
      let x : Issue := plain o.sc [.s o.a, .s o.b]
      ((256 ≤ i ∨ 2 ^ 32 ≤ m) → Traps s (.dcdec o) (trapOf 11 5)) ∧
      (i < 256 → m < 2 ^ 32 →
        (t.det = true → Does s (.dcdec o) x (s.collect w [] (.depDec i m))) ∧
        (t.det = false → ∀ crew, (s.core w.core).crew = some crew → Does s (.dcdec o) x
          ((if m = 0 ∨ s.coreDet w.core = true then s else s.release w.core 2).decrement crew i m)))) ∧
    (∀ o : R2,
      let i : Nat := (s.rs o.a).toNat
      let x : Issue := plain o.sc [.s o.a]
      let d : Dep := s.depOf w.core i
      (256 ≤ i → Traps s (.dcrd o) (trapOf 11 5) ∧ Traps s (.dcrdClr o) (trapOf 11 5)) ∧
      (i < 256 → Answers s s (.dcrd o) x o.d d.word ∧
        Answers s (s.onCrew w.core fun c => { c with deps := FMap.put c.deps i { d with under := false } }) (.dcrdClr o) x o.d d.word) ∧
      let c : Nat := s.relocate (s.core w.core).crew (i % 65536)
      (s.inCrew w.core c = false → Traps s (.ferryocc o) (trapOf 11 3)) ∧
      (s.inCrew w.core c = true → 65536 ≤ i → Traps s (.ferryocc o) (trapOf 11 5)) ∧
      (s.inCrew w.core c = true → i < 65536 →
        let lane (p : Nat) : Nat := ((s.core c).lane p).length
        let free : Nat := ((List.range 10).filter fun k => !(s.strand ⟨c, k + 1⟩).live).length
        Answers s s (.ferryocc o) x o.d
          (BitVec.ofNat 64 (lane 0 + lane 1 * 2 ^ 8 + lane 2 * 2 ^ 16 + lane 3 * 2 ^ 24 + free * 2 ^ 32)))) ∧
    (∀ o : RAB, (t.pl = 0 → Traps s (.ferrymig o) (trapOf 2 0)) ∧
      (t.pl ≠ 0 →
        let src : Nat := (s.rs o.a).toNat % 65536
        let dst : Nat := (s.rs o.b).toNat % 65536
        let count : Nat := ((s.rs o.b).extractLsb' 16 5).toNat
        let cores : Prop := (s.core src).crew ≠ none ∧ (s.core src).crew = (s.core dst).crew ∧ dieOf src = dieOf w.core
        let fields : Prop := (s.rs o.a).toNat < 65536 ∧ (s.rs o.b).extractLsb' 21 3 = 0#3 ∧ (s.rs o.b).extractLsb' 26 38 = 0#38 ∧
          1 ≤ count ∧ count ≤ 16
        (¬cores → Traps s (.ferrymig o) (trapOf 11 3)) ∧
        (cores → ¬fields → Traps s (.ferrymig o) (trapOf 11 5)) ∧
        (cores → fields → t.det = true → Traps s (.ferrymig o) (trapOf 11 10)) ∧
        (t.det = false → cores → fields → Does s (.ferrymig o) (plain o.sc [.s o.a, .s o.b])
          (s.migrate src dst ((s.rs o.b).extractLsb' 24 2).toNat count)))) ∧
    (∀ crew c i m, FMap.find s.crews crew = some c →
      let d : Dep := c.dep i
      let put (e : Dep) : State := s.setCrew crew { c with deps := FMap.put c.deps i e }
      (m = 0 → s.decrement crew i m = s) ∧
      (m ≠ 0 → d.task = none → s.decrement crew i m = put { d with under := true }) ∧
      (∀ k, d.task = some k → m ≠ 0 → m < d.count → s.decrement crew i m = put { d with count := d.count - m }) ∧
      (∀ k, d.task = some k → m ≠ 0 → d.count ≤ m →
        s.decrement crew i m = (put ⟨none, 0, d.under || decide (d.count < m)⟩).releaseTask k) ∧
      (∀ k, m ≠ 0 → s.armCounter crew i m k = put ⟨some k, m, false⟩) ∧
      (∀ k, m = 0 → s.armCounter crew i m k = (put ⟨none, 0, false⟩).releaseTask k))

/-- 02 R33, 09 R177 to R179, 10 R199, 15 R274, R281: hstart starts a helper at an entry or answers 0; hend ends the strand, once its write streams are drained, which a deterministic launch does as it issues; prio answers the class and sets
it; yield lets the others go first; raft waits for every named strand and answers the rank; split dissolves it; raft.any and raft.all combine the values; nop changes nothing.
In a raft each member of a vote holds the value of every member, captured as the first of them issues (log 9). The model's readings: raft judges codes 5, 6, 7 in this order (log 8); hend
waits for the strand's posted peer writes, and in a deterministic launch its streams come as far as they can as it issues (log 47). -/
def Obligations.StrandForms : Prop :=
  ∀ (s : State), Settled s →
    let w : StrandId := s.cur
    let t : Strand := s.strand w
    (∀ o : R3,
      let a : Word := s.rs o.a
      let x : Issue := plain o.sc [.s o.a, .s o.b]
      let fields : Prop := a.getLsbD 0 = false ∧ a.extractLsb' 57 3 = 0#3 ∧ a.extractLsb' 62 2 = 0#2 ∧ a.extractLsb' 52 5 ≠ 31#5
      (¬fields → Traps s (.hstart o) (trapOf 11 5)) ∧
      (fields → t.det = true → Does s (.hstart o) x (s.collect w [o.d] (.start o.d a (s.rs o.b)))) ∧
      (fields → t.det = false →
        let vregs : Nat := (a.extractLsb' 52 5).toNat
        ((s.freeContext w.core = none ∨ freeRun (s.grants w.core) vregs = none) → Answers s s (.hstart o) x o.d 0) ∧
        ∀ c base, s.freeContext w.core = some c → freeRun (s.grants w.core) vregs = some base →
          let h : StrandId := ⟨w.core, c⟩
          ∃ u, Answers s u (.hstart o) x o.d (u.boundDesc h) ∧
            (∀ v, StrandId.key v ≠ StrandId.key h → u.strand v = s.strand v) ∧ u.mem = s.mem ∧ (∀ k, u.core k = s.core k) ∧
            let y : Strand := u.strand h
            y.live = true ∧ y.pl = 0 ∧ y.pc = a &&& 0xFFFFFFFFFFFFE ∧ y.cls = a.extractLsb' 60 2 ∧ y.vbase = base ∧
            y.vcount = vregs ∧ y.gen = (s.strand h).gen + 1 ∧ y.getS 1 = s.rs o.b ∧ y.getS 2 = u.boundDesc h)) ∧
    (∀ o : R0,
      ((w.ctx = 0 ∨ w.ctx = 11) → Traps s (.hend o) (trapOf 11 6)) ∧
      (w.ctx ≠ 0 → w.ctx ≠ 11 → s.coreDet w.core = false →
        let busy (r : RegStream) : Prop := r.write = true ∧ (r.buf ≠ [] ∨ ∃ p ∈ s.posted, p.who = w)
        ((∀ e ∈ s.ownStreams w, ¬busy e.2) → Does s (.hend o) (plain o.sc []) (s.endStrand w)) ∧
        (∀ first e rest, s.ownStreams w = first ++ e :: rest → (∀ x ∈ first, ¬busy x.2) → busy e.2 →
          Waits s (.hend o) (.streamDrain e.1))) ∧
      (w.ctx ≠ 0 → w.ctx ≠ 11 → s.coreDet w.core = true →
        let u : State := s.settleStreams w.core
        ((∀ e ∈ u.ownStreams w, u.streamBusy w e.2 = false) → Does s (.hend o) (plain o.sc []) (u.endStrand w)) ∧
        (∀ first e rest, u.ownStreams w = first ++ e :: rest → (∀ x ∈ first, u.streamBusy w x.2 = false) →
          u.streamBusy w e.2 = true → exec (.hend o) s = .next (u.stay w (.retry (.streamDrain e.1))))) ∧
      (w.ctx ≠ 0 → w.ctx ≠ 11 → ((s.endStrand w).strand w).live = false) ∧
      Does s (.yield o) (plain o.sc []) (s.setCore w.core { s.core w.core with yielded := some w.ctx }) ∧
      Does s (.nop o) (plain o.sc []) s) ∧
    (∀ o : Pri, Answers s (s.setStrand w { t with cls := o.c }) (.prio o) (plain o.sc []) o.d (t.cls.setWidth 64)) ∧
    (∀ o : R2,
      let a : Word := s.rs o.a
      let x : Issue := plain o.sc [.s o.a]
      let cores : List Nat := s.raftCores w.core (a.setWidth 32)
      let m : BitVec 32 := physicalMask cores
      let members : Prop := 2 ≤ cores.length ∧ w.core ∈ cores ∧ (∀ c ∈ cores, s.inCrew w.core c = true) ∧ s.otherMask cores m = false
      (a.extractLsb' 32 32 ≠ 0#32 → Traps s (.raft o) (trapOf 11 5)) ∧
      (a.extractLsb' 32 32 = 0#32 → (w.ctx ≠ 0 ∨ t.raft.isSome = true) → Traps s (.raft o) (trapOf 11 6)) ∧
      (a.extractLsb' 32 32 = 0#32 → w.ctx = 0 → t.raft = none → ¬members → Traps s (.raft o) (trapOf 11 7)) ∧
      (a.extractLsb' 32 32 = 0#32 → w.ctx = 0 → t.raft = none → members →
        (∀ c ∈ cores, c ≠ w.core → s.waitsRaft ⟨c, 0⟩ m = false →
          exec (.raft o) s = .next (s.setStrand w { t with raft := some m, steps := 0, wait := .raft o.d o.sc })) ∧
        ((∀ c ∈ cores, c ≠ w.core → s.waitsRaft ⟨c, 0⟩ m = true) →
          let others : List Nat := cores.filter (· != w.core)
          let u : State := others.foldl (fun s' c => s'.joinRaft ⟨c, 0⟩ (a.setWidth 32) ((s.strand ⟨raftLeader (clusterOf w.core) m, 0⟩).pc + 4))
            (s.setStrand w { t with raft := some m, steps := 0 })
          Jumps s (.raft o) x (u.resultS w .variable (s.issueSlot x) o.d (BitVec.ofNat 64 (s.raftRank w.core (a.setWidth 32))))
            ((s.strand ⟨raftLeader (clusterOf w.core) m, 0⟩).pc + 4))) ∧
      let votes : List Bool := if t.raft.isSome then t.votes else [s.rs o.a != 0]
      Answers s s (.raftAny o) x o.d (if true ∈ votes then 1 else 0) ∧
      Answers s s (.raftAll o) x o.d (if false ∈ votes then 0 else 1)) ∧
    (∀ o : RA, Jumps s (.split o) (plain o.sc [.s o.a]) (s.setStrand w { t with raft := none }) (s.rs o.a &&& ~~~(1 : Word))) ∧
    (∀ (ws : List StrandId) (a : BitVec 4), (∀ m ∈ ws, (s.strand m).pend = []) →
      ∀ m ∈ ws, ((s.holdVotes ws a).strand m).votes = ws.map fun x => (s.strand x).getS a != 0)

/-- 10 R200, R201: a barrier's operand of another form, a mask without the strand, or another mask than the open instance's traps; otherwise the strand
arrives; the last to arrive completes the instance outside a deterministic launch: it writes 1 to the strand that arrived last and 0 to every other, and all of them go on (in a deterministic launch
as the next quantum begins, 16 R287), at crew scope behind a release and an acquire of die scope by each. -/
def Obligations.BarrierForms : Prop :=
  ∀ (s : State), Settled s →
    let w : StrandId := s.cur
    (∀ o : Brr,
      let a : Word := s.rs o.a
      let mask : BitVec 12 := a.setWidth 12
      let slot : Nat := (a.extractLsb' 16 4).toNat
      let x : Issue := plain o.sc [.s o.a]
      let fields : Prop := a.extractLsb' 12 4 = 0#4 ∧ a.extractLsb' 20 44 = 0#44
      (¬fields → Traps s (.bar o) (trapOf 11 5)) ∧
      ∀ k c, fields → (s.core w.core).crew = some k → FMap.find s.crews k = some c →
        let key : Nat := barrierKey o.scope.toNat (barrierUnit w.core o.scope.toNat) slot
        let open' : Option Barrier := FMap.find c.barriers key
        (mask.getLsbD w.ctx = false → Traps s (.bar o) (trapOf 11 8)) ∧
        (∀ b, mask.getLsbD w.ctx = true → open' = some b → b.mask ≠ mask → Traps s (.bar o) (trapOf 11 8)) ∧
        (mask.getLsbD w.ctx = true → (∀ b, open' = some b → b.mask = mask) →
          let b : Barrier := open'.getD ⟨mask, s.participants (c.barrierCores w.core o.scope.toNat) mask, []⟩
          let b1 : Barrier := ⟨b.mask, b.awaited.filter (· != w), b.arrived ++ [⟨w, o.d, false⟩]⟩
          let u : State := (s.setCrew k { c with barriers := FMap.put c.barriers key b1 }).onStrand w fun t =>
            { t with wait := .barrier o.scope.toNat slot }
          (b1.awaited ≠ [] ∨ c.det = true → Does s (.bar o) x u) ∧
          (b1.awaited = [] → c.det = false → Does s (.bar o) x (u.completeBarrier k key b1 w)))) ∧
    (∀ k key b winner c, FMap.find s.crews k = some c → (∀ e ∈ b.arrived, e.phase = false) →
      (b.arrived.map fun e => StrandId.key e.who).Nodup →
      let u : State := s.completeBarrier k key b winner
      (∀ e ∈ b.arrived,
        let y : Strand := u.strand e.who
        y.wait = (if c.det then .parked .sync else .free) ∧
        y.getS e.d = if e.d = 0 then 0 else if e.who = winner then 1 else 0) ∧
      let crewWide : List Nat := if key / 16 / 65536 = 3 then b.arrived.map (·.who.core) else []
      let v : State := crewWide.foldl (fun s c => s.acquire c 2) (crewWide.foldl (fun s c => s.release c 2) s)
      u.mem = v.mem ∧ u.clusters = v.clusters)

/-! ### Deterministic launches (16) -/

/-- 16 R288, R295, R307 to R312: the det instructions: outside a deterministic launch code 1, outside a tournament code 2 for tround, trank and tdone;
dsync parks the strand; dphase arrives at the barrier of the control strands; berth checks its record and stages the entry by a request; tround and trank answer the
counts; tdone is a request. -/
def Obligations.DeterminismForms : Prop :=
  ∀ (s : State), Settled s →
    let w : StrandId := s.cur
    let core : Machine.Core := s.core w.core
    let outside : Prop := s.crewOf w.core = none ∨ ∃ c, s.crewOf w.core = some c ∧ c.det = false
    (outside → (∀ o, Traps s (.dsync o) (trapOf 15 1)) ∧ (∀ o, Traps s (.dphase o) (trapOf 15 1)) ∧
      (∀ o, Traps s (.berth o) (trapOf 15 1)) ∧ (∀ o, Traps s (.tround o) (trapOf 15 1)) ∧
      (∀ o, Traps s (.trank o) (trapOf 15 1)) ∧ ∀ o, Traps s (.tdone o) (trapOf 15 1)) ∧
    ∀ c, s.crewOf w.core = some c → c.det = true →
      (c.rival = none → (∀ o, Traps s (.tround o) (trapOf 15 2)) ∧ (∀ o, Traps s (.trank o) (trapOf 15 2)) ∧
        ∀ o, Traps s (.tdone o) (trapOf 15 2)) ∧
      (∀ o : R0, Does s (.dsync o) (plain o.sc []) (s.setStrand w { s.strand w with wait := .parked .sync })) ∧
      (∀ o : RD,
        let key : Nat := barrierKey 3 0 15
        let open' : Option Barrier := FMap.find c.barriers key
        ((w.ctx ≠ 0 ∧ w.ctx < 12) → Traps s (.dphase o) (trapOf 11 8)) ∧
        (∀ b, w.ctx = 0 → open' = some b → b.mask ≠ 1 → Traps s (.dphase o) (trapOf 11 8)) ∧
        (∀ k, w.ctx = 0 → core.crew = some k → (∀ b, open' = some b → b.mask = 1) →
          let b : Barrier := open'.getD ⟨1, s.participants c.cores 1, []⟩
          let b1 : Barrier := ⟨b.mask, b.awaited.filter (· != w), b.arrived ++ [⟨w, o.d, true⟩]⟩
          Does s (.dphase o) (plain o.sc [])
            ((s.setCrew k { c with barriers := FMap.put c.barriers key b1 }).onStrand w fun t => { t with wait := .barrier 3 15 }))) ∧
      (∀ o : RAB,
        let x : Issue := plain o.sc [.s o.a, .s o.b]
        (s.ownBuffer w.core (s.rs o.b) 16 16 = none → Traps s (.berth o) (trapOf 15 6)) ∧
        ∀ l, s.ownBuffer w.core (s.rs o.b) 16 16 = some l →
          let v : Nat := s.viewNat w l 16
          let base : Nat := v % 2 ^ 52
          let len : Nat := v / 2 ^ 64 % 2 ^ 40
          let cls : Nat := v / 2 ^ 124
          let reserved : Prop := v / 2 ^ 52 % 2 ^ 11 = 0 ∧ v / 2 ^ 104 % 2 ^ 6 = 0
          let valid : Prop := v / 2 ^ 63 % 2 = 1
          let entry : Prop := cls ≤ 4 ∧ base % 64 = 0 ∧ base < Config.windowBase ∧ len % 64 = 0 ∧ 64 ≤ len
          (¬(reserved ∧ (valid → entry) ∧ (s.rs o.a).toNat < 32) → Traps s (.berth o) (trapOf 15 6)) ∧
          (reserved → (s.rs o.a).toNat < 32 → (s.strand w).det = true →
            (¬valid → Does s (.berth o) x (s.collect w [] (.berth (s.rs o.a).toNat none))) ∧
            (valid → entry → ∃ e : Berth, Does s (.berth o) x (s.collect w [] (.berth (s.rs o.a).toNat (some e))) ∧
              e.base = base ∧ e.len = len ∧ e.cls = cls))) ∧
      (∀ i, c.rival = some i → i < 256 →
        let alive : Nat := s.aliveCount c
        (∀ (o : RD) left, alive < 512 → left < 2 ^ 32 → (match c.allowance with | some a => a - core.round | none => 0xFFFFFFFF) = left →
          Answers s s (.tround o) (plain o.sc []) o.d
            (BitVec.ofNat 64 (left * 2 ^ 32 + i * 2 ^ 24 + alive * 2 ^ 15 + c.roundNo % 256))) ∧
        (∀ o : RD, c.rows.length < 2 ^ 16 → Answers s s (.trank o) (plain o.sc []) o.d
          (BitVec.ofNat 64 (c.rows.length * 2 ^ 32 + c.rank % 256 * 2 ^ 24 + c.won % 256 * 2 ^ 8 +
            (if c.finished.isSome then 2 else 0) + if alive = 1 then 1 else 0))) ∧
        (∀ o : RA, (s.strand w).det = true → Does s (.tdone o) (plain o.sc [.s o.a]) (s.collect w [] (.finish (s.rs o.a)))))

/-- 16 R286 to R289, R293, R300, R304: the end of a quantum happens only when it is due, and not while a debugger holds the crew, a
pre-emption stops it and no strand needs the next quantum to come to the end of its pass, or the transfer that its serving has come to must wait; requests stand in logical-core and context order, those of one strand in
program order; the next quantum starts every core's count again, takes the new length, and lets the strands go on that dsync parked; a byte that two tasks wrote conflicts and a byte that one wrote does not,
owner writes alone never conflict, and beside them the pair named is one that conflicts;
of two rivals a NaN score is below a number. The model's readings: serving stops at a transfer that must wait (log 54), and no quantum ends while pre-emption stops the crew, but for the strands in a pass (log 55). -/
def Obligations.QuantumEnds : Prop :=
  ∀ (s : State) (k : Nat),
    (FMap.find s.crews k = none → exec (.quantumEnd k) s = .next s) ∧
    (∀ c, FMap.find s.crews k = some c →
      (s.quantumDue k c = false → exec (.quantumEnd k) s = .next s) ∧
      (s.quantumDue k c = true → exec (.quantumEnd k) s = .next (s.quantumEnd k c)) ∧
      (c.det = false → s.quantumDue k c = false) ∧
      (c.held = true → s.quantumDue k c = false) ∧
      (c.rival = none → c.stopping = true → s.passHeld c = false → s.quantumDue k c = false) ∧
      (c.rival = none → ∀ p, c.serving = some p → s.mustWait p.1 p.2 = true → s.quantumDue k c = false) ∧
      (c.rival = none ∨ s.barrierFalls c.launch = false → ∀ x i, x ∈ c.cores → s.mayIssue x c = true → s.turnHolder x = some i → (s.strand ⟨x, i⟩).wait = .free →
        (s.strand ⟨x, i⟩).raft = none → s.quantumDue k c = false)) ∧
    (let before (a b : ReqItem) : Prop := a.index < b.index ∨ (a.index = b.index ∧ a.who.ctx ≤ b.who.ctx)
     ∀ (l : List ReqItem) e, l.Pairwise before →
       (insertReq e l).Pairwise before ∧ (insertReq e l).Perm (e :: l) ∧
       ((insertReq e l).filter fun r => r.who == e.who && r.index == e.index) =
         (l.filter fun r => r.who == e.who && r.index == e.index) ++ [e]) ∧
    (∀ c, FMap.find s.crews k = some c → c.cores.Nodup →
      let u : State := s.beginQuantum k
      (∀ x ∈ c.cores, (u.core x).quantum = 0) ∧
      (∀ c', FMap.find u.crews k = some c' → c'.qlog = c.qnext.getD c.qlog ∧ c'.qnext = none) ∧
      ∀ x ∈ c.cores, ∀ i, i < 12 → (s.strand ⟨x, i⟩).wait = .parked .sync → (u.strand ⟨x, i⟩).wait = .free) ∧
    (∀ (c : Crew) key a b (m n : FMap Byte), a < b → FMap.find m key ≠ none → FMap.find n key ≠ none →
      c.wake = [(a, m), (b, n)] → FMap.getD c.direct key [] = [] → c.conflictAt key = some (a, b)) ∧
    (∀ (c : Crew) key a (m : FMap Byte), c.wake = [(a, m)] → FMap.getD c.direct key [] = [] → c.conflictAt key = none) ∧
    (∀ (c : Crew) key a b (m : FMap Byte), a ≠ b → FMap.find m key ≠ none → c.wake = [(a, m)] → FMap.getD c.direct key [] = [b] →
      c.conflictAt key = some (min a b, max a b)) ∧
    (∀ (c : Crew) key, c.wake = [] → c.conflictAt key = none) ∧
    (∀ (c : Crew) key a b d (m : FMap Byte), a < b → b < d → FMap.find m key ≠ none → c.wake = [(d, m)] → FMap.getD c.direct key [] = [a, b] →
      c.conflictAt key = some (a, d)) ∧
    (∀ (rule : BitVec 2) (x y : Word), rule.getLsbD 0 = true → (Fmt.f32.decode (lowNat x)).isNaN = false →
      (Fmt.f32.decode (lowNat y)).isNaN = true → betterScore rule (some x) (some y) = true ∧ betterScore rule (some y) (some x) = false)

/-! ### System registers, traps and returns (01, 04, 19) -/

/-- 01 R18 to R22, R27, 04 R89, 16 R283, 24 R383, R386: a read of a class-10 register below firmware and a write above the
strand's level trap; any other read answers the register's value and any other write sets it, with its reserved bits, its clamps and the rest of the state as the rules say; the device performs
the same writes as events.
The model's readings: a write of dev.crbase drops its low 12 bits (log 66); how crew.quantum reads (log 67). -/
def Obligations.SystemRegisters : Prop :=
  ∀ (s : State), Settled s →
    let w : StrandId := s.cur
    let t : Strand := s.strand w
    (∀ o : Sys,
      let cls : Nat := (o.n.extractLsb' 8 2).toNat
      let v : Word := s.rs o.d
      let write (u : State) : Prop := Does s (.sysw o) (plain o.sc [.s o.d]) u
      (cls = 2 → t.pl ≠ 2 → Traps s (.sysr o) (trapOf 2 0)) ∧
      ((cls ≠ 2 ∨ t.pl = 2) → (o.n = 0x302 → s.uncharged w = false) →
        Answers s s (.sysr o) (plain o.sc []) o.d (s.sysRead w o.n)) ∧
      ((cls ≠ 2 ∨ t.pl = 2) → o.n = 0x302 → s.uncharged w = true → Waits s (.sysr o) .budget) ∧
      (cls ≠ 3 → t.pl.toNat < cls → Traps s (.sysw o) (trapOf 2 0)) ∧
      (cls = 3 → write s) ∧
      (cls ≤ t.pl.toNat → cls ≠ 3 →
        (o.n = 0x000 → write (s.setStrand w { t with rm := v.extractLsb' 0 2, chk := v.getLsbD 2 })) ∧
        (o.n = 0x001 → write (s.setStrand w { t with oob := v &&& 0xF00FFFFFFFFFFFFF })) ∧
        (o.n = 0x002 → write (s.setStrand w { t with oobpc := v &&& 0xFFFFFFFFFFFFE })) ∧
        (o.n = 0x003 → write (s.setStrand w { t with seed := v })) ∧
        (o.n = 0x004 → write (s.setStrand w { t with score := v })) ∧
        (o.n = 0x100 → write (s.setStrand w { t with upcall := v &&& 0xFFFFFFFFFFFFF })) ∧
        (o.n = 0x500 → write (s.writeSwallow w.core v)) ∧
        (o.n = 0x501 → write (s.setCore w.core { s.core w.core with spLen := v.extractLsb' 16 9, spBase := v.extractLsb' 8 8 })) ∧
        (o.n = 0x502 → write (s.setCore w.core { s.core w.core with peermask := v.extractLsb' 0 32 })) ∧
        (o.n = 0x900 → write (s.writeQuantum w.core v)) ∧
        (o.n = 0xD00 → write { s with plimit := if 2800 < (v.extractLsb' 0 12).toNat then 2800 else v.extractLsb' 0 12 }) ∧
        (o.n = 0xD01 → write { s with slope := v.extractLsb' 0 32 }) ∧
        (o.n = 0xD02 → write (if s.launches = [] then { s with crbase := v &&& ~~~(0xFFF : Word) } else s)) ∧
        (o.n = 0xE00 → write { s with fwEntry := v &&& ~~~(1 : Word) }) ∧
        (o.n = 0xE01 → write { s with fwLawtab := v }) ∧
        (o.n = 0xE02 → write (s.writeBbox v)))) ∧
    (s.sysRead w 0x000 = (t.pl.setWidth 64 <<< 8) ||| ((BitVec.ofBool t.det).setWidth 64 <<< 3) |||
        ((BitVec.ofBool t.chk).setWidth 64 <<< 2) ||| t.rm.setWidth 64 ∧
      s.sysRead w 0x001 = t.oob ∧ s.sysRead w 0x002 = t.oobpc ∧ s.sysRead w 0x003 = t.seed ∧ s.sysRead w 0x004 = t.score ∧
      s.sysRead w 0x100 = t.upcall ∧ (w.core < 65536 → w.ctx < 16 → s.sysRead w 0x300 = BitVec.ofNat 64 (w.core * 16 + w.ctx)) ∧
      (w.ctx = 0 → s.sysRead w 0x301 = 30) ∧ s.sysRead w 0x302 = t.mbudget ∧
      s.sysRead w 0x500 = (s.core w.core).swallow.setWidth 64 ∧
      s.sysRead w 0x501 = ((s.core w.core).spLen.setWidth 64 <<< 16) ||| ((s.core w.core).spBase.setWidth 64 <<< 8) ∧
      s.sysRead w 0x502 = (s.core w.core).peermask.setWidth 64 ∧ s.sysRead w 0xD00 = s.plimit.setWidth 64 ∧
      s.sysRead w 0xD01 = s.slope.setWidth 64 ∧ s.sysRead w 0xD02 = s.crbase ∧ s.sysRead w 0xE00 = s.fwEntry ∧
      s.sysRead w 0xE01 = s.fwLawtab ∧ s.sysRead w 0xE02 = (BitVec.ofBool s.frozen).setWidth 64 ∧
      s.sysRead w 0xF00 = (s.die (dieOf w.core)).trapBase ∧
      ∀ c, s.crewOf w.core = some c → s.sysRead w 0x900 = if c.det then BitVec.ofNat 64 c.qlog else 0) ∧
    (∀ v : Word,
      exec (.ctxOobWrite v) s = .next (s.setStrand w { t with oob := v &&& 0xF00FFFFFFFFFFFFF }) ∧
      exec (.ctxModeWrite v) s = .next (s.setStrand w { t with rm := v.extractLsb' 0 2, chk := v.getLsbD 2 }) ∧
      exec (.coreSwallowWrite v) s = .next (s.writeSwallow w.core v) ∧
      exec (.crewQuantumWrite v) s = .next (s.writeQuantum w.core v) ∧
      exec (.devPlimitWrite v) s =
        .next { s with plimit := if 2800 < (v.extractLsb' 0 12).toNat then 2800 else v.extractLsb' 0 12 } ∧
      exec (.devCrbaseWrite v) s = .next (if s.launches = [] then { s with crbase := v &&& ~~~(0xFFF : Word) } else s) ∧
      (∀ core, clusterOf core = clusterOf w.core →
        ((s.writeSwallow w.core v).core core).swallow = if v.extractLsb' 0 16 = 0#16 then 1 else v.extractLsb' 0 16) ∧
      (∀ core, clusterOf core ≠ clusterOf w.core → (s.writeSwallow w.core v).core core = s.core core) ∧
      ∀ k c, (s.core w.core).crew = some k → FMap.find s.crews k = some c →
        let q : Nat := (v.extractLsb' 0 5).toNat
        s.writeQuantum w.core v = s.setCrew k (if c.det = true ∧ 8 ≤ q ∧ q ≤ 20 then { c with qnext := some q } else c)) ∧
    ∃ u, exec .fwBboxClear s = .next u ∧ u.frozen = false ∧ (∀ d, (u.die d).box = [] ∧ (u.die d).boxNext = 0) ∧ u.mem = s.mem

/-- 19 R328 to R332, 24 R390: how a trap is delivered. From user and system level, with an entry address there, the strand enters the level above: the frame of that level holds
cause, address, pc, resume pc, instruction, element and s12 to s15; s12 to s15 are the frame's address, the cause, the handler's stack and the address; the pc is the entry; the repeat
frame is set aside; nothing else changes, but for lines that the frame takes the ways of in the cluster cache and those of other strands that the entry reads, which are evicted (log 6). A trap or call counts for the operand buffer as every instruction does. In a deterministic launch a strand parks first when a request will write s12 to s15, and
without room for the frame the wake overflow aborts the launch (the model's choice, log 86). Without an entry, at firmware level and for the fatal codes the launch is aborted, or a rival alone finishes, with a NaN score; the two at firmware level and a missing
firmware entry with a black-box entry; without a trap table there is no system entry (log 13); an uncorrectable error aborts it from any level, and so does one of what the entry itself reads. A page that the host owns holds the strand in a
deterministic launch, and elsewhere is an upcall when it is enabled; a debug trap under a debugger holds the crew with all its live strands, and is reported. -/
def Obligations.TrapEntry : Prop :=
  ∀ (s : State) (w : StrandId) (x : Trap), (s.strand w).pend = [] → (s.strand w).stepping = none →
    let t : Strand := s.strand w
    let crew : Option Nat := (s.core w.core).crew
    let u : State := s.takeTrap w x
    let y : Strand := u.strand w
    let start : State := { s with trapped := true }
    let entered (v : Nat) : State := start.entryRead w v
    let entry (v : Nat) : Word := (entered v).entryOf w v
    let saved : List Reg := ([12#4, 13#4, 14#4, 15#4].filter fun n => t.requests (.s n)).map .s
    let aborted (a : State) (k : Nat) : Prop := ∃ frame : List Byte, frame.length = 128 ∧ u = a.abortLaunch k frame
    let plainTrap : Prop := x.cls ≠ 0 ∧ (crew ≠ none → ¬(x.cls = 15 ∧ (x.code = 5 ∨ x.code = 7)) ∧ x.hostOwned = false ∧
      ¬(x.cls = 18 ∧ s.debugged w.core = true))
    (∀ v (h : v < 2), plainTrap → t.pl.toNat = v → entry v ≠ 0 → saved = [] → (entered v).entryFail w v = none →
      let f : Nat := s.frameAddr w v
      let cause : Word := causeWord w t x
      (entered v).wakeRoom w [(dieLoc w f).key, (dieLoc w f).key + 64] = true →
      y.obuf = (if x.resume then (t.obuf.filter fun e => decide (1 < e.2)).map fun e => (e.1, e.2 - 1) else t.obuf) ∧
      y.pl.toNat = v + 1 ∧ y.pc = entry v ∧ y.frame = none ∧ y.frames[v] = t.frame ∧ y.wait = .free ∧ y.slot = t.slot + 4 ∧
      y.getS 12 = BitVec.ofNat 64 f ∧ y.getS 13 = cause ∧ y.getS 14 = u.devWord w (f + 120) ∧ y.getS 15 = x.addr ∧
      (∀ n : BitVec 4, n.toNat < 12 → y.getS n = t.getS n) ∧ y.f = t.f ∧ y.p = t.p ∧ y.q = t.q ∧ y.cursor = t.cursor ∧
      y.rm = t.rm ∧ y.chk = t.chk ∧ y.oob = t.oob ∧ y.live = t.live ∧ y.gen = t.gen ∧ y.shadow = t.shadow ∧ y.stale = t.stale ∧
      (s.apart w.core → u.devWord w f = cause ∧ u.devWord w (f + 8) = x.addr ∧ u.devWord w (f + 16) = t.pc ∧
      u.devWord w (f + 24) = (if x.resume then t.pc + BitVec.ofNat 64 (2 * s.ir.length) else t.pc) ∧
      u.devWord w (f + 32) = insnWord s.ir x ∧ u.devWord w (f + 40) = x.elem ∧
      ∀ k, k < 4 → u.devWord w (f + 48 + 8 * k) = t.getS (BitVec.ofNat 4 (12 + k))) ∧
      ((v = 0 → s.readsOwn w (dieLoc w (s.die (dieOf w.core)).trapBase.toNat).key 8) → s.readsOwn w (dieLoc w (f + 120)).key 8 → u.free = s.free → ∀ v' l k, (∀ i j, i < 10 → j < 8 → l.key + k ≠ (dieLoc w (f + 8 * i)).key + j) →
        u.viewByte v' l k = s.viewByte v' l k) ∧
      (∀ v', StrandId.key v' ≠ StrandId.key w → u.strand v' = s.strand v') ∧ ∀ c, u.core c = s.core c) ∧
    (∀ v z, v < 2 → plainTrap → t.pl.toNat = v → entry v ≠ 0 → saved = [] → (entered v).entryFail w v = some z →
      u = (entered v).consumed w s.ir z) ∧
    (∀ v, s.failing = [] → t.fails = [] → (entered v).entryFail w v = none) ∧
    (∀ v, v < 2 → plainTrap → t.pl.toNat = v → entry v ≠ 0 → saved ≠ [] →
      y.wait = .parked (.results saved) ∧ y.pc = t.pc ∧ y.pl = t.pl ∧ y.s = t.s ∧ u.trapped = false ∧ u.mem = (entered v).mem) ∧
    (x.cls < 256 → x.code < 256 → w.core < 65536 → w.ctx < 16 →
      let cause : Word := causeWord w t x
      cause.extractLsb' 56 8 = BitVec.ofNat 8 x.cls ∧ cause.extractLsb' 48 8 = BitVec.ofNat 8 x.code ∧
      cause.getLsbD 47 = t.frame.isSome ∧ cause.getLsbD 46 = x.wr ∧ cause.getLsbD 45 = x.fetch ∧ cause.extractLsb' 42 2 = t.pl ∧
      (∀ g, t.frame = some g → cause.extractLsb' 36 6 = BitVec.ofNat 6 g.pass ∧ cause.extractLsb' 32 4 = BitVec.ofNat 4 g.pos) ∧
      cause.extractLsb' 0 20 = BitVec.ofNat 20 (w.core * 16 + w.ctx)) ∧
    ((s.die (dieOf w.core)).trapBase = 0 → s.entryOf w 0 = 0) ∧
    (∀ k c, crew = some k → FMap.find s.crews k = some c →
      let logged : State := start.log (dieOf w.core) 4 (clusterOf w.core % 512) 1
      let fatal (a : State) : Prop :=
        (c.rival = none → aborted a c.launch) ∧
        (∀ i, c.rival = some i → u = if c.finished.isSome then a else (a.stopStrands c.cores).setCrew k { c with finished := some none })
      (plainTrap → t.pl = 0 → entry 0 = 0 → fatal (entered 0)) ∧
      (plainTrap → t.pl = 1 → entry 1 = 0 → fatal logged) ∧
      (plainTrap → t.pl = 2 → fatal logged) ∧
      (∀ v, v < 2 → plainTrap → t.pl.toNat = v → entry v ≠ 0 → saved = [] → (entered v).entryFail w v = none →
        (entered v).wakeRoom w [(dieLoc w (s.frameAddr w v)).key, (dieLoc w (s.frameAddr w v)).key + 64] = false → fatal (entered v)) ∧
      (x.cls = 15 → (x.code = 5 ∨ x.code = 7) → fatal start)) ∧
    (∀ k c, crew = some k → FMap.find s.crews k = some c → x.cls = 0 → aborted start c.launch) ∧
    (∀ k, crew = some k → x.hostOwned = true →
      (t.det = true → u = { s.setStrand w { t with wait := .page x.addr } with trapped := false }) ∧
      (t.det = false → t.pl = 0 → w.ctx ≤ 10 → t.upcall.getLsbD 0 = true →
        y.wait = .held ∧ y.request = (s.core w.core).requests + 1 ∧ y.pc = t.pc ∧ y.pl = t.pl ∧ u.mem = s.mem ∧
        (u.core w.core).requests = (s.core w.core).requests + 1 ∧
        (u.core w.core).upcalls = (s.core w.core).upcalls ++ [⟨w.ctx, x.addr, x.cls, x.code, (s.core w.core).requests + 1⟩] ∧
        u.flips.length = s.flips.length + 1)) ∧
    (∀ k c, crew = some k → FMap.find s.crews k = some c → x.cls = 18 → c.debugger = true → t.live = true →
      w.core ∈ c.cores → w.ctx < 16 →
        FMap.find u.crews k = some { c with held := true } ∧
        (∀ v' : StrandId, v'.core ∈ c.cores → v'.ctx < 16 → (s.strand v').live = true → (u.strand v').halted = true) ∧
        (∃ r, y.reported = some r ∧ r.cls = 18 ∧ r.code = BitVec.ofNat 8 x.code ∧ r.elem = x.elem ∧ r.addr = x.addr ∧ r.wr = x.wr ∧
          (∀ g, t.frame = some g → r.pass = g.pass ∧ r.pos = g.pos)) ∧
        y.pc = (if x.resume then t.pc + BitVec.ofNat 64 (2 * s.ir.length) else t.pc) ∧
        y.exempt = t.exempt ++ x.brk ∧ y.pl = t.pl ∧ y.s = t.s ∧ u.mem = s.mem)

/-- 19 R332, R333: a trap from a level below firmware into a handler that returns at once leaves the strand with its registers, its level and its repeat frame, at
the instruction, or behind it when the trap resumes there; a repeat frame goes on at the position of its body where it stood. -/
def Obligations.EntryThenReturn : Prop :=
  ∀ (s : State) (w : StrandId) (x : Trap) (v : Nat) (h : v < 2),
    let t : Strand := s.strand w
    let f : Nat := s.frameAddr w v
    let e : State := ({ s with trapped := true } : State).entryRead w v
    t.pend = [] → t.stepping = none → t.pl.toNat = v → e.entryOf w v ≠ 0 → e.entryFail w v = none → x.cls ≠ 0 →
    ((s.core w.core).crew ≠ none → ¬(x.cls = 15 ∧ (x.code = 5 ∨ x.code = 7)) ∧ x.hostOwned = false ∧
      ¬(x.cls = 18 ∧ s.debugged w.core = true)) →
    (∀ n : BitVec 4, 12 ≤ n.toNat → t.requests (.s n) = false) →
    e.wakeRoom w [(dieLoc w f).key, (dieLoc w f).key + 64] = true → s.apart w.core →
    (∀ g, t.frame = some g → g.pass < 64 ∧ g.pos < 16 ∧ x.resume = false) → t.pc.getLsbD 0 = false →
    let u : State := (s.takeTrap w x).leave w v h
    let y : Strand := u.strand w
    y.pl = t.pl ∧ (∀ n, y.getS n = t.getS n) ∧ y.f = t.f ∧ y.p = t.p ∧ y.q = t.q ∧ y.cursor = t.cursor ∧ y.rm = t.rm ∧ y.chk = t.chk ∧
    y.frame = t.frame ∧ (t.frame = none → y.pc = if x.resume then t.pc + BitVec.ofNat 64 (2 * s.ir.length) else t.pc) ∧
    ∀ g, t.frame = some g → y.pc = u.bodyPos w g.body g.pos &&& ~~~(1 : Word)

/-- 04 R90, R91, 19 R333, R346, R347, 20 R362: trap, scall and brk raise their software traps, whose handlers resume behind them; scall at firmware level, and a return from a level that the
strand is not at, are privilege faults; sret and fret restore what the frame holds, a repeat frame at the pass and position of its cause, no earlier result for a restored register is left, and
a frame that fails its check code is an uncorrectable error; uret in its three modes ends the upcall and lets the strand that it serves go on, with another fibre's image for
uret.sw; dbgsig appends an entry to the signal ring when a debugger is attached.
The model's readings: uret.sw judges the image that it writes before the one that it reads (log 69); 02 R44 and R346 disagree on whether uret and uret.wait deliver the results that the
strand they serve awaits, and which holds is free (log 80); where a register fails its check code (log 114); a fibre
loaded from an image has no repeat frame (log 34). -/
def Obligations.SystemForms : Prop :=
  ∀ (s : State), Settled s →
    let w : StrandId := s.cur
    let t : Strand := s.strand w
    (∀ o : Cd8, Traps s (.trap o) { trapOf 16 o.code.toNat with resume := true } ∧
      Traps s (.brk o) { trapOf 18 3 with resume := true, elem := o.code.setWidth 64 }) ∧
    (∀ o : N12, (t.pl ≠ 2 → Traps s (.scall o) { trapOf 17 0 with resume := true, elem := o.n.setWidth 64 }) ∧
      (t.pl = 2 → Traps s (.scall o) (trapOf 2 0))) ∧
    (∀ o : R0,
      let x : Issue := plain o.sc []
      let spent : State := (s.setStrand w (t.spend (s.issueSlot x) o.sc [])).countRetired w
      let bad (v : Nat) : Option Trap :=
        s.failedRead w .read (BitVec.ofNat 64 (dieLoc w (s.frameAddr w v)).key) (dieLoc w (s.frameAddr w v)) 80
      (s.failing = [] → ∀ v, bad v = none) ∧
      (t.pl ≠ 1 → Traps s (.sret o) (trapOf 2 0)) ∧ (∀ y, t.pl = 1 → bad 0 = some y → Traps s (.sret o) y) ∧
      (t.pl = 1 → bad 0 = none → exec (.sret o) s = .next (spent.leave w 0 (by decide))) ∧
      (t.pl ≠ 2 → Traps s (.fret o) (trapOf 2 0)) ∧ (∀ y, t.pl = 2 → bad 1 = some y → Traps s (.fret o) y) ∧
      (t.pl = 2 → bad 1 = none → exec (.fret o) s = .next (spent.leave w 1 (by decide))) ∧
      ((t.upcallFor = none ∨ w.ctx ≠ 11) → Traps s (.uret o) (trapOf 2 0) ∧ Traps s (.uretWait o) (trapOf 2 0)) ∧
      (∀ c, t.upcallFor = some c → w.ctx = 11 →
        let served : StrandId := ⟨w.core, c⟩
        let goes (wait : Bool → Wait) : State :=
          ((s.servedResults served).onStrand served fun y => { y with wait := wait y.noticed }).endStrand w
        Does s (.uret o) x (goes fun _ => .free) ∧
        Does s (.uretWait o) x (goes fun noticed => if noticed then .free else .notice) ∧
        ((s.strand served).pend = [] → s.servedResults served = s) ∧
        ((s.strand served).pend ≠ [] →
          s.servedResults served = { s with free := s.free + 1 } ∨
          s.servedResults served = ({ s with free := s.free + 1 } : State).deliverAll served))) ∧
    (∀ (u : State) v (h : v < 2),
      let f : Nat := u.frameAddr w v
      let r : State := u.devRead w f 80
      let y : Strand := (u.leave w v h).strand w
      let cause : Word := r.devWord w f
      let again : Prop := cause.getLsbD 47 = true ∧ r.devWord w (f + 24) = r.devWord w (f + 16)
      let pos : Nat := (cause.extractLsb' 32 4).toNat
      y.pl = cause.extractLsb' 42 2 ∧ (∀ k, k < 4 → y.getS (BitVec.ofNat 4 (12 + k)) = r.devWord w (f + 48 + 8 * k)) ∧
      (∀ n : BitVec 4, n.toNat < 12 → y.getS n = (u.strand w).getS n) ∧
      (∀ g, (u.strand w).frames[v] = some g → again →
        y.frame = some { g with pass := (cause.extractLsb' 36 6).toNat, pos := pos } ∧
        y.pc = (u.leave w v h).bodyPos w g.body pos &&& ~~~(1 : Word)) ∧
      ((u.strand w).frames[v] = none ∨ ¬again → y.pc = r.devWord w (f + 24) &&& ~~~(1 : Word) ∧ y.frame = none) ∧
      (∀ e ∈ y.pend, e ∈ (u.strand w).pend ∧ ∀ n : BitVec 4, 12 ≤ n.toNat → e.reg ≠ .s n) ∧
      (u.readsOwn w (dieLoc w f).key 80 → (u.leave w v h).free = u.free → (u.leave w v h).mem = u.mem)) ∧
    (∀ o : RAB,
      let x : Issue := plain o.sc [.s o.a, .s o.b]
      ((t.upcallFor = none ∨ w.ctx ≠ 11) → Traps s (.uretSw o) (trapOf 2 0)) ∧
      (∀ c, t.upcallFor = some c → w.ctx = 11 →
        let served : StrandId := ⟨w.core, c⟩
        (∀ y, s.rs o.a ≠ 0 → s.reachImage w .write (s.rs o.a) = .error y → Traps s (.uretSw o) y) ∧
        (∀ y, (s.rs o.a ≠ 0 → ∃ out, s.reachImage w .write (s.rs o.a) = .ok out) →
          s.reachImage w .read (s.rs o.b) = .error y → Traps s (.uretSw o) y) ∧
        (∀ out r, (s.rs o.a = 0 → out = []) → (s.rs o.a ≠ 0 → s.reachImage w .write (s.rs o.a) = .ok out) →
          s.reachImage w .read (s.rs o.b) = .ok r →
          let u : State := s.deliverAll served
          let spoilt : Option (Nat × Nat) := failingOf (u.strand served).fails 0 160 fun _ => true
          let kept : State :=
            (((u.imageOffence w out true).storeImage w out (u.strand served).image).imageOffence w r false).imageRead w r
          (∀ g, s.rs o.a ≠ 0 → spoilt = some g → Traps s (.uretSw o) (strandRegTrap served g)) ∧
          ((s.rs o.a = 0 ∨ spoilt = none) → Does s (.uretSw o) x
            ((kept.onStrand served fun y => { y.load (kept.imageBytes w r) with wait := .free }).endStrand w))))) ∧
    (∀ y z : Strand,
      let b : List Byte := y.image
      let r : Strand := z.load b
      b.length = 512 ∧ (∀ n, r.getS n = y.getS n) ∧ (∀ n, r.getF n = y.getF n) ∧ (∀ n, r.getP n = y.getP n) ∧
      (∀ n, r.getQ n = y.getQ n ∧ r.getCursor n = y.getCursor n) ∧ r.pc = y.pc &&& ~~~(1 : Word) ∧ r.rm = y.rm ∧ r.chk = y.chk ∧
      r.cls = y.cls ∧ r.score = y.score ∧ r.frame = none) ∧
    (∀ o : RA,
      let d : Die := s.die (dieOf w.core)
      let x : Issue := plain o.sc [.s o.a]
      (s.debugged w.core = false → Does s (.dbgsig o) x s) ∧
      (s.debugged w.core = true → 256 ≤ d.signals.length → Waits s (.dbgsig o) .signalRing) ∧
      (s.debugged w.core = true → d.signals.length < 256 →
        Does s (.dbgsig o) x (s.setDie (dieOf w.core) { d with signals := d.signals ++ [(s.rs o.a, t.pc, idWord w)] })))

/-! ### Timing and repeat frames (02) -/

/-- 02 R41 to R46, 05 R94, 09 R176, 15 R281: a result whose slot has come is delivered to a reader and an earlier reader gets the old value, or traps under chk, of a vector register where it reads a byte of the result; a
late variable-latency result makes its reader wait, and no other; results of latency 1 are written at once and the others stay in flight until their slot; an instruction takes its slot and
its stall slots, in which its strand is not ready, and its bank-conflict slots put it off; a slot passes for every other strand of the core, but for an attempt that only waits; a held source stays for two instructions; a late result and a branch that a slipway ran ahead of resolve as events.
The model's readings: whether variable-latency results come late is the state's (s.lag, log 4); one slot passes for every other held strand with each instruction of a strand (log 11); a slipway runs ahead outside rafts and
repeat frames (log 46). -/
def Obligations.ResultTiming : Prop :=
  (∀ (s : State) (x : Issue) (e : Pending) (body : State → Nat → Res),
    let w : StrandId := s.cur
    let t : Strand := s.strand w
    x = plain x.sc x.srcs → t.pend = [e] → t.requested = [] → t.wait = .free → t.fails = [] → (s.core w.core).fails = [] →
      FMap.rising s.strands = true →
      let delivered : State := (s.putReg w e.reg e.val e.mask).onStrand w fun t => { t with pend := [] }
      (∀ d, e.due = some d → d ≤ t.slot → ∀ u, body delivered t.slot = .done u → s.issue x body = .next (s.retire u x)) ∧
      (∀ d, e.due = some d → t.slot < d → t.chk = false → ∀ u, body s t.slot = .done u → s.issue x body = .next (s.retire u x)) ∧
      (∀ d, e.due = some d → t.slot < d → t.chk = true → e.reg ∈ x.srcs → (∀ v, e.reg ≠ .v v) → s.issue x body = .next (s.takeTrap w (trapOf 9 0))) ∧
      (e.due = none → e.reg ∈ x.srcs → s.issue x body = .next (s.stay w (.retry (.results (x.srcs.filter fun r => r = e.reg))))) ∧
      (e.due = none → e.reg ∉ x.srcs → ∀ u, body s t.slot = .done u → s.issue x body = .next (s.retire u x))) ∧
  (∀ (s : State) (w : StrandId) (rs : List Reg) (r : Reg) (v mask : VReg),
    (s.strand w).wait = .retry (.results rs) → (s.strand w).pend = [⟨r, v, mask, none⟩] → r ∈ rs → s.coreDet w.core = false →
      s.ready w = false ∧ ∀ u, exec (.resultDelivery w r) s = .next u → u.condNow w (.results rs) = true) ∧
  (∀ (s : State) (o : V2) (v mask : VReg) (d : Nat),
    let w : StrandId := s.cur
    let t : Strand := s.strand w
    let n : Nat := (typeOf o.pre .i32).width
    let x : Issue := ⟨o.sc, [.p o.p], [(o.a, o.ha = 1), (o.b, o.hb = 1)], some o.d, (activeList (s.rp o.p) n).isEmpty, [], wholly⟩
    t.pend = [⟨.v o.a, v, mask, some d⟩] → t.requested = [] → t.wait = .free → t.chk = true → t.frame = none →
    t.fails = [] → (s.core w.core).fails = [] → (s.core w.core).streams = Vector.replicate 4 none → Owned s [o.d, o.a, o.b] → s.issueSlot x < d →
      (mask &&& activeMask (s.rp o.p) n ≠ 0 → Traps s (.vadd o) (trapOf 9 0)) ∧
      (mask &&& activeMask (s.rp o.p) n = 0 → ∃ u, exec (.vadd o) s = .next u ∧
        (u.strand w).pc = t.pc + BitVec.ofNat 64 (2 * s.ir.length) ∧ (u.strand w).slot = s.issueSlot x + 1 + o.sc.toNat)) ∧
  (∀ (s : State) (w : StrandId) (n : Nat) (r : Reg) (v mask : VReg),
    let t : Strand := s.strand w
    let flying (due : Option Nat) : State := s.onStrand w fun t => { t with pend := t.pend ++ [⟨r, v, mask, due⟩] }
    (Reg.discards r = true → ∀ lat, s.result w lat n r v mask = s) ∧
    (Reg.discards r = false → t.requested = [] →
      (∀ k, k ≠ 1 → s.result w (.fixed k) n r v mask = flying (some (n + k))) ∧
      (t.pend = [] → s.result w (.fixed 1) n r v mask = s.putReg w r v mask) ∧
      (t.pend = [] → s.lag = false → s.result w .variable n r v mask = s.putReg w r v mask) ∧
      (s.lag = true → s.result w .variable n r v mask = flying none))) ∧
  (∀ (t : Strand) (n : Nat) (sc : BitVec 2) (held : List (BitVec 5 × Bool)),
    (t.spend n sc held).slot = n + 1 + sc.toNat ∧ (t.spend n sc held).hold = sc.toNat ∧
    ∀ v : BitVec 5, v.toNat < 30 → (v, true) ∈ held →
      let b1 : List (BitVec 5 × Nat) := (t.spend n sc held).obuf
      let b2 : List (BitVec 5 × Nat) := nextBuffer b1 []
      (∃ e ∈ b1, e.1 = v) ∧ (∃ e ∈ b2, e.1 = v) ∧ ((∀ e ∈ t.obuf, e.2 ≤ 2) → ∀ e ∈ nextBuffer b2 [], e.1 ≠ v)) ∧
  (∀ (s : State) (w : StrandId),
    (s.ready w = true → (s.strand w).hold = 0) ∧
    ((s.tickOthers w).strand w).hold = (s.strand w).hold ∧
    (∀ c, c < 12 → c ≠ w.ctx → ((s.tickOthers w).strand ⟨w.core, c⟩).hold = (s.strand ⟨w.core, c⟩).hold - 1) ∧
    ∀ t : State,
      ((t.strand w).unissued = true → s.passSlot w t = t) ∧
      ((t.strand w).unissued = false → (s.strand w).paid < (t.strand w).conf →
        s.passSlot w t = s.onStrand w fun x => { x with hold := (t.strand w).conf - x.paid, paid := (t.strand w).conf }) ∧
      ((t.strand w).unissued = false → (t.strand w).conf = 0 → s.passSlot w t = t.tickOthers w)) ∧
  (∀ reads : List Nat, bankConflicts reads = 0 ↔ ∀ b, b < 6 → (reads.filter fun v => v % 6 == b).length ≤ 1) ∧
  (∀ (s : State) (w : StrandId) (r : Reg),
    ((s.strand w).pend = [] → exec (.resultDelivery w r) s = .next s) ∧
    (∀ v mask, (s.strand w).pend = [⟨r, v, mask, none⟩] →
      exec (.resultDelivery w r) s = .next ((s.putReg w r v mask).onStrand w fun t => { t with pend := [] }))) ∧
  (∀ (s : State) (w : StrandId),
    let t : Strand := s.strand w
    (t.branch = none → exec (.slipwayResolve w) s = .next s) ∧
    (∀ b, t.branch = some b → t.pend = [] →
      let taken : Bool := branchTaken b.cond (t.getS b.a) (t.getS b.b)
      ∃ u, exec (.slipwayResolve w) s = .next u ∧ u.mem = s.mem ∧ (u.strand w).branch = none ∧ (u.strand w).slipway = [] ∧
        (u.strand w).pc = t.pc ∧ (taken ≠ b.taken → (u.strand w).fetched = t.fetched) ∧
        (taken = b.taken → (u.strand w).fetched =
          t.fetched ++ t.slipway.flatMap fun e => e.ir.zipIdx.map fun h => (e.pc + BitVec.ofNat 64 (2 * h.2), h.1))))

/-- 02 R47 to R49, 05 R113: repf checks its whole body, waits for the sequencer, and begins pass 0, with the body's lines filled in the cluster's cache; an instruction of a frame is followed by the next of the body, by
the next pass, or by what stands behind the body; in pass i the vector fields name the registers i strides further, the others stay.
The model's readings: repf's checks are judged before it waits for the sequencer (log 8). -/
def Obligations.RepeatForms : Prop :=
  (∀ (s : State), Settled s →
    let w : StrandId := s.cur
    let t : Strand := s.strand w
    ∀ o : Rpf,
      let body : Word := t.pc + 4
      let f : Frame := ⟨body, o.len.toNat, o.cnt.toNat, o.sd.toNat, o.sa.toNat, o.sb.toNat, 0, 0⟩
      let fetched : Except (Word × Nat) (List (List (BitVec 16))) := s.fetchBody w (o.len.toNat + 1) body
      (∀ va c, fetched = .error (va, c) → Traps s (.repf o) (fetchTrap va c)) ∧
      ∀ hss, fetched = .ok hss →
        let content : Prop := ∀ hs ∈ hss, bodyContent hs = true
        let range : Prop := ∀ hs ∈ hss, ∀ e ∈ bodyFields f hs, e.1 + o.cnt.toNat * e.2.1 ≤ e.2.2
        (¬content → Traps s (.repf o) (trapOf 10 1)) ∧ (content → ¬range → Traps s (.repf o) (trapOf 10 2)) ∧
        (content → range → s.bufferHeld w = true → Waits s (.repf o) .sequencer) ∧
        (content → range → s.bufferHeld w = false →
          Jumps s (.repf o) (plain o.sc []) ((s.bodyRead w body hss).setStrand w { t with frame := some f }) body)) ∧
  (∀ (t : Strand) (n : Nat),
    (t.frame = none → t.follow n = { t with pc := t.pc + BitVec.ofNat 64 n }) ∧
    ∀ f, t.frame = some f →
      (f.pos < f.len → t.follow n = { t with pc := t.pc + BitVec.ofNat 64 n, frame := some { f with pos := f.pos + 1 } }) ∧
      (f.len ≤ f.pos → f.pass < f.cnt → t.follow n = { t with pc := f.body, frame := some { f with pos := 0, pass := f.pass + 1 } }) ∧
      (f.len ≤ f.pos → f.cnt ≤ f.pass → t.follow n = { t with pc := t.pc + BitVec.ofNat 64 n, frame := none })) ∧
  (∀ (v : BitVec 5) (p : BitVec 4) (k : Nat),
    (v.toNat < 30 → v.toNat + k < 30 → (advV v k).toNat = v.toNat + k) ∧ (30 ≤ v.toNat → advV v k = v) ∧
    (8 ≤ p.toNat → p.toNat + k < 16 → (advP p k).toNat = p.toNat + k) ∧ (p.toNat < 8 → advP p k = p)) ∧
  (∀ (f : Frame),
    (∀ o : V2, advance f (.vadd o) = .vadd { o with d := advV o.d (f.pass * f.sd), a := advV o.a (f.pass * f.sa), b := advV o.b (f.pass * f.sb) }) ∧
    (∀ o : VF3, advance f (.vfma o) = .vfma { o with d := advV o.d (f.pass * f.sd), a := advV o.a (f.pass * f.sa), b := advV o.b (f.pass * f.sb) }) ∧
    (∀ o : VSD, advance f (.vsplat o) = .vsplat { o with d := advV o.d (f.pass * f.sd) }) ∧
    (∀ o : VC, advance f (.vclt o) = .vclt { o with a := advV o.a (f.pass * f.sa), b := advV o.b (f.pass * f.sb) }) ∧
    (∀ o : Mma, advance f (.mma o) = .mma { o with
      acc := BitVec.ofNat 2 (o.acc.toNat + f.pass * f.sd), a := advP o.a (f.pass * f.sa), b := advP o.b (f.pass * f.sb) }) ∧
    ∀ o : R3, advance f (.add o) = .add o)

/-- 02 R39, R40, 09 R176, 19 R330, 20 R359: when nothing is on the agenda, the core that acts issues its next strand; when the halfwords at that strand's pc decode to an instruction, the step is exec
of that instruction, as the strand's repeat frame has it, on the state in which the strand is current, and the slots pass as 02 R41 says (passSlot); what cannot be fetched, and what does not decode, traps. An event on
the agenda is performed as the next step, as are the dispatcher's pre-emption of a job and the word that a diverted message found no job; a device that a fatal error stopped takes none.
The model's readings: the order of the agenda and of the cores that act (log 1), and that the last two come from the agenda (log 124). -/
def Obligations.StepRunsDecoded : Prop :=
  (∀ (s : State) (core : Nat) (w : StrandId),
    s.agenda = [] → s.dead = false → s.activeCore = some core → s.nextStrand core = some w →
    let s1 : State := (s.settled' w.core).noteIssue w
    s1.atExit w = false → (s1.strand w).raft = none →
      let pc : Word := (s1.strand w).pc
      let shown (t : Out) : Out := match t with | .next u => .next (s.passSlot w ((u.noteStep w).keepOrder s w)) | r => r
      let at' (hs : List (BitVec 16)) : State := (s1.fetchRead w pc hs.length).present w hs
      (∀ hs i n, s1.fetchInstr w pc = .halves hs → breakHit (s1.strand w) = [] → decode hs = .ok i n →
        (∀ f, (s1.strand w).frame = some f →
          step s = shown (exec (advance f i) (at' hs))) ∧
        ((s1.strand w).frame = none → step s = shown (exec i (at' hs)))) ∧
      (∀ hs r, s1.fetchInstr w pc = .halves hs → breakHit (s1.strand w) = [] → decode hs = .reject r →
        step s = shown (.next ((at' hs).takeTrap w (trapOf 1 0)))) ∧
      (∀ va c, s1.fetchInstr w pc = .bad va c → breakHit (s1.strand w) = [] →
        step s = shown (.next ((s1.present w []).takeTrap w (fetchTrap va c)))) ∧
      (∀ va c, s1.fetchInstr w pc = .bad va c → breakHit (s1.strand w) ≠ [] →
        step s = shown (.next ((s1.present w []).takeTrap w { trapOf 18 1 with brk := breakHit (s1.strand w) }))) ∧
      (∀ hs, s1.fetchInstr w pc = .halves hs → breakHit (s1.strand w) ≠ [] →
        step s = shown (.next ((at' hs).takeTrap w { trapOf 18 1 with brk := breakHit (s1.strand w) })))) ∧
  (∀ (t : Strand) k, k ∈ breakHit t ↔ ∃ h : k < 4, (t.ib[k]).getLsbD 63 = true ∧ t.pc &&& ~~~(1 : Word) = t.ib[k] &&& 0xFFFFFFFFFFFFE ∧ k ∉ t.exempt) ∧
  (∀ (s : State) (i : Instr) (rest : List Move), s.agenda = .event i :: rest →
    (s.dead = false → s.powered = true → step s = exec i { s with agenda := rest }) ∧
    (s.dead = true → (Move.event i).survives = false → step s = .fault .deviceFatal)) ∧
  (∀ (s : State) (k : Nat) (rest : List Move), s.dead = false → s.powered = true →
    let s1 : State := { s with agenda := rest }
    (s.agenda = .preempt k :: rest → step s = .next (s1.preempt k)) ∧
    (s.agenda = .lost k :: rest → step s = .next (s1.lostAway k))) ∧
  (∀ (s : State) (w : StrandId) (hs : List (BitVec 16)),
    s.present w hs = { s with cur := w, ir := hs, trapped := false, failing := s.failing.map fun e => (e.1, { e.2 with done := 0 }) }) ∧
  ∀ s : State, s.agenda = [] → s.dead = true → step s = .fault .deviceFatal

/-! ### Events of the device (06, 09, 10, 13, 19, 20, 22, 24) -/

/-- 10 R186, R187, R189, R195, R197, 22 R378: a message in transit arrives in its lane, unless it does not exist, an earlier one of its flow is still on its way, or the lane is
full; one from a peer device waits behind earlier ones of its flow; one for a peer device leaves once no posted write of its sender is unacknowledged (22 R378); a landing with a fresh message and a handler starts a helper in the lowest free context with the message in its register, and one that is held or has no candidate starts
nothing; a diverted message of this device whose source core has no job at its sender's device raises the count of its die; the ferrymaster leaves deterministic crews alone, and a migration loses no message.
The model's readings: bit 0 of a handler's entry address is taken as zero (log 105); a message that a peer sends back for a job that is gone is counted there and not here, and how
the device whose count rises is told so (log 110); the messages of a pre-empted job's image as its launch is aborted (log 52). -/
def Obligations.MessageEvents : Prop :=
  ∀ (s : State),
    (∀ k, s.transit[k]? = none → exec (.messageDelivery k none) s = .next s) ∧
    (∀ k m, s.transit[k]? = some m → ((s.transit.take k).any fun x => s.sameFlow x m) = true → exec (.messageDelivery k none) s = .next s) ∧
    (∀ k m d, s.transit[k]? = some m → ((s.transit.take k).any fun x => s.sameFlow x m) = false → m.toDev = some d →
      (s.senderPosted m = true → exec (.messageDelivery k none) s = .next s) ∧
      (s.senderPosted m = false →
        exec (.messageDelivery k none) s = .next { s with transit := s.transit.eraseIdx k, departed := s.departed ++ [m] })) ∧
    (∀ k m c, s.transit[k]? = some m → ((s.transit.take k).any fun x => s.sameFlow x m) = false → s.innerDet m = false → m.toDev = none →
      let core : Nat := s.relocate m.crew m.dest
      let p : Nat := (hdrPrio m.bits).toNat
      (s.core core).crew = some c → hdrHandler m.bits ≠ 0xFFF → m.notice = none → m.diverted = none →
        ((16 ≤ ((s.core core).lane p).length ∨ s.launchWaits core m = true) → exec (.messageDelivery k none) s = .next s) ∧
        (((s.core core).lane p).length < 16 → s.launchWaits core m = false → (∀ e ∈ (s.cluster (clusterOf core)).matching, e.2.crew ≠ c) → ∃ u m1,
          exec (.messageDelivery k none) s = .next u ∧ u.transit = s.transit.eraseIdx k ∧
          (u.core core).lane p = (s.core core).lane p ++ [m1] ∧ m1.bits.extractLsb' 0 28 = m.bits.extractLsb' 0 28 ∧
          m1.bits.extractLsb' 36 476 = m.bits.extractLsb' 36 476 ∧
          (m.bound = none → m1.bits.extractLsb' 28 8 = (s.strand ⟨core, 0⟩).gen) ∧ u.mem = s.mem ∧ ∀ v, u.strand v = s.strand v)) ∧
    (∀ p : PeerMessage,
      let m : Message := fromPeer p
      (∀ r, p.diverted = some r →
        let m1 : Message := { m with srcDev := none, crew := s.returned p }
        let gone : Prop := (∀ k, m1.crew = some k → FMap.find s.saved k = none) ∧ (s.core (s.senderCore m1)).crew = none
        (gone → exec (.messageDelivery 0 (some p)) s = .next s) ∧
        (¬gone → exec (.messageDelivery 0 (some p)) s = .next (s.divert m1 r.toNat))) ∧
      (p.diverted = none → (s.transit.any fun x => s.sameFlow x m) = true →
        exec (.messageDelivery 0 (some p)) s = .next { s with transit := s.transit ++ [m] }) ∧
      (p.diverted = none → (s.transit.any fun x => s.sameFlow x m) = false →
        exec (.messageDelivery 0 (some p)) s = .next ((s.deliverMsg m).getD { s with transit := s.transit ++ [m] }))) ∧
    (let rises (u : State) (die : Nat) : Prop :=
       (u.die die).lost = (if (s.die die).lost = BitVec.allOnes 32 then (s.die die).lost else (s.die die).lost + 1) ∧
       (s.frozen = false → ∃ e ∈ (u.die die).box, e.kind = 5 ∧ e.count = (u.die die).lost)
     (∀ n, s.departed[n]? = none → s.lostAway n = s) ∧
     (∀ n m, s.departed[n]? = some m → (m.diverted = none → s.lostAway n = s) ∧
       (m.diverted ≠ none → (s.lostAway n).departed = s.departed.eraseIdx n ∧ (s.lostAway n).mem = s.mem ∧ rises (s.lostAway n) (dieOf m.dest))) ∧
     ∀ (v : Saved) k m, v.cores = [] → v.transit = [m] →
       (v.sends m = true → (s.dropImage k v).transit = s.transit ++ [m]) ∧
       (v.sends m = false → m.crew = some k → (s.dropImage k v).transit = s.transit ∧ rises (s.dropImage k v) (dieOf m.dest))) ∧
    (∀ core,
      (s.coreDet core = true → exec (.handlerStart core) s = .next s) ∧
      (s.heldCore core = true → exec (.handlerStart core) s = .next s) ∧
      ((s.core core).topCandidate = none → exec (.handlerStart core) s = .next s) ∧
      (∀ p i m ctx base, s.coreDet core = false → s.heldCore core = false → (s.core core).topCandidate = some (p, i, m) →
        s.stale core m = false →
        let h : Handler := (s.handlerRead core (hdrHandler m.bits)).handler core (hdrHandler m.bits)
        h.entry ≠ 0 → serviceOf h.entry = none → s.freeContext core = some ctx → freeRun (s.grants core) h.vregs = some base →
        ∃ u, exec (.handlerStart core) s = .next u ∧ (u.core core).lane p = ((s.core core).lane p).eraseIdx i ∧
          let y : Strand := u.strand ⟨core, ctx⟩
          y.live = true ∧ y.pl = 0 ∧ y.pc = h.entry &&& ~~~(1 : Word) ∧ y.msg = m.bits ∧ y.cls = hdrPrio m.bits ∧ y.vbase = base ∧
          y.vcount = h.vregs ∧ y.gen = (s.strand ⟨core, ctx⟩).gen + 1 ∧ y.getS 1 = m.bits.setWidth 64 ∧
          ∀ v, StrandId.key v ≠ core * 16 + ctx → u.strand v = s.strand v)) ∧
    (∀ die, (∃ u, exec (.ferrymasterScan die) s = .next u ∧ u.mem = s.mem ∧ ∀ v, u.strand v = s.strand v) ∧
      ((∀ e ∈ s.crews, e.2.det = true) → exec (.ferrymasterScan die) s = .next s)) ∧
    (∀ src dst p n, src ≠ dst → p < 4 → ((s.core dst).lane p).length ≤ 16 →
      let u : State := s.migrate src dst p n
      ((u.core src).lane p).length + ((u.core dst).lane p).length = ((s.core src).lane p).length + ((s.core dst).lane p).length ∧
      ((u.core dst).lane p).length ≤ 16 ∧ ((s.core dst).lane p).length ≤ ((u.core dst).lane p).length)

/-- 06 R115, R136, 24 R392, R393: cold reset and power removal leave the device in the state after reset; warm reset keeps the black boxes, their frozen bit and the failed
sensors, and clears SRAM; none of the three touches memory outside the device; firmware starts only from an image whose signature verifies, with its tables and its measurements in a running SHA-256 chain (the model's choice of what the chain hashes, log 90); the attestation report, signed over the digest of what stands before the signature; a wall tick; the sweep
is due every 2^46 ticks.
The model's readings: what performs an event (log 1), the values that reset leaves open (log 2), the failed sensors over a warm reset (log 28), and the firmware image's layout (log 31). -/
def Obligations.ResetEvents : Prop :=
  ∀ (s : State),
    let fresh : State := { State.reset with mem := outsideMemory s.mem, free := s.free, agenda := s.agenda, lag := s.lag }
    let clears (m : List Host.Cell) : Prop := ∀ a, Memory.read m a = if 2 ^ 62 ≤ a then Memory.read s.mem a else 0
    (Memory.wf s.mem = true → clears fresh.mem ∧ Memory.wf fresh.mem = true) ∧
    exec .coldReset s = .next fresh ∧ exec .powerRemoval s = .next { fresh with powered := false } ∧
    (s.powered = false → exec .warmReset s = .next s) ∧
    (s.powered = true → ∃ u, exec .warmReset s = .next u ∧ u.frozen = s.frozen ∧ u.wallTide = 0 ∧ u.boot = .rom ∧ u.dead = false ∧
      (∀ d, (u.die d).box = (s.die d).box ∧ (u.die d).boxNext = (s.die d).boxNext) ∧
      (∀ c, (u.cluster c).failed = (s.cluster c).failed ∧ (u.cluster c).cache = []) ∧ (∀ v, u.strand v = Strand.reset) ∧
      (∀ c, u.core c = Core.reset) ∧ u.mem = fresh.mem) ∧
    (∀ img : BootImage,
      (s.boot ≠ .rom → exec (.firmwareImage img) s = .next s) ∧
      (s.boot = .rom → Config.signatureValid img.bytes (sha256 img.bytes) = false →
        exec (.firmwareImage img) s = .next { s with boot := .refused }) ∧
      (s.boot = .rom → Config.signatureValid img.bytes (sha256 img.bytes) = true → ∃ u,
        exec (.firmwareImage img) s = .next u ∧ u.boot = .running ∧ u.fwLawtab = img.lawTab ∧ u.fwEntry = img.entry &&& ~~~(1 : Word) ∧
        u.crbase = img.crBase &&& ~~~(0xFFF : Word) ∧ u.measures.rom = Config.romDigest ∧
        u.measures.firmware = shaExtend Config.romDigest img.bytes ∧
        u.measures.runtime = shaExtend (shaExtend Config.romDigest img.bytes) img.runtime ∧ u.mem = s.mem ∧
        ∀ d, d < 4 → (u.die d).trapBase = img.trapBase.getD d 0)) ∧
    (∀ nonce, (∃ body : List Byte, body.length = 136 ∧ fieldOf body 104 32 = nonce.toNat ∧
        s.report nonce = body ++ natBytes (Config.sign (sha256 body)).toNat 384) ∧ (s.report nonce).length = 520 ∧
      exec (.attestation nonce) s = .next { s with
        reply := some (if s.boot = .running then ⟨0, s.report nonce⟩ else ⟨1, []⟩) }) ∧
    exec .wallTick s = .next (if s.powered then { s with wallTide := s.wallTide + 1 } else s) ∧
    ((s.wallTide - s.swept).toNat < 2 ^ 46 → exec .rebaseSweep s = .next s) ∧
    (2 ^ 46 ≤ (s.wallTide - s.swept).toNat → ∃ u, exec .rebaseSweep s = .next u ∧ u.swept = s.wallTide ∧
      (s.regions = [] → u = { s with swept := s.wallTide }))

/-- 22 R366, R375, R377, R378, 24 R383, R384, R388 to R391: the clock patterns, windows, sensors, errors and links of the device and the black box that logs them: a full ring drops
its oldest entry and a frozen one takes none; a window's filler keeps the fall of the draw within the slope; a sensor out of its range is deviant and a failed one is taken for its working neighbours' maximum; an error in firmware
state and a failed link stop the device; an error with a consumer aborts its launch, and its granule, of memory or of a register, fails until it is written whole: a later reader of it aborts its launch. The black-box details, an unnumbered error's entry, the granules of a cache and the sensors' grid are the model's (log 10, 26, 29, 30, 31, 92), and so are the location of a register and what tells that a page is replicated
(log 114, 123). -/
def Obligations.IntegrityEvents : Prop :=
  ∀ (s : State) (die : Nat),
    let d : Die := s.die die
    let running : Prop := s.boot = .running
    let stops (i : Instr) : Prop := ∃ u, exec i s = .next u ∧ u.dead = true ∧ u.frozen = true ∧ u.mem = s.mem
    let aborts (i : Instr) (w : StrandId) (u : State) : Prop := ∀ c, s.crewOf w.core = some c →
      ∃ frame, exec i s = .next (u.abortLaunch c.launch frame) ∧ frame.length = 128
    (∀ kind cluster count, (s.frozen = true → s.log die kind cluster count = s) ∧
      (s.frozen = false → ∃ e : BoxEntry, ((s.log die kind cluster count).die die).box =
          (if d.box.length < 4096 then d.box else d.box.drop 1) ++ [e] ∧
        e.tide = s.wallTide ∧ e.kind = BitVec.ofNat 16 kind ∧ e.cluster = BitVec.ofNat 16 cluster ∧ e.count = BitVec.ofNat 32 count ∧
        ((s.log die kind cluster count).die die).boxNext = (d.boxNext + 1) % 4096)) ∧
    (∀ cluster, exec (.swallowBoundary cluster) s =
      .next (s.setCluster cluster { s.cluster cluster with pattern := (s.core (cluster * 32)).swallow })) ∧
    (∀ drawW, s.mapsOk → ∃ u, exec (.arbiterWindow die drawW) s = .next u ∧ u.mem = s.mem ∧
      (u.die die).idleShare.isSome = true ∧ (u.die die).granted = 0 ∧ (u.die die).filled = d.draw - s.slope.toNat - d.granted ∧
      (u.die die).draw = d.granted + (u.die die).filled ∧ d.draw - s.slope.toNat ≤ (u.die die).draw ∧
      ∀ c,
        let x : Cluster := s.cluster c
        let active : Prop := c / 512 = die ∧ ((FMap.find s.clusters c).isSome = true ∨ ∃ e ∈ s.rows, e.1 / 4 = c)
        (¬active → u.cluster c = x) ∧
        (active → (u.cluster c).spent = 0 ∧ (u.cluster c).share.isSome = true ∧
          (∀ n, x.share = some n → n < x.spent → (u.cluster c).throttle = halfPattern x.throttle) ∧
          (∀ n, x.share = some n → x.spent ≤ n → (u.cluster c).throttle = doublePattern x.throttle))) ∧
    (∀ c share, s.frozen = false → ((s.windowAt c share).cluster c).throttle ≠ (s.cluster c).throttle →
      ∃ e ∈ ((s.windowAt c share).die (c / 512)).box, e.kind = 7 ∧ e.cluster = BitVec.ofNat 16 (c % 512)) ∧
    (∀ watts, (¬running → exec (.externalPowerLimit watts) s = .next { s with reply := none }) ∧
      (running → 2800 < watts → exec (.externalPowerLimit watts) s = .next { s with reply := some ⟨1, []⟩ }) ∧
      (running → watts ≤ 2800 → exec (.externalPowerLimit watts) s =
        .next { s with extLimit := if watts = 0 then none else some watts, reply := some ⟨0, []⟩ })) ∧
    (∀ cluster current,
      let failed (x : Cluster) : Bool := if current then x.failed.2 else x.failed.1
      ((failed (s.cluster cluster) = true ∨ s.deviant cluster current = false) → exec (.sensorFailure cluster current) s = .next s) ∧
      (failed (s.cluster cluster) = false → s.deviant cluster current = true → ∃ u, exec (.sensorFailure cluster current) s = .next u ∧
        failed (u.cluster cluster) = true ∧ u.mem = s.mem ∧
        (s.frozen = false → ∃ e ∈ (u.die (cluster / 512)).box, e.kind = 1 ∧ e.cluster = BitVec.ofNat 16 (cluster % 512)))) ∧
    (∀ cluster,
      let x : Cluster := s.cluster cluster
      let near : List Int := s.around cluster false
      ((x.sensors.1.reading < -40000 ∨ 150000 < x.sensors.1.reading) → s.deviant cluster false = true) ∧
      (x.failed.1 = false → s.temperature cluster = x.sensors.1.reading) ∧
      (x.failed.1 = true → near.length < 2 → s.temperature cluster = 105000) ∧
      (x.failed.1 = true → 2 ≤ near.length → ∃ m ∈ near, (∀ y ∈ near, y ≤ m) ∧ s.temperature cluster = m + 5000)) ∧
    (∀ sub,
      let hotNow : Prop := ∃ k, k / 512 = die ∧ (s.cluster k).failed.1 = sub ∧ 105000 < s.temperature k
      ((d.hot.isSome = true ∨ ¬hotNow) → exec (.thermalThrottle die sub) s = .next s) ∧
      (d.hot = none → hotNow → ∃ u, exec (.thermalThrottle die sub) s = .next u ∧ (u.die die).hot = some sub ∧
        ∀ cluster k, cluster / 512 = die → (u.clocked cluster).getLsbD k = true → k = 0 ∨ k = 8)) ∧
    (let cool : Prop := ∀ k, k / 512 = die → s.temperature k < 100000;
      ((d.hot = none ∨ ¬cool) → exec (.thermalThrottleLift die) s = .next s) ∧
      (d.hot.isSome = true → cool → ∃ u, exec (.thermalThrottleLift die) s = .next u ∧ (u.die die).hot = none)) ∧
    (let sec : Nat := s.wallTide.toNat / 20312500
     let n : Nat := if d.errors.1 = sec then d.errors.2 + 1 else 1
     ∃ u, exec (.correctableError die) s = .next u ∧ (u.die die).errors = (sec, n) ∧ u.mem = s.mem ∧
      (n ≠ 65 → (u.die die).box = d.box) ∧ (n = 65 → s.frozen = false → ∃ e ∈ (u.die die).box, e.kind = 2 ∧ e.count = 65)) ∧
    (∀ code : BitVec 8, ∀ addr : Word,
      let kept : Prop := code = 1 ∨ code = 2 ∨ code = 3
      let n : Nat := if code = 3 then 32 else 8
      let u : State := s.markFailing die code.toNat addr.toNat
      (kept → s.firmwareByte addr.toNat = true → ∀ w, stops (.uncorrectableError die code addr w)) ∧
      ((¬kept ∨ s.firmwareByte addr.toNat = false) → (∀ w, aborts (.uncorrectableError die code addr (some w)) w u) ∧
        exec (.uncorrectableError die code addr none) s = .next (u.log die 3 0xFFFF 1)) ∧
      (¬kept → u = s) ∧
      (kept → addr.toNat < 3 * 2 ^ 62 → ∀ k, addr.toNat / n * n ≤ k → k < addr.toNat / n * n + n → (u.failCode k).isSome = true)) ∧
    (∀ (w : StrandId) (n : BitVec 4) (k : BitVec 5), w.core < 65536 → w.ctx < 12 → k.toNat < 30 →
      let bad : State := s.markFailing die 1 (strandRegAddr w (4 * n.toNat)).toNat
      let worse : State := s.markFailing die 1 (coreRegAddr w.core (32 * k.toNat)).toNat
      bad.strand w = { s.strand w with fails := FMap.put (s.strand w).fails (4 * n.toNat) 1 } ∧ bad.mem = s.mem ∧
      (worse.core w.core) = { s.core w.core with fails := FMap.put (s.core w.core).fails (32 * k.toNat) 1 } ∧ worse.mem = s.mem) ∧
    (let w : StrandId := s.cur
     let t : Strand := s.strand w
     ∀ sc (n : BitVec 4) code, n ≠ 0 → t.pend = [] → t.requested = [] → t.wait = .free → (s.core w.core).fails = [] → t.fails = [(4 * n.toNat, code)] →
       (∀ body, s.issue (plain sc [.s n]) body = .next (s.takeTrap w (trapAt 0 code (strandRegAddr w (4 * n.toNat)) false))) ∧
       (∀ (m : BitVec 4) body u, m ≠ n → body s t.slot = .done u → s.issue (plain sc [.s m]) body = .next (s.retire u (plain sc [.s m]))) ∧
       ∀ x, (t.putS n x).fails = []) ∧
    (∀ a n code (bs : List Byte), s.failing = [(a, ⟨code, n, 0⟩)] → 0 < n → (∀ k, k < n → repKey (a + k) = false ∧ s.outsideKey (a + k) = a + k) →
      (bs.length = n → (s.memStore a bs).failing = []) ∧
      (bs.length < n → ∀ k, a ≤ k → k < a + n → (s.memStore a bs).failCode k = some code)) ∧
    exec (.linkRetry die) s = .next s ∧ exec (.laneRepair die) s = .next (s.log die 6 0xFFFF 1) ∧ stops (.linkFailure die) ∧
    (∀ w addr, aborts (.peerTimeout w addr) w s) ∧
    (∀ k, exec (.peerWriteAck k) s = .next { s with posted := s.posted.eraseIdx k }) ∧
    (∀ first count, (¬running → exec (.readBlackBox die first count) s = .next { s with reply := none }) ∧
      (running → (4 ≤ die ∨ 4096 ≤ first ∨ count = 0 ∨ 127 < count) →
        exec (.readBlackBox die first count) s = .next { s with reply := some ⟨1, []⟩ }) ∧
      (running → die < 4 → first < 4096 → 1 ≤ count → count ≤ 127 → ∃ bs : List Byte, bs.length = 32 + 32 * count ∧
        exec (.readBlackBox die first count) s = .next { s with reply := some ⟨0, bs⟩ } ∧
        fieldOf bs 0 2 = d.boxNext % 65536 ∧ bs.getD 2 0 = if s.frozen then 1 else 0))

/-- 09 R161, R163 to R169, R171, 22 R371 to R375, 24 R387: the dispatcher: a launch message of the host waits in the lane of its class; a launch message is refused, or enqueues a launch under the lowest free event number; a placement is
free, on the die, and of the size asked for; a ready launch with a free placement has its job bound there, on its rows and cores; a job's control strands start at the entry with the launch's arguments and the job's coordinates; a job retires only when it is
done; a head launch completes with its status, its record and its event; the management requests of streams and events.
The model's readings: a message before firmware runs is not answered (log 31), the numbers of the statuses (log 32), and status 1 for a launch message that is too short (log 52). -/
def Obligations.DispatchEvents : Prop :=
  ∀ (s : State) (die : Nat),
    let running : Prop := s.boot = .running
    let answers (i : Instr) (u : State) (status : Nat) : Prop := exec i s = .next { u with reply := some ⟨status, []⟩ }
    (nextService (s.die die).launches = none → exec (.launchMessage die none) s = .next s) ∧
    (∀ m v, nextService (s.die die).launches = some (m, v) →
      exec (.launchMessage die none) s = .next ((s.setDie die { s.die die with launches := v }).takeLaunch die m.bits m.crew)) ∧
    (∀ b : MsgBits,
      let d : Die := s.die die
      let p : Nat := (hdrPrio b).toNat
      let waiting : List Message := (d.launches[p]?).getD []
      (16 ≤ waiting.length → exec (.launchMessage die (some b)) s = .next s) ∧
      (waiting.length < 16 → exec (.launchMessage die (some b)) s =
        .next (s.setDie die { d with launches := setLane4 d.launches p (waiting ++ [hostLaunch b]) }))) ∧
    (∀ b : MsgBits,
      let stream : Nat := (b.extractLsb' 128 8).toNat
      let desc : Word := b.extractLsb' 64 64
      let r : State × Nat × Nat := s.enqueue die b
      (((hdrLen b).toNat < 40 ∨ b.extractLsb' 136 56 ≠ 0#56 ∨ desc.toNat % 64 ≠ 0 ∨ 64 ≤ stream ∨ s.streamAt die stream = none) → r = (s, 0xFFFF, 1)) ∧
      (r.2.2 = 0 → ∃ e st l, s.freeEvent die = some e ∧ s.streamAt die stream = some st ∧ r.2.1 = e ∧ FMap.find s.events e = none ∧
        FMap.find r.1.events e = some none ∧ FMap.find r.1.launches e = some l ∧ l.stream = stream ∧ l.die = die ∧ l.next = 0 ∧
        (∃ q, r.1.streamAt die stream = some q ∧ q.queue = st.queue ++ [e] ∧ q.pool = st.pool)) ∧
      (r.2.2 ≠ 0 → r.1 = s)) ∧
    (∀ busy n rows, 1 ≤ n → n ≤ 64 → findPlacement busy die n = some rows →
      rows.length = n ∧ rows.Nodup ∧ (∀ r ∈ rows, r ∉ busy ∧ r / 2048 = die) ∧ (n ≤ 4 → ∀ r ∈ rows, ∀ q ∈ rows, r / 4 = q / 4)) ∧
    (∀ (old : Strand) (l : Launch) dbg job index cores, l.args.length = 8 →
      let y : Strand := startStrand old l dbg job index cores
      y.live = true ∧ y.pl = 0 ∧ y.pc = l.entry ∧ y.gen = old.gen + 1 ∧ y.det = l.det ∧
      (∀ k, k < 8 → y.getS (BitVec.ofNat 4 (k + 1)) = l.args.getD k 0) ∧ y.getS 9 = BitVec.ofNat 64 (job % l.dimx) ∧
      y.getS 10 = BitVec.ofNat 64 (job / l.dimx % l.dimy) ∧ y.getS 11 = BitVec.ofNat 64 (job / l.dimx / l.dimy) ∧
      y.getS 12 = BitVec.ofNat 64 index ∧ y.getS 13 = BitVec.ofNat 64 cores ∧ y.getS 14 = 0xFFFFFFF004000 ∧
      y.getS 15 = 0xFFFFFFFFFFFFE) ∧
    exec (.dispatch die) s = .next (s.dispatchAll die 4096) ∧
    (∀ i st e l rows, die < 4 → i < 64 → s.saved = [] → s.streams = [(die * 64 + i, st)] → st.cls < 4 → st.queue = [e] → st.pool ≠ [] →
      FMap.find s.launches e = some l → l.die = die → l.stream = i → l.valid = true → l.status = none → l.cohort = none → l.rlog = 0 →
      l.next = 0 → l.dimx * l.dimy * l.dimz = 1 → s.launchReady l = true → s.launchSkipped l = false → 1 ≤ l.rows → l.rows ≤ 64 →
      findPlacement s.busyRows die l.rows = some rows →
      let cores : List Nat := rows.flatMap fun r => (List.range 8).map fun p => r * 8 + p
      let dbg : Vector Word 4 × Vector Word 2 := if st.debugger then (st.ib, st.dw) else (Vector.replicate 4 0, Vector.replicate 2 0)
      ∃ u c, exec (.dispatch die) s = .next u ∧ FMap.find u.crews s.jobs = some c ∧ c.rows = rows ∧ c.launch = e ∧ c.job = 0 ∧
        c.det = l.det ∧ c.root = st.root ∧ c.asid = st.asid ∧ c.save = st.pool.head? ∧ u.jobs = s.jobs + 1 ∧
        (∀ k, k ≠ s.jobs → FMap.find u.crews k = FMap.find s.crews k) ∧ FMap.find u.launches e = some { l with next := 1 } ∧
        ∀ index x, cores[index]? = some x →
          (u.core x).crew = some s.jobs ∧ (u.core x).index = index ∧
          u.strand ⟨x, 0⟩ = startStrand (s.strand ⟨x, 0⟩) l dbg 0 index cores.length ∧
          ∀ ctx, 1 ≤ ctx → ctx < 12 → (u.strand ⟨x, ctx⟩).live = false) ∧
    (s.streams = [] → (s.saved = [] ∨ ∀ e ∈ s.saved, dieOf (e.2.crew.rows.headD 0 * 8) ≠ die) → exec (.dispatch die) s = .next s) ∧
    (∀ k, (FMap.find s.crews k = none → exec (.jobRetire k) s = .next s) ∧
      (∀ c, FMap.find s.crews k = some c → s.jobDone c = false → exec (.jobRetire k) s = .next s) ∧
      (∀ c, FMap.find s.crews k = some c → s.jobDone c = true → exec (.jobRetire k) s = .next (s.retireJob k c)) ∧
      (∀ c x i, x ∈ c.cores → i < 12 → (s.strand ⟨x, i⟩).live = true → s.jobDone c = false)) ∧
    (∀ stream, (s.headOf die stream = none → exec (.launchCompletion die stream) s = .next s) ∧
      (∀ e l, s.headOf die stream = some (e, l) → s.finalStatus l = none → exec (.launchCompletion die stream) s = .next s) ∧
      (∀ e l st, s.headOf die stream = some (e, l) → s.finalStatus l = some st → ∃ u,
        exec (.launchCompletion die stream) s = .next u ∧ FMap.find u.events e = some (some st) ∧ FMap.find u.launches e = none ∧
        (∀ k, k ≠ e → FMap.find u.launches k = FMap.find s.launches k) ∧ u.crews = s.crews ∧
        (l.frame.length ≤ 128 → (s.record e st l).length = 256 ∧ ∀ k, k < 256 →
          (∀ j, j < 256 → repKey (s.crbase.toNat + e * 256 + j) = false) → Memory.read u.mem (s.crbase.toNat + e * 256 + k) = (s.record e st l).getD k 0))) ∧
    (∀ l : Launch, (l.valid = false → s.finalStatus l = some 1) ∧
      (∀ st, l.valid = true → l.status = some st → s.finalStatus l = some st) ∧
      (l.valid = true → l.status = none → l.next = 0 → s.launchReady l = false → s.finalStatus l = none) ∧
      (l.valid = true → l.status = none → l.next = 0 → s.launchReady l = true → s.launchSkipped l = true → s.finalStatus l = some 3) ∧
      (l.valid = true → l.status = none → l.next ≠ 0 →
        s.finalStatus l = if l.retired + l.killed = l.jobs then some 0 else none)) ∧
    (∀ stream cls asid root pool lstore spad,
      let i : Instr := .bindStream die stream cls asid root pool lstore spad
      (¬running → exec i s = .next { s with reply := none }) ∧
      (running → (4 ≤ die ∨ 64 ≤ stream ∨ 4 ≤ cls) → answers i s 1) ∧
      (running → die < 4 → stream < 64 → cls < 4 →
        ((s.streamAt die stream).isSome = true → answers i s 2) ∧
        (s.streamAt die stream = none → answers i (s.setStream die stream ⟨cls, asid, root, pool, lstore, spad, [], false,
          Vector.replicate 4 0, Vector.replicate 2 0⟩) 0))) ∧
    (∀ stream,
      (¬running → exec (.unbindStream die stream) s = .next { s with reply := none }) ∧
      (running → (4 ≤ die ∨ 64 ≤ stream ∨ s.streamAt die stream = none) → answers (.unbindStream die stream) s 1) ∧
      (∀ st, running → die < 4 → stream < 64 → s.streamAt die stream = some st →
        let left : State := { s with streams := FMap.del s.streams (die * 64 + stream) }
        (st.queue ≠ [] → answers (.unbindStream die stream) s 2) ∧
        (st.queue = [] → st.debugger = false → answers (.unbindStream die stream) left 0) ∧
        (st.queue = [] → st.debugger = true →
          answers (.unbindStream die stream) (left.setDie die { s.die die with signals := [] }) 0))) ∧
    (∀ first count,
      let bad : Prop := 4 ≤ die ∨ count = 0 ∨ 256 < count ∨ first < die * 16384 ∨ (die + 1) * 16384 < first + count ∨ 0xFFFF < first + count
      (¬running → exec (.releaseEvents die first count) s = .next { s with reply := none }) ∧
      (running → bad → answers (.releaseEvents die first count) s 1) ∧
      (running → ¬bad → ∃ u, exec (.releaseEvents die first count) s = .next u ∧
        (∃ n, u.reply = some ⟨0, natBytes n 2⟩ ∧ n ≤ count) ∧
        (∀ e st, first ≤ e → e < first + count → FMap.find s.events e = some (some st) → FMap.find u.events e = none) ∧
        (∀ e, (FMap.find s.events e = some none ∨ e < first ∨ first + count ≤ e) → FMap.find u.events e = FMap.find s.events e)))

/-- 13 R229, R233, 19 R334, R341, R342, R345, R348, R350, R353: an upcall strand starts at the handler of the strand that it serves; the page ferry makes an entry valid for the device, or not valid and the host's,
with every cache written back and emptied and no translation of the page left, posts the notices of the requests for it, of its move or of its refusal, and leaves a page that may not move (log 50); an evicted line's dirty bytes reach their home, those of a replicated page in the copy of each die, and a commit of a replicated line leaves them clean; timed regions may not meet (log 62); the calls of the runtime and of firmware
act only in their handlers and write s1; a pre-empted job leaves its rows and is kept once no core of it goes on, and a rebound one is back on a placement.
The model's choices: a region of length 0 is refused (log 89); a drop of translations performs every buffered byte of the address space, and which accesses of other spaces a global entry served (log 93), and it and a flip wait for chain instructions that
hold a place (log 108); when a stopped job leaves (log 96); its trap frames move with it (log 109); a line with a granule dirty in part is evicted where it would become clean (log 6). -/
def Obligations.FerryEvents : Prop :=
  ∀ (s : State),
    (∀ core, ((s.core core).upcalls = [] → exec (.upcallStart core) s = .next s) ∧
      ((s.strand ⟨core, 11⟩).live = true → exec (.upcallStart core) s = .next s) ∧
      (∀ q rest, (s.core core).upcalls = q :: rest → (s.strand ⟨core, 11⟩).live = false → q.ctx ≤ 10 → ∃ u,
        exec (.upcallStart core) s = .next u ∧ (u.core core).upcalls = rest ∧
        let t : Strand := s.strand ⟨core, q.ctx⟩
        let y : Strand := u.strand ⟨core, 11⟩
        y.live = true ∧ y.upcallFor = some q.ctx ∧ y.pl = 0 ∧ y.pc = t.upcall &&& 0xFFFFFFFFFFFFE ∧ y.cls = t.cls ∧ y.vbase = t.vbase ∧
        y.vcount = t.vcount ∧ y.getS 1 = q.addr ∧ y.getS 2 = s.boundDesc ⟨core, q.ctx⟩ ∧
        y.getS 3 = BitVec.ofNat 64 (q.request.toNat + q.cls % 256 * 2 ^ 16 + q.code % 256 * 2 ^ 24) ∧ y.getS 4 = t.pc ∧
        ∀ v, StrandId.key v ≠ core * 16 + 11 → u.strand v = s.strand v)) ∧
    (∀ root va,
      exec (.pageFlip false true root va) s = .next s ∧
      (∀ a bits, s.entryAddr va.toNat levels root.toNat = some (a, bits) →
        let e : Word := s.entryAt a
        let holds (u : State) (v : Word) : Prop := (∀ k, k < 8 → repKey (a + k) = false) → ∀ k, k < 8 → Memory.read u.mem (a + k) = BitVec.ofNat 8 (v.toNat / 256 ^ k)
        let plainAsk : Prop := ∀ r ∈ s.flips, s.asksFor root va bits r = true → s.coreDet r.who.core = false ∧ FMap.find s.saved r.crew = none
        let noticed (u : State) (refused : Bool) : Prop :=
          u.flips = s.flips.filter (fun r => !s.asksFor root va bits r) ∧
          ∀ r, s.flips = [r] → s.asksFor root va bits r = true → ∃ m, u.transit = s.transit ++ [m] ∧ m.dest = r.who.core ∧
            m.notice = some ⟨r.who.ctx, r.request, refused, r.va, r.wr⟩ ∧ hdrHandler m.bits = 0xFFD ∧ hdrPrio m.bits = r.cls ∧
            m.bits.extractLsb' 64 64 = r.va ∧ m.bits.extractLsb' 128 16 = r.request ∧
            m.bits.extractLsb' 144 8 = if refused then 1#8 else 0#8
        ((pteValid e = true ∨ pteFerry e = false) → ∀ r, exec (.pageFlip true r root va) s = .next s) ∧
        (pteValid e = false → pteFerry e = true → s.settled (frames e bits) = false → exec (.pageFlip true false root va) s = .next s) ∧
        (pteValid e = false → pteFerry e = true → s.settled (frames e bits) = true → plainAsk → ∃ u,
          exec (.pageFlip true false root va) s = .next u ∧ holds u ((e ||| (1 : Word) <<< 63) &&& ~~~((1 : Word) <<< 58)) ∧
          (∀ c, (u.cluster c).cache = []) ∧ (∀ f ∈ frames e bits, FMap.find u.sides f = some (false, s.wallTide)) ∧ noticed u false) ∧
        (pteValid e = false → pteFerry e = true → plainAsk → ∃ u,
          exec (.pageFlip true true root va) s = .next u ∧ u.mem = s.mem ∧ u.sides = s.sides ∧ noticed u true) ∧
        let waits : Bool := s.chained fun _ _ l => decide (pageKey e ≤ l.key) && decide (l.key < pageKey e + 2 ^ bits)
        ((pteValid e = false ∨ pteLeaf e = false ∨ pteTgt e ≠ 0 ∨ s.settled (frames e bits) = false ∨ waits = true) →
          exec (.pageFlip false false root va) s = .next s) ∧
        (pteValid e = true → pteLeaf e = true → pteTgt e = 0 → s.settled (frames e bits) = true → waits = false →
          (∀ x ∈ s.crews, x.2.det = false) → (∀ x ∈ s.saved, x.2.crew.det = false) → ∃ u,
          exec (.pageFlip false false root va) s = .next u ∧ holds u ((e &&& ~~~((1 : Word) <<< 63)) ||| (1 : Word) <<< 58) ∧
          (∀ c, (u.cluster c).cache = [] ∧ ∀ t ∈ (u.cluster c).tlb, va.toNat / 2 ^ t.bits ≠ t.page) ∧
          (∀ c, ∀ t ∈ (u.core c).itlb ++ (u.core c).dtlb, va.toNat / 2 ^ t.bits ≠ t.page) ∧
          (∀ f ∈ frames e bits, FMap.find u.sides f = some (true, s.wallTide) ∧ u.hostOwns f = true) ∧ u.strands = s.strands))) ∧
    (∀ cluster line,
      let c : Cluster := s.cluster cluster
      let home (u : State) : Prop :=
        (∀ x o key, FMap.find c.cache line = some x → o < 64 → x.dirty.getLsbD o = true → key ∈ homeKeys (line * 64 + o) →
          Memory.read u.mem key = x.byte o) ∧
        ∀ key, (∀ x o, FMap.find c.cache line = some x → o < 64 → x.dirty.getLsbD o = true → key ∉ homeKeys (line * 64 + o)) →
          Memory.read u.mem key = Memory.read s.mem key
      let others (u : State) : Prop := ∀ n, n ≠ line → FMap.find (u.cluster cluster).cache n = FMap.find c.cache n
      (∃ u, exec (.cacheEviction cluster line) s = .next u ∧ home u ∧ others u ∧ FMap.find (u.cluster cluster).cache line = none) ∧
      ((∀ x, FMap.find c.cache line = some x → x.rep = false) → exec (.replicaCommit cluster line) s = .next s) ∧
      (∀ x, FMap.find c.cache line = some x → x.rep = true → ∃ u, exec (.replicaCommit cluster line) s = .next u ∧ home u ∧ others u ∧
        let part : Prop := ∃ g, g < 8 ∧ x.dirty.extractLsb' (8 * g) 8 ≠ 0#8 ∧ x.dirty.extractLsb' (8 * g) 8 ≠ 0xFF#8
        (part → FMap.find (u.cluster cluster).cache line = none) ∧
        (¬part → ∃ y, FMap.find (u.cluster cluster).cache line = some y ∧ y.dirty = 0 ∧ y.data = x.data ∧ y.valid = x.valid ∧ y.rep = true))) ∧
    (∀ w,
      let t : Strand := s.strand w
      let r : Region := s.regionOf w
      let result (u : State) (v : Word) : State := u.writeNow w (.s 1) (v.setWidth 2048) (BitVec.allOnes 2048)
      (s.inCall w 0 0x010 = false → exec (.registerTimedRegion w) s = .next s) ∧
      (s.inCall w 0 0x010 = true →
        (1024 ≤ s.regions.length → exec (.registerTimedRegion w) s = .next (result s 1)) ∧
        (s.regions.length < 1024 → (r.ok = false ∨ ∃ x ∈ s.regions, s.regionsMeet r x = true) →
          exec (.registerTimedRegion w) s = .next (result s 2)) ∧
        (s.regions.length < 1024 → r.ok = true → (∀ x ∈ s.regions, s.regionsMeet r x = false) →
          exec (.registerTimedRegion w) s = .next (result { s with regions := s.regions ++ [r] } 0))) ∧
      (s.inCall w 0 0x011 = false → exec (.withdrawTimedRegion w) s = .next s) ∧
      (s.inCall w 0 0x011 = true →
        ((∀ x ∈ s.regions, s.sameBase x r = false) → exec (.withdrawTimedRegion w) s = .next (result s 2)) ∧
        (∀ x, s.regions = [x] → s.sameBase x r = true →
          exec (.withdrawTimedRegion w) s = .next (result { s with regions := [] } 0))) ∧
      (s.inCall w 1 0x800 = false → exec (.dropPageTranslations w) s = .next s) ∧
      (s.inCall w 1 0x800 = true →
        let asid : BitVec 16 := (t.getS 1).setWidth 16
        let va : Nat := (t.getS 2).toNat
        let bits : Nat := s.pageBits asid va
        let pick (c : Crew) (a : Word) (l : Loc) : Bool :=
          translatedKey l.key && a.toNat / 2 ^ bits == va / 2 ^ bits && s.servedBy asid c a
        (s.chained pick = true → exec (.dropPageTranslations w) s = .next s) ∧
        (s.chained pick = false → exec (.dropPageTranslations w) s = .next (result
          ((s.performAll pick (s.keptBy asid fun e => e.maps (BitVec.ofNat 64 va))).dropTlb
            fun e => !((e.asid == asid || pteGlobal e.entry) && e.page == va / 2 ^ e.bits)) 0))) ∧
      (s.inCall w 1 0x801 = false → exec (.dropAsidTranslations w) s = .next s) ∧
      (s.inCall w 1 0x801 = true →
        let asid : BitVec 16 := (t.getS 1).setWidth 16
        let pick (c : Crew) (a : Word) (l : Loc) : Bool := translatedKey l.key && s.servedBy asid c a
        (s.chained pick = true → exec (.dropAsidTranslations w) s = .next s) ∧
        (s.chained pick = false → exec (.dropAsidTranslations w) s = .next (result
          ((s.performAll pick (s.keptBy asid fun e => e.asid == asid)).dropTlb fun e => e.asid != asid) 0))) ∧
      (∀ pick, s.chained pick = true ↔ ∃ e ∈ s.rows, ∃ q ∈ e.2.queues.toList, ∃ i ∈ q,
        ∃ c, s.crewOf i.who.core = some c ∧ i.holds (pick c) = true) ∧
      (∀ asid c va,
        (c.asid = asid → s.servedBy asid c va = true) ∧
        ((∃ e ∈ s.translations, pteGlobal e.entry = true ∧ e.maps va = true) → s.servedBy asid c va = true) ∧
        (∀ e bits, c.asid ≠ asid → s.walk va.toNat levels c.root.toNat = .leaf e bits →
          s.servedBy asid c va = (pteGlobal e || s.translations.any fun t => pteGlobal t.entry && t.maps va))) ∧
      (∀ keep c, ((s.dropTlb keep).cluster c).tlb = (s.cluster c).tlb.filter keep ∧
        ((s.dropTlb keep).core c).itlb = (s.core c).itlb.filter keep ∧ ((s.dropTlb keep).core c).dtlb = (s.core c).dtlb.filter keep ∧
        (s.dropTlb keep).mem = s.mem) ∧
      (∀ pick byte, (∀ e ∈ s.crews, e.2.det = false) → (∀ e ∈ s.saved, e.2.crew.det = false) → s.performAll pick byte = s) ∧
      (s.inCall w 1 0x802 = false → exec (.preemptJob w) s = .next s) ∧
      (s.inCall w 1 0x802 = true →
        ((∀ e ∈ s.crews, e.2.cores.head? ≠ some (t.getS 1).toNat) → exec (.preemptJob w) s = .next (result s 1)) ∧
        (∀ k c, s.crews = [(k, c)] → c.cores.head? = some (t.getS 1).toNat →
          exec (.preemptJob w) s = .next ((result s 0).preempt k)))) ∧
    (∀ k c, FMap.find s.crews k = some c →
      s.preempt k = (s.setCrew k { c with stopping := true }).stop k ∧
      (c.stopping = false → s.stop k = s) ∧
      (c.stopping = true →
        let f : State := c.cores.foldl State.finishEntries s
        ((∀ x ∈ c.cores, (s.core x).slots = []) → f = s) ∧ (FMap.find f.crews k = none → s.stop k = f) ∧
        ∀ c', FMap.find f.crews k = some c' →
          let leaves : Prop := (∀ x ∈ c'.cores, f.coreAtRest c' x = true) ∧ (∀ r ∈ c'.rows, ∀ j ∈ (f.row r).work, j.granted = true) ∧
            ∀ p ∈ f.posted, p.launch = c'.launch → p.who.core ∉ c'.cores
          (¬leaves → s.stop k = f) ∧
          (leaves → (∀ r ∈ c'.rows, (f.row r).work = []) →
            FMap.find (s.stop k).crews k = none ∧ (∀ x ∈ c'.cores, ((s.stop k).core x).crew = none) ∧
            ∃ v, FMap.find (s.stop k).saved k = some v ∧ v.crew.rows = c'.rows ∧ v.crew.launch = c'.launch ∧ v.crew.stopping = false))) ∧
    (∀ k v rows,
      let moved : Crew := Shift.crew ⟨v.crew.rows, rows⟩ v.crew
      moved.rows = rows ∧ FMap.find (s.restore k v rows).saved k = none ∧
      ∃ c, FMap.find (s.restore k v rows).crews k = some c ∧ c = { moved with wake := c.wake, early := c.early } ∧
        ((v.trapFrames = [] ∨ moved.det = false) → c = moved)) ∧
    (∀ k, FMap.find s.saved k = none → exec (.rebind k) s = .next s) ∧
    (∀ k v, FMap.find s.saved k = some v → (s.newRows v = none ∨ ∃ rows, s.newRows v = some rows ∧ s.unitsFree v rows = false) →
      exec (.rebind k) s = .next s) ∧
    (∀ k v rows, FMap.find s.saved k = some v → s.newRows v = some rows → s.unitsFree v rows = true →
      exec (.rebind k) s = .next (s.restore k v rows))

/-- 20 R356 to R364: a debugger attaches to one stream at a time and detaches; hold and resume act on a whole crew; a step releases the strand; requests to a strand that is not
halted, is on its way to where a hold stops it, or is in its step, are refused, but a context that is not live can be read; a stepped strand reports, once its slots have passed, class 18, code 4; breakpoints are set for the stream or one core's strands; the signal ring is read oldest first and its entries removed.
The model's readings: the debugger's channel and the layout of what it reads (log 42), and a second attach (log 43). -/
def Obligations.DebugEvents : Prop :=
  ∀ (s : State),
    let replies (i : Instr) (u : State) (status : Nat) (data : List Byte) : Prop := exec i s = .next { u with reply := some ⟨status, data⟩ }
    (∀ die stream,
      (s.streamAt die stream = none → exec (.debuggerAttach die stream) s = .next s ∧ exec (.debuggerDetach die stream) s = .next s) ∧
      (∀ st, s.streamAt die stream = some st →
        ((∃ e ∈ s.streams, e.2.debugger = true) → exec (.debuggerAttach die stream) s = .next s) ∧
        ((∀ e ∈ s.streams, e.2.debugger = false) → ∃ u, exec (.debuggerAttach die stream) s = .next u ∧
          u.streamAt die stream = some { st with debugger := true } ∧ u.strands = s.strands ∧
          ∀ k c, FMap.find s.crews k = some c → FMap.find u.crews k =
            some (if c.stream = streamKey die stream then { c with debugger := true } else c)) ∧
        (st.debugger = false → exec (.debuggerDetach die stream) s = .next s) ∧
        (st.debugger = true → ∃ u, exec (.debuggerDetach die stream) s = .next u ∧
          u.streamAt die stream = some { st with debugger := false, ib := Vector.replicate 4 0, dw := Vector.replicate 2 0 } ∧
          u.mem = s.mem ∧ ((∀ e ∈ u.streams, e.1 / 64 = die → e.2.debugger = false) → (u.die die).signals = []) ∧
          (∀ k c, FMap.find s.crews k = some c → c.stream = streamKey die stream →
            FMap.find u.crews k = some { c with debugger := false, held := false }) ∧
          ∀ w c, w.ctx < 16 → s.crewOf w.core = some c → c.stream = streamKey die stream → (s.strand w).live = true →
            (u.strand w).halted = false ∧ (u.strand w).ib = Vector.replicate 4 0 ∧ (u.strand w).dw = Vector.replicate 2 0 ∧
            (u.strand w).pc = (s.strand w).pc))) ∧
    (∀ w k c, (s.core w.core).crew = some k → FMap.find s.crews k = some c →
      (c.debugger = false → replies (.yelikHold w) s 2 []) ∧
      (c.debugger = true → ∃ u, replies (.yelikHold w) u 0 [] ∧ FMap.find u.crews k = some { c with held := true } ∧
        ∀ v, v.ctx < 16 → (v.core ∈ c.cores → (s.strand v).live = true → (u.strand v).halted = true ∧ (u.strand v).pc = (s.strand v).pc) ∧
          (v.core ∉ c.cores → u.strand v = s.strand v))) ∧
    (∀ w, (s.core w.core).crew = none → replies (.yelikHold w) s 2 []) ∧
    (∀ w,
      let t : Strand := s.strand w
      let still : Prop := t.halted = true ∧ t.stepping = none ∧ s.settles w = false
      ((t.live = false ∨ ¬still) → replies (.yelikResume w) s 2 [] ∧ replies (.yelikStep w) s 2 [] ∧
        ∀ sp a d, replies (.yelikWrite w sp a d) s 2 []) ∧
      (t.live = true → ¬still → ∀ sp a n, replies (.yelikRead w sp a n) s 2 []) ∧
      ((t.live = false ∨ still) →
        (∀ sp a n, (n = 0 ∨ 4096 < n) → replies (.yelikRead w sp a n) s 1 []) ∧
        (∀ a n, 1 ≤ n → n ≤ 4096 → a.toNat < 4096 → sysAssigned (a.setWidth 12) = true → ∃ u,
          replies (.yelikRead w 1 a n) u 0 ((natBytes (s.sysRead w (a.setWidth 12)).toNat 8).take n) ∧ u.mem = s.mem)) ∧
      (t.live = true → still →
        (∀ c, s.crewOf w.core = some c → ∃ u, replies (.yelikResume w) u 0 [] ∧
          (∀ k, (s.core w.core).crew = some k → FMap.find u.crews k = some { c with held := false }) ∧
          ∀ v, v.ctx < 16 → v.core ∈ c.cores → (s.strand v).live = true → (u.strand v).halted = false) ∧
        (t.raft = none → s.coreDet w.core = false → ∃ u, replies (.yelikStep w) u 0 [] ∧
          (u.strand w).stepping = some t.pl ∧ (u.strand w).halted = true ∧ (u.strand w).pc = t.pc ∧
          ∀ v, StrandId.key v ≠ StrandId.key w → u.strand v = { s.strand v with settling := (u.strand v).settling }) ∧
        (∀ a d, 1 ≤ d.length → d.length ≤ 4096 → a.toNat < 4096 → sysAssigned (a.setWidth 12) = true →
          replies (.yelikWrite w 1 a d) (s.sysWrite w (a.setWidth 12) (BitVec.ofNat 64 (fieldOf d 0 8))) 0 []) ∧
        (∀ sp : BitVec 8, ∀ a d, (sp = 3 ∨ sp = 4 ∨ 6 ≤ sp.toNat ∨ d.length = 0 ∨ 4096 < d.length) →
          replies (.yelikWrite w sp a d) s 1 [])) ∧
      (∀ (n : BitVec 4) b u, n ≠ 0 → s.debugPut w n.toNat b = some u →
        (u.strand w).getS n = BitVec.ofNat 64 (fieldOf b 0 8) ∧ (u.strand w).requests (.s n) = false ∧ u.mem = s.mem) ∧
      ∀ b u, s.debugPut w 82 b = some u → (u.strand w).pc.getLsbD 0 = false) ∧
    (∀ w, let t : Strand := s.strand w
      (t.stepping = none → exec (.stepHalt w) s = .next s) ∧ (t.stepped = false → exec (.stepHalt w) s = .next s) ∧
      (∀ l, t.stepping = some l → l.toNat < t.pl.toNat → exec (.stepHalt w) s = .next s) ∧
      (t.hold ≠ 0 → exec (.stepHalt w) s = .next s) ∧
      (∀ l, t.stepping = some l → t.stepped = true → t.hold = 0 → t.pl.toNat ≤ l.toNat → t.wait = .free →
        (t.report (trapOf 18 4)).cls = 18 ∧ (t.report (trapOf 18 4)).code = 4 ∧
        exec (.stepHalt w) s =
          .next (s.setStrand w { t with stepping := none, stepped := false, reported := some (t.report (trapOf 18 4)) }))) ∧
    (∀ die stream core idx v,
      let i : Instr := .yelikSetBreak die stream core idx v
      (s.streamAt die stream = none → replies i s 1 []) ∧
      (∀ st, s.streamAt die stream = some st → (st.debugger = false → replies i s 2 []) ∧
        (st.debugger = true → 6 ≤ idx → replies i s 1 []) ∧
        (st.debugger = true → idx < 6 → ∃ u, replies i u 0 [] ∧ u.mem = s.mem ∧
          (core = none → u.streamAt die stream = some (st.setBreak idx v)) ∧ (core ≠ none → u.streamAt die stream = some st) ∧
          ∀ w c, w.ctx < 16 → s.crewOf w.core = some c → c.stream = streamKey die stream → (s.strand w).live = true →
            u.strand w = if core = none ∨ core = some w.core then (s.strand w).setBreak idx v else s.strand w))) ∧
    (∀ die len, ((len = 0 ∨ 4096 < len) → replies (.yelikReadSignalRing die len) s 1 []) ∧
      (1 ≤ len → len ≤ 4096 → replies (.yelikReadSignalRing die len)
        (s.setDie die { s.die die with signals := (s.die die).signals.drop (len / 24) }) 0
        (((s.die die).signals.take (len / 24)).flatMap signalBytes)))

/-- 22 R368, R374, R377, R380, R381: the requests that set a domain and define or drop a group; a contribution joins its group's instance; an instance is formed once every member has contributed and no job that contributed is off the machine (log 38), of
elements folded in ascending device number, and a mismatch gives every member status 1; a host access to memory that the host owns and a peer's access are performed at the home, and a host access to a
device page asks for the page; a byte of a replicated page is written in every copy.
The model's readings: start-up and statuses (log 31, 32), the collective engine's groups, parts and results (log 38 to 41), a peer's memory as this device's accesses find it (log 113), and what tells that a page is replicated (log 123). -/
def Obligations.PeerEvents : Prop :=
  ∀ (s : State),
    let running : Prop := s.boot = .running
    let replies (i : Instr) (u : State) (status : Nat) (data : List Byte) : Prop := exec i s = .next { u with reply := some ⟨status, data⟩ }
    (∀ dev members routes,
      let i : Instr := .setDomain dev members routes
      let fine : Prop := dev < 64 ∧ members.Nodup ∧ (∀ m ∈ members, m < 64) ∧ ∀ r ∈ routes, r.2 < 18
      (¬running → exec i s = .next { s with reply := none }) ∧ (running → ¬fine → replies i s 1 []) ∧
      (running → fine → replies i { s with domain := some ⟨dev, members, routes⟩ } 0 [])) ∧
    (∀ group members lead,
      let i : Instr := .defineGroup group members lead
      let fine : Prop := group < 64 ∧ lead < 64 ∧ members.getLsbD lead = true
      (¬running → exec i s = .next { s with reply := none }) ∧ (running → ¬fine → replies i s 1 []) ∧
      (running → fine → (FMap.find s.groups group).isSome = true → replies i s 2 []) ∧
      (running → fine → FMap.find s.groups group = none →
        replies i { s with groups := FMap.put s.groups group ⟨members, lead, [], []⟩ } 0 [])) ∧
    (∀ group, (¬running → exec (.dropGroup group) s = .next { s with reply := none }) ∧
      (running → FMap.find s.groups group = none → replies (.dropGroup group) s 1 []) ∧
      (∀ g, running → FMap.find s.groups group = some g → g.pending = [] →
        replies (.dropGroup group) { s with groups := FMap.del s.groups group } 0 []) ∧
      (∀ g, running → FMap.find s.groups group = some g → ∃ u, replies (.dropGroup group) u 0 [] ∧ FMap.find u.groups group = none)) ∧
    (∀ die, (nextService (s.die die).collectives = none → exec (.collectiveContribution die none) s = .next s) ∧
      (∀ m v, nextService (s.die die).collectives = some (m, v) → exec (.collectiveContribution die none) s =
        .next (((s.setDie die { s.die die with collectives := v }).sourceRead m).contribute (m.bits.extractLsb' 224 8).toNat (s.partOf s.ownDev m))) ∧
      (∀ p : PeerPart, p.dev = s.ownDev → exec (.collectiveContribution die (some p)) s = .next s) ∧
      (∀ p : PeerPart, p.dev ≠ s.ownDev → exec (.collectiveContribution die (some p)) s =
        .next (s.contribute p.group ⟨p.dev, p.op, p.fmt, p.len, p.data, none, none⟩))) ∧
    (∀ group (p : Part), (FMap.find s.groups group = none → s.contribute group p = s) ∧
      (∀ g, FMap.find s.groups group = some g → (g.mask.getLsbD p.dev = false → s.contribute group p = s) ∧
        (g.mask.getLsbD p.dev = true → ∃ h, s.contribute group p = { s with groups := FMap.put s.groups group h } ∧
          let k : Nat := FMap.getD g.counts p.dev 0
          FMap.find h.counts p.dev = some (k + 1) ∧ FMap.getD h.pending k [] = FMap.getD g.pending k [] ++ [p]))) ∧
    (∀ group, (FMap.find s.groups group = none → exec (.collectiveResult group) s = .next s) ∧
      (∀ g, FMap.find s.groups group = some g → (∀ e ∈ g.pending, g.complete e.2 = false) →
        exec (.collectiveResult group) s = .next s) ∧
      (∀ g k ps, FMap.find s.groups group = some g → g.pending = [(k, ps)] → (ps.any s.awayPart) = true →
        exec (.collectiveResult group) s = .next s) ∧
      (∀ g k ps, FMap.find s.groups group = some g → g.pending = [(k, ps)] → g.complete ps = true → (ps.any s.awayPart) = false → ∃ u,
        exec (.collectiveResult group) s = .next u ∧
        FMap.find u.groups group = some { g with pending := [] } ∧
        ((∀ p ∈ ps, p.local' = none) → u.mem = s.mem ∧ u.transit = s.transit))) ∧
    (∀ lead (p q : Part), p.dev < q.dev → q.dev < 64 →
      (collOk p = false → collResult lead [p, q] = .inr 1) ∧
      ((q.op ≠ p.op ∨ q.fmt ≠ p.fmt ∨ q.len ≠ p.len) → collResult lead [q, p] = .inr 1) ∧
      (collOk p = true → q.op = p.op → q.fmt = p.fmt → q.len = p.len → p.data = none → collResult lead [p, q] = .inr 3) ∧
      (∀ a b, collOk p = true → q.op = p.op → q.fmt = p.fmt → q.len = p.len → p.data = some a → q.data = some b → p.op ≠ 6 →
        let n : Nat := collWidth p.fmt
        collResult lead [q, p] = .inl ((List.range (p.len / n)).flatMap fun e =>
          natBytes (collElement p.op p.fmt [fieldOf a (e * n) n, fieldOf b (e * n) n]) n))) ∧
    (∀ acc : ExtAccess,
      let r : Nat × Nat := accessSpan acc
      let host : Prop := 2 ^ 62 ≤ r.1 ∧ r.1 + r.2 ≤ 2 ^ 63
      let owned : Prop := ∀ f ∈ framesOf r.1 r.2, s.hostOwns f = true
      (accessOk acc = false → replies (.hostAccess acc) s 1 []) ∧
      (accessOk acc = true → host → exec (.hostAccess acc) s = .next (s.perform acc)) ∧
      (accessOk acc = true → ¬host → 2 ^ 54 < r.1 + r.2 → replies (.hostAccess acc) s 1 []) ∧
      (accessOk acc = true → ¬host → r.1 + r.2 ≤ 2 ^ 54 → owned → exec (.hostAccess acc) s = .next (s.perform acc)) ∧
      (accessOk acc = true → ¬host → r.1 + r.2 ≤ 2 ^ 54 → ¬owned → ∃ l, exec (.hostAccess acc) s = .next { s with asked := l } ∧
        ∀ f, f ∈ l ↔ f ∈ s.asked ∨ f ∈ framesOf r.1 r.2 ∧ s.hostOwns f = false) ∧
      ∀ dev,
        let fine : Prop := accessOk acc = true ∧ (r.1 + r.2 ≤ 2 ^ 54 ∨ 2 ^ 63 ≤ r.1 ∧ r.1 + r.2 ≤ 2 ^ 63 + 64 * 2 ^ 52) ∧
          ∃ d, s.domain = some d ∧ dev ∈ d.members ∧ dev ≠ d.dev
        (¬fine → replies (.peerAccess dev acc) s 1 []) ∧ (fine → exec (.peerAccess dev acc) s = .next (s.perform acc))) ∧
    (∀ a n, s.perform (.load a n) = { s with reply := some ⟨0, natBytes (leNat (fun k => Memory.read s.mem (a + k)) n) n⟩ }) ∧
    (∀ a, (s.roots = [] → s.outsideKey a = a) ∧
      ∀ b, s.outsideKey a = 2 ^ 59 + a → ∀ key ∈ homeKeys (2 ^ 59 + a), Memory.read (s.perform (.store a [b])).mem key = b) ∧
    (∀ a (d : List Byte), (∀ k, k < d.length → repKey (a + k) = false ∧ s.outsideKey (a + k) = a + k) → (∀ k, k < d.length → Memory.read (s.perform (.store a d)).mem (a + k) = d.getD k 0) ∧
      ∀ k, (k < a ∨ a + d.length ≤ k) → Memory.read (s.perform (.store a d)).mem k = Memory.read s.mem k)

/-! ### Decoding and the canonical form -/

/-- 02 R29 to R39: for every well-formed instruction that has an encoding, its halfwords decode to it again, with every operand at every value; but for a lone c.vty, which may be a
prefix of what follows it, they do so whatever stands behind them. What decodes is an instruction that fails no check of R39, and the halfwords are exactly its encoding. -/
def Obligations.DecodeEncode : Prop :=
  (∀ (i : Instr), i.wf = true → encode i ≠ [] →
    decode (encode i) = .ok i (encode i).length ∧
    ((∀ o, i ≠ .cVty o) → ∀ rest, decode (encode i ++ rest) = .ok i (encode i).length)) ∧
  (∀ (hs : List (BitVec 16)) (i : Instr) (n : Nat), decode hs = .ok i n →
    i.wf = true ∧ encode i = hs.take n ∧ n ≤ hs.length ∧ 1 ≤ n ∧ n ≤ 3)

/-- 02 R29 to R39: words written out bit by bit from the tables, one of each format or more: the 32-bit majors 0 to 29, the examples that the specification prints
among them, a prefixed pair, compact forms, and words that are no instruction.
The model's readings: a lone c.vty before an instruction that takes no prefix decodes as itself (log 7). -/
def Obligations.DecodeWords : Prop :=
  let reads (hs : List (BitVec 16)) (i : Instr) : Prop := decode hs = .ok i hs.length
  let scalar : Prop :=
    reads [0b0001001100000001, 0b0000000000000010] (.add ⟨3, 1, 2, 0⟩) ∧              -- add s3, s1, s2
    reads [0b0001000100000011, 0b1111111111110000] (.addi ⟨1, 1, 0xFFF, 0⟩) ∧         -- addi s1, s1, -1
    reads [0b1111010100000101, 0b1111111111111111] (.pchi ⟨5, 0x7FFFF, 0⟩) ∧          -- pchi s5, -1
    reads [0b0010000100000111, 0b1111111111101010] (.blt ⟨1, 2, 1, 0xFFE, 0⟩) ∧       -- blt s1, s2, -2, hinted taken
    reads [0b1000111100001001, 0b0000000000000000] (.jl ⟨15, 8, 0⟩) ∧                 -- jl s15, +8
    reads [0b1111000000001011, 0b0000000000000010] (.jlrRet ⟨0, 15, 0, 0⟩) ∧          -- jlr.ret s0, s15, 0
    reads [0b0010010000001101, 0b0000000100000011] (.ldI64 ⟨4, 2, 16, 0⟩) ∧           -- ld.i64 s4, 16(s2)
    reads [0b0010001100001111, 0b0000000010000100] (.fst32 ⟨3, 2, 8, 0⟩) ∧            -- fst.32 f3, 8(s2)
    reads [0b0001001000010001, 0b1101101000000011] (.amadd ⟨2, 1, 3, 1, 3, 3, 0⟩) ∧   -- amadd, 8 bytes, acquire-release, device
    reads [0b0000000000010011, 0b0111000001000000] (.fence ⟨4, 7, 0⟩) ∧               -- fence at scope domain
    reads [0b0010000100010101, 0b0000100000000011] (.fadd ⟨1, 2, 3, 2, 0⟩)            -- fadd.bf16 f1, f2, f3
  let vector : Prop :=
    reads [0b0000000000101110, 0b0110001000010111, 0b0000000000100000]
      (.vadd ⟨some ⟨.i16, .i8⟩, 0, 0, 4, 0, 3, 2, 0⟩) ∧                               -- vadd.i16 v2, v3, v4 (R37)
    reads [0b1110000100011001, 0b0000000001101100] (.vfadd ⟨none, 0, 0, 0, 0, 13, 1, 7, 1, 0⟩) ∧  -- vfadd v1, v7^, v13 (R30)
    reads [0b1010010000011011, 0b1001001000110000] (.vfms ⟨none, 1, 0, 1, 0, 6, 0, 5, 4, 0⟩) ∧    -- vfms v4, v5, v6, p1, zo
    reads [0b0100010110001110, 0b0110001000011101, 0b0010000000001000]
      (.vcvtX ⟨some ⟨.b8 3 false false, .f32⟩, 0, 1, 0, 3, 2, 0⟩) ∧                   -- vcvt.x b8p4se to f32, part 1
    reads [0b0110001000011111, 0b1001000000000000] (.vrev ⟨none, 0, 0, 3, 2, 0⟩) ∧    -- vrev v2, v3
    reads [0b0110001000100001, 0b0001010000000000] (.vrfsum ⟨none, 2, 0, 3, 2, 0⟩) ∧  -- vrfsum v2, v3, p2
    reads [0b0000001000100011, 0b0000000000011000] (.vld ⟨none, 0, 3, 2, 0⟩) ∧        -- vld v2, (s3)
    reads [0b1010010000100101, 0b0001010000010000] (.vfmacx ⟨none, 0, 2, 0, 5, 4, 0⟩) ∧  -- vfmacx v4, v5, f2
    reads [0b0010001100100111, 0b0010000000010000] (.vclt ⟨none, 0, 0, 2, 0, 1, 3, 0⟩)   -- vclt p3, v1, v2
  let engines : Prop :=
    reads [0b0010000100101001, 0b0000000000010100] (.tst ⟨1, 2, 4, 0⟩) ∧              -- tst s1, (s2), s4
    reads [0b0110001000101011, 0b1001100000111101] (.mma ⟨9, 8, 1, 7, 1, 3, 0, 2, 0⟩) ∧  -- mma.b8p4se.bf16 a2, v16, v18, f1, q7, ac 1
    reads [0b0000000000101101, 0b0101000000110000] (.aczero ⟨5, 0⟩) ∧                 -- aczero 0b0101 (R222)
    reads [0b0000000000101111, 0b0011001000100001] (.ascore ⟨3, 2, 1, 1, 0, 0, 0⟩) ∧  -- ascore.bf16.h128 a0, s4, s6, f1 (17 R315)
    reads [0b0100000000110001, 0b0000000000000000] (.cpw ⟨4, 0, 0⟩)                   -- cpw cp.src, s4 (15 R267)
  let system : Prop :=
    reads [0b0001000000110011, 0b0000000000000010] (.msend ⟨1, 2, 0⟩) ∧               -- msend s1, s2
    reads [0b0010000100110101, 0b0000000000100000] (.raft ⟨1, 2, 0⟩) ∧                -- raft s1, s2
    reads [0b0000001100110111, 0b0000000001000000] (.trank ⟨3, 0⟩) ∧                  -- trank s3
    reads [0b0101000001111001, 0b0000000101101100] (.repf ⟨1, 1, 2, 3, 5, 1⟩) ∧       -- repf of 2 by 6 passes, sc 1
    reads [0b0010000100111011, 0b0011000000000000] (.sysr ⟨1, 0x302, 0⟩)              -- sysr s1, ctx.mbudget (R38)
  let compact : Prop :=
    reads [0b1110000111000000] (.cInc ⟨14, 0x70⟩) ∧                                   -- c.inc sp, -16 (R34)
    reads [0b0000011010010110] (.cLld ⟨4, 3⟩) ∧                                       -- c.lld s4, 3 (R34)
    reads [0b0000001001000100] (.cCp ⟨2, 1⟩) ∧                                        -- c.cp s2, s1
    reads [0b1111111111110100] (.cGo ⟨0x7FF⟩)                                         -- c.go -1
  let refused : Prop :=
    decode [0b0000000000000000] = .reject .compactForm ∧                              -- the halfword 0 (R34)
    decode [0b0000000000111101, 0b0000000000000000] = .reject .reservedMajor ∧        -- major 30
    decode [0b0000000000000001, 0b0000001001100000] = .reject .reservedFunc ∧         -- major 0, func 0x26
    decode [0b0001001100000001, 0b0000010000000010] = .reject .mustBeZero ∧           -- add with m = 1
    decode [0b0110001000011101, 0b0010000000001000] = .reject .needsType ∧            -- vcvt.x without a prefix
    decode [0b0000000000101110, 0b0001001100000001, 0b0000000000000010] = .ok (.cVty ⟨1, 0⟩) 1 ∧  -- a prefix before add stands alone
    decode [0b0010000100101001, 0b0000000000010011] = .reject .oddPair ∧              -- tst with an odd s register pair
    decode [0b0000000000000001] = .reject .truncated                                  -- half of a 32-bit instruction
  scalar ∧ vector ∧ engines ∧ system ∧ compact ∧ refused

/-! ### Invariants -/

/-- Log entry 2: memory keeps its canonical form across every step, of whatever instruction, event or move of the device, from every state, reachable or not. -/
def Obligations.MemoryCanonicalKept : Prop :=
  ∀ (s t : State), s.memOk → step s = .next t → t.memOk

/-- 24 R386, R392, 01 R16, R24, R25: what reset leaves: every register, cursor and accumulator is zero but for the fixed values of p0 and q7, the system registers have their
reset values, no strand is live, SRAM is clear, and the boot ROM waits. The model's choices: no crew, launch or message exists, every unlisted byte reads 0 (log entry 2), and with nothing
on the agenda a step changes nothing (log entry 1). -/
def Obligations.ResetState : Prop :=
  let s : State := State.reset
  (∀ w n, (s.strand w).getS n = 0) ∧ (∀ w n, (s.strand w).getF n = 0) ∧
  (∀ w n, (s.strand w).getP n = if n = 0 then BitVec.allOnes 256 else 0) ∧
  (∀ w n, (s.strand w).getQ n = (if n = 7 then BitVec.allOnes 64 else 0) ∧ (s.strand w).getCursor n = 0) ∧
  (∀ w, (s.strand w).live = false ∧ (s.strand w).oob = 0 ∧ (s.strand w).oobpc = 0 ∧ (s.strand w).upcall = 0 ∧ (s.strand w).mbudget = 0 ∧
    (s.strand w).pl = 2 ∧ (s.strand w).rm = 0 ∧ (s.strand w).chk = false ∧ (s.strand w).det = false ∧
    (s.strand w).vbase = 0 ∧ (s.strand w).vcount = 30 ∧ (s.strand w).fails = []) ∧
  (∀ w, s.sysRead w 0x000 = 0x200 ∧ s.sysRead w 0x001 = 0 ∧ s.sysRead w 0x002 = 0 ∧ s.sysRead w 0x301 = 30) ∧
  (∀ c n, (s.core c).getV n = 0) ∧ (∀ c n, (s.core c).getAcc n = 0) ∧
  (∀ c, (s.core c).swallow = 0xFFFF ∧ (s.core c).spBase = 0 ∧ (s.core c).spLen = 256 ∧ (s.core c).peermask = BitVec.allOnes 32 ∧
    (s.core c).fails = []) ∧
  s.plimit = 2800 ∧ s.slope = 0x08000000 ∧ s.crbase = 0 ∧ s.fwEntry = 0 ∧ s.fwLawtab = 0 ∧ s.frozen = false ∧
  (∀ d, (s.die d).trapBase = 0 ∧ (s.die d).box = []) ∧ s.wallTide = 0 ∧ s.boot = .rom ∧
  s.memOk ∧ s.mapsOk ∧ (∀ a, Memory.read s.mem a = 0) ∧ (∀ c, (s.core c).crew = none) ∧ s.launches = [] ∧ s.transit = [] ∧
  step s = .next s

end
end

