-- ==== Sys2Proof/Laws/Exec.lean ====
section
/-!
SUPPORT. Each instruction runs its own meaning.
-/
namespace Sys2Proof.Machine
open Sys2Proof

theorem exec_coldReset (s : State) : exec .coldReset s = execColdReset s := rfl
theorem exec_warmReset (s : State) : exec .warmReset s = execWarmReset s := rfl
theorem exec_firmwareImage (s : State) : ∀ img, exec (.firmwareImage img) s = execFirmwareImage img s := fun _ => rfl
theorem exec_wallTick (s : State) : exec .wallTick s = execWallTick s := rfl
theorem exec_quantumEnd (s : State) : ∀ crew, exec (.quantumEnd crew) s = execQuantumEnd crew s := fun _ => rfl
theorem exec_rebaseSweep (s : State) : exec .rebaseSweep s = execRebaseSweep s := rfl
theorem exec_ferrymasterScan (s : State) : ∀ die, exec (.ferrymasterScan die) s = execFerrymasterScan die s := fun _ => rfl
theorem exec_arbiterWindow (s : State) : ∀ die drawW, exec (.arbiterWindow die drawW) s = execArbiterWindow die drawW s := fun _ _ => rfl
theorem exec_swallowBoundary (s : State) : ∀ cluster, exec (.swallowBoundary cluster) s = execSwallowBoundary cluster s := fun _ => rfl
theorem exec_sensorFailure (s : State) : ∀ cluster current, exec (.sensorFailure cluster current) s = execSensorFailure cluster current s := fun _ _ => rfl
theorem exec_thermalThrottle (s : State) : ∀ die substituted, exec (.thermalThrottle die substituted) s = execThermalThrottle die substituted s := fun _ _ => rfl
theorem exec_correctableError (s : State) : ∀ die, exec (.correctableError die) s = execCorrectableError die s := fun _ => rfl
theorem exec_uncorrectableError (s : State) : ∀ die code addr consumer, exec (.uncorrectableError die code addr consumer) s = execUncorrectableError die code addr consumer s := fun _ _ _ _ => rfl
theorem exec_linkRetry (s : State) : ∀ die, exec (.linkRetry die) s = execLinkRetry die s := fun _ => rfl
theorem exec_laneRepair (s : State) : ∀ die, exec (.laneRepair die) s = execLaneRepair die s := fun _ => rfl
theorem exec_linkFailure (s : State) : ∀ die, exec (.linkFailure die) s = execLinkFailure die s := fun _ => rfl
theorem exec_peerTimeout (s : State) : ∀ who addr, exec (.peerTimeout who addr) s = execPeerTimeout who addr s := fun _ _ => rfl
theorem exec_peerWriteAck (s : State) : ∀ k, exec (.peerWriteAck k) s = execPeerWriteAck k s := fun _ => rfl
theorem exec_messageDelivery (s : State) : ∀ k peer, exec (.messageDelivery k peer) s = execMessageDelivery k peer s := fun _ _ => rfl
theorem exec_handlerStart (s : State) : ∀ core, exec (.handlerStart core) s = execHandlerStart core s := fun _ => rfl
theorem exec_transferCompletion (s : State) : ∀ core slot, exec (.transferCompletion core slot) s = execTransferCompletion core slot s := fun _ _ => rfl
theorem exec_copyRingReserve (s : State) : ∀ core slot, exec (.copyRingReserve core slot) s = execCopyRingReserve core slot s := fun _ _ => rfl
theorem exec_streamFill (s : State) : ∀ core k, exec (.streamFill core k) s = execStreamFill core k s := fun _ _ => rfl
theorem exec_chainJoin (s : State) : ∀ row, exec (.chainJoin row) s = execChainJoin row s := fun _ => rfl
theorem exec_budgetGrant (s : State) : ∀ cluster, exec (.budgetGrant cluster) s = execBudgetGrant cluster s := fun _ => rfl
theorem exec_mmaDelivery (s : State) : ∀ row, exec (.mmaDelivery row) s = execMmaDelivery row s := fun _ => rfl
theorem exec_resultDelivery (s : State) : ∀ who reg, exec (.resultDelivery who reg) s = execResultDelivery who reg s := fun _ _ => rfl
theorem exec_slipwayResolve (s : State) : ∀ who, exec (.slipwayResolve who) s = execSlipwayResolve who s := fun _ => rfl
theorem exec_launchMessage (s : State) : ∀ die host, exec (.launchMessage die host) s = execLaunchMessage die host s := fun _ _ => rfl
theorem exec_dispatch (s : State) : ∀ die, exec (.dispatch die) s = execDispatch die s := fun _ => rfl
theorem exec_jobRetire (s : State) : ∀ crew, exec (.jobRetire crew) s = execJobRetire crew s := fun _ => rfl
theorem exec_launchCompletion (s : State) : ∀ die stream, exec (.launchCompletion die stream) s = execLaunchCompletion die stream s := fun _ _ => rfl
theorem exec_stepHalt (s : State) : ∀ who, exec (.stepHalt who) s = execStepHalt who s := fun _ => rfl
theorem exec_upcallStart (s : State) : ∀ core, exec (.upcallStart core) s = execUpcallStart core s := fun _ => rfl
theorem exec_pageFlip (s : State) : ∀ toDevice refused root va, exec (.pageFlip toDevice refused root va) s = execPageFlip toDevice refused root va s := fun _ _ _ _ => rfl
theorem exec_replicaCommit (s : State) : ∀ cluster line, exec (.replicaCommit cluster line) s = execReplicaCommit cluster line s := fun _ _ => rfl
theorem exec_cacheEviction (s : State) : ∀ cluster line, exec (.cacheEviction cluster line) s = execCacheEviction cluster line s := fun _ _ => rfl
theorem exec_registerTimedRegion (s : State) : ∀ who, exec (.registerTimedRegion who) s = execRegisterTimedRegion who s := fun _ => rfl
theorem exec_withdrawTimedRegion (s : State) : ∀ who, exec (.withdrawTimedRegion who) s = execWithdrawTimedRegion who s := fun _ => rfl
theorem exec_dropPageTranslations (s : State) : ∀ who, exec (.dropPageTranslations who) s = execDropPageTranslations who s := fun _ => rfl
theorem exec_dropAsidTranslations (s : State) : ∀ who, exec (.dropAsidTranslations who) s = execDropAsidTranslations who s := fun _ => rfl
theorem exec_preemptJob (s : State) : ∀ who, exec (.preemptJob who) s = execPreemptJob who s := fun _ => rfl
theorem exec_rebind (s : State) : ∀ crew, exec (.rebind crew) s = execRebind crew s := fun _ => rfl
theorem exec_bindStream (s : State) : ∀ die stream cls asid root pool lstore spad, exec (.bindStream die stream cls asid root pool lstore spad) s = execBindStream die stream cls asid root pool lstore spad s := fun _ _ _ _ _ _ _ _ => rfl
theorem exec_unbindStream (s : State) : ∀ die stream, exec (.unbindStream die stream) s = execUnbindStream die stream s := fun _ _ => rfl
theorem exec_setDomain (s : State) : ∀ dev members routes, exec (.setDomain dev members routes) s = execSetDomain dev members routes s := fun _ _ _ => rfl
theorem exec_defineGroup (s : State) : ∀ group members lead, exec (.defineGroup group members lead) s = execDefineGroup group members lead s := fun _ _ _ => rfl
theorem exec_dropGroup (s : State) : ∀ group, exec (.dropGroup group) s = execDropGroup group s := fun _ => rfl
theorem exec_readBlackBox (s : State) : ∀ die first count, exec (.readBlackBox die first count) s = execReadBlackBox die first count s := fun _ _ _ => rfl
theorem exec_externalPowerLimit (s : State) : ∀ watts, exec (.externalPowerLimit watts) s = execExternalPowerLimit watts s := fun _ => rfl
theorem exec_attestation (s : State) : ∀ nonce, exec (.attestation nonce) s = execAttestation nonce s := fun _ => rfl
theorem exec_releaseEvents (s : State) : ∀ die first count, exec (.releaseEvents die first count) s = execReleaseEvents die first count s := fun _ _ _ => rfl
theorem exec_yelikHold (s : State) : ∀ who, exec (.yelikHold who) s = execYelikHold who s := fun _ => rfl
theorem exec_yelikResume (s : State) : ∀ who, exec (.yelikResume who) s = execYelikResume who s := fun _ => rfl
theorem exec_yelikStep (s : State) : ∀ who, exec (.yelikStep who) s = execYelikStep who s := fun _ => rfl
theorem exec_yelikRead (s : State) : ∀ who space addr len, exec (.yelikRead who space addr len) s = execYelikRead who space addr len s := fun _ _ _ _ => rfl
theorem exec_yelikWrite (s : State) : ∀ who space addr data, exec (.yelikWrite who space addr data) s = execYelikWrite who space addr data s := fun _ _ _ _ => rfl
theorem exec_yelikSetBreak (s : State) : ∀ die stream core idx value, exec (.yelikSetBreak die stream core idx value) s = execYelikSetBreak die stream core idx value s := fun _ _ _ _ _ => rfl
theorem exec_yelikReadSignalRing (s : State) : ∀ die len, exec (.yelikReadSignalRing die len) s = execYelikReadSignalRing die len s := fun _ _ => rfl
theorem exec_debuggerAttach (s : State) : ∀ die stream, exec (.debuggerAttach die stream) s = execDebuggerAttach die stream s := fun _ _ => rfl
theorem exec_debuggerDetach (s : State) : ∀ die stream, exec (.debuggerDetach die stream) s = execDebuggerDetach die stream s := fun _ _ => rfl
theorem exec_collectiveContribution (s : State) : ∀ die peer, exec (.collectiveContribution die peer) s = execCollectiveContribution die peer s := fun _ _ => rfl
theorem exec_collectiveResult (s : State) : ∀ group, exec (.collectiveResult group) s = execCollectiveResult group s := fun _ => rfl
theorem exec_ctxOobWrite (s : State) : ∀ v, exec (.ctxOobWrite v) s = execCtxOobWrite v s := fun _ => rfl
theorem exec_ctxModeWrite (s : State) : ∀ v, exec (.ctxModeWrite v) s = execCtxModeWrite v s := fun _ => rfl
theorem exec_coreSwallowWrite (s : State) : ∀ v, exec (.coreSwallowWrite v) s = execCoreSwallowWrite v s := fun _ => rfl
theorem exec_crewQuantumWrite (s : State) : ∀ v, exec (.crewQuantumWrite v) s = execCrewQuantumWrite v s := fun _ => rfl
theorem exec_devPlimitWrite (s : State) : ∀ v, exec (.devPlimitWrite v) s = execDevPlimitWrite v s := fun _ => rfl
theorem exec_devCrbaseWrite (s : State) : ∀ v, exec (.devCrbaseWrite v) s = execDevCrbaseWrite v s := fun _ => rfl
theorem exec_fwBboxClear (s : State) : exec .fwBboxClear s = execFwBboxClear s := rfl
theorem exec_add (s : State) : ∀ o, exec (.add o) s = execAdd o s := fun _ => rfl
theorem exec_sub (s : State) : ∀ o, exec (.sub o) s = execSub o s := fun _ => rfl
theorem exec_and (s : State) : ∀ o, exec (.and o) s = execAnd o s := fun _ => rfl
theorem exec_or (s : State) : ∀ o, exec (.or o) s = execOr o s := fun _ => rfl
theorem exec_xor (s : State) : ∀ o, exec (.xor o) s = execXor o s := fun _ => rfl
theorem exec_sll (s : State) : ∀ o, exec (.sll o) s = execSll o s := fun _ => rfl
theorem exec_srl (s : State) : ∀ o, exec (.srl o) s = execSrl o s := fun _ => rfl
theorem exec_sra (s : State) : ∀ o, exec (.sra o) s = execSra o s := fun _ => rfl
theorem exec_slt (s : State) : ∀ o, exec (.slt o) s = execSlt o s := fun _ => rfl
theorem exec_sltw (s : State) : ∀ o, exec (.sltw o) s = execSltw o s := fun _ => rfl
theorem exec_seq (s : State) : ∀ o, exec (.seq o) s = execSeq o s := fun _ => rfl
theorem exec_sne (s : State) : ∀ o, exec (.sne o) s = execSne o s := fun _ => rfl
theorem exec_min (s : State) : ∀ o, exec (.min o) s = execMin o s := fun _ => rfl
theorem exec_max (s : State) : ∀ o, exec (.max o) s = execMax o s := fun _ => rfl
theorem exec_minw (s : State) : ∀ o, exec (.minw o) s = execMinw o s := fun _ => rfl
theorem exec_maxw (s : State) : ∀ o, exec (.maxw o) s = execMaxw o s := fun _ => rfl
theorem exec_mul (s : State) : ∀ o, exec (.mul o) s = execMul o s := fun _ => rfl
theorem exec_mulh (s : State) : ∀ o, exec (.mulh o) s = execMulh o s := fun _ => rfl
theorem exec_mulhw (s : State) : ∀ o, exec (.mulhw o) s = execMulhw o s := fun _ => rfl
theorem exec_div (s : State) : ∀ o, exec (.div o) s = execDiv o s := fun _ => rfl
theorem exec_divw (s : State) : ∀ o, exec (.divw o) s = execDivw o s := fun _ => rfl
theorem exec_rem (s : State) : ∀ o, exec (.rem o) s = execRem o s := fun _ => rfl
theorem exec_remw (s : State) : ∀ o, exec (.remw o) s = execRemw o s := fun _ => rfl
theorem exec_adds (s : State) : ∀ o, exec (.adds o) s = execAdds o s := fun _ => rfl
theorem exec_subs (s : State) : ∀ o, exec (.subs o) s = execSubs o s := fun _ => rfl
theorem exec_addsw (s : State) : ∀ o, exec (.addsw o) s = execAddsw o s := fun _ => rfl
theorem exec_subsw (s : State) : ∀ o, exec (.subsw o) s = execSubsw o s := fun _ => rfl
theorem exec_add32 (s : State) : ∀ o, exec (.add32 o) s = execAdd32 o s := fun _ => rfl
theorem exec_sub32 (s : State) : ∀ o, exec (.sub32 o) s = execSub32 o s := fun _ => rfl
theorem exec_sll32 (s : State) : ∀ o, exec (.sll32 o) s = execSll32 o s := fun _ => rfl
theorem exec_srl32 (s : State) : ∀ o, exec (.srl32 o) s = execSrl32 o s := fun _ => rfl
theorem exec_sra32 (s : State) : ∀ o, exec (.sra32 o) s = execSra32 o s := fun _ => rfl
theorem exec_mul32 (s : State) : ∀ o, exec (.mul32 o) s = execMul32 o s := fun _ => rfl
theorem exec_clz (s : State) : ∀ o, exec (.clz o) s = execClz o s := fun _ => rfl
theorem exec_ctz (s : State) : ∀ o, exec (.ctz o) s = execCtz o s := fun _ => rfl
theorem exec_popc (s : State) : ∀ o, exec (.popc o) s = execPopc o s := fun _ => rfl
theorem exec_rol (s : State) : ∀ o, exec (.rol o) s = execRol o s := fun _ => rfl
theorem exec_ror (s : State) : ∀ o, exec (.ror o) s = execRor o s := fun _ => rfl
theorem exec_addi (s : State) : ∀ o, exec (.addi o) s = execAddi o s := fun _ => rfl
theorem exec_andi (s : State) : ∀ o, exec (.andi o) s = execAndi o s := fun _ => rfl
theorem exec_ori (s : State) : ∀ o, exec (.ori o) s = execOri o s := fun _ => rfl
theorem exec_xori (s : State) : ∀ o, exec (.xori o) s = execXori o s := fun _ => rfl
theorem exec_slli (s : State) : ∀ o, exec (.slli o) s = execSlli o s := fun _ => rfl
theorem exec_srli (s : State) : ∀ o, exec (.srli o) s = execSrli o s := fun _ => rfl
theorem exec_srai (s : State) : ∀ o, exec (.srai o) s = execSrai o s := fun _ => rfl
theorem exec_slti (s : State) : ∀ o, exec (.slti o) s = execSlti o s := fun _ => rfl
theorem exec_sltwi (s : State) : ∀ o, exec (.sltwi o) s = execSltwi o s := fun _ => rfl
theorem exec_seqi (s : State) : ∀ o, exec (.seqi o) s = execSeqi o s := fun _ => rfl
theorem exec_addi32 (s : State) : ∀ o, exec (.addi32 o) s = execAddi32 o s := fun _ => rfl
theorem exec_slli32 (s : State) : ∀ o, exec (.slli32 o) s = execSlli32 o s := fun _ => rfl
theorem exec_srli32 (s : State) : ∀ o, exec (.srli32 o) s = execSrli32 o s := fun _ => rfl
theorem exec_srai32 (s : State) : ∀ o, exec (.srai32 o) s = execSrai32 o s := fun _ => rfl
theorem exec_lhi (s : State) : ∀ o, exec (.lhi o) s = execLhi o s := fun _ => rfl
theorem exec_pchi (s : State) : ∀ o, exec (.pchi o) s = execPchi o s := fun _ => rfl
theorem exec_beq (s : State) : ∀ o, exec (.beq o) s = execBeq o s := fun _ => rfl
theorem exec_bne (s : State) : ∀ o, exec (.bne o) s = execBne o s := fun _ => rfl
theorem exec_blt (s : State) : ∀ o, exec (.blt o) s = execBlt o s := fun _ => rfl
theorem exec_bge (s : State) : ∀ o, exec (.bge o) s = execBge o s := fun _ => rfl
theorem exec_bltw (s : State) : ∀ o, exec (.bltw o) s = execBltw o s := fun _ => rfl
theorem exec_bgew (s : State) : ∀ o, exec (.bgew o) s = execBgew o s := fun _ => rfl
theorem exec_banz (s : State) : ∀ o, exec (.banz o) s = execBanz o s := fun _ => rfl
theorem exec_baz (s : State) : ∀ o, exec (.baz o) s = execBaz o s := fun _ => rfl
theorem exec_jl (s : State) : ∀ o, exec (.jl o) s = execJl o s := fun _ => rfl
theorem exec_jlr (s : State) : ∀ o, exec (.jlr o) s = execJlr o s := fun _ => rfl
theorem exec_jlrCall (s : State) : ∀ o, exec (.jlrCall o) s = execJlrCall o s := fun _ => rfl
theorem exec_jlrRet (s : State) : ∀ o, exec (.jlrRet o) s = execJlrRet o s := fun _ => rfl
theorem exec_ldI8 (s : State) : ∀ o, exec (.ldI8 o) s = execLdI8 o s := fun _ => rfl
theorem exec_ldI16 (s : State) : ∀ o, exec (.ldI16 o) s = execLdI16 o s := fun _ => rfl
theorem exec_ldI32 (s : State) : ∀ o, exec (.ldI32 o) s = execLdI32 o s := fun _ => rfl
theorem exec_ldI64 (s : State) : ∀ o, exec (.ldI64 o) s = execLdI64 o s := fun _ => rfl
theorem exec_ldW8 (s : State) : ∀ o, exec (.ldW8 o) s = execLdW8 o s := fun _ => rfl
theorem exec_ldW16 (s : State) : ∀ o, exec (.ldW16 o) s = execLdW16 o s := fun _ => rfl
theorem exec_ldW32 (s : State) : ∀ o, exec (.ldW32 o) s = execLdW32 o s := fun _ => rfl
theorem exec_fldF32 (s : State) : ∀ o, exec (.fldF32 o) s = execFldF32 o s := fun _ => rfl
theorem exec_fldH16 (s : State) : ∀ o, exec (.fldH16 o) s = execFldH16 o s := fun _ => rfl
theorem exec_fldBf16 (s : State) : ∀ o, exec (.fldBf16 o) s = execFldBf16 o s := fun _ => rfl
theorem exec_fld64 (s : State) : ∀ o, exec (.fld64 o) s = execFld64 o s := fun _ => rfl
theorem exec_st8 (s : State) : ∀ o, exec (.st8 o) s = execSt8 o s := fun _ => rfl
theorem exec_st16 (s : State) : ∀ o, exec (.st16 o) s = execSt16 o s := fun _ => rfl
theorem exec_st32 (s : State) : ∀ o, exec (.st32 o) s = execSt32 o s := fun _ => rfl
theorem exec_st64 (s : State) : ∀ o, exec (.st64 o) s = execSt64 o s := fun _ => rfl
theorem exec_fst32 (s : State) : ∀ o, exec (.fst32 o) s = execFst32 o s := fun _ => rfl
theorem exec_fst16 (s : State) : ∀ o, exec (.fst16 o) s = execFst16 o s := fun _ => rfl
theorem exec_fst64 (s : State) : ∀ o, exec (.fst64 o) s = execFst64 o s := fun _ => rfl
theorem exec_amadd (s : State) : ∀ o, exec (.amadd o) s = execAmadd o s := fun _ => rfl
theorem exec_amand (s : State) : ∀ o, exec (.amand o) s = execAmand o s := fun _ => rfl
theorem exec_amor (s : State) : ∀ o, exec (.amor o) s = execAmor o s := fun _ => rfl
theorem exec_amxor (s : State) : ∀ o, exec (.amxor o) s = execAmxor o s := fun _ => rfl
theorem exec_ammin (s : State) : ∀ o, exec (.ammin o) s = execAmmin o s := fun _ => rfl
theorem exec_ammax (s : State) : ∀ o, exec (.ammax o) s = execAmmax o s := fun _ => rfl
theorem exec_amminw (s : State) : ∀ o, exec (.amminw o) s = execAmminw o s := fun _ => rfl
theorem exec_ammaxw (s : State) : ∀ o, exec (.ammaxw o) s = execAmmaxw o s := fun _ => rfl
theorem exec_amswap (s : State) : ∀ o, exec (.amswap o) s = execAmswap o s := fun _ => rfl
theorem exec_amcas (s : State) : ∀ o, exec (.amcas o) s = execAmcas o s := fun _ => rfl
theorem exec_ldo (s : State) : ∀ o, exec (.ldo o) s = execLdo o s := fun _ => rfl
theorem exec_sto (s : State) : ∀ o, exec (.sto o) s = execSto o s := fun _ => rfl
theorem exec_fence (s : State) : ∀ o, exec (.fence o) s = execFence o s := fun _ => rfl
theorem exec_ifence (s : State) : ∀ o, exec (.ifence o) s = execIfence o s := fun _ => rfl
theorem exec_fadd (s : State) : ∀ o, exec (.fadd o) s = execFadd o s := fun _ => rfl
theorem exec_fsub (s : State) : ∀ o, exec (.fsub o) s = execFsub o s := fun _ => rfl
theorem exec_fmul (s : State) : ∀ o, exec (.fmul o) s = execFmul o s := fun _ => rfl
theorem exec_fdiv (s : State) : ∀ o, exec (.fdiv o) s = execFdiv o s := fun _ => rfl
theorem exec_fsqrt (s : State) : ∀ o, exec (.fsqrt o) s = execFsqrt o s := fun _ => rfl
theorem exec_fmin (s : State) : ∀ o, exec (.fmin o) s = execFmin o s := fun _ => rfl
theorem exec_fmax (s : State) : ∀ o, exec (.fmax o) s = execFmax o s := fun _ => rfl
theorem exec_fma (s : State) : ∀ o, exec (.fma o) s = execFma o s := fun _ => rfl
theorem exec_fneg (s : State) : ∀ o, exec (.fneg o) s = execFneg o s := fun _ => rfl
theorem exec_fabs (s : State) : ∀ o, exec (.fabs o) s = execFabs o s := fun _ => rfl
theorem exec_fceq (s : State) : ∀ o, exec (.fceq o) s = execFceq o s := fun _ => rfl
theorem exec_fclt (s : State) : ∀ o, exec (.fclt o) s = execFclt o s := fun _ => rfl
theorem exec_fcle (s : State) : ∀ o, exec (.fcle o) s = execFcle o s := fun _ => rfl
theorem exec_fcvti (s : State) : ∀ o, exec (.fcvti o) s = execFcvti o s := fun _ => rfl
theorem exec_fcvtf (s : State) : ∀ o, exec (.fcvtf o) s = execFcvtf o s := fun _ => rfl
theorem exec_fcvt (s : State) : ∀ o, exec (.fcvt o) s = execFcvt o s := fun _ => rfl
theorem exec_fmvs (s : State) : ∀ o, exec (.fmvs o) s = execFmvs o s := fun _ => rfl
theorem exec_fmvf (s : State) : ∀ o, exec (.fmvf o) s = execFmvf o s := fun _ => rfl
theorem exec_vadd (s : State) : ∀ o, exec (.vadd o) s = execVadd o s := fun _ => rfl
theorem exec_vsub (s : State) : ∀ o, exec (.vsub o) s = execVsub o s := fun _ => rfl
theorem exec_vmul (s : State) : ∀ o, exec (.vmul o) s = execVmul o s := fun _ => rfl
theorem exec_vmulh (s : State) : ∀ o, exec (.vmulh o) s = execVmulh o s := fun _ => rfl
theorem exec_vmin (s : State) : ∀ o, exec (.vmin o) s = execVmin o s := fun _ => rfl
theorem exec_vmax (s : State) : ∀ o, exec (.vmax o) s = execVmax o s := fun _ => rfl
theorem exec_vand (s : State) : ∀ o, exec (.vand o) s = execVand o s := fun _ => rfl
theorem exec_vor (s : State) : ∀ o, exec (.vor o) s = execVor o s := fun _ => rfl
theorem exec_vxor (s : State) : ∀ o, exec (.vxor o) s = execVxor o s := fun _ => rfl
theorem exec_vsll (s : State) : ∀ o, exec (.vsll o) s = execVsll o s := fun _ => rfl
theorem exec_vsrl (s : State) : ∀ o, exec (.vsrl o) s = execVsrl o s := fun _ => rfl
theorem exec_vsra (s : State) : ∀ o, exec (.vsra o) s = execVsra o s := fun _ => rfl
theorem exec_vadds (s : State) : ∀ o, exec (.vadds o) s = execVadds o s := fun _ => rfl
theorem exec_vsubs (s : State) : ∀ o, exec (.vsubs o) s = execVsubs o s := fun _ => rfl
theorem exec_vabs (s : State) : ∀ o, exec (.vabs o) s = execVabs o s := fun _ => rfl
theorem exec_vandn (s : State) : ∀ o, exec (.vandn o) s = execVandn o s := fun _ => rfl
theorem exec_vfadd (s : State) : ∀ o, exec (.vfadd o) s = execVfadd o s := fun _ => rfl
theorem exec_vfsub (s : State) : ∀ o, exec (.vfsub o) s = execVfsub o s := fun _ => rfl
theorem exec_vfmul (s : State) : ∀ o, exec (.vfmul o) s = execVfmul o s := fun _ => rfl
theorem exec_vfmin (s : State) : ∀ o, exec (.vfmin o) s = execVfmin o s := fun _ => rfl
theorem exec_vfmax (s : State) : ∀ o, exec (.vfmax o) s = execVfmax o s := fun _ => rfl
theorem exec_vfma (s : State) : ∀ o, exec (.vfma o) s = execVfma o s := fun _ => rfl
theorem exec_vfms (s : State) : ∀ o, exec (.vfms o) s = execVfms o s := fun _ => rfl
theorem exec_vfnma (s : State) : ∀ o, exec (.vfnma o) s = execVfnma o s := fun _ => rfl
theorem exec_vfnms (s : State) : ∀ o, exec (.vfnms o) s = execVfnms o s := fun _ => rfl
theorem exec_vcvtN (s : State) : ∀ o, exec (.vcvtN o) s = execVcvtN o s := fun _ => rfl
theorem exec_vcvtS (s : State) : ∀ o, exec (.vcvtS o) s = execVcvtS o s := fun _ => rfl
theorem exec_vcvtX (s : State) : ∀ o, exec (.vcvtX o) s = execVcvtX o s := fun _ => rfl
theorem exec_vcvtF (s : State) : ∀ o, exec (.vcvtF o) s = execVcvtF o s := fun _ => rfl
theorem exec_vcvtFi (s : State) : ∀ o, exec (.vcvtFi o) s = execVcvtFi o s := fun _ => rfl
theorem exec_vcvtFis (s : State) : ∀ o, exec (.vcvtFis o) s = execVcvtFis o s := fun _ => rfl
theorem exec_vcvtIf (s : State) : ∀ o, exec (.vcvtIf o) s = execVcvtIf o s := fun _ => rfl
theorem exec_vcvtIi (s : State) : ∀ o, exec (.vcvtIi o) s = execVcvtIi o s := fun _ => rfl
theorem exec_vcvtIis (s : State) : ∀ o, exec (.vcvtIis o) s = execVcvtIis o s := fun _ => rfl
theorem exec_vscget (s : State) : ∀ o, exec (.vscget o) s = execVscget o s := fun _ => rfl
theorem exec_vscapply (s : State) : ∀ o, exec (.vscapply o) s = execVscapply o s := fun _ => rfl
theorem exec_vmv (s : State) : ∀ o, exec (.vmv o) s = execVmv o s := fun _ => rfl
theorem exec_vperm (s : State) : ∀ o, exec (.vperm o) s = execVperm o s := fun _ => rfl
theorem exec_vzipl (s : State) : ∀ o, exec (.vzipl o) s = execVzipl o s := fun _ => rfl
theorem exec_vziph (s : State) : ∀ o, exec (.vziph o) s = execVziph o s := fun _ => rfl
theorem exec_vunze (s : State) : ∀ o, exec (.vunze o) s = execVunze o s := fun _ => rfl
theorem exec_vunzo (s : State) : ∀ o, exec (.vunzo o) s = execVunzo o s := fun _ => rfl
theorem exec_vslu (s : State) : ∀ o, exec (.vslu o) s = execVslu o s := fun _ => rfl
theorem exec_vsld (s : State) : ∀ o, exec (.vsld o) s = execVsld o s := fun _ => rfl
theorem exec_vbcast (s : State) : ∀ o, exec (.vbcast o) s = execVbcast o s := fun _ => rfl
theorem exec_vrev (s : State) : ∀ o, exec (.vrev o) s = execVrev o s := fun _ => rfl
theorem exec_vtrnl (s : State) : ∀ o, exec (.vtrnl o) s = execVtrnl o s := fun _ => rfl
theorem exec_vtrnh (s : State) : ∀ o, exec (.vtrnh o) s = execVtrnh o s := fun _ => rfl
theorem exec_vcompress (s : State) : ∀ o, exec (.vcompress o) s = execVcompress o s := fun _ => rfl
theorem exec_vexpand (s : State) : ∀ o, exec (.vexpand o) s = execVexpand o s := fun _ => rfl
theorem exec_vrsum (s : State) : ∀ o, exec (.vrsum o) s = execVrsum o s := fun _ => rfl
theorem exec_vrfsum (s : State) : ∀ o, exec (.vrfsum o) s = execVrfsum o s := fun _ => rfl
theorem exec_vrmin (s : State) : ∀ o, exec (.vrmin o) s = execVrmin o s := fun _ => rfl
theorem exec_vrmax (s : State) : ∀ o, exec (.vrmax o) s = execVrmax o s := fun _ => rfl
theorem exec_vrfmin (s : State) : ∀ o, exec (.vrfmin o) s = execVrfmin o s := fun _ => rfl
theorem exec_vrfmax (s : State) : ∀ o, exec (.vrfmax o) s = execVrfmax o s := fun _ => rfl
theorem exec_vrand (s : State) : ∀ o, exec (.vrand o) s = execVrand o s := fun _ => rfl
theorem exec_vrior (s : State) : ∀ o, exec (.vrior o) s = execVrior o s := fun _ => rfl
theorem exec_vrxor (s : State) : ∀ o, exec (.vrxor o) s = execVrxor o s := fun _ => rfl
theorem exec_vrfsumw (s : State) : ∀ o, exec (.vrfsumw o) s = execVrfsumw o s := fun _ => rfl
theorem exec_vld (s : State) : ∀ o, exec (.vld o) s = execVld o s := fun _ => rfl
theorem exec_vst (s : State) : ∀ o, exec (.vst o) s = execVst o s := fun _ => rfl
theorem exec_vldx (s : State) : ∀ o, exec (.vldx o) s = execVldx o s := fun _ => rfl
theorem exec_vstx (s : State) : ∀ o, exec (.vstx o) s = execVstx o s := fun _ => rfl
theorem exec_vldb (s : State) : ∀ o, exec (.vldb o) s = execVldb o s := fun _ => rfl
theorem exec_vldh (s : State) : ∀ o, exec (.vldh o) s = execVldh o s := fun _ => rfl
theorem exec_vsth (s : State) : ∀ o, exec (.vsth o) s = execVsth o s := fun _ => rfl
theorem exec_pld (s : State) : ∀ o, exec (.pld o) s = execPld o s := fun _ => rfl
theorem exec_pst (s : State) : ∀ o, exec (.pst o) s = execPst o s := fun _ => rfl
theorem exec_vaddx (s : State) : ∀ o, exec (.vaddx o) s = execVaddx o s := fun _ => rfl
theorem exec_vsubx (s : State) : ∀ o, exec (.vsubx o) s = execVsubx o s := fun _ => rfl
theorem exec_vmulx (s : State) : ∀ o, exec (.vmulx o) s = execVmulx o s := fun _ => rfl
theorem exec_vfaddx (s : State) : ∀ o, exec (.vfaddx o) s = execVfaddx o s := fun _ => rfl
theorem exec_vfmulx (s : State) : ∀ o, exec (.vfmulx o) s = execVfmulx o s := fun _ => rfl
theorem exec_vfmacx (s : State) : ∀ o, exec (.vfmacx o) s = execVfmacx o s := fun _ => rfl
theorem exec_vsplat (s : State) : ∀ o, exec (.vsplat o) s = execVsplat o s := fun _ => rfl
theorem exec_vfsplat (s : State) : ∀ o, exec (.vfsplat o) s = execVfsplat o s := fun _ => rfl
theorem exec_vins (s : State) : ∀ o, exec (.vins o) s = execVins o s := fun _ => rfl
theorem exec_vext (s : State) : ∀ o, exec (.vext o) s = execVext o s := fun _ => rfl
theorem exec_vweir (s : State) : ∀ o, exec (.vweir o) s = execVweir o s := fun _ => rfl
theorem exec_vsllx (s : State) : ∀ o, exec (.vsllx o) s = execVsllx o s := fun _ => rfl
theorem exec_vsrlx (s : State) : ∀ o, exec (.vsrlx o) s = execVsrlx o s := fun _ => rfl
theorem exec_vsrax (s : State) : ∀ o, exec (.vsrax o) s = execVsrax o s := fun _ => rfl
theorem exec_viota (s : State) : ∀ o, exec (.viota o) s = execViota o s := fun _ => rfl
theorem exec_vceq (s : State) : ∀ o, exec (.vceq o) s = execVceq o s := fun _ => rfl
theorem exec_vcne (s : State) : ∀ o, exec (.vcne o) s = execVcne o s := fun _ => rfl
theorem exec_vclt (s : State) : ∀ o, exec (.vclt o) s = execVclt o s := fun _ => rfl
theorem exec_vcle (s : State) : ∀ o, exec (.vcle o) s = execVcle o s := fun _ => rfl
theorem exec_vfceq (s : State) : ∀ o, exec (.vfceq o) s = execVfceq o s := fun _ => rfl
theorem exec_vfclt (s : State) : ∀ o, exec (.vfclt o) s = execVfclt o s := fun _ => rfl
theorem exec_vfcle (s : State) : ∀ o, exec (.vfcle o) s = execVfcle o s := fun _ => rfl
theorem exec_vfcun (s : State) : ∀ o, exec (.vfcun o) s = execVfcun o s := fun _ => rfl
theorem exec_pand (s : State) : ∀ o, exec (.pand o) s = execPand o s := fun _ => rfl
theorem exec_por (s : State) : ∀ o, exec (.por o) s = execPor o s := fun _ => rfl
theorem exec_pxor (s : State) : ∀ o, exec (.pxor o) s = execPxor o s := fun _ => rfl
theorem exec_pandn (s : State) : ∀ o, exec (.pandn o) s = execPandn o s := fun _ => rfl
theorem exec_pnot (s : State) : ∀ o, exec (.pnot o) s = execPnot o s := fun _ => rfl
theorem exec_pfirst (s : State) : ∀ o, exec (.pfirst o) s = execPfirst o s := fun _ => rfl
theorem exec_tld (s : State) : ∀ o, exec (.tld o) s = execTld o s := fun _ => rfl
theorem exec_tst (s : State) : ∀ o, exec (.tst o) s = execTst o s := fun _ => rfl
theorem exec_tstLaw (s : State) : ∀ o, exec (.tstLaw o) s = execTstLaw o s := fun _ => rfl
theorem exec_tadd (s : State) : ∀ o, exec (.tadd o) s = execTadd o s := fun _ => rfl
theorem exec_ttouch (s : State) : ∀ o, exec (.ttouch o) s = execTtouch o s := fun _ => rfl
theorem exec_tarm (s : State) : ∀ o, exec (.tarm o) s = execTarm o s := fun _ => rfl
theorem exec_tclr (s : State) : ∀ o, exec (.tclr o) s = execTclr o s := fun _ => rfl
theorem exec_vtld (s : State) : ∀ o, exec (.vtld o) s = execVtld o s := fun _ => rfl
theorem exec_vtadd (s : State) : ∀ o, exec (.vtadd o) s = execVtadd o s := fun _ => rfl
theorem exec_lawset (s : State) : ∀ o, exec (.lawset o) s = execLawset o s := fun _ => rfl
theorem exec_lawget (s : State) : ∀ o, exec (.lawget o) s = execLawget o s := fun _ => rfl
theorem exec_mma (s : State) : ∀ o, exec (.mma o) s = execMma o s := fun _ => rfl
theorem exec_rowcfg (s : State) : ∀ o, exec (.rowcfg o) s = execRowcfg o s := fun _ => rfl
theorem exec_acget (s : State) : ∀ o, exec (.acget o) s = execAcget o s := fun _ => rfl
theorem exec_acput (s : State) : ∀ o, exec (.acput o) s = execAcput o s := fun _ => rfl
theorem exec_aczero (s : State) : ∀ o, exec (.aczero o) s = execAczero o s := fun _ => rfl
theorem exec_qcur (s : State) : ∀ o, exec (.qcur o) s = execQcur o s := fun _ => rfl
theorem exec_qcurrd (s : State) : ∀ o, exec (.qcurrd o) s = execQcurrd o s := fun _ => rfl
theorem exec_qadv (s : State) : ∀ o, exec (.qadv o) s = execQadv o s := fun _ => rfl
theorem exec_qmovToQ (s : State) : ∀ o, exec (.qmovToQ o) s = execQmovToQ o s := fun _ => rfl
theorem exec_qmovToS (s : State) : ∀ o, exec (.qmovToS o) s = execQmovToS o s := fun _ => rfl
theorem exec_ascore (s : State) : ∀ o, exec (.ascore o) s = execAscore o s := fun _ => rfl
theorem exec_asoft (s : State) : ∀ o, exec (.asoft o) s = execAsoft o s := fun _ => rfl
theorem exec_aval (s : State) : ∀ o, exec (.aval o) s = execAval o s := fun _ => rfl
theorem exec_amass (s : State) : ∀ o, exec (.amass o) s = execAmass o s := fun _ => rfl
theorem exec_apos (s : State) : ∀ o, exec (.apos o) s = execApos o s := fun _ => rfl
theorem exec_cpw (s : State) : ∀ o, exec (.cpw o) s = execCpw o s := fun _ => rfl
theorem exec_cprd (s : State) : ∀ o, exec (.cprd o) s = execCprd o s := fun _ => rfl
theorem exec_cpgo (s : State) : ∀ o, exec (.cpgo o) s = execCpgo o s := fun _ => rfl
theorem exec_cpconv (s : State) : ∀ o, exec (.cpconv o) s = execCpconv o s := fun _ => rfl
theorem exec_bget (s : State) : ∀ o, exec (.bget o) s = execBget o s := fun _ => rfl
theorem exec_gget (s : State) : ∀ o, exec (.gget o) s = execGget o s := fun _ => rfl
theorem exec_gput (s : State) : ∀ o, exec (.gput o) s = execGput o s := fun _ => rfl
theorem exec_bind (s : State) : ∀ o, exec (.bind o) s = execBind o s := fun _ => rfl
theorem exec_unbind (s : State) : ∀ o, exec (.unbind o) s = execUnbind o s := fun _ => rfl
theorem exec_card (s : State) : ∀ o, exec (.card o) s = execCard o s := fun _ => rfl
theorem exec_cbinit (s : State) : ∀ o, exec (.cbinit o) s = execCbinit o s := fun _ => rfl
theorem exec_cbpop (s : State) : ∀ o, exec (.cbpop o) s = execCbpop o s := fun _ => rfl
theorem exec_cbpopDone (s : State) : ∀ o, exec (.cbpopDone o) s = execCbpopDone o s := fun _ => rfl
theorem exec_cbpush (s : State) : ∀ o, exec (.cbpush o) s = execCbpush o s := fun _ => rfl
theorem exec_cbpushDone (s : State) : ∀ o, exec (.cbpushDone o) s = execCbpushDone o s := fun _ => rfl
theorem exec_dredge (s : State) : ∀ o, exec (.dredge o) s = execDredge o s := fun _ => rfl
theorem exec_ctwait (s : State) : ∀ o, exec (.ctwait o) s = execCtwait o s := fun _ => rfl
theorem exec_ctrd (s : State) : ∀ o, exec (.ctrd o) s = execCtrd o s := fun _ => rfl
theorem exec_msend (s : State) : ∀ o, exec (.msend o) s = execMsend o s := fun _ => rfl
theorem exec_margs (s : State) : ∀ o, exec (.margs o) s = execMargs o s := fun _ => rfl
theorem exec_mlane (s : State) : ∀ o, exec (.mlane o) s = execMlane o s := fun _ => rfl
theorem exec_mtab (s : State) : ∀ o, exec (.mtab o) s = execMtab o s := fun _ => rfl
theorem exec_mtabDis (s : State) : ∀ o, exec (.mtabDis o) s = execMtabDis o s := fun _ => rfl
theorem exec_dcset (s : State) : ∀ o, exec (.dcset o) s = execDcset o s := fun _ => rfl
theorem exec_dcdec (s : State) : ∀ o, exec (.dcdec o) s = execDcdec o s := fun _ => rfl
theorem exec_dcrd (s : State) : ∀ o, exec (.dcrd o) s = execDcrd o s := fun _ => rfl
theorem exec_dcrdClr (s : State) : ∀ o, exec (.dcrdClr o) s = execDcrdClr o s := fun _ => rfl
theorem exec_ferryocc (s : State) : ∀ o, exec (.ferryocc o) s = execFerryocc o s := fun _ => rfl
theorem exec_ferrymig (s : State) : ∀ o, exec (.ferrymig o) s = execFerrymig o s := fun _ => rfl
theorem exec_mdead (s : State) : ∀ o, exec (.mdead o) s = execMdead o s := fun _ => rfl
theorem exec_hstart (s : State) : ∀ o, exec (.hstart o) s = execHstart o s := fun _ => rfl
theorem exec_hend (s : State) : ∀ o, exec (.hend o) s = execHend o s := fun _ => rfl
theorem exec_raft (s : State) : ∀ o, exec (.raft o) s = execRaft o s := fun _ => rfl
theorem exec_split (s : State) : ∀ o, exec (.split o) s = execSplit o s := fun _ => rfl
theorem exec_raftAny (s : State) : ∀ o, exec (.raftAny o) s = execRaftAny o s := fun _ => rfl
theorem exec_raftAll (s : State) : ∀ o, exec (.raftAll o) s = execRaftAll o s := fun _ => rfl
theorem exec_bar (s : State) : ∀ o, exec (.bar o) s = execBar o s := fun _ => rfl
theorem exec_prio (s : State) : ∀ o, exec (.prio o) s = execPrio o s := fun _ => rfl
theorem exec_yield (s : State) : ∀ o, exec (.yield o) s = execYield o s := fun _ => rfl
theorem exec_dsync (s : State) : ∀ o, exec (.dsync o) s = execDsync o s := fun _ => rfl
theorem exec_dphase (s : State) : ∀ o, exec (.dphase o) s = execDphase o s := fun _ => rfl
theorem exec_berth (s : State) : ∀ o, exec (.berth o) s = execBerth o s := fun _ => rfl
theorem exec_tround (s : State) : ∀ o, exec (.tround o) s = execTround o s := fun _ => rfl
theorem exec_trank (s : State) : ∀ o, exec (.trank o) s = execTrank o s := fun _ => rfl
theorem exec_tdone (s : State) : ∀ o, exec (.tdone o) s = execTdone o s := fun _ => rfl
theorem exec_repf (s : State) : ∀ o, exec (.repf o) s = execRepf o s := fun _ => rfl
theorem exec_nop (s : State) : ∀ o, exec (.nop o) s = execNop o s := fun _ => rfl
theorem exec_sysr (s : State) : ∀ o, exec (.sysr o) s = execSysr o s := fun _ => rfl
theorem exec_sysw (s : State) : ∀ o, exec (.sysw o) s = execSysw o s := fun _ => rfl
theorem exec_trap (s : State) : ∀ o, exec (.trap o) s = execTrap o s := fun _ => rfl
theorem exec_scall (s : State) : ∀ o, exec (.scall o) s = execScall o s := fun _ => rfl
theorem exec_uret (s : State) : ∀ o, exec (.uret o) s = execUret o s := fun _ => rfl
theorem exec_uretSw (s : State) : ∀ o, exec (.uretSw o) s = execUretSw o s := fun _ => rfl
theorem exec_uretWait (s : State) : ∀ o, exec (.uretWait o) s = execUretWait o s := fun _ => rfl
theorem exec_sret (s : State) : ∀ o, exec (.sret o) s = execSret o s := fun _ => rfl
theorem exec_fret (s : State) : ∀ o, exec (.fret o) s = execFret o s := fun _ => rfl
theorem exec_brk (s : State) : ∀ o, exec (.brk o) s = execBrk o s := fun _ => rfl
theorem exec_dbgsig (s : State) : ∀ o, exec (.dbgsig o) s = execDbgsig o s := fun _ => rfl
theorem exec_cInc (s : State) : ∀ o, exec (.cInc o) s = execCInc o s := fun _ => rfl
theorem exec_cSet (s : State) : ∀ o, exec (.cSet o) s = execCSet o s := fun _ => rfl
theorem exec_cCp (s : State) : ∀ o, exec (.cCp o) s = execCCp o s := fun _ => rfl
theorem exec_cAddr (s : State) : ∀ o, exec (.cAddr o) s = execCAddr o s := fun _ => rfl
theorem exec_cSubr (s : State) : ∀ o, exec (.cSubr o) s = execCSubr o s := fun _ => rfl
theorem exec_cAndr (s : State) : ∀ o, exec (.cAndr o) s = execCAndr o s := fun _ => rfl
theorem exec_cOrr (s : State) : ∀ o, exec (.cOrr o) s = execCOrr o s := fun _ => rfl
theorem exec_cXorr (s : State) : ∀ o, exec (.cXorr o) s = execCXorr o s := fun _ => rfl
theorem exec_cSllr (s : State) : ∀ o, exec (.cSllr o) s = execCSllr o s := fun _ => rfl
theorem exec_cSrar (s : State) : ∀ o, exec (.cSrar o) s = execCSrar o s := fun _ => rfl
theorem exec_cSltr (s : State) : ∀ o, exec (.cSltr o) s = execCSltr o s := fun _ => rfl
theorem exec_cSltwr (s : State) : ∀ o, exec (.cSltwr o) s = execCSltwr o s := fun _ => rfl
theorem exec_cSeqr (s : State) : ∀ o, exec (.cSeqr o) s = execCSeqr o s := fun _ => rfl
theorem exec_cSner (s : State) : ∀ o, exec (.cSner o) s = execCSner o s := fun _ => rfl
theorem exec_cMinr (s : State) : ∀ o, exec (.cMinr o) s = execCMinr o s := fun _ => rfl
theorem exec_cMaxr (s : State) : ∀ o, exec (.cMaxr o) s = execCMaxr o s := fun _ => rfl
theorem exec_cMinwr (s : State) : ∀ o, exec (.cMinwr o) s = execCMinwr o s := fun _ => rfl
theorem exec_cMaxwr (s : State) : ∀ o, exec (.cMaxwr o) s = execCMaxwr o s := fun _ => rfl
theorem exec_cShl (s : State) : ∀ o, exec (.cShl o) s = execCShl o s := fun _ => rfl
theorem exec_cSar (s : State) : ∀ o, exec (.cSar o) s = execCSar o s := fun _ => rfl
theorem exec_cJreg (s : State) : ∀ o, exec (.cJreg o) s = execCJreg o s := fun _ => rfl
theorem exec_cFadd (s : State) : ∀ o, exec (.cFadd o) s = execCFadd o s := fun _ => rfl
theorem exec_cFsub (s : State) : ∀ o, exec (.cFsub o) s = execCFsub o s := fun _ => rfl
theorem exec_cFmul (s : State) : ∀ o, exec (.cFmul o) s = execCFmul o s := fun _ => rfl
theorem exec_cFmin (s : State) : ∀ o, exec (.cFmin o) s = execCFmin o s := fun _ => rfl
theorem exec_cFmax (s : State) : ∀ o, exec (.cFmax o) s = execCFmax o s := fun _ => rfl
theorem exec_cFneg (s : State) : ∀ o, exec (.cFneg o) s = execCFneg o s := fun _ => rfl
theorem exec_cFabs (s : State) : ∀ o, exec (.cFabs o) s = execCFabs o s := fun _ => rfl
theorem exec_cVty (s : State) : ∀ o, exec (.cVty o) s = execCVty o s := fun _ => rfl
theorem exec_cBrz (s : State) : ∀ o, exec (.cBrz o) s = execCBrz o s := fun _ => rfl
theorem exec_cBrnz (s : State) : ∀ o, exec (.cBrnz o) s = execCBrnz o s := fun _ => rfl
theorem exec_cGo (s : State) : ∀ o, exec (.cGo o) s = execCGo o s := fun _ => rfl
theorem exec_cLld (s : State) : ∀ o, exec (.cLld o) s = execCLld o s := fun _ => rfl
theorem exec_cLsd (s : State) : ∀ o, exec (.cLsd o) s = execCLsd o s := fun _ => rfl
theorem exec_cLr (s : State) : ∀ o, exec (.cLr o) s = execCLr o s := fun _ => rfl
theorem exec_cSr (s : State) : ∀ o, exec (.cSr o) s = execCSr o s := fun _ => rfl
theorem exec_cVmv (s : State) : ∀ o, exec (.cVmv o) s = execCVmv o s := fun _ => rfl
theorem exec_thermalThrottleLift (s : State) : ∀ die, exec (.thermalThrottleLift die) s = execThermalThrottleLift die s := fun _ => rfl
theorem exec_powerRemoval (s : State) : exec .powerRemoval s = execPowerRemoval s := rfl
theorem exec_hostAccess (s : State) : ∀ acc, exec (.hostAccess acc) s = execHostAccess acc s := fun _ => rfl
theorem exec_peerAccess (s : State) : ∀ dev acc, exec (.peerAccess dev acc) s = execPeerAccess dev acc s := fun _ _ => rfl

end Sys2Proof.Machine
end

