-- ==== Sys2Proof/Laws/Memory.lean ====
section
/-!
SUPPORT. Sparse maps and memory: reading what was written, writes that do not meet, and the canonical form that every
write keeps.
-/
namespace Sys2Proof.Machine
open Sys2Proof

variable {α : Type}

/-! ### Lookup after an update -/

@[simp] theorem FMap.find_put_self (m : FMap α) (i : Nat) (x : α) : FMap.find (FMap.put m i x) i = some x := by
  induction m with
  | nil => simp [FMap.put, FMap.find]
  | cons h t ih =>
    obtain ⟨k, v⟩ := h
    simp only [FMap.put]
    split
    · simp [FMap.find]
    · split
      · simp [FMap.find]
      · simp only [FMap.find]
        rw [if_neg (by omega), ih]

theorem FMap.find_put_ne (m : FMap α) {i j : Nat} (x : α) (h : j ≠ i) :
    FMap.find (FMap.put m i x) j = FMap.find m j := by
  induction m with
  | nil => simp [FMap.put, FMap.find, Ne.symm h]
  | cons e t ih =>
    obtain ⟨k, v⟩ := e
    simp only [FMap.put]
    split
    · simp [FMap.find, Ne.symm h]
    · split
      · rename_i hk
        subst hk
        simp [FMap.find, Ne.symm h]
      · simp only [FMap.find, ih]

theorem FMap.find_put (m : FMap α) (i j : Nat) (x : α) :
    FMap.find (FMap.put m i x) j = if j = i then some x else FMap.find m j := by
  split
  · rename_i h
    subst h
    simp
  · rename_i h
    exact FMap.find_put_ne m x h

@[simp] theorem FMap.put_put (m : FMap α) (i : Nat) (x y : α) :
    FMap.put (FMap.put m i x) i y = FMap.put m i y := by
  induction m with
  | nil => simp [FMap.put]
  | cons e t ih =>
    obtain ⟨k, v⟩ := e
    by_cases h1 : i < k
    · simp [FMap.put, h1]
    · by_cases h2 : i = k
      · simp [FMap.put, h2]
      · simp [FMap.put, h1, h2, ih]

@[simp] theorem FMap.getD_put_self (m : FMap α) (i : Nat) (x d : α) : FMap.getD (FMap.put m i x) i d = x := by
  simp [FMap.getD]

theorem FMap.getD_put_ne (m : FMap α) {i j : Nat} (x d : α) (h : j ≠ i) :
    FMap.getD (FMap.put m i x) j d = FMap.getD m j d := by
  simp [FMap.getD, FMap.find_put_ne m x h]

theorem FMap.find_filter_keys (m : FMap α) (p : Nat → Bool) (j : Nat) (h : p j = true) :
    FMap.find (m.filter fun e => p e.1) j = FMap.find m j := by
  induction m with
  | nil => rfl
  | cons e t ih =>
    obtain ⟨k, v⟩ := e
    by_cases hk : p k
    · simp [List.filter, hk, FMap.find, ih]
    · have : k ≠ j := by
        intro e
        subst e
        exact hk h
      simp [List.filter, hk, FMap.find, ih, this]

theorem FMap.find_del_ne (m : FMap α) {i j : Nat} (h : j ≠ i) : FMap.find (FMap.del m i) j = FMap.find m j :=
  FMap.find_filter_keys m (fun k => k != i) j (by simpa using h)

@[simp] theorem FMap.find_del_self (m : FMap α) (i : Nat) : FMap.find (FMap.del m i) i = none := by
  induction m with
  | nil => rfl
  | cons e t ih =>
    obtain ⟨k, v⟩ := e
    simp only [FMap.del] at ih ⊢
    by_cases hk : k = i
    · subst hk
      simp [List.filter, ih]
    · have h : (k != i) = true := by simpa using hk
      simp [List.filter, h, FMap.find, hk, ih]

/-! ### Rising keys -/

/-- The keys of a map rise: the head is below every key behind it. -/
theorem FMap.rising_cons (e : Nat × α) (t : FMap α) :
    FMap.rising (e :: t) = true ↔ (∀ x ∈ t, e.1 < x.1) ∧ FMap.rising t = true := by
  induction t generalizing e with
  | nil => simp [FMap.rising]
  | cons b t ih =>
    simp only [FMap.rising, Bool.and_eq_true, decide_eq_true_eq, List.mem_cons, forall_eq_or_imp]
    constructor
    · rintro ⟨h1, h2⟩
      exact ⟨⟨h1, fun x hx => Nat.lt_trans h1 (((ih b).1 h2).1 x hx)⟩, h2⟩
    · rintro ⟨⟨h1, _⟩, h2⟩
      exact ⟨h1, h2⟩

theorem FMap.mem_put {m : FMap α} {i : Nat} {x : α} {e : Nat × α} (h : e ∈ FMap.put m i x) : e = (i, x) ∨ e ∈ m := by
  induction m with
  | nil => simpa [FMap.put] using h
  | cons b t ih =>
    obtain ⟨k, v⟩ := b
    simp only [FMap.put] at h
    split at h
    · simpa using h
    · split at h
      · simp at h
        rcases h with h | h
        · exact .inl h
        · exact .inr (by simp [h])
      · simp at h
        rcases h with h | h
        · exact .inr (by simp [h])
        · rcases ih h with h | h
          · exact .inl h
          · exact .inr (by simp [h])

theorem FMap.rising_put {m : FMap α} (i : Nat) (x : α) (h : FMap.rising m = true) : FMap.rising (FMap.put m i x) = true := by
  induction m with
  | nil => rfl
  | cons b t ih =>
    obtain ⟨k, v⟩ := b
    have hb := (FMap.rising_cons (k, v) t).1 h
    simp only [FMap.put]
    split
    · rename_i hk
      rw [FMap.rising_cons]
      refine ⟨fun e he => ?_, h⟩
      rcases List.mem_cons.1 he with rfl | he
      · exact hk
      · exact Nat.lt_trans hk (hb.1 e he)
    · split
      · rename_i hk
        subst hk
        exact (FMap.rising_cons _ _).2 hb
      · rw [FMap.rising_cons]
        refine ⟨fun e he => ?_, ih hb.2⟩
        rcases FMap.mem_put he with rfl | he
        · show k < i
          omega
        · exact hb.1 e he

theorem FMap.rising_filter {m : FMap α} (p : Nat × α → Bool) (h : FMap.rising m = true) :
    FMap.rising (m.filter p) = true := by
  induction m with
  | nil => rfl
  | cons b t ih =>
    have hb := (FMap.rising_cons b t).1 h
    by_cases hp : p b
    · simp only [List.filter, hp]
      rw [FMap.rising_cons]
      exact ⟨fun e he => hb.1 e (List.mem_filter.1 he).1, ih hb.2⟩
    · simpa [List.filter, hp] using ih hb.2

/-! ### Memory -/

theorem Memory.read_write_self (m : List Host.Cell) (a : Nat) (b : Byte) : Memory.read (Memory.write m a b) a = b := by
  unfold Memory.read Memory.write
  split
  · rename_i h
    simp [FMap.getD, h]
  · simp

theorem Memory.read_write_ne (m : List Host.Cell) {a c : Nat} (b : Byte) (h : c ≠ a) :
    Memory.read (Memory.write m a b) c = Memory.read m c := by
  unfold Memory.read Memory.write
  split
  · simp [FMap.getD, FMap.find_del_ne m h]
  · simp [FMap.getD, FMap.find_put_ne m b h]

theorem Memory.read_write (m : List Host.Cell) (a c : Nat) (b : Byte) :
    Memory.read (Memory.write m a b) c = if c = a then b else Memory.read m c := by
  split
  · rename_i h
    subst h
    exact Memory.read_write_self m _ b
  · rename_i h
    exact Memory.read_write_ne m b h

/-- The canonical form, unfolded. -/
theorem Memory.wf_iff (m : List Host.Cell) :
    Memory.wf m = true ↔ FMap.rising m = true ∧ ∀ c ∈ m, c.2 ≠ unlistedByte := by
  simp [Memory.wf, List.all_eq_true]

/-- Every write keeps the canonical form. -/
theorem Memory.wf_write {m : List Host.Cell} (a : Nat) (b : Byte) (h : Memory.wf m = true) :
    Memory.wf (Memory.write m a b) = true := by
  rw [Memory.wf_iff] at h ⊢
  unfold Memory.write
  split
  · exact ⟨FMap.rising_filter _ h.1, fun c hc => h.2 c (List.mem_filter.1 hc).1⟩
  · rename_i hb
    refine ⟨FMap.rising_put a b h.1, fun c hc => ?_⟩
    rcases FMap.mem_put hc with rfl | hc
    · exact hb
    · exact h.2 c hc

/-- Dropping cells keeps the canonical form. -/
theorem Memory.wf_filter {m : List Host.Cell} (p : Host.Cell → Bool) (h : Memory.wf m = true) :
    Memory.wf (m.filter p) = true := by
  rw [Memory.wf_iff] at h ⊢
  exact ⟨FMap.rising_filter p h.1, fun c hc => h.2 c (List.mem_filter.1 hc).1⟩

theorem Memory.wf_nil : Memory.wf [] = true := rfl

/-- A run of writes keeps the canonical form. -/
theorem Memory.wf_foldl {β : Type} (l : List β) (f : List Host.Cell → β → List Host.Cell)
    (hf : ∀ m x, Memory.wf m = true → Memory.wf (f m x) = true) (m : List Host.Cell) (h : Memory.wf m = true) :
    Memory.wf (l.foldl f m) = true := by
  induction l generalizing m with
  | nil => exact h
  | cons x t ih => exact ih (f m x) (hf m x h)

end Sys2Proof.Machine
end

