-- ==== Sys2Proof/Laws/State.lean ====
section
/-!
SUPPORT. What each update of the state leaves of each field: one lemma per field per update, so that no proof unfolds a
record update.
-/
namespace Sys2Proof.Machine
open Sys2Proof

/-! ### setStrand -/

@[simp] theorem State.setStrand_strands (s : State) (w : StrandId) (t : Strand) : (s.setStrand w t).strands = FMap.put s.strands (StrandId.key w) t := rfl
@[simp] theorem State.setStrand_cores (s : State) (w : StrandId) (t : Strand) : (s.setStrand w t).cores = s.cores := rfl
@[simp] theorem State.setStrand_rows (s : State) (w : StrandId) (t : Strand) : (s.setStrand w t).rows = s.rows := rfl
@[simp] theorem State.setStrand_clusters (s : State) (w : StrandId) (t : Strand) : (s.setStrand w t).clusters = s.clusters := rfl
@[simp] theorem State.setStrand_dies (s : State) (w : StrandId) (t : Strand) : (s.setStrand w t).dies = s.dies := rfl
@[simp] theorem State.setStrand_streams (s : State) (w : StrandId) (t : Strand) : (s.setStrand w t).streams = s.streams := rfl
@[simp] theorem State.setStrand_launches (s : State) (w : StrandId) (t : Strand) : (s.setStrand w t).launches = s.launches := rfl
@[simp] theorem State.setStrand_events (s : State) (w : StrandId) (t : Strand) : (s.setStrand w t).events = s.events := rfl
@[simp] theorem State.setStrand_crews (s : State) (w : StrandId) (t : Strand) : (s.setStrand w t).crews = s.crews := rfl
@[simp] theorem State.setStrand_saved (s : State) (w : StrandId) (t : Strand) : (s.setStrand w t).saved = s.saved := rfl
@[simp] theorem State.setStrand_images (s : State) (w : StrandId) (t : Strand) : (s.setStrand w t).images = s.images := rfl
@[simp] theorem State.setStrand_jobs (s : State) (w : StrandId) (t : Strand) : (s.setStrand w t).jobs = s.jobs := rfl
@[simp] theorem State.setStrand_transit (s : State) (w : StrandId) (t : Strand) : (s.setStrand w t).transit = s.transit := rfl
@[simp] theorem State.setStrand_departed (s : State) (w : StrandId) (t : Strand) : (s.setStrand w t).departed = s.departed := rfl
@[simp] theorem State.setStrand_flips (s : State) (w : StrandId) (t : Strand) : (s.setStrand w t).flips = s.flips := rfl
@[simp] theorem State.setStrand_sides (s : State) (w : StrandId) (t : Strand) : (s.setStrand w t).sides = s.sides := rfl
@[simp] theorem State.setStrand_asked (s : State) (w : StrandId) (t : Strand) : (s.setStrand w t).asked = s.asked := rfl
@[simp] theorem State.setStrand_mem (s : State) (w : StrandId) (t : Strand) : (s.setStrand w t).mem = s.mem := rfl
@[simp] theorem State.setStrand_failing (s : State) (w : StrandId) (t : Strand) : (s.setStrand w t).failing = s.failing := rfl
@[simp] theorem State.setStrand_laws (s : State) (w : StrandId) (t : Strand) : (s.setStrand w t).laws = s.laws := rfl
@[simp] theorem State.setStrand_regions (s : State) (w : StrandId) (t : Strand) : (s.setStrand w t).regions = s.regions := rfl
@[simp] theorem State.setStrand_swept (s : State) (w : StrandId) (t : Strand) : (s.setStrand w t).swept = s.swept := rfl
@[simp] theorem State.setStrand_posted (s : State) (w : StrandId) (t : Strand) : (s.setStrand w t).posted = s.posted := rfl
@[simp] theorem State.setStrand_domain (s : State) (w : StrandId) (t : Strand) : (s.setStrand w t).domain = s.domain := rfl
@[simp] theorem State.setStrand_groups (s : State) (w : StrandId) (t : Strand) : (s.setStrand w t).groups = s.groups := rfl
@[simp] theorem State.setStrand_boot (s : State) (w : StrandId) (t : Strand) : (s.setStrand w t).boot = s.boot := rfl
@[simp] theorem State.setStrand_measures (s : State) (w : StrandId) (t : Strand) : (s.setStrand w t).measures = s.measures := rfl
@[simp] theorem State.setStrand_wallTide (s : State) (w : StrandId) (t : Strand) : (s.setStrand w t).wallTide = s.wallTide := rfl
@[simp] theorem State.setStrand_plimit (s : State) (w : StrandId) (t : Strand) : (s.setStrand w t).plimit = s.plimit := rfl
@[simp] theorem State.setStrand_slope (s : State) (w : StrandId) (t : Strand) : (s.setStrand w t).slope = s.slope := rfl
@[simp] theorem State.setStrand_crbase (s : State) (w : StrandId) (t : Strand) : (s.setStrand w t).crbase = s.crbase := rfl
@[simp] theorem State.setStrand_fwEntry (s : State) (w : StrandId) (t : Strand) : (s.setStrand w t).fwEntry = s.fwEntry := rfl
@[simp] theorem State.setStrand_fwLawtab (s : State) (w : StrandId) (t : Strand) : (s.setStrand w t).fwLawtab = s.fwLawtab := rfl
@[simp] theorem State.setStrand_extLimit (s : State) (w : StrandId) (t : Strand) : (s.setStrand w t).extLimit = s.extLimit := rfl
@[simp] theorem State.setStrand_frozen (s : State) (w : StrandId) (t : Strand) : (s.setStrand w t).frozen = s.frozen := rfl
@[simp] theorem State.setStrand_dead (s : State) (w : StrandId) (t : Strand) : (s.setStrand w t).dead = s.dead := rfl
@[simp] theorem State.setStrand_powered (s : State) (w : StrandId) (t : Strand) : (s.setStrand w t).powered = s.powered := rfl
@[simp] theorem State.setStrand_reply (s : State) (w : StrandId) (t : Strand) : (s.setStrand w t).reply = s.reply := rfl
@[simp] theorem State.setStrand_agenda (s : State) (w : StrandId) (t : Strand) : (s.setStrand w t).agenda = s.agenda := rfl
@[simp] theorem State.setStrand_focus (s : State) (w : StrandId) (t : Strand) : (s.setStrand w t).focus = s.focus := rfl
@[simp] theorem State.setStrand_cur (s : State) (w : StrandId) (t : Strand) : (s.setStrand w t).cur = s.cur := rfl
@[simp] theorem State.setStrand_ir (s : State) (w : StrandId) (t : Strand) : (s.setStrand w t).ir = s.ir := rfl
@[simp] theorem State.setStrand_trapped (s : State) (w : StrandId) (t : Strand) : (s.setStrand w t).trapped = s.trapped := rfl
@[simp] theorem State.setStrand_lag (s : State) (w : StrandId) (t : Strand) : (s.setStrand w t).lag = s.lag := rfl
@[simp] theorem State.setStrand_free (s : State) (w : StrandId) (t : Strand) : (s.setStrand w t).free = s.free := rfl

/-! ### setCore -/

@[simp] theorem State.setCore_strands (s : State) (c : Nat) (x : Core) : (s.setCore c x).strands = s.strands := rfl
@[simp] theorem State.setCore_cores (s : State) (c : Nat) (x : Core) : (s.setCore c x).cores = FMap.put s.cores c x := rfl
@[simp] theorem State.setCore_rows (s : State) (c : Nat) (x : Core) : (s.setCore c x).rows = s.rows := rfl
@[simp] theorem State.setCore_clusters (s : State) (c : Nat) (x : Core) : (s.setCore c x).clusters = s.clusters := rfl
@[simp] theorem State.setCore_dies (s : State) (c : Nat) (x : Core) : (s.setCore c x).dies = s.dies := rfl
@[simp] theorem State.setCore_streams (s : State) (c : Nat) (x : Core) : (s.setCore c x).streams = s.streams := rfl
@[simp] theorem State.setCore_launches (s : State) (c : Nat) (x : Core) : (s.setCore c x).launches = s.launches := rfl
@[simp] theorem State.setCore_events (s : State) (c : Nat) (x : Core) : (s.setCore c x).events = s.events := rfl
@[simp] theorem State.setCore_crews (s : State) (c : Nat) (x : Core) : (s.setCore c x).crews = s.crews := rfl
@[simp] theorem State.setCore_saved (s : State) (c : Nat) (x : Core) : (s.setCore c x).saved = s.saved := rfl
@[simp] theorem State.setCore_images (s : State) (c : Nat) (x : Core) : (s.setCore c x).images = s.images := rfl
@[simp] theorem State.setCore_jobs (s : State) (c : Nat) (x : Core) : (s.setCore c x).jobs = s.jobs := rfl
@[simp] theorem State.setCore_transit (s : State) (c : Nat) (x : Core) : (s.setCore c x).transit = s.transit := rfl
@[simp] theorem State.setCore_departed (s : State) (c : Nat) (x : Core) : (s.setCore c x).departed = s.departed := rfl
@[simp] theorem State.setCore_flips (s : State) (c : Nat) (x : Core) : (s.setCore c x).flips = s.flips := rfl
@[simp] theorem State.setCore_sides (s : State) (c : Nat) (x : Core) : (s.setCore c x).sides = s.sides := rfl
@[simp] theorem State.setCore_asked (s : State) (c : Nat) (x : Core) : (s.setCore c x).asked = s.asked := rfl
@[simp] theorem State.setCore_mem (s : State) (c : Nat) (x : Core) : (s.setCore c x).mem = s.mem := rfl
@[simp] theorem State.setCore_failing (s : State) (c : Nat) (x : Core) : (s.setCore c x).failing = s.failing := rfl
@[simp] theorem State.setCore_laws (s : State) (c : Nat) (x : Core) : (s.setCore c x).laws = s.laws := rfl
@[simp] theorem State.setCore_regions (s : State) (c : Nat) (x : Core) : (s.setCore c x).regions = s.regions := rfl
@[simp] theorem State.setCore_swept (s : State) (c : Nat) (x : Core) : (s.setCore c x).swept = s.swept := rfl
@[simp] theorem State.setCore_posted (s : State) (c : Nat) (x : Core) : (s.setCore c x).posted = s.posted := rfl
@[simp] theorem State.setCore_domain (s : State) (c : Nat) (x : Core) : (s.setCore c x).domain = s.domain := rfl
@[simp] theorem State.setCore_groups (s : State) (c : Nat) (x : Core) : (s.setCore c x).groups = s.groups := rfl
@[simp] theorem State.setCore_boot (s : State) (c : Nat) (x : Core) : (s.setCore c x).boot = s.boot := rfl
@[simp] theorem State.setCore_measures (s : State) (c : Nat) (x : Core) : (s.setCore c x).measures = s.measures := rfl
@[simp] theorem State.setCore_wallTide (s : State) (c : Nat) (x : Core) : (s.setCore c x).wallTide = s.wallTide := rfl
@[simp] theorem State.setCore_plimit (s : State) (c : Nat) (x : Core) : (s.setCore c x).plimit = s.plimit := rfl
@[simp] theorem State.setCore_slope (s : State) (c : Nat) (x : Core) : (s.setCore c x).slope = s.slope := rfl
@[simp] theorem State.setCore_crbase (s : State) (c : Nat) (x : Core) : (s.setCore c x).crbase = s.crbase := rfl
@[simp] theorem State.setCore_fwEntry (s : State) (c : Nat) (x : Core) : (s.setCore c x).fwEntry = s.fwEntry := rfl
@[simp] theorem State.setCore_fwLawtab (s : State) (c : Nat) (x : Core) : (s.setCore c x).fwLawtab = s.fwLawtab := rfl
@[simp] theorem State.setCore_extLimit (s : State) (c : Nat) (x : Core) : (s.setCore c x).extLimit = s.extLimit := rfl
@[simp] theorem State.setCore_frozen (s : State) (c : Nat) (x : Core) : (s.setCore c x).frozen = s.frozen := rfl
@[simp] theorem State.setCore_dead (s : State) (c : Nat) (x : Core) : (s.setCore c x).dead = s.dead := rfl
@[simp] theorem State.setCore_powered (s : State) (c : Nat) (x : Core) : (s.setCore c x).powered = s.powered := rfl
@[simp] theorem State.setCore_reply (s : State) (c : Nat) (x : Core) : (s.setCore c x).reply = s.reply := rfl
@[simp] theorem State.setCore_agenda (s : State) (c : Nat) (x : Core) : (s.setCore c x).agenda = s.agenda := rfl
@[simp] theorem State.setCore_focus (s : State) (c : Nat) (x : Core) : (s.setCore c x).focus = s.focus := rfl
@[simp] theorem State.setCore_cur (s : State) (c : Nat) (x : Core) : (s.setCore c x).cur = s.cur := rfl
@[simp] theorem State.setCore_ir (s : State) (c : Nat) (x : Core) : (s.setCore c x).ir = s.ir := rfl
@[simp] theorem State.setCore_trapped (s : State) (c : Nat) (x : Core) : (s.setCore c x).trapped = s.trapped := rfl
@[simp] theorem State.setCore_lag (s : State) (c : Nat) (x : Core) : (s.setCore c x).lag = s.lag := rfl
@[simp] theorem State.setCore_free (s : State) (c : Nat) (x : Core) : (s.setCore c x).free = s.free := rfl

/-! ### setCluster -/

@[simp] theorem State.setCluster_strands (s : State) (c : Nat) (x : Cluster) : (s.setCluster c x).strands = s.strands := rfl
@[simp] theorem State.setCluster_cores (s : State) (c : Nat) (x : Cluster) : (s.setCluster c x).cores = s.cores := rfl
@[simp] theorem State.setCluster_rows (s : State) (c : Nat) (x : Cluster) : (s.setCluster c x).rows = s.rows := rfl
@[simp] theorem State.setCluster_clusters (s : State) (c : Nat) (x : Cluster) : (s.setCluster c x).clusters = FMap.put s.clusters c x := rfl
@[simp] theorem State.setCluster_dies (s : State) (c : Nat) (x : Cluster) : (s.setCluster c x).dies = s.dies := rfl
@[simp] theorem State.setCluster_streams (s : State) (c : Nat) (x : Cluster) : (s.setCluster c x).streams = s.streams := rfl
@[simp] theorem State.setCluster_launches (s : State) (c : Nat) (x : Cluster) : (s.setCluster c x).launches = s.launches := rfl
@[simp] theorem State.setCluster_events (s : State) (c : Nat) (x : Cluster) : (s.setCluster c x).events = s.events := rfl
@[simp] theorem State.setCluster_crews (s : State) (c : Nat) (x : Cluster) : (s.setCluster c x).crews = s.crews := rfl
@[simp] theorem State.setCluster_saved (s : State) (c : Nat) (x : Cluster) : (s.setCluster c x).saved = s.saved := rfl
@[simp] theorem State.setCluster_images (s : State) (c : Nat) (x : Cluster) : (s.setCluster c x).images = s.images := rfl
@[simp] theorem State.setCluster_jobs (s : State) (c : Nat) (x : Cluster) : (s.setCluster c x).jobs = s.jobs := rfl
@[simp] theorem State.setCluster_transit (s : State) (c : Nat) (x : Cluster) : (s.setCluster c x).transit = s.transit := rfl
@[simp] theorem State.setCluster_departed (s : State) (c : Nat) (x : Cluster) : (s.setCluster c x).departed = s.departed := rfl
@[simp] theorem State.setCluster_flips (s : State) (c : Nat) (x : Cluster) : (s.setCluster c x).flips = s.flips := rfl
@[simp] theorem State.setCluster_sides (s : State) (c : Nat) (x : Cluster) : (s.setCluster c x).sides = s.sides := rfl
@[simp] theorem State.setCluster_asked (s : State) (c : Nat) (x : Cluster) : (s.setCluster c x).asked = s.asked := rfl
@[simp] theorem State.setCluster_mem (s : State) (c : Nat) (x : Cluster) : (s.setCluster c x).mem = s.mem := rfl
@[simp] theorem State.setCluster_failing (s : State) (c : Nat) (x : Cluster) : (s.setCluster c x).failing = s.failing := rfl
@[simp] theorem State.setCluster_laws (s : State) (c : Nat) (x : Cluster) : (s.setCluster c x).laws = s.laws := rfl
@[simp] theorem State.setCluster_regions (s : State) (c : Nat) (x : Cluster) : (s.setCluster c x).regions = s.regions := rfl
@[simp] theorem State.setCluster_swept (s : State) (c : Nat) (x : Cluster) : (s.setCluster c x).swept = s.swept := rfl
@[simp] theorem State.setCluster_posted (s : State) (c : Nat) (x : Cluster) : (s.setCluster c x).posted = s.posted := rfl
@[simp] theorem State.setCluster_domain (s : State) (c : Nat) (x : Cluster) : (s.setCluster c x).domain = s.domain := rfl
@[simp] theorem State.setCluster_groups (s : State) (c : Nat) (x : Cluster) : (s.setCluster c x).groups = s.groups := rfl
@[simp] theorem State.setCluster_boot (s : State) (c : Nat) (x : Cluster) : (s.setCluster c x).boot = s.boot := rfl
@[simp] theorem State.setCluster_measures (s : State) (c : Nat) (x : Cluster) : (s.setCluster c x).measures = s.measures := rfl
@[simp] theorem State.setCluster_wallTide (s : State) (c : Nat) (x : Cluster) : (s.setCluster c x).wallTide = s.wallTide := rfl
@[simp] theorem State.setCluster_plimit (s : State) (c : Nat) (x : Cluster) : (s.setCluster c x).plimit = s.plimit := rfl
@[simp] theorem State.setCluster_slope (s : State) (c : Nat) (x : Cluster) : (s.setCluster c x).slope = s.slope := rfl
@[simp] theorem State.setCluster_crbase (s : State) (c : Nat) (x : Cluster) : (s.setCluster c x).crbase = s.crbase := rfl
@[simp] theorem State.setCluster_fwEntry (s : State) (c : Nat) (x : Cluster) : (s.setCluster c x).fwEntry = s.fwEntry := rfl
@[simp] theorem State.setCluster_fwLawtab (s : State) (c : Nat) (x : Cluster) : (s.setCluster c x).fwLawtab = s.fwLawtab := rfl
@[simp] theorem State.setCluster_extLimit (s : State) (c : Nat) (x : Cluster) : (s.setCluster c x).extLimit = s.extLimit := rfl
@[simp] theorem State.setCluster_frozen (s : State) (c : Nat) (x : Cluster) : (s.setCluster c x).frozen = s.frozen := rfl
@[simp] theorem State.setCluster_dead (s : State) (c : Nat) (x : Cluster) : (s.setCluster c x).dead = s.dead := rfl
@[simp] theorem State.setCluster_powered (s : State) (c : Nat) (x : Cluster) : (s.setCluster c x).powered = s.powered := rfl
@[simp] theorem State.setCluster_reply (s : State) (c : Nat) (x : Cluster) : (s.setCluster c x).reply = s.reply := rfl
@[simp] theorem State.setCluster_agenda (s : State) (c : Nat) (x : Cluster) : (s.setCluster c x).agenda = s.agenda := rfl
@[simp] theorem State.setCluster_focus (s : State) (c : Nat) (x : Cluster) : (s.setCluster c x).focus = s.focus := rfl
@[simp] theorem State.setCluster_cur (s : State) (c : Nat) (x : Cluster) : (s.setCluster c x).cur = s.cur := rfl
@[simp] theorem State.setCluster_ir (s : State) (c : Nat) (x : Cluster) : (s.setCluster c x).ir = s.ir := rfl
@[simp] theorem State.setCluster_trapped (s : State) (c : Nat) (x : Cluster) : (s.setCluster c x).trapped = s.trapped := rfl
@[simp] theorem State.setCluster_lag (s : State) (c : Nat) (x : Cluster) : (s.setCluster c x).lag = s.lag := rfl
@[simp] theorem State.setCluster_free (s : State) (c : Nat) (x : Cluster) : (s.setCluster c x).free = s.free := rfl

/-! ### setDie -/

@[simp] theorem State.setDie_strands (s : State) (d : Nat) (x : Die) : (s.setDie d x).strands = s.strands := rfl
@[simp] theorem State.setDie_cores (s : State) (d : Nat) (x : Die) : (s.setDie d x).cores = s.cores := rfl
@[simp] theorem State.setDie_rows (s : State) (d : Nat) (x : Die) : (s.setDie d x).rows = s.rows := rfl
@[simp] theorem State.setDie_clusters (s : State) (d : Nat) (x : Die) : (s.setDie d x).clusters = s.clusters := rfl
@[simp] theorem State.setDie_dies (s : State) (d : Nat) (x : Die) : (s.setDie d x).dies = FMap.put s.dies d x := rfl
@[simp] theorem State.setDie_streams (s : State) (d : Nat) (x : Die) : (s.setDie d x).streams = s.streams := rfl
@[simp] theorem State.setDie_launches (s : State) (d : Nat) (x : Die) : (s.setDie d x).launches = s.launches := rfl
@[simp] theorem State.setDie_events (s : State) (d : Nat) (x : Die) : (s.setDie d x).events = s.events := rfl
@[simp] theorem State.setDie_crews (s : State) (d : Nat) (x : Die) : (s.setDie d x).crews = s.crews := rfl
@[simp] theorem State.setDie_saved (s : State) (d : Nat) (x : Die) : (s.setDie d x).saved = s.saved := rfl
@[simp] theorem State.setDie_images (s : State) (d : Nat) (x : Die) : (s.setDie d x).images = s.images := rfl
@[simp] theorem State.setDie_jobs (s : State) (d : Nat) (x : Die) : (s.setDie d x).jobs = s.jobs := rfl
@[simp] theorem State.setDie_transit (s : State) (d : Nat) (x : Die) : (s.setDie d x).transit = s.transit := rfl
@[simp] theorem State.setDie_departed (s : State) (d : Nat) (x : Die) : (s.setDie d x).departed = s.departed := rfl
@[simp] theorem State.setDie_flips (s : State) (d : Nat) (x : Die) : (s.setDie d x).flips = s.flips := rfl
@[simp] theorem State.setDie_sides (s : State) (d : Nat) (x : Die) : (s.setDie d x).sides = s.sides := rfl
@[simp] theorem State.setDie_asked (s : State) (d : Nat) (x : Die) : (s.setDie d x).asked = s.asked := rfl
@[simp] theorem State.setDie_mem (s : State) (d : Nat) (x : Die) : (s.setDie d x).mem = s.mem := rfl
@[simp] theorem State.setDie_failing (s : State) (d : Nat) (x : Die) : (s.setDie d x).failing = s.failing := rfl
@[simp] theorem State.setDie_laws (s : State) (d : Nat) (x : Die) : (s.setDie d x).laws = s.laws := rfl
@[simp] theorem State.setDie_regions (s : State) (d : Nat) (x : Die) : (s.setDie d x).regions = s.regions := rfl
@[simp] theorem State.setDie_swept (s : State) (d : Nat) (x : Die) : (s.setDie d x).swept = s.swept := rfl
@[simp] theorem State.setDie_posted (s : State) (d : Nat) (x : Die) : (s.setDie d x).posted = s.posted := rfl
@[simp] theorem State.setDie_domain (s : State) (d : Nat) (x : Die) : (s.setDie d x).domain = s.domain := rfl
@[simp] theorem State.setDie_groups (s : State) (d : Nat) (x : Die) : (s.setDie d x).groups = s.groups := rfl
@[simp] theorem State.setDie_boot (s : State) (d : Nat) (x : Die) : (s.setDie d x).boot = s.boot := rfl
@[simp] theorem State.setDie_measures (s : State) (d : Nat) (x : Die) : (s.setDie d x).measures = s.measures := rfl
@[simp] theorem State.setDie_wallTide (s : State) (d : Nat) (x : Die) : (s.setDie d x).wallTide = s.wallTide := rfl
@[simp] theorem State.setDie_plimit (s : State) (d : Nat) (x : Die) : (s.setDie d x).plimit = s.plimit := rfl
@[simp] theorem State.setDie_slope (s : State) (d : Nat) (x : Die) : (s.setDie d x).slope = s.slope := rfl
@[simp] theorem State.setDie_crbase (s : State) (d : Nat) (x : Die) : (s.setDie d x).crbase = s.crbase := rfl
@[simp] theorem State.setDie_fwEntry (s : State) (d : Nat) (x : Die) : (s.setDie d x).fwEntry = s.fwEntry := rfl
@[simp] theorem State.setDie_fwLawtab (s : State) (d : Nat) (x : Die) : (s.setDie d x).fwLawtab = s.fwLawtab := rfl
@[simp] theorem State.setDie_extLimit (s : State) (d : Nat) (x : Die) : (s.setDie d x).extLimit = s.extLimit := rfl
@[simp] theorem State.setDie_frozen (s : State) (d : Nat) (x : Die) : (s.setDie d x).frozen = s.frozen := rfl
@[simp] theorem State.setDie_dead (s : State) (d : Nat) (x : Die) : (s.setDie d x).dead = s.dead := rfl
@[simp] theorem State.setDie_powered (s : State) (d : Nat) (x : Die) : (s.setDie d x).powered = s.powered := rfl
@[simp] theorem State.setDie_reply (s : State) (d : Nat) (x : Die) : (s.setDie d x).reply = s.reply := rfl
@[simp] theorem State.setDie_agenda (s : State) (d : Nat) (x : Die) : (s.setDie d x).agenda = s.agenda := rfl
@[simp] theorem State.setDie_focus (s : State) (d : Nat) (x : Die) : (s.setDie d x).focus = s.focus := rfl
@[simp] theorem State.setDie_cur (s : State) (d : Nat) (x : Die) : (s.setDie d x).cur = s.cur := rfl
@[simp] theorem State.setDie_ir (s : State) (d : Nat) (x : Die) : (s.setDie d x).ir = s.ir := rfl
@[simp] theorem State.setDie_trapped (s : State) (d : Nat) (x : Die) : (s.setDie d x).trapped = s.trapped := rfl
@[simp] theorem State.setDie_lag (s : State) (d : Nat) (x : Die) : (s.setDie d x).lag = s.lag := rfl
@[simp] theorem State.setDie_free (s : State) (d : Nat) (x : Die) : (s.setDie d x).free = s.free := rfl

/-! ### setCrew -/

@[simp] theorem State.setCrew_strands (s : State) (k : Nat) (x : Crew) : (s.setCrew k x).strands = s.strands := rfl
@[simp] theorem State.setCrew_cores (s : State) (k : Nat) (x : Crew) : (s.setCrew k x).cores = s.cores := rfl
@[simp] theorem State.setCrew_rows (s : State) (k : Nat) (x : Crew) : (s.setCrew k x).rows = s.rows := rfl
@[simp] theorem State.setCrew_clusters (s : State) (k : Nat) (x : Crew) : (s.setCrew k x).clusters = s.clusters := rfl
@[simp] theorem State.setCrew_dies (s : State) (k : Nat) (x : Crew) : (s.setCrew k x).dies = s.dies := rfl
@[simp] theorem State.setCrew_streams (s : State) (k : Nat) (x : Crew) : (s.setCrew k x).streams = s.streams := rfl
@[simp] theorem State.setCrew_launches (s : State) (k : Nat) (x : Crew) : (s.setCrew k x).launches = s.launches := rfl
@[simp] theorem State.setCrew_events (s : State) (k : Nat) (x : Crew) : (s.setCrew k x).events = s.events := rfl
@[simp] theorem State.setCrew_crews (s : State) (k : Nat) (x : Crew) : (s.setCrew k x).crews = FMap.put s.crews k x := rfl
@[simp] theorem State.setCrew_saved (s : State) (k : Nat) (x : Crew) : (s.setCrew k x).saved = s.saved := rfl
@[simp] theorem State.setCrew_images (s : State) (k : Nat) (x : Crew) : (s.setCrew k x).images = s.images := rfl
@[simp] theorem State.setCrew_jobs (s : State) (k : Nat) (x : Crew) : (s.setCrew k x).jobs = s.jobs := rfl
@[simp] theorem State.setCrew_transit (s : State) (k : Nat) (x : Crew) : (s.setCrew k x).transit = s.transit := rfl
@[simp] theorem State.setCrew_departed (s : State) (k : Nat) (x : Crew) : (s.setCrew k x).departed = s.departed := rfl
@[simp] theorem State.setCrew_flips (s : State) (k : Nat) (x : Crew) : (s.setCrew k x).flips = s.flips := rfl
@[simp] theorem State.setCrew_sides (s : State) (k : Nat) (x : Crew) : (s.setCrew k x).sides = s.sides := rfl
@[simp] theorem State.setCrew_asked (s : State) (k : Nat) (x : Crew) : (s.setCrew k x).asked = s.asked := rfl
@[simp] theorem State.setCrew_mem (s : State) (k : Nat) (x : Crew) : (s.setCrew k x).mem = s.mem := rfl
@[simp] theorem State.setCrew_failing (s : State) (k : Nat) (x : Crew) : (s.setCrew k x).failing = s.failing := rfl
@[simp] theorem State.setCrew_laws (s : State) (k : Nat) (x : Crew) : (s.setCrew k x).laws = s.laws := rfl
@[simp] theorem State.setCrew_regions (s : State) (k : Nat) (x : Crew) : (s.setCrew k x).regions = s.regions := rfl
@[simp] theorem State.setCrew_swept (s : State) (k : Nat) (x : Crew) : (s.setCrew k x).swept = s.swept := rfl
@[simp] theorem State.setCrew_posted (s : State) (k : Nat) (x : Crew) : (s.setCrew k x).posted = s.posted := rfl
@[simp] theorem State.setCrew_domain (s : State) (k : Nat) (x : Crew) : (s.setCrew k x).domain = s.domain := rfl
@[simp] theorem State.setCrew_groups (s : State) (k : Nat) (x : Crew) : (s.setCrew k x).groups = s.groups := rfl
@[simp] theorem State.setCrew_boot (s : State) (k : Nat) (x : Crew) : (s.setCrew k x).boot = s.boot := rfl
@[simp] theorem State.setCrew_measures (s : State) (k : Nat) (x : Crew) : (s.setCrew k x).measures = s.measures := rfl
@[simp] theorem State.setCrew_wallTide (s : State) (k : Nat) (x : Crew) : (s.setCrew k x).wallTide = s.wallTide := rfl
@[simp] theorem State.setCrew_plimit (s : State) (k : Nat) (x : Crew) : (s.setCrew k x).plimit = s.plimit := rfl
@[simp] theorem State.setCrew_slope (s : State) (k : Nat) (x : Crew) : (s.setCrew k x).slope = s.slope := rfl
@[simp] theorem State.setCrew_crbase (s : State) (k : Nat) (x : Crew) : (s.setCrew k x).crbase = s.crbase := rfl
@[simp] theorem State.setCrew_fwEntry (s : State) (k : Nat) (x : Crew) : (s.setCrew k x).fwEntry = s.fwEntry := rfl
@[simp] theorem State.setCrew_fwLawtab (s : State) (k : Nat) (x : Crew) : (s.setCrew k x).fwLawtab = s.fwLawtab := rfl
@[simp] theorem State.setCrew_extLimit (s : State) (k : Nat) (x : Crew) : (s.setCrew k x).extLimit = s.extLimit := rfl
@[simp] theorem State.setCrew_frozen (s : State) (k : Nat) (x : Crew) : (s.setCrew k x).frozen = s.frozen := rfl
@[simp] theorem State.setCrew_dead (s : State) (k : Nat) (x : Crew) : (s.setCrew k x).dead = s.dead := rfl
@[simp] theorem State.setCrew_powered (s : State) (k : Nat) (x : Crew) : (s.setCrew k x).powered = s.powered := rfl
@[simp] theorem State.setCrew_reply (s : State) (k : Nat) (x : Crew) : (s.setCrew k x).reply = s.reply := rfl
@[simp] theorem State.setCrew_agenda (s : State) (k : Nat) (x : Crew) : (s.setCrew k x).agenda = s.agenda := rfl
@[simp] theorem State.setCrew_focus (s : State) (k : Nat) (x : Crew) : (s.setCrew k x).focus = s.focus := rfl
@[simp] theorem State.setCrew_cur (s : State) (k : Nat) (x : Crew) : (s.setCrew k x).cur = s.cur := rfl
@[simp] theorem State.setCrew_ir (s : State) (k : Nat) (x : Crew) : (s.setCrew k x).ir = s.ir := rfl
@[simp] theorem State.setCrew_trapped (s : State) (k : Nat) (x : Crew) : (s.setCrew k x).trapped = s.trapped := rfl
@[simp] theorem State.setCrew_lag (s : State) (k : Nat) (x : Crew) : (s.setCrew k x).lag = s.lag := rfl
@[simp] theorem State.setCrew_free (s : State) (k : Nat) (x : Crew) : (s.setCrew k x).free = s.free := rfl

/-! ### setRow -/

@[simp] theorem State.setRow_strands (s : State) (r : Nat) (x : Row) : (s.setRow r x).strands = s.strands := rfl
@[simp] theorem State.setRow_cores (s : State) (r : Nat) (x : Row) : (s.setRow r x).cores = s.cores := rfl
@[simp] theorem State.setRow_rows (s : State) (r : Nat) (x : Row) : (s.setRow r x).rows = FMap.put s.rows r x := rfl
@[simp] theorem State.setRow_clusters (s : State) (r : Nat) (x : Row) : (s.setRow r x).clusters = s.clusters := rfl
@[simp] theorem State.setRow_dies (s : State) (r : Nat) (x : Row) : (s.setRow r x).dies = s.dies := rfl
@[simp] theorem State.setRow_streams (s : State) (r : Nat) (x : Row) : (s.setRow r x).streams = s.streams := rfl
@[simp] theorem State.setRow_launches (s : State) (r : Nat) (x : Row) : (s.setRow r x).launches = s.launches := rfl
@[simp] theorem State.setRow_events (s : State) (r : Nat) (x : Row) : (s.setRow r x).events = s.events := rfl
@[simp] theorem State.setRow_crews (s : State) (r : Nat) (x : Row) : (s.setRow r x).crews = s.crews := rfl
@[simp] theorem State.setRow_saved (s : State) (r : Nat) (x : Row) : (s.setRow r x).saved = s.saved := rfl
@[simp] theorem State.setRow_images (s : State) (r : Nat) (x : Row) : (s.setRow r x).images = s.images := rfl
@[simp] theorem State.setRow_jobs (s : State) (r : Nat) (x : Row) : (s.setRow r x).jobs = s.jobs := rfl
@[simp] theorem State.setRow_transit (s : State) (r : Nat) (x : Row) : (s.setRow r x).transit = s.transit := rfl
@[simp] theorem State.setRow_departed (s : State) (r : Nat) (x : Row) : (s.setRow r x).departed = s.departed := rfl
@[simp] theorem State.setRow_flips (s : State) (r : Nat) (x : Row) : (s.setRow r x).flips = s.flips := rfl
@[simp] theorem State.setRow_sides (s : State) (r : Nat) (x : Row) : (s.setRow r x).sides = s.sides := rfl
@[simp] theorem State.setRow_asked (s : State) (r : Nat) (x : Row) : (s.setRow r x).asked = s.asked := rfl
@[simp] theorem State.setRow_mem (s : State) (r : Nat) (x : Row) : (s.setRow r x).mem = s.mem := rfl
@[simp] theorem State.setRow_failing (s : State) (r : Nat) (x : Row) : (s.setRow r x).failing = s.failing := rfl
@[simp] theorem State.setRow_laws (s : State) (r : Nat) (x : Row) : (s.setRow r x).laws = s.laws := rfl
@[simp] theorem State.setRow_regions (s : State) (r : Nat) (x : Row) : (s.setRow r x).regions = s.regions := rfl
@[simp] theorem State.setRow_swept (s : State) (r : Nat) (x : Row) : (s.setRow r x).swept = s.swept := rfl
@[simp] theorem State.setRow_posted (s : State) (r : Nat) (x : Row) : (s.setRow r x).posted = s.posted := rfl
@[simp] theorem State.setRow_domain (s : State) (r : Nat) (x : Row) : (s.setRow r x).domain = s.domain := rfl
@[simp] theorem State.setRow_groups (s : State) (r : Nat) (x : Row) : (s.setRow r x).groups = s.groups := rfl
@[simp] theorem State.setRow_boot (s : State) (r : Nat) (x : Row) : (s.setRow r x).boot = s.boot := rfl
@[simp] theorem State.setRow_measures (s : State) (r : Nat) (x : Row) : (s.setRow r x).measures = s.measures := rfl
@[simp] theorem State.setRow_wallTide (s : State) (r : Nat) (x : Row) : (s.setRow r x).wallTide = s.wallTide := rfl
@[simp] theorem State.setRow_plimit (s : State) (r : Nat) (x : Row) : (s.setRow r x).plimit = s.plimit := rfl
@[simp] theorem State.setRow_slope (s : State) (r : Nat) (x : Row) : (s.setRow r x).slope = s.slope := rfl
@[simp] theorem State.setRow_crbase (s : State) (r : Nat) (x : Row) : (s.setRow r x).crbase = s.crbase := rfl
@[simp] theorem State.setRow_fwEntry (s : State) (r : Nat) (x : Row) : (s.setRow r x).fwEntry = s.fwEntry := rfl
@[simp] theorem State.setRow_fwLawtab (s : State) (r : Nat) (x : Row) : (s.setRow r x).fwLawtab = s.fwLawtab := rfl
@[simp] theorem State.setRow_extLimit (s : State) (r : Nat) (x : Row) : (s.setRow r x).extLimit = s.extLimit := rfl
@[simp] theorem State.setRow_frozen (s : State) (r : Nat) (x : Row) : (s.setRow r x).frozen = s.frozen := rfl
@[simp] theorem State.setRow_dead (s : State) (r : Nat) (x : Row) : (s.setRow r x).dead = s.dead := rfl
@[simp] theorem State.setRow_powered (s : State) (r : Nat) (x : Row) : (s.setRow r x).powered = s.powered := rfl
@[simp] theorem State.setRow_reply (s : State) (r : Nat) (x : Row) : (s.setRow r x).reply = s.reply := rfl
@[simp] theorem State.setRow_agenda (s : State) (r : Nat) (x : Row) : (s.setRow r x).agenda = s.agenda := rfl
@[simp] theorem State.setRow_focus (s : State) (r : Nat) (x : Row) : (s.setRow r x).focus = s.focus := rfl
@[simp] theorem State.setRow_cur (s : State) (r : Nat) (x : Row) : (s.setRow r x).cur = s.cur := rfl
@[simp] theorem State.setRow_ir (s : State) (r : Nat) (x : Row) : (s.setRow r x).ir = s.ir := rfl
@[simp] theorem State.setRow_trapped (s : State) (r : Nat) (x : Row) : (s.setRow r x).trapped = s.trapped := rfl
@[simp] theorem State.setRow_lag (s : State) (r : Nat) (x : Row) : (s.setRow r x).lag = s.lag := rfl
@[simp] theorem State.setRow_free (s : State) (r : Nat) (x : Row) : (s.setRow r x).free = s.free := rfl

/-! ### onStrand -/

@[simp] theorem State.onStrand_strands (s : State) (w : StrandId) (f : Strand → Strand) : (s.onStrand w f).strands = FMap.put s.strands (StrandId.key w) (f (s.strand w)) := rfl
@[simp] theorem State.onStrand_cores (s : State) (w : StrandId) (f : Strand → Strand) : (s.onStrand w f).cores = s.cores := rfl
@[simp] theorem State.onStrand_rows (s : State) (w : StrandId) (f : Strand → Strand) : (s.onStrand w f).rows = s.rows := rfl
@[simp] theorem State.onStrand_clusters (s : State) (w : StrandId) (f : Strand → Strand) : (s.onStrand w f).clusters = s.clusters := rfl
@[simp] theorem State.onStrand_dies (s : State) (w : StrandId) (f : Strand → Strand) : (s.onStrand w f).dies = s.dies := rfl
@[simp] theorem State.onStrand_streams (s : State) (w : StrandId) (f : Strand → Strand) : (s.onStrand w f).streams = s.streams := rfl
@[simp] theorem State.onStrand_launches (s : State) (w : StrandId) (f : Strand → Strand) : (s.onStrand w f).launches = s.launches := rfl
@[simp] theorem State.onStrand_events (s : State) (w : StrandId) (f : Strand → Strand) : (s.onStrand w f).events = s.events := rfl
@[simp] theorem State.onStrand_crews (s : State) (w : StrandId) (f : Strand → Strand) : (s.onStrand w f).crews = s.crews := rfl
@[simp] theorem State.onStrand_saved (s : State) (w : StrandId) (f : Strand → Strand) : (s.onStrand w f).saved = s.saved := rfl
@[simp] theorem State.onStrand_images (s : State) (w : StrandId) (f : Strand → Strand) : (s.onStrand w f).images = s.images := rfl
@[simp] theorem State.onStrand_jobs (s : State) (w : StrandId) (f : Strand → Strand) : (s.onStrand w f).jobs = s.jobs := rfl
@[simp] theorem State.onStrand_transit (s : State) (w : StrandId) (f : Strand → Strand) : (s.onStrand w f).transit = s.transit := rfl
@[simp] theorem State.onStrand_departed (s : State) (w : StrandId) (f : Strand → Strand) : (s.onStrand w f).departed = s.departed := rfl
@[simp] theorem State.onStrand_flips (s : State) (w : StrandId) (f : Strand → Strand) : (s.onStrand w f).flips = s.flips := rfl
@[simp] theorem State.onStrand_sides (s : State) (w : StrandId) (f : Strand → Strand) : (s.onStrand w f).sides = s.sides := rfl
@[simp] theorem State.onStrand_asked (s : State) (w : StrandId) (f : Strand → Strand) : (s.onStrand w f).asked = s.asked := rfl
@[simp] theorem State.onStrand_mem (s : State) (w : StrandId) (f : Strand → Strand) : (s.onStrand w f).mem = s.mem := rfl
@[simp] theorem State.onStrand_failing (s : State) (w : StrandId) (f : Strand → Strand) : (s.onStrand w f).failing = s.failing := rfl
@[simp] theorem State.onStrand_laws (s : State) (w : StrandId) (f : Strand → Strand) : (s.onStrand w f).laws = s.laws := rfl
@[simp] theorem State.onStrand_regions (s : State) (w : StrandId) (f : Strand → Strand) : (s.onStrand w f).regions = s.regions := rfl
@[simp] theorem State.onStrand_swept (s : State) (w : StrandId) (f : Strand → Strand) : (s.onStrand w f).swept = s.swept := rfl
@[simp] theorem State.onStrand_posted (s : State) (w : StrandId) (f : Strand → Strand) : (s.onStrand w f).posted = s.posted := rfl
@[simp] theorem State.onStrand_domain (s : State) (w : StrandId) (f : Strand → Strand) : (s.onStrand w f).domain = s.domain := rfl
@[simp] theorem State.onStrand_groups (s : State) (w : StrandId) (f : Strand → Strand) : (s.onStrand w f).groups = s.groups := rfl
@[simp] theorem State.onStrand_boot (s : State) (w : StrandId) (f : Strand → Strand) : (s.onStrand w f).boot = s.boot := rfl
@[simp] theorem State.onStrand_measures (s : State) (w : StrandId) (f : Strand → Strand) : (s.onStrand w f).measures = s.measures := rfl
@[simp] theorem State.onStrand_wallTide (s : State) (w : StrandId) (f : Strand → Strand) : (s.onStrand w f).wallTide = s.wallTide := rfl
@[simp] theorem State.onStrand_plimit (s : State) (w : StrandId) (f : Strand → Strand) : (s.onStrand w f).plimit = s.plimit := rfl
@[simp] theorem State.onStrand_slope (s : State) (w : StrandId) (f : Strand → Strand) : (s.onStrand w f).slope = s.slope := rfl
@[simp] theorem State.onStrand_crbase (s : State) (w : StrandId) (f : Strand → Strand) : (s.onStrand w f).crbase = s.crbase := rfl
@[simp] theorem State.onStrand_fwEntry (s : State) (w : StrandId) (f : Strand → Strand) : (s.onStrand w f).fwEntry = s.fwEntry := rfl
@[simp] theorem State.onStrand_fwLawtab (s : State) (w : StrandId) (f : Strand → Strand) : (s.onStrand w f).fwLawtab = s.fwLawtab := rfl
@[simp] theorem State.onStrand_extLimit (s : State) (w : StrandId) (f : Strand → Strand) : (s.onStrand w f).extLimit = s.extLimit := rfl
@[simp] theorem State.onStrand_frozen (s : State) (w : StrandId) (f : Strand → Strand) : (s.onStrand w f).frozen = s.frozen := rfl
@[simp] theorem State.onStrand_dead (s : State) (w : StrandId) (f : Strand → Strand) : (s.onStrand w f).dead = s.dead := rfl
@[simp] theorem State.onStrand_powered (s : State) (w : StrandId) (f : Strand → Strand) : (s.onStrand w f).powered = s.powered := rfl
@[simp] theorem State.onStrand_reply (s : State) (w : StrandId) (f : Strand → Strand) : (s.onStrand w f).reply = s.reply := rfl
@[simp] theorem State.onStrand_agenda (s : State) (w : StrandId) (f : Strand → Strand) : (s.onStrand w f).agenda = s.agenda := rfl
@[simp] theorem State.onStrand_focus (s : State) (w : StrandId) (f : Strand → Strand) : (s.onStrand w f).focus = s.focus := rfl
@[simp] theorem State.onStrand_cur (s : State) (w : StrandId) (f : Strand → Strand) : (s.onStrand w f).cur = s.cur := rfl
@[simp] theorem State.onStrand_ir (s : State) (w : StrandId) (f : Strand → Strand) : (s.onStrand w f).ir = s.ir := rfl
@[simp] theorem State.onStrand_trapped (s : State) (w : StrandId) (f : Strand → Strand) : (s.onStrand w f).trapped = s.trapped := rfl
@[simp] theorem State.onStrand_lag (s : State) (w : StrandId) (f : Strand → Strand) : (s.onStrand w f).lag = s.lag := rfl
@[simp] theorem State.onStrand_free (s : State) (w : StrandId) (f : Strand → Strand) : (s.onStrand w f).free = s.free := rfl

/-! ### onCore -/

@[simp] theorem State.onCore_strands (s : State) (c : Nat) (f : Core → Core) : (s.onCore c f).strands = s.strands := rfl
@[simp] theorem State.onCore_cores (s : State) (c : Nat) (f : Core → Core) : (s.onCore c f).cores = FMap.put s.cores c (f (s.core c)) := rfl
@[simp] theorem State.onCore_rows (s : State) (c : Nat) (f : Core → Core) : (s.onCore c f).rows = s.rows := rfl
@[simp] theorem State.onCore_clusters (s : State) (c : Nat) (f : Core → Core) : (s.onCore c f).clusters = s.clusters := rfl
@[simp] theorem State.onCore_dies (s : State) (c : Nat) (f : Core → Core) : (s.onCore c f).dies = s.dies := rfl
@[simp] theorem State.onCore_streams (s : State) (c : Nat) (f : Core → Core) : (s.onCore c f).streams = s.streams := rfl
@[simp] theorem State.onCore_launches (s : State) (c : Nat) (f : Core → Core) : (s.onCore c f).launches = s.launches := rfl
@[simp] theorem State.onCore_events (s : State) (c : Nat) (f : Core → Core) : (s.onCore c f).events = s.events := rfl
@[simp] theorem State.onCore_crews (s : State) (c : Nat) (f : Core → Core) : (s.onCore c f).crews = s.crews := rfl
@[simp] theorem State.onCore_saved (s : State) (c : Nat) (f : Core → Core) : (s.onCore c f).saved = s.saved := rfl
@[simp] theorem State.onCore_images (s : State) (c : Nat) (f : Core → Core) : (s.onCore c f).images = s.images := rfl
@[simp] theorem State.onCore_jobs (s : State) (c : Nat) (f : Core → Core) : (s.onCore c f).jobs = s.jobs := rfl
@[simp] theorem State.onCore_transit (s : State) (c : Nat) (f : Core → Core) : (s.onCore c f).transit = s.transit := rfl
@[simp] theorem State.onCore_departed (s : State) (c : Nat) (f : Core → Core) : (s.onCore c f).departed = s.departed := rfl
@[simp] theorem State.onCore_flips (s : State) (c : Nat) (f : Core → Core) : (s.onCore c f).flips = s.flips := rfl
@[simp] theorem State.onCore_sides (s : State) (c : Nat) (f : Core → Core) : (s.onCore c f).sides = s.sides := rfl
@[simp] theorem State.onCore_asked (s : State) (c : Nat) (f : Core → Core) : (s.onCore c f).asked = s.asked := rfl
@[simp] theorem State.onCore_mem (s : State) (c : Nat) (f : Core → Core) : (s.onCore c f).mem = s.mem := rfl
@[simp] theorem State.onCore_failing (s : State) (c : Nat) (f : Core → Core) : (s.onCore c f).failing = s.failing := rfl
@[simp] theorem State.onCore_laws (s : State) (c : Nat) (f : Core → Core) : (s.onCore c f).laws = s.laws := rfl
@[simp] theorem State.onCore_regions (s : State) (c : Nat) (f : Core → Core) : (s.onCore c f).regions = s.regions := rfl
@[simp] theorem State.onCore_swept (s : State) (c : Nat) (f : Core → Core) : (s.onCore c f).swept = s.swept := rfl
@[simp] theorem State.onCore_posted (s : State) (c : Nat) (f : Core → Core) : (s.onCore c f).posted = s.posted := rfl
@[simp] theorem State.onCore_domain (s : State) (c : Nat) (f : Core → Core) : (s.onCore c f).domain = s.domain := rfl
@[simp] theorem State.onCore_groups (s : State) (c : Nat) (f : Core → Core) : (s.onCore c f).groups = s.groups := rfl
@[simp] theorem State.onCore_boot (s : State) (c : Nat) (f : Core → Core) : (s.onCore c f).boot = s.boot := rfl
@[simp] theorem State.onCore_measures (s : State) (c : Nat) (f : Core → Core) : (s.onCore c f).measures = s.measures := rfl
@[simp] theorem State.onCore_wallTide (s : State) (c : Nat) (f : Core → Core) : (s.onCore c f).wallTide = s.wallTide := rfl
@[simp] theorem State.onCore_plimit (s : State) (c : Nat) (f : Core → Core) : (s.onCore c f).plimit = s.plimit := rfl
@[simp] theorem State.onCore_slope (s : State) (c : Nat) (f : Core → Core) : (s.onCore c f).slope = s.slope := rfl
@[simp] theorem State.onCore_crbase (s : State) (c : Nat) (f : Core → Core) : (s.onCore c f).crbase = s.crbase := rfl
@[simp] theorem State.onCore_fwEntry (s : State) (c : Nat) (f : Core → Core) : (s.onCore c f).fwEntry = s.fwEntry := rfl
@[simp] theorem State.onCore_fwLawtab (s : State) (c : Nat) (f : Core → Core) : (s.onCore c f).fwLawtab = s.fwLawtab := rfl
@[simp] theorem State.onCore_extLimit (s : State) (c : Nat) (f : Core → Core) : (s.onCore c f).extLimit = s.extLimit := rfl
@[simp] theorem State.onCore_frozen (s : State) (c : Nat) (f : Core → Core) : (s.onCore c f).frozen = s.frozen := rfl
@[simp] theorem State.onCore_dead (s : State) (c : Nat) (f : Core → Core) : (s.onCore c f).dead = s.dead := rfl
@[simp] theorem State.onCore_powered (s : State) (c : Nat) (f : Core → Core) : (s.onCore c f).powered = s.powered := rfl
@[simp] theorem State.onCore_reply (s : State) (c : Nat) (f : Core → Core) : (s.onCore c f).reply = s.reply := rfl
@[simp] theorem State.onCore_agenda (s : State) (c : Nat) (f : Core → Core) : (s.onCore c f).agenda = s.agenda := rfl
@[simp] theorem State.onCore_focus (s : State) (c : Nat) (f : Core → Core) : (s.onCore c f).focus = s.focus := rfl
@[simp] theorem State.onCore_cur (s : State) (c : Nat) (f : Core → Core) : (s.onCore c f).cur = s.cur := rfl
@[simp] theorem State.onCore_ir (s : State) (c : Nat) (f : Core → Core) : (s.onCore c f).ir = s.ir := rfl
@[simp] theorem State.onCore_trapped (s : State) (c : Nat) (f : Core → Core) : (s.onCore c f).trapped = s.trapped := rfl
@[simp] theorem State.onCore_lag (s : State) (c : Nat) (f : Core → Core) : (s.onCore c f).lag = s.lag := rfl
@[simp] theorem State.onCore_free (s : State) (c : Nat) (f : Core → Core) : (s.onCore c f).free = s.free := rfl

/-! ### homeWrite -/

@[simp] theorem State.homeWrite_strands (s : State) (a : Nat) (b : Byte) : (s.homeWrite a b).strands = s.strands := rfl
@[simp] theorem State.homeWrite_cores (s : State) (a : Nat) (b : Byte) : (s.homeWrite a b).cores = s.cores := rfl
@[simp] theorem State.homeWrite_rows (s : State) (a : Nat) (b : Byte) : (s.homeWrite a b).rows = s.rows := rfl
@[simp] theorem State.homeWrite_clusters (s : State) (a : Nat) (b : Byte) : (s.homeWrite a b).clusters = s.clusters := rfl
@[simp] theorem State.homeWrite_dies (s : State) (a : Nat) (b : Byte) : (s.homeWrite a b).dies = s.dies := rfl
@[simp] theorem State.homeWrite_streams (s : State) (a : Nat) (b : Byte) : (s.homeWrite a b).streams = s.streams := rfl
@[simp] theorem State.homeWrite_launches (s : State) (a : Nat) (b : Byte) : (s.homeWrite a b).launches = s.launches := rfl
@[simp] theorem State.homeWrite_events (s : State) (a : Nat) (b : Byte) : (s.homeWrite a b).events = s.events := rfl
@[simp] theorem State.homeWrite_crews (s : State) (a : Nat) (b : Byte) : (s.homeWrite a b).crews = s.crews := rfl
@[simp] theorem State.homeWrite_saved (s : State) (a : Nat) (b : Byte) : (s.homeWrite a b).saved = s.saved := rfl
@[simp] theorem State.homeWrite_images (s : State) (a : Nat) (b : Byte) : (s.homeWrite a b).images = s.images := rfl
@[simp] theorem State.homeWrite_jobs (s : State) (a : Nat) (b : Byte) : (s.homeWrite a b).jobs = s.jobs := rfl
@[simp] theorem State.homeWrite_transit (s : State) (a : Nat) (b : Byte) : (s.homeWrite a b).transit = s.transit := rfl
@[simp] theorem State.homeWrite_departed (s : State) (a : Nat) (b : Byte) : (s.homeWrite a b).departed = s.departed := rfl
@[simp] theorem State.homeWrite_flips (s : State) (a : Nat) (b : Byte) : (s.homeWrite a b).flips = s.flips := rfl
@[simp] theorem State.homeWrite_sides (s : State) (a : Nat) (b : Byte) : (s.homeWrite a b).sides = s.sides := rfl
@[simp] theorem State.homeWrite_asked (s : State) (a : Nat) (b : Byte) : (s.homeWrite a b).asked = s.asked := rfl
@[simp] theorem State.homeWrite_mem (s : State) (a : Nat) (b : Byte) : (s.homeWrite a b).mem = imageWrite s.mem a b := rfl
@[simp] theorem State.homeWrite_failing (s : State) (a : Nat) (b : Byte) : (s.homeWrite a b).failing = (homeKeys a).foldl Failing.wrote s.failing := rfl
@[simp] theorem State.homeWrite_laws (s : State) (a : Nat) (b : Byte) : (s.homeWrite a b).laws = s.laws := rfl
@[simp] theorem State.homeWrite_regions (s : State) (a : Nat) (b : Byte) : (s.homeWrite a b).regions = s.regions := rfl
@[simp] theorem State.homeWrite_swept (s : State) (a : Nat) (b : Byte) : (s.homeWrite a b).swept = s.swept := rfl
@[simp] theorem State.homeWrite_posted (s : State) (a : Nat) (b : Byte) : (s.homeWrite a b).posted = s.posted := rfl
@[simp] theorem State.homeWrite_domain (s : State) (a : Nat) (b : Byte) : (s.homeWrite a b).domain = s.domain := rfl
@[simp] theorem State.homeWrite_groups (s : State) (a : Nat) (b : Byte) : (s.homeWrite a b).groups = s.groups := rfl
@[simp] theorem State.homeWrite_boot (s : State) (a : Nat) (b : Byte) : (s.homeWrite a b).boot = s.boot := rfl
@[simp] theorem State.homeWrite_measures (s : State) (a : Nat) (b : Byte) : (s.homeWrite a b).measures = s.measures := rfl
@[simp] theorem State.homeWrite_wallTide (s : State) (a : Nat) (b : Byte) : (s.homeWrite a b).wallTide = s.wallTide := rfl
@[simp] theorem State.homeWrite_plimit (s : State) (a : Nat) (b : Byte) : (s.homeWrite a b).plimit = s.plimit := rfl
@[simp] theorem State.homeWrite_slope (s : State) (a : Nat) (b : Byte) : (s.homeWrite a b).slope = s.slope := rfl
@[simp] theorem State.homeWrite_crbase (s : State) (a : Nat) (b : Byte) : (s.homeWrite a b).crbase = s.crbase := rfl
@[simp] theorem State.homeWrite_fwEntry (s : State) (a : Nat) (b : Byte) : (s.homeWrite a b).fwEntry = s.fwEntry := rfl
@[simp] theorem State.homeWrite_fwLawtab (s : State) (a : Nat) (b : Byte) : (s.homeWrite a b).fwLawtab = s.fwLawtab := rfl
@[simp] theorem State.homeWrite_extLimit (s : State) (a : Nat) (b : Byte) : (s.homeWrite a b).extLimit = s.extLimit := rfl
@[simp] theorem State.homeWrite_frozen (s : State) (a : Nat) (b : Byte) : (s.homeWrite a b).frozen = s.frozen := rfl
@[simp] theorem State.homeWrite_dead (s : State) (a : Nat) (b : Byte) : (s.homeWrite a b).dead = s.dead := rfl
@[simp] theorem State.homeWrite_powered (s : State) (a : Nat) (b : Byte) : (s.homeWrite a b).powered = s.powered := rfl
@[simp] theorem State.homeWrite_reply (s : State) (a : Nat) (b : Byte) : (s.homeWrite a b).reply = s.reply := rfl
@[simp] theorem State.homeWrite_agenda (s : State) (a : Nat) (b : Byte) : (s.homeWrite a b).agenda = s.agenda := rfl
@[simp] theorem State.homeWrite_focus (s : State) (a : Nat) (b : Byte) : (s.homeWrite a b).focus = s.focus := rfl
@[simp] theorem State.homeWrite_cur (s : State) (a : Nat) (b : Byte) : (s.homeWrite a b).cur = s.cur := rfl
@[simp] theorem State.homeWrite_ir (s : State) (a : Nat) (b : Byte) : (s.homeWrite a b).ir = s.ir := rfl
@[simp] theorem State.homeWrite_trapped (s : State) (a : Nat) (b : Byte) : (s.homeWrite a b).trapped = s.trapped := rfl
@[simp] theorem State.homeWrite_lag (s : State) (a : Nat) (b : Byte) : (s.homeWrite a b).lag = s.lag := rfl
@[simp] theorem State.homeWrite_free (s : State) (a : Nat) (b : Byte) : (s.homeWrite a b).free = s.free := rfl

/-! ### stay -/

@[simp] theorem State.stay_strands (s : State) (w : StrandId) (c : Wait) : (s.stay w c).strands = FMap.put s.strands (StrandId.key w) { s.strand w with wait := c } := rfl
@[simp] theorem State.stay_cores (s : State) (w : StrandId) (c : Wait) : (s.stay w c).cores = s.cores := rfl
@[simp] theorem State.stay_rows (s : State) (w : StrandId) (c : Wait) : (s.stay w c).rows = s.rows := rfl
@[simp] theorem State.stay_clusters (s : State) (w : StrandId) (c : Wait) : (s.stay w c).clusters = s.clusters := rfl
@[simp] theorem State.stay_dies (s : State) (w : StrandId) (c : Wait) : (s.stay w c).dies = s.dies := rfl
@[simp] theorem State.stay_streams (s : State) (w : StrandId) (c : Wait) : (s.stay w c).streams = s.streams := rfl
@[simp] theorem State.stay_launches (s : State) (w : StrandId) (c : Wait) : (s.stay w c).launches = s.launches := rfl
@[simp] theorem State.stay_events (s : State) (w : StrandId) (c : Wait) : (s.stay w c).events = s.events := rfl
@[simp] theorem State.stay_crews (s : State) (w : StrandId) (c : Wait) : (s.stay w c).crews = s.crews := rfl
@[simp] theorem State.stay_saved (s : State) (w : StrandId) (c : Wait) : (s.stay w c).saved = s.saved := rfl
@[simp] theorem State.stay_images (s : State) (w : StrandId) (c : Wait) : (s.stay w c).images = s.images := rfl
@[simp] theorem State.stay_jobs (s : State) (w : StrandId) (c : Wait) : (s.stay w c).jobs = s.jobs := rfl
@[simp] theorem State.stay_transit (s : State) (w : StrandId) (c : Wait) : (s.stay w c).transit = s.transit := rfl
@[simp] theorem State.stay_departed (s : State) (w : StrandId) (c : Wait) : (s.stay w c).departed = s.departed := rfl
@[simp] theorem State.stay_flips (s : State) (w : StrandId) (c : Wait) : (s.stay w c).flips = s.flips := rfl
@[simp] theorem State.stay_sides (s : State) (w : StrandId) (c : Wait) : (s.stay w c).sides = s.sides := rfl
@[simp] theorem State.stay_asked (s : State) (w : StrandId) (c : Wait) : (s.stay w c).asked = s.asked := rfl
@[simp] theorem State.stay_mem (s : State) (w : StrandId) (c : Wait) : (s.stay w c).mem = s.mem := rfl
@[simp] theorem State.stay_failing (s : State) (w : StrandId) (c : Wait) : (s.stay w c).failing = s.failing := rfl
@[simp] theorem State.stay_laws (s : State) (w : StrandId) (c : Wait) : (s.stay w c).laws = s.laws := rfl
@[simp] theorem State.stay_regions (s : State) (w : StrandId) (c : Wait) : (s.stay w c).regions = s.regions := rfl
@[simp] theorem State.stay_swept (s : State) (w : StrandId) (c : Wait) : (s.stay w c).swept = s.swept := rfl
@[simp] theorem State.stay_posted (s : State) (w : StrandId) (c : Wait) : (s.stay w c).posted = s.posted := rfl
@[simp] theorem State.stay_domain (s : State) (w : StrandId) (c : Wait) : (s.stay w c).domain = s.domain := rfl
@[simp] theorem State.stay_groups (s : State) (w : StrandId) (c : Wait) : (s.stay w c).groups = s.groups := rfl
@[simp] theorem State.stay_boot (s : State) (w : StrandId) (c : Wait) : (s.stay w c).boot = s.boot := rfl
@[simp] theorem State.stay_measures (s : State) (w : StrandId) (c : Wait) : (s.stay w c).measures = s.measures := rfl
@[simp] theorem State.stay_wallTide (s : State) (w : StrandId) (c : Wait) : (s.stay w c).wallTide = s.wallTide := rfl
@[simp] theorem State.stay_plimit (s : State) (w : StrandId) (c : Wait) : (s.stay w c).plimit = s.plimit := rfl
@[simp] theorem State.stay_slope (s : State) (w : StrandId) (c : Wait) : (s.stay w c).slope = s.slope := rfl
@[simp] theorem State.stay_crbase (s : State) (w : StrandId) (c : Wait) : (s.stay w c).crbase = s.crbase := rfl
@[simp] theorem State.stay_fwEntry (s : State) (w : StrandId) (c : Wait) : (s.stay w c).fwEntry = s.fwEntry := rfl
@[simp] theorem State.stay_fwLawtab (s : State) (w : StrandId) (c : Wait) : (s.stay w c).fwLawtab = s.fwLawtab := rfl
@[simp] theorem State.stay_extLimit (s : State) (w : StrandId) (c : Wait) : (s.stay w c).extLimit = s.extLimit := rfl
@[simp] theorem State.stay_frozen (s : State) (w : StrandId) (c : Wait) : (s.stay w c).frozen = s.frozen := rfl
@[simp] theorem State.stay_dead (s : State) (w : StrandId) (c : Wait) : (s.stay w c).dead = s.dead := rfl
@[simp] theorem State.stay_powered (s : State) (w : StrandId) (c : Wait) : (s.stay w c).powered = s.powered := rfl
@[simp] theorem State.stay_reply (s : State) (w : StrandId) (c : Wait) : (s.stay w c).reply = s.reply := rfl
@[simp] theorem State.stay_agenda (s : State) (w : StrandId) (c : Wait) : (s.stay w c).agenda = s.agenda := rfl
@[simp] theorem State.stay_focus (s : State) (w : StrandId) (c : Wait) : (s.stay w c).focus = s.focus := rfl
@[simp] theorem State.stay_cur (s : State) (w : StrandId) (c : Wait) : (s.stay w c).cur = s.cur := rfl
@[simp] theorem State.stay_ir (s : State) (w : StrandId) (c : Wait) : (s.stay w c).ir = s.ir := rfl
@[simp] theorem State.stay_trapped (s : State) (w : StrandId) (c : Wait) : (s.stay w c).trapped = s.trapped := rfl
@[simp] theorem State.stay_lag (s : State) (w : StrandId) (c : Wait) : (s.stay w c).lag = s.lag := rfl
@[simp] theorem State.stay_free (s : State) (w : StrandId) (c : Wait) : (s.stay w c).free = s.free := rfl

/-! ### Registers of a strand -/

@[simp] theorem Strand.putS_live (t : Strand) (n : BitVec 4) (x : Word) : (t.putS n x).live = t.live := by
  unfold Strand.putS
  split <;> rfl
@[simp] theorem Strand.putS_gen (t : Strand) (n : BitVec 4) (x : Word) : (t.putS n x).gen = t.gen := by
  unfold Strand.putS
  split <;> rfl
@[simp] theorem Strand.putS_pc (t : Strand) (n : BitVec 4) (x : Word) : (t.putS n x).pc = t.pc := by
  unfold Strand.putS
  split <;> rfl
@[simp] theorem Strand.putS_f (t : Strand) (n : BitVec 4) (x : Word) : (t.putS n x).f = t.f := by
  unfold Strand.putS
  split <;> rfl
@[simp] theorem Strand.putS_p (t : Strand) (n : BitVec 4) (x : Word) : (t.putS n x).p = t.p := by
  unfold Strand.putS
  split <;> rfl
@[simp] theorem Strand.putS_q (t : Strand) (n : BitVec 4) (x : Word) : (t.putS n x).q = t.q := by
  unfold Strand.putS
  split <;> rfl
@[simp] theorem Strand.putS_cursor (t : Strand) (n : BitVec 4) (x : Word) : (t.putS n x).cursor = t.cursor := by
  unfold Strand.putS
  split <;> rfl
@[simp] theorem Strand.putS_pl (t : Strand) (n : BitVec 4) (x : Word) : (t.putS n x).pl = t.pl := by
  unfold Strand.putS
  split <;> rfl
@[simp] theorem Strand.putS_det (t : Strand) (n : BitVec 4) (x : Word) : (t.putS n x).det = t.det := by
  unfold Strand.putS
  split <;> rfl
@[simp] theorem Strand.putS_chk (t : Strand) (n : BitVec 4) (x : Word) : (t.putS n x).chk = t.chk := by
  unfold Strand.putS
  split <;> rfl
@[simp] theorem Strand.putS_rm (t : Strand) (n : BitVec 4) (x : Word) : (t.putS n x).rm = t.rm := by
  unfold Strand.putS
  split <;> rfl
@[simp] theorem Strand.putS_oob (t : Strand) (n : BitVec 4) (x : Word) : (t.putS n x).oob = t.oob := by
  unfold Strand.putS
  split <;> rfl
@[simp] theorem Strand.putS_oobpc (t : Strand) (n : BitVec 4) (x : Word) : (t.putS n x).oobpc = t.oobpc := by
  unfold Strand.putS
  split <;> rfl
@[simp] theorem Strand.putS_seed (t : Strand) (n : BitVec 4) (x : Word) : (t.putS n x).seed = t.seed := by
  unfold Strand.putS
  split <;> rfl
@[simp] theorem Strand.putS_score (t : Strand) (n : BitVec 4) (x : Word) : (t.putS n x).score = t.score := by
  unfold Strand.putS
  split <;> rfl
@[simp] theorem Strand.putS_upcall (t : Strand) (n : BitVec 4) (x : Word) : (t.putS n x).upcall = t.upcall := by
  unfold Strand.putS
  split <;> rfl
@[simp] theorem Strand.putS_vbase (t : Strand) (n : BitVec 4) (x : Word) : (t.putS n x).vbase = t.vbase := by
  unfold Strand.putS
  split <;> rfl
@[simp] theorem Strand.putS_vcount (t : Strand) (n : BitVec 4) (x : Word) : (t.putS n x).vcount = t.vcount := by
  unfold Strand.putS
  split <;> rfl
@[simp] theorem Strand.putS_mbudget (t : Strand) (n : BitVec 4) (x : Word) : (t.putS n x).mbudget = t.mbudget := by
  unfold Strand.putS
  split <;> rfl
@[simp] theorem Strand.putS_cls (t : Strand) (n : BitVec 4) (x : Word) : (t.putS n x).cls = t.cls := by
  unfold Strand.putS
  split <;> rfl
@[simp] theorem Strand.putS_slot (t : Strand) (n : BitVec 4) (x : Word) : (t.putS n x).slot = t.slot := by
  unfold Strand.putS
  split <;> rfl
@[simp] theorem Strand.putS_pend (t : Strand) (n : BitVec 4) (x : Word) : (t.putS n x).pend = t.pend := by
  unfold Strand.putS
  split <;> rfl
@[simp] theorem Strand.putS_obuf (t : Strand) (n : BitVec 4) (x : Word) : (t.putS n x).obuf = t.obuf := by
  unfold Strand.putS
  split <;> rfl
@[simp] theorem Strand.putS_ras (t : Strand) (n : BitVec 4) (x : Word) : (t.putS n x).ras = t.ras := by
  unfold Strand.putS
  split <;> rfl
@[simp] theorem Strand.putS_frame (t : Strand) (n : BitVec 4) (x : Word) : (t.putS n x).frame = t.frame := by
  unfold Strand.putS
  split <;> rfl
@[simp] theorem Strand.putS_frames (t : Strand) (n : BitVec 4) (x : Word) : (t.putS n x).frames = t.frames := by
  unfold Strand.putS
  split <;> rfl
@[simp] theorem Strand.putS_slipway (t : Strand) (n : BitVec 4) (x : Word) : (t.putS n x).slipway = t.slipway := by
  unfold Strand.putS
  split <;> rfl
@[simp] theorem Strand.putS_branch (t : Strand) (n : BitVec 4) (x : Word) : (t.putS n x).branch = t.branch := by
  unfold Strand.putS
  split <;> rfl
@[simp] theorem Strand.putS_msg (t : Strand) (n : BitVec 4) (x : Word) : (t.putS n x).msg = t.msg := by
  unfold Strand.putS
  split <;> rfl
@[simp] theorem Strand.putS_shadow (t : Strand) (n : BitVec 4) (x : Word) : (t.putS n x).shadow = t.shadow := by
  unfold Strand.putS
  split <;> rfl
@[simp] theorem Strand.putS_ib (t : Strand) (n : BitVec 4) (x : Word) : (t.putS n x).ib = t.ib := by
  unfold Strand.putS
  split <;> rfl
@[simp] theorem Strand.putS_dw (t : Strand) (n : BitVec 4) (x : Word) : (t.putS n x).dw = t.dw := by
  unfold Strand.putS
  split <;> rfl
@[simp] theorem Strand.putS_wait (t : Strand) (n : BitVec 4) (x : Word) : (t.putS n x).wait = t.wait := by
  unfold Strand.putS
  split <;> rfl
@[simp] theorem Strand.putS_halted (t : Strand) (n : BitVec 4) (x : Word) : (t.putS n x).halted = t.halted := by
  unfold Strand.putS
  split <;> rfl
@[simp] theorem Strand.putS_stepping (t : Strand) (n : BitVec 4) (x : Word) : (t.putS n x).stepping = t.stepping := by
  unfold Strand.putS
  split <;> rfl
@[simp] theorem Strand.putS_stepped (t : Strand) (n : BitVec 4) (x : Word) : (t.putS n x).stepped = t.stepped := by
  unfold Strand.putS
  split <;> rfl
@[simp] theorem Strand.putS_reported (t : Strand) (n : BitVec 4) (x : Word) : (t.putS n x).reported = t.reported := by
  unfold Strand.putS
  split <;> rfl
@[simp] theorem Strand.putS_exempt (t : Strand) (n : BitVec 4) (x : Word) : (t.putS n x).exempt = t.exempt := by
  unfold Strand.putS
  split <;> rfl
@[simp] theorem Strand.putS_requested (t : Strand) (n : BitVec 4) (x : Word) : (t.putS n x).requested = t.requested := by
  unfold Strand.putS
  split <;> rfl
@[simp] theorem Strand.putS_raft (t : Strand) (n : BitVec 4) (x : Word) : (t.putS n x).raft = t.raft := by
  unfold Strand.putS
  split <;> rfl
@[simp] theorem Strand.putS_steps (t : Strand) (n : BitVec 4) (x : Word) : (t.putS n x).steps = t.steps := by
  unfold Strand.putS
  split <;> rfl
@[simp] theorem Strand.putS_votes (t : Strand) (n : BitVec 4) (x : Word) : (t.putS n x).votes = t.votes := by
  unfold Strand.putS
  split <;> rfl
@[simp] theorem Strand.putS_starts (t : Strand) (n : BitVec 4) (x : Word) : (t.putS n x).starts = t.starts := by
  unfold Strand.putS
  split <;> rfl
@[simp] theorem Strand.putS_upcallFor (t : Strand) (n : BitVec 4) (x : Word) : (t.putS n x).upcallFor = t.upcallFor := by
  unfold Strand.putS
  split <;> rfl
@[simp] theorem Strand.putS_request (t : Strand) (n : BitVec 4) (x : Word) : (t.putS n x).request = t.request := by
  unfold Strand.putS
  split <;> rfl
@[simp] theorem Strand.putS_noticed (t : Strand) (n : BitVec 4) (x : Word) : (t.putS n x).noticed = t.noticed := by
  unfold Strand.putS
  split <;> rfl
@[simp] theorem Strand.putS_fetched (t : Strand) (n : BitVec 4) (x : Word) : (t.putS n x).fetched = t.fetched := by
  unfold Strand.putS
  split <;> rfl
@[simp] theorem Strand.putS_stale (t : Strand) (n : BitVec 4) (x : Word) : (t.putS n x).stale = t.stale := by
  unfold Strand.putS
  split <;> rfl
@[simp] theorem Strand.putS_hold (t : Strand) (n : BitVec 4) (x : Word) : (t.putS n x).hold = t.hold := by
  unfold Strand.putS
  split <;> rfl
@[simp] theorem Strand.putS_paid (t : Strand) (n : BitVec 4) (x : Word) : (t.putS n x).paid = t.paid := by
  unfold Strand.putS
  split <;> rfl
@[simp] theorem Strand.putS_conf (t : Strand) (n : BitVec 4) (x : Word) : (t.putS n x).conf = t.conf := by
  unfold Strand.putS
  split <;> rfl
@[simp] theorem Strand.putF_live (t : Strand) (n : BitVec 3) (x : Word) : (t.putF n x).live = t.live := rfl
@[simp] theorem Strand.putF_gen (t : Strand) (n : BitVec 3) (x : Word) : (t.putF n x).gen = t.gen := rfl
@[simp] theorem Strand.putF_pc (t : Strand) (n : BitVec 3) (x : Word) : (t.putF n x).pc = t.pc := rfl
@[simp] theorem Strand.putF_s (t : Strand) (n : BitVec 3) (x : Word) : (t.putF n x).s = t.s := rfl
@[simp] theorem Strand.putF_p (t : Strand) (n : BitVec 3) (x : Word) : (t.putF n x).p = t.p := rfl
@[simp] theorem Strand.putF_q (t : Strand) (n : BitVec 3) (x : Word) : (t.putF n x).q = t.q := rfl
@[simp] theorem Strand.putF_cursor (t : Strand) (n : BitVec 3) (x : Word) : (t.putF n x).cursor = t.cursor := rfl
@[simp] theorem Strand.putF_pl (t : Strand) (n : BitVec 3) (x : Word) : (t.putF n x).pl = t.pl := rfl
@[simp] theorem Strand.putF_det (t : Strand) (n : BitVec 3) (x : Word) : (t.putF n x).det = t.det := rfl
@[simp] theorem Strand.putF_chk (t : Strand) (n : BitVec 3) (x : Word) : (t.putF n x).chk = t.chk := rfl
@[simp] theorem Strand.putF_rm (t : Strand) (n : BitVec 3) (x : Word) : (t.putF n x).rm = t.rm := rfl
@[simp] theorem Strand.putF_oob (t : Strand) (n : BitVec 3) (x : Word) : (t.putF n x).oob = t.oob := rfl
@[simp] theorem Strand.putF_oobpc (t : Strand) (n : BitVec 3) (x : Word) : (t.putF n x).oobpc = t.oobpc := rfl
@[simp] theorem Strand.putF_seed (t : Strand) (n : BitVec 3) (x : Word) : (t.putF n x).seed = t.seed := rfl
@[simp] theorem Strand.putF_score (t : Strand) (n : BitVec 3) (x : Word) : (t.putF n x).score = t.score := rfl
@[simp] theorem Strand.putF_upcall (t : Strand) (n : BitVec 3) (x : Word) : (t.putF n x).upcall = t.upcall := rfl
@[simp] theorem Strand.putF_vbase (t : Strand) (n : BitVec 3) (x : Word) : (t.putF n x).vbase = t.vbase := rfl
@[simp] theorem Strand.putF_vcount (t : Strand) (n : BitVec 3) (x : Word) : (t.putF n x).vcount = t.vcount := rfl
@[simp] theorem Strand.putF_mbudget (t : Strand) (n : BitVec 3) (x : Word) : (t.putF n x).mbudget = t.mbudget := rfl
@[simp] theorem Strand.putF_cls (t : Strand) (n : BitVec 3) (x : Word) : (t.putF n x).cls = t.cls := rfl
@[simp] theorem Strand.putF_slot (t : Strand) (n : BitVec 3) (x : Word) : (t.putF n x).slot = t.slot := rfl
@[simp] theorem Strand.putF_pend (t : Strand) (n : BitVec 3) (x : Word) : (t.putF n x).pend = t.pend := rfl
@[simp] theorem Strand.putF_obuf (t : Strand) (n : BitVec 3) (x : Word) : (t.putF n x).obuf = t.obuf := rfl
@[simp] theorem Strand.putF_ras (t : Strand) (n : BitVec 3) (x : Word) : (t.putF n x).ras = t.ras := rfl
@[simp] theorem Strand.putF_frame (t : Strand) (n : BitVec 3) (x : Word) : (t.putF n x).frame = t.frame := rfl
@[simp] theorem Strand.putF_frames (t : Strand) (n : BitVec 3) (x : Word) : (t.putF n x).frames = t.frames := rfl
@[simp] theorem Strand.putF_slipway (t : Strand) (n : BitVec 3) (x : Word) : (t.putF n x).slipway = t.slipway := rfl
@[simp] theorem Strand.putF_branch (t : Strand) (n : BitVec 3) (x : Word) : (t.putF n x).branch = t.branch := rfl
@[simp] theorem Strand.putF_msg (t : Strand) (n : BitVec 3) (x : Word) : (t.putF n x).msg = t.msg := rfl
@[simp] theorem Strand.putF_shadow (t : Strand) (n : BitVec 3) (x : Word) : (t.putF n x).shadow = t.shadow := rfl
@[simp] theorem Strand.putF_ib (t : Strand) (n : BitVec 3) (x : Word) : (t.putF n x).ib = t.ib := rfl
@[simp] theorem Strand.putF_dw (t : Strand) (n : BitVec 3) (x : Word) : (t.putF n x).dw = t.dw := rfl
@[simp] theorem Strand.putF_wait (t : Strand) (n : BitVec 3) (x : Word) : (t.putF n x).wait = t.wait := rfl
@[simp] theorem Strand.putF_halted (t : Strand) (n : BitVec 3) (x : Word) : (t.putF n x).halted = t.halted := rfl
@[simp] theorem Strand.putF_stepping (t : Strand) (n : BitVec 3) (x : Word) : (t.putF n x).stepping = t.stepping := rfl
@[simp] theorem Strand.putF_stepped (t : Strand) (n : BitVec 3) (x : Word) : (t.putF n x).stepped = t.stepped := rfl
@[simp] theorem Strand.putF_reported (t : Strand) (n : BitVec 3) (x : Word) : (t.putF n x).reported = t.reported := rfl
@[simp] theorem Strand.putF_exempt (t : Strand) (n : BitVec 3) (x : Word) : (t.putF n x).exempt = t.exempt := rfl
@[simp] theorem Strand.putF_requested (t : Strand) (n : BitVec 3) (x : Word) : (t.putF n x).requested = t.requested := rfl
@[simp] theorem Strand.putF_raft (t : Strand) (n : BitVec 3) (x : Word) : (t.putF n x).raft = t.raft := rfl
@[simp] theorem Strand.putF_steps (t : Strand) (n : BitVec 3) (x : Word) : (t.putF n x).steps = t.steps := rfl
@[simp] theorem Strand.putF_votes (t : Strand) (n : BitVec 3) (x : Word) : (t.putF n x).votes = t.votes := rfl
@[simp] theorem Strand.putF_starts (t : Strand) (n : BitVec 3) (x : Word) : (t.putF n x).starts = t.starts := rfl
@[simp] theorem Strand.putF_upcallFor (t : Strand) (n : BitVec 3) (x : Word) : (t.putF n x).upcallFor = t.upcallFor := rfl
@[simp] theorem Strand.putF_request (t : Strand) (n : BitVec 3) (x : Word) : (t.putF n x).request = t.request := rfl
@[simp] theorem Strand.putF_noticed (t : Strand) (n : BitVec 3) (x : Word) : (t.putF n x).noticed = t.noticed := rfl
@[simp] theorem Strand.putF_fetched (t : Strand) (n : BitVec 3) (x : Word) : (t.putF n x).fetched = t.fetched := rfl
@[simp] theorem Strand.putF_stale (t : Strand) (n : BitVec 3) (x : Word) : (t.putF n x).stale = t.stale := rfl
@[simp] theorem Strand.putF_hold (t : Strand) (n : BitVec 3) (x : Word) : (t.putF n x).hold = t.hold := rfl
@[simp] theorem Strand.putF_paid (t : Strand) (n : BitVec 3) (x : Word) : (t.putF n x).paid = t.paid := rfl
@[simp] theorem Strand.putF_conf (t : Strand) (n : BitVec 3) (x : Word) : (t.putF n x).conf = t.conf := rfl
@[simp] theorem Strand.putP_live (t : Strand) (n : BitVec 3) (x : Pred) : (t.putP n x).live = t.live := by
  unfold Strand.putP
  split <;> rfl
@[simp] theorem Strand.putP_gen (t : Strand) (n : BitVec 3) (x : Pred) : (t.putP n x).gen = t.gen := by
  unfold Strand.putP
  split <;> rfl
@[simp] theorem Strand.putP_pc (t : Strand) (n : BitVec 3) (x : Pred) : (t.putP n x).pc = t.pc := by
  unfold Strand.putP
  split <;> rfl
@[simp] theorem Strand.putP_s (t : Strand) (n : BitVec 3) (x : Pred) : (t.putP n x).s = t.s := by
  unfold Strand.putP
  split <;> rfl
@[simp] theorem Strand.putP_f (t : Strand) (n : BitVec 3) (x : Pred) : (t.putP n x).f = t.f := by
  unfold Strand.putP
  split <;> rfl
@[simp] theorem Strand.putP_q (t : Strand) (n : BitVec 3) (x : Pred) : (t.putP n x).q = t.q := by
  unfold Strand.putP
  split <;> rfl
@[simp] theorem Strand.putP_cursor (t : Strand) (n : BitVec 3) (x : Pred) : (t.putP n x).cursor = t.cursor := by
  unfold Strand.putP
  split <;> rfl
@[simp] theorem Strand.putP_pl (t : Strand) (n : BitVec 3) (x : Pred) : (t.putP n x).pl = t.pl := by
  unfold Strand.putP
  split <;> rfl
@[simp] theorem Strand.putP_det (t : Strand) (n : BitVec 3) (x : Pred) : (t.putP n x).det = t.det := by
  unfold Strand.putP
  split <;> rfl
@[simp] theorem Strand.putP_chk (t : Strand) (n : BitVec 3) (x : Pred) : (t.putP n x).chk = t.chk := by
  unfold Strand.putP
  split <;> rfl
@[simp] theorem Strand.putP_rm (t : Strand) (n : BitVec 3) (x : Pred) : (t.putP n x).rm = t.rm := by
  unfold Strand.putP
  split <;> rfl
@[simp] theorem Strand.putP_oob (t : Strand) (n : BitVec 3) (x : Pred) : (t.putP n x).oob = t.oob := by
  unfold Strand.putP
  split <;> rfl
@[simp] theorem Strand.putP_oobpc (t : Strand) (n : BitVec 3) (x : Pred) : (t.putP n x).oobpc = t.oobpc := by
  unfold Strand.putP
  split <;> rfl
@[simp] theorem Strand.putP_seed (t : Strand) (n : BitVec 3) (x : Pred) : (t.putP n x).seed = t.seed := by
  unfold Strand.putP
  split <;> rfl
@[simp] theorem Strand.putP_score (t : Strand) (n : BitVec 3) (x : Pred) : (t.putP n x).score = t.score := by
  unfold Strand.putP
  split <;> rfl
@[simp] theorem Strand.putP_upcall (t : Strand) (n : BitVec 3) (x : Pred) : (t.putP n x).upcall = t.upcall := by
  unfold Strand.putP
  split <;> rfl
@[simp] theorem Strand.putP_vbase (t : Strand) (n : BitVec 3) (x : Pred) : (t.putP n x).vbase = t.vbase := by
  unfold Strand.putP
  split <;> rfl
@[simp] theorem Strand.putP_vcount (t : Strand) (n : BitVec 3) (x : Pred) : (t.putP n x).vcount = t.vcount := by
  unfold Strand.putP
  split <;> rfl
@[simp] theorem Strand.putP_mbudget (t : Strand) (n : BitVec 3) (x : Pred) : (t.putP n x).mbudget = t.mbudget := by
  unfold Strand.putP
  split <;> rfl
@[simp] theorem Strand.putP_cls (t : Strand) (n : BitVec 3) (x : Pred) : (t.putP n x).cls = t.cls := by
  unfold Strand.putP
  split <;> rfl
@[simp] theorem Strand.putP_slot (t : Strand) (n : BitVec 3) (x : Pred) : (t.putP n x).slot = t.slot := by
  unfold Strand.putP
  split <;> rfl
@[simp] theorem Strand.putP_pend (t : Strand) (n : BitVec 3) (x : Pred) : (t.putP n x).pend = t.pend := by
  unfold Strand.putP
  split <;> rfl
@[simp] theorem Strand.putP_obuf (t : Strand) (n : BitVec 3) (x : Pred) : (t.putP n x).obuf = t.obuf := by
  unfold Strand.putP
  split <;> rfl
@[simp] theorem Strand.putP_ras (t : Strand) (n : BitVec 3) (x : Pred) : (t.putP n x).ras = t.ras := by
  unfold Strand.putP
  split <;> rfl
@[simp] theorem Strand.putP_frame (t : Strand) (n : BitVec 3) (x : Pred) : (t.putP n x).frame = t.frame := by
  unfold Strand.putP
  split <;> rfl
@[simp] theorem Strand.putP_frames (t : Strand) (n : BitVec 3) (x : Pred) : (t.putP n x).frames = t.frames := by
  unfold Strand.putP
  split <;> rfl
@[simp] theorem Strand.putP_slipway (t : Strand) (n : BitVec 3) (x : Pred) : (t.putP n x).slipway = t.slipway := by
  unfold Strand.putP
  split <;> rfl
@[simp] theorem Strand.putP_branch (t : Strand) (n : BitVec 3) (x : Pred) : (t.putP n x).branch = t.branch := by
  unfold Strand.putP
  split <;> rfl
@[simp] theorem Strand.putP_msg (t : Strand) (n : BitVec 3) (x : Pred) : (t.putP n x).msg = t.msg := by
  unfold Strand.putP
  split <;> rfl
@[simp] theorem Strand.putP_shadow (t : Strand) (n : BitVec 3) (x : Pred) : (t.putP n x).shadow = t.shadow := by
  unfold Strand.putP
  split <;> rfl
@[simp] theorem Strand.putP_ib (t : Strand) (n : BitVec 3) (x : Pred) : (t.putP n x).ib = t.ib := by
  unfold Strand.putP
  split <;> rfl
@[simp] theorem Strand.putP_dw (t : Strand) (n : BitVec 3) (x : Pred) : (t.putP n x).dw = t.dw := by
  unfold Strand.putP
  split <;> rfl
@[simp] theorem Strand.putP_wait (t : Strand) (n : BitVec 3) (x : Pred) : (t.putP n x).wait = t.wait := by
  unfold Strand.putP
  split <;> rfl
@[simp] theorem Strand.putP_halted (t : Strand) (n : BitVec 3) (x : Pred) : (t.putP n x).halted = t.halted := by
  unfold Strand.putP
  split <;> rfl
@[simp] theorem Strand.putP_stepping (t : Strand) (n : BitVec 3) (x : Pred) : (t.putP n x).stepping = t.stepping := by
  unfold Strand.putP
  split <;> rfl
@[simp] theorem Strand.putP_stepped (t : Strand) (n : BitVec 3) (x : Pred) : (t.putP n x).stepped = t.stepped := by
  unfold Strand.putP
  split <;> rfl
@[simp] theorem Strand.putP_reported (t : Strand) (n : BitVec 3) (x : Pred) : (t.putP n x).reported = t.reported := by
  unfold Strand.putP
  split <;> rfl
@[simp] theorem Strand.putP_exempt (t : Strand) (n : BitVec 3) (x : Pred) : (t.putP n x).exempt = t.exempt := by
  unfold Strand.putP
  split <;> rfl
@[simp] theorem Strand.putP_requested (t : Strand) (n : BitVec 3) (x : Pred) : (t.putP n x).requested = t.requested := by
  unfold Strand.putP
  split <;> rfl
@[simp] theorem Strand.putP_raft (t : Strand) (n : BitVec 3) (x : Pred) : (t.putP n x).raft = t.raft := by
  unfold Strand.putP
  split <;> rfl
@[simp] theorem Strand.putP_steps (t : Strand) (n : BitVec 3) (x : Pred) : (t.putP n x).steps = t.steps := by
  unfold Strand.putP
  split <;> rfl
@[simp] theorem Strand.putP_votes (t : Strand) (n : BitVec 3) (x : Pred) : (t.putP n x).votes = t.votes := by
  unfold Strand.putP
  split <;> rfl
@[simp] theorem Strand.putP_starts (t : Strand) (n : BitVec 3) (x : Pred) : (t.putP n x).starts = t.starts := by
  unfold Strand.putP
  split <;> rfl
@[simp] theorem Strand.putP_upcallFor (t : Strand) (n : BitVec 3) (x : Pred) : (t.putP n x).upcallFor = t.upcallFor := by
  unfold Strand.putP
  split <;> rfl
@[simp] theorem Strand.putP_request (t : Strand) (n : BitVec 3) (x : Pred) : (t.putP n x).request = t.request := by
  unfold Strand.putP
  split <;> rfl
@[simp] theorem Strand.putP_noticed (t : Strand) (n : BitVec 3) (x : Pred) : (t.putP n x).noticed = t.noticed := by
  unfold Strand.putP
  split <;> rfl
@[simp] theorem Strand.putP_fetched (t : Strand) (n : BitVec 3) (x : Pred) : (t.putP n x).fetched = t.fetched := by
  unfold Strand.putP
  split <;> rfl
@[simp] theorem Strand.putP_stale (t : Strand) (n : BitVec 3) (x : Pred) : (t.putP n x).stale = t.stale := by
  unfold Strand.putP
  split <;> rfl
@[simp] theorem Strand.putP_hold (t : Strand) (n : BitVec 3) (x : Pred) : (t.putP n x).hold = t.hold := by
  unfold Strand.putP
  split <;> rfl
@[simp] theorem Strand.putP_paid (t : Strand) (n : BitVec 3) (x : Pred) : (t.putP n x).paid = t.paid := by
  unfold Strand.putP
  split <;> rfl
@[simp] theorem Strand.putP_conf (t : Strand) (n : BitVec 3) (x : Pred) : (t.putP n x).conf = t.conf := by
  unfold Strand.putP
  split <;> rfl
@[simp] theorem Strand.putQ_live (t : Strand) (n : BitVec 3) (x : Word) : (t.putQ n x).live = t.live := by
  unfold Strand.putQ
  split <;> rfl
@[simp] theorem Strand.putQ_gen (t : Strand) (n : BitVec 3) (x : Word) : (t.putQ n x).gen = t.gen := by
  unfold Strand.putQ
  split <;> rfl
@[simp] theorem Strand.putQ_pc (t : Strand) (n : BitVec 3) (x : Word) : (t.putQ n x).pc = t.pc := by
  unfold Strand.putQ
  split <;> rfl
@[simp] theorem Strand.putQ_s (t : Strand) (n : BitVec 3) (x : Word) : (t.putQ n x).s = t.s := by
  unfold Strand.putQ
  split <;> rfl
@[simp] theorem Strand.putQ_f (t : Strand) (n : BitVec 3) (x : Word) : (t.putQ n x).f = t.f := by
  unfold Strand.putQ
  split <;> rfl
@[simp] theorem Strand.putQ_p (t : Strand) (n : BitVec 3) (x : Word) : (t.putQ n x).p = t.p := by
  unfold Strand.putQ
  split <;> rfl
@[simp] theorem Strand.putQ_cursor (t : Strand) (n : BitVec 3) (x : Word) : (t.putQ n x).cursor = t.cursor := by
  unfold Strand.putQ
  split <;> rfl
@[simp] theorem Strand.putQ_pl (t : Strand) (n : BitVec 3) (x : Word) : (t.putQ n x).pl = t.pl := by
  unfold Strand.putQ
  split <;> rfl
@[simp] theorem Strand.putQ_det (t : Strand) (n : BitVec 3) (x : Word) : (t.putQ n x).det = t.det := by
  unfold Strand.putQ
  split <;> rfl
@[simp] theorem Strand.putQ_chk (t : Strand) (n : BitVec 3) (x : Word) : (t.putQ n x).chk = t.chk := by
  unfold Strand.putQ
  split <;> rfl
@[simp] theorem Strand.putQ_rm (t : Strand) (n : BitVec 3) (x : Word) : (t.putQ n x).rm = t.rm := by
  unfold Strand.putQ
  split <;> rfl
@[simp] theorem Strand.putQ_oob (t : Strand) (n : BitVec 3) (x : Word) : (t.putQ n x).oob = t.oob := by
  unfold Strand.putQ
  split <;> rfl
@[simp] theorem Strand.putQ_oobpc (t : Strand) (n : BitVec 3) (x : Word) : (t.putQ n x).oobpc = t.oobpc := by
  unfold Strand.putQ
  split <;> rfl
@[simp] theorem Strand.putQ_seed (t : Strand) (n : BitVec 3) (x : Word) : (t.putQ n x).seed = t.seed := by
  unfold Strand.putQ
  split <;> rfl
@[simp] theorem Strand.putQ_score (t : Strand) (n : BitVec 3) (x : Word) : (t.putQ n x).score = t.score := by
  unfold Strand.putQ
  split <;> rfl
@[simp] theorem Strand.putQ_upcall (t : Strand) (n : BitVec 3) (x : Word) : (t.putQ n x).upcall = t.upcall := by
  unfold Strand.putQ
  split <;> rfl
@[simp] theorem Strand.putQ_vbase (t : Strand) (n : BitVec 3) (x : Word) : (t.putQ n x).vbase = t.vbase := by
  unfold Strand.putQ
  split <;> rfl
@[simp] theorem Strand.putQ_vcount (t : Strand) (n : BitVec 3) (x : Word) : (t.putQ n x).vcount = t.vcount := by
  unfold Strand.putQ
  split <;> rfl
@[simp] theorem Strand.putQ_mbudget (t : Strand) (n : BitVec 3) (x : Word) : (t.putQ n x).mbudget = t.mbudget := by
  unfold Strand.putQ
  split <;> rfl
@[simp] theorem Strand.putQ_cls (t : Strand) (n : BitVec 3) (x : Word) : (t.putQ n x).cls = t.cls := by
  unfold Strand.putQ
  split <;> rfl
@[simp] theorem Strand.putQ_slot (t : Strand) (n : BitVec 3) (x : Word) : (t.putQ n x).slot = t.slot := by
  unfold Strand.putQ
  split <;> rfl
@[simp] theorem Strand.putQ_pend (t : Strand) (n : BitVec 3) (x : Word) : (t.putQ n x).pend = t.pend := by
  unfold Strand.putQ
  split <;> rfl
@[simp] theorem Strand.putQ_obuf (t : Strand) (n : BitVec 3) (x : Word) : (t.putQ n x).obuf = t.obuf := by
  unfold Strand.putQ
  split <;> rfl
@[simp] theorem Strand.putQ_ras (t : Strand) (n : BitVec 3) (x : Word) : (t.putQ n x).ras = t.ras := by
  unfold Strand.putQ
  split <;> rfl
@[simp] theorem Strand.putQ_frame (t : Strand) (n : BitVec 3) (x : Word) : (t.putQ n x).frame = t.frame := by
  unfold Strand.putQ
  split <;> rfl
@[simp] theorem Strand.putQ_frames (t : Strand) (n : BitVec 3) (x : Word) : (t.putQ n x).frames = t.frames := by
  unfold Strand.putQ
  split <;> rfl
@[simp] theorem Strand.putQ_slipway (t : Strand) (n : BitVec 3) (x : Word) : (t.putQ n x).slipway = t.slipway := by
  unfold Strand.putQ
  split <;> rfl
@[simp] theorem Strand.putQ_branch (t : Strand) (n : BitVec 3) (x : Word) : (t.putQ n x).branch = t.branch := by
  unfold Strand.putQ
  split <;> rfl
@[simp] theorem Strand.putQ_msg (t : Strand) (n : BitVec 3) (x : Word) : (t.putQ n x).msg = t.msg := by
  unfold Strand.putQ
  split <;> rfl
@[simp] theorem Strand.putQ_shadow (t : Strand) (n : BitVec 3) (x : Word) : (t.putQ n x).shadow = t.shadow := by
  unfold Strand.putQ
  split <;> rfl
@[simp] theorem Strand.putQ_ib (t : Strand) (n : BitVec 3) (x : Word) : (t.putQ n x).ib = t.ib := by
  unfold Strand.putQ
  split <;> rfl
@[simp] theorem Strand.putQ_dw (t : Strand) (n : BitVec 3) (x : Word) : (t.putQ n x).dw = t.dw := by
  unfold Strand.putQ
  split <;> rfl
@[simp] theorem Strand.putQ_wait (t : Strand) (n : BitVec 3) (x : Word) : (t.putQ n x).wait = t.wait := by
  unfold Strand.putQ
  split <;> rfl
@[simp] theorem Strand.putQ_halted (t : Strand) (n : BitVec 3) (x : Word) : (t.putQ n x).halted = t.halted := by
  unfold Strand.putQ
  split <;> rfl
@[simp] theorem Strand.putQ_stepping (t : Strand) (n : BitVec 3) (x : Word) : (t.putQ n x).stepping = t.stepping := by
  unfold Strand.putQ
  split <;> rfl
@[simp] theorem Strand.putQ_stepped (t : Strand) (n : BitVec 3) (x : Word) : (t.putQ n x).stepped = t.stepped := by
  unfold Strand.putQ
  split <;> rfl
@[simp] theorem Strand.putQ_reported (t : Strand) (n : BitVec 3) (x : Word) : (t.putQ n x).reported = t.reported := by
  unfold Strand.putQ
  split <;> rfl
@[simp] theorem Strand.putQ_exempt (t : Strand) (n : BitVec 3) (x : Word) : (t.putQ n x).exempt = t.exempt := by
  unfold Strand.putQ
  split <;> rfl
@[simp] theorem Strand.putQ_requested (t : Strand) (n : BitVec 3) (x : Word) : (t.putQ n x).requested = t.requested := by
  unfold Strand.putQ
  split <;> rfl
@[simp] theorem Strand.putQ_raft (t : Strand) (n : BitVec 3) (x : Word) : (t.putQ n x).raft = t.raft := by
  unfold Strand.putQ
  split <;> rfl
@[simp] theorem Strand.putQ_steps (t : Strand) (n : BitVec 3) (x : Word) : (t.putQ n x).steps = t.steps := by
  unfold Strand.putQ
  split <;> rfl
@[simp] theorem Strand.putQ_votes (t : Strand) (n : BitVec 3) (x : Word) : (t.putQ n x).votes = t.votes := by
  unfold Strand.putQ
  split <;> rfl
@[simp] theorem Strand.putQ_starts (t : Strand) (n : BitVec 3) (x : Word) : (t.putQ n x).starts = t.starts := by
  unfold Strand.putQ
  split <;> rfl
@[simp] theorem Strand.putQ_upcallFor (t : Strand) (n : BitVec 3) (x : Word) : (t.putQ n x).upcallFor = t.upcallFor := by
  unfold Strand.putQ
  split <;> rfl
@[simp] theorem Strand.putQ_request (t : Strand) (n : BitVec 3) (x : Word) : (t.putQ n x).request = t.request := by
  unfold Strand.putQ
  split <;> rfl
@[simp] theorem Strand.putQ_noticed (t : Strand) (n : BitVec 3) (x : Word) : (t.putQ n x).noticed = t.noticed := by
  unfold Strand.putQ
  split <;> rfl
@[simp] theorem Strand.putQ_fetched (t : Strand) (n : BitVec 3) (x : Word) : (t.putQ n x).fetched = t.fetched := by
  unfold Strand.putQ
  split <;> rfl
@[simp] theorem Strand.putQ_stale (t : Strand) (n : BitVec 3) (x : Word) : (t.putQ n x).stale = t.stale := by
  unfold Strand.putQ
  split <;> rfl
@[simp] theorem Strand.putQ_hold (t : Strand) (n : BitVec 3) (x : Word) : (t.putQ n x).hold = t.hold := by
  unfold Strand.putQ
  split <;> rfl
@[simp] theorem Strand.putQ_paid (t : Strand) (n : BitVec 3) (x : Word) : (t.putQ n x).paid = t.paid := by
  unfold Strand.putQ
  split <;> rfl
@[simp] theorem Strand.putQ_conf (t : Strand) (n : BitVec 3) (x : Word) : (t.putQ n x).conf = t.conf := by
  unfold Strand.putQ
  split <;> rfl
@[simp] theorem Strand.putCursor_live (t : Strand) (n : BitVec 3) (x : BitVec 6) : (t.putCursor n x).live = t.live := by
  unfold Strand.putCursor
  split <;> rfl
@[simp] theorem Strand.putCursor_gen (t : Strand) (n : BitVec 3) (x : BitVec 6) : (t.putCursor n x).gen = t.gen := by
  unfold Strand.putCursor
  split <;> rfl
@[simp] theorem Strand.putCursor_pc (t : Strand) (n : BitVec 3) (x : BitVec 6) : (t.putCursor n x).pc = t.pc := by
  unfold Strand.putCursor
  split <;> rfl
@[simp] theorem Strand.putCursor_s (t : Strand) (n : BitVec 3) (x : BitVec 6) : (t.putCursor n x).s = t.s := by
  unfold Strand.putCursor
  split <;> rfl
@[simp] theorem Strand.putCursor_f (t : Strand) (n : BitVec 3) (x : BitVec 6) : (t.putCursor n x).f = t.f := by
  unfold Strand.putCursor
  split <;> rfl
@[simp] theorem Strand.putCursor_p (t : Strand) (n : BitVec 3) (x : BitVec 6) : (t.putCursor n x).p = t.p := by
  unfold Strand.putCursor
  split <;> rfl
@[simp] theorem Strand.putCursor_q (t : Strand) (n : BitVec 3) (x : BitVec 6) : (t.putCursor n x).q = t.q := by
  unfold Strand.putCursor
  split <;> rfl
@[simp] theorem Strand.putCursor_pl (t : Strand) (n : BitVec 3) (x : BitVec 6) : (t.putCursor n x).pl = t.pl := by
  unfold Strand.putCursor
  split <;> rfl
@[simp] theorem Strand.putCursor_det (t : Strand) (n : BitVec 3) (x : BitVec 6) : (t.putCursor n x).det = t.det := by
  unfold Strand.putCursor
  split <;> rfl
@[simp] theorem Strand.putCursor_chk (t : Strand) (n : BitVec 3) (x : BitVec 6) : (t.putCursor n x).chk = t.chk := by
  unfold Strand.putCursor
  split <;> rfl
@[simp] theorem Strand.putCursor_rm (t : Strand) (n : BitVec 3) (x : BitVec 6) : (t.putCursor n x).rm = t.rm := by
  unfold Strand.putCursor
  split <;> rfl
@[simp] theorem Strand.putCursor_oob (t : Strand) (n : BitVec 3) (x : BitVec 6) : (t.putCursor n x).oob = t.oob := by
  unfold Strand.putCursor
  split <;> rfl
@[simp] theorem Strand.putCursor_oobpc (t : Strand) (n : BitVec 3) (x : BitVec 6) : (t.putCursor n x).oobpc = t.oobpc := by
  unfold Strand.putCursor
  split <;> rfl
@[simp] theorem Strand.putCursor_seed (t : Strand) (n : BitVec 3) (x : BitVec 6) : (t.putCursor n x).seed = t.seed := by
  unfold Strand.putCursor
  split <;> rfl
@[simp] theorem Strand.putCursor_score (t : Strand) (n : BitVec 3) (x : BitVec 6) : (t.putCursor n x).score = t.score := by
  unfold Strand.putCursor
  split <;> rfl
@[simp] theorem Strand.putCursor_upcall (t : Strand) (n : BitVec 3) (x : BitVec 6) : (t.putCursor n x).upcall = t.upcall := by
  unfold Strand.putCursor
  split <;> rfl
@[simp] theorem Strand.putCursor_vbase (t : Strand) (n : BitVec 3) (x : BitVec 6) : (t.putCursor n x).vbase = t.vbase := by
  unfold Strand.putCursor
  split <;> rfl
@[simp] theorem Strand.putCursor_vcount (t : Strand) (n : BitVec 3) (x : BitVec 6) : (t.putCursor n x).vcount = t.vcount := by
  unfold Strand.putCursor
  split <;> rfl
@[simp] theorem Strand.putCursor_mbudget (t : Strand) (n : BitVec 3) (x : BitVec 6) : (t.putCursor n x).mbudget = t.mbudget := by
  unfold Strand.putCursor
  split <;> rfl
@[simp] theorem Strand.putCursor_cls (t : Strand) (n : BitVec 3) (x : BitVec 6) : (t.putCursor n x).cls = t.cls := by
  unfold Strand.putCursor
  split <;> rfl
@[simp] theorem Strand.putCursor_slot (t : Strand) (n : BitVec 3) (x : BitVec 6) : (t.putCursor n x).slot = t.slot := by
  unfold Strand.putCursor
  split <;> rfl
@[simp] theorem Strand.putCursor_pend (t : Strand) (n : BitVec 3) (x : BitVec 6) : (t.putCursor n x).pend = t.pend := by
  unfold Strand.putCursor
  split <;> rfl
@[simp] theorem Strand.putCursor_obuf (t : Strand) (n : BitVec 3) (x : BitVec 6) : (t.putCursor n x).obuf = t.obuf := by
  unfold Strand.putCursor
  split <;> rfl
@[simp] theorem Strand.putCursor_ras (t : Strand) (n : BitVec 3) (x : BitVec 6) : (t.putCursor n x).ras = t.ras := by
  unfold Strand.putCursor
  split <;> rfl
@[simp] theorem Strand.putCursor_frame (t : Strand) (n : BitVec 3) (x : BitVec 6) : (t.putCursor n x).frame = t.frame := by
  unfold Strand.putCursor
  split <;> rfl
@[simp] theorem Strand.putCursor_frames (t : Strand) (n : BitVec 3) (x : BitVec 6) : (t.putCursor n x).frames = t.frames := by
  unfold Strand.putCursor
  split <;> rfl
@[simp] theorem Strand.putCursor_slipway (t : Strand) (n : BitVec 3) (x : BitVec 6) : (t.putCursor n x).slipway = t.slipway := by
  unfold Strand.putCursor
  split <;> rfl
@[simp] theorem Strand.putCursor_branch (t : Strand) (n : BitVec 3) (x : BitVec 6) : (t.putCursor n x).branch = t.branch := by
  unfold Strand.putCursor
  split <;> rfl
@[simp] theorem Strand.putCursor_msg (t : Strand) (n : BitVec 3) (x : BitVec 6) : (t.putCursor n x).msg = t.msg := by
  unfold Strand.putCursor
  split <;> rfl
@[simp] theorem Strand.putCursor_shadow (t : Strand) (n : BitVec 3) (x : BitVec 6) : (t.putCursor n x).shadow = t.shadow := by
  unfold Strand.putCursor
  split <;> rfl
@[simp] theorem Strand.putCursor_ib (t : Strand) (n : BitVec 3) (x : BitVec 6) : (t.putCursor n x).ib = t.ib := by
  unfold Strand.putCursor
  split <;> rfl
@[simp] theorem Strand.putCursor_dw (t : Strand) (n : BitVec 3) (x : BitVec 6) : (t.putCursor n x).dw = t.dw := by
  unfold Strand.putCursor
  split <;> rfl
@[simp] theorem Strand.putCursor_wait (t : Strand) (n : BitVec 3) (x : BitVec 6) : (t.putCursor n x).wait = t.wait := by
  unfold Strand.putCursor
  split <;> rfl
@[simp] theorem Strand.putCursor_halted (t : Strand) (n : BitVec 3) (x : BitVec 6) : (t.putCursor n x).halted = t.halted := by
  unfold Strand.putCursor
  split <;> rfl
@[simp] theorem Strand.putCursor_stepping (t : Strand) (n : BitVec 3) (x : BitVec 6) : (t.putCursor n x).stepping = t.stepping := by
  unfold Strand.putCursor
  split <;> rfl
@[simp] theorem Strand.putCursor_stepped (t : Strand) (n : BitVec 3) (x : BitVec 6) : (t.putCursor n x).stepped = t.stepped := by
  unfold Strand.putCursor
  split <;> rfl
@[simp] theorem Strand.putCursor_reported (t : Strand) (n : BitVec 3) (x : BitVec 6) : (t.putCursor n x).reported = t.reported := by
  unfold Strand.putCursor
  split <;> rfl
@[simp] theorem Strand.putCursor_exempt (t : Strand) (n : BitVec 3) (x : BitVec 6) : (t.putCursor n x).exempt = t.exempt := by
  unfold Strand.putCursor
  split <;> rfl
@[simp] theorem Strand.putCursor_requested (t : Strand) (n : BitVec 3) (x : BitVec 6) : (t.putCursor n x).requested = t.requested := by
  unfold Strand.putCursor
  split <;> rfl
@[simp] theorem Strand.putCursor_raft (t : Strand) (n : BitVec 3) (x : BitVec 6) : (t.putCursor n x).raft = t.raft := by
  unfold Strand.putCursor
  split <;> rfl
@[simp] theorem Strand.putCursor_steps (t : Strand) (n : BitVec 3) (x : BitVec 6) : (t.putCursor n x).steps = t.steps := by
  unfold Strand.putCursor
  split <;> rfl
@[simp] theorem Strand.putCursor_votes (t : Strand) (n : BitVec 3) (x : BitVec 6) : (t.putCursor n x).votes = t.votes := by
  unfold Strand.putCursor
  split <;> rfl
@[simp] theorem Strand.putCursor_starts (t : Strand) (n : BitVec 3) (x : BitVec 6) : (t.putCursor n x).starts = t.starts := by
  unfold Strand.putCursor
  split <;> rfl
@[simp] theorem Strand.putCursor_upcallFor (t : Strand) (n : BitVec 3) (x : BitVec 6) : (t.putCursor n x).upcallFor = t.upcallFor := by
  unfold Strand.putCursor
  split <;> rfl
@[simp] theorem Strand.putCursor_request (t : Strand) (n : BitVec 3) (x : BitVec 6) : (t.putCursor n x).request = t.request := by
  unfold Strand.putCursor
  split <;> rfl
@[simp] theorem Strand.putCursor_noticed (t : Strand) (n : BitVec 3) (x : BitVec 6) : (t.putCursor n x).noticed = t.noticed := by
  unfold Strand.putCursor
  split <;> rfl
@[simp] theorem Strand.putCursor_fetched (t : Strand) (n : BitVec 3) (x : BitVec 6) : (t.putCursor n x).fetched = t.fetched := by
  unfold Strand.putCursor
  split <;> rfl
@[simp] theorem Strand.putCursor_stale (t : Strand) (n : BitVec 3) (x : BitVec 6) : (t.putCursor n x).stale = t.stale := by
  unfold Strand.putCursor
  split <;> rfl
@[simp] theorem Strand.putCursor_hold (t : Strand) (n : BitVec 3) (x : BitVec 6) : (t.putCursor n x).hold = t.hold := by
  unfold Strand.putCursor
  split <;> rfl
@[simp] theorem Strand.putCursor_paid (t : Strand) (n : BitVec 3) (x : BitVec 6) : (t.putCursor n x).paid = t.paid := by
  unfold Strand.putCursor
  split <;> rfl
@[simp] theorem Strand.putCursor_conf (t : Strand) (n : BitVec 3) (x : BitVec 6) : (t.putCursor n x).conf = t.conf := by
  unfold Strand.putCursor
  split <;> rfl
@[simp] theorem Strand.putS_settling (t : Strand) (n : BitVec 4) (x : Word) : (t.putS n x).settling = t.settling := by
  unfold Strand.putS
  split <;> rfl
@[simp] theorem Strand.putF_settling (t : Strand) (n : BitVec 3) (x : Word) : (t.putF n x).settling = t.settling := rfl
@[simp] theorem Strand.putP_settling (t : Strand) (n : BitVec 3) (x : Pred) : (t.putP n x).settling = t.settling := by
  unfold Strand.putP
  split <;> rfl
@[simp] theorem Strand.putQ_settling (t : Strand) (n : BitVec 3) (x : Word) : (t.putQ n x).settling = t.settling := by
  unfold Strand.putQ
  split <;> rfl
@[simp] theorem Strand.putCursor_settling (t : Strand) (n : BitVec 3) (x : BitVec 6) : (t.putCursor n x).settling = t.settling := by
  unfold Strand.putCursor
  split <;> rfl
@[simp] theorem Strand.putCursor_fails (t : Strand) (n : BitVec 3) (x : BitVec 6) : (t.putCursor n x).fails = t.fails := by
  unfold Strand.putCursor
  split <;> rfl

/-! ### Registers of a core -/

@[simp] theorem Core.putV_acc (c : Core) (n : BitVec 5) (x : VReg) : (c.putV n x).acc = c.acc := by
  unfold Core.putV
  split <;> rfl
@[simp] theorem Core.putV_swallow (c : Core) (n : BitVec 5) (x : VReg) : (c.putV n x).swallow = c.swallow := by
  unfold Core.putV
  split <;> rfl
@[simp] theorem Core.putV_spBase (c : Core) (n : BitVec 5) (x : VReg) : (c.putV n x).spBase = c.spBase := by
  unfold Core.putV
  split <;> rfl
@[simp] theorem Core.putV_spLen (c : Core) (n : BitVec 5) (x : VReg) : (c.putV n x).spLen = c.spLen := by
  unfold Core.putV
  split <;> rfl
@[simp] theorem Core.putV_peermask (c : Core) (n : BitVec 5) (x : VReg) : (c.putV n x).peermask = c.peermask := by
  unfold Core.putV
  split <;> rfl
@[simp] theorem Core.putV_crew (c : Core) (n : BitVec 5) (x : VReg) : (c.putV n x).crew = c.crew := by
  unfold Core.putV
  split <;> rfl
@[simp] theorem Core.putV_index (c : Core) (n : BitVec 5) (x : VReg) : (c.putV n x).index = c.index := by
  unfold Core.putV
  split <;> rfl
@[simp] theorem Core.putV_lanes (c : Core) (n : BitVec 5) (x : VReg) : (c.putV n x).lanes = c.lanes := by
  unfold Core.putV
  split <;> rfl
@[simp] theorem Core.putV_dead (c : Core) (n : BitVec 5) (x : VReg) : (c.putV n x).dead = c.dead := by
  unfold Core.putV
  split <;> rfl
@[simp] theorem Core.putV_diverted (c : Core) (n : BitVec 5) (x : VReg) : (c.putV n x).diverted = c.diverted := by
  unfold Core.putV
  split <;> rfl
@[simp] theorem Core.putV_outbound (c : Core) (n : BitVec 5) (x : VReg) : (c.putV n x).outbound = c.outbound := by
  unfold Core.putV
  split <;> rfl
@[simp] theorem Core.putV_counters (c : Core) (n : BitVec 5) (x : VReg) : (c.putV n x).counters = c.counters := by
  unfold Core.putV
  split <;> rfl
@[simp] theorem Core.putV_streams (c : Core) (n : BitVec 5) (x : VReg) : (c.putV n x).streams = c.streams := by
  unfold Core.putV
  split <;> rfl
@[simp] theorem Core.putV_turn (c : Core) (n : BitVec 5) (x : VReg) : (c.putV n x).turn = c.turn := by
  unfold Core.putV
  split <;> rfl
@[simp] theorem Core.putV_lastIssued (c : Core) (n : BitVec 5) (x : VReg) : (c.putV n x).lastIssued = c.lastIssued := by
  unfold Core.putV
  split <;> rfl
@[simp] theorem Core.putV_yielded (c : Core) (n : BitVec 5) (x : VReg) : (c.putV n x).yielded = c.yielded := by
  unfold Core.putV
  split <;> rfl
@[simp] theorem Core.putV_upcalls (c : Core) (n : BitVec 5) (x : VReg) : (c.putV n x).upcalls = c.upcalls := by
  unfold Core.putV
  split <;> rfl
@[simp] theorem Core.putV_requests (c : Core) (n : BitVec 5) (x : VReg) : (c.putV n x).requests = c.requests := by
  unfold Core.putV
  split <;> rfl
@[simp] theorem Core.putV_quantum (c : Core) (n : BitVec 5) (x : VReg) : (c.putV n x).quantum = c.quantum := by
  unfold Core.putV
  split <;> rfl
@[simp] theorem Core.putV_round (c : Core) (n : BitVec 5) (x : VReg) : (c.putV n x).round = c.round := by
  unfold Core.putV
  split <;> rfl
@[simp] theorem Core.putV_slots (c : Core) (n : BitVec 5) (x : VReg) : (c.putV n x).slots = c.slots := by
  unfold Core.putV
  split <;> rfl
@[simp] theorem Core.putV_gens (c : Core) (n : BitVec 5) (x : VReg) : (c.putV n x).gens = c.gens := by
  unfold Core.putV
  split <;> rfl
@[simp] theorem Core.putV_itlb (c : Core) (n : BitVec 5) (x : VReg) : (c.putV n x).itlb = c.itlb := by
  unfold Core.putV
  split <;> rfl
@[simp] theorem Core.putV_dtlb (c : Core) (n : BitVec 5) (x : VReg) : (c.putV n x).dtlb = c.dtlb := by
  unfold Core.putV
  split <;> rfl
@[simp] theorem Core.putAcc_v (c : Core) (n : BitVec 2) (x : Tile) : (c.putAcc n x).v = c.v := rfl
@[simp] theorem Core.putAcc_swallow (c : Core) (n : BitVec 2) (x : Tile) : (c.putAcc n x).swallow = c.swallow := rfl
@[simp] theorem Core.putAcc_spBase (c : Core) (n : BitVec 2) (x : Tile) : (c.putAcc n x).spBase = c.spBase := rfl
@[simp] theorem Core.putAcc_spLen (c : Core) (n : BitVec 2) (x : Tile) : (c.putAcc n x).spLen = c.spLen := rfl
@[simp] theorem Core.putAcc_peermask (c : Core) (n : BitVec 2) (x : Tile) : (c.putAcc n x).peermask = c.peermask := rfl
@[simp] theorem Core.putAcc_crew (c : Core) (n : BitVec 2) (x : Tile) : (c.putAcc n x).crew = c.crew := rfl
@[simp] theorem Core.putAcc_index (c : Core) (n : BitVec 2) (x : Tile) : (c.putAcc n x).index = c.index := rfl
@[simp] theorem Core.putAcc_lanes (c : Core) (n : BitVec 2) (x : Tile) : (c.putAcc n x).lanes = c.lanes := rfl
@[simp] theorem Core.putAcc_dead (c : Core) (n : BitVec 2) (x : Tile) : (c.putAcc n x).dead = c.dead := rfl
@[simp] theorem Core.putAcc_diverted (c : Core) (n : BitVec 2) (x : Tile) : (c.putAcc n x).diverted = c.diverted := rfl
@[simp] theorem Core.putAcc_outbound (c : Core) (n : BitVec 2) (x : Tile) : (c.putAcc n x).outbound = c.outbound := rfl
@[simp] theorem Core.putAcc_counters (c : Core) (n : BitVec 2) (x : Tile) : (c.putAcc n x).counters = c.counters := rfl
@[simp] theorem Core.putAcc_streams (c : Core) (n : BitVec 2) (x : Tile) : (c.putAcc n x).streams = c.streams := rfl
@[simp] theorem Core.putAcc_turn (c : Core) (n : BitVec 2) (x : Tile) : (c.putAcc n x).turn = c.turn := rfl
@[simp] theorem Core.putAcc_lastIssued (c : Core) (n : BitVec 2) (x : Tile) : (c.putAcc n x).lastIssued = c.lastIssued := rfl
@[simp] theorem Core.putAcc_yielded (c : Core) (n : BitVec 2) (x : Tile) : (c.putAcc n x).yielded = c.yielded := rfl
@[simp] theorem Core.putAcc_upcalls (c : Core) (n : BitVec 2) (x : Tile) : (c.putAcc n x).upcalls = c.upcalls := rfl
@[simp] theorem Core.putAcc_requests (c : Core) (n : BitVec 2) (x : Tile) : (c.putAcc n x).requests = c.requests := rfl
@[simp] theorem Core.putAcc_quantum (c : Core) (n : BitVec 2) (x : Tile) : (c.putAcc n x).quantum = c.quantum := rfl
@[simp] theorem Core.putAcc_round (c : Core) (n : BitVec 2) (x : Tile) : (c.putAcc n x).round = c.round := rfl
@[simp] theorem Core.putAcc_slots (c : Core) (n : BitVec 2) (x : Tile) : (c.putAcc n x).slots = c.slots := rfl
@[simp] theorem Core.putAcc_gens (c : Core) (n : BitVec 2) (x : Tile) : (c.putAcc n x).gens = c.gens := rfl
@[simp] theorem Core.putAcc_itlb (c : Core) (n : BitVec 2) (x : Tile) : (c.putAcc n x).itlb = c.itlb := rfl
@[simp] theorem Core.putAcc_dtlb (c : Core) (n : BitVec 2) (x : Tile) : (c.putAcc n x).dtlb = c.dtlb := rfl
@[simp] theorem Core.putStream_v (c : Core) (k : Nat) (r : Option RegStream) : (c.putStream k r).v = c.v := by
  unfold Core.putStream
  split <;> rfl
@[simp] theorem Core.putStream_acc (c : Core) (k : Nat) (r : Option RegStream) : (c.putStream k r).acc = c.acc := by
  unfold Core.putStream
  split <;> rfl
@[simp] theorem Core.putStream_swallow (c : Core) (k : Nat) (r : Option RegStream) : (c.putStream k r).swallow = c.swallow := by
  unfold Core.putStream
  split <;> rfl
@[simp] theorem Core.putStream_spBase (c : Core) (k : Nat) (r : Option RegStream) : (c.putStream k r).spBase = c.spBase := by
  unfold Core.putStream
  split <;> rfl
@[simp] theorem Core.putStream_spLen (c : Core) (k : Nat) (r : Option RegStream) : (c.putStream k r).spLen = c.spLen := by
  unfold Core.putStream
  split <;> rfl
@[simp] theorem Core.putStream_peermask (c : Core) (k : Nat) (r : Option RegStream) : (c.putStream k r).peermask = c.peermask := by
  unfold Core.putStream
  split <;> rfl
@[simp] theorem Core.putStream_crew (c : Core) (k : Nat) (r : Option RegStream) : (c.putStream k r).crew = c.crew := by
  unfold Core.putStream
  split <;> rfl
@[simp] theorem Core.putStream_index (c : Core) (k : Nat) (r : Option RegStream) : (c.putStream k r).index = c.index := by
  unfold Core.putStream
  split <;> rfl
@[simp] theorem Core.putStream_lanes (c : Core) (k : Nat) (r : Option RegStream) : (c.putStream k r).lanes = c.lanes := by
  unfold Core.putStream
  split <;> rfl
@[simp] theorem Core.putStream_dead (c : Core) (k : Nat) (r : Option RegStream) : (c.putStream k r).dead = c.dead := by
  unfold Core.putStream
  split <;> rfl
@[simp] theorem Core.putStream_diverted (c : Core) (k : Nat) (r : Option RegStream) : (c.putStream k r).diverted = c.diverted := by
  unfold Core.putStream
  split <;> rfl
@[simp] theorem Core.putStream_outbound (c : Core) (k : Nat) (r : Option RegStream) : (c.putStream k r).outbound = c.outbound := by
  unfold Core.putStream
  split <;> rfl
@[simp] theorem Core.putStream_counters (c : Core) (k : Nat) (r : Option RegStream) : (c.putStream k r).counters = c.counters := by
  unfold Core.putStream
  split <;> rfl
@[simp] theorem Core.putStream_turn (c : Core) (k : Nat) (r : Option RegStream) : (c.putStream k r).turn = c.turn := by
  unfold Core.putStream
  split <;> rfl
@[simp] theorem Core.putStream_lastIssued (c : Core) (k : Nat) (r : Option RegStream) : (c.putStream k r).lastIssued = c.lastIssued := by
  unfold Core.putStream
  split <;> rfl
@[simp] theorem Core.putStream_yielded (c : Core) (k : Nat) (r : Option RegStream) : (c.putStream k r).yielded = c.yielded := by
  unfold Core.putStream
  split <;> rfl
@[simp] theorem Core.putStream_upcalls (c : Core) (k : Nat) (r : Option RegStream) : (c.putStream k r).upcalls = c.upcalls := by
  unfold Core.putStream
  split <;> rfl
@[simp] theorem Core.putStream_requests (c : Core) (k : Nat) (r : Option RegStream) : (c.putStream k r).requests = c.requests := by
  unfold Core.putStream
  split <;> rfl
@[simp] theorem Core.putStream_quantum (c : Core) (k : Nat) (r : Option RegStream) : (c.putStream k r).quantum = c.quantum := by
  unfold Core.putStream
  split <;> rfl
@[simp] theorem Core.putStream_round (c : Core) (k : Nat) (r : Option RegStream) : (c.putStream k r).round = c.round := by
  unfold Core.putStream
  split <;> rfl
@[simp] theorem Core.putStream_slots (c : Core) (k : Nat) (r : Option RegStream) : (c.putStream k r).slots = c.slots := by
  unfold Core.putStream
  split <;> rfl
@[simp] theorem Core.putStream_gens (c : Core) (k : Nat) (r : Option RegStream) : (c.putStream k r).gens = c.gens := by
  unfold Core.putStream
  split <;> rfl
@[simp] theorem Core.putStream_itlb (c : Core) (k : Nat) (r : Option RegStream) : (c.putStream k r).itlb = c.itlb := by
  unfold Core.putStream
  split <;> rfl
@[simp] theorem Core.putStream_dtlb (c : Core) (k : Nat) (r : Option RegStream) : (c.putStream k r).dtlb = c.dtlb := by
  unfold Core.putStream
  split <;> rfl
@[simp] theorem Core.putV_fails (c : Core) (n : BitVec 5) (x : VReg) : (c.putV n x).fails = c.fails := by
  unfold Core.putV
  split <;> rfl
@[simp] theorem Core.cover_v (c : Core) (n : BitVec 5) (m : VReg) : (c.cover n m).v = c.v := rfl
@[simp] theorem Core.cover_acc (c : Core) (n : BitVec 5) (m : VReg) : (c.cover n m).acc = c.acc := rfl
@[simp] theorem Core.cover_swallow (c : Core) (n : BitVec 5) (m : VReg) : (c.cover n m).swallow = c.swallow := rfl
@[simp] theorem Core.cover_spBase (c : Core) (n : BitVec 5) (m : VReg) : (c.cover n m).spBase = c.spBase := rfl
@[simp] theorem Core.cover_spLen (c : Core) (n : BitVec 5) (m : VReg) : (c.cover n m).spLen = c.spLen := rfl
@[simp] theorem Core.cover_peermask (c : Core) (n : BitVec 5) (m : VReg) : (c.cover n m).peermask = c.peermask := rfl
@[simp] theorem Core.cover_crew (c : Core) (n : BitVec 5) (m : VReg) : (c.cover n m).crew = c.crew := rfl
@[simp] theorem Core.cover_index (c : Core) (n : BitVec 5) (m : VReg) : (c.cover n m).index = c.index := rfl
@[simp] theorem Core.cover_lanes (c : Core) (n : BitVec 5) (m : VReg) : (c.cover n m).lanes = c.lanes := rfl
@[simp] theorem Core.cover_dead (c : Core) (n : BitVec 5) (m : VReg) : (c.cover n m).dead = c.dead := rfl
@[simp] theorem Core.cover_diverted (c : Core) (n : BitVec 5) (m : VReg) : (c.cover n m).diverted = c.diverted := rfl
@[simp] theorem Core.cover_outbound (c : Core) (n : BitVec 5) (m : VReg) : (c.cover n m).outbound = c.outbound := rfl
@[simp] theorem Core.cover_counters (c : Core) (n : BitVec 5) (m : VReg) : (c.cover n m).counters = c.counters := rfl
@[simp] theorem Core.cover_streams (c : Core) (n : BitVec 5) (m : VReg) : (c.cover n m).streams = c.streams := rfl
@[simp] theorem Core.cover_turn (c : Core) (n : BitVec 5) (m : VReg) : (c.cover n m).turn = c.turn := rfl
@[simp] theorem Core.cover_lastIssued (c : Core) (n : BitVec 5) (m : VReg) : (c.cover n m).lastIssued = c.lastIssued := rfl
@[simp] theorem Core.cover_yielded (c : Core) (n : BitVec 5) (m : VReg) : (c.cover n m).yielded = c.yielded := rfl
@[simp] theorem Core.cover_upcalls (c : Core) (n : BitVec 5) (m : VReg) : (c.cover n m).upcalls = c.upcalls := rfl
@[simp] theorem Core.cover_requests (c : Core) (n : BitVec 5) (m : VReg) : (c.cover n m).requests = c.requests := rfl
@[simp] theorem Core.cover_quantum (c : Core) (n : BitVec 5) (m : VReg) : (c.cover n m).quantum = c.quantum := rfl
@[simp] theorem Core.cover_round (c : Core) (n : BitVec 5) (m : VReg) : (c.cover n m).round = c.round := rfl
@[simp] theorem Core.cover_slots (c : Core) (n : BitVec 5) (m : VReg) : (c.cover n m).slots = c.slots := rfl
@[simp] theorem Core.cover_gens (c : Core) (n : BitVec 5) (m : VReg) : (c.cover n m).gens = c.gens := rfl
@[simp] theorem Core.cover_itlb (c : Core) (n : BitVec 5) (m : VReg) : (c.cover n m).itlb = c.itlb := rfl
@[simp] theorem Core.cover_dtlb (c : Core) (n : BitVec 5) (m : VReg) : (c.cover n m).dtlb = c.dtlb := rfl
@[simp] theorem Core.putAccPart_v (c : Core) (n : BitVec 2) (g : Nat → Bool) (x : Tile) : (c.putAccPart n g x).v = c.v := rfl
@[simp] theorem Core.putAccPart_swallow (c : Core) (n : BitVec 2) (g : Nat → Bool) (x : Tile) : (c.putAccPart n g x).swallow = c.swallow := rfl
@[simp] theorem Core.putAccPart_spBase (c : Core) (n : BitVec 2) (g : Nat → Bool) (x : Tile) : (c.putAccPart n g x).spBase = c.spBase := rfl
@[simp] theorem Core.putAccPart_spLen (c : Core) (n : BitVec 2) (g : Nat → Bool) (x : Tile) : (c.putAccPart n g x).spLen = c.spLen := rfl
@[simp] theorem Core.putAccPart_peermask (c : Core) (n : BitVec 2) (g : Nat → Bool) (x : Tile) : (c.putAccPart n g x).peermask = c.peermask := rfl
@[simp] theorem Core.putAccPart_crew (c : Core) (n : BitVec 2) (g : Nat → Bool) (x : Tile) : (c.putAccPart n g x).crew = c.crew := rfl
@[simp] theorem Core.putAccPart_index (c : Core) (n : BitVec 2) (g : Nat → Bool) (x : Tile) : (c.putAccPart n g x).index = c.index := rfl
@[simp] theorem Core.putAccPart_lanes (c : Core) (n : BitVec 2) (g : Nat → Bool) (x : Tile) : (c.putAccPart n g x).lanes = c.lanes := rfl
@[simp] theorem Core.putAccPart_dead (c : Core) (n : BitVec 2) (g : Nat → Bool) (x : Tile) : (c.putAccPart n g x).dead = c.dead := rfl
@[simp] theorem Core.putAccPart_diverted (c : Core) (n : BitVec 2) (g : Nat → Bool) (x : Tile) : (c.putAccPart n g x).diverted = c.diverted := rfl
@[simp] theorem Core.putAccPart_outbound (c : Core) (n : BitVec 2) (g : Nat → Bool) (x : Tile) : (c.putAccPart n g x).outbound = c.outbound := rfl
@[simp] theorem Core.putAccPart_counters (c : Core) (n : BitVec 2) (g : Nat → Bool) (x : Tile) : (c.putAccPart n g x).counters = c.counters := rfl
@[simp] theorem Core.putAccPart_streams (c : Core) (n : BitVec 2) (g : Nat → Bool) (x : Tile) : (c.putAccPart n g x).streams = c.streams := rfl
@[simp] theorem Core.putAccPart_turn (c : Core) (n : BitVec 2) (g : Nat → Bool) (x : Tile) : (c.putAccPart n g x).turn = c.turn := rfl
@[simp] theorem Core.putAccPart_lastIssued (c : Core) (n : BitVec 2) (g : Nat → Bool) (x : Tile) : (c.putAccPart n g x).lastIssued = c.lastIssued := rfl
@[simp] theorem Core.putAccPart_yielded (c : Core) (n : BitVec 2) (g : Nat → Bool) (x : Tile) : (c.putAccPart n g x).yielded = c.yielded := rfl
@[simp] theorem Core.putAccPart_upcalls (c : Core) (n : BitVec 2) (g : Nat → Bool) (x : Tile) : (c.putAccPart n g x).upcalls = c.upcalls := rfl
@[simp] theorem Core.putAccPart_requests (c : Core) (n : BitVec 2) (g : Nat → Bool) (x : Tile) : (c.putAccPart n g x).requests = c.requests := rfl
@[simp] theorem Core.putAccPart_quantum (c : Core) (n : BitVec 2) (g : Nat → Bool) (x : Tile) : (c.putAccPart n g x).quantum = c.quantum := rfl
@[simp] theorem Core.putAccPart_round (c : Core) (n : BitVec 2) (g : Nat → Bool) (x : Tile) : (c.putAccPart n g x).round = c.round := rfl
@[simp] theorem Core.putAccPart_slots (c : Core) (n : BitVec 2) (g : Nat → Bool) (x : Tile) : (c.putAccPart n g x).slots = c.slots := rfl
@[simp] theorem Core.putAccPart_gens (c : Core) (n : BitVec 2) (g : Nat → Bool) (x : Tile) : (c.putAccPart n g x).gens = c.gens := rfl
@[simp] theorem Core.putAccPart_itlb (c : Core) (n : BitVec 2) (g : Nat → Bool) (x : Tile) : (c.putAccPart n g x).itlb = c.itlb := rfl
@[simp] theorem Core.putAccPart_dtlb (c : Core) (n : BitVec 2) (g : Nat → Bool) (x : Tile) : (c.putAccPart n g x).dtlb = c.dtlb := rfl
@[simp] theorem Core.putStream_fails (c : Core) (k : Nat) (r : Option RegStream) : (c.putStream k r).fails = c.fails := by
  unfold Core.putStream
  split <;> rfl

/-! ### The parts by number -/

theorem StrandId.key_inj {v w : StrandId} (hv : v.ctx < 16) (hw : w.ctx < 16) (h : StrandId.key v = StrandId.key w) :
    v = w := by
  obtain ⟨c, x⟩ := v
  obtain ⟨d, y⟩ := w
  simp only [StrandId.key] at h
  simp only at hv hw
  simp only [StrandId.mk.injEq]
  omega

@[simp] theorem State.strand_setStrand_self (s : State) (w : StrandId) (t : Strand) : (s.setStrand w t).strand w = t := by
  simp [State.strand]

theorem State.strand_setStrand_ne (s : State) {v w : StrandId} (t : Strand) (h : StrandId.key v ≠ StrandId.key w) :
    (s.setStrand w t).strand v = s.strand v := by
  simp [State.strand, FMap.getD_put_ne _ _ _ h]

@[simp] theorem State.strand_onStrand_self (s : State) (w : StrandId) (f : Strand → Strand) :
    (s.onStrand w f).strand w = f (s.strand w) := State.strand_setStrand_self s w _

theorem State.strand_onStrand_ne (s : State) {v w : StrandId} (f : Strand → Strand) (h : StrandId.key v ≠ StrandId.key w) :
    (s.onStrand w f).strand v = s.strand v := State.strand_setStrand_ne s _ h

@[simp] theorem State.strand_setCore (s : State) (w : StrandId) (c : Nat) (x : Core) : (s.setCore c x).strand w = s.strand w := rfl
@[simp] theorem State.strand_onCore (s : State) (w : StrandId) (c : Nat) (f : Core → Core) : (s.onCore c f).strand w = s.strand w := rfl
@[simp] theorem State.core_setCore_self (s : State) (c : Nat) (x : Core) : (s.setCore c x).core c = x := by simp [State.core]

theorem State.core_setCore_ne (s : State) {c d : Nat} (x : Core) (h : d ≠ c) : (s.setCore c x).core d = s.core d := by
  simp [State.core, FMap.getD_put_ne _ _ _ h]

@[simp] theorem State.core_onCore_self (s : State) (c : Nat) (f : Core → Core) : (s.onCore c f).core c = f (s.core c) :=
  State.core_setCore_self s c _

theorem State.core_onCore_ne (s : State) {c d : Nat} (f : Core → Core) (h : d ≠ c) : (s.onCore c f).core d = s.core d :=
  State.core_setCore_ne s _ h

@[simp] theorem State.core_setStrand (s : State) (c : Nat) (w : StrandId) (t : Strand) : (s.setStrand w t).core c = s.core c := rfl
@[simp] theorem State.core_onStrand (s : State) (c : Nat) (w : StrandId) (f : Strand → Strand) : (s.onStrand w f).core c = s.core c := rfl
@[simp] theorem State.crewOf_setStrand (s : State) (c : Nat) (w : StrandId) (t : Strand) : (s.setStrand w t).crewOf c = s.crewOf c := rfl
@[simp] theorem State.crewOf_onStrand (s : State) (c : Nat) (w : StrandId) (f : Strand → Strand) : (s.onStrand w f).crewOf c = s.crewOf c := rfl

@[simp] theorem State.setStrand_setStrand (s : State) (w : StrandId) (t u : Strand) :
    (s.setStrand w t).setStrand w u = s.setStrand w u := by simp [State.setStrand]

@[simp] theorem State.onStrand_onStrand (s : State) (w : StrandId) (f g : Strand → Strand) :
    (s.onStrand w f).onStrand w g = s.onStrand w fun t => g (f t) := by simp [State.onStrand]

@[simp] theorem State.setCore_setCore (s : State) (c : Nat) (x y : Core) : (s.setCore c x).setCore c y = s.setCore c y := by
  simp [State.setCore]

@[simp] theorem State.onCore_onCore (s : State) (c : Nat) (f g : Core → Core) :
    (s.onCore c f).onCore c g = s.onCore c fun x => g (f x) := by simp [State.onCore]

/-- Updates of strands and of cores commute. -/
theorem State.onCore_onStrand (s : State) (c : Nat) (w : StrandId) (f : Core → Core) (g : Strand → Strand) :
    (s.onStrand w g).onCore c f = (s.onCore c f).onStrand w g := rfl

/-! ### Reading a register that was written -/

@[simp] theorem Strand.getS_zero (t : Strand) : t.getS 0 = 0 := rfl
@[simp] theorem Strand.getP_zero (t : Strand) : t.getP 0 = BitVec.allOnes 256 := rfl
@[simp] theorem Strand.getQ_seven (t : Strand) : t.getQ 7 = BitVec.allOnes 64 := rfl
@[simp] theorem Strand.getCursor_seven (t : Strand) : t.getCursor 7 = 0 := rfl

theorem Strand.getS_putS (t : Strand) (n m : BitVec 4) (x : Word) :
    (t.putS n x).getS m = if m = n ∧ n ≠ 0#4 then x else t.getS m := by
  unfold Strand.putS
  by_cases hn : n = 0#4
  · simp [hn]
  · by_cases hm : m = n
    · subst hm
      simp [hn, Strand.getS]
    · have : n.toNat ≠ m.toNat := fun h => hm (BitVec.eq_of_toNat_eq h).symm
      simp [hn, hm, Strand.getS, Vector.getElem_set_ne _ _ this]

theorem Strand.getF_putF (t : Strand) (n m : BitVec 3) (x : Word) :
    (t.putF n x).getF m = if m = n then x else t.getF m := by
  unfold Strand.putF
  by_cases hm : m = n
  · subst hm
    simp [Strand.getF]
  · have : n.toNat ≠ m.toNat := fun h => hm (BitVec.eq_of_toNat_eq h).symm
    simp [hm, Strand.getF, Vector.getElem_set_ne _ _ this]

theorem Strand.getP_putP (t : Strand) (n m : BitVec 3) (x : Pred) :
    (t.putP n x).getP m = if m = n ∧ n ≠ 0#3 then x else t.getP m := by
  unfold Strand.putP
  by_cases hn : n = 0#3
  · simp [hn]
  · by_cases hm : m = n
    · subst hm
      simp [hn, Strand.getP]
    · have : n.toNat ≠ m.toNat := fun h => hm (BitVec.eq_of_toNat_eq h).symm
      simp [hn, hm, Strand.getP, Vector.getElem_set_ne _ _ this]

theorem Strand.getQ_putQ (t : Strand) (n m : BitVec 3) (x : Word) :
    (t.putQ n x).getQ m = if m = n ∧ n ≠ 7#3 then x else t.getQ m := by
  unfold Strand.putQ
  by_cases hn : n = 7#3
  · simp [hn]
  · by_cases hm : m = n
    · subst hm
      simp [hn, Strand.getQ]
    · have : n.toNat ≠ m.toNat := fun h => hm (BitVec.eq_of_toNat_eq h).symm
      simp [hn, hm, Strand.getQ, Vector.getElem_set_ne _ _ this]

theorem Core.getV_putV (c : Core) (n m : BitVec 5) (x : VReg) :
    (c.putV n x).getV m = if m = n ∧ n.toNat < 30 then x else c.getV m := by
  unfold Core.putV
  by_cases hn : n.toNat < 30
  · by_cases hm : m = n
    · subst hm
      simp [hn, Core.getV]
    · have : n.toNat ≠ m.toNat := fun h => hm (BitVec.eq_of_toNat_eq h).symm
      simp only [hn, hm, Core.getV, dif_pos, false_and, if_false]
      split
      · exact Vector.getElem_set_ne _ _ this
      · rfl
  · simp [hn]

end Sys2Proof.Machine
end

