-- ==== Sys2Proof/Laws/Issue.lean ====
section
/-!
SUPPORT. What the issue of an instruction does, said once: for a strand that nothing holds back, an instruction's own body
decides alone; a result of any latency reaches its register and changes nothing else.
-/
namespace Sys2Proof.Machine
open Sys2Proof

/-! ### A strand that nothing holds back -/

/-- With no result in flight nothing is delivered. -/
theorem State.deliver_empty {s : State} {w : StrandId} (h : (s.strand w).pend = []) (sel : Pending → Bool) :
    s.deliver w sel = s := by
  simp [State.deliver, h]

theorem State.deliverAll_empty {s : State} {w : StrandId} (h : (s.strand w).pend = []) : s.deliverAll w = s :=
  State.deliver_empty h _

theorem Strand.requests_empty {t : Strand} (h : t.requested = []) (r : Reg) : t.requests r = false := by
  cases r <;> simp [Strand.requests, h, FMap.find]

theorem Core.streamOf_none {c : Core} (h : c.streams = Vector.replicate 4 none) (v : BitVec 5) : c.streamOf v = none := by
  simp [Core.streamOf, h, List.range, List.range.loop, List.findSome?]

theorem Core.readStreams_none {c : Core} (h : c.streams = Vector.replicate 4 none) (x : Issue) : c.readStreams x = [] := by
  have : c.streamOf = fun _ => none := funext fun v => Core.streamOf_none h v
  simp [Core.readStreams, this]

theorem Core.emit_none {c : Core} (h : c.streams = Vector.replicate 4 none) (v : BitVec 5) : c.emit v = c := by
  simp [Core.emit, Core.streamOf_none h v]

/-- A register that no stream is tied to reads as it stands. -/
theorem Calm.readV {s : State} (h : Calm s) (v : BitVec 5) : s.readV s.cur.core v = s.rv v := by
  simp [State.readV, Core.streamOf_none h.streams v, State.rv]

theorem Calm.srcV {s : State} (h : Calm s) (v : BitVec 5) : s.readV s.cur.core v = (s.core s.cur.core).getV v :=
  h.readV v

/-- Issue, for a strand that nothing holds back: its ownership, and then the instruction's own body. -/
theorem Calm.issue {s : State} (h : Calm s) {x : Issue} (ho : x.vregs.all (s.owns s.cur) = true)
    (body : State → Nat → Res) :
    s.issue x body =
      match body s (s.issueSlot x) with
      | .done u => .next (s.retire u x)
      | .jump u pc =>
        .next (((u.onStrand s.cur fun t => t.spend (s.issueSlot x) x.sc (s.bankSrcs s.cur x)).countRetired s.cur).transfer s.cur pc)
      | .trap y => .next (s.takeTrap s.cur y)
      | .wait c => .next (s.stay s.cur c)
      | .enter u => .next u := by
  have h1 : x.srcs.any (s.strand s.cur).requests = false := by
    simp [Strand.requests_empty h.requested]
  have h2 : ∀ sel, s.deliver s.cur sel = s := State.deliver_empty h.pend
  have h3 : s.ready1 s.cur = s := by simp [State.ready1, h.wait]
  have h4 : s.streamGate s.cur x = none := by
    cases hv : x.vdst <;> simp [State.streamGate, hv, Core.streamOf_none h.streams, Core.readStreams_none h.streams]
  have h5 : s.takeSteps s.cur x = s := by simp [State.takeSteps, Core.readStreams_none h.streams]
  have h7 : s.regFail s.cur x = none := by simp [State.regFail, h.sound, h.coreSound]
  have h6 (l : List Reg) : l.filter (fun _ => false) = [] := by simp
  simp only [State.issue, ho, h1, h2, h3, h4, h5, h6, h7, h.pend, List.any_nil, bne_self_eq_false, Bool.and_false, Bool.not_true, Bool.false_eq_true,
    if_false, Option.map_none, Option.getD_none, State.retire, State.issueSlot]
  all_goals rfl

/-- An instruction whose body has an effect retires with it. -/
theorem Calm.issue_done {s : State} (h : Calm s) {x : Issue} (ho : x.vregs.all (s.owns s.cur) = true)
    {body : State → Nat → Res} {u : State} (hb : body s (s.issueSlot x) = .done u) :
    s.issue x body = .next (s.retire u x) := by
  rw [h.issue ho, hb]

/-- An instruction whose body traps takes the trap with no effect. -/
theorem Calm.issue_trap {s : State} (h : Calm s) {x : Issue} (ho : x.vregs.all (s.owns s.cur) = true)
    {body : State → Nat → Res} {y : Trap} (hb : body s (s.issueSlot x) = .trap y) :
    s.issue x body = .next (s.takeTrap s.cur y) := by
  rw [h.issue ho, hb]

/-- An instruction without vector registers needs no ownership. -/
theorem plain_owned (s : State) (sc : BitVec 2) (srcs : List Reg) :
    (plain sc srcs).vregs.all (s.owns s.cur) = true := rfl

theorem Owned.all {s : State} {vs : List (BitVec 5)} (h : Owned s vs) : vs.all (s.owns s.cur) = true := by
  rw [List.all_eq_true]
  exact h

/-! ### Results -/

/-- Updates of the timing of a strand leave its registers. -/
theorem Strand.follow_putS (t : Strand) (k : Nat) (n : BitVec 4) (x : Word) :
    (t.putS n x).follow k = (t.follow k).putS n x := by
  unfold Strand.putS
  split
  · rfl
  · unfold Strand.follow
    dsimp only
    split
    · rfl
    · split
      · rfl
      · split <;> rfl

theorem Strand.follow_putF (t : Strand) (k : Nat) (n : BitVec 3) (x : Word) :
    (t.putF n x).follow k = (t.follow k).putF n x := by
  unfold Strand.putF Strand.follow
  dsimp only
  split
  · rfl
  · split
    · rfl
    · split <;> rfl

theorem Strand.follow_putP (t : Strand) (k : Nat) (n : BitVec 3) (x : Pred) :
    (t.putP n x).follow k = (t.follow k).putP n x := by
  unfold Strand.putP
  split
  · rfl
  · unfold Strand.follow
    dsimp only
    split
    · rfl
    · split
      · rfl
      · split <;> rfl

theorem Strand.spend_putS (t : Strand) (k : Nat) (sc : BitVec 2) (l : List (BitVec 5 × Bool)) (n : BitVec 4) (x : Word) :
    (t.putS n x).spend k sc l = (t.spend k sc l).putS n x := by
  unfold Strand.putS
  split <;> rfl

theorem Strand.spend_putF (t : Strand) (k : Nat) (sc : BitVec 2) (l : List (BitVec 5 × Bool)) (n : BitVec 3) (x : Word) :
    (t.putF n x).spend k sc l = (t.spend k sc l).putF n x := rfl

theorem Strand.spend_putP (t : Strand) (k : Nat) (sc : BitVec 2) (l : List (BitVec 5 × Bool)) (n : BitVec 3) (x : Pred) :
    (t.putP n x).spend k sc l = (t.spend k sc l).putP n x := by
  unfold Strand.putP
  split <;> rfl

theorem Strand.follow_pend (t : Strand) (k : Nat) (l : List Pending) :
    ({ t with pend := l } : Strand).follow k = { t.follow k with pend := l } := by
  unfold Strand.follow
  dsimp only
  split
  · rfl
  · split
    · rfl
    · split <;> rfl

@[simp] theorem Strand.follow_pend_eq (t : Strand) (k : Nat) : (t.follow k).pend = t.pend := by
  unfold Strand.follow
  dsimp only
  split
  · rfl
  · split
    · rfl
    · split <;> rfl

@[simp] theorem Strand.follow_det (t : Strand) (k : Nat) : (t.follow k).det = t.det := by
  unfold Strand.follow
  dsimp only
  split
  · rfl
  · split
    · rfl
    · split <;> rfl

@[simp] theorem State.countRetired_strand (s : State) (w v : StrandId) : (s.countRetired w).strand v = s.strand v := by
  unfold State.countRetired
  split <;> rfl

theorem State.onStrand_congr (s : State) (w : StrandId) {f g : Strand → Strand} (h : f (s.strand w) = g (s.strand w)) :
    s.onStrand w f = s.onStrand w g := by simp [State.onStrand, h]

theorem State.onCore_congr (s : State) (c : Nat) {f g : Core → Core} (h : f (s.core c) = g (s.core c)) :
    s.onCore c f = s.onCore c g := by simp [State.onCore, h]

theorem State.countRetired_onStrand (s : State) (w : StrandId) (f : Strand → Strand)
    (h : (f (s.strand w)).det = (s.strand w).det) :
    (s.countRetired w).onStrand w f = (s.onStrand w f).countRetired w := by
  unfold State.countRetired
  simp only [State.strand_onStrand_self, h]
  split <;> rfl

theorem State.countRetired_onCore (s : State) (w : StrandId) (f : Core → Core)
    (h : ∀ c : Core, f { c with quantum := c.quantum + 1, round := c.round + 1, turn := w.ctx + 1 } =
      { f c with quantum := (f c).quantum + 1, round := (f c).round + 1, turn := w.ctx + 1 }) :
    (s.countRetired w).onCore w.core f = (s.onCore w.core f).countRetired w := by
  unfold State.countRetired
  split
  · rename_i hd
    have hd' : ((s.onCore w.core f).strand w).det = true := hd
    rw [if_pos hd']
    simp [h]
  · rename_i hd
    have hd' : ¬((s.onCore w.core f).strand w).det = true := hd
    rw [if_neg hd']

/-- A write of a vector register commutes with the counts of a core. -/
theorem Core.putV_counts (c : Core) (n : BitVec 5) (x : VReg) (q r t : Nat) :
    ({ c with quantum := q, round := r, turn := t } : Core).putV n x = { c.putV n x with quantum := q, round := r, turn := t } := by
  unfold Core.putV
  split <;> rfl

/-- The write of a vector register of a core with no stream. -/
def vecWrite (n : BitVec 5) (v mask : VReg) (c : Core) : Core := if mask = 0 then c else (c.putV n (blend (c.getV n) v mask)).cover n mask

theorem State.putReg_v {s : State} {w : StrandId} (h : (s.core w.core).streams = Vector.replicate 4 none) (n : BitVec 5)
    (v mask : VReg) : s.putReg w (.v n) v mask = s.onCore w.core (vecWrite n v mask) := by
  unfold State.putReg
  apply State.onCore_congr
  simp only [vecWrite]
  split
  · rfl
  · exact Core.emit_none (by simp [h]) n

theorem vecWrite_counts (n : BitVec 5) (v mask : VReg) (c : Core) (q r t : Nat) :
    vecWrite n v mask { c with quantum := q, round := r, turn := t } =
      { vecWrite n v mask c with quantum := q, round := r, turn := t } := by
  unfold vecWrite
  split
  · rfl
  · exact congrArg (Core.cover · n mask) (Core.putV_counts c n _ q r t)

@[simp] theorem vecWrite_streams (n : BitVec 5) (v mask : VReg) (c : Core) : (vecWrite n v mask c).streams = c.streams := by
  unfold vecWrite
  split <;> simp

/-- A strand with no result in flight or requested, on a core with no register stream. -/
structure Quiet (u : State) (w : StrandId) : Prop where
  pend : (u.strand w).pend = []
  requested : (u.strand w).requested = []
  streams : (u.core w.core).streams = Vector.replicate 4 none

theorem Calm.quiet {s : State} (h : Calm s) : Quiet s s.cur := ⟨h.pend, h.requested, h.streams⟩

/-- The state after a result whose latency is one slot, or that is not held back. -/
theorem Quiet.writeNow {u : State} {w : StrandId} (h : Quiet u w) (r : Reg) (v mask : VReg) :
    u.writeNow w r v mask = u.putReg w r v mask := by
  simp [State.writeNow, h.pend]

theorem Quiet.unrequest {u : State} {w : StrandId} (h : Quiet u w) (r : Reg) : u.unrequest w r = u := by
  cases r <;> simp [State.unrequest, h.requested]

/-- What a retiring instruction does to its strand. -/
def State.timing (s : State) (x : Issue) (t : Strand) : Strand :=
  (t.follow (irBytes s.ir)).spend (s.issueSlot x) x.sc (s.bankSrcs s.cur x)

theorem State.retire_eq (s u : State) (x : Issue) : s.retire u x = (u.onStrand s.cur (s.timing x)).countRetired s.cur := rfl

@[simp] theorem State.timing_det (s : State) (x : Issue) (t : Strand) : (s.timing x t).det = t.det := by
  simp [State.timing, Strand.spend]

@[simp] theorem State.timing_pend (s : State) (x : Issue) (t : Strand) : (s.timing x t).pend = t.pend := by
  simp [State.timing, Strand.spend]

theorem State.timing_setPend (s : State) (x : Issue) (t : Strand) (l : List Pending) :
    s.timing x { t with pend := l } = { s.timing x t with pend := l } := by
  simp [State.timing, Strand.follow_pend, Strand.spend]

theorem State.timing_putS (s : State) (x : Issue) (t : Strand) (n : BitVec 4) (y : Word) :
    s.timing x (t.putS n y) = (s.timing x t).putS n y := by
  simp [State.timing, Strand.follow_putS, Strand.spend_putS]

theorem State.timing_putF (s : State) (x : Issue) (t : Strand) (n : BitVec 3) (y : Word) :
    s.timing x (t.putF n y) = (s.timing x t).putF n y := by
  simp [State.timing, Strand.follow_putF, Strand.spend_putF]

theorem State.timing_putP (s : State) (x : Issue) (t : Strand) (n : BitVec 3) (y : Pred) :
    s.timing x (t.putP n y) = (s.timing x t).putP n y := by
  simp [State.timing, Strand.follow_putP, Strand.spend_putP]

theorem Strand.pend_self {t : Strand} (h : t.pend = []) : ({ t with pend := [] } : Strand) = t := by
  rw [← h]

theorem Strand.putS_landed {t : Strand} (h : t.pend = []) (l : List Pending) (n : BitVec 4) (x : Word) :
    ({ Strand.putS { t with pend := l } n x with pend := [] } : Strand) = t.putS n x := by
  have hx : ({ t.putS n x with pend := [] } : Strand) = t.putS n x := Strand.pend_self (by simp [h])
  rw [← hx]
  unfold Strand.putS
  split <;> rfl

theorem Strand.putF_landed {t : Strand} (h : t.pend = []) (l : List Pending) (n : BitVec 3) (x : Word) :
    ({ Strand.putF { t with pend := l } n x with pend := [] } : Strand) = t.putF n x := by
  have hx : ({ t.putF n x with pend := [] } : Strand) = t.putF n x := Strand.pend_self (by simp [h])
  rw [← hx]
  unfold Strand.putF
  rfl

theorem Strand.putP_landed {t : Strand} (h : t.pend = []) (l : List Pending) (n : BitVec 3) (x : Pred) :
    ({ Strand.putP { t with pend := l } n x with pend := [] } : Strand) = t.putP n x := by
  have hx : ({ t.putP n x with pend := [] } : Strand) = t.putP n x := Strand.pend_self (by simp [h])
  rw [← hx]
  unfold Strand.putP
  split <;> rfl

/-- A retiring instruction whose result is in flight: delivered, it is the result written before the instruction's timing. -/
theorem Quiet.retire_pend {s u : State} (h : Quiet u s.cur) (x : Issue) (r : Reg) (v mask : VReg) (due : Option Nat) :
    (s.retire (u.onStrand s.cur fun t => { t with pend := t.pend ++ [⟨r, v, mask, due⟩] }) x).deliverAll s.cur =
      s.retire (u.putReg s.cur r v mask) x := by
  have hf : s.timing x { u.strand s.cur with pend := (u.strand s.cur).pend ++ [⟨r, v, mask, due⟩] } =
      { s.timing x (u.strand s.cur) with pend := [⟨r, v, mask, due⟩] } := by
    rw [h.pend]
    exact State.timing_setPend s x _ _
  have hr : s.retire (u.onStrand s.cur fun t => { t with pend := t.pend ++ [⟨r, v, mask, due⟩] }) x =
      (u.onStrand s.cur fun t => { s.timing x t with pend := [⟨r, v, mask, due⟩] }).countRetired s.cur := by
    rw [State.retire_eq, State.onStrand_onStrand]
    congr 1
    exact State.onStrand_congr u _ hf
  have hp : ((u.onStrand s.cur fun t => { s.timing x t with pend := [⟨r, v, mask, due⟩] }).countRetired s.cur).strand s.cur =
      { s.timing x (u.strand s.cur) with pend := [⟨r, v, mask, due⟩] } := by simp
  rw [hr]
  simp only [State.deliverAll, State.deliver, hp, List.isEmpty_cons, Bool.false_eq_true, if_false, deliverList, if_true,
    List.filterMap_nil, List.nil_append]
  cases r with
  | s n =>
    simp only [State.putReg, State.retire_eq, State.onStrand_onStrand]
    rw [State.countRetired_onStrand _ _ _ (by simp)]
    simp only [State.onStrand_onStrand]
    congr 1
    apply State.onStrand_congr
    rw [State.timing_putS]
    have hz := State.timing_pend s x (u.strand s.cur)
    rw [h.pend] at hz
    exact Strand.putS_landed hz _ n _
  | f n =>
    simp only [State.putReg, State.retire_eq, State.onStrand_onStrand]
    rw [State.countRetired_onStrand _ _ _ (by simp)]
    simp only [State.onStrand_onStrand]
    congr 1
    apply State.onStrand_congr
    rw [State.timing_putF]
    have hz := State.timing_pend s x (u.strand s.cur)
    rw [h.pend] at hz
    exact Strand.putF_landed hz _ n _
  | p n =>
    simp only [State.putReg, State.retire_eq, State.onStrand_onStrand]
    rw [State.countRetired_onStrand _ _ _ (by simp)]
    simp only [State.onStrand_onStrand]
    congr 1
    apply State.onStrand_congr
    rw [State.timing_putP]
    have hz := State.timing_pend s x (u.strand s.cur)
    rw [h.pend] at hz
    exact Strand.putP_landed hz _ n _
  | v n =>
    have hs : (((u.onStrand s.cur fun t => { s.timing x t with pend := [⟨.v n, v, mask, due⟩] }).countRetired s.cur).core
        s.cur.core).streams = Vector.replicate 4 none := by
      unfold State.countRetired
      split
      · simp [h.streams]
      · simp [h.streams]
    rw [State.putReg_v hs, State.putReg_v h.streams, State.countRetired_onCore _ _ _ (fun c => by rw [vecWrite_counts]; unfold vecWrite; split <;> simp),
      State.countRetired_onStrand _ _ _ (by rfl), State.onCore_onStrand, State.onStrand_onStrand, State.retire_eq]
    congr 1
    apply State.onStrand_congr
    have hz := State.timing_pend s x (u.strand s.cur)
    rw [h.pend] at hz
    show ({ s.timing x (u.strand s.cur) with pend := [] } : Strand) = s.timing x (u.strand s.cur)
    rw [← hz]

/-- A result of any latency, once delivered, has written its register and nothing else. -/
theorem Quiet.result {s u : State} (h : Quiet u s.cur) (x : Issue) (lat : Latency) (n : Nat) (r : Reg) (v mask : VReg) :
    (s.retire (u.result s.cur lat n r v mask) x).deliverAll s.cur = s.retire (u.write s.cur r v mask) x := by
  have hd : ∀ y : State, (y.strand s.cur).pend = [] → (s.retire y x).deliverAll s.cur = s.retire y x := by
    intro y hu
    apply State.deliverAll_empty
    simp [State.retire_eq, hu]
  have hput : (s.retire (u.putReg s.cur r v mask) x).deliverAll s.cur = s.retire (u.putReg s.cur r v mask) x := by
    apply hd
    cases r <;> simp [State.putReg, h.pend]
  unfold State.result State.write
  split
  · exact hd u h.pend
  · rw [h.unrequest]
    match lat with
    | .fixed 0 => exact h.retire_pend x r v mask _
    | .fixed 1 => simpa only [h.writeNow] using hput
    | .fixed (k + 2) => exact h.retire_pend x r v mask _
    | .variable =>
      simp only
      split
      · exact h.retire_pend x r v mask _
      · simpa only [h.writeNow] using hput

/-- A result of a strand that nothing holds back, once delivered, has written its register and nothing else. -/
theorem Calm.result {s : State} (h : Calm s) (x : Issue) (lat : Latency) (n : Nat) (r : Reg) (v mask : VReg) :
    (s.retire (s.result s.cur lat n r v mask) x).deliverAll s.cur = s.retire (s.write s.cur r v mask) x :=
  h.quiet.result x lat n r v mask

/-- The instruction gives its register a value on an effect: its body ends in one result. -/
theorem Calm.gives_on {s u : State} (h : Calm s) (hu : Quiet u s.cur) {i : Instr} {x : Issue} {r : Reg} {v mask : VReg}
    {lat : Latency} {n : Nat} {body : State → Nat → Res} (ho : x.vregs.all (s.owns s.cur) = true)
    (he : exec i s = s.issue x body) (hb : body s (s.issueSlot x) = .done (u.result s.cur lat n r v mask)) :
    GivesOn s u i x r v mask :=
  ⟨_, by rw [he, h.issue_done ho hb], hu.result x lat n r v mask⟩

/-- The instruction gives its register a value: its body ends in one result. -/
theorem Calm.gives {s : State} (h : Calm s) {i : Instr} {x : Issue} {r : Reg} {v mask : VReg} {lat : Latency} {n : Nat}
    {body : State → Nat → Res} (ho : x.vregs.all (s.owns s.cur) = true) (he : exec i s = s.issue x body)
    (hb : body s (s.issueSlot x) = .done (s.result s.cur lat n r v mask)) : Gives s i x r v mask :=
  h.gives_on h.quiet ho he hb

/-- The instruction retires with an effect. -/
theorem Calm.does {s : State} (h : Calm s) {i : Instr} {x : Issue} {u : State} {body : State → Nat → Res}
    (ho : x.vregs.all (s.owns s.cur) = true) (he : exec i s = s.issue x body)
    (hb : body s (s.issueSlot x) = .done u) : Does s i x u := by
  rw [Does, he, h.issue_done ho hb]

/-- The instruction traps. -/
theorem Calm.traps {s : State} (h : Calm s) {i : Instr} {x : Issue} {y : Trap} {body : State → Nat → Res}
    (ho : x.vregs.all (s.owns s.cur) = true) (he : exec i s = s.issue x body)
    (hb : body s (s.issueSlot x) = .trap y) : Traps s i y := by
  rw [Traps, he, h.issue_trap ho hb]

/-- A vector register of a strand that nothing holds back reads as it stands; a predicate reads at its own slot. -/
theorem Calm.peekP {s : State} (h : Calm s) (p : BitVec 3) : s.peekP s.cur p = s.rp p := by
  simp [State.peekP, State.deliver_empty h.pend, State.rp]

theorem Calm.srcV_eq {s : State} (h : Calm s) (v : BitVec 5) : s.srcV v = s.rv v := h.readV v

/-! ### Steps given back, and registers that fail -/

/-- What a take removed and counted, given back, leaves the steps of the stream as they were before the take. -/
theorem RegStream.giveBack_take (r : RegStream) (k : Nat) :
    (r.take.giveBack ⟨k, r.order, r.take.took.1, r.take.took.2⟩).buf = r.buf ∧
      (r.take.giveBack ⟨k, r.order, r.take.took.1, r.take.took.2⟩).taken = r.taken := by
  unfold RegStream.take RegStream.giveBack
  split
  · exact ⟨rfl, rfl⟩
  · split
    · rename_i h
      exact ⟨h.symm, rfl⟩
    · exact ⟨rfl, rfl⟩

/-- The read behind one that was given back takes the same step, whoever else has read the stream since. -/
theorem RegStream.take_giveBack (r : RegStream) (k o n : Nat) (v : VReg) (h : r.taken - n < r.count) :
    (r.giveBack ⟨k, o, [v], n⟩).take.now = v := by
  simp [RegStream.giveBack, RegStream.take, Nat.not_le.mpr h]

/-- No operand fails its check code where no register does. -/
theorem State.regFail_none {s : State} {w : StrandId} (ht : (s.strand w).fails = []) (hc : (s.core w.core).fails = [])
    (x : Issue) : s.regFail w x = none := by
  simp [State.regFail, ht, hc]

/-- With no result in flight the end of an upcall delivers none, and uses no free value. -/
theorem State.servedResults_empty {s : State} {x : StrandId} (h : (s.strand x).pend = []) : s.servedResults x = s := by
  simp [State.servedResults, h]

end Sys2Proof.Machine
end

