-- ==== Sys2Proof/Laws/MemOps.lean ====
section
/-!
SUPPORT. The shared operations that write memory keep its canonical form (13 R224, R229, 16 R290): one lemma for each.
-/
namespace Sys2Proof.Machine
open Sys2Proof

/-! ### Folds and updates that leave memory alone -/

theorem State.memOk_of_mem {s t : State} (h : s.memOk) (e : t.mem = s.mem) : t.memOk := by
  unfold State.memOk
  rw [e]
  exact h

theorem State.memOk_foldl {β : Type} (l : List β) (f : State → β → State) (hf : ∀ s x, s.memOk → (f s x).memOk) {s : State}
    (h : s.memOk) : (l.foldl f s).memOk := by
  induction l generalizing s with
  | nil => exact h
  | cons x t ih => exact ih (hf s x h)

/-! ### Bytes at their home -/

theorem Memory.read_writes_of_not_mem (ks : List Nat) (m : List Host.Cell) (a : Nat) (b : Byte) (h : a ∉ ks) :
    Memory.read (ks.foldl (fun m k => Memory.write m k b) m) a = Memory.read m a := by
  induction ks generalizing m with
  | nil => rfl
  | cons k t ih =>
    simp only [List.mem_cons, not_or] at h
    rw [List.foldl_cons, ih _ h.2, Memory.read_write_ne _ _ h.1]

theorem Memory.read_writes_of_mem (ks : List Nat) (m : List Host.Cell) (a : Nat) (b : Byte) (h : a ∈ ks) :
    Memory.read (ks.foldl (fun m k => Memory.write m k b) m) a = b := by
  induction ks generalizing m with
  | nil => cases h
  | cons k t ih =>
    rw [List.foldl_cons]
    by_cases ht : a ∈ t
    · exact ih _ ht
    · have hk : a = k := by simpa [ht] using h
      rw [Memory.read_writes_of_not_mem t _ a b ht, hk, Memory.read_write_self]

/-- A write at home puts its byte in every place that keeps it, and leaves every other place. -/
theorem State.homeWrite_read (s : State) (key a : Nat) (b : Byte) :
    Memory.read (s.homeWrite key b).mem a = if a ∈ homeKeys key then b else Memory.read s.mem a := by
  split
  · rename_i h
    exact Memory.read_writes_of_mem _ _ _ _ h
  · rename_i h
    exact Memory.read_writes_of_not_mem _ _ _ _ h

theorem State.homeWrite_memOk {s : State} (key : Nat) (b : Byte) (h : s.memOk) : (s.homeWrite key b).memOk :=
  Memory.wf_foldl _ _ (fun _ k h => Memory.wf_write k b h) _ h

theorem State.homeStore_memOk {s : State} (core key : Nat) (b : Byte) (h : s.memOk) : (s.homeStore core key b).memOk := by
  have hw := State.homeWrite_memOk key b h
  unfold State.homeStore
  split
  · exact hw
  · split
    · exact hw
    · split
      · exact hw
      · split
        · exact hw
        · exact h

theorem State.homePut_memOk {s : State} (core : Nat) (l : Loc) (v n : Nat) (h : s.memOk) : (s.homePut core l v n).memOk := by
  induction n with
  | zero => exact h
  | succ n ih => exact State.homeStore_memOk _ _ _ ih

/-! ### The cluster cache -/

theorem State.lineHome_memOk {s : State} (n : Nat) (l : CacheLine) (h : s.memOk) : (s.lineHome n l).memOk := by
  unfold State.lineHome
  split
  · exact h
  · exact State.memOk_foldl _ _ (fun s o hs => State.homeWrite_memOk _ _ hs) h

theorem State.commitLine_memOk {s : State} (c n : Nat) (h : s.memOk) : (s.commitLine c n).memOk := by
  unfold State.commitLine
  dsimp only
  split
  · exact h
  · split
    · exact h
    · exact State.lineHome_memOk _ _ (State.memOk_of_mem h rfl)

theorem State.evictLine_memOk {s : State} (c n : Nat) (h : s.memOk) : (s.evictLine c n).memOk := by
  unfold State.evictLine
  dsimp only
  split
  · exact h
  · exact State.lineHome_memOk _ _ (State.memOk_of_mem h rfl)

theorem State.makeWay_memOk {s : State} (c n : Nat) (h : s.memOk) : (s.makeWay c n).memOk := by
  unfold State.makeWay
  dsimp only
  split
  · exact h
  · exact State.memOk_of_mem (State.evictLine_memOk _ _ h) rfl

theorem State.onLine_memOk {s : State} (c n : Nat) (rep : Bool) (f : CacheLine → CacheLine) (h : s.memOk) :
    (s.onLine c n rep f).memOk := State.memOk_of_mem (State.makeWay_memOk c n h) rfl

theorem State.readLine_memOk {s : State} (c : Nat) (who : Option Nat) (n : Nat) (rep : Bool) (lo hi : Nat) (h : s.memOk) :
    (s.readLine c who n rep lo hi).memOk := by
  have h1 : State.memOk (if (FMap.getD (s.cluster c).cache n (CacheLine.empty rep)).dirty == 0 ||
      (who.isSome && (FMap.getD (s.cluster c).cache n (CacheLine.empty rep)).writer == who) then s
      else s.evictLine c n) := by
    split
    · exact h
    · exact State.evictLine_memOk _ _ h
  unfold State.readLine
  dsimp only
  generalize (if (FMap.getD (s.cluster c).cache n (CacheLine.empty rep)).dirty == 0 ||
      (who.isSome && (FMap.getD (s.cluster c).cache n (CacheLine.empty rep)).writer == who) then s
      else s.evictLine c n) = u at h1 ⊢
  split
  · exact h1
  · exact State.onLine_memOk _ _ _ _ h1

theorem State.readLines_memOk {s : State} (c : Nat) (who : Option Nat) (a n : Nat) (rep : Bool) (h : s.memOk) :
    (s.readLines c who a n rep).memOk :=
  State.memOk_foldl _ _ (fun _ _ hs => State.readLine_memOk _ _ _ _ _ _ hs) h

theorem State.writeBack_memOk {s : State} (c : Nat) (h : s.memOk) : (s.writeBack c).memOk := by
  unfold State.writeBack
  dsimp only
  split
  · exact State.memOk_foldl _ _ (fun _ e hs => State.lineHome_memOk e.1 e.2 hs) (State.memOk_of_mem h rfl)
  · exact h

theorem State.dropClean_memOk {s : State} (c : Nat) (h : s.memOk) : (s.dropClean c).memOk := by
  unfold State.dropClean
  dsimp only
  split <;> exact h

theorem State.flushLines_memOk {s : State} (c lo hi : Nat) (h : s.memOk) : (s.flushLines c lo hi).memOk := by
  unfold State.flushLines
  dsimp only
  split
  · exact State.memOk_foldl _ _ (fun _ e hs => State.lineHome_memOk e.1 e.2 hs) (State.memOk_of_mem h rfl)
  · exact h

theorem State.toHome_memOk {s : State} (core : Nat) (l : Loc) (n : Nat) (h : s.memOk) : (s.toHome core l n).memOk := by
  unfold State.toHome
  split
  · exact State.flushLines_memOk _ _ _ h
  · exact h

/-! ### Accesses -/

theorem State.plainRead_memOk {s : State} (core : Nat) (who : Option Nat) (l : Loc) (n : Nat) (h : s.memOk) :
    (s.plainRead core who l n).memOk := by
  unfold State.plainRead
  split
  · exact State.readLines_memOk _ _ _ _ _ h
  · exact h

theorem State.plainWrite_memOk {s : State} (core who : Nat) (l : Loc) (k : Nat) (b : Byte) (h : s.memOk) :
    (s.plainWrite core who l k b).memOk := by
  unfold State.plainWrite
  split
  · exact State.onLine_memOk _ _ _ _ h
  · exact State.homeWrite_memOk _ _ h

theorem State.viewRead_memOk {s : State} (w : StrandId) (l : Loc) (n : Nat) (h : s.memOk) : (s.viewRead w l n).memOk := by
  unfold State.viewRead
  split
  · exact h
  · exact State.plainRead_memOk _ _ _ _ h

theorem State.viewPut_memOk {s : State} (w : StrandId) (l : Loc) (k : Nat) (b : Byte) (h : s.memOk) :
    (s.viewPut w l k b).memOk := by
  have hp := State.plainWrite_memOk w.core (StrandId.key w) l k b h
  unfold State.viewPut
  split
  · exact hp
  · split
    · exact hp
    · split
      · exact hp
      · split
        · exact State.homeWrite_memOk _ _ (State.memOk_of_mem h rfl)
        · exact State.memOk_of_mem h rfl

theorem State.keepFetch_memOk {s : State} (w : StrandId) (l : Loc) (k : Nat) (h : s.memOk) : (s.keepFetch w l k).memOk := by
  unfold State.keepFetch
  dsimp only
  split <;> exact h

theorem State.keepFetches_memOk {s : State} (w : StrandId) (l : Loc) (n : Nat) (h : s.memOk) : (s.keepFetches w l n).memOk := by
  induction n with
  | zero => exact h
  | succ n ih => exact State.keepFetch_memOk _ _ _ ih

theorem State.viewWrite_memOk {s : State} (w : StrandId) (l : Loc) (k : Nat) (b : Byte) (h : s.memOk) :
    (s.viewWrite w l k b).memOk := State.viewPut_memOk _ _ _ _ (State.keepFetch_memOk _ _ _ h)

theorem State.viewStore_memOk {s : State} (w : StrandId) (l : Loc) (v n : Nat) (h : s.memOk) : (s.viewStore w l v n).memOk := by
  induction n with
  | zero => exact h
  | succ n ih => exact State.viewWrite_memOk _ _ _ _ ih

theorem State.viewFill_memOk {s : State} (w : StrandId) (l : Loc) (v n : Nat) (h : s.memOk) : (s.viewFill w l v n).memOk := by
  induction n with
  | zero => exact h
  | succ n ih => exact State.viewPut_memOk _ _ _ _ ih

theorem State.storeWords_memOk {s : State} (w : StrandId) (a : Nat) (xs : List Word) (h : s.memOk) :
    (s.storeWords w a xs).memOk := by
  induction xs generalizing s a with
  | nil => exact h
  | cons x xs ih => exact ih _ (State.viewFill_memOk _ _ _ _ h)

theorem State.engineRead_memOk {s : State} (core : Nat) (l : Loc) (n : Nat) (h : s.memOk) : (s.engineRead core l n).memOk := by
  unfold State.engineRead
  split
  · exact h
  · exact State.plainRead_memOk _ _ _ _ h

theorem State.engineWrite_memOk {s : State} (core : Nat) (l : Loc) (k : Nat) (b : Byte) (h : s.memOk) :
    (s.engineWrite core l k b).memOk := by
  unfold State.engineWrite
  split
  · exact State.homeStore_memOk _ _ _ h
  · refine State.homeWrite_memOk _ _ ?_
    split
    · exact State.evictLine_memOk _ _ h
    · exact h

theorem State.enginePut_memOk {s : State} (core : Nat) (l : Loc) (v n : Nat) (h : s.memOk) : (s.enginePut core l v n).memOk := by
  induction n with
  | zero => exact h
  | succ n ih => exact State.engineWrite_memOk _ _ _ _ ih

theorem State.deviceStore_memOk {s : State} (a : Agent) (va : Word) (bs : List Byte) (h : s.memOk) :
    (s.deviceStore a va bs).memOk := by
  refine State.memOk_foldl _ _ (fun s e hs => ?_) h
  split
  · exact State.engineWrite_memOk _ _ _ _ hs
  · exact hs

end Sys2Proof.Machine
end

