-- ==== Sys2Proof/Laws/Scalar.lean ====
section
/-!
SUPPORT. The shared forms of the scalar instructions, said once: what an instruction over each form gives.
-/
namespace Sys2Proof.Machine
open Sys2Proof

/-- An instruction that reads s registers gives s[d] the value of its function. -/
theorem Calm.scalarForm {s : State} (h : Calm s) {i : Instr} {lat : Latency} {sc : BitVec 2} {d : BitVec 4}
    {srcs : List (BitVec 4)} {f : Strand → Word} {v : Word} (he : exec i s = scalarForm lat sc d srcs f s)
    (hv : f (s.strand s.cur) = v) : GivesS s i (plain sc (srcs.map Reg.s)) d v :=
  h.gives (plain_owned ..) he (by rw [← hv]; rfl)

/-- An instruction of major 10 gives f[d] the value of its function. -/
theorem Calm.fpForm {s : State} (h : Calm s) {i : Instr} {lat : Latency} {sc : BitVec 2} {d : BitVec 3}
    {srcs : List Reg} {f : Strand → Word} {v : Word} (he : exec i s = fpForm lat sc d srcs f s)
    (hv : f (s.strand s.cur) = v) : GivesF s i (plain sc srcs) d v :=
  h.gives (plain_owned ..) he (by rw [← hv]; rfl)

/-- A predicate operation gives p[d] its value. -/
theorem Calm.predForm {s : State} (h : Calm s) {i : Instr} {sc : BitVec 2} {d a b : BitVec 3} {f : Pred → Pred → Pred}
    {v : Pred} (he : exec i s = predForm sc d a b f s) (hv : f (s.rp a) (s.rp b) = v) :
    GivesP s i (plain sc [.p a, .p b]) d v :=
  h.gives (plain_owned ..) he (by rw [← hv]; rfl)

/-- The answer to a write that is discarded is the state itself. -/
theorem State.result_discard {s : State} {w : StrandId} {lat : Latency} {n : Nat} {r : Reg} (v mask : VReg)
    (h : Reg.discards r = true) : s.result w lat n r v mask = s := by
  simp [State.result, h]

theorem State.resultS_zero (s : State) (w : StrandId) (lat : Latency) (n : Nat) (x : Word) : s.resultS w lat n 0#4 x = s :=
  State.result_discard _ _ rfl

end Sys2Proof.Machine
end

