-- ==== Sys2Proof/Laws/Vector.lean ====
section
/-!
SUPPORT. The shared forms of the vector instructions, said once: what an instruction over each form gives.
-/
namespace Sys2Proof.Machine
open Sys2Proof

/-- The issue of a vector instruction of a strand that nothing holds back: its governing predicate is the register. -/
theorem Calm.vecIssue {s : State} (h : Calm s) (rd : State → Pred → BitVec 5 → VReg) (sc : BitVec 2) (pg : BitVec 3) (w : Nat)
    (srcs : List Reg) (vs : List (BitVec 5 × Bool)) (d : Option (BitVec 5)) (body : State → Nat → Pred → Res) :
    vecIssueOf rd sc pg w srcs vs d body s =
      s.issue ⟨sc, .p pg :: srcs, vs, d, (activeList (s.rp pg) w).isEmpty, [], fun s1 => rd s1 ((s1.strand s1.cur).getP pg)⟩
        fun s1 n => body s1 n ((s1.strand s1.cur).getP pg) := by
  rw [Machine.vecIssueOf, h.peekP]

/-- Which bytes of its vector sources an instruction reads is no part of what it gives. -/
theorem Gives.bytes {s : State} {i : Instr} {x : Issue} {r : Reg} {v mask : VReg} (h : Gives s i x r v mask)
    (f : State → BitVec 5 → VReg) : Gives s i { x with bytes := f } r v mask := by
  cases x
  exact h

/-- A vector instruction gives its register a value: its body ends in one result. Which bytes of a source it reads shows
only under chk, while a result is on its way (02 R44), which is none here. -/
theorem Calm.vecGives {s : State} (h : Calm s) {i : Instr} {rd : State → Pred → BitVec 5 → VReg} {sc : BitVec 2} {pg : BitVec 3} {w : Nat} {srcs : List Reg}
    {vs : List (BitVec 5 × Bool)} {d : Option (BitVec 5)} {body : State → Nat → Pred → Res} {r : Reg} {v mask : VReg}
    {lat : Latency} (he : exec i s = Machine.vecIssueOf rd sc pg w srcs vs d body s)
    (ho : (d.toList ++ vs.map (·.1)).all (s.owns s.cur) = true)
    (hb : ∀ n, body s n (s.rp pg) = .done (s.result s.cur lat n r v mask)) :
    Gives s i ⟨sc, .p pg :: srcs, vs, d, (activeList (s.rp pg) w).isEmpty, [], wholly⟩ r v mask := by
  rw [h.vecIssue] at he
  exact (h.gives (by simpa [Issue.vregs] using ho) he (hb _)).bytes wholly

/-- d := f a b where elements are active. -/
theorem Calm.whole2 {s : State} (h : Calm s) {i : Instr} {lat w : Nat} {o : V2} {f : VReg → VReg → VReg} {v : VReg}
    (he : exec i s = Machine.whole2 lat o w f s) (ho : Owned s [o.d, o.a, o.b]) (hv : f (s.rv o.a) (s.rv o.b) = v) :
    Gives s i ⟨o.sc, [.p o.p], [(o.a, holdOf o.ha), (o.b, holdOf o.hb)], some o.d, (activeList (s.rp o.p) w).isEmpty, [], wholly⟩
      (.v o.d) v (activeMask (s.rp o.p) w) := by
  unfold Machine.whole2 Machine.vecIssue at he
  exact h.vecGives (lat := .fixed lat) he ho.all fun n => by
    rw [← hv]
    simp only [h.srcV_eq, State.vecResult]

/-- d := f a where elements are active. -/
theorem Calm.whole1 {s : State} (h : Calm s) {i : Instr} {lat w : Nat} {o : V1} {f : VReg → Pred → VReg} {v : VReg}
    (he : exec i s = Machine.whole1 lat o w f s) (ho : Owned s [o.d, o.a]) (hv : f (s.rv o.a) (s.rp o.p) = v) :
    Gives s i ⟨o.sc, [.p o.p], [(o.a, holdOf o.ha)], some o.d, (activeList (s.rp o.p) w).isEmpty, [], wholly⟩
      (.v o.d) v (activeMask (s.rp o.p) w) := by
  unfold Machine.whole1 Machine.vecIssue at he
  exact h.vecGives (lat := .fixed lat) he ho.all fun n => by
    rw [← hv]
    simp only [h.srcV_eq, State.vecResult]

/-- A reduction gives its register its value with zeros behind. -/
theorem Calm.redForm {s : State} (h : Calm s) {i : Instr} {o : V1} {dflt : Ty} {f : Ty → Rm → List Nat → Nat} {v : Nat}
    (he : exec i s = Machine.redForm o dflt f s) (ho : Owned s [o.d, o.a])
    (hv : f (typeOf o.pre dflt) s.mode
      ((activeList (s.rp o.p) (typeOf o.pre dflt).width).map (elem (s.rv o.a) (typeOf o.pre dflt).width)) = v) :
    Gives s i ⟨o.sc, [.p o.p], [(o.a, holdOf o.ha)], some o.d,
      (activeList (s.rp o.p) (typeOf o.pre dflt).width).isEmpty, [], wholly⟩ (.v o.d) (BitVec.ofNat 2048 v) fullMask := by
  unfold Machine.redForm at he
  exact h.vecGives (lat := .fixed 4) he ho.all fun n => by
    rw [← hv]
    simp only [h.srcV_eq]

/-- A compare gives its predicate. -/
theorem Calm.cmpForm {s : State} (h : Calm s) {i : Instr} {o : VC} {dflt : Ty} {f : Ty → Nat → Nat → Bool} {v : Pred}
    (he : exec i s = Machine.cmpForm o dflt f s) (ho : Owned s [o.a, o.b])
    (hv : predOf (typeOf o.pre dflt).width (fun k => active (s.rp o.p) (typeOf o.pre dflt).width k &&
      f (typeOf o.pre dflt) (elem (s.rv o.a) (typeOf o.pre dflt).width k) (elem (s.rv o.b) (typeOf o.pre dflt).width k)) = v) :
    GivesP s i ⟨o.sc, [.p o.p], [(o.a, holdOf o.ha), (o.b, holdOf o.hb)], none,
      (activeList (s.rp o.p) (typeOf o.pre dflt).width).isEmpty, [], wholly⟩ o.d v := by
  unfold Machine.cmpForm at he
  exact h.vecGives (lat := .fixed 2) he ho.all fun n => by
    rw [← hv]
    simp only [h.srcV_eq]
    all_goals rfl

/-- A conversion gives its register its elements. -/
theorem Calm.convForm {s : State} (h : Calm s) {i : Instr} {o : VP} {src dst : Ty} {f : Rm → Nat → Nat} {v : VReg}
    (he : exec i s = Machine.convForm o src dst f s) (ho : Owned s [o.d, o.a])
    (hv : (ofElems dst.width fun k =>
      match convSource src.width dst.width o.part.toNat k with
      | some j => f s.mode (elem (s.rv o.a) src.width j)
      | none => 0) = v) :
    Gives s i ⟨o.sc, [.p o.p], [(o.a, holdOf o.ha)], some o.d, (activeList (s.rp o.p) dst.width).isEmpty, [], wholly⟩ (.v o.d) v
      (convMask src.width dst.width o.part.toNat (s.rp o.p)) := by
  unfold Machine.convForm at he
  exact h.vecGives (lat := .fixed 3) he ho.all fun n => by
    rw [← hv]
    simp only [h.srcV_eq]
    all_goals rfl

/-- A two-source form at the width of its type. -/
theorem Calm.elem2 {s : State} (h : Calm s) {i : Instr} {lat : Nat} {o : V2} {f : Ty → Nat → Nat → Nat}
    (he : exec i s = Machine.elem2 lat o f s) (ho : Owned s [o.d, o.a, o.b]) :
    Gives s i ⟨o.sc, [.p o.p], [(o.a, holdOf o.ha), (o.b, holdOf o.hb)], some o.d,
        (activeList (s.rp o.p) (typeOf o.pre .i32).width).isEmpty, [], wholly⟩ (.v o.d)
      (ofElems (typeOf o.pre .i32).width fun k => f (typeOf o.pre .i32) (elem (s.rv o.a) (typeOf o.pre .i32).width k)
        (elem (s.rv o.b) (typeOf o.pre .i32).width k)) (activeMask (s.rp o.p) (typeOf o.pre .i32).width) := by
  unfold Machine.elem2 at he
  exact h.whole2 he ho rfl

/-- A permute of two sources. -/
theorem Calm.perm2 {s : State} (h : Calm s) {i : Instr} {o : V2} {idx : Bool} {f : Nat → (Nat → Nat) → Nat → Pick}
    (he : exec i s = Machine.perm2 o idx f s) (ho : Owned s [o.d, o.a, o.b]) :
    Gives s i ⟨o.sc, [.p o.p], [(o.a, holdOf o.ha), (o.b, holdOf o.hb)], some o.d,
        (activeList (s.rp o.p) (typeOf o.pre .i32).width).isEmpty, [], wholly⟩ (.v o.d)
      (ofElems (typeOf o.pre .i32).width fun k =>
        match f (256 / (typeOf o.pre .i32).width) (elem (s.rv o.b) (typeOf o.pre .i32).width) k with
        | .a j => elem (s.rv o.a) (typeOf o.pre .i32).width j
        | .b j => elem (s.rv o.b) (typeOf o.pre .i32).width j
        | .zero => 0) (activeMask (s.rp o.p) (typeOf o.pre .i32).width) := by
  unfold Machine.perm2 at he
  exact h.vecGives (lat := .fixed 2) he ho.all fun n => by
    simp only [h.srcV_eq, State.vecResult]
    all_goals rfl

/-- A permute of one source. -/
theorem Calm.perm1 {s : State} (h : Calm s) {i : Instr} {o : V1} {f : Nat → Nat → Nat}
    (he : exec i s = Machine.perm1 o f s) (ho : Owned s [o.d, o.a]) :
    Gives s i ⟨o.sc, [.p o.p], [(o.a, holdOf o.ha)], some o.d,
        (activeList (s.rp o.p) (typeOf o.pre .i32).width).isEmpty, [], wholly⟩ (.v o.d)
      (ofElems (typeOf o.pre .i32).width fun k =>
        elem (s.rv o.a) (typeOf o.pre .i32).width (f (256 / (typeOf o.pre .i32).width) k))
      (activeMask (s.rp o.p) (typeOf o.pre .i32).width) := by
  unfold Machine.perm1 at he
  exact h.vecGives (lat := .fixed 2) he ho.all fun n => by
    simp only [h.srcV_eq, State.vecResult]

/-- A form with a scalar operand. -/
theorem Calm.scal {s : State} (h : Calm s) {i : Instr} {o : VXS} {f : Ty → Nat → Nat → Nat}
    (he : exec i s = Machine.scal o f s) (ho : Owned s [o.d, o.a]) :
    Gives s i ⟨o.sc, [.p o.p, .s o.s], [(o.a, holdOf o.ha)], some o.d,
        (activeList (s.rp o.p) (typeOf o.pre .i32).width).isEmpty, [], wholly⟩ (.v o.d)
      (ofElems (typeOf o.pre .i32).width fun k => f (typeOf o.pre .i32) (elem (s.rv o.a) (typeOf o.pre .i32).width k)
        ((s.rs o.s).toNat % 2 ^ (8 * (typeOf o.pre .i32).width)))
      (activeMask (s.rp o.p) (typeOf o.pre .i32).width) := by
  unfold Machine.scal at he
  refine h.vecGives (lat := .fixed 3) he ho.all fun n => ?_
  simp only [h.srcV_eq]
  all_goals rfl

/-- A form with a scalar operand and no vector source. -/
theorem Calm.indexForm {s : State} (h : Calm s) {i : Instr} {o : VSD} {f : Nat → Nat → Nat}
    (he : exec i s = Machine.indexForm o f s) (ho : Owned s [o.d]) :
    Gives s i ⟨o.sc, [.p o.p, .s o.s], [], some o.d, (activeList (s.rp o.p) (typeOf o.pre .i32).width).isEmpty, [], wholly⟩ (.v o.d)
      (ofElems (typeOf o.pre .i32).width (f (s.rs o.s).toNat)) (activeMask (s.rp o.p) (typeOf o.pre .i32).width) := by
  unfold Machine.indexForm at he
  exact h.vecGives (lat := .fixed 3) he ho.all fun n => rfl

/-- A floating form with a scalar operand. -/
theorem Calm.scalF {s : State} (h : Calm s) {i : Instr} {o : VXF} {b : Bool} {f : Fmt → Rm → FVal → FVal → FVal → Nat}
    (he : exec i s = Machine.scalF o b f s) (ho : Owned s [o.d, o.a]) :
    Gives s i ⟨o.sc, [.p o.p, .f o.s], (o.a, holdOf o.ha) :: (if b then [(o.d, false)] else []), some o.d,
        (activeList (s.rp o.p) (typeOf o.pre .f32).width).isEmpty, [], wholly⟩ (.v o.d)
      (ofElems (typeOf o.pre .f32).width fun k => f (Fmt.ofTy (typeOf o.pre .f32)) s.mode
        ((Fmt.ofTy (typeOf o.pre .f32)).decode (elem (s.rv o.a) (typeOf o.pre .f32).width k))
        ((Fmt.ofTy (typeOf o.pre .f32)).decode ((s.rf o.s).toNat % 2 ^ (8 * (typeOf o.pre .f32).width)))
        ((Fmt.ofTy (typeOf o.pre .f32)).decode (elem (if b then s.rv o.d else 0) (typeOf o.pre .f32).width k)))
      (activeMask (s.rp o.p) (typeOf o.pre .f32).width) := by
  unfold Machine.scalF at he
  refine h.vecGives (lat := .fixed 3) he ?_ fun n => ?_
  · rw [List.all_eq_true]
    intro v hv
    refine ho v ?_
    cases b <;> simp_all
    tauto
  · simp only [h.srcV_eq]
    all_goals rfl

/-- A floating vector form. -/
theorem Calm.vfForm {s : State} (h : Calm s) {i : Instr} {lat : Nat} {o : VF3} {b : Bool}
    {f : Fmt → Rm → Bool → Bool → FVal → FVal → FVal → Nat} (he : exec i s = Machine.vfForm lat o b f s)
    (ho : Owned s [o.d, o.a, o.b]) :
    Gives s i ⟨o.sc, [.p o.p], [(o.a, holdOf o.ha), (o.b, holdOf o.hb)] ++ (if b then [(o.d, false)] else []), some o.d,
        (activeList (s.rp o.p) (typeOf o.pre .f32).width).isEmpty, [], wholly⟩ (.v o.d)
      (ofElems (typeOf o.pre .f32).width fun k => f (Fmt.ofTy (typeOf o.pre .f32)) s.mode (o.zi == 1#1) (o.zo == 1#1)
        ((Fmt.ofTy (typeOf o.pre .f32)).decode (elem (s.rv o.a) (typeOf o.pre .f32).width k))
        ((Fmt.ofTy (typeOf o.pre .f32)).decode (elem (s.rv o.b) (typeOf o.pre .f32).width k))
        ((Fmt.ofTy (typeOf o.pre .f32)).decode (elem (if b then s.rv o.d else 0) (typeOf o.pre .f32).width k)))
      (activeMask (s.rp o.p) (typeOf o.pre .f32).width) := by
  unfold Machine.vfForm at he
  refine h.vecGives (lat := .fixed lat) he ?_ fun n => ?_
  · rw [List.all_eq_true]
    intro v hv
    refine ho v ?_
    cases b <;> simp_all
    tauto
  · simp only [h.srcV_eq]
    all_goals rfl

end Sys2Proof.Machine
end

