-- ==== Sys2Proof/Tests/Slice0.lean ====
section
/-!
SUPPORT. The author's own tests: each check of well-formedness refuses an ill-formed instruction, words of the encoding tables
decode to what they stand for, the hypotheses of the statements can be met, and single steps give what the specification prints.
-/
namespace Sys2Proof.Tests
open Sys2Proof Sys2Proof.Machine
set_option Elab.async false

/-! ### Words of the encoding tables -/

/-- Every word of a list decodes to its instruction: bits, word, instruction. The words are the match words of spec/opcode_table.json with
operand values in the fields that the table names. -/
noncomputable def decodes (l : List (Nat × Nat × Instr)) : Bool := l.all fun e => decodeTableWord e.1 e.2.1 == some e.2.2

theorem test_decode_major0_a : decodes
  [(32, 0x0008A8C1, .add ⟨8, 10, 8, 3⟩),
   (32, 0x0014AA41, .sub ⟨10, 10, 4, 1⟩),
   (32, 0x002C8A41, .and ⟨10, 8, 12, 1⟩),
   (32, 0x00368241, .or ⟨2, 8, 6, 1⟩),
   (32, 0x004CA201, .xor ⟨2, 10, 12, 0⟩),
   (32, 0x00588A41, .sll ⟨10, 8, 8, 1⟩),
   (32, 0x006A2A01, .srl ⟨10, 2, 10, 0⟩),
   (32, 0x00742241, .sra ⟨2, 2, 4, 1⟩),
   (32, 0x00882A81, .slt ⟨10, 2, 8, 2⟩),
   (32, 0x0094A841, .sltw ⟨8, 10, 4, 1⟩),
   (32, 0x00A86C01, .seq ⟨12, 6, 8, 0⟩),
   (32, 0x00B82C81, .sne ⟨12, 2, 8, 2⟩)] = true := by decide +kernel

theorem test_decode_major0_b : decodes
  [(32, 0x00C2A881, .min ⟨8, 10, 2, 2⟩),
   (32, 0x00DA4681, .max ⟨6, 4, 10, 2⟩),
   (32, 0x00EA2201, .minw ⟨2, 2, 10, 0⟩),
   (32, 0x00F628C1, .maxw ⟨8, 2, 6, 3⟩),
   (32, 0x010C2201, .mul ⟨2, 2, 12, 0⟩),
   (32, 0x011244C1, .mulh ⟨4, 4, 2, 3⟩),
   (32, 0x0128C8C1, .mulhw ⟨8, 12, 8, 3⟩),
   (32, 0x013CA241, .div ⟨2, 10, 12, 1⟩),
   (32, 0x01466C01, .divw ⟨12, 6, 6, 0⟩),
   (32, 0x015266C1, .rem ⟨6, 6, 2, 3⟩),
   (32, 0x01644201, .remw ⟨2, 4, 4, 0⟩),
   (32, 0x017822C1, .adds ⟨2, 2, 8, 3⟩)] = true := by decide +kernel

theorem test_decode_major0_c : decodes
  [(32, 0x018AC441, .subs ⟨4, 12, 10, 1⟩),
   (32, 0x0194A841, .addsw ⟨8, 10, 4, 1⟩),
   (32, 0x01A8C801, .subsw ⟨8, 12, 8, 0⟩),
   (32, 0x01B48801, .add32 ⟨8, 8, 4, 0⟩),
   (32, 0x01C6A601, .sub32 ⟨6, 10, 6, 0⟩),
   (32, 0x01D84401, .sll32 ⟨4, 4, 8, 0⟩),
   (32, 0x01E442C1, .srl32 ⟨2, 4, 4, 3⟩),
   (32, 0x01FA2681, .sra32 ⟨6, 2, 10, 2⟩),
   (32, 0x02028601, .mul32 ⟨6, 8, 2, 0⟩),
   (32, 0x02104241, .clz ⟨2, 4, 1⟩),
   (32, 0x0220A281, .ctz ⟨2, 10, 2⟩),
   (32, 0x0230A6C1, .popc ⟨6, 10, 3⟩)] = true := by decide +kernel

theorem test_decode_major0_d : decodes
  [(32, 0x0248A441, .rol ⟨4, 10, 8, 1⟩),
   (32, 0x025C4841, .ror ⟨8, 4, 12, 1⟩)] = true := by decide +kernel

theorem test_decode_major1_a : decodes
  [(32, 0xBFD04643, .addi ⟨6, 4, 3069, 1⟩),
   (32, 0xB251C4C3, .andi ⟨4, 12, 2853, 3⟩),
   (32, 0x9412A8C3, .ori ⟨8, 10, 2369, 3⟩),
   (32, 0x9BE32203, .xori ⟨2, 2, 2494, 0⟩),
   (32, 0x01E46AC3, .slli ⟨10, 6, 30, 3⟩),
   (32, 0x03E58683, .srli ⟨6, 8, 62, 2⟩),
   (32, 0x00864A43, .srai ⟨10, 4, 8, 1⟩),
   (32, 0x92F78483, .slti ⟨4, 8, 2351, 2⟩),
   (32, 0x84384403, .sltwi ⟨4, 4, 2115, 0⟩),
   (32, 0xF2198643, .seqi ⟨6, 8, 3873, 1⟩),
   (32, 0xAD1A2283, .addi32 ⟨2, 2, 2769, 2⟩),
   (32, 0x008BA603, .slli32 ⟨6, 10, 8, 0⟩)] = true := by decide +kernel

theorem test_decode_major1_b : decodes
  [(32, 0x01CC4683, .srli32 ⟨6, 4, 28, 2⟩),
   (32, 0x008DCC03, .srai32 ⟨12, 12, 8, 0⟩)] = true := by decide +kernel

theorem test_decode_major2 : decodes
  [(32, 0xF98C0285, .lhi ⟨2, 511072, 2⟩),
   (32, 0xCFD27C05, .pchi ⟨12, 425619, 0⟩)] = true := by decide +kernel

theorem test_decode_major3 : decodes
  [(32, 0xFB70A207, .beq ⟨2, 10, 0, 4023, 0⟩),
   (32, 0xA2F96C07, .bne ⟨12, 6, 1, 2607, 0⟩),
   (32, 0x8B6A8247, .blt ⟨2, 8, 1, 2230, 1⟩),
   (32, 0xF9236607, .bge ⟨6, 6, 0, 3986, 0⟩),
   (32, 0x83BC28C7, .bltw ⟨8, 2, 1, 2107, 3⟩),
   (32, 0x9275A807, .bgew ⟨8, 10, 0, 2343, 0⟩),
   (32, 0xC1D6C2C7, .banz ⟨2, 12, 0, 3101, 3⟩),
   (32, 0xF52F6CC7, .baz ⟨12, 6, 1, 3922, 3⟩)] = true := by decide +kernel

theorem test_decode_major4 : decodes
  [(32, 0x9572C809, .jl ⟨8, 612140, 0⟩)] = true := by decide +kernel

theorem test_decode_major5 : decodes
  [(32, 0x9670A6CB, .jlr ⟨6, 10, 2407, 3⟩),
   (32, 0x9CE142CB, .jlrCall ⟨2, 4, 2510, 3⟩),
   (32, 0xFC72CA8B, .jlrRet ⟨10, 12, 4039, 2⟩)] = true := by decide +kernel

theorem test_decode_major6 : decodes
  [(32, 0xCD10624D, .ldI8 ⟨2, 6, 3281, 1⟩),
   (32, 0xB3D1AC4D, .ldI16 ⟨12, 10, 2877, 1⟩),
   (32, 0xF122C6CD, .ldI32 ⟨6, 12, 3858, 3⟩),
   (32, 0xE793648D, .ldI64 ⟨4, 6, 3705, 2⟩),
   (32, 0xEE44C44D, .ldW8 ⟨4, 12, 3812, 1⟩),
   (32, 0xB835848D, .ldW16 ⟨4, 8, 2947, 2⟩),
   (32, 0xA27644CD, .ldW32 ⟨4, 4, 2599, 3⟩),
   (32, 0x9067258D, .fldF32 ⟨5, 2, 2310, 2⟩),
   (32, 0xF35822CD, .fldH16 ⟨2, 2, 3893, 3⟩),
   (32, 0xE9F944CD, .fldBf16 ⟨4, 4, 3743, 3⟩),
   (32, 0xD0BAC7CD, .fld64 ⟨7, 12, 3339, 3⟩)] = true := by decide +kernel

theorem test_decode_major7 : decodes
  [(32, 0x8800268F, .st8 ⟨6, 2, 2176, 2⟩),
   (32, 0xC7F12A8F, .st16 ⟨10, 2, 3199, 2⟩),
   (32, 0x84E2C64F, .st32 ⟨6, 12, 2126, 1⟩),
   (32, 0xB093880F, .st64 ⟨8, 8, 2825, 0⟩),
   (32, 0xA414440F, .fst32 ⟨4, 4, 2625, 0⟩),
   (32, 0x9BE5818F, .fst16 ⟨1, 8, 2494, 2⟩),
   (32, 0xB2B6C14F, .fst64 ⟨1, 12, 2859, 1⟩)] = true := by decide +kernel

theorem test_decode_major8 : decodes
  [(32, 0xE0046811, .amadd ⟨8, 6, 4, 0, 3, 4, 0⟩),
   (32, 0x5A164451, .amand ⟨4, 4, 6, 1, 1, 3, 1⟩),
   (32, 0x5A2C82D1, .amor ⟨2, 8, 12, 1, 1, 3, 3⟩),
   (32, 0x9A32C491, .amxor ⟨4, 12, 2, 1, 2, 3, 2⟩),
   (32, 0x48424CD1, .ammin ⟨12, 4, 2, 0, 1, 1, 3⟩),
   (32, 0xAA5A6211, .ammax ⟨2, 6, 10, 1, 2, 5, 0⟩),
   (32, 0xD062A6D1, .amminw ⟨6, 10, 2, 0, 3, 2, 3⟩),
   (32, 0x18728611, .ammaxw ⟨6, 8, 2, 0, 0, 3, 0⟩),
   (32, 0xC886A4D1, .amswap ⟨4, 10, 6, 0, 3, 1, 3⟩),
   (32, 0x589CA891, .amcas ⟨8, 10, 12, 0, 1, 3, 2⟩),
   (32, 0x50A0ACD1, .ldo ⟨12, 10, 0, 1, 2, 3⟩),
   (32, 0xA2B4A091, .sto ⟨10, 4, 1, 2, 4, 2⟩)] = true := by decide +kernel

theorem test_decode_major9 : decodes
  [(32, 0x70400053, .fence ⟨4, 7, 1⟩),
   (32, 0x010000D3, .ifence ⟨3⟩)] = true := by decide +kernel

theorem test_decode_major10_a : decodes
  [(32, 0x00060115, .fadd ⟨1, 0, 6, 0, 0⟩),
   (32, 0x00171655, .fsub ⟨6, 1, 7, 0, 1⟩),
   (32, 0x04267195, .fmul ⟨1, 7, 6, 1, 2⟩),
   (32, 0x00377395, .fdiv ⟨3, 7, 7, 0, 2⟩),
   (32, 0x08407695, .fsqrt ⟨6, 7, 2, 2⟩),
   (32, 0x08563115, .fmin ⟨1, 3, 6, 2, 0⟩),
   (32, 0x00602455, .fmax ⟨4, 2, 0, 0, 1⟩),
   (32, 0x08703295, .fma ⟨2, 3, 0, 2, 2⟩),
   (32, 0x008055D5, .fneg ⟨5, 5, 0, 3⟩),
   (32, 0x08907115, .fabs ⟨1, 7, 2, 0⟩),
   (32, 0x08A34AD5, .fceq ⟨10, 4, 3, 2, 3⟩),
   (32, 0x08B66255, .fclt ⟨2, 6, 6, 2, 1⟩)] = true := by decide +kernel

theorem test_decode_major10_b : decodes
  [(32, 0x08C33A55, .fcle ⟨10, 3, 3, 2, 1⟩),
   (32, 0x90D02A95, .fcvti ⟨10, 2, 0, 1, 0, 1, 2⟩),
   (32, 0x00E04355, .fcvtf ⟨3, 4, 0, 0, 0, 1⟩),
   (32, 0x14F01215, .fcvt ⟨2, 1, 1, 1, 0⟩),
   (32, 0x01006855, .fmvs ⟨8, 6, 1⟩),
   (32, 0x01108315, .fmvf ⟨3, 8, 0⟩)] = true := by decide +kernel

theorem test_decode_major11_a : decodes
  [(32, 0x0297BA97, .vadd ⟨none, 1, 0, 18, 1, 29, 26, 2⟩),
   (32, 0x138322D7, .vsub ⟨none, 1, 1, 16, 0, 25, 2, 3⟩),
   (32, 0x220C8657, .vmul ⟨none, 1, 0, 1, 1, 4, 6, 1⟩),
   (32, 0x32293D17, .vmulh ⟨none, 1, 0, 5, 0, 9, 29, 0⟩),
   (32, 0x40F45817, .vmin ⟨none, 0, 0, 30, 1, 2, 24, 0⟩),
   (32, 0x5B760BD7, .vmax ⟨none, 5, 1, 14, 1, 16, 11, 3⟩),
   (32, 0x67036657, .vand ⟨none, 3, 1, 0, 0, 27, 6, 1⟩),
   (32, 0x7D5D9D57, .vor ⟨none, 6, 1, 11, 1, 12, 29, 1⟩),
   (32, 0x84815C17, .vxor ⟨none, 2, 0, 16, 0, 10, 28, 0⟩),
   (32, 0x9C873897, .vsll ⟨none, 6, 0, 16, 1, 25, 24, 2⟩),
   (32, 0xA8BB5DD7, .vsrl ⟨none, 4, 0, 23, 0, 26, 29, 3⟩),
   (32, 0xB5E70D57, .vsra ⟨none, 2, 1, 28, 1, 24, 13, 1⟩)] = true := by decide +kernel

theorem test_decode_major11_b : decodes
  [(32, 0xCCB85997, .vadds ⟨none, 6, 0, 23, 0, 2, 25, 2⟩),
   (32, 0xD91B8B17, .vsubs ⟨none, 4, 1, 3, 0, 28, 11, 0⟩),
   (32, 0xE607DE97, .vabs ⟨none, 3, 1, 30, 30, 2⟩),
   (32, 0xFAAE4517, .vandn ⟨none, 5, 0, 21, 1, 18, 5, 0⟩)] = true := by decide +kernel

theorem test_decode_major12 : decodes
  [(32, 0xC6C64019, .vfadd ⟨none, 1, 1, 3, 0, 24, 1, 18, 0, 0⟩),
   (32, 0x196306D9, .vfsub ⟨none, 0, 0, 4, 1, 12, 0, 24, 6, 3⟩),
   (32, 0x294631D9, .vfmul ⟨none, 0, 0, 4, 1, 8, 1, 17, 17, 3⟩),
   (32, 0x72ACFD59, .vfmin ⟨none, 0, 1, 1, 0, 21, 1, 7, 29, 1⟩),
   (32, 0xF53AADD9, .vfmax ⟨none, 1, 1, 2, 1, 7, 0, 21, 13, 3⟩)] = true := by decide +kernel

theorem test_decode_major13 : decodes
  [(32, 0xCD5DF49B, .vfma ⟨none, 1, 1, 6, 1, 11, 1, 15, 20, 2⟩),
   (32, 0xD0C2415B, .vfms ⟨none, 1, 1, 0, 0, 24, 0, 18, 1, 1⟩),
   (32, 0xE1BC329B, .vfnma ⟨none, 1, 1, 0, 1, 23, 1, 1, 18, 2⟩),
   (32, 0x3D40301B, .vfnms ⟨none, 0, 0, 6, 1, 8, 0, 1, 16, 0⟩)] = true := by decide +kernel

theorem test_decode_major15_a : decodes
  [(32, 0x0E03DA5F, .vmv ⟨none, 7, 0, 30, 26, 1⟩),
   (32, 0x129DC35F, .vperm ⟨none, 1, 0, 19, 1, 14, 3, 1⟩),
   (32, 0x21806BDF, .vzipl ⟨none, 0, 1, 16, 0, 3, 11, 3⟩),
   (32, 0x357692DF, .vziph ⟨none, 2, 1, 14, 1, 20, 18, 3⟩),
   (32, 0x4AF6E45F, .vunze ⟨none, 5, 0, 30, 1, 23, 4, 1⟩),
   (32, 0x5E87309F, .vunzo ⟨none, 7, 0, 16, 1, 25, 16, 2⟩),
   (32, 0x699A885F, .vslu ⟨none, 4, 1, 19, 0, 20, 8, 1⟩),
   (32, 0x7683951F, .vsld ⟨none, 3, 0, 16, 0, 28, 21, 0⟩),
   (32, 0x800108DF, .vbcast ⟨none, 0, 0, 8, 8, 3⟩),
   (32, 0x9000679F, .vrev ⟨none, 0, 0, 3, 7, 2⟩),
   (32, 0xA2EA279F, .vtrnl ⟨none, 1, 0, 29, 0, 17, 7, 2⟩),
   (32, 0xBF594ADF, .vtrnh ⟨none, 7, 1, 11, 0, 10, 10, 3⟩)] = true := by decide +kernel

theorem test_decode_major15_b : decodes
  [(32, 0xC40323DF, .vcompress ⟨none, 2, 0, 25, 3, 3⟩),
   (32, 0xD605B79F, .vexpand ⟨none, 3, 1, 13, 23, 2⟩)] = true := by decide +kernel

theorem test_decode_major16 : decodes
  [(32, 0x0C0164A1, .vrsum ⟨none, 6, 0, 11, 4, 2⟩),
   (32, 0x1801B4A1, .vrfsum ⟨none, 4, 0, 13, 20, 2⟩),
   (32, 0x22078A21, .vrmin ⟨none, 1, 1, 28, 10, 0⟩),
   (32, 0x320652E1, .vrmax ⟨none, 1, 1, 18, 18, 3⟩),
   (32, 0x4E075821, .vrfmin ⟨none, 7, 1, 26, 24, 0⟩),
   (32, 0x5204DD21, .vrfmax ⟨none, 1, 1, 6, 29, 0⟩),
   (32, 0x6806F8A1, .vrand ⟨none, 4, 1, 23, 24, 2⟩),
   (32, 0x7800EBA1, .vrior ⟨none, 4, 0, 7, 11, 2⟩),
   (32, 0x8A0156E1, .vrxor ⟨none, 5, 0, 10, 22, 3⟩)] = true := by decide +kernel

theorem test_decode_major17 : decodes
  [(32, 0x024010A3, .vld ⟨none, 4, 8, 16, 2⟩),
   (32, 0x07B18063, .vst ⟨none, 7, 6, 0, 12, 1⟩),
   (32, 0x08B40BE3, .vldx ⟨none, 1, 6, 1, 0, 11, 3⟩),
   (32, 0x0F272C63, .vstx ⟨none, 6, 4, 1, 25, 12, 1⟩),
   (32, 0x112002E3, .vldb ⟨none, 2, 4, 2, 3⟩),
   (32, 0x16100723, .vldh ⟨none, 4, 2, 7, 0⟩),
   (32, 0x1957C023, .vsth ⟨none, 2, 10, 1, 30, 0⟩),
   (32, 0x1C600623, .pld ⟨none, 12, 6, 0⟩),
   (32, 0x20508023, .pst ⟨none, 10, 4, 0⟩)] = true := by decide +kernel

theorem test_decode_major18_a : decodes
  [(32, 0x0296E3A5, .vaddx ⟨none, 5, 2, 1, 23, 3, 2⟩),
   (32, 0x049077E5, .vsubx ⟨none, 1, 2, 0, 3, 23, 3⟩),
   (32, 0x09E1F8A5, .vmulx ⟨none, 3, 12, 0, 15, 24, 2⟩),
   (32, 0x0FB559A5, .vfaddx ⟨none, 7, 6, 1, 10, 25, 2⟩),
   (32, 0x113E3925, .vfmulx ⟨none, 2, 7, 1, 17, 25, 0⟩),
   (32, 0x143760E5, .vfmacx ⟨none, 0, 6, 1, 27, 0, 3⟩),
   (32, 0x18C01E25, .vsplat ⟨none, 1, 8, 30, 0⟩),
   (32, 0x1E801925, .vfsplat ⟨none, 5, 0, 25, 0⟩),
   (32, 0x23401D65, .vins ⟨none, 6, 8, 29, 1⟩),
   (32, 0x242280E5, .vext ⟨none, 4, 0, 20, 3⟩),
   (32, 0x29318DA5, .vweir ⟨none, 2, 6, 0, 12, 13, 2⟩),
   (32, 0x2E153725, .vsllx ⟨none, 4, 2, 1, 9, 23, 0⟩)] = true := by decide +kernel

theorem test_decode_major18_b : decodes
  [(32, 0x32631D65, .vsrlx ⟨none, 4, 12, 0, 24, 29, 1⟩),
   (32, 0x34424F25, .vsrax ⟨none, 0, 8, 0, 18, 15, 0⟩),
   (32, 0x3A900665, .viota ⟨none, 5, 2, 6, 1⟩)] = true := by decide +kernel

theorem test_decode_major19_a : decodes
  [(32, 0x0A926767, .vceq ⟨none, 5, 0, 18, 0, 19, 7, 1⟩),
   (32, 0x1EE582A7, .vcne ⟨none, 7, 0, 28, 1, 12, 2, 2⟩),
   (32, 0x2F7FA527, .vclt ⟨none, 7, 1, 15, 1, 29, 5, 0⟩),
   (32, 0x3E60C2E7, .vcle ⟨none, 7, 0, 12, 0, 6, 2, 3⟩),
   (32, 0x48AB80E7, .vfceq ⟨none, 4, 0, 21, 0, 28, 0, 3⟩),
   (32, 0x5BCAC667, .vfclt ⟨none, 5, 1, 25, 0, 22, 6, 1⟩),
   (32, 0x6CC48467, .vfcle ⟨none, 6, 0, 24, 1, 4, 4, 1⟩),
   (32, 0x78200367, .vfcun ⟨none, 4, 0, 4, 0, 0, 3, 1⟩),
   (32, 0x801025A7, .pand ⟨none, 2, 1, 5, 2⟩),
   (32, 0x9008E727, .por ⟨none, 1, 7, 7, 0⟩),
   (32, 0xA02003E7, .pxor ⟨none, 4, 0, 3, 3⟩),
   (32, 0xB0182767, .pandn ⟨none, 3, 1, 7, 1⟩)] = true := by decide +kernel

theorem test_decode_major19_b : decodes
  [(32, 0xC00006E7, .pnot ⟨none, 0, 6, 3⟩),
   (32, 0xD00044A7, .pfirst ⟨none, 2, 4, 2⟩)] = true := by decide +kernel

theorem test_decode_major20 : decodes
  [(32, 0x00008629, .tld ⟨6, 8, 0⟩),
   (32, 0x00186A29, .tst ⟨10, 6, 8, 0⟩),
   (32, 0x101C2669, .tstLaw ⟨6, 2, 12, 1⟩),
   (32, 0x0028C2E9, .tadd ⟨2, 12, 8, 3⟩),
   (32, 0x00302CE9, .ttouch ⟨12, 2, 3⟩),
   (32, 0x004082E9, .tarm ⟨2, 8, 3⟩),
   (32, 0x105064E9, .tclr ⟨4, 6, 1, 3⟩),
   (32, 0x706C2869, .vtld ⟨24, 2, 12, 3, 1⟩),
   (32, 0x8078C9A9, .vtadd ⟨9, 12, 8, 4, 2⟩),
   (32, 0x008CA829, .lawset ⟨8, 10, 12, 0⟩),
   (32, 0x009446E9, .lawget ⟨6, 4, 4, 3⟩)] = true := by decide +kernel

theorem test_decode_major21 : decodes
  [(32, 0xC2B1F7EB, .mma ⟨12, 2, 5, 4, 1, 7, 5, 3, 3⟩)] = true := by decide +kernel

theorem test_decode_major22 : decodes
  [(32, 0x0000026D, .rowcfg ⟨2, 0, 1⟩),
   (32, 0x1011036D, .acget ⟨19, 0, 1, 1⟩),
   (32, 0x2023052D, .acput ⟨5, 1, 3, 0⟩),
   (32, 0xE030002D, .aczero ⟨14, 0⟩),
   (32, 0x0040412D, .qcur ⟨1, 4, 0⟩),
   (32, 0x005014ED, .qcurrd ⟨4, 1, 3⟩),
   (32, 0x206006AD, .qadv ⟨6, 2, 2⟩),
   (32, 0x0070A66D, .qmovToQ ⟨6, 10, 1⟩),
   (32, 0x10703C6D, .qmovToS ⟨12, 3, 1⟩)] = true := by decide +kernel

theorem test_decode_major23 : decodes
  [(32, 0x67A103AF, .ascore ⟨6, 7, 5, 1, 0, 3, 2⟩),
   (32, 0x0B0020AF, .asoft ⟨3, 0, 2⟩),
   (32, 0x5BA9476F, .aval ⟨5, 3, 5, 2, 1, 1, 3, 1⟩),
   (32, 0x5C2061AF, .amass ⟨5, 4, 1, 1, 2⟩),
   (32, 0x4B0080AF, .apos ⟨4, 3, 2⟩)] = true := by decide +kernel

theorem test_decode_major24_a : decodes
  [(32, 0x0006A071, .cpw ⟨10, 6, 1⟩),
   (32, 0x00160A71, .cprd ⟨10, 6, 1⟩),
   (32, 0x002CCA71, .cpgo ⟨10, 12, 12, 1⟩),
   (32, 0x003C2A71, .cpconv ⟨10, 2, 12, 1⟩),
   (32, 0x004442F1, .bget ⟨2, 4, 4, 3⟩),
   (32, 0x005C8AB1, .gget ⟨10, 8, 12, 2⟩),
   (32, 0x006626B1, .gput ⟨6, 2, 6, 2⟩),
   (32, 0x60702E71, .bind ⟨14, 2, 3, 1⟩),
   (32, 0x008004B1, .unbind ⟨4, 0, 2⟩),
   (32, 0x0090C4B1, .card ⟨4, 12, 2⟩),
   (32, 0x00A24A31, .cbinit ⟨10, 4, 2, 0⟩),
   (32, 0x00B0C6B1, .cbpop ⟨6, 12, 2⟩)] = true := by decide +kernel

theorem test_decode_major24_b : decodes
  [(32, 0x10BA40B1, .cbpopDone ⟨4, 10, 2⟩),
   (32, 0x00C04431, .cbpush ⟨4, 4, 0⟩),
   (32, 0x10C280F1, .cbpushDone ⟨8, 2, 3⟩),
   (32, 0x00D0C471, .dredge ⟨4, 12, 1⟩),
   (32, 0xC0E0C631, .ctwait ⟨6, 12, 12, 0⟩),
   (32, 0x60F004F1, .ctrd ⟨4, 6, 3⟩)] = true := by decide +kernel

theorem test_decode_major25 : decodes
  [(32, 0x00028073, .msend ⟨8, 2, 1⟩),
   (32, 0x60100A33, .margs ⟨10, 6, 0⟩),
   (32, 0x00248AB3, .mlane ⟨10, 8, 4, 2⟩),
   (32, 0x00364A73, .mtab ⟨10, 4, 6, 1⟩),
   (32, 0x10326A33, .mtabDis ⟨10, 6, 2, 0⟩),
   (32, 0x0044CCF3, .dcset ⟨12, 12, 4, 3⟩),
   (32, 0x005A8033, .dcdec ⟨8, 10, 0⟩),
   (32, 0x006068F3, .dcrd ⟨8, 6, 3⟩),
   (32, 0x1060CAF3, .dcrdClr ⟨10, 12, 3⟩),
   (32, 0x007086F3, .ferryocc ⟨6, 8, 3⟩),
   (32, 0x0088C0F3, .ferrymig ⟨12, 8, 3⟩),
   (32, 0x0090A233, .mdead ⟨2, 10, 0⟩)] = true := by decide +kernel

theorem test_decode_major26 : decodes
  [(32, 0x000A6AF5, .hstart ⟨10, 6, 10, 3⟩),
   (32, 0x001000F5, .hend ⟨3⟩),
   (32, 0x00206235, .raft ⟨2, 6, 0⟩),
   (32, 0x003060F5, .split ⟨6, 3⟩),
   (32, 0x00408CB5, .raftAny ⟨12, 8, 2⟩),
   (32, 0x0050A635, .raftAll ⟨6, 10, 0⟩),
   (32, 0x30602475, .bar ⟨4, 2, 3, 1⟩),
   (32, 0x30700A35, .prio ⟨10, 3, 0⟩),
   (32, 0x008000F5, .yield ⟨3⟩)] = true := by decide +kernel

theorem test_decode_major27 : decodes
  [(32, 0x00000037, .dsync ⟨0⟩),
   (32, 0x00100A77, .dphase ⟨10, 1⟩),
   (32, 0x0026A0F7, .berth ⟨10, 6, 3⟩),
   (32, 0x00300437, .tround ⟨4, 0⟩),
   (32, 0x00400CB7, .trank ⟨12, 2⟩),
   (32, 0x0050A0F7, .tdone ⟨10, 3⟩)] = true := by decide +kernel

theorem test_decode_major28 : decodes
  [(32, 0x05709039, .repf ⟨5, 1, 3, 0, 9, 0⟩),
   (32, 0x00000179, .nop ⟨1⟩)] = true := by decide +kernel

theorem test_decode_major29 : decodes
  [(32, 0x100002FB, .sysr ⟨2, 256, 3⟩),
   (32, 0xD010027B, .sysw ⟨2, 3328, 1⟩),
   (32, 0x0029903B, .trap ⟨153, 0⟩),
   (32, 0xA036407B, .scall ⟨2660, 1⟩),
   (32, 0x0040003B, .uret ⟨0⟩),
   (32, 0x104880FB, .uretSw ⟨8, 8, 3⟩),
   (32, 0x2040007B, .uretWait ⟨1⟩),
   (32, 0x005000BB, .sret ⟨2⟩),
   (32, 0x0060007B, .fret ⟨1⟩),
   (32, 0x007170BB, .brk ⟨23, 2⟩),
   (32, 0x008020FB, .dbgsig ⟨2, 3⟩)] = true := by decide +kernel

theorem test_decode_compact0 : decodes
  [(16, 0xCEC0, .cInc ⟨6, 103⟩)] = true := by decide +kernel

theorem test_decode_compact1 : decodes
  [(16, 0xFEC2, .cSet ⟨6, 127⟩)] = true := by decide +kernel

theorem test_decode_compact2 : decodes
  [(16, 0x1084, .cCp ⟨4, 8⟩),
   (16, 0x2884, .cAddr ⟨4, 4⟩),
   (16, 0x58C4, .cSubr ⟨6, 12⟩),
   (16, 0x6844, .cAndr ⟨2, 4⟩),
   (16, 0x8CC4, .cOrr ⟨6, 6⟩),
   (16, 0xA504, .cXorr ⟨8, 2⟩),
   (16, 0xD884, .cSllr ⟨4, 12⟩),
   (16, 0xF584, .cSrar ⟨12, 10⟩)] = true := by decide +kernel

theorem test_decode_compact3 : decodes
  [(16, 0x1486, .cSltr ⟨4, 10⟩),
   (16, 0x2986, .cSltwr ⟨12, 4⟩),
   (16, 0x4486, .cSeqr ⟨4, 2⟩),
   (16, 0x6586, .cSner ⟨12, 2⟩),
   (16, 0x98C6, .cMinr ⟨6, 12⟩),
   (16, 0xACC6, .cMaxr ⟨6, 6⟩),
   (16, 0xD906, .cMinwr ⟨8, 12⟩),
   (16, 0xEC86, .cMaxwr ⟨4, 6⟩)] = true := by decide +kernel

theorem test_decode_compact4 : decodes
  [(16, 0x7188, .cShl ⟨12, 56⟩),
   (16, 0x9508, .cSar ⟨8, 10⟩)] = true := by decide +kernel

theorem test_decode_compact5 : decodes
  [(16, 0x008A, .cJreg ⟨4⟩)] = true := by decide +kernel

theorem test_decode_compact6 : decodes
  [(16, 0x046C, .cFadd ⟨3, 4⟩),
   (16, 0x232C, .cFsub ⟨1, 3⟩),
   (16, 0x428C, .cFmul ⟨4, 2⟩),
   (16, 0x646C, .cFmin ⟨3, 4⟩),
   (16, 0x858C, .cFmax ⟨4, 5⟩),
   (16, 0xA32C, .cFneg ⟨1, 3⟩),
   (16, 0xC28C, .cFabs ⟨4, 2⟩)] = true := by decide +kernel

theorem test_decode_compact7 : decodes
  [(16, 0x458E, .cVty ⟨44, 8⟩)] = true := by decide +kernel

theorem test_decode_compact8 : decodes
  [(16, 0xB990, .cBrz ⟨12, 92⟩)] = true := by decide +kernel

theorem test_decode_compact9 : decodes
  [(16, 0xA0D2, .cBrnz ⟨6, 80⟩)] = true := by decide +kernel

theorem test_decode_compact10 : decodes
  [(16, 0x9714, .cGo ⟨1208⟩)] = true := by decide +kernel

theorem test_decode_compact11 : decodes
  [(16, 0x9316, .cLld ⟨8, 73⟩)] = true := by decide +kernel

theorem test_decode_compact12 : decodes
  [(16, 0x9318, .cLsd ⟨8, 73⟩)] = true := by decide +kernel

theorem test_decode_compact13 : decodes
  [(16, 0x055A, .cLr ⟨10, 2, 0⟩)] = true := by decide +kernel

theorem test_decode_compact14 : decodes
  [(16, 0x955C, .cSr ⟨10, 10, 2⟩)] = true := by decide +kernel

theorem test_decode_compact15 : decodes
  [(16, 0x451E, .cVmv ⟨17, 8⟩)] = true := by decide +kernel

/-- The forms that need a prefix, c.vty with t1 in bits 10 to 5 and t2 in bits 15 to 11 before their word (02 R34 to R38), and the prefixed vadd that 02 R37
prints. -/
theorem test_decode_prefixed : decodes
  [(48, 0x041CA95D458E, .vcvtN ⟨some ⟨.b8 3 false false, .f32⟩, 2, 3, 1, 5, 9, 1⟩),
   (48, 0x140CA95D498E, .vcvtS ⟨some ⟨.sc8, .h16⟩, 2, 1, 1, 5, 9, 1⟩),
   (48, 0x2404A95D562E, .vcvtX ⟨some ⟨.b8 4 false true, .bf16⟩, 2, 0, 1, 5, 9, 1⟩),
   (48, 0x340CA95D412E, .vcvtF ⟨some ⟨.h16, .f32⟩, 2, 1, 1, 5, 9, 1⟩),
   (48, 0x4404A95D404E, .vcvtFi ⟨some ⟨.i32, .f32⟩, 2, 0, 1, 5, 9, 1⟩),
   (48, 0x540CA95D40AE, .vcvtFis ⟨some ⟨.w16, .f32⟩, 2, 1, 1, 5, 9, 1⟩),
   (48, 0x6404A95D590E, .vcvtIf ⟨some ⟨.f32, .q16⟩, 2, 0, 1, 5, 9, 1⟩),
   (48, 0x740CA95D202E, .vcvtIi ⟨some ⟨.i16, .w8⟩, 2, 1, 1, 5, 9, 1⟩),
   (48, 0x843CA95D180E, .vcvtIis ⟨some ⟨.i8, .i64⟩, 2, 7, 1, 5, 9, 1⟩),
   (48, 0x9200E89D458E, .vscget ⟨some ⟨.b8 3 false false, .f32⟩, 1, 0, 7, 8, 2⟩),
   (48, 0xA330E89D558E, .vscapply ⟨some ⟨.b8 3 false false, .bf16⟩, 1, 1, 6, 0, 7, 8, 2⟩),
   (48, 0x9604E821012E, .vrfsumw ⟨some ⟨.h16, .i8⟩, 3, 1, 7, 8, 0⟩),
   (48, 0x00206217002E, .vadd ⟨some ⟨.i16, .i8⟩, 0, 0, 4, 0, 3, 2, 0⟩)] = true := by decide +kernel

/-! ### Well-formedness refuses -/

/-- An instruction that fails exactly one check, by name, and is refused for it. -/
def refuses (i : Instr) (r : Reject) : Bool := i.faultsOf == [r] && !i.wf

theorem test_refuses_vector_31 : refuses (.vadd ⟨none, 0, 0, 1, 0, 2, 31, 0⟩) .noVector = true := by decide +kernel
theorem test_refuses_format_3 : refuses (.fadd ⟨1, 2, 3, 3, 0⟩) .format = true := by decide +kernel
theorem test_refuses_order : refuses (.ldo ⟨2, 4, 1, 2, 0, 0⟩) .order = true := by decide +kernel
theorem test_refuses_scope_6 : refuses (.amadd ⟨2, 4, 6, 1, 0, 6, 0⟩) .scope = true := by decide +kernel
theorem test_refuses_fence_without_sets : refuses (.fence ⟨0, 0, 0⟩) .fenceSets = true := by decide +kernel
theorem test_refuses_c_inc_of_s0 : refuses (.cInc ⟨0, 1⟩) .compactForm = true := by decide +kernel
theorem test_refuses_type : refuses (.vadd ⟨some ⟨.f32, .i8⟩, 0, 0, 1, 0, 2, 3, 0⟩) .typeRefused = true := by decide +kernel
theorem test_refuses_conversion_without_type : refuses (.vcvtN ⟨none, 0, 0, 0, 1, 2, 0⟩) .needsType = true := by decide +kernel
theorem test_refuses_odd_pair : refuses (.tld ⟨3, 2, 0⟩) .oddPair = true := by decide +kernel
theorem test_refuses_equal_sources : refuses (.vfmin ⟨none, 0, 0, 0, 0, 5, 0, 5, 1, 0⟩) .equalSources = true := by decide +kernel
theorem test_refuses_part_number : refuses (.vcvtX ⟨some ⟨.b8 3 false false, .f32⟩, 0, 4, 0, 1, 2, 0⟩) .partNumber = true := by decide +kernel
theorem test_refuses_accumulator_code : refuses (.mma ⟨9, 8, 1, 7, 3, 3, 3, 2, 0⟩) .accumulatorCode = true := by decide +kernel
theorem test_refuses_shadow_index : refuses (.cpw ⟨4, 0x07, 0⟩) .shadowIndex = true := by decide +kernel
theorem test_refuses_system_number : refuses (.sysr ⟨1, 0x005, 0⟩) .systemNumber = true := by decide +kernel
theorem test_refuses_truncated : decode [0b0000000000000001] = .reject .truncated := by decide +kernel
theorem test_refuses_reserved_major : decode [0b0000000000111111, 0] = .reject .reservedMajor := by decide +kernel
theorem test_refuses_reserved_func : decode [0b0000000000000001, 0b0000001001100000] = .reject .reservedFunc := by decide +kernel
theorem test_refuses_reserved_bit : decode [0b0001001100000001, 0b0000010000000010] = .reject .mustBeZero := by decide +kernel

/-! ### States that meet the hypotheses of the statements -/

def w0 : StrandId := ⟨0, 0⟩

/-- The control strand of core 0 at user level, with a page of 2 MiB at 0x400000 and registers at boundary values. -/
def demo : State := (State.reset.placeWord 16 0).onStrand w0 fun t =>
  { t with
    pl := 0
    s := #v[0, 0xFFFFFFF000000, 0xFFFFFFF004000, 0x5FFFF8, 0x10000000000000, 3, 0x8000000000000000, 0xFFFFFFFFFFFFFFFF,
      0x400040, 0x600000, 0x400041, 1, 64, 0x40, 0xFFFFFFF004000, 0xFFFFFFFFFFFFE] }

/-- The same with a change of the strand. -/
def demoWith (f : Strand → Strand) : State := demo.onStrand w0 f

/-- The same in a deterministic launch. -/
def detCrew : Crew := { placeCrew with det := true, qlog := 8 }
def detDemo : State := (demo.setCrew 0 detCrew).onStrand w0 fun t => { t with det := true }

def settledB (s : State) : Bool :=
  (s.strand s.cur).pend.isEmpty && (s.strand s.cur).requested.isEmpty && decide ((s.strand s.cur).wait = .free) &&
    (s.strand s.cur).fails.isEmpty && (s.core s.cur.core).fails.isEmpty
def calmB (s : State) : Bool := settledB s && decide ((s.core s.cur.core).streams = Vector.replicate 4 none)

theorem settled_of {s : State} (h : settledB s = true) : Settled s := by
  simp only [settledB, Bool.and_eq_true, List.isEmpty_iff, decide_eq_true_eq] at h
  exact ⟨h.1.1.1.1, h.1.1.1.2, h.1.1.2, h.1.2, h.2⟩

theorem calm_of {s : State} (h : calmB s = true) : Calm s := by
  simp only [calmB, Bool.and_eq_true, decide_eq_true_eq] at h
  exact ⟨settled_of h.1, h.2⟩

theorem demo_calm : Calm demo := calm_of (by decide +kernel)
theorem detDemo_calm : Calm detDemo := calm_of (by decide +kernel)
theorem demo_owns (vs : List (BitVec 5)) (h : vs.all (demo.owns demo.cur) = true) : Owned demo vs := List.all_eq_true.1 h

theorem witness_IntegerForms : Calm demo ∧ demo.rs 0 = 0 ∧ (demo.rs 6 = 0x8000000000000000 ∧ demo.rs 7 = BitVec.allOnes 64) ∧
    demo.rs 5 ≠ 0 := ⟨demo_calm, by decide +kernel⟩
theorem witness_ImmediateForms : Calm demo := demo_calm
theorem witness_CompactForms : Calm demo ∧ Owned demo [29, 0] := ⟨demo_calm, demo_owns _ (by decide +kernel)⟩
theorem witness_BranchForms : Calm demo ∧ (demo.rs 5 = demo.rs 5 ∧ demo.rs 5 ≠ demo.rs 0) ∧
    ((demo.rs 6).toInt < (demo.rs 0).toInt ∧ ¬(demo.rs 0).toInt < (demo.rs 0).toInt) ∧
    ((demo.rs 0).toNat < (demo.rs 6).toNat ∧ ¬(demo.rs 6).toNat < (demo.rs 6).toNat) ∧
    (demo.rs 5 &&& demo.rs 7 ≠ 0 ∧ demo.rs 0 &&& demo.rs 7 = 0) := ⟨demo_calm, by decide +kernel⟩
theorem witness_JumpForms : Calm demo ∧ ((⟨0, 1⟩ : StrandId).ctx ≠ 0 ∨ demo.rs 15 ≠ 0xFFFFFFFFFFFFE) ∧
    (w0.ctx ≠ 0 ∨ demo.rs 5 ≠ 0xFFFFFFFFFFFFE) ∧ (w0.ctx = 0 ∧ demo.rs 15 = 0xFFFFFFFFFFFFE ∧ (demo.strand w0).raft = none ∧
    (demo.core 0).streams = Vector.replicate 4 none) := ⟨demo_calm, by decide +kernel⟩

/-- A watchpoint on the 8 bytes at 0x400040, and an offence already recorded. -/
def watched : State := demoWith fun t => { t with dw := t.dw.set 0 0xEC00000000400040, oob := 0x8000000000000000 }

/-- Bytes at 0x400040 that fail their check code, as a link transfer's. -/
def failed : State := { demo with failing := [(0x400040, ⟨3, 32, 0⟩)] }

theorem witness_AccessChecks : ((3 : Nat) < 4 ∧ 2 ^ 52 ≤ ((0xFFFFFFFFFFFFD : Word) + BitVec.ofNat 64 3).toNat ∧ (0xFFFFFFFFFFFFD : Word).toNat % 4 ≠ 0 ∧
      demo.reach w0 .read 0xFFFFFFFFFFFFD 4 = .trap (trapAt 4 0 0xFFFFFFFFFFFFD false)) ∧
    ((∀ k, k < 2 → ((0xFFFFFFFFFFFFD : Word) + BitVec.ofNat 64 k).toNat < 2 ^ 52) ∧ (0xFFFFFFFFFFFFD : Word).toNat % 2 ≠ 0) ∧
    ((demo.rs 10).toNat < 2 ^ 52 ∧ (demo.rs 10).toNat % 8 ≠ 0) ∧
    (failed.look (failed.agent w0) .read (failed.rs 8) = .place (.dev 0x400040) ∧ (failed.viewRead w0 (.dev 0x400040) 8).viewFail w0 (.dev 0x400040) 8 = some 3 ∧
      (failed.viewRead w0 (.dev 0x400060) 8).viewFail w0 (.dev 0x400060) 8 = none ∧ Machine.Acc.reads .rmw = true) ∧
    ((demo.rs 9).toNat < 2 ^ 52 ∧ (demo.rs 9).toNat % 8 = 0 ∧ demo.look (demo.agent w0) .read (demo.rs 9) = .bad 6 1) ∧
    (watched.look (watched.agent w0) .read 0x400040 = .place (.dev 0x400040) ∧
      watchHit (watched.strand w0) .read 0x400040 8 = some ([0], 0x400040) ∧
      (let both : Strand := { watched.strand w0 with dw := #v[0xEC00000000400044, 0xEC00000000400040] }
       watchHit both .read 0x400040 8 = some ([0, 1], 0x400040))) ∧
    (demo.look (demo.agent w0) .write (demo.rs 3) = .place (.dev 0x5FFFF8) ∧ watchHit (demo.strand w0) .write (demo.rs 3) 8 = none) ∧
    (demo.look (demo.agent w0) .read (demo.rs 2) = .out ∧ watchHit (demo.strand w0) .read (demo.rs 2) 8 = none) ∧
    (watched.strand w0).oob.getLsbD 63 = true ∧
    ((demo.strand w0).oob.getLsbD 63 = false ∧ (demo.rs 2).toNat < 2 ^ 52 ∧ 0xFFFFFFF000000 ≤ (demo.rs 2).toNat) := by decide +kernel

/-- Scratchpad granted to its last page, and a peer mask that names only the last slot. -/
def granted : State := demo.onCore 0 fun c => { c with spBase := 255, spLen := 1, peermask := 0x80000000 }

/-- Core 0 in rival 1 and core 1 in rival 2 of one launch. -/
def rivals : State :=
  (((demo.setCrew 0 { placeCrew with rival := some 1 }).setCrew 1 { placeCrew with rival := some 2 })).onCore 1 fun c => { c with crew := some 1 }

theorem witness_WindowPlaces : (rivals.peerCore 0 1 = 1 ∧ rivals.otherRival (rivals.core 0).crew 1 = true ∧
      rivals.otherRival (rivals.core 0).crew 0 = false ∧ granted.otherRival (granted.core 0).crew 31 = false) ∧
    (Machine.Acc.read ≠ .fetch) ∧ ((0x3FFF : Nat) < 0x4000) ∧ ((0x4000 : Nat) ≤ 0x4000 ∧ (0xFFFF : Nat) < 0x10000) ∧
    ((0x1FFFFF : Nat) < 0x200000) ∧
    (let c : Machine.Core := granted.core 0
     (0xFFF < min c.spLen.toNat 256 * 4096 ∧ c.spBase.toNat * 4096 + 0xFFF < 0x100000) ∧ ¬(0x1000 < min c.spLen.toNat 256 * 4096)) ∧
    (granted.peerCore 0 31 = 31 ∧ (granted.core 0).peermask.getLsbD 31 = true ∧ granted.peerCore 0 0 = 0) ∧
    ¬(granted.peerCore 0 30 = 0 ∨ (granted.core 0).peermask.getLsbD 30 = true) := by decide +kernel

theorem witness_LoadForms : Calm demo ∧ demo.reach w0 .read (demo.rs 3) 8 = .at (.dev 0x5FFFF8) ∧
    demo.reach w0 .read 0xFFFFFFF0003F8 8 = .at (.store 0 0x3F8 true) ∧ demo.reach w0 .read (demo.rs 2) 8 = .out ∧
    demo.reach w0 .read (demo.rs 10) 2 = .trap (trapAt 5 0 0x400041 false) := ⟨demo_calm, by decide +kernel⟩

/-- A deterministic crew with a berth of another core over 0x400040. -/
def berthed : State := (demo.setCrew 0 { detCrew with berth := [(0, ⟨0x400040, 64, 0, 5⟩)] }).onStrand w0 fun t => { t with det := true }

theorem witness_StoreForms : Calm demo ∧ (demo.reach w0 .write (demo.rs 8) 8 = .at (.dev 0x400040) ∧
    demo.writeRefused w0 (.dev 0x400040) (demo.rs 8) = none) ∧
    (Calm berthed ∧ berthed.reach w0 .write (berthed.rs 8) 8 = .at (.dev 0x400040) ∧
      (berthed.writeRefused w0 (.dev 0x400040) (berthed.rs 8)).isSome = true) ∧
    demo.reach w0 .write (demo.rs 2) 4 = .out ∧ demo.reach w0 .write (demo.rs 4) 1 = .trap (trapAt 4 0 0x10000000000000 true) :=
  ⟨demo_calm, by decide +kernel, ⟨calm_of (by decide +kernel), by decide +kernel⟩, by decide +kernel⟩
/-- A cluster cache that holds line 0x10001 with its first byte dirty. -/
def lineOf (dirty : BitVec 64) : CacheLine := ⟨0x55, BitVec.allOnes 64, dirty, false, none⟩
def caching (l : FMap CacheLine) : State := demo.setCluster 0 { demo.cluster 0 with cache := l }
def oneLine : State := caching [(0x10001, lineOf 1)]

theorem witness_AccessByteFrames : ((∀ a rep, (Loc.dev 0x400078).cached = some (a, rep) → a % 64 + 8 ≤ 64) ∧ (7 : Nat) < 8) ∧
    (∀ k, k < 8 → (Loc.dev 0x400040).key + 8 ≠ (Loc.dev 0x400040).key + k) ∧ (Loc.dev 0x400040).inWindow = false ∧
    (oneLine.cluster 0).hasWay 0x10001 = true ∧
    FMap.find (oneLine.cluster 0).cache 0x10001 = some (lineOf 1) ∧ (oneLine.coreDet 0 = false ∧ detDemo.coreDet 0 = true) ∧
    (∀ x, FMap.find (oneLine.cluster 0).cache (0x400041 / 64) = some x → x.dirty.getLsbD (0x400041 % 64) = false) :=
  ⟨⟨fun a rep h => by simp only [Loc.cached, Option.some.injEq, Prod.mk.injEq] at h; rw [← h.1], by decide⟩, by decide +kernel, by decide +kernel, by decide +kernel, by decide +kernel, by decide +kernel,
    fun x h => by
      rw [show FMap.find (oneLine.cluster 0).cache (0x400041 / 64) = some (lineOf 1) from by decide +kernel, Option.some.injEq] at h
      rw [← h]; decide +kernel⟩

theorem witness_RoundingRules : ((0x7F7FFFFF : Nat) < 2 ^ Fmt.f32.width ∧ Fmt.f32.decode 0x7F7FFFFF ≠ .nan) ∧
    ((0xFC00 : Nat) < 2 ^ Fmt.h16.width ∧ Fmt.h16.decode 0xFC00 ≠ .nan) ∧
    ((0 : Nat) < 1 ∧ (127 : Int) < FVal.log2 (.fin false 1 128)) ∧ ((15 : Int) < FVal.log2 (.fin true 1 16)) := by decide +kernel

/-- f registers with 1.5, 2.0, a NaN and the largest bf16. -/
def floats : State := demoWith fun t => { t with f := #v[0x3FC00000, 0x40000000, 0x7FC00000, 0x7F7F, 0, 0, 0, 0] }
theorem witness_FloatArithmetic : Calm floats := calm_of (by decide +kernel)

/-- The rational value of a finite value. -/
def exactValue (x : FVal) : Option ℚ :=
  match x with
  | .fin b m e => some ((if b then -(m : ℚ) else m) * 2 ^ e)
  | .zero _ => some 0
  | _ => none
def properValue (x : FVal) : Prop := ∀ b m e, x = .fin b m e → 0 < m ∧ m < 2 ^ 54

theorem witness_FloatArithmetic_values :
    (properValue (.fin false 3 0) ∧ properValue (.fin true 3 0) ∧ properValue (.zero true) ∧ properValue (.fin false (2 ^ 54 - 1) 0)) ∧
    (exactValue (.fin false 3 0) = some 3 ∧ exactValue (.fin true 3 0) = some (-3) ∧ exactValue (.zero true) = some 0) ∧
    ((∀ b, ¬(FVal.fin false 3 0 = .zero b ∧ FVal.fin true 3 0 = .zero b)) ∧ (3 : ℚ) + -3 = 0 ∧ (0 : ℚ) * 3 = 0 ∧ (3 : ℚ) ≠ 0 ∧ (-3 : ℚ) < 0 ∧ (0 : ℚ) < 3) ∧
    (2 ^ 60 - 1 < 2 ^ 60 ∧ 2 ^ 32 - 1 < 2 ^ 32) ∧
    (FVal.zero true ≠ .nan ∧ ¬(∃ b, FVal.zero true = .inf b) ∧ (FVal.fin false 3 0).isZero = false ∧ ¬∃ b, FVal.fin false 3 0 = .inf b) := by
  refine ⟨⟨?_, ?_, ?_, ?_⟩, ⟨?_, ?_, rfl⟩, ⟨?_, by norm_num, by norm_num, by norm_num, by norm_num, by norm_num⟩, by decide, ?_⟩
  · rintro _ _ _ ⟨⟩; decide
  · rintro _ _ _ ⟨⟩; decide
  · rintro _ _ _ ⟨⟩
  · rintro _ _ _ ⟨⟩; decide
  · norm_num [exactValue]
  · norm_num [exactValue]
  · rintro _ ⟨⟨⟩, _⟩
  · exact ⟨nofun, nofun, rfl, nofun⟩

theorem witness_FloatMoves_integers :
    (let lo : Int := -2 ^ (8 - 1)
     let hi : Int := 2 ^ (8 - 1) - 1
     let size (rm : Rm) (b : Bool) (m : Nat) (e : Int) : Int := if 0 ≤ e then m * 2 ^ e.toNat else roundMag rm b m (-e).toNat
     (1 : Nat) ≤ 1 ∧ lo ≤ -size .near true 256 (-1) ∧ size .near false 127 0 ≤ hi ∧ -size .near true 258 (-1) < lo ∧ hi < size .up false 255 (-1)) := by
  decide
theorem witness_FloatMoves : Calm floats ∧
    (let val (r : BitVec 3) : FVal := Fmt.f32.decode ((floats.rf r).toNat % 2 ^ 32)
     (val 0 ≠ .nan ∧ val 1 ≠ .nan ∧ FVal.compare (val 0) (val 0) = 0) ∧ (FVal.compare (val 0) (val 1) < 0) ∧ val 2 = .nan) :=
  ⟨calm_of (by decide +kernel), by decide +kernel⟩

theorem witness_VectorIntegerForms : ((31 : Nat) < 256 / 8) ∧ Calm demo ∧ Owned demo [29, 30, 0] :=
  ⟨by decide, demo_calm, demo_owns _ (by decide +kernel)⟩
theorem witness_VectorFloatForms : Calm demo ∧ Owned demo [29, 30, 0] := ⟨demo_calm, demo_owns _ (by decide +kernel)⟩
theorem witness_VectorConversions : Calm demo ∧ Owned demo [29, 0] := ⟨demo_calm, demo_owns _ (by decide +kernel)⟩
theorem witness_VectorPermutes : Calm demo ∧ Owned demo [29, 30, 0] := ⟨demo_calm, demo_owns _ (by decide +kernel)⟩
theorem witness_VectorReductions : Calm demo ∧ Owned demo [29, 0] := ⟨demo_calm, demo_owns _ (by decide +kernel)⟩
theorem witness_VectorCompares : Calm demo ∧ Owned demo [29, 0] := ⟨demo_calm, demo_owns _ (by decide +kernel)⟩
theorem witness_ScalarOperandForms : Calm demo ∧ Owned demo [29, 0] ∧ Owned demo [29] :=
  ⟨demo_calm, demo_owns _ (by decide +kernel), demo_owns _ (by decide +kernel)⟩
theorem witness_BlockScalesAndWeir : Calm demo ∧ Owned demo [29, 30, 0] ∧ Owned demo [29, 0] :=
  ⟨demo_calm, demo_owns _ (by decide +kernel), demo_owns _ (by decide +kernel)⟩

theorem find_absent {x : Nat} {y : CacheLine} : ∀ l : List Nat, x ∉ l → FMap.find (l.map fun k => (k, y)) x = none
  | [], _ => rfl
  | a :: l, h => by
    have e : ¬a = x := fun e => h (by rw [e]; exact List.mem_cons_self)
    rw [List.map_cons, FMap.find, if_neg e, find_absent l fun e => h (List.mem_cons_of_mem _ e)]

theorem fiber_length (f : Nat → Nat) (n x : Nat) : (((List.range n).filter (· != x)).filter fun k => f k == f x).length =
    (((Finset.range n).filter fun k => f k = f x).erase x).card := by
  have hf : ∀ p : Nat → Bool, ((List.range n).filter p).length = ((Finset.range n).filter fun k => p k = true).card := fun p => by
    rw [← List.toFinset_card_of_nodup (List.nodup_range.filter p)]; congr 1; ext; simp
  rw [List.filter_filter, hf]
  congr 1
  ext k
  simp only [Finset.mem_erase, Finset.mem_filter, Bool.and_eq_true, bne_iff_ne, beq_iff_eq]
  tauto

/-- Of the first 4,097 lines 17 have one set, whatever the sets are: without one of them the set is full, and that line has no way. -/
theorem witness_AccessByteFrames_full : ∃ x, ((caching (((List.range 4097).filter (· != x)).map fun k => (k, lineOf 1))).cluster 0).hasWay x = false := by
  let f (n : Nat) : Nat := Config.cacheSet n % 256
  obtain ⟨y, -, hy⟩ := Finset.exists_lt_card_fiber_of_mul_lt_card_of_maps_to (s := Finset.range 4097) (t := Finset.range 256) (f := f) (n := 16)
    (fun a _ => Finset.mem_range.2 (Nat.mod_lt _ (by decide))) (by simp)
  obtain ⟨x, hx⟩ := Finset.card_pos.1 (Nat.lt_of_le_of_lt (Nat.zero_le _) hy)
  have hxy : f x = y := (Finset.mem_filter.1 hx).2
  refine ⟨x, ?_⟩
  let l : List Nat := (List.range 4097).filter (· != x)
  have hc : ((caching (l.map fun k => (k, lineOf 1))).cluster 0).cache = l.map fun k => (k, lineOf 1) := by simp only [caching, State.cluster, State.setCluster, FMap.getD_put_self]
  have hn : FMap.find (l.map fun k => (k, lineOf 1)) x = none := find_absent l (by simp [l])
  have he := Finset.card_erase_of_mem hx
  have hs : 16 ≤ (l.filter fun k => f k == f x).length := by rw [fiber_length, hxy]; omega
  have hm : (l.map fun k => (k, lineOf 1)).map (·.1) = l := (List.map_map ..).trans (List.map_id _)
  have hl : 16 ≤ l.length := Nat.le_trans hs (List.length_filter_le _ _)
  rw [Cluster.hasWay, Cluster.setOf, hc, hn, hm, List.length_map]
  simp only [Option.isSome_none, Bool.or_false, Bool.or_eq_false_iff, decide_eq_false_iff_not, Nat.not_lt]
  exact ⟨hl, hs⟩

theorem witness_VectorMemoryForms : Calm demo ∧ Owned demo [29] ∧ Owned demo [29, 0] ∧
    (demo.reachAll w0 .read (granules (demo.rp 0) 0x5FFF00 0 32)).isOk = true ∧
    (demo.reachAll w0 .read (granules (demo.rp 0) 0x5FFF08 0 32)).isOk = false ∧
    (demo.reachAll w0 .write (granules (demo.rp 0) 0x400000 0 32)).isOk = true ∧
    (demo.reachAll w0 .write (granules (demo.rp 0) (demo.rs 10) 0 32)).isOk = false ∧
    activeList (demo.rp 1) 4 = [] ∧ (activeList (demo.rp 0) 4).head? = some 0 ∧
    ((demo.reachAll w0 .write (granules (demo.rp 0) 0x400000 0 32)).toOption.bind (demo.chunksRefused w0) = none) ∧
    (Calm berthed ∧
      ((berthed.reachAll w0 .write (granules (demo.rp 0) 0x400000 0 32)).toOption.bind (berthed.chunksRefused w0)).isSome = true) :=
  ⟨demo_calm, demo_owns _ (by decide +kernel), demo_owns _ (by decide +kernel), by decide +kernel, by decide +kernel, by decide +kernel,
    by decide +kernel, by decide +kernel, by decide +kernel, by decide +kernel, calm_of (by decide +kernel), by decide +kernel⟩

theorem witness_VectorMemoryBytes : (demo.reachAll w0 .read (granules (demo.rp 0) 0x400000 0 32)).isOk = true ∧
    ((255 : Nat) < 256 ∧ (demo.rp 0).getLsbD 255 = true) ∧ (demo.reachAll w0 .read (indexed (demo.rp 0) 8 0x400000 0)).isOk = true ∧
    ((31 : Nat) < 256 / 8 ∧ (demo.rp 0).getLsbD (8 * 31) = true) ∧
    (let c : Chunk := ⟨0, 0x400000, 0x400000, 8, 0, [7], true, true⟩
     (7 ∈ c.act) ∧ (Loc.dev 0x400000).key + 8 ≠ (Loc.dev 0x400000).key + 7) := by decide +kernel

theorem witness_AtomicForms : Calm demo ∧ ((demo.strand w0).det = false ∧ demo.coreDet 0 = false) ∧
    demo.reach w0 .rmw (demo.rs 8) 8 = .at (.dev 0x400040) ∧ demo.reach w0 .read (demo.rs 8) 4 = .at (.dev 0x400040) ∧
    demo.reach w0 .write (demo.rs 1) 8 = .at (.store 0 0 true) ∧ (∀ p ∈ demo.posted, p.who ≠ w0) ∧
    demo.reach w0 .rmw (demo.rs 2) 8 = .out ∧ demo.reach w0 .rmw (demo.rs 9) 8 = .trap (trapAt 6 1 0x600000 true) ∧
    (Calm detDemo ∧ (detDemo.strand w0).det = true ∧ detDemo.reach w0 .rmw (detDemo.rs 8) 8 = .at (.dev 0x400040) ∧
      detDemo.berthRefused w0 (detDemo.rs 8) = none) ∧
    (demo.reach w0 .read (demo.rs 2) 8 = .out ∧ demo.reach w0 .write (demo.rs 2) 4 = .out ∧ detDemo.reach w0 .rmw (detDemo.rs 2) 8 = .out ∧
      detDemo.reach w0 .read (detDemo.rs 8) 4 = .at (.dev 0x400040) ∧ detDemo.reach w0 .write (detDemo.rs 8) 4 = .at (.dev 0x400040) ∧
      detDemo.reach w0 .read (detDemo.rs 2) 4 = .out ∧ detDemo.reach w0 .write (detDemo.rs 2) 4 = .out) ∧
    ((berthed.reach w0 .rmw (berthed.rs 8) 8 = .at (.dev 0x400040) ∧ (berthed.berthRefused w0 (berthed.rs 8)).isSome = true) ∧
      demo.reach w0 .read (demo.rs 9) 8 = .trap (trapAt 6 1 0x600000 false) ∧ demo.reach w0 .write (demo.rs 9) 8 = .trap (trapAt 6 1 0x600000 true)) ∧
    (let at' : State := demo.toHome 0 (.dev 0x400040) 8
     at'.homeNat 0 (.dev 0x400040) 8 = (demo.rs 0).toNat ∧ at'.homeNat 0 (.dev 0x400040) 8 ≠ (demo.rs 5).toNat) :=
  ⟨demo_calm, by decide +kernel, by decide +kernel, by decide +kernel, by decide +kernel, by decide +kernel, by decide +kernel,
    by decide +kernel, ⟨detDemo_calm, by decide +kernel⟩, by decide +kernel, by decide +kernel, by decide +kernel⟩

/-- Law n on every die. -/
def lawed (n : Nat) (l : Law) (s : State) : State :=
  (List.range 4).foldl (fun s d => s.setDie d { s.die d with laws := FMap.put (s.die d).laws n l }) { s with laws := FMap.put s.laws n l }
/-- Law 0 by the logical tide. -/
def logicalLaw : State := lawed 0 { Law.reset with ctl := 0xFFF00000008 } detDemo

theorem witness_TimedForms : Calm demo ∧
    demo.timedReach w0 .read 0xFFFFFFF003FF0 none = .ok (some (.store 0 0x3FF0 true)) ∧
    demo.timedReach w0 .read (demo.rs 2) none = .ok none ∧ (demo.timedReach w0 .read (demo.rs 10) none).isOk = false ∧
    ((demo.strand w0).det = false ∧ demo.timedReach w0 .rmw (demo.rs 1) (some 255) = .ok (some (.store 0 0 true))) ∧
    demo.timedReach w0 .rmw (demo.rs 2) none = .ok none ∧ (demo.timedReach w0 .rmw (demo.rs 4) none).isOk = false ∧
    Owned demo [29] ∧ (demo.reachLanes w0 .read (laneAddrs (demo.rp 0) (demo.rs 1) 16)).isOk = true ∧
    ((logicalLaw.strand w0).det = true ∧ logicalLaw.timedReach w0 .rmw (detDemo.rs 1) none = .ok (some (.store 0 0 true)) ∧
      logicalLaw.timedReach w0 .rmw (detDemo.rs 2) none = .ok none) ∧
    (demo.reachLanes w0 .read (laneAddrs (demo.rp 0) (demo.rs 1) 8)).isOk = false ∧
    (demo.reachLanes w0 .rmw (laneAddrs (demo.rp 0) (demo.rs 2) 16)).isOk = true ∧
    (demo.reachLanes w0 .rmw (laneAddrs (demo.rp 0) (demo.rs 9) 16)).isOk = false :=
  ⟨demo_calm, by decide +kernel, by decide +kernel, by decide +kernel, by decide +kernel, by decide +kernel, by decide +kernel,
    demo_owns _ (by decide +kernel), by decide +kernel, by decide +kernel, by decide +kernel, by decide +kernel, by decide +kernel⟩

/-- A word of 0 in the own local store that is armed at 0, and a law by which it gains 1 at each tick, with threshold 1, handler 0x123 or none. -/
def armedWord (handler : Word) : State :=
  ((lawed 6 { Law.reset with ctl := handler <<< 32 ||| 0x12, threshold := 1 } { demo with wallTide := 5 }).putWord (2 ^ 60 + 8)
    0x0106000000000000).putWord (2 ^ 60) 0x100000000
def foundIn (s : State) : Found :=
  let old := TWord.ofNat ((s.toHome 0 (.store 0 0 true) 16).homeNat 0 (.store 0 0 true) 16)
  evalWord old (s.lawAt (.store 0 0 true) old.law.toNat) 5
theorem witness_TimedEvaluation : ((foundIn (armedWord 0x123)).hit = true ∧ ((armedWord 0x123).lawAt (.store 0 0 true) 6).ctl.extractLsb' 32 12 ≠ 0xFFF#12) ∧
    ((foundIn (armedWord 0xFFF)).hit = true ∧ ((armedWord 0xFFF).lawAt (.store 0 0 true) 6).ctl.extractLsb' 32 12 = 0xFFF#12) ∧
    (foundIn demo).hit = false := by decide +kernel

/-- A law's descriptor in the own local store: hold, factor 0, threshold 0. A second one has a nonzero last doubleword. -/
def lawBytes : State := demo.homeWrite (2 ^ 60 + 0x7F) 1

theorem witness_LawForms : Calm lawBytes ∧ lawBytes.reach w0 .read 0xFFFFFFF000000 32 = .at (.store 0 0 true) ∧
    (let d (j : Nat) : Word := BitVec.ofNat 64 (lawBytes.viewNat w0 (.store 0 0 true) 32 / 2 ^ (64 * j))
     ¬(d 0 &&& 0x0000F000FFFFFCE4 ≠ 0 ∨ d 3 ≠ 0 ∨ d 1 ≠ 0)) ∧
    lawBytes.reach w0 .read 0xFFFFFFF000060 32 = .at (.store 0 0x60 true) ∧
    BitVec.ofNat 64 (lawBytes.viewNat w0 (.store 0 0x60 true) 32 / 2 ^ (64 * 3)) ≠ (0 : Word) ∧
    lawBytes.reach w0 .read (lawBytes.rs 3) 32 = .trap (trapAt 5 0 0x5FFFF8 false) ∧ lawBytes.reach w0 .read 0xFFFFFFF004000 32 = .out ∧
    ((3 : Nat) < 4 ∧ (255 : Nat) < 256 ∧ demo.lawSpread 255 = true ∧
      (demo.setDie 3 { demo.die 3 with laws := [(255, { Law.reset with factor := 1 })] }).lawSpread 255 = false) :=
  ⟨calm_of (by decide +kernel), by decide +kernel⟩

/-- An accumulator a3 that waits for a result of a joined mma. -/
def slice0 : Slice := ⟨3, true, 0, 0, 0, 32, 0⟩
def joinedMma : Joined := ⟨false, 0, 0, 0, (List.range 8).map fun c => (⟨c, 0⟩, 0), List.replicate 8 slice0, false⟩
def busyAcc : State := demo.setRow 0 { Row.reset with work := [joinedMma], joined := 1 }

theorem witness_AccumulatorForms : (Calm busyAcc ∧ busyAcc.accBusy 0 8 = true) ∧ (Calm demo ∧ Owned demo [29] ∧ demo.accBusy 0 8 = false) ∧
    ((6 : BitVec 3) ≠ 7 ∧ (7 : BitVec 3) = 7) :=
  ⟨⟨calm_of (by decide +kernel), by decide +kernel⟩, ⟨demo_calm, demo_owns _ (by decide +kernel), by decide +kernel⟩, by decide⟩

/-- Scalar descriptors: s2 and s3 name lines in the scratchpad window, s4 and s5 name an unaligned base. -/
def described : State := demoWith fun t =>
  { t with s := #v[0, 0, 0xFFFFFFF200000, 64, 0xFFFFFFF200001, 64, 0x400000, 0x400400, 0xFFFFFFF200000, 0x400000, 0, 0, 0, 0, 0, 0] }

theorem witness_ChainForms : Calm described ∧ Owned described [] ∧ Owned described [16, 17] ∧
    ((described.operand w0 1).check 0 32 = none ∧ (described.operand w0 8).check 0 32 = none) ∧
    ((described.operand w0 2).check 0 32).isSome = true ∧
    (let ps : List (Nat × Option Loc) := described.linePlaces w0 (blockAddrs 0x400400 (pageOffs 1024 256))
     described.blockCheck w0 true 0x400400 (pageOffs 1024 256) = none ∧ described.pageFail w0 ps (0x400400 + 1024) 256 = none) ∧
    (described.blockCheck w0 true 0x400401 (pageOffs 1024 256)).isSome = true ∧
    (let failing : State := { described with failing := [(0x4008F8, ⟨2, 8, 0⟩)] }
     let ps : List (Nat × Option Loc) := failing.linePlaces w0 (blockAddrs 0x400400 (pageOffs 1024 256))
     failing.blockCheck w0 true 0x400400 (pageOffs 1024 256) = none ∧ (failing.pageFail w0 ps (0x400400 + 1024) 256).isSome = true) ∧
    (described.blockCheck w0 false 0x400000 [1280] = none ∧ (described.massWords w0 (described.linePlaces w0 [0x400500]) 0x400000).isOk = true ∧
      (described.blockCheck w0 false 0x400001 [1280]).isSome = true ∧
      (let watching : State := (described.homeWrite 0x400507 0x80).onStrand w0 fun t => { t with dw := t.dw.set 0 0xFC000000004003F0 }
       watching.blockCheck w0 false 0x400000 [1280] = none ∧ (watching.massWords w0 (watching.linePlaces w0 [0x400500]) 0x400000).isOk = false)) ∧
    ((32 : Nat) ≤ (0x20 : Word).toNat) ∧ ((16 : Word).toNat < 32 ∧ (1 : Nat) ≤ 16 % 32 ∧ 16 % 32 ≤ 16 ∧ (7 : Nat) % 8 ≠ 0) :=
  ⟨calm_of (by decide +kernel), List.forall_mem_nil _, List.all_eq_true.1 (by decide +kernel), by decide +kernel⟩

/-- A row at which all eight positions have issued aczero-like chain instructions: rowcfg, one of another kind, or one with a fault. -/
def issueOf (c : Nat) (op : ChainOp) (f : Option Trap) : ChainIssue := 
  ⟨⟨c, 0⟩, [0x002D, 0], 0, 0, (0, 256), op, demo.linePlaces w0 [0x400500], [], f⟩
def rowWith (f : Nat → ChainIssue) : State :=
  demo.setRow 0 { Row.reset with queues := Vector.ofFn fun p => [f p.val] }
def joins (s : State) : List ChainIssue := ((s.row 0).queues.toList.mapM List.head?).getD []
def allConfigure : State := rowWith fun c => issueOf c (.rowcfg 0 true) none
def oneOther : State := rowWith fun c => issueOf c (if c = 7 then .soft 0 0 0 else .rowcfg 0 true) none
def oneFaults : State := rowWith fun c => issueOf c (.rowcfg 0 true) (if c = 7 then some (trapOf 12 1) else none)
def grantedWork (deep : Bool) : State := demo.setRow 0 { Row.reset with work := [{ joinedMma with granted := true, deep := deep }] }
/-- The same with a granule of its accumulator that fails its check code. -/
def adding : Joined := { joinedMma with granted := true, ac := 1 }
def badAddend : State := (demo.setRow 0 { Row.reset with work := [adding] }).onCore 0 fun c => { c with fails := [(granAcc 3, 1)] }
/-- A read stream that a chain instruction took a step of. -/
def tookStream : RegStream :=
  ⟨0, demo.viewOf w0, 0x400000, 0, false, 0x400000, [(2, 256)], 2, 1, 1, [], 7, ([7], 1), none, 7⟩
def tookStep : State := demo.onCore 0 fun c => { c with streams := #v[none, none, none, some tookStream] }
/-- Eight amass whose page's occupancy bytes fail their check code. -/
def oneFails : State := { rowWith fun c => issueOf c (.mass 0 1 0 0x400000 0 []) none with failing := [(0x400500, ⟨2, 8, 0⟩)] }
def crowdedRow : State := allConfigure.setRow 0 { allConfigure.row 0 with work := [joinedMma, joinedMma] }
def limited (n : Nat) : State := busyAcc.setCluster 0 { busyAcc.cluster 0 with share := some n }

theorem witness_ChainEvents : (demo.row 0).queues.toList.mapM List.head? = none ∧
    ((joins allConfigure).length = 8 ∧ (∀ m ∈ joins allConfigure, (allConfigure.row 0).room m.op = true ∧ m.fault = none ∧ some m.op.kind = (joins allConfigure).head?.map (·.op.kind))) ∧
    ((∀ m ∈ joins oneOther, m.fault = none) ∧ ∃ m ∈ joins oneOther, some m.op.kind ≠ (joins oneOther).head?.map (·.op.kind)) ∧
    (∃ m ∈ joins oneFaults, m.fault ≠ none) ∧
    ((∀ m ∈ joins crowdedRow, (crowdedRow.row 0).room m.op = false) ∧ (joins crowdedRow).length = 8) ∧
    ((joins oneFails).length = 8 ∧ (∀ m ∈ joins oneFails, (oneFails.row 0).room m.op = true ∧ m.fault = none ∧ some m.op.kind = (joins oneFails).head?.map (·.op.kind)) ∧
      (oneFails.instanceFail (oneFails.row 0) (joins oneFails)).isSome = true ∧ demo.failing = []) ∧
    (let waits (s : State) (n : Nat) : Option Joined := (s.row n).work.find? fun j => !j.granted
     let left (s : State) : Option Nat := ((s.cluster 0).share.or (s.die 0).idleShare).map (· - (s.cluster 0).spent)
     waits demo 0 = none ∧ waits demo 3 = none ∧ (3 : Nat) / 4 = 0 ∧ waits busyAcc 0 = some joinedMma ∧ waits busyAcc 1 = none ∧ waits busyAcc 2 = none ∧
     waits busyAcc 3 = none ∧ left busyAcc = none ∧ left (limited 255) = some 255 ∧ left (limited 256) = some 256 ∧ joinedMma.units = 256) ∧
    ((demo.row 0).work = [] ∧ (∀ m ∈ joins oneFails, (oneFails.strand m.who).fails = [] ∧ (oneFails.core m.who.core).fails = [])) ∧
    (let m : ChainIssue := { issueOf 0 (.rowcfg 0 true) none with taken := [⟨3, 7, [7], 1⟩] }
     m.taken = [⟨3, 7, [7], 1⟩] ∧ (3 : Nat) < 4 ∧ (tookStep.core m.who.core).streams[3]? = some (some tookStream) ∧ tookStream.order = 7) ∧
    ((grantedWork false).addendFail 0 { joinedMma with granted := true } = none ∧
      (badAddend.row 0).work = [adding] ∧ adding.granted = true ∧ (badAddend.addendFail 0 adding).isSome = true) ∧
    (∀ deep, ((grantedWork deep).row 0).work = [{ joinedMma with granted := true, deep := deep }] ∧ joinedMma.slices.length = 8) := by
  decide +kernel

/-- The shape, step and size conditions of a copy, as the statement on transfers names them. -/
def copyConds (m : FMap Word) : Bool × Bool × Bool :=
  let c : Word := shadowAt m 2
  let size : Nat := 2 ^ (c.extractLsb' 8 2).toNat
  let mode : Nat := (c.extractLsb' 16 2).toNat
  let snd : Nat := (c.extractLsb' 0 3).toNat
  let dnd : Nat := (c.extractLsb' 4 3).toNat
  let sd : List (Nat × Int) := shadowDims m 0x10 snd
  let dd : List (Nat × Int) := shadowDims m 0x18 dnd
  let even (base : Word) (dims : List (Nat × Int)) : Bool := decide (base.toNat % size = 0 ∧ ∀ d ∈ dims, d.2 % size = 0)
  (decide (mode ≠ 3 ∧ 1 ≤ snd ∧ snd ≤ 6 ∧ (mode = 0 → 1 ≤ dnd ∧ dnd ≤ 6 ∧ patternCount sd = patternCount dd)),
    even (shadowAt m 0) sd && (mode != 0 || even (shadowAt m 1) dd), decide (patternCount sd * size ≤ 2 ^ 32))

def convConds (m : FMap Word) (a b : Word) : Bool × Bool × Bool × Bool :=
  let v : Word := shadowAt m 5
  let size : Nat := 2 ^ ((shadowAt m 2).extractLsb' 8 2).toNat
  let dim (i : Nat) : Nat × Int := shadowDim (shadowAt m i)
  let even (base : Word) (dims : List (Nat × Int)) : Bool := decide (base.toNat % size = 0 ∧ ∀ d ∈ dims, d.2 % size = 0)
  (decide (a.extractLsb' 32 32 = 0#32 ∧ b.extractLsb' 12 20 = 0#20 ∧ b.extractLsb' 40 8 = 0#8),
    decide ((dim 0x10).1 ≠ 0 ∧ v.extractLsb' 48 16 ≠ 0#16 ∧ v.extractLsb' 32 16 ≠ 0#16 ∧ v.extractLsb' 16 16 ≠ 0#16 ∧
      v.extractLsb' 0 8 ≠ 0#8),
    even (shadowAt m 0) [dim 0x10, dim 0x11, dim 0x12] && even (shadowAt m 1) [dim 0x18, dim 0x19],
    decide (((b.extractLsb' 0 12).toNat + 1) * (dim 0x10).1 * size ≤ 2 ^ 32))

/-- A plain copy of 8 elements of 8 bytes, of one dimension. -/
def copySet : FMap Word := [(0, 0x400000), (1, 0x400400), (2, 0x311), (16, 0x8000008), (24, 0x8000008)]

/-- A convolution of four channels of 8 bytes over one image of 3 columns with pad 1 and stride 1. -/
def convSet : FMap Word := [(0, 0x400000), (1, 0xFFFFFFF000000), (2, 0x300), (5, 0x0001000300030101), (16, 0x8000004),
  (17, 0x20000001), (18, 0x60000001), (24, 0x8000001), (25, 0x20000001)]

/-- A ring of 4 slots of 64 bytes at the start of the scratchpad: empty, full, or with a slot reserved and one taken. -/
def ringWith (r : Ring) : State := demo.setCluster 0 { demo.cluster 0 with rings := [(15, r)] }
def emptyRing : Ring := Ring.init 0 3 0 0
def fullRing : Ring := { emptyRing with free := 0, filled := 4 }
def busyRing : Ring := { emptyRing with free := 1, filled := 1, reserved := 1, taken := 1, head := 1, tail := 3 }

theorem witness_TransferChecks :
    (copyConds [(2, 0x30311)]).1 = false ∧ copyConds (FMap.put copySet 0 0x400001) = (true, false, true) ∧
    copyConds [(2, 0x311), (16, 0x8FFFFFF), (17, 0), (24, 0x8FFFFFF)] = (true, true, true) ∧
    copyConds [(2, 0x10301), (16, 0x8FFFFFF)] = (true, true, true) ∧
    copyConds [(2, 0x10302), (16, 0x8FFFFFF), (17, 0x8000021)] = (true, true, false) ∧
    (copyConds [(2, 0xF20301), (16, 0x8000008)] = (true, true, true) ∧ demo.ring 0 15 = none ∧
      ((ringWith emptyRing).ring 0 15).isSome = true) ∧
    copyConds copySet = (true, true, true) ∧
    (convConds convSet 0xFFFFFFFF 0x0000000000000000 = (true, true, true, true) ∧ (convConds convSet 0x100000000 0).1 = false ∧
      (convConds (FMap.del convSet 16) 0 0xFFF = (true, false, true, true)) ∧
      (convConds (FMap.put convSet 0 0x400004) 0 0xFFF = (true, true, false, true)) ∧
      (convConds (FMap.put convSet 16 0x8FFFFFF) 0 0xFFF = (true, true, true, false))) := by decide +kernel

/-- The copy of `copySet` in the strand's shadow set, outside and inside a deterministic launch. -/
def copying (s : State) : State := s.onStrand w0 fun t => { t with shadow := copySet }

/-- Every transfer slot of core 0 taken by the copy, and 1,024 operations in the scheduler of the crew. -/
def someTransfer : Transfer := demo.newTransfer w0 (.copy 8 0x400000 0x400400 [(8, 8)] [(8, 8)]) ⟨none, none, none, none⟩
def slotsTaken (n : Nat) : State := (copying demo).onCore 0 fun c => { c with slots := (List.range n).map fun k => (k, someTransfer) }

/-- A berth table that lets core 0 write where the copy goes, and one that lets it write nothing. -/
def berthing (l : FMap Berth) : State := (copying detDemo).setCrew 0 { detCrew with berth := l }

def passes {α} (e : Except Trap α) : Bool := match e with | .ok _ => true | .error _ => false
def copyWrites (u : State) : Except Trap Unit :=
  match u.copyLaunch w0 (u.strand w0).shadow with
  | .ok r => u.berthCheck 0 1 (u.writesOf 0 r.2.1)
  | .error e => .error e

theorem witness_TransferForms :
    (Calm demo ∧ passes (demo.copyLaunch w0 (demo.strand w0).shadow) = false ∧ passes (demo.convLaunch w0 (demo.rs 0) (demo.rs 0)) = false ∧
      passes (demo.blockOf w0 0 0) = false ∧ passes (demo.gatherOf w0 true (demo.rs 10) 0) = false ∧
      passes (demo.cardOf w0 [3] (demo.rs 10)) = false) ∧
    (Calm (copying demo) ∧ passes ((copying demo).copyLaunch w0 copySet) = true ∧ passes (copyWrites (copying demo)) = true ∧
      (demo.strand w0).det = false ∧ demo.coreDet 0 = false ∧ (demo.core 0).freeSlot = some 0 ∧ (demo.crewOps 0).length < 1024) ∧
    (Calm (berthing [(0, ⟨0x400000, 64, 1, 0⟩)]) ∧ passes (copyWrites (berthing [(0, ⟨0x400400, 64, 1, 5⟩)])) = false ∧
      passes (copyWrites (berthing [])) = true ∧ ((berthing []).strand w0).det = true ∧ (berthing []).coreDet 0 = true) ∧
    (Calm (slotsTaken 64) ∧ ((slotsTaken 64).core 0).freeSlot = none ∧ ((slotsTaken 63).core 0).freeSlot = some 63) ∧
    (someTransfer.work.empty = false ∧ demo.dealFault 0 someTransfer.work = none ∧ (63 : Nat) < 64 ∧ (65535 : Nat) < 65536) :=
  ⟨⟨demo_calm, by decide +kernel⟩, ⟨calm_of (by decide +kernel), by decide +kernel⟩, ⟨calm_of (by decide +kernel), by decide +kernel⟩,
    ⟨calm_of (by decide +kernel), by decide +kernel⟩, by decide +kernel⟩

/-- A crew whose scheduler holds 1,024 operations: 64 transfers on each of 16 cores of two rows or more. -/
def full : State :=
  let crew : State := (copying demo).setCrew 0 { placeCrew with rows := [0, 1] }
  (List.range 16).foldl (fun s c => s.onCore c fun x => { x with crew := some 0, slots := (List.range 64).map fun k => (k, someTransfer) }) crew

/-- Two streams of core 0: k 0 reads v0 and k 1 writes v1, with steps or without. -/
def streamOf (write : Bool) (v : BitVec 5) (count taken : Nat) (buf : List VReg) : RegStream :=
  ⟨0, demo.viewOf w0, 0x400000, v, write, 0x400000, [(count, 256)], count, taken, taken + buf.length, buf, 0, ([], 0), none, 0⟩
def streaming (r : RegStream) (w : RegStream) : State := demo.onCore 0 fun c => { c with streams := #v[some r, some w, none, none] }
def boundStreams : State := streaming (streamOf false 0 2 0 [7]) (streamOf true 1 2 0 [])

/-- The descriptor of a read stream of two steps of 256 bytes in the own local store. -/
def streamDesc (s : State) : State :=
  [(0x01, 0x00), (0x02, 0x40), (0x08, 1), (0x10, 2), (0x14, 1)].foldl (fun s (e : Nat × Nat) => s.homeWrite (2 ^ 60 + e.1) (BitVec.ofNat 8 e.2)) s

def bound (s : State) (v : BitVec 5) : Bool := passes (s.streamFrom w0 v 0 0xFFFFFFF000000)
def bindFits (s : State) : Bool :=
  match s.streamFrom w0 0 0 0xFFFFFFF000000 with
  | .ok r => passes (s.berthCheck 0 4 (s.streamOp 0 r).writes)
  | .error _ => false

theorem witness_StreamForms :
    (Settled (streamDesc demo) ∧ (streamDesc demo).owns w0 29 = true ∧ bound (streamDesc demo) 29 = true ∧ bound demo 29 = false ∧
      bindFits (streamDesc demo) = true ∧ ((streamDesc demo).crewOps 0).length < 1024) ∧
    (Settled (streamDesc detDemo) ∧ bound (streamDesc detDemo) 29 = true ∧ bindFits (streamDesc detDemo) = true) ∧
    (Settled boundStreams ∧ (boundStreams.core 0).streams[3] = none ∧ (boundStreams.core 0).streams[0] = some (streamOf false 0 2 0 [7]) ∧
      (boundStreams.core 0).streams[1] = some (streamOf true 1 2 0 []) ∧
      ((streaming (streamOf false 0 2 0 [7]) (streamOf true 1 2 1 [9])).core 0).streams[1] = some (streamOf true 1 2 1 [9])) ∧
    (let reached (v a : Word) : Prop := (v.setWidth 32 - a.setWidth 32 : BitVec 32).toNat < 2 ^ 31
     reached ((demo.core 0).counters[15]) (demo.rs 0) ∧ ¬reached ((demo.core 0).counters[15]) (demo.rs 11)) :=
  ⟨⟨settled_of (by decide +kernel), by decide +kernel⟩, ⟨settled_of (by decide +kernel), by decide +kernel⟩,
    ⟨settled_of (by decide +kernel), by decide +kernel⟩, by decide +kernel⟩
theorem witness_StreamForms_posted : Settled { boundStreams with posted := [⟨w0, 0⟩] } ∧
    (∃ p ∈ ({ boundStreams with posted := [⟨w0, 0⟩] } : State).posted, p.who = ⟨0, (streamOf true 1 2 0 []).owner⟩) ∧
    ∀ p ∈ boundStreams.posted, p.who ≠ ⟨0, (streamOf true 1 2 0 []).owner⟩ :=
  ⟨settled_of (by decide +kernel), by decide +kernel, by decide +kernel⟩
theorem witness_StreamForms_full : Settled full ∧ 1024 ≤ (full.crewOps 0).length := ⟨settled_of (by decide +kernel), by decide +kernel⟩

theorem witness_StreamRegisters :
    (Settled boundStreams ∧ Owned boundStreams ((some 0 : Option (BitVec 5)).toList ++ [1]) ∧
      (boundStreams.core 0).streamOf 0 = some (0, streamOf false 0 2 0 [7]) ∧ (boundStreams.core 0).streamOf 1 = some (1, streamOf true 1 2 0 []) ∧
      (some (2 : BitVec 5)).bind (boundStreams.core 0).streamOf = none) ∧
    (let waiting := streaming (streamOf false 0 2 1 []) (streamOf true 1 2 2 [])
     let spent := streaming (streamOf false 0 2 2 []) (streamOf true 1 2 2 [])
     (waiting.core 0).streamOf 0 = some (0, streamOf false 0 2 1 []) ∧ (1 : Nat) < 2 ∧
     (spent.core 0).streamOf 0 = some (0, streamOf false 0 2 2 []) ∧ (2 : Nat) ≤ 2 ∧
     (let bad : RegStream := { streamOf false 0 2 1 [] with bad := some 1 }
      ((streaming bad bad).core 0).streamOf 0 = some (0, bad) ∧ bad.taken < bad.count ∧ bad.buf = [] ∧ (1 : Nat) ≤ bad.taken) ∧
     (spent.core 0).streamOf 1 = some (1, streamOf true 1 2 2 [])) :=
  ⟨⟨settled_of (by decide +kernel), List.all_eq_true.1 (by decide +kernel), by decide +kernel⟩, by decide +kernel⟩

/-- Operands of cbinit: a legal one, one with a reserved bit, and one past the grant. -/
def initWord (cnt base : Nat) : Word := BitVec.ofNat 64 (cnt * 2 ^ 22 + base)

theorem witness_RingForms :
    (Settled demo ∧ (demo.strand w0).det = false) ∧
    (let fields (u : Nat) (b : Word) : Prop := u < 16 ∧ b.extractLsb' 14 2 = 0#2 ∧ b.extractLsb' 30 34 = 0#34
     ¬fields 16 0 ∧ fields 15 (initWord 255 0x3F00) ∧ ringFits (demo.core 0) 255 0 0x3F00 = true ∧ ringFits (demo.core 0) 255 0 0x3F01 = false) ∧
    (demo.ring 0 15 = none ∧ (ringWith emptyRing).ring 0 15 = some emptyRing ∧ emptyRing.filled = 0 ∧ emptyRing.free ≠ 0 ∧
      (ringWith fullRing).ring 0 15 = some fullRing ∧ fullRing.free = 0 ∧ fullRing.filled ≠ 0) ∧
    ((ringWith busyRing).ring 0 15 = some busyRing ∧ demo.slotOf 0 busyRing 0xFFFFFFF200041 = none ∧
      demo.slotOf 0 busyRing 0xFFFFFFF200000 = some 0 ∧ demo.slotOf 0 busyRing 0xFFFFFFF2000C0 = some 3 ∧
      busyRing.isTaken 0 = true ∧ busyRing.isTaken 1 = false ∧ busyRing.isReserved 2 = true ∧ busyRing.isReserved 3 = false) ∧
    (Settled (detDemo.setCluster 0 { demo.cluster 0 with rings := [(15, busyRing)] }) ∧ (detDemo.strand w0).det = true) ∧
    ((emptyRing.reserve).isSome = true ∧ (fullRing.take).isSome = true) :=
  ⟨⟨demo_calm.toSettled, by decide +kernel⟩, by decide +kernel, by decide +kernel, by decide +kernel,
    ⟨settled_of (by decide +kernel), by decide +kernel⟩, by decide +kernel⟩

/-- The transfer in slot 63 of core 0, behind an earlier one that writes what it reads. -/
def transferring : State := demo.onCore 0 fun c => { c with slots := [(63, { someTransfer with order := 1 })] }
def queuedBehind : State := demo.onCore 0 fun c => { c with slots :=
  [(0, { someTransfer with work := .copy 8 0x400800 0x400000 [(8, 8)] [(8, 8)] }), (63, { someTransfer with order := 1 })] }

/-- The page of `demo`, waiting at the host. -/
def hostPage : State := demo.homeWrite 0x104017 0x44
theorem witness_EngineEvents :
    (detDemo.coreDet 0 = true ∧ demo.coreDet 0 = false) ∧ (FMap.find (demo.core 0).slots 63 = none) ∧
    (FMap.find (queuedBehind.core 0).slots 63 = some { someTransfer with order := 1 } ∧ someTransfer.work.empty = false ∧
      queuedBehind.heldBack 0 (queuedBehind.transferOp 0 { someTransfer with order := 1 }) = true) ∧
    (someTransfer.view = demo.viewOf w0 ∧ demo.engineLook 0 (demo.viewOf w0) .read 0x400000 = .at (.dev 0x400000) ∧
      demo.engineLook 0 (demo.viewOf w0) .write 0x400400 = .at (.dev 0x400400) ∧
      (match demo.engineLook 0 (demo.viewOf w0) .read 0x600000 with | .fail 6 1 => true | _ => false) = true) ∧
    (someTransfer.note = ⟨none, none, none, none⟩ ∧ someTransfer.failed = none) ∧
    (let t : Transfer := { someTransfer with ahead := [(.va 0x400000, 5)] }
     t.ahead.lookup (.va ((0x400000 : Word) &&& ~~~(7 : Word))) = some 5 ∧ (8 : Nat) ≤ 8 ∧ someTransfer.ahead.lookup (.va 0x400000) = none) ∧
    (failed.engineLook 0 (demo.viewOf w0) .read 0x400040 = .at (.dev 0x400040) ∧ failed.engineMeets 0 (.dev 0x400040) 8 = some 3 ∧
      failed.engineMeets 0 (.dev 0x400060) 8 = none) ∧
    (hostPage.engineLook 0 (demo.viewOf w0) .read 0x400000 = .waits ∧ hostPage.engineLook 0 (demo.viewOf w0) .write 0x400400 = .waits) ∧
    ((boundStreams.core 0).streams[0]?.join = some (streamOf false 0 2 0 [7]) ∧ (streamOf false 0 2 0 [7]).open = true ∧
      boundStreams.heldBack 0 (boundStreams.streamOp 0 (streamOf false 0 2 0 [7])) = false ∧
      (match boundStreams.stepRead w0 false (demo.viewOf w0) 0x400100 32 with | .ok _ => true | .error _ => false) = true) := by decide +kernel

theorem eraseDups_of_nodup : ∀ (n : Nat) (l : List Nat), l.length ≤ n → l.Nodup → l.eraseDups = l
  | 0, [], _, _ => rfl
  | _ + 1, [], _, _ => rfl
  | n + 1, a :: l, h, d => by
    have hd := List.nodup_cons.1 d
    have hf : l.filter (fun b => !b == a) = l := List.filter_eq_self.2 fun b hb => by
      simp only [Bool.not_eq_true', beq_eq_false_iff_ne]; rintro rfl; exact hd.1 hb
    rw [List.eraseDups_cons, hf, eraseDups_of_nodup n l (by simpa using h) hd.2]

/-- A task of core 0 that has written one byte of each of 16,384 lines of device memory: it has no wake line left. -/
def manyLines : Crew := { detCrew with wake := [(0, (List.range 16384).map fun k => (64 * k, 0))] }
def lineless : State := (demo.setCrew 0 manyLines).onStrand w0 fun t => { t with det := true }

theorem lineless_crew : lineless.crewOf 0 = some manyLines := by
  have e : lineless.crewOf 0 = FMap.find lineless.crews 0 := by
    have : (lineless.core 0).crew = some 0 := by unfold lineless; exact (by decide +kernel : (demo.core 0).crew = some 0)
    simp only [State.crewOf, this]
  rw [e]; rfl

theorem wakeRoom_full {s : State} (hc : s.crewOf w0.core = some manyLines) (hi : (s.core w0.core).index = 0) {keys : List Nat}
    (hd : (keys.map (· / 64)).Nodup) (hk : ∀ k ∈ keys, 16384 ≤ k / 64) (hn : keys ≠ []) : s.wakeRoom w0 keys = false := by
  have hl : manyLines.wakeLines 0 = List.range 16384 := by
    have : (manyLines.wake.flatMap fun e => if e.1 / 2 ^ 16 = 0 then e.2.map (·.1 / 64) else []) = List.range 16384 := by
      simp only [manyLines, List.flatMap_cons, List.flatMap_nil, List.append_nil, Nat.zero_div, if_true, List.map_map]
      exact (List.map_congr_left fun k _ => by simp [Function.comp]).trans (List.map_id _)
    rw [Crew.wakeLines, this]
    exact eraseDups_of_nodup _ _ (Nat.le_refl _) List.nodup_range
  have hall : (List.range 16384 ++ keys.map (· / 64)).Nodup :=
    List.nodup_append.2 ⟨List.nodup_range, hd, fun a ha b hb => by
      obtain ⟨k, hk', rfl⟩ := List.mem_map.1 hb
      have := List.mem_range.1 ha; have := hk k hk'; omega⟩
  have hp := List.length_pos_iff.2 hn
  simp only [State.wakeRoom, hc, hi, hl]
  rw [eraseDups_of_nodup _ _ (Nat.le_refl _) hall]
  simp only [manyLines, detCrew, Bool.not_true, if_false, List.length_append, List.length_range, List.length_map, Bool.false_eq_true,
    decide_eq_false_iff_not]
  omega

theorem lineless_index : (lineless.core w0.core).index = 0 := (by decide +kernel : (demo.core 0).index = 0)
theorem lineless_refuses : lineless.wakeRoom w0 [2 ^ 61] = false :=
  wakeRoom_full lineless_crew lineless_index (List.nodup_singleton _) (by simp) (by simp)

/-- Core 0 with messages: m0 is fresh in lane 3, m1 is stale in lane 0, and a dead-letter entry stands behind. -/
def msg (bits : MsgBits) : Message := ⟨bits, none, 0, none, none, some 0, none, none, 0⟩
def fresh0 : MsgBits := 0xFFF000000000 &&& 0x3000000001 ||| ((demo.strand w0).gen.setWidth 512 <<< 28)
def stale0 : MsgBits := ((demo.strand w0).gen + 1).setWidth 512 <<< 28
def mailed (s : State) : State := s.onCore 0 fun c =>
  { c with lanes := #v[[msg stale0], [], [], [msg fresh0]], dead := [⟨stale0, 4, 0, 0, 0⟩], outbound := List.replicate 8 (msg fresh0) }

/-- The own local store with a template of len 56, and one of len 57. -/
def image (len : Nat) : State := (demo.homeWrite (2 ^ 60 + 4) (BitVec.ofNat 8 (len % 4 * 64))).homeWrite (2 ^ 60 + 5) (BitVec.ofNat 8 (len / 4))

theorem witness_MessageForms :
    (Settled (image 56) ∧ descOk ((image 56).rs 7) = false ∧ descOk ((image 56).rs 0) = true ∧ (image 56).ownBuffer 0 ((image 56).rs 10) 64 64 = none ∧
      (image 56).ownBuffer 0 0xFFFFFFF003FC0 64 64 = some (.store 0 0x3FC0 true) ∧ (image 56).ownBuffer 0 ((image 56).rs 1) 64 64 = some (.store 0 0 true)) ∧
    (let hdr (s : State) : Word := BitVec.ofNat 64 (s.viewNat w0 (.store 0 0 true) 8)
     templateOk true (hdr (image 57)) = false ∧ templateOk true (hdr (image 56)) = true ∧ descOk 0x200000000 = true ∧
     (image 56).inReach 0 0x200000000 = false ∧ (image 56).inReach 0 0 = true) ∧
    ((detDemo.strand w0).det = true ∧ (demo.strand w0).det = false ∧ demo.coreDet 0 = false ∧ (demo.core 0).outbound.length < 8 ∧
      8 ≤ ((mailed demo).core 0).outbound.length) ∧
    ((15 : Nat) < 16 ∧ (65535 : Nat) < 65536 ∧ (List.replicate 56 (0 : Byte)).length = 56) ∧
    (4 ≤ (demo.rs 12).toNat ∧ (demo.rs 5).toNat < 4 ∧ ((demo.dropStale 0 3 16).core 0).lane 3 = [] ∧
      (((mailed demo).dropStale 0 3 16).core 0).lane 3 = [msg fresh0] ∧ (((mailed demo).dropStale 0 0 16).core 0).lane 0 = [] ∧
      ((mailed demo).dropStale 0 3 16).writeRefused w0 (.store 0 0 true) ((mailed demo).rs 1) = none) ∧
    ((demo.core 0).dead = [] ∧ ((mailed demo).core 0).dead = [⟨stale0, 4, 0, 0, 0⟩] ∧
      (mailed demo).writeRefused w0 (.store 0 0 true) ((mailed demo).rs 1) = none) :=
  ⟨⟨settled_of (by decide +kernel), by decide +kernel⟩, by decide +kernel, by decide +kernel, by decide +kernel, by decide +kernel,
    by decide +kernel⟩

theorem witness_MessageForms_noLine : lineless.ownBuffer 0 0xFFFFFFF200000 64 64 = some (.pad 0 0) ∧
    (lineless.writeRefused w0 (.pad 0 0) 0xFFFFFFF200000).isSome = true := by
  have hc : ∀ va, lineless.ownPlace 0 va 64 = demo.ownPlace 0 va 64 := fun va => by
    have h : lineless.core 0 = demo.core 0 := rfl
    unfold State.ownPlace
    rw [h]
  have hd : demo.ownBuffer 0 0xFFFFFFF200000 64 64 = some (.pad 0 0) := by decide +kernel
  have hb : lineless.berthRefused w0 0xFFFFFFF200000 = none := by
    simp only [State.berthRefused, show lineless.crewOf w0.core = some manyLines from lineless_crew]
    exact if_neg (by decide +kernel)
  refine ⟨?_, ?_⟩
  · unfold State.ownBuffer at hd ⊢
    rw [hc]
    exact hd
  · unfold State.writeRefused
    rw [hb, show (Loc.pad 0 0).key = 2 ^ 61 from by decide, lineless_refuses]
    rfl

/-- A task record in the own local store at 0x40 whose image is at 0, and counters and a matching entry of another crew and of this one. -/
def withTask (s : State) : State := (s.homeWrite (2 ^ 60 + 0x4E) 0x0F).homeWrite (2 ^ 60 + 0x4D) 0xFF |>.homeWrite (2 ^ 60 + 0x4C) 0xFF
  |>.homeWrite (2 ^ 60 + 0x4B) 0xFF
def theTask : Task := ⟨0, 0xFFFFFFF000000, w0⟩
def armedCrew : Crew := { placeCrew with deps := [(3, ⟨some theTask, 5, false⟩)] }
def entryOf (crew : Nat) (s : State) : State := s.setCluster 0 { s.cluster 0 with matching := [(63, ⟨crew, 0, 1, 0, theTask⟩)] }
def systemLevel (s : State) : State := s.onStrand w0 fun t => { t with pl := 1 }
def twoCores (s : State) : State := s.onCore 7 fun c => { c with crew := some 0 }
def taskOk (s : State) (a : Word) : Bool := match s.taskCheck w0 a with | .ok k => k.image == 0xFFFFFFF000000 | .error _ => false

theorem witness_DependenceForms :
    (Settled (withTask demo) ∧ taskOk (withTask demo) 0xFFFFFFF000040 = true ∧
      (match (withTask demo).taskCheck w0 (demo.rs 10) with | .error c => c == 4 | .ok _ => false) = true) ∧
    (let low (a : Word) : Bool := a.extractLsb' 8 24 == 0#24
     low (demo.rs 8) = false ∧ low (demo.rs 5) = true ∧ low 0xFFFFFFFF000000FF = true ∧ (0xFF3F : Word).extractLsb' 6 10 ≠ 0#10 ∧
     (0xFFFFFFFFFFFF003F : Word).extractLsb' 6 10 = 0#10) ∧
    (Settled (withTask detDemo) ∧ ((withTask detDemo).strand w0).det = true ∧ taskOk (withTask detDemo) 0xFFFFFFF000040 = true) ∧
    ((demo.strand w0).det = false ∧ (demo.core 0).crew = some 0) ∧
    ((entryOf 1 demo).foreignEntry 0 63 = true ∧ (entryOf 0 demo).foreignEntry 0 63 = false ∧ demo.foreignEntry 0 63 = false ∧ demo.rs 0 = 0) ∧
    ((256 ≤ (demo.rs 8).toNat ∨ 2 ^ 32 ≤ (demo.rs 7).toNat) ∧ (demo.rs 12).toNat < 256 ∧ (demo.rs 5).toNat < 2 ^ 32) ∧
    (demo.inCrew 0 (demo.relocate (some 0) 8) = false ∧ demo.inCrew 0 (demo.relocate (some 0) 0) = true ∧ 65536 ≤ (demo.rs 8).toNat ∧
      (twoCores demo).inCrew 0 ((twoCores demo).relocate (some 0) 7) = true) ∧
    ((demo.strand w0).pl = 0 ∧ ((systemLevel demo).strand w0).pl ≠ 0 ∧ ((systemLevel detDemo).strand w0).det = true ∧
      Settled (systemLevel (twoCores demo)) ∧
      (let u := systemLevel (twoCores demo)
       let cores (src dst : Nat) : Prop := (u.core src).crew ≠ none ∧ (u.core src).crew = (u.core dst).crew ∧ dieOf src = dieOf 0
       let fields (a b : Word) : Prop := a.toNat < 65536 ∧ b.extractLsb' 21 3 = 0#3 ∧ b.extractLsb' 26 38 = 0#38 ∧
         1 ≤ (b.extractLsb' 16 5).toNat ∧ (b.extractLsb' 16 5).toNat ≤ 16
       cores 0 7 ∧ ¬cores 0 8 ∧ fields 0 0x3100007 ∧ ¬fields 0 0x110007)) ∧
    (FMap.find (demo.setCrew 0 armedCrew).crews 0 = some armedCrew ∧ (armedCrew.dep 2).task = none ∧
      (armedCrew.dep 3).task = some theTask ∧ 4 < (armedCrew.dep 3).count ∧ (armedCrew.dep 3).count ≤ 5) :=
  ⟨⟨settled_of (by decide +kernel), by decide +kernel⟩, by decide +kernel, ⟨settled_of (by decide +kernel), by decide +kernel⟩,
    by decide +kernel, by decide +kernel, by decide +kernel, by decide +kernel,
    ⟨by decide +kernel, by decide +kernel, by decide +kernel, settled_of (by decide +kernel), by decide +kernel⟩, by decide +kernel⟩

/-- Context 1 of core 0 runs, or issues; all helper contexts run; core 7 waits for a raft with mask 0x81. -/
def at' (s : State) (w : StrandId) : State := { (s.onStrand w fun t => { t with live := true }) with cur := w }
def crowded : State := (List.range 11).foldl (fun s c => s.onStrand ⟨0, c⟩ fun t => { t with live := true, vcount := if c = 0 then 0 else 3 }) demo
def waitingRaft (m : BitVec 32) : State :=
  (twoCores demo).onStrand ⟨7, 0⟩ fun t => { t with live := true, raft := some m, wait := .raft 0 0 }
/-- Context 1 of core 0 with a write stream that has a step to perform. -/
def undrained : State := (at' demo ⟨0, 1⟩).onCore 0 fun c => { c with streams := #v[some { streamOf true 1 2 1 [9] with owner := 1 }, none, none, none] }
/-- The same in a deterministic launch, where an earlier transfer of the crew writes what the step would write. -/
def heldStream : State := { (undrained.setCrew 0 detCrew).onStrand ⟨0, 1⟩ fun t => { t with det := true } with cur := ⟨0, 1⟩ }.onCore 0 fun c =>
  { c with slots := [(0, { someTransfer with work := .copy 8 0x400800 0x400000 [(8, 8)] [(8, 8)] })],
           streams := #v[some { streamOf true 1 2 1 [9] with owner := 1, order := 5 }, none, none, none] }
theorem heldStream_busy : let u := heldStream.settleStreams 0
    ∃ e, u.ownStreams ⟨0, 1⟩ = [] ++ e :: [] ∧ u.streamBusy ⟨0, 1⟩ e.2 = true := by
  refine ⟨(0, { streamOf true 1 2 1 [9] with owner := 1, order := 5 }), ?_⟩
  decide +kernel

theorem witness_StrandForms :
    (Settled demo ∧ (let fields (a : Word) : Prop := a.getLsbD 0 = false ∧ a.extractLsb' 57 3 = 0#3 ∧ a.extractLsb' 62 2 = 0#2 ∧ a.extractLsb' 52 5 ≠ 31#5
      fields 0x31E0000000400000 ∧ ¬fields 0x01F0000000400000) ∧ (detDemo.strand w0).det = true ∧ (demo.strand w0).det = false ∧
      demo.freeContext 0 = some 1 ∧ freeRun (demo.grants 0) 0 = some 0 ∧ freeRun (crowded.grants 0) 31 = none ∧ crowded.freeContext 0 = none) ∧
    (Settled (at' demo ⟨0, 11⟩) ∧ (at' demo ⟨0, 11⟩).cur.ctx = 11 ∧ demo.cur.ctx = 0 ∧ Settled (at' demo ⟨0, 1⟩) ∧
      (at' demo ⟨0, 1⟩).cur.ctx ≠ 0 ∧ (at' demo ⟨0, 1⟩).coreDet 0 = false ∧ (at' demo ⟨0, 1⟩).ownStreams ⟨0, 1⟩ = []) ∧
    (Settled undrained ∧ (let busy (r : RegStream) : Prop := r.write = true ∧ (r.buf ≠ [] ∨ ∃ p ∈ undrained.posted, p.who = undrained.cur)
      ∃ e, undrained.ownStreams undrained.cur = [] ++ e :: [] ∧ busy e.2)) ∧
    (Settled (at' detDemo ⟨0, 1⟩) ∧ (at' detDemo ⟨0, 1⟩).coreDet 0 = true ∧
      (∀ e ∈ ((at' detDemo ⟨0, 1⟩).settleStreams 0).ownStreams ⟨0, 1⟩, ((at' detDemo ⟨0, 1⟩).settleStreams 0).streamBusy ⟨0, 1⟩ e.2 = false) ∧
      Settled heldStream ∧ heldStream.coreDet 0 = true ∧ (let u := heldStream.settleStreams 0
        ∃ e, u.ownStreams ⟨0, 1⟩ = [] ++ e :: [] ∧ u.streamBusy ⟨0, 1⟩ e.2 = true)) ∧
    ([(⟨0, 0⟩ : StrandId), ⟨7, 0⟩].all fun m => (demo.strand m).pend.isEmpty) = true ∧
    ((demo.rs 6).extractLsb' 32 32 ≠ 0#32 ∧ (0x81 : Word).extractLsb' 32 32 = 0#32 ∧ (demo.strand w0).raft = none ∧
      (let cores := (twoCores demo).raftCores 0 0x81
       (cores = [0, 7] ∧ physicalMask cores = 0x81 ∧ (∀ c ∈ cores, (twoCores demo).inCrew 0 c = true) ∧
         (twoCores demo).otherMask cores 0x81 = false ∧ (twoCores demo).waitsRaft ⟨7, 0⟩ 0x81 = false ∧
         (waitingRaft 0x81).waitsRaft ⟨7, 0⟩ 0x81 = true ∧ (waitingRaft 0x81).otherMask cores 0x81 = false ∧
         (waitingRaft 0x83).otherMask cores 0x81 = true))) :=
  ⟨⟨demo_calm.toSettled, by decide +kernel⟩,
    ⟨settled_of (by decide +kernel), by decide +kernel, by decide +kernel, settled_of (by decide +kernel), by decide +kernel⟩,
    ⟨settled_of (by decide +kernel), _, rfl, rfl, Or.inl (by decide)⟩,
    ⟨settled_of (by decide +kernel), by decide +kernel, by decide +kernel, settled_of (by decide +kernel), by decide +kernel, heldStream_busy⟩,
    by decide +kernel, by decide +kernel⟩

/-- A barrier of the core's two strands, where context 1 waits already with mask 3. -/
def openBarrier : Barrier := ⟨3, [w0], [⟨⟨0, 1⟩, 4, false⟩]⟩
def barred (c : Crew) : State := demo.setCrew 0 { c with barriers := [(15, openBarrier)] }

theorem witness_BarrierForms :
    (Settled (barred placeCrew) ∧ ((barred placeCrew).core 0).crew = some 0 ∧
      (let fields (a : Word) : Prop := a.extractLsb' 12 4 = 0#4 ∧ a.extractLsb' 20 44 = 0#44
       fields 0xF0003 ∧ ¬fields 0xF1003 ∧ ¬fields 0x100003) ∧
      barrierKey 0 (barrierUnit 0 0) 15 = 15 ∧ ((2 : BitVec 12).getLsbD 0 = false) ∧ ((3 : BitVec 12).getLsbD 0 = true) ∧
      FMap.find (barred placeCrew).crews 0 = some { placeCrew with barriers := [(15, openBarrier)] } ∧
      openBarrier.mask ≠ 1 ∧ openBarrier.mask = 3 ∧ (openBarrier.awaited.filter (· != w0) = []) ∧
      ((demo.participants (placeCrew.barrierCores 0 0) 1).filter (· != w0) = []) ∧ placeCrew.det = false ∧ detCrew.det = true) ∧
    (15 / 16 / 65536 = 0 ∧ barrierKey 3 0 15 / 16 / 65536 = 3 ∧ (∀ e ∈ openBarrier.arrived, e.phase = false) ∧ (openBarrier.arrived.map fun e => StrandId.key e.who).Nodup ∧
      ⟨⟨0, 1⟩, 4, false⟩ ∈ openBarrier.arrived) := ⟨⟨settled_of (by decide +kernel), by decide +kernel⟩, by decide +kernel⟩

/-- A rival of a tournament, with a round of 1,000 instructions. -/
def rivalCrew : Crew := { detCrew with rival := some 255, rule := 1, allowance := some 1000 }
def rivalry : State := detDemo.setCrew 0 rivalCrew
/-- A berth record at 0 of the own local store: valid, class 1, 64 bytes at 0x400000; and one of an unaligned base. -/
def record (low : Byte) : State := [(0, low), (2, 0x40), (7, 0x80), (8, 0x40), (15, 0x10)].foldl (fun s (e : Nat × Byte) => s.homeWrite (2 ^ 60 + e.1) e.2) detDemo

theorem witness_DeterminismForms :
    (Settled demo ∧ (demo.crewOf 0 = some placeCrew ∧ placeCrew.det = false)) ∧
    (Settled detDemo ∧ detDemo.crewOf 0 = some detCrew ∧ detCrew.det = true ∧ detCrew.rival = none ∧ (detDemo.core 0).crew = some 0 ∧
      (at' detDemo ⟨0, 11⟩).cur.ctx ≠ 0 ∧ FMap.find detCrew.barriers (barrierKey 3 0 15) = none ∧
      (let clash : Crew := { detCrew with barriers := [(barrierKey 3 0 15, openBarrier)] }
       FMap.find clash.barriers (barrierKey 3 0 15) = some openBarrier ∧ openBarrier.mask ≠ 1)) ∧
    (detDemo.ownBuffer 0 (detDemo.rs 10) 16 16 = none ∧ detDemo.ownBuffer 0 (detDemo.rs 1) 16 16 = some (.store 0 0 true) ∧
      (let parts (s : State) : Nat × Nat × Nat × Nat × Nat × Nat :=
        let v : Nat := s.viewNat w0 (.store 0 0 true) 16
        (v % 2 ^ 52, v / 2 ^ 64 % 2 ^ 40, v / 2 ^ 124, v / 2 ^ 52 % 2 ^ 11, v / 2 ^ 104 % 2 ^ 6, v / 2 ^ 63 % 2)
       parts (record 0) = (0x400000, 64, 1, 0, 0, 1) ∧ (parts (record 1)).1 % 64 ≠ 0 ∧ (parts detDemo).2.2.2.2.2 = 0 ∧
       (31 : Nat) < 32 ∧ (detDemo.strand w0).det = true)) ∧
    (Settled rivalry ∧ rivalry.crewOf 0 = some rivalCrew ∧ rivalCrew.rival = some 255 ∧ rivalry.aliveCount rivalCrew < 512 ∧
      (1000 - (rivalry.core 0).round = 1000 ∧ (1000 : Nat) < 2 ^ 32) ∧ rivalCrew.rows.length < 2 ^ 16) :=
  ⟨⟨demo_calm.toSettled, by decide +kernel⟩, ⟨detDemo_calm.toSettled, by decide +kernel⟩, by decide +kernel,
    ⟨settled_of (by decide +kernel), by decide +kernel⟩⟩

/-- The only strand of a deterministic crew is parked until the quantum ends. -/
def parked : State := detDemo.onStrand w0 fun t => { t with wait := .parked .sync }
/-- A transfer whose source page the host owns. -/
def waitingServe : State := ({ detDemo with sides := [(0x40, (true, 0))] } : State).homeWrite 0x104017 0x44 |>.onCore 0 fun c => { c with slots := [(0, someTransfer)] }
theorem witness_QuantumEnds :
    (FMap.find detDemo.crews 1 = none ∧ FMap.find detDemo.crews 0 = some detCrew ∧ detDemo.quantumDue 0 detCrew = false ∧
      FMap.find parked.crews 0 = some detCrew ∧ parked.quantumDue 0 detCrew = true ∧ placeCrew.det = false) ∧
    ({ detCrew with held := true }.held = true ∧ { detCrew with stopping := true }.stopping = true ∧ detCrew.rival = none ∧
      { detCrew with serving := some (0, 0) }.serving = some (0, 0) ∧ waitingServe.mustWait 0 0 = true) ∧
    (0 ∈ detCrew.cores ∧ detDemo.mayIssue 0 detCrew = true ∧ detDemo.turnHolder 0 = some 0 ∧ (detDemo.strand ⟨0, 0⟩).wait = .free ∧
      (detDemo.strand ⟨0, 0⟩).raft = none) ∧
    (let r (w : StrandId) (i n : Nat) : ReqItem := ⟨w, 0, i, n, .finish 0⟩
     [r w0 0 0, r ⟨0, 11⟩ 0 1, r ⟨7, 0⟩ 7 2].Pairwise fun a b => a.index < b.index ∨ (a.index = b.index ∧ a.who.ctx ≤ b.who.ctx)) ∧
    (detCrew.cores.Nodup ∧ (parked.strand ⟨0, 0⟩).wait = .parked .sync) ∧
    ((2 : Nat) < 3 ∧ (3 : Nat) < 9 ∧ FMap.find [(64, (1 : Byte))] 64 ≠ none ∧ detCrew.wake = [] ∧
      FMap.getD ({ detCrew with direct := [(64, [2, 3])] } : Crew).direct 64 [] = [2, 3]) ∧
    ((1 : BitVec 2).getLsbD 0 = true ∧ (Fmt.f32.decode (lowNat 0x3F800000)).isNaN = false ∧ (Fmt.f32.decode (lowNat 0x7FC00000)).isNaN = true) := by
  decide +kernel

/-- The same strand at another level. -/
def atLevel (pl : BitVec 2) (s : State) : State := s.onStrand w0 fun t => { t with pl := pl }
def chainWork (who : List (StrandId × BitVec 8)) : State := demo.setRow 0 { Row.reset with work := [{ joinedMma with who := who }], joined := 1 }

theorem witness_SystemRegisters : Settled demo ∧ (demo.strand w0).pl = 0 ∧ Settled (atLevel 2 demo) ∧ ((atLevel 2 demo).strand w0).pl = 2 ∧
    (let cls (n : BitVec 12) : Nat := (n.extractLsb' 8 2).toNat
     cls 0xE02 = 2 ∧ cls 0x302 = 3 ∧ cls 0x100 = 1 ∧ cls 0x000 = 0 ∧ cls 0x501 = 1) ∧
    demo.uncharged w0 = false ∧ (chainWork [(w0, (demo.strand w0).gen)]).uncharged w0 = true ∧ demo.crewOf 0 = some placeCrew ∧ detDemo.crewOf 0 = some detCrew ∧
    (0 : Nat) < 65536 ∧ clusterOf 31 = clusterOf 0 ∧ clusterOf 32 ≠ clusterOf 0 ∧ demo.launches = [] :=
  ⟨demo_calm.toSettled, by decide +kernel, settled_of (by decide +kernel), by decide +kernel⟩

/-- A trap table at 0x410000 with an entry for user level, and an entry of firmware. -/
def handled (s : State) : State :=
  let s1 := ({ s with fwEntry := 0x430000 }).setDie 0 { s.die 0 with trapBase := 0x410000 }
  s1.homeWrite 0x410002 0x42
def debuggedCrew : Crew := { placeCrew with debugger := true }
def upcalling : State := demo.onStrand w0 fun t => { t with upcall := 0x400101 }
def pageTrap : Trap := trapAt 6 2 0x480000 false

/-- The registers that a trap's entry saves and a request is to write, and the first and the last line of a frame. -/
def savedRegs (s : State) : List Reg := ([12#4, 13#4, 14#4, 15#4].filter fun n => (s.strand w0).requests (.s n)).map .s
def frameKeys (s : State) (v : Nat) : List Nat := [(dieLoc w0 (s.frameAddr w0 v)).key, (dieLoc w0 (s.frameAddr w0 v)).key + 64]
/-- A deterministic strand whose first request will write s13. -/
def asking : State :=
  ((handled detDemo).setCrew 0 { detCrew with snapshot := (handled detDemo).mem }).onStrand w0 fun t => { t with requested := [(13, 0)] }

/-- The state behind the read of the entry address of a level. -/
def enteredAt (s : State) (v : Nat) : State := ({ s with trapped := true } : State).entryRead w0 v
/-- The same crew as a rival, running or finished. -/
def rival (done : Bool) : State := demo.setCrew 0 { placeCrew with rival := some 1, finished := if done then some none else none }
/-- A frame of user level whose last doubleword fails its check code, and an s14 that does. -/
def spoilt : State := { handled demo with failing := [(0x411078, ⟨3, 8, 0⟩)] }
def spoiltReg : State := (handled demo).onStrand w0 fun t => { t with fails := [(granS 14, 1)] }

theorem witness_TrapEntry :
    (((handled demo).strand w0).pend = [] ∧ ((handled demo).strand w0).stepping = none ∧ ((handled demo).strand w0).pl.toNat = 0 ∧
      (enteredAt (handled demo) 0).entryOf w0 0 ≠ 0 ∧ (enteredAt (handled demo) 1).entryOf w0 1 ≠ 0 ∧
      (enteredAt (handled demo) 0).entryFail w0 0 = none ∧ (enteredAt (handled demo) 1).entryFail w0 1 = none ∧ ((atLevel 1 (handled demo)).strand w0).pl.toNat = 1 ∧
      ((handled demo).core 0).crew ≠ none ∧ (trapOf 15 6).hostOwned = false ∧ (trapOf 15 6).cls ≠ 0 ∧ (handled demo).debugged 0 = false ∧
      savedRegs (handled demo) = [] ∧ (enteredAt (handled demo) 0).wakeRoom w0 (frameKeys (handled demo) 0) = true) ∧
    ((enteredAt spoilt 0).entryOf w0 0 ≠ 0 ∧ ((enteredAt spoilt 0).entryFail w0 0).isSome = true ∧
      ((enteredAt spoiltReg 0).entryFail w0 0).isSome = true ∧ (handled demo).failing = [] ∧ ((handled demo).strand w0).fails = []) ∧
    ((asking.strand w0).pend = [] ∧ (enteredAt asking 0).entryOf w0 0 ≠ 0 ∧ savedRegs asking ≠ [] ∧
      (∀ i, i < 10 → ∀ j, j < 8 → (Loc.dev 0x400040).key + 7 ≠ (dieLoc w0 ((handled demo).frameAddr w0 0 + 8 * i)).key + j)) ∧
    ((255 : Nat) < 256 ∧ (65535 : Nat) < 65536 ∧ (15 : Nat) < 16) ∧
    ((demo.core 0).crew = some 0 ∧ FMap.find demo.crews 0 = some placeCrew ∧ placeCrew.rival = none ∧ (demo.strand w0).pl = 0 ∧
      (enteredAt demo 0).entryOf w0 0 = 0 ∧ (demo.die (dieOf 0)).trapBase = 0 ∧ ((atLevel 1 demo).strand w0).pl = 1 ∧
      (enteredAt demo 1).entryOf w0 1 = 0 ∧ FMap.find (rival false).crews 0 = some { placeCrew with rival := some 1, finished := none } ∧
      FMap.find (rival true).crews 0 = some { placeCrew with rival := some 1, finished := some none } ∧
      ((atLevel 2 demo).strand w0).pl = 2 ∧ (trapOf 15 5).code = 5 ∧ (trapOf 0 1).cls = 0) ∧
    (pageTrap.hostOwned = true ∧ (detDemo.strand w0).det = true ∧ (demo.strand w0).det = false ∧ w0.ctx ≤ 10 ∧
      (upcalling.strand w0).upcall.getLsbD 0 = true) ∧
    (FMap.find (demo.setCrew 0 debuggedCrew).crews 0 = some debuggedCrew ∧ debuggedCrew.debugger = true ∧ (trapOf 18 1).hostOwned = false ∧
      (demo.strand w0).live = true ∧ 0 ∈ debuggedCrew.cores) := by decide +kernel

theorem handled_crewOf (s : State) (c : Nat) : (handled s).crewOf c = s.crewOf c := rfl
theorem handled_core (s : State) (c : Nat) : (handled s).core c = s.core c := rfl
theorem handled_trapBase (s : State) : ((handled s).die 0).trapBase = 0x410000 := by
  simp only [handled, State.homeWrite, State.die, State.setDie, FMap.getD_put_self]
theorem handled_frameKeys (s : State) : frameKeys (handled s) 0 = [0x411000, 0x411040] := by
  simp only [frameKeys, State.frameAddr, show dieOf w0.core = 0 from rfl, handled_trapBase]
  decide
theorem trapped_crewOf (s : State) (c : Nat) : ({ s with trapped := true } : State).crewOf c = s.crewOf c := rfl
theorem trapped_core (s : State) (c : Nat) : ({ s with trapped := true } : State).core c = s.core c := rfl
theorem lineless_entered : enteredAt (handled lineless) 0 = { handled lineless with trapped := true } := by
  have hd : ({ handled lineless with trapped := true } : State).coreDet w0.core = true :=
    show (match (handled lineless).crewOf 0 with | some c => c.det | none => false) = true by
      rw [handled_crewOf, lineless_crew]; rfl
  simp only [enteredAt, State.entryRead, State.devRead, State.viewRead, hd, if_true, ite_self]
theorem witness_TrapEntry_noRoom : (enteredAt (handled lineless) 0).wakeRoom w0 (frameKeys (handled lineless) 0) = false := by
  rw [handled_frameKeys, lineless_entered]
  exact wakeRoom_full ((trapped_crewOf _ _).trans ((handled_crewOf _ _).trans lineless_crew))
    ((congrArg _ ((trapped_core _ _).trans (handled_core _ _))).trans lineless_index) (by decide) (by decide) (by decide)

/-- The strand in pass 63 at position 15 of a repeat frame. -/
def framedDemo (s : State) : State := s.onStrand w0 fun t => { t with frame := some ⟨0x400000, 15, 63, 1, 1, 1, 63, 15⟩ }
theorem witness_EntryThenReturn :
    (let s := framedDemo (handled demo)
     (s.strand w0).pend = [] ∧ (s.strand w0).stepping = none ∧ (s.strand w0).pl.toNat = 0 ∧ (enteredAt s 0).entryOf w0 0 ≠ 0 ∧
     (enteredAt s 0).entryFail w0 0 = none ∧
     ((s.core 0).crew ≠ none ∧ (trapOf 12 1).hostOwned = false ∧ (trapOf 12 1).cls ≠ 0 ∧ s.debugged 0 = false) ∧
     (∀ n : BitVec 4, (s.strand w0).requests (.s n) = false) ∧ (enteredAt s 0).wakeRoom w0 (frameKeys s 0) = true ∧ (63 : Nat) < 64 ∧ (15 : Nat) < 16 ∧
     (s.strand w0).frame = some ⟨0x400000, 15, 63, 1, 1, 1, 63, 15⟩ ∧ (trapOf 12 1).resume = false ∧ (s.strand w0).pc.getLsbD 0 = false) ∧
    ((handled demo).strand w0).frame = none := by decide +kernel

/-- Context 11 of core 0 serves an upcall of context 0. -/
def serving : State := { (demo.onStrand ⟨0, 11⟩ fun t => { t with live := true, upcallFor := some 0, pl := 0, s := (demo.strand w0).s }) with cur := ⟨0, 11⟩ }
def debuggedDemo : State := demo.setCrew 0 debuggedCrew
def signalled (n : Nat) : State := debuggedDemo.setDie 0 { demo.die 0 with signals := List.replicate n (0, 0, 0) }

theorem witness_SystemForms :
    (Settled demo ∧ (demo.strand w0).pl ≠ 2 ∧ (demo.strand w0).pl ≠ 1 ∧ Settled (atLevel 1 demo) ∧ ((atLevel 1 demo).strand w0).pl = 1 ∧
      Settled (atLevel 2 demo) ∧ ((atLevel 2 demo).strand w0).pl = 2 ∧ (demo.strand w0).upcallFor = none) ∧
    (Settled serving ∧ (serving.strand serving.cur).upcallFor = some 0 ∧ serving.cur.ctx = 11) ∧
    (passes (serving.reachImage serving.cur .write 0x400200) = true ∧ passes (serving.reachImage serving.cur .write 0x400201) = false ∧
      passes (serving.reachImage serving.cur .read 0x400400) = true ∧ passes (serving.reachImage serving.cur .read 0x600000) = false) ∧
    ((let bad (s : State) (v : Nat) : Option Trap :=
        s.failedRead w0 .read (BitVec.ofNat 64 (dieLoc w0 (s.frameAddr w0 v)).key) (dieLoc w0 (s.frameAddr w0 v)) 80
      bad (atLevel 1 demo) 0 = none ∧ bad (atLevel 2 demo) 1 = none ∧ demo.failing = [] ∧
      (bad { atLevel 1 (handled demo) with failing := [(0x411000, ⟨3, 8, 0⟩)] } 0).isSome = true) ∧
      (serving.strand w0).pend = [] ∧ ((serving.onStrand w0 fun t => { t with pend := [⟨.s 3, 5, fullMask, some 9⟩] }).strand w0).pend ≠ [] ∧
      failingOf ((serving.deliverAll w0).strand w0).fails 0 160 (fun _ => true) = none ∧ serving.rs 0 = 0 ∧ serving.rs 8 ≠ 0 ∧
      (failingOf (((serving.onStrand w0 fun t => { t with fails := [(granF 7, 1)] }).deliverAll w0).strand w0).fails 0 160 fun _ => true) = some (granF 7, 1)) ∧
    ((handled demo).devWord w0 0 = 0 ∧ ((handled demo).devRead w0 0 80).devWord w0 0 = 0) ∧
    (demo.debugged 0 = false ∧ Settled (signalled 256) ∧ (signalled 256).debugged 0 = true ∧ 256 ≤ ((signalled 256).die 0).signals.length ∧
      Settled (signalled 255) ∧ (signalled 255).debugged 0 = true ∧ ((signalled 255).die 0).signals.length < 256) :=
  ⟨⟨demo_calm.toSettled, by decide +kernel, by decide +kernel, settled_of (by decide +kernel), by decide +kernel,
      settled_of (by decide +kernel), by decide +kernel⟩,
    ⟨settled_of (by decide +kernel), by decide +kernel⟩, by decide +kernel, by decide +kernel, by decide +kernel,
    by decide +kernel, settled_of (by decide +kernel), by decide +kernel, by decide +kernel, settled_of (by decide +kernel), by decide +kernel⟩

/-- A result for s3 in flight, due at a slot or of variable latency; a branch that the slipway runs ahead of. -/
def inFlight (due : Option Nat) : Pending := ⟨.s 3, 5, fullMask, due⟩
def flyingDemo (due : Option Nat) (chk : Bool) : State := demoWith fun t => { t with pend := [inFlight due], chk := chk, slot := 7 }
def heldAt (taken : Bool) : State := demoWith fun t => { t with branch := some ⟨0, 0, 0, taken, 0x400008⟩, slipway := [⟨0x400004, [0, 0]⟩] }

/-- Lanes of v3 in flight, due far behind, under chk. -/
def laneFlying (mask : VReg) : State := demoWith fun t => { t with pend := [⟨.v 3, 0, mask, some 100⟩], chk := true }
theorem witness_ResultTiming_lanes :
    (let o : V2 := ⟨none, 0, 0, 4, 0, 3, 2, 0⟩
     let x : Issue := ⟨0, [.p 0], [(3, false), (4, false)], some 2, false, [], wholly⟩
     let s := laneFlying 255
     (s.strand w0).pend = [⟨.v o.a, 0, 255, some 100⟩] ∧ (s.strand w0).requested = [] ∧ (s.strand w0).wait = .free ∧ (s.strand w0).chk = true ∧
     (s.strand w0).frame = none ∧ (s.strand w0).fails = [] ∧ (s.core 0).fails = [] ∧ (s.core 0).streams = Vector.replicate 4 none ∧ [o.d, o.a, o.b].all (s.owns w0) = true ∧
     s.issueSlot x < 100 ∧ (255 : VReg) &&& activeMask (s.rp 0) 4 ≠ 0) ∧
    ((255 : VReg) &&& activeMask ((laneFlying 255).rp 1) 4 = 0 ∧ (laneFlying 255).rp 1 = 0) ∧
    (demo.ready w0 = true ∧ (11 : Nat) < 12 ∧ (11 : Nat) ≠ w0.ctx ∧ (demo.strand w0).paid < ((demoWith fun t => { t with conf := 256 }).strand w0).conf) := by
  decide +kernel

theorem witness_ResultTiming :
    ((((flyingDemo (some 7) true).strand w0).pend = [inFlight (some 7)] ∧ ((flyingDemo (some 7) true).strand w0).slot = 7 ∧
      ((flyingDemo (some 7) true).strand w0).requested = [] ∧ ((flyingDemo (some 7) true).strand w0).wait = .free ∧
      ((flyingDemo (some 7) true).strand w0).fails = [] ∧ ((flyingDemo (some 7) true).core 0).fails = [] ∧
      FMap.rising (flyingDemo (some 7) true).strands = true) ∧
      ((flyingDemo (some 8) false).strand w0).slot < 8 ∧ ((flyingDemo (some 8) false).strand w0).chk = false ∧
      ((flyingDemo (some 8) true).strand w0).chk = true ∧ (inFlight (some 8)).reg ∈ (plain 0 [Reg.s 3]).srcs ∧
      ((flyingDemo none false).strand w0).pend = [inFlight none] ∧ (inFlight none).due = none) ∧
    (Reg.discards (.s 0) = true ∧ Reg.discards (.s 15) = false ∧ (demo.strand w0).requested = [] ∧ (demo.strand w0).pend = [] ∧
      demo.lag = false ∧ ({ demo with lag := true } : State).lag = true) ∧
    ((29 : BitVec 5).toNat < 30 ∧ ((29 : BitVec 5), true) ∈ [((29 : BitVec 5), true)] ∧ ∀ e ∈ (demo.strand w0).obuf, e.2 ≤ 2) ∧
    ((demo.strand w0).branch = none ∧ ((heldAt true).strand w0).branch = some ⟨0, 0, 0, true, 0x400008⟩ ∧
      branchTaken 0 (((heldAt true).strand w0).getS 0) (((heldAt true).strand w0).getS 0) = true ∧
      ((heldAt false).strand w0).branch = some ⟨0, 0, 0, false, 0x400008⟩ ∧ ((heldAt true).strand w0).pend = []) := by
  decide +kernel

/-- Halfwords in memory at the strand's pc, from the word behind its first on. -/
def codeAt (s : State) (a : Nat) (hs : List (BitVec 16)) : State :=
  (hs.flatMap fun (h : BitVec 16) => [h.setWidth 8, (h >>> 8).setWidth 8]).zipIdx.foldl (fun s (e : Byte × Nat) => s.homeWrite (a + e.2) e.1) s

/-- Bodies of one instruction: vadd v2, v3, v4, a jump, and vadd v2, v3, v29. -/
def bodyOf (i : Instr) : State := codeAt demo 0x400004 (encode i)
def bodyFine : State := bodyOf (.vadd ⟨none, 0, 0, 4, 0, 3, 2, 0⟩)
def bodyJump : State := bodyOf (.jl ⟨15, 8, 0⟩)
def bodyHigh : State := bodyOf (.vadd ⟨none, 0, 0, 29, 0, 3, 2, 0⟩)
def farDemo : State := demoWith fun t => { t with pc := 0x5FFFFC }
def heldBuffer (s : State) : State := s.onStrand ⟨0, 1⟩ fun t => { t with live := true, frame := some ⟨0x400000, 0, 1, 0, 0, 0, 0, 0⟩ }
def bodyHalves (s : State) : List (List (BitVec 16)) := match s.fetchBody w0 1 0x400004 with | .ok hss => hss | .error _ => []
def frameOf (cnt : Nat) : Frame := ⟨0x400004, 0, cnt, 1, 1, 1, 0, 0⟩
def inContent (s : State) : Bool := (bodyHalves s).length == 1 && (bodyHalves s).all bodyContent
def inRange (s : State) (cnt : Nat) : Bool :=
  (bodyHalves s).all fun hs => (bodyFields (frameOf cnt) hs).all fun e => decide (e.1 + cnt * e.2.1 ≤ e.2.2)

theorem witness_RepeatForms :
    (Settled bodyFine ∧ inContent bodyFine = true ∧ inRange bodyFine 25 = true ∧ inRange bodyFine 26 = false ∧
      bodyFine.bufferHeld w0 = false ∧ (heldBuffer bodyFine).bufferHeld w0 = true) ∧
    (Settled bodyJump ∧ inContent bodyJump = false ∧ Settled bodyHigh ∧ inContent bodyHigh = true ∧ inRange bodyHigh 1 = false) ∧
    (Settled farDemo ∧ (match farDemo.fetchBody w0 1 0x600000 with | .error e => e.1 == 0x600000 | .ok _ => false) = true) ∧
    ((demo.strand w0).frame = none ∧ (framedDemo demo).strand w0 = { demo.strand w0 with frame := some ⟨0x400000, 15, 63, 1, 1, 1, 63, 15⟩ }) ∧
    ((29 : BitVec 5).toNat < 30 ∧ (29 : BitVec 5).toNat + 0 < 30 ∧ 30 ≤ (31 : BitVec 5).toNat ∧ 8 ≤ (8 : BitVec 4).toNat ∧
      (8 : BitVec 4).toNat + 7 < 16 ∧ (7 : BitVec 4).toNat < 8) :=
  ⟨⟨settled_of (by decide +kernel), by decide +kernel⟩,
    ⟨settled_of (by decide +kernel), by decide +kernel, settled_of (by decide +kernel), by decide +kernel⟩,
    ⟨settled_of (by decide +kernel), by decide +kernel⟩, by decide +kernel, by decide +kernel⟩

/-- The instruction addi s1, s1, -1 at the strand's pc; a breakpoint on it; a reserved word; a page without code. -/
def running : State := codeAt demo 0x400000 (encode (.addi ⟨1, 1, 0xFFF, 0⟩))
def broken : State := running.onStrand w0 fun t => { t with ib := t.ib.set 3 0x8000000000400000 }
def shownAt (s : State) : State := (s.settled' 0).noteIssue w0
def issues (s : State) : Bool :=
  s.agenda.isEmpty && !s.dead && (s.activeCore == some 0) && (s.nextStrand 0 == some w0) && !s.atExit w0 && !(shownAt s).atExit w0 &&
    ((shownAt s).strand w0).raft.isNone

theorem witness_StepRunsDecoded :
    (issues running = true ∧ (match (shownAt running).fetchInstr w0 0x400000 with
        | .halves hs => hs == encode (.addi ⟨1, 1, 0xFFF, 0⟩) && (decode hs == .ok (.addi ⟨1, 1, 0xFFF, 0⟩) 2) | _ => false) = true ∧
      breakHit ((shownAt running).strand w0) = [] ∧ ((shownAt running).strand w0).frame = none) ∧
    (issues (framedDemo running) = true ∧ ((shownAt (framedDemo running)).strand w0).frame.isSome = true) ∧
    (issues demo = true ∧ (match (shownAt demo).fetchInstr w0 0x400000 with
        | .halves hs => (match decode hs with | .reject _ => true | _ => false) | _ => false) = true) ∧
    (let u := demoWith fun t => { t with pc := 0x600000 }
     issues u = true ∧ (match (shownAt u).fetchInstr w0 0x600000 with | .bad va _ => va == 0x600000 | _ => false) = true) ∧
    (issues broken = true ∧ breakHit ((shownAt broken).strand w0) = [3]) ∧
    (let u := demoWith fun t => { t with pc := 0x600000, ib := t.ib.set 0 0x8000000000600000 }
     issues u = true ∧ breakHit ((shownAt u).strand w0) = [0] ∧
       (match (shownAt u).fetchInstr w0 0x600000 with | .bad va _ => va == 0x600000 | _ => false) = true) ∧
    ((Move.event .wallTick).survives = false ∧ ({ demo with agenda := [.event .wallTick] } : State).agenda = .event .wallTick :: [] ∧
      demo.powered = true ∧ demo.dead = false ∧ ({ demo with dead := true } : State).agenda = [] ∧
      ({ demo with agenda := [.preempt 0] } : State).agenda = .preempt 0 :: [] ∧ ({ demo with agenda := [.lost 0] } : State).agenda = .lost 0 :: []) := by
  decide +kernel

/-- Messages in transit to core 0: two of one flow, with handler 1. A handler table at 0x410000 whose handler 1 starts at 0x420000 with three registers. -/
def transitMsg : Message := msg 1
def inTransit (s : State) : State := { s with transit := [transitMsg, transitMsg] }
def peerBound (p : List Posted) : State := { demo with transit := [{ transitMsg with toDev := some 3 }], posted := p }
def tabled : State :=
  ((demo.setCrew 0 { placeCrew with htab := 0x410000 }).homeWrite 0x410012 0x42).homeWrite 0x410018 3
def landed (s : State) : State := s.onCore 0 fun c => { c with lanes := #v[[], [], [], [msg (1 ||| (((s.strand w0).gen).setWidth 512 <<< 28))]] }
def laneFull : State := (inTransit demo).onCore 0 fun c => { c with lanes := c.lanes.set 0 (List.replicate 16 transitMsg) }

def peerMessage (r : Option (BitVec 4)) : PeerMessage := ⟨3, 1, 0, none, r⟩
theorem witness_MessageEvents_peer : (peerMessage (some 2)).diverted = some 2 ∧ (peerMessage none).diverted = none ∧
    (let busy : State := { demo with transit := [fromPeer (peerMessage none)] }
     (busy.transit.any fun x => busy.sameFlow x (fromPeer (peerMessage none))) = true) ∧
    (demo.transit.any fun x => demo.sameFlow x (fromPeer (peerMessage none))) = false := by decide +kernel

theorem witness_MessageEvents :
    (demo.transit[0]? = none ∧ (inTransit demo).transit[1]? = some transitMsg ∧
      (((inTransit demo).transit.take 1).any fun x => (inTransit demo).sameFlow x transitMsg) = true ∧
      (((inTransit demo).transit.take 0).any fun x => (inTransit demo).sameFlow x transitMsg) = false ∧ (inTransit demo).innerDet transitMsg = false) ∧
    ((inTransit demo).relocate transitMsg.crew transitMsg.dest = 0 ∧ ((inTransit demo).core 0).crew = some 0 ∧
      hdrHandler transitMsg.bits ≠ 0xFFF ∧ transitMsg.notice = none ∧ transitMsg.toDev = none ∧ 16 ≤ ((laneFull.core 0).lane 0).length ∧
      (((inTransit demo).core 0).lane 0).length < 16 ∧ ∀ e ∈ ((inTransit demo).cluster 0).matching, e.2.crew ≠ 0) ∧
    ((peerBound []).transit[0]? = some { transitMsg with toDev := some 3 } ∧
      (((peerBound []).transit.take 0).any fun x => (peerBound []).sameFlow x { transitMsg with toDev := some 3 }) = false ∧
      (peerBound []).senderPosted { transitMsg with toDev := some 3 } = false ∧
      (peerBound [⟨w0, 0⟩]).senderPosted { transitMsg with toDev := some 3 } = true) ∧
    (detDemo.coreDet 0 = true ∧ demo.coreDet 0 = false ∧ ({ placeCrew with held := true }.held = true ∧ (demo.setCrew 0 { placeCrew with held := true }).heldCore 0 = true) ∧ demo.heldCore 0 = false ∧
      (demo.core 0).topCandidate = none) ∧
    (let m := msg (1 ||| (((tabled.strand w0).gen).setWidth 512 <<< 28))
     ((landed tabled).core 0).topCandidate = some (3, 0, m) ∧ (landed tabled).stale 0 m = false ∧ (landed tabled).heldCore 0 = false ∧
     ((landed tabled).handler 0 (hdrHandler m.bits)) = ⟨0x420000, 3, false⟩ ∧ serviceOf 0x420000 = none ∧
     (landed tabled).freeContext 0 = some 1 ∧ freeRun ((landed tabled).grants 0) 0 = some 0) ∧
    ((∀ e ∈ detDemo.crews, e.2.det = true) ∧ (0 : Nat) ≠ 7 ∧ (3 : Nat) < 4 ∧ ((laneFull.core 0).lane 0).length ≤ 16) := by
  decide +kernel

def bootImage : BootImage := ⟨[1], [0x410000], 0, 0, 0x430001, []⟩
theorem witness_ResetEvents :
    (State.reset.powered = true ∧ ({ State.reset with powered := false } : State).powered = false ∧ State.reset.boot = .rom ∧ Memory.wf demo.mem = true ∧
      ({ demo with boot := .running } : State).boot ≠ .rom) ∧
    (({ demo with wallTide := 2 ^ 46 - 1 } : State).wallTide - demo.swept).toNat < 2 ^ 46 ∧
    (2 ^ 46 ≤ (({ demo with wallTide := 2 ^ 46 } : State).wallTide - demo.swept).toNat ∧ demo.regions = []) ∧ (3 : Nat) < 4 := by decide +kernel

/-- A signature is valid or not: one of the two cases of the firmware image holds. -/
theorem witness_ResetEvents_signature : State.reset.boot = .rom ∧
    (Config.signatureValid bootImage.bytes (sha256 bootImage.bytes) = true ∨
      Config.signatureValid bootImage.bytes (sha256 bootImage.bytes) = false) := by
  refine ⟨rfl, ?_⟩
  cases Config.signatureValid bootImage.bytes (sha256 bootImage.bytes) <;> simp

def fw (s : State) : State := { s with boot := .running }
def hotDie (s : State) : State := s.setDie 0 { s.die 0 with hot := some false }
def cluster3 (x : Cluster) : State := demo.setCluster 3 x

theorem witness_IntegrityEvents :
    (demo.frozen = false ∧ ({ demo with frozen := true } : State).frozen = true ∧ (fw demo).boot = .running ∧ ¬demo.boot = .running) ∧
    (FMap.find (cluster3 { Cluster.reset with share := some 4, spent := 5 }).clusters 3 = some { Cluster.reset with share := some 4, spent := 5 } ∧
      (3 : Nat) / 512 = 0 ∧ (3 : Nat) / 512 ≠ 1 ∧ (4 : Nat) < 5 ∧ (5 : Nat) ≤ 5) ∧
    ((2800 : Nat) ≤ 2800 ∧ (2800 : Nat) < 2801) ∧
    (((cluster3 { Cluster.reset with failed := (true, false) }).cluster 3).failed.1 = true ∧
      ((cluster3 { Cluster.reset with failed := (true, false) }).cluster 3).failed.2 = false) ∧
    ((demo.die 0).hot = none ∧ ((hotDie demo).die 0).hot.isSome = true) ∧
    ((demo.setDie 0 { demo.die 0 with errors := (0, 64) }).die 0).errors.1 = demo.wallTide.toNat / 20312500 ∧
    ((handled demo).firmwareByte 0x410000 = true ∧ (handled demo).firmwareByte (0x410000 + 48 * 2 ^ 20 + 4095) = true ∧
      (handled demo).firmwareByte (0x410000 + 48 * 2 ^ 20 + 4096) = false ∧ (2 : BitVec 8) ≠ 3) ∧
    (demo.crewOf 0 = some placeCrew) ∧ ((3 : Nat) < 4 ∧ (4095 : Nat) < 4096 ∧ (127 : Nat) ≤ 127 ∧ (127 : Nat) < 128 ∧ (4 : Nat) ≤ 4) := by
  decide +kernel
/-- Cluster 0 reads a temperature; cluster 0's sensor has failed among none or all of its neighbours'. -/
def reading (x : Int) (failed : Bool × Bool) : Cluster := { Cluster.reset with sensors := (⟨x, 0, 0⟩, Sensor.reset), failed := failed }
def heated (x : Int) : State := demo.setCluster 0 (reading x (false, false))
def alone : State := (0 :: neighbours 0).foldl (fun s k => s.setCluster k (reading 0 (true, true))) demo
theorem demo_temperature (k : Nat) : demo.temperature k = 0 := by
  have h : demo.clusters = [(0, demo.cluster 0)] := by decide +kernel
  have hk : demo.cluster k = if 0 = k then demo.cluster 0 else Cluster.reset := by
    rw [show demo.cluster k = FMap.getD demo.clusters k Cluster.reset from rfl, h, FMap.getD, FMap.find]
    split <;> rfl
  have h0 : (demo.cluster 0).failed = (false, false) ∧ (demo.cluster 0).sensors.1.reading = 0 := by decide +kernel
  simp only [State.temperature, hk]
  split <;> simp [h0, Cluster.reset, Sensor.reset]

theorem witness_IntegrityEvents_sensors :
    ((((heated 0).cluster 0).hasFailed false = false ∧ (heated 150001).deviant 0 false = true ∧ (heated (-40001)).deviant 0 false = true) ∧
      (reading 0 (true, false)).failed.1 = true) ∧
    ((alone.cluster 0).failed.1 = true ∧ (alone.around 0 false).length < 2 ∧
      (let one := demo.setCluster 0 (reading 0 (true, false)); (one.cluster 0).failed.1 = true ∧ 2 ≤ (one.around 0 false).length)) ∧
    ((demo.die 0).hot = none ∧ (0 / 512 = 0 ∧ ((heated 105001).cluster 0).failed.1 = false ∧ 105000 < (heated 105001).temperature 0) ∧
      ¬∃ k, k / 512 = 0 ∧ (demo.cluster k).failed.1 = true ∧ 105000 < demo.temperature k) ∧
    (((hotDie demo).die 0).hot = some false ∧ (∀ k, k / 512 = 0 → demo.temperature k < 100000) ∧ ¬(heated 100000).temperature 0 < 100000) :=
  ⟨by decide +kernel, by decide +kernel, ⟨by decide +kernel, by decide +kernel, fun ⟨k, _, _, h⟩ => by rw [demo_temperature] at h; omega⟩,
    ⟨by decide +kernel, fun k _ => by rw [demo_temperature]; omega, by decide +kernel⟩⟩
theorem witness_IntegrityEvents_working : alone.deviant 0 false = false := by
  rw [State.deviant, show alone.around 0 false = [] from by decide +kernel, show medianOf [] = none from by simp [medianOf]]
  decide +kernel

/-- Bytes that fail: one granule of 32. -/
def granule : FMap Failing := [(0x400040, ⟨3, 32, 0⟩)]
theorem witness_IntegrityEvents_failing :
    (({ demo with failing := granule } : State).failing = [(0x400040, ⟨3, 32, 0⟩)] ∧ (0 : Nat) < 32 ∧ (List.replicate 31 (0 : Byte)).length < 32 ∧
      (List.replicate 32 (0 : Byte)).length = 32) ∧
    (demo.frozen = false ∧ (let s := cluster3 { Cluster.reset with share := some 4, spent := 5 }
      ((s.windowAt 3 9).cluster 3).throttle ≠ (s.cluster 3).throttle)) ∧
    ((4 : BitVec 8) ≠ 1 ∧ (4 : BitVec 8) ≠ 2 ∧ (4 : BitVec 8) ≠ 3 ∧ demo.firmwareByte 0x400040 = false) := by decide +kernel
theorem witness_IntegrityEvents_maps : demo.mapsOk := ⟨by decide +kernel, by decide +kernel, by decide +kernel, by decide +kernel⟩

def savedJob : Saved := ⟨placeCrew, [], [], [], [], [], [], [], [], [], [], [], []⟩
def savedWith (rows : List Nat) : State := { demo with saved := [(7, { savedJob with crew := { placeCrew with rows := rows } })] }

/-- A stream of die 0 in the address space of `demo`, a launch of it, and launch messages: a legal one and one that is too short. -/
def aStream (q : List Nat) (dbg : Bool) : Stream := ⟨0, 0, 0x100000, [], [], [], q, dbg, Vector.replicate 4 0, Vector.replicate 2 0⟩
def aLaunch (next retired : Nat) (valid : Bool) (status : Option Nat) (deps : List Nat) : Launch :=
  ⟨0, 5, valid, 0x400000, 2, 1, 1, 1, false, none, 0, 0, 0, 0, 0, 0, 0, deps, List.replicate 8 7, next, retired, 0, status, [], 0, 0⟩
def streamed (q : List Nat) (dbg : Bool) : State := { demo with streams := [(5, aStream q dbg)] }
def launched (l : Launch) : State := { streamed [9] false with launches := [(9, l)], events := [(9, none), (10, some 2)] }
def launchBits (len : Nat) : MsgBits := BitVec.ofNat 512 (len * 2 ^ 38 + 0x400040 * 2 ^ 64 + 5 * 2 ^ 128)
def serviced : State := demo.setDie 0 { demo.die 0 with launches := #v[[], [], [], [msg (launchBits 40)]] }
def liveless (s : State) : State := s.onStrand w0 fun t => { t with live := false }

theorem witness_DispatchEvents :
    (nextService (demo.die 0).launches = none ∧ nextService (serviced.die 0).launches = some (msg (launchBits 40), Vector.replicate 4 [])) ∧
    ((hdrLen (launchBits 39)).toNat < 40 ∧ (streamed [] false).streamAt 0 5 = some (aStream [] false) ∧ demo.streamAt 0 5 = none ∧
      ((streamed [] false).enqueue 0 (launchBits 40)).2 = (0, 0) ∧ ((streamed [] false).enqueue 0 (launchBits 39)).2.2 ≠ 0) ∧
    (findPlacement [0, 1, 2] 0 1 = some [3] ∧ findPlacement [0, 1] 0 2 = some [2, 3] ∧ (findPlacement [2047] 0 64).isSome = true ∧ (64 : Nat) ≤ 64) ∧
    ((aLaunch 0 0 true none []).args.length = 8 ∧ demo.streams = [] ∧ demo.saved = []) ∧
    ((64 : Nat) ≤ ((launchBits 40 + BitVec.ofNat 512 (59 * 2 ^ 128)).extractLsb' 128 8).toNat ∧ (launchBits 40 + BitVec.ofNat 512 (2 ^ 136)).extractLsb' 136 56 ≠ 0#56 ∧
      (∀ e ∈ (savedWith [0]).saved, dieOf (e.2.crew.rows.headD 0 * 8) ≠ 3) ∧ (aStream [] true).debugger = true ∧ (aStream [] true).queue = []) ∧
    (FMap.find demo.crews 1 = none ∧ FMap.find demo.crews 0 = some placeCrew ∧ demo.jobDone placeCrew = false ∧
      (liveless demo).jobDone placeCrew = true ∧ 0 ∈ placeCrew.cores ∧ (demo.strand ⟨0, 0⟩).live = true) ∧
    (demo.headOf 0 5 = none ∧
      (let s := launched (aLaunch 2 1 true none [])
       s.headOf 0 5 = some (9, aLaunch 2 1 true none []) ∧ s.finalStatus (aLaunch 2 1 true none []) = none ∧
       s.finalStatus (aLaunch 2 2 true none []) = some 0 ∧ (aLaunch 2 2 true none []).frame.length ≤ 128 ∧
       s.launchReady (aLaunch 0 0 true none [9]) = false ∧ s.launchReady (aLaunch 0 0 true none [10]) = true ∧
       s.launchSkipped (aLaunch 0 0 true none [10]) = true)) ∧
    ((fw demo).boot = .running ∧ ¬demo.boot = .running ∧ (aStream [9] false).queue ≠ [] ∧ (aStream [] false).queue = [] ∧
      (fw (launched (aLaunch 0 0 true none []))).streamAt 0 5 = some (aStream [9] false)) ∧
    (let bad (die first count : Nat) : Bool := decide
        (4 ≤ die ∨ count = 0 ∨ 256 < count ∨ first < die * 16384 ∨ (die + 1) * 16384 < first + count ∨ 0xFFFF < first + count)
     bad 0 16128 256 = false ∧ bad 0 16129 256 = true ∧ bad 3 65279 256 = false ∧ bad 3 65280 256 = true ∧
     FMap.find (launched (aLaunch 0 0 true none [])).events 10 = some (some 2) ∧
     FMap.find (launched (aLaunch 0 0 true none [])).events 9 = some none) := by decide +kernel

/-- The page of `demo` as it waits at the host, and as a frame that flipped less than 325 ticks ago. -/
def awayPage : State := (demo.homeWrite 0x104017 0x44)
def recent : State := { awayPage with sides := (frames (awayPage.entryAt 0x104010) 21).map fun f => (f, (true, 0)) }
/-- A strand at system level in the handler of a system call with a number; the frame is the die's. -/
def calling (pl : BitVec 2) (v number : Nat) : State :=
  let s1 := handled (atLevel pl demo)
  let f := s1.frameAddr w0 v
  (((s1.homeWrite (f + 7) 17).homeWrite (f + 40) (BitVec.ofNat 8 number)).homeWrite (f + 41) (BitVec.ofNat 8 (number / 256))).onStrand w0 fun t =>
    { t with s := #v[0, 0x400000, 16, 0xFFFF, 0, 0, 0, 0, 0, 0, 0, 0, 0, 0, 0, 0] }
def regioned (n : Nat) (r : Region) : State := { calling 1 0 0x010 with regions := List.replicate n r }
def theRegion : Region := (calling 1 0 0x010).regionOf w0
def upcalled (ctx : Nat) : State := demo.onCore 0 fun c => { c with upcalls := [⟨ctx, 0x480000, 6, 2, 1⟩] }
def crowdedDie : State := { savedWith [0] with crews := (List.range 512).map fun k => (k, { placeCrew with rows := [4 * k] }) }

theorem witness_FerryEvents :
    ((demo.core 0).upcalls = [] ∧ (demo.onStrand ⟨0, 11⟩ fun t => { t with live := true }).strand ⟨0, 11⟩ = { Strand.reset with live := true } ∧
      ((upcalled 10).core 0).upcalls = [⟨10, 0x480000, 6, 2, 1⟩] ∧ ((upcalled 10).strand ⟨0, 11⟩).live = false) ∧
    (demo.entryAddr 0x480000 levels 0x100000 = some (0x104010, 21) ∧ awayPage.entryAddr 0x480000 levels 0x100000 = some (0x104010, 21) ∧
      pteValid (demo.entryAt 0x104010) = true ∧ (pteValid (awayPage.entryAt 0x104010) = false ∧ pteFerry (awayPage.entryAt 0x104010) = true ∧
        awayPage.settled (frames (awayPage.entryAt 0x104010) 21) = true ∧ awayPage.flips = []) ∧
      recent.settled (frames (awayPage.entryAt 0x104010) 21) = false) ∧
    (FMap.rising (demo.cluster 0).cache = true ∧ (64 * 5 + 63) / 64 = 5 ∧ (64 * 5 + 64) / 64 ≠ 5) := by decide +kernel

theorem witness_FerryEvents_calls :
    (demo.inCall w0 0 0x010 = false ∧ (calling 1 0 0x010).inCall w0 0 0x010 = true ∧ 1024 ≤ (regioned 1024 theRegion).regions.length ∧
      (regioned 1 theRegion).regions.length < 1024 ∧ theRegion.ok = true ∧ (calling 1 0 0x010).regionsMeet theRegion theRegion = true ∧
      (calling 1 0 0x010).regionsMeet theRegion { theRegion with base := theRegion.base + 16 } = false ∧
      { theRegion with len := 0 }.ok = false ∧ (calling 1 0 0x010).regions = []) ∧
    (demo.inCall w0 0 0x011 = false ∧ (calling 1 0 0x011).inCall w0 0 0x011 = true ∧ (regioned 1 theRegion).regions = [theRegion] ∧
      (calling 1 0 0x011).sameBase theRegion theRegion = true ∧ (calling 1 0 0x011).sameBase { theRegion with root := 1 } theRegion = false) ∧
    (demo.inCall w0 1 0x800 = false ∧ (calling 2 1 0x800).inCall w0 1 0x800 = true ∧ (calling 2 1 0x801).inCall w0 1 0x801 = true ∧
      (calling 2 1 0x802).inCall w0 1 0x802 = true ∧ (calling 2 1 0x802).crews = [(0, placeCrew)] ∧
      placeCrew.cores.head? = some 0 ∧ (∀ e ∈ (calling 2 1 0x802).crews, e.2.cores.head? ≠ some 0x400000)) := by decide +kernel

/-- A request of core 0 for the page at 0x480000, and a line of replicated memory. -/
def flipAsk : FlipReq := ⟨w0, 0, 0x480000, 1, 2, 0, true⟩
def asked : State := { awayPage with flips := [flipAsk] }
def repLine (rep : Bool) : State := caching [(5, { lineOf 1 with rep := rep })]
theorem witness_FerryEvents_flip :
    (asked.entryAddr 0x480000 levels 0x100000 = some (0x104010, 21) ∧ asked.asksFor 0x100000 0x480000 21 flipAsk = true ∧
      asked.coreDet flipAsk.who.core = false ∧ FMap.find asked.saved flipAsk.crew = none ∧ asked.flips = [flipAsk] ∧
      asked.settled (frames (asked.entryAt 0x104010) 21) = true) ∧
    (let e := demo.entryAt 0x104010
     pteValid e = true ∧ pteLeaf e = true ∧ pteTgt e = 0 ∧ demo.settled (frames e 21) = true ∧ (∀ x ∈ demo.crews, x.2.det = false)) ∧
    (FMap.find ((repLine true).cluster 0).cache 5 = some { lineOf 1 with rep := true } ∧ { lineOf 1 with rep := true }.rep = true ∧
      FMap.find ((repLine false).cluster 0).cache 5 = some { lineOf 1 with rep := false }) := by decide +kernel

/-- Core 0 of a crew that a pre-emption stops: at rest, as its strand is not live, or not yet, inside a pass of a repeat frame. -/
def stoppingCrew : Crew := { placeCrew with stopping := true }
theorem witness_FerryEvents_stop :
    (let s := liveless (demo.setCrew 0 stoppingCrew)
     FMap.find s.crews 0 = some stoppingCrew ∧ (∀ x ∈ stoppingCrew.cores, s.coreAtRest stoppingCrew x = true) ∧
       ∀ r ∈ stoppingCrew.rows, (s.row r).work = []) ∧
    ((framedDemo (demo.setCrew 0 stoppingCrew)).coreAtRest stoppingCrew 0 = false ∧ 0 ∈ stoppingCrew.cores) ∧ placeCrew.stopping = false := by decide +kernel

def savedOf (rows : List Nat) : Saved := { savedJob with crew := { placeCrew with rows := rows } }
theorem witness_FerryEvents_rebind : FMap.find demo.saved 7 = none ∧ FMap.find (savedWith [0]).saved 7 = some (savedOf [0]) ∧
    (savedWith [0]).newRows (savedOf [0]) = some [1] ∧ (savedWith [0]).unitsFree (savedOf [0]) [1] = true := by decide +kernel
theorem crowdedDie_rows (c : Nat) (h : c < 512) : 4 * c ∈ crowdedDie.busyRows := by
  have e : (c, { placeCrew with rows := [4 * c] }) ∈ crowdedDie.crews := by
    simp only [crowdedDie, List.mem_map, List.mem_range]
    exact ⟨c, h, rfl⟩
  refine List.mem_flatMap.2 ⟨_, e, ?_⟩
  exact List.mem_singleton.2 rfl
theorem newRows_fresh (s : State) (v : Saved) (h : FMap.find s.launches v.crew.launch = none) :
    s.newRows v = findPlacement s.busyRows (dieOf (v.crew.rows.headD 0 * 8)) v.crew.rows.length := by simp [State.newRows, h]
theorem witness_FerryEvents_noRows : crowdedDie.newRows (savedOf [0, 1, 2, 3]) = none := by
  rw [newRows_fresh _ _ (by decide +kernel), show dieOf ((savedOf [0, 1, 2, 3]).crew.rows.headD 0 * 8) = 0 from by decide,
    show (savedOf [0, 1, 2, 3]).crew.rows.length = 4 from rfl, findPlacement, if_pos (by decide), List.findSome?_eq_none_iff]
  intro c hc
  have hm := crowdedDie_rows c (List.mem_range.1 hc)
  simp only [Option.map_eq_none_iff, List.find?_eq_none]
  intro r hr
  have hr0 : r = 0 := by have := List.mem_range.1 hr; omega
  subst hr0
  simp only [List.all_eq_true, not_forall]
  exact ⟨0, List.mem_range.2 (by decide), by simpa [Nat.mul_comm] using hm⟩

def haltedDemo (f : Strand → Strand) : State := debuggedDemo.onStrand w0 fun t => f { t with halted := true }
theorem witness_DebugEvents :
    (demo.streamAt 0 5 = none ∧ (streamed [] false).streamAt 0 5 = some (aStream [] false) ∧ (∃ e ∈ (streamed [] true).streams, e.2.debugger = true) ∧
      (∀ e ∈ (streamed [] false).streams, e.2.debugger = false) ∧ (aStream [] false).debugger = false ∧ (aStream [] true).debugger = true) ∧
    ((demo.core 0).crew = some 0 ∧ FMap.find demo.crews 0 = some placeCrew ∧ placeCrew.debugger = false ∧
      FMap.find debuggedDemo.crews 0 = some debuggedCrew ∧ debuggedCrew.debugger = true ∧ (demo.core 99).crew = none) ∧
    (((haltedDemo id).strand w0).stepping = none ∧ ¬(((haltedDemo fun t => { t with stepping := some 0 }).strand w0).halted = true ∧
        ((haltedDemo fun t => { t with stepping := some 0 }).strand w0).stepping = none) ∧
      ((haltedDemo fun t => { t with hold := 1 }).strand w0).hold ≠ 0 ∧ (demo.strand ⟨0, 1⟩).live = false ∧
      ((4 : BitVec 8) = 3 ∨ (4 : BitVec 8) = 4 ∨ 6 ≤ (4 : BitVec 8).toNat) ∧ (6 ≤ (6 : BitVec 8).toNat) ∧
      ((demo.debugPut w0 82 [1, 0, 0, 0, 0, 0, 0, 0]).map fun u => (u.strand w0).pc) = some 0) ∧
    ((demo.strand w0).halted = false ∧ ((haltedDemo id).strand w0).live = true ∧ ((haltedDemo id).strand w0).halted = true ∧
      (haltedDemo id).crewOf 0 = some debuggedCrew ∧ ((haltedDemo id).strand w0).raft = none ∧ (haltedDemo id).coreDet 0 = false) ∧
    ((4096 : Nat) ≤ 4096 ∧ (4096 : Nat) < 4097 ∧ sysAssigned ((0xF00 : Word).setWidth 12) = true ∧ (0xF00 : Word).toNat < 4096) ∧
    ((demo.strand w0).stepping = none ∧ (let u := haltedDemo fun t => { t with stepping := some 0, stepped := true }
      (u.strand w0).stepping = some 0 ∧ (u.strand w0).stepped = true ∧ (u.strand w0).pl.toNat ≤ (0 : BitVec 2).toNat ∧ (u.strand w0).wait = .free ∧
      (0 : BitVec 2).toNat < ((u.onStrand w0 fun t => { t with pl := 1 }).strand w0).pl.toNat)) ∧
    ((6 : Nat) ≤ 6 ∧ (5 : Nat) < 6 ∧ (streamed [] true).streamAt 0 5 = some (aStream [] true) ∧ demo.crewOf 0 = some placeCrew ∧
      placeCrew.stream = streamKey 0 0) := by decide +kernel

/-- A group of this device and device 63, and an instance to which both contributed one 4-byte integer. -/
def part (dev op : Nat) (data : Option (List Byte)) : Part := ⟨dev, op, 2, 4, data, none, none⟩
def aGroup (ps : FMap (List Part)) : Group := ⟨0x8000000000000001, 63, [], ps⟩
def grouped (ps : FMap (List Part)) : State := { demo with groups := [(63, aGroup ps)], domain := some ⟨0, [0, 63], []⟩ }
def twoParts : List Part := [part 63 0 (some [1, 0, 0, 0]), part 0 0 (some [2, 0, 0, 0])]
/-- A part of a pre-empted job, and a peer's contribution. -/
def awayParts : List Part := [{ part 0 0 none with crew := some 7 }]
def peerPart (dev : Nat) : PeerPart := ⟨dev, 63, 0, 2, 4, none⟩
theorem witness_PeerEvents_parts : (awayParts.any (savedWith [0]).awayPart) = true ∧ (twoParts.any (grouped []).awayPart) = false ∧
    (aGroup [(0, awayParts)]).pending = [(0, awayParts)] ∧ (peerPart 0).dev = (grouped []).ownDev ∧ (peerPart 63).dev ≠ (grouped []).ownDev ∧
    (FMap.find (grouped []).groups 63).isSome = true ∧ FMap.find (grouped []).groups 62 = none ∧ (∀ r ∈ [(63, 17)], r.2 < 18) ∧
    ¬(∀ r ∈ [((63 : Nat), (18 : Nat))], r.2 < 18) := by decide +kernel
def contributed : State := demo.setDie 0 { demo.die 0 with collectives := #v[[msg 0], [], [], []] }
def hostOwned : State := { demo with sides := [(0x48, (true, 0))] }

theorem witness_PeerEvents :
    ((fw demo).boot = .running ∧ ¬demo.boot = .running ∧
      (let fine (dev : Nat) (members : List Nat) : Bool := decide (dev < 64 ∧ members.Nodup ∧ ∀ m ∈ members, m < 64)
       fine 63 [0, 63] = true ∧ fine 64 [] = false ∧ fine 0 [1, 1] = false ∧ fine 0 [64] = false) ∧
      (let fine (group : Nat) (members : BitVec 64) (lead : Nat) : Bool :=
         decide (group < 64 ∧ lead < 64 ∧ members.getLsbD lead = true)
       fine 63 0x8000000000000000 63 = true ∧ fine 64 1 0 = false ∧ fine 0 1 1 = false)) ∧
    (FMap.find (grouped []).groups 63 = some (aGroup []) ∧ FMap.find demo.groups 63 = none ∧ (aGroup []).pending = []) ∧
    (nextService (demo.die 0).collectives = none ∧ nextService (contributed.die 0).collectives = some (msg 0, Vector.replicate 4 []) ∧
      (grouped []).ownDev = 0 ∧ (63 : Nat) ≠ (grouped []).ownDev) ∧
    ((aGroup []).mask.getLsbD (part 62 0 none).dev = false ∧ (aGroup []).mask.getLsbD (part 63 0 none).dev = true) ∧
    ((aGroup []).complete [] = false ∧ (aGroup []).complete twoParts = true ∧ (∀ p ∈ twoParts, p.local' = none) ∧
      FMap.find (grouped [(0, twoParts)]).groups 63 = some (aGroup [(0, twoParts)]) ∧
      (∀ e ∈ (aGroup [(0, [part 0 0 none])]).pending, (aGroup [(0, [part 0 0 none])]).complete e.2 = false)) ∧
    (collOk (part 0 7 none) = false ∧ collOk (part 0 6 none) = true ∧ (0 : Nat) < 63 ∧ (part 0 0 none).op ≠ 6) ∧
    (let host (acc : ExtAccess) : Bool := decide (2 ^ 62 ≤ (accessSpan acc).1 ∧ (accessSpan acc).1 + (accessSpan acc).2 ≤ 2 ^ 63)
     accessOk (.load 0 4097) = false ∧ accessOk (.load (2 ^ 63 - 4096) 4096) = true ∧ host (.load (2 ^ 63 - 4096) 4096) = true ∧
     host (.load (2 ^ 63 - 4095) 4096) = false ∧ 2 ^ 52 < (2 ^ 63 - 4095) + 4096 ∧ accessOk (.store 0x48FFFF [1]) = true ∧
     (∀ f ∈ framesOf 0x48FFFF 1, hostOwned.hostOwns f = true) ∧ ¬(∀ f ∈ framesOf 0x48FFFF 2, hostOwned.hostOwns f = true) ∧
     (grouped []).domain = some ⟨0, [0, 63], []⟩ ∧ 63 ∈ [0, 63]) := by decide +kernel

theorem witness_DecodeEncode : (Instr.addi ⟨15, 15, 0xFFF, 3⟩).wf = true ∧ encode (.addi ⟨15, 15, 0xFFF, 3⟩) ≠ [] ∧
    decode (encode (.addi ⟨15, 15, 0xFFF, 3⟩)) = .ok (.addi ⟨15, 15, 0xFFF, 3⟩) 2 := by decide +kernel

theorem witness_MemoryCanonicalKept : Memory.wf demo.mem = true ∧ (match step demo with | .next _ => true | _ => false) = true :=
  by decide +kernel

/-! ### Further clauses of the statements -/

theorem oneLine_only (e : Nat) (x : CacheLine) (h : FMap.find (oneLine.cluster 0).cache e = some x) : e = 0x10001 ∧ x = lineOf 1 := by
  rw [show (oneLine.cluster 0).cache = [(0x10001, lineOf 1)] from by decide +kernel, FMap.find] at h
  split at h
  · rename_i he; exact ⟨(by simpa using he : (0x10001 : Nat) = e).symm, (Option.some.inj h).symm⟩
  · exact absurd h (by simp [FMap.find])

theorem lineOf_dirty (o : Nat) (h : (lineOf 1).dirty.getLsbD o = true) : o = 0 := by
  by_contra ho
  exact absurd h (by simp [lineOf, BitVec.getLsbD_one, ho])

/-- Bytes that go home and bytes that do not, in plain and in replicated memory. -/
theorem witness_AccessByteFrames_homes :
    ((lineOf 1).dirty.getLsbD 0 = true ∧ 0x400040 ∈ homeKeys (0x10001 * 64 + 0)) ∧
    (∀ e o x, FMap.find (oneLine.cluster 0).cache e = some x → o < 64 → x.dirty.getLsbD o = true → 0x400041 ∉ homeKeys (e * 64 + o)) ∧
    (repKey 0x400040 = false ∧ repKey (2 ^ 59 + 0x400040) = true ∧ repKey (2 ^ 59 - 1) = false ∧ repKey (2 ^ 60 - 1) = true ∧ repKey (2 ^ 60) = false) :=
  ⟨by decide +kernel, fun e o x h _ hd => by
    obtain ⟨rfl, rfl⟩ := oneLine_only e x h
    rw [lineOf_dirty o hd]; decide +kernel, by decide +kernel⟩

theorem witness_VectorMemoryBytes_rows :
    let c : Chunk := ⟨0, 0x400040, 0x400040, 8, 0, [0], true, true⟩
    let key : Nat := readKey (dieOf 0) ((Loc.dev 0x400040).key + 0)
    0 ∈ c.act ∧ (∀ k ∈ c.act, (Loc.dev 0x400040).key + 7 ≠ (Loc.dev 0x400040).key + k ∧ (Loc.dev 0x400040).key + 7 ∉ homeKeys ((Loc.dev 0x400040).key + k)) ∧
    (∀ e o x, FMap.find (oneLine.cluster 0).cache e = some x → o < 64 → x.dirty.getLsbD o = true →
      key ∈ homeKeys (e * 64 + o) → e * 64 + o = (Loc.dev 0x400040).key + 0 ∧ (Loc.dev 0x400040).cached ≠ none) :=
  ⟨by decide +kernel, by decide +kernel, fun e o x h _ hd _ => by
    obtain ⟨rfl, rfl⟩ := oneLine_only e x h
    rw [lineOf_dirty o hd]; decide +kernel⟩

/-- A value within range, one that rounds to zero, and one that rounds past the largest finite value. -/
theorem witness_RoundingRules_inRange :
    ((0 : Nat) < 3 ∧ FVal.log2 (.fin false 3 0) ≤ 127) ∧
    ((0 : Nat) < 1 ∧ FVal.log2 (.fin true 1 (-400)) ≤ 127 ∧ roundMag .near true 1 (-149 - -400 : Int).toNat = 0) ∧
    ((0 : Nat) < 2 ^ 25 - 1 ∧ FVal.log2 (.fin false (2 ^ 25 - 1) 103) ≤ 127 ∧ roundMag .near false (2 ^ 25 - 1) 1 = 2 ^ 24) := by decide +kernel

theorem witness_BlockScalesAndWeir_codes :
    ((∃ x ∈ [FVal.nan], x = .nan ∨ ∃ b, x = .inf b) ∧ (∀ x ∈ [FVal.zero true], ∃ b, x = .zero b)) ∧
    ((∀ x ∈ [FVal.zero false, .fin true 3 1], (∃ g, x = .zero g) ∨ ∃ g n i, x = .fin g n i ∧ i + (Nat.log2 n : Int) ≤ 1 + (Nat.log2 3 : Int)) ∧
      FVal.fin true 3 1 ∈ [FVal.zero false, .fin true 3 1]) :=
  ⟨⟨⟨_, List.mem_singleton.2 rfl, .inl rfl⟩, fun x h => ⟨true, List.mem_singleton.1 h⟩⟩,
    fun x h => by
      rcases List.mem_cons.1 h with rfl | h
      · exact .inl ⟨_, rfl⟩
      · exact .inr ⟨true, 3, 1, List.mem_singleton.1 h, Int.le_refl _⟩, by decide⟩

/-- Sound bytes, bytes that fail their check code, and a strand with a posted write. -/
theorem witness_AtomicForms_homes :
    (demo.toHome 0 (.dev 0x400040) 8).homeFail 0 (.dev 0x400040) 8 = none ∧
    (Calm failed ∧ (failed.toHome 0 (.dev 0x400040) 8).homeFail 0 (.dev 0x400040) 8 = some 3 ∧ ∀ p ∈ failed.posted, p.who ≠ w0) ∧
    (let posting : State := { demo with posted := [⟨w0, 0⟩] }
     Calm posting ∧ (2 : BitVec 2).getLsbD 1 = true ∧ 4 ≤ (4 : BitVec 3).toNat ∧ (∃ p ∈ posting.posted, p.who = w0) ∧
       posting.berthRefused w0 0x400040 = none ∧ (posting.checked w0 .rmw 0x400040 8) = .at (.dev 0x400040)) :=
  ⟨by decide +kernel, ⟨calm_of (by decide +kernel), by decide +kernel⟩, calm_of (by decide +kernel), by decide, by decide,
    ⟨_, List.mem_singleton.2 rfl, rfl⟩, by decide +kernel⟩

theorem witness_StreamRegisters_masks : (0 : VReg) = 0 ∧ fullMask ≠ 0 := ⟨rfl, by decide +kernel⟩

theorem witness_QuantumEnds_held : detDemo.passHeld { detCrew with stopping := true } = false ∧
    (framedDemo parked).passHeld { detCrew with stopping := true } = true := by decide +kernel

/-- A trap whose frame no replicated line and no line of another strand can change. -/
theorem witness_TrapEntry_views : (handled detDemo).apart 0 ∧ (handled detDemo).readsOwn w0 0x410078 8 ∧
    (handled oneLine).apart 0 ∧ (handled oneLine).readsOwn w0 0x400080 80 := by
  have hc : ((handled oneLine).cluster 0).cache = (oneLine.cluster 0).cache := by decide +kernel
  refine ⟨.inl (by decide +kernel), .inl (by decide +kernel), .inr fun e l h _ => ?_, .inr fun k l hk h => ?_⟩
  · obtain ⟨rfl, -⟩ := oneLine_only e l (hc ▸ h); decide +kernel
  · obtain ⟨he, -⟩ := oneLine_only _ l (hc ▸ h); omega

/-- A strand that waits for a late result, and a delivery that comes while nothing conflicts. -/
theorem witness_ResultTiming_late :
    (let late := (flyingDemo none false).onStrand w0 fun t => { t with wait := .retry (.results [.s 3]) }
     (late.strand w0).wait = .retry (.results [.s 3]) ∧ (late.strand w0).pend = [⟨.s 3, 5, fullMask, none⟩] ∧ Reg.s 3 ∈ [Reg.s 3] ∧ late.coreDet 0 = false ∧
       (late.strand w0).unissued = true) ∧
    ((inFlight none).reg ∉ (plain 0 [Reg.s 4]).srcs ∧ (demo.strand w0).unissued = false ∧ (demo.strand w0).conf = 0) ∧
    ((demoWith fun t => { t with conf := 256 }).strand w0).unissued = false := by decide +kernel

/-- A returned message whose job is there, and one whose job is gone; a message of core 0 that is no launch, and a launch behind one in core 7's lane. -/
def launchHandled : State := ((tabled.homeWrite 0x410011 0xF0 |>.homeWrite 0x410012 0xFF |>.homeWrite 0x410013 0xFF |>.homeWrite 0x410014 0xFF |>.homeWrite 0x410015 0xFF
  |>.homeWrite 0x410016 0x0F).onCore 7 fun c => { c with crew := some 0, lanes := c.lanes.set 0 [{ transitMsg with dest := 7 }] })
theorem witness_MessageEvents_more :
    (transitMsg.diverted = none ∧ (inTransit demo).launchWaits 0 transitMsg = false ∧ launchHandled.launchWaits 0 transitMsg = true) ∧
    (let back (n : Nat) : Message := { fromPeer { peerMessage (some 2) with bits := BitVec.ofNat 512 (n * 2 ^ 48) } with srcDev := none }
     demo.returned (peerMessage (some 2)) = none ∧ (demo.core (demo.senderCore (back 0))).crew = some 0 ∧
       (demo.core (demo.senderCore (back 99))).crew = none) ∧
    (let m := msg (1 ||| (((tabled.strand w0).gen).setWidth 512 <<< 28))
     (((landed tabled).handlerRead 0 (hdrHandler m.bits)).handler 0 (hdrHandler m.bits)) = ⟨0x420000, 3, false⟩) := by decide +kernel

/-- A cluster in which a row waits, one of another die, and one that the state lists no part of. -/
theorem witness_IntegrityEvents_active :
    (∃ e ∈ (({ demo with rows := [(12, Row.reset)] } : State)).rows, e.1 / 4 = 3) ∧ FMap.find ({ demo with rows := [(12, Row.reset)] } : State).clusters 3 = none ∧
    (FMap.find demo.clusters 4 = none ∧ ¬∃ e ∈ ({ demo with rows := [(12, Row.reset)] } : State).rows, e.1 / 4 = 4) ∧
    ∀ k, k < 32 → repKey (0x400040 + k) = false := by decide +kernel

theorem witness_DispatchEvents_lanes :
    (let queued (n : Nat) : State := demo.setDie 0 { demo.die 0 with launches := #v[List.replicate n (msg 0), [], [], []] }
     16 ≤ ((((queued 16).die 0).launches[(hdrPrio (launchBits 40)).toNat]?).getD []).length ∧
       ((((queued 15).die 0).launches[(hdrPrio (launchBits 40)).toNat]?).getD []).length < 16) ∧
    ∀ j, j < 256 → repKey ((launched (aLaunch 2 2 true none [])).crbase.toNat + 9 * 256 + j) = false := by decide +kernel

/-- A row whose queued instruction holds a place in the page at 0x400000; a line dirty in part and one dirty in whole granules; units taken where a job would go back. -/
def holding : State := rowWith fun c => issueOf c (.mass 0 1 0 0x400000 0 []) none
theorem witness_FerryEvents_more :
    (holding.chained (fun _ _ l => decide (0x400000 ≤ l.key) && decide (l.key < 0x400000 + 2 ^ 21)) = true ∧
      demo.chained (fun _ _ _ => true) = false ∧ holding.crewOf 0 = some placeCrew ∧ (∀ k, k < 8 → repKey (0x104010 + k) = false)) ∧
    ((∃ g, g < 8 ∧ (lineOf 1).dirty.extractLsb' (8 * g) 8 ≠ 0#8 ∧ (lineOf 1).dirty.extractLsb' (8 * g) 8 ≠ 0xFF#8) ∧
      ¬∃ g, g < 8 ∧ (lineOf 0xFF00).dirty.extractLsb' (8 * g) 8 ≠ 0#8 ∧ (lineOf 0xFF00).dirty.extractLsb' (8 * g) 8 ≠ 0xFF#8) ∧
    ((∀ x ∈ (savedWith [0]).saved, x.2.crew.det = false) ∧ savedJob.trapFrames = [] ∧ savedJob.crew.det = false) ∧
    (let v : Saved := { savedOf [0] with rings := [[(15, emptyRing)]], matching := [[]] }
     let s : State := { ringWith emptyRing with saved := [(7, v)] }
     FMap.find s.saved 7 = some v ∧ s.newRows v = some [1] ∧ s.unitsFree v [1] = false) ∧
    (let s := liveless (demo.setCrew 0 stoppingCrew)
     (∀ x ∈ stoppingCrew.cores, (s.core x).slots = [])) := by decide +kernel

theorem witness_DebugEvents_still : (haltedDemo id).settles w0 = false ∧
    (framedDemo (haltedDemo fun t => { t with settling := true })).settles w0 = true := by decide +kernel

theorem witness_PeerEvents_spans :
    (let fine (acc : ExtAccess) : Bool := accessOk acc && (decide ((accessSpan acc).1 + (accessSpan acc).2 ≤ 2 ^ 54) ||
       decide (2 ^ 63 ≤ (accessSpan acc).1 ∧ (accessSpan acc).1 + (accessSpan acc).2 ≤ 2 ^ 63 + 64 * 2 ^ 52))
     fine (.load (2 ^ 54 - 8) 8) = true ∧ fine (.load (2 ^ 54 - 7) 8) = false ∧ fine (.load (2 ^ 63) 8) = true ∧
       fine (.load (2 ^ 63 - 1) 8) = false ∧ fine (.load (2 ^ 63 + 64 * 2 ^ 52 - 8) 8) = true ∧ fine (.load (2 ^ 63 + 64 * 2 ^ 52 - 7) 8) = false) ∧
    ∀ k, k < 8 → repKey (0x400040 + k) = false := by decide +kernel

/-- A diverted message that left for a peer device, and one that did not divert; a pre-empted job with one message on its way. -/
def lostOne : State := { demo with departed := [{ transitMsg with diverted := some 4 }, transitMsg] }
theorem witness_MessageEvents_lost :
    (demo.departed[0]? = none ∧ lostOne.departed[0]? = some { transitMsg with diverted := some 4 } ∧ lostOne.departed[1]? = some transitMsg ∧
      transitMsg.diverted = none ∧ demo.frozen = false ∧ (demo.die (dieOf transitMsg.dest)).lost ≠ BitVec.allOnes 32) ∧
    (savedJob.cores = [] ∧ { savedJob with transit := [transitMsg] }.sends transitMsg = false ∧ transitMsg.crew = some 0 ∧
      { savedJob with transit := [{ transitMsg with dest := 99 }] }.sends { transitMsg with dest := 99 } = true) := by decide +kernel

theorem witness_IntegrityEvents_registers :
    ((65535 : Nat) < 65536 ∧ (11 : Nat) < 12 ∧ (29 : BitVec 5).toNat < 30 ∧ (0x400040 : Nat) < 3 * 2 ^ 62) ∧
    (let s : State := demo.onStrand w0 fun t => { t with fails := [(60, 1)] }
     (15 : BitVec 4) ≠ 0 ∧ (s.strand w0).pend = [] ∧ (s.strand w0).requested = [] ∧ (s.strand w0).wait = .free ∧ (s.core 0).fails = [] ∧
       (s.strand w0).fails = [(4 * (15 : BitVec 4).toNat, 1)] ∧ (14 : BitVec 4) ≠ 15) ∧
    (∀ k, k < 32 → repKey (0x400040 + k) = false ∧ demo.outsideKey (0x400040 + k) = 0x400040 + k) := by decide +kernel

/-- A launch of one job of one row, ready at the head of a stream with a save area. -/
def readyLaunch : Launch := { aLaunch 0 0 true none [] with dimx := 1 }
def readyStream : Stream := { aStream [9] false with pool := [0x800000] }
def readyState : State := { demo with streams := [(5, readyStream)], launches := [(9, readyLaunch)] }
theorem witness_DispatchEvents_binds :
    (0 : Nat) < 4 ∧ (5 : Nat) < 64 ∧ readyState.saved = [] ∧ readyState.streams = [(0 * 64 + 5, readyStream)] ∧ readyStream.cls < 4 ∧
    readyStream.queue = [9] ∧ readyStream.pool ≠ [] ∧ FMap.find readyState.launches 9 = some readyLaunch ∧ readyLaunch.die = 0 ∧
    readyLaunch.stream = 5 ∧ readyLaunch.valid = true ∧ readyLaunch.status = none ∧ readyLaunch.cohort = none ∧ readyLaunch.rlog = 0 ∧
    readyLaunch.next = 0 ∧ readyLaunch.dimx * readyLaunch.dimy * readyLaunch.dimz = 1 ∧ readyState.launchReady readyLaunch = true ∧
    readyState.launchSkipped readyLaunch = false ∧ 1 ≤ readyLaunch.rows ∧ readyLaunch.rows ≤ 64 ∧
    findPlacement readyState.busyRows 0 readyLaunch.rows = some [1] ∧ (99 : Nat) ≠ readyState.jobs ∧
    ([1].flatMap fun r => (List.range 8).map fun p => r * 8 + p)[7]? = some 15 := by decide +kernel

/-- A core that holds a translation by a global entry. -/
def lent : State := demo.onCore 0 fun c => { c with dtlb := [⟨5, 1, 21, 0xC0000000004000F2⟩] }
theorem witness_FerryEvents_served :
    (placeCrew.asid = 0 ∧ placeCrew.asid ≠ 5 ∧ (∃ e ∈ lent.translations, pteGlobal e.entry = true ∧ e.maps 0x3FFFFF = true) ∧
      demo.translations = [] ∧ demo.walk 0x400000 levels 0x100000 = .leaf (demo.entryAt 0x104010) 21) ∧
    ((∀ e ∈ demo.crews, e.2.det = false) ∧ demo.saved = [] ∧ ∀ r ∈ placeCrew.rows, ∀ j ∈ (demo.row r).work, j.granted = true) ∧
    (∀ p ∈ (liveless (demo.setCrew 0 stoppingCrew)).posted, p.launch = 0 → p.who.core ∉ stoppingCrew.cores) ∧
    (∃ p ∈ ({ demo with posted := [⟨w0, 0⟩] } : State).posted, p.launch = placeCrew.launch ∧ p.who.core ∈ placeCrew.cores) := by decide +kernel

theorem witness_DebugEvents_put : (15 : BitVec 4) ≠ 0 ∧ (demo.debugPut w0 15 [1]).isSome = true := by decide +kernel

/-- The page of `demo` at 0x400000, replicated. -/
def repPage : State := demo.homeWrite 0x104017 0xE0
theorem witness_PeerEvents_replicated : State.reset.roots = [] ∧ repPage.outsideKey 0x400040 = 2 ^ 59 + 0x400040 ∧
    (homeKeys (2 ^ 59 + 0x400040)).length = 4 ∧ ∀ k, k < 8 → demo.outsideKey (0x400040 + k) = 0x400040 + k := by decide +kernel

/-! ### Single steps, with results that the specification prints or that follow from its tables -/

/-- The state after the instruction of a word, its results delivered. -/
noncomputable def ran (nbits w : Nat) (s : State) : State :=
  match decodeTableWord nbits w with
  | none => State.reset
  | some i => match exec i s with | .next t => t.deliverAll s.cur | _ => State.reset
def after (i : Instr) (s : State) : State := match exec i { s with ir := encode i } with | .next t => t.deliverAll s.cur | _ => State.reset

def withS (l : List (Nat × Word)) : State := demoWith fun t => l.foldl (fun t e => t.putS (BitVec.ofNat 4 e.1) e.2) t
def withF (l : List (Nat × Word)) (rm : BitVec 2) : State :=
  demoWith fun t => { l.foldl (fun t e => t.putF (BitVec.ofNat 3 e.1) e.2) t with rm := rm }
def withV (l : List (Nat × Nat)) : State := demo.onCore 0 fun c => l.foldl (fun c e => c.putV (BitVec.ofNat 5 e.1) (BitVec.ofNat 2048 e.2)) c
def sAt (s : State) (n : Nat) : Word := (s.strand w0).getS (BitVec.ofNat 4 n)
def fAt (s : State) (n : Nat) : Word := (s.strand w0).getF (BitVec.ofNat 3 n)
def vAt (s : State) (n : Nat) : Nat := ((s.core 0).getV (BitVec.ofNat 5 n)).toNat

/-- 04 R75: the 32-bit forms sign-extend; division rounds toward zero, and a divisor of 0 gives all ones and A. -/
theorem test_srl32 : sAt (after (.srl32 ⟨3, 1, 0, 0⟩) (withS [(1, 0x80000000)])) 3 = 0xFFFFFFFF80000000 := by decide +kernel
theorem test_div : sAt (after (.div ⟨3, 1, 2, 0⟩) (withS [(1, 0xFFFFFFFFFFFFFFF9), (2, 2)])) 3 = 0xFFFFFFFFFFFFFFFD ∧
    sAt (after (.rem ⟨3, 1, 2, 0⟩) (withS [(1, 0xFFFFFFFFFFFFFFF9), (2, 2)])) 3 = 0xFFFFFFFFFFFFFFFF := by decide +kernel
theorem test_div_corners : sAt (after (.divw ⟨3, 1, 0, 0⟩) (withS [(1, 7)])) 3 = 0xFFFFFFFFFFFFFFFF ∧
    sAt (after (.div ⟨3, 1, 2, 0⟩) (withS [(1, 0x8000000000000000), (2, 0xFFFFFFFFFFFFFFFF)])) 3 = 0x8000000000000000 ∧
    sAt (after (.rem ⟨3, 1, 2, 0⟩) (withS [(1, 0x8000000000000000), (2, 0xFFFFFFFFFFFFFFFF)])) 3 = 0 := by decide +kernel
/-- 04 R77: `lhi s5, 0x1234` is 0x0246_8505, and its pair with addi makes 0x1234_5678. -/
theorem test_lhi : sAt (ran 32 0x02468505 demo) 5 = 0x1234000 := by decide +kernel
theorem test_addi_pair : sAt (after (.addi ⟨5, 5, 0x678, 0⟩) (withS [(5, 0x12345000)])) 5 = 0x12345678 := by decide +kernel
/-- 04 R79: `jl ln, label`, 0x100 bytes ahead, is 0x0008_0F09; R80: `jlr.ret s0, ln, 0` is 0x0002_F00B. -/
theorem test_jl : let t := ran 32 0x00080F09 demo
    (t.strand w0).pc = 0x400100 ∧ sAt t 15 = 0x400004 := by decide +kernel
theorem test_jlr_ret : ((ran 32 0x0002F00B (withS [(15, 0x400041)])).strand w0).pc = 0x400040 := by decide +kernel
/-- 04 R86: `fmul.h16 f4, f5, f6` of 300 and 300 overflows: +inf to nearest, 65,504 toward zero. -/
theorem test_fmul_h16 : fAt (ran 32 0x04265415 (withF [(5, 0x5CB0), (6, 0x5CB0)] 0)) 4 = 0x7C00 ∧
    fAt (ran 32 0x04265415 (withF [(5, 0x5CB0), (6, 0x5CB0)] 1)) 4 = 0x7BFF := by decide +kernel
/-- 04 R88: `fcvti.w64.f32.sat s3, f1` is 0xD0D0_1315; −1.5 saturates to 0. -/
theorem test_fcvti : sAt (ran 32 0xD0D01315 (withF [(1, 0xBFC00000)] 0)) 3 = 0 := by decide +kernel
/-- 04 R88: 1 + 2^−8 is a tie in bf16. -/
theorem test_fcvt_tie : fAt (after (.fcvt ⟨2, 3, 2, 0, 0⟩) (withF [(3, 0x3F808000)] 0)) 2 = 0x3F80 ∧
    fAt (after (.fcvt ⟨2, 3, 2, 0, 0⟩) (withF [(3, 0x3F808000)] 2)) 2 = 0x3F81 := by decide +kernel
/-- 01 R27: a load past the grant returns 0 and is recorded; a store there is dropped. -/
def past : State := (granted.onCore 0 fun c => { c with spBase := 0x10, spLen := 0x20 }).onStrand w0 fun t => { t with pc := 0x401008, s := t.s.set 2 0xFFFFFFF220010 }
theorem test_offence : let t := after (.ldI32 ⟨4, 2, 0, 0⟩) past
    sAt t 4 = 0 ∧ (t.strand w0).oob = 0x900FFFFFFF220010 ∧ (t.strand w0).oobpc = 0x401008 ∧ (t.strand w0).pc = 0x40100C := by decide +kernel
theorem test_pad_edge : (past.core 0).padByte 0x1FFFC = some 0x2FFFC ∧ (past.core 0).padByte 0x20000 = none := by decide +kernel
/-- 05 R97: `vadds.w8 v5, v6, v11 ?p2`: lane 0 saturates, lane 2 is inactive. -/
theorem test_vadds : vAt (ran 48 0xC458C517008E ((withV [(6, 0xFFC803FA), (11, 0x0164040A), (5, 0x1111111111)]).onStrand w0 fun t =>
    { t with p := t.p.set 2 0xB })) 5 % 2 ^ 40 = 0x11FF1107FF := by decide +kernel
/-- 05 R107: `vslu v7, v7, v13`, 0x6068_E71F, brings in the top element of v13. -/
theorem test_vslu : vAt (ran 32 0x6068E71F (withV [(7, 0x2222222211111111), (13, 0xABCD0123 * 2 ^ 2016)])) 7 = 0x2222222211111111ABCD0123 := by
  decide +kernel
/-- 05 R104: of blocks with largest magnitudes 1000 and 0.5, the scale bytes for b8p4se are 0x81 and 0x77. -/
theorem test_vscget : vAt (after (.vscget ⟨some ⟨.b8 3 false false, .f32⟩, 0, 0, 12, 2, 0⟩)
    (withV [(12, 0x447A0000 + 0x41500000 * 2 ^ 32 + 0x3F000000 * 2 ^ 1024)])) 2 % 65536 = 0x7781 := by decide +kernel
/-- 05 R108: the sum of 1.0, 2^24, 1.0 and −2^24 by the tree is 1.0 (03 R69). -/
theorem test_vrfsum_tree : vAt (after (.vrfsum ⟨none, 1, 0, 3, 2, 0⟩) ((withV [(3, 0xCB8000003F8000004B8000003F800000)]).onStrand w0 fun t =>
    { t with p := t.p.set 1 0xFFFF })) 2 % 2 ^ 32 = 0x3F800000 := by decide +kernel
/-- 03 R56: vfmul of 2^−126 and 0.5 is subnormal, and +0 with zo. -/
theorem test_zero_flush : vAt (after (.vfmul ⟨none, 0, 0, 0, 0, 13, 0, 7, 1, 0⟩) (withV [(7, 0x00800000), (13, 0x3F000000)])) 1 % 2 ^ 32 = 0x00400000 ∧
    vAt (after (.vfmul ⟨none, 1, 0, 0, 0, 13, 0, 7, 1, 0⟩) (withV [(7, 0x00800000), (13, 0x3F000000)])) 1 % 2 ^ 32 = 0 := by decide +kernel
/-- 02 R43: with chk clear, a reader before the delivery gets the old value. -/
theorem test_latency : let s := withV [(1, 0x3F800000), (2, 0x40000000), (3, 0x40400000), (5, 0x3F000000)]
    (match exec (.vfmul ⟨none, 0, 0, 0, 0, 3, 0, 2, 1, 0⟩) s with
      | .next t => vAt (after (.vfadd ⟨none, 0, 0, 0, 0, 5, 0, 1, 4, 0⟩) t) 4 % 2 ^ 32
      | _ => 0) = 0x3FC00000 ∧
    (match exec (.vfmul ⟨none, 0, 0, 0, 0, 3, 0, 2, 1, 3⟩) s with
      | .next t => vAt (after (.vfadd ⟨none, 0, 0, 0, 0, 5, 0, 1, 4, 0⟩) t) 4 % 2 ^ 32
      | _ => 0) = 0x40D00000 := by decide +kernel
/-- 10 R183, R185: a template sent from core 0x1A40 to the landing of core 0x1A43 arrives as 0x1A40_0420_3007_7005 when the generation there is 3. -/
theorem test_header : (messageBits ⟨0x1A40, 0⟩ 0x0000042000077005 (List.replicate 56 0)).extractLsb' 0 64 = 0x1A40042000077005#64 := by decide +kernel

/-- A leak word of 43 units with factor 0.75, law 5, and an integrate word armed at 0 with 0.25 per tick, law 6, at a tick of the logical tide (06 R122,
R124). -/
def ticked (tide : Nat) : State :=
  let s1 : State := lawed 5 { Law.reset with
    ctl := 0xFFF00000009, factor := 0xC0000000, ladder := [0xC0000000, 0x90000000, 0x51000000, 0x19A10000] ++ List.replicate 44 0 }
    (lawed 6 { Law.reset with ctl := 0xFFF0000001A, threshold := 0x20000 } detDemo)
  let s2 := s1.setCrew 0 { detCrew with tide := BitVec.ofNat 48 tide }
  (((s2.putWord (2 ^ 60) 0x2B).putWord (2 ^ 60 + 8) 0x5000000000000).putWord (2 ^ 60 + 16) 0x400000000000).putWord (2 ^ 60 + 24) 0x0106000000000000
/-- 06 R132: `tld s4, (s2)`, 0x0000_2429, at tick 10. -/
theorem test_tld_leak : let t := ran 32 0x00002429 ((ticked 10).onStrand w0 fun t => t.putS 2 0xFFFFFFF000000)
    sAt t 4 = 2 ∧ sAt t 5 = 0xA0500 := by decide +kernel
theorem test_tld_integrate : let t := ran 32 0x00002429 ((ticked 10).onStrand w0 fun t => t.putS 2 0xFFFFFFF000010)
    sAt t 4 = 0x400000028000 ∧ sAt t 5 = 0x8060A := by decide +kernel

/-- 24 R392: SHA-256 of "abc", from the standard's example (FIPS 180-4). -/
theorem test_sha256 : sha256 [0x61, 0x62, 0x63] = 0xba7816bf8f01cfea414140de5dae2223b00361a396177a9cb410ff61f20015ad := by decide +kernel
/-- 06 R126: the crossing of `armedWord` is posted with the word's address, the law and the tick at which it met the threshold. -/
theorem test_crossing :
    let r := (armedWord 0x123).timedAt w0 .read 0xFFFFFFF000000 (.store 0 0 true) 5 0
    r.2.2 = 0x1060A ∧ (r.1.transit.map fun m => (m.dest, hdrHandler m.bits, m.bits.extractLsb' 64 64, m.bits.extractLsb' 128 64)) =
      [(0, 0x123, 0xFFFFFFF000000, 0x6000000000001)] := by decide +kernel

end Sys2Proof.Tests
end

section
/-!
PROOFS. The scalar integer, immediate and store instructions (04): each integer function as the whole number that it stands
for, each shared form as what it gives, and from the two the statements.
-/
namespace Sys2Proof.Machine
open Sys2Proof

/-! ### Words as the whole numbers they stand for (04 R72) -/

/-- A pattern is that of its own number: the form in which an equation of patterns becomes one of numbers. -/
theorem eq_ofInt_of_toNat_eq {w : Nat} {x : BitVec w} {n : Nat} (h : x.toNat = n % 2 ^ w) : x = BitVec.ofInt w (n : Int) := by
  rw [BitVec.ofInt_natCast]
  exact BitVec.eq_of_toNat_eq (by simpa using h)

theorem add_eq_ofInt (a b : Word) : a + b = BitVec.ofInt 64 (a.toNat + b.toNat) := by
  simp [BitVec.ofInt_add]

theorem sub_eq_ofInt (a b : Word) : a - b = BitVec.ofInt 64 (a.toNat - b.toNat) := by
  simp [Int.sub_eq_add_neg, BitVec.ofInt_add, BitVec.ofInt_neg, BitVec.sub_eq_add_neg]

theorem mul_eq_ofInt (a b : Word) : a * b = BitVec.ofInt 64 (a.toNat * b.toNat) := by
  simp [BitVec.ofInt_mul]

theorem shiftLeft_eq_ofInt (a : Word) (k : Nat) : a <<< k = BitVec.ofInt 64 (a.toNat * 2 ^ k) := by
  have h := eq_ofInt_of_toNat_eq (x := a <<< k) (n := a.toNat * 2 ^ k) (by rw [BitVec.toNat_shiftLeft, Nat.shiftLeft_eq])
  simpa using h

theorem ushiftRight_eq_ofInt (a : Word) (k : Nat) : a >>> k = BitVec.ofInt 64 (a.toNat / 2 ^ k) := by
  have hlt : a.toNat / 2 ^ k < 2 ^ 64 := Nat.lt_of_le_of_lt (Nat.div_le_self _ _) a.isLt
  have h := eq_ofInt_of_toNat_eq (x := a >>> k) (n := a.toNat / 2 ^ k)
    (by rw [BitVec.toNat_ushiftRight, Nat.shiftRight_eq_div_pow, Nat.mod_eq_of_lt hlt])
  simpa using h

theorem sshiftRight_eq_ofInt {w : Nat} (a : BitVec w) (k : Nat) : a.sshiftRight k = BitVec.ofInt w (a.toInt / 2 ^ k) := by
  rw [← BitVec.ofInt_toInt (x := a.sshiftRight k), BitVec.toInt_sshiftRight, Int.shiftRight_eq_div_pow]
  simp

/-- A left shift and the right shift of the rest share no bit, so their union is their sum. -/
theorem rotate_eq_ofInt (a : Word) {k : Nat} (hk : k ≤ 64) :
    a <<< k ||| a >>> (64 - k) = BitVec.ofInt 64 (a.toNat * 2 ^ k + a.toNat / 2 ^ (64 - k)) := by
  have hdisj : a <<< k &&& a >>> (64 - k) = 0#64 := by
    ext i hi
    simp only [BitVec.getElem_and, BitVec.getElem_shiftLeft, BitVec.getElem_ushiftRight, BitVec.getElem_zero]
    by_cases h : i < k
    · simp [h]
    · simp [BitVec.getLsbD_of_ge a (64 - k + i) (by omega)]
  rw [← BitVec.add_eq_or_of_and_eq_zero _ _ hdisj, BitVec.ofInt_add, shiftLeft_eq_ofInt, ushiftRight_eq_ofInt]

/-- The low 32 bits of a pattern are those of the number it stands for (the forms marked 32). -/
theorem sext32_ofInt (v : Int) : sext32 (BitVec.ofInt 64 v) = (BitVec.ofInt 32 v).signExtend 64 := by
  have hlow : (BitVec.ofInt 64 v).setWidth 32 = BitVec.ofInt 32 v := by
    apply BitVec.eq_of_toNat_eq
    simp only [BitVec.toNat_setWidth, BitVec.toNat_ofInt]
    omega
  rw [sext32, hlow]

theorem mulhU_eq_ofInt (a b : Word) : mulhU a b = BitVec.ofInt 64 (a.toNat * b.toNat / 2 ^ 64) := by
  rw [mulhU, ← BitVec.ofInt_natCast]
  simp

theorem add32_eq_ofInt (a b : Word) : sext32 (a + b) = (BitVec.ofInt 32 (a.toNat + b.toNat)).signExtend 64 := by
  rw [add_eq_ofInt, sext32_ofInt]

theorem sub32_eq_ofInt (a b : Word) : sext32 (a - b) = (BitVec.ofInt 32 (a.toNat - b.toNat)).signExtend 64 := by
  rw [sub_eq_ofInt, sext32_ofInt]

theorem mul32_eq_ofInt (a b : Word) : sext32 (a * b) = (BitVec.ofInt 32 (a.toNat * b.toNat)).signExtend 64 := by
  rw [mul_eq_ofInt, sext32_ofInt]

theorem sllW_eq_ofInt (a b : Word) : sllW a b = BitVec.ofInt 64 (a.toNat * 2 ^ (b.toNat % 64)) := shiftLeft_eq_ofInt a _

theorem srlW_eq_ofInt (a b : Word) : srlW a b = BitVec.ofInt 64 (a.toNat / 2 ^ (b.toNat % 64)) := ushiftRight_eq_ofInt a _

theorem sraW_eq_ofInt (a b : Word) : sraW a b = BitVec.ofInt 64 (a.toInt / 2 ^ (b.toNat % 64)) := sshiftRight_eq_ofInt a _

theorem sll32W_eq_ofInt (a b : Word) :
    sll32W a b = (BitVec.ofInt 32 (a.toNat * 2 ^ (b.toNat % 32))).signExtend 64 := by
  rw [sll32W, cnt32, shiftLeft_eq_ofInt, sext32_ofInt]

theorem srl32W_eq_ofInt (a b : Word) :
    srl32W a b = (BitVec.ofInt 32 (a.toNat % 2 ^ 32 / 2 ^ (b.toNat % 32))).signExtend 64 := by
  have hlow : (a &&& 0xFFFFFFFF).toNat = a.toNat % 2 ^ 32 := by
    rw [BitVec.toNat_and]
    exact Nat.and_two_pow_sub_one_eq_mod a.toNat 32
  rw [srl32W, cnt32, ushiftRight_eq_ofInt, sext32_ofInt, hlow]
  simp

theorem sra32W_eq_ofInt (a b : Word) :
    sra32W a b = (BitVec.ofInt 32 ((BitVec.ofNat 32 a.toNat).toInt / 2 ^ (b.toNat % 32))).signExtend 64 := by
  rw [sra32W, cnt32, sshiftRight_eq_ofInt, BitVec.ofNat_toNat]

theorem rolW_eq_ofInt (a b : Word) :
    rolW a b = BitVec.ofInt 64 (a.toNat * 2 ^ (b.toNat % 64) + a.toNat / 2 ^ (64 - b.toNat % 64)) :=
  rotate_eq_ofInt a (Nat.le_of_lt (Nat.mod_lt _ (by decide)))

/-- A rotate right by k is a rotate left by 64 - k. -/
theorem rorW_eq_ofInt (a b : Word) :
    rorW a b = BitVec.ofInt 64 (a.toNat * 2 ^ (64 - b.toNat % 64) + a.toNat / 2 ^ (b.toNat % 64)) := by
  have h := rotate_eq_ofInt a (Nat.sub_le 64 (b.toNat % 64))
  rwa [Nat.sub_sub_self (Nat.le_of_lt (Nat.mod_lt _ (by decide)))] at h

/-! ### Comparisons, and the lesser and greater of two (04 R72) -/

theorem truth_sLess (a b : Word) : truth (sLess a b) = if a.toInt < b.toInt then 1 else 0 := by
  simp [truth, sLess, BitVec.slt_eq_decide]

theorem truth_wLess (a b : Word) : truth (wLess a b) = if a.toNat < b.toNat then 1 else 0 := by
  simp [truth, wLess, BitVec.ult]

theorem truth_beq (a b : Word) : truth (a == b) = if a = b then 1 else 0 := by
  simp [truth]

theorem truth_beq_toNat (a b : Word) : truth (a == b) = if a.toNat = b.toNat then 1 else 0 := by
  simp [truth_beq, BitVec.toNat_inj]

theorem truth_bne_toNat (a b : Word) : truth (a != b) = if a.toNat ≠ b.toNat then 1 else 0 := by
  simp [truth, BitVec.toNat_inj]

theorem minS_eq_ofInt (a b : Word) : minS a b = BitVec.ofInt 64 (min a.toInt b.toInt) := by
  simp only [minS, sLess, BitVec.slt_iff_toInt_lt]
  split
  · rw [min_eq_left (by omega), BitVec.ofInt_toInt]
  · rw [min_eq_right (by omega), BitVec.ofInt_toInt]

theorem maxS_eq_ofInt (a b : Word) : maxS a b = BitVec.ofInt 64 (max a.toInt b.toInt) := by
  simp only [maxS, sLess, BitVec.slt_iff_toInt_lt]
  split
  · rw [max_eq_right (by omega), BitVec.ofInt_toInt]
  · rw [max_eq_left (by omega), BitVec.ofInt_toInt]

theorem minU_eq_ofInt (a b : Word) : minU a b = BitVec.ofInt 64 (min a.toNat b.toNat : Nat) := by
  simp only [minU, wLess, BitVec.ult_iff_toNat_lt, BitVec.ofInt_natCast]
  split
  · rw [min_eq_left (by omega), BitVec.ofNat_toNat, BitVec.setWidth_eq]
  · rw [min_eq_right (by omega), BitVec.ofNat_toNat, BitVec.setWidth_eq]

theorem maxU_eq_ofInt (a b : Word) : maxU a b = BitVec.ofInt 64 (max a.toNat b.toNat : Nat) := by
  simp only [maxU, wLess, BitVec.ult_iff_toNat_lt, BitVec.ofInt_natCast]
  split
  · rw [max_eq_right (by omega), BitVec.ofNat_toNat, BitVec.setWidth_eq]
  · rw [max_eq_left (by omega), BitVec.ofNat_toNat, BitVec.setWidth_eq]

/-! ### Saturation, with each bound in one case (03 R70) -/

theorem satS_eq_ite (v : Int) :
    satS v 64 = if v < -2 ^ 63 then -2 ^ 63 else if 2 ^ 63 - 1 < v then 2 ^ 63 - 1 else v := by
  unfold satS
  split_ifs <;> omega

theorem satW_eq_ite (v : Int) : satW v 64 = if v < 0 then 0 else if 2 ^ 64 - 1 < v then 2 ^ 64 - 1 else v := by
  unfold satW
  split_ifs <;> omega

/-! ### Division (04 R73) -/

theorem sdivW_of_eq_zero (a : Word) {b : Word} (hb : b = 0) : sdivW a b = BitVec.allOnes 64 := if_pos hb

theorem udivW_of_eq_zero (a : Word) {b : Word} (hb : b = 0) : udivW a b = BitVec.allOnes 64 := if_pos hb

theorem sremW_of_eq_zero (a : Word) {b : Word} (hb : b = 0) : sremW a b = a := if_pos hb

theorem uremW_of_eq_zero (a : Word) {b : Word} (hb : b = 0) : uremW a b = a := if_pos hb

/-- The least value divided by -1 wraps to itself, and nothing remains. -/
theorem sdivW_least_by_neg_one {a b : Word} (ha : a = 0x8000000000000000) (hb : b = BitVec.allOnes 64) :
    sdivW a b = 0x8000000000000000 := by
  rw [ha, hb]
  decide

theorem sremW_least_by_neg_one {a b : Word} (ha : a = 0x8000000000000000) (hb : b = BitVec.allOnes 64) :
    sremW a b = 0 := by
  rw [ha, hb]
  decide

theorem sdivW_of_ne_zero (a : Word) {b : Word} (hb : b ≠ 0) : sdivW a b = BitVec.ofInt 64 (a.toInt.tdiv b.toInt) := if_neg hb

theorem udivW_of_ne_zero (a : Word) {b : Word} (hb : b ≠ 0) : udivW a b = BitVec.ofNat 64 (a.toNat / b.toNat) := if_neg hb

theorem sremW_of_ne_zero (a : Word) {b : Word} (hb : b ≠ 0) :
    sremW a b = BitVec.ofInt 64 (a.toInt - b.toInt * a.toInt.tdiv b.toInt) := by
  rw [sremW, if_neg hb, Int.tmod_def]

theorem uremW_of_ne_zero (a : Word) {b : Word} (hb : b ≠ 0) :
    uremW a b = BitVec.ofNat 64 (a.toNat - b.toNat * (a.toNat / b.toNat)) := by
  rw [uremW, if_neg hb, Nat.mod_eq_sub_mul_div]

/-! ### Counting forms (04 R72) -/

/-- The first place at which a test of the numbers below n fails is how many it takes. -/
theorem length_takeWhile_range {p : Nat → Bool} {n m : Nat} (hm : m ≤ n) (hp : ∀ i < m, p i = true)
    (hs : m < n → p m = false) : ((List.range n).takeWhile p).length = m := by
  obtain ⟨k, rfl⟩ := Nat.exists_eq_add_of_le hm
  rw [List.range_add, List.takeWhile_append_of_pos (by simpa using hp)]
  cases k with
  | zero => simp
  | succ k => simp [List.range_succ_eq_map, hs]

theorem clzW_eq_length (a : Word) :
    clzW a = BitVec.ofNat 64 ((List.range 64).takeWhile fun i => !a.getMsbD i).length := by
  unfold clzW
  split
  case isTrue h =>
    rw [length_takeWhile_range (m := 64) le_rfl (by simp [h]) (by simp)]
    rfl
  case isFalse h =>
    have hne : a.toNat ≠ 0 := fun h0 => h (BitVec.eq_of_toNat_eq h0)
    have hlog : a.toNat.log2 < 64 := (Nat.log2_lt hne).2 a.isLt
    have hclear : ∀ i < 63 - a.toNat.log2, a.getMsbD i = false := fun i hi => by
      have hbit : a.toNat.testBit (63 - i) = false := Nat.testBit_lt_two_pow ((Nat.log2_lt hne).1 (by omega))
      simp [BitVec.getMsbD, BitVec.getLsbD, hbit]
    have hset : a.getMsbD (63 - a.toNat.log2) = true := by
      have hin : 63 - a.toNat.log2 < 64 := by omega
      have hplace : 63 - (63 - a.toNat.log2) = a.toNat.log2 := by omega
      simp [BitVec.getMsbD, BitVec.getLsbD, hin, hplace, Nat.testBit_log2 hne]
    rw [length_takeWhile_range (m := 63 - a.toNat.log2) (by omega) (fun i hi => by simp [hclear i hi]) (fun _ => by simp [hset])]

theorem ctzW_eq_length (a : Word) :
    ctzW a = BitVec.ofNat 64 ((List.range 64).takeWhile fun i => !a.getLsbD i).length := by
  unfold ctzW
  cases h : (List.range 64).find? a.getLsbD with
  | none =>
    rw [List.find?_range_eq_none] at h
    rw [length_takeWhile_range (m := 64) le_rfl h (by simp)]
    rfl
  | some m =>
    obtain ⟨hset, hmem, hclear⟩ := List.find?_range_eq_some.1 h
    rw [length_takeWhile_range (m := m) (List.mem_range.1 hmem).le hclear (fun _ => by simp [hset])]
    rfl

/-! ### Immediates (04 R74, R75) -/

theorem immWord_eq_ofInt {n : Nat} (i : BitVec n) : immWord i = BitVec.ofInt 64 i.toInt := rfl

theorem truth_sLess_imm (a : Word) (i : BitVec 12) : truth (sLess a (immWord i)) = if a.toInt < i.toInt then 1 else 0 := by
  rw [truth_sLess, immWord, BitVec.toInt_signExtend_of_le (by decide)]

/-- A count of no more bits than the shift looks at is the count it takes. -/
theorem cnt64_setWidth (n : BitVec 6) : cnt64 (n.setWidth 64) = n.toNat := by
  have := n.isLt
  simp only [cnt64, BitVec.toNat_setWidth]
  omega

theorem cnt32_setWidth (n : BitVec 5) : cnt32 (n.setWidth 64) = n.toNat := by
  have := n.isLt
  simp only [cnt32, BitVec.toNat_setWidth]
  omega

theorem sllW_count (a : Word) (n : BitVec 6) : sllW a (n.setWidth 64) = BitVec.ofInt 64 (a.toNat * 2 ^ n.toNat) := by
  rw [sllW_eq_ofInt, ← cnt64, cnt64_setWidth]

theorem srlW_count (a : Word) (n : BitVec 6) : srlW a (n.setWidth 64) = BitVec.ofInt 64 (a.toNat / 2 ^ n.toNat) := by
  rw [srlW_eq_ofInt, ← cnt64, cnt64_setWidth]

theorem sraW_count (a : Word) (n : BitVec 6) : sraW a (n.setWidth 64) = BitVec.ofInt 64 (a.toInt / 2 ^ n.toNat) := by
  rw [sraW_eq_ofInt, ← cnt64, cnt64_setWidth]

theorem sll32W_count (a : Word) (n : BitVec 5) :
    sll32W a (n.setWidth 64) = (BitVec.ofInt 32 (a.toNat * 2 ^ n.toNat)).signExtend 64 := by
  rw [sll32W_eq_ofInt, ← cnt32, cnt32_setWidth]

theorem srl32W_count (a : Word) (n : BitVec 5) :
    srl32W a (n.setWidth 64) = (BitVec.ofInt 32 (a.toNat % 2 ^ 32 / 2 ^ n.toNat)).signExtend 64 := by
  rw [srl32W_eq_ofInt, ← cnt32, cnt32_setWidth]

theorem sra32W_count (a : Word) (n : BitVec 5) :
    sra32W a (n.setWidth 64) = (BitVec.ofInt 32 ((BitVec.ofNat 32 a.toNat).toInt / 2 ^ n.toNat)).signExtend 64 := by
  rw [sra32W_eq_ofInt, ← cnt32, cnt32_setWidth]

/-- An upper immediate stands in bit 12 up. -/
theorem immWord_shiftLeft (u : BitVec 19) : immWord u <<< 12 = BitVec.ofInt 64 (u.toInt * 4096) := by
  rw [BitVec.shiftLeft_eq_mul_twoPow, BitVec.ofInt_mul, immWord_eq_ofInt]
  rfl

theorem add_immWord_shiftLeft (a : Word) (u : BitVec 19) :
    a + (immWord u <<< 12) = BitVec.ofInt 64 (a.toNat + u.toInt * 4096) := by
  rw [immWord_shiftLeft, BitVec.ofInt_add, BitVec.ofInt_natCast, BitVec.ofNat_toNat, BitVec.setWidth_eq]

/-! ### The shared forms of the integer instructions -/

section
variable {s : State} {i : Instr} {lat : Latency} {v : Word}

theorem Calm.form3 (h : Calm s) {o : R3} {f : Word → Word → Word} (he : exec i s = form3 lat o f s)
    (hv : f (s.rs o.a) (s.rs o.b) = v) : GivesS s i (plain o.sc [.s o.a, .s o.b]) o.d v := h.scalarForm he hv

theorem Calm.form2 (h : Calm s) {o : R2} {f : Word → Word} (he : exec i s = form2 lat o f s) (hv : f (s.rs o.a) = v) :
    GivesS s i (plain o.sc [.s o.a]) o.d v := h.scalarForm he hv

theorem Calm.formI (h : Calm s) {o : RI} {f : Word → Word → Word} (he : exec i s = formI lat o f s)
    (hv : f (s.rs o.a) (immWord o.imm) = v) : GivesS s i (plain o.sc [.s o.a]) o.d v := h.scalarForm he hv

theorem Calm.formSh6 (h : Calm s) {o : RSh6} {f : Word → Word → Word} (he : exec i s = formSh6 o f s)
    (hv : f (s.rs o.a) (o.sh.setWidth 64) = v) : GivesS s i (plain o.sc [.s o.a]) o.d v := h.scalarForm he hv

theorem Calm.formSh5 (h : Calm s) {o : RSh5} {f : Word → Word → Word} (he : exec i s = formSh5 o f s)
    (hv : f (s.rs o.a) (o.sh.setWidth 64) = v) : GivesS s i (plain o.sc [.s o.a]) o.d v := h.scalarForm he hv

end

/-! ### The integer instructions (04 R72 to R75) -/

/-- Settles O1: each form computes its integer function, which stands for the stated number. -/
theorem integerForms : Obligations.IntegerForms := by
  unfold Obligations.IntegerForms
  refine ⟨fun s o h => ?_, fun s o h => ?_, fun s o h => ?_⟩
  · intro A B SA SB k k32 W W32 clamp clampW gives
    exact ⟨h.form3 rfl (add_eq_ofInt ..), h.form3 rfl (sub_eq_ofInt ..), h.form3 rfl rfl, h.form3 rfl rfl, h.form3 rfl rfl,
      h.form3 rfl (sllW_eq_ofInt ..), h.form3 rfl (srlW_eq_ofInt ..), h.form3 rfl (sraW_eq_ofInt ..),
      h.form3 (f := fun a b => truth (sLess a b)) rfl (truth_sLess ..),
      h.form3 (f := fun a b => truth (wLess a b)) rfl (truth_wLess ..),
      h.form3 (f := fun a b => truth (a == b)) rfl (truth_beq_toNat ..),
      h.form3 (f := fun a b => truth (a != b)) rfl (truth_bne_toNat ..),
      h.form3 rfl (minS_eq_ofInt ..), h.form3 rfl (maxS_eq_ofInt ..),
      h.form3 rfl (minU_eq_ofInt ..), h.form3 rfl (maxU_eq_ofInt ..),
      h.form3 rfl (mul_eq_ofInt ..), h.form3 rfl rfl, h.form3 rfl (mulhU_eq_ofInt ..),
      h.form3 rfl (congrArg W (satS_eq_ite _)), h.form3 rfl (congrArg W (satS_eq_ite _)),
      h.form3 rfl (congrArg W (satW_eq_ite _)), h.form3 rfl (congrArg W (satW_eq_ite _)),
      h.form3 (f := fun a b => sext32 (a + b)) rfl (add32_eq_ofInt ..),
      h.form3 (f := fun a b => sext32 (a - b)) rfl (sub32_eq_ofInt ..),
      h.form3 (f := fun a b => sext32 (a * b)) rfl (mul32_eq_ofInt ..),
      h.form3 rfl (sll32W_eq_ofInt ..), h.form3 rfl (srl32W_eq_ofInt ..), h.form3 rfl (sra32W_eq_ofInt ..),
      h.form3 rfl (rolW_eq_ofInt ..), h.form3 rfl (rorW_eq_ofInt ..)⟩
  · intro A gives
    exact ⟨h.form2 rfl (clzW_eq_length _), h.form2 rfl (ctzW_eq_length _), h.form2 rfl rfl⟩
  · intro A B gives
    refine ⟨fun hz => ?_, fun hA hB => ?_, fun hz => ?_⟩
    · exact ⟨h.form3 rfl (sdivW_of_eq_zero _ hz), h.form3 rfl (udivW_of_eq_zero _ hz), h.form3 rfl (sremW_of_eq_zero _ hz),
        h.form3 rfl (uremW_of_eq_zero _ hz)⟩
    · exact ⟨h.form3 rfl (sdivW_least_by_neg_one hA hB), h.form3 rfl (sremW_least_by_neg_one hA hB)⟩
    · exact ⟨h.form3 rfl (sdivW_of_ne_zero _ hz), h.form3 rfl (udivW_of_ne_zero _ hz), h.form3 rfl (sremW_of_ne_zero _ hz),
        h.form3 rfl (uremW_of_ne_zero _ hz)⟩

/-- Settles O2: an immediate form computes the function of its register form, on the sign-extended immediate or the count. -/
theorem immediateForms : Obligations.ImmediateForms := by
  unfold Obligations.ImmediateForms
  intro s h W W32
  refine ⟨fun o => ?_, fun o => ?_, fun o => ?_, fun o => ?_⟩
  · intro A I gives
    exact ⟨h.formI rfl (add_eq_ofInt ..), h.formI rfl rfl, h.formI rfl rfl, h.formI rfl rfl,
      h.formI (f := fun a b => truth (sLess a b)) rfl (truth_sLess_imm ..),
      h.formI (f := fun a b => truth (wLess a b)) rfl (truth_wLess ..),
      h.formI (f := fun a b => truth (a == b)) rfl (truth_beq ..),
      h.formI (f := fun a b => sext32 (a + b)) rfl (add32_eq_ofInt ..)⟩
  · intro A n gives
    exact ⟨h.formSh6 rfl (sllW_count ..), h.formSh6 rfl (srlW_count ..), h.formSh6 rfl (sraW_count ..)⟩
  · intro A n gives
    exact ⟨h.formSh5 rfl (sll32W_count ..), h.formSh5 rfl (srl32W_count ..), h.formSh5 rfl (sra32W_count ..)⟩
  · exact ⟨h.scalarForm (srcs := []) (f := fun _ => immWord o.u <<< 12) rfl (immWord_shiftLeft ..),
      h.scalarForm (srcs := []) (f := fun t => t.pc + (immWord o.u <<< 12)) rfl (add_immWord_shiftLeft ..)⟩

/-! ### Stores (04 R81, R83) -/

/-- What a store of the low `n` bytes of a value answers, by where its address reaches: the bytes stored, the offence recorded,
or the trap taken. -/
def Stores (s : State) (i : Instr) (x : Issue) (va : Word) (n : Nat) (v : Word) : Prop :=
  (∀ l, s.reach s.cur .write va n = .at l →
    (s.writeRefused s.cur l va = none → Does s i x ((s.viewStore s.cur l v.toNat n).postStore s.cur l)) ∧
    (∀ y, s.writeRefused s.cur l va = some y → Traps s i y)) ∧
  (s.reach s.cur .write va n = .out → Does s i x (s.offence s.cur va true)) ∧
  (∀ y, s.reach s.cur .write va n = .trap y → Traps s i y)

section
variable {s : State} {w : StrandId} {va : Word} {n : Nat} {l : Loc}

theorem State.scalarStore_at (v : Word) (hr : s.reach w .write va n = .at l) (hw : s.writeRefused w l va = none) :
    s.scalarStore w va n v = .done ((s.viewStore w l v.toNat n).postStore w l) := by
  simp [State.scalarStore, hr, hw]

theorem State.scalarStore_refused (v : Word) {y : Trap} (hr : s.reach w .write va n = .at l)
    (hw : s.writeRefused w l va = some y) : s.scalarStore w va n v = .trap y := by
  simp [State.scalarStore, hr, hw]

theorem State.scalarStore_out (v : Word) (hr : s.reach w .write va n = .out) :
    s.scalarStore w va n v = .done (s.offence w va true) := by
  simp [State.scalarStore, hr]

theorem State.scalarStore_trap (v : Word) {y : Trap} (hr : s.reach w .write va n = .trap y) :
    s.scalarStore w va n v = .trap y := by
  simp [State.scalarStore, hr]

end

/-- An instruction whose body is a scalar store does what the store does. -/
theorem Calm.stores {s : State} (h : Calm s) {i : Instr} {sc : BitVec 2} {srcs : List Reg} {va : Word} {n : Nat} {v : Word}
    {body : State → Nat → Res} (he : exec i s = s.issue (plain sc srcs) body)
    (hb : body s (s.issueSlot (plain sc srcs)) = s.scalarStore s.cur va n v) : Stores s i (plain sc srcs) va n v := by
  have ho := plain_owned s sc srcs
  refine ⟨fun l hr => ⟨fun hw => ?_, fun y hw => ?_⟩, fun hr => ?_, fun y hr => ?_⟩
  · exact h.does ho he (hb.trans (State.scalarStore_at v hr hw))
  · exact h.traps ho he (hb.trans (State.scalarStore_refused v hr hw))
  · exact h.does ho he (hb.trans (State.scalarStore_out v hr))
  · exact h.traps ho he (hb.trans (State.scalarStore_trap v hr))

theorem Calm.storeS {s : State} (h : Calm s) {i : Instr} {sc : BitVec 2} {srcs : List Reg} {n : Nat} {addr val : Strand → Word}
    {va v : Word} (he : exec i s = storeS sc srcs n addr val s) (ha : addr (s.strand s.cur) = va)
    (hv : val (s.strand s.cur) = v) : Stores s i (plain sc srcs) va n v :=
  h.stores he (by rw [← ha, ← hv])

theorem Calm.storeM {s : State} (h : Calm s) {i : Instr} {o : Mem} {n : Nat} (he : exec i s = storeM o n s) :
    Stores s i (plain o.sc [.s o.t, .s o.a]) (s.rs o.a + o.off.signExtend 64) n (s.rs o.t) := h.storeS he rfl rfl

theorem Calm.storeF {s : State} (h : Calm s) {i : Instr} {o : MemF} {n : Nat} (he : exec i s = storeF o n s) :
    Stores s i (plain o.sc [.f o.t, .s o.a]) (s.rs o.a + o.off.signExtend 64) n (s.rf o.t) := h.storeS he rfl rfl

/-- Settles O9: each store form is the scalar store of its register at its address. -/
theorem storeForms : Obligations.StoreForms := by
  unfold Obligations.StoreForms
  intro s h stores
  refine ⟨fun o => ?_, fun o => ?_, fun o => ?_, fun o => ?_⟩
  · exact ⟨h.storeM rfl, h.storeM rfl, h.storeM rfl, h.storeM rfl⟩
  · exact ⟨h.storeF rfl, h.storeF rfl, h.storeF rfl⟩
  · exact h.storeS (addr := fun t => t.getS o.a) (val := fun t => t.getS o.t) rfl rfl rfl
  · exact h.storeS (addr := fun _ => storeSlot o.off) (val := fun t => t.getS o.d) rfl rfl rfl

end Sys2Proof.Machine
end

section
/-!
PROOFS. The permutes, compares and predicate operations of the vector instructions (05): what a pick takes from the two sources,
what each floating relation says of NaNs, the lowest set bit, and from these the statements.
-/
namespace Sys2Proof.Machine
open Sys2Proof

/-! ### Permutes (05 R104) -/

/-- The element that a pick takes of two sources given by their elements. -/
def Pick.take (a b : Nat → Nat) : Pick → Nat
  | .a k => a k
  | .b k => b k
  | .zero => 0

theorem Pick.take_ite {c : Prop} [Decidable c] (a b : Nat → Nat) (x y : Pick) :
    (if c then x else y).take a b = if c then x.take a b else y.take a b := apply_ite (Pick.take a b) c x y

/-- The active elements in ascending order stand packed at the front of the whole destination, zeros behind them. -/
theorem Calm.vcompress {s : State} (h : Calm s) {o : V1} (ho : Owned s [o.d, o.a]) :
    Gives s (.vcompress o) ⟨o.sc, [.p o.p], [(o.a, holdOf o.ha)], some o.d,
        (activeList (s.rp o.p) (typeOf o.pre .i32).width).isEmpty, [], wholly⟩ (.v o.d)
      (ofElems (typeOf o.pre .i32).width fun j =>
        ((activeList (s.rp o.p) (typeOf o.pre .i32).width)[j]?.map (elem (s.rv o.a) (typeOf o.pre .i32).width)).getD 0)
      fullMask := by
  have he := exec_vcompress s o
  unfold execVcompress Machine.vecIssue at he
  refine h.vecGives (lat := .fixed 2) he ho.all fun n => ?_
  simp only [h.srcV_eq]
  congr 3
  funext j
  cases (activeList (s.rp o.p) (typeOf o.pre .i32).width)[j]? <;> rfl

/-- An active element takes the source element at its own place in the list of active elements. -/
theorem Calm.vexpand {s : State} (h : Calm s) {o : V1} (ho : Owned s [o.d, o.a]) :
    Gives s (.vexpand o) ⟨o.sc, [.p o.p], [(o.a, holdOf o.ha)], some o.d,
        (activeList (s.rp o.p) (typeOf o.pre .i32).width).isEmpty, [], wholly⟩ (.v o.d)
      (ofElems (typeOf o.pre .i32).width fun k =>
        (((activeList (s.rp o.p) (typeOf o.pre .i32).width).idxOf? k).map (elem (s.rv o.a) (typeOf o.pre .i32).width)).getD 0)
      (activeMask (s.rp o.p) (typeOf o.pre .i32).width) := by
  have he := exec_vexpand s o
  unfold execVexpand at he
  refine h.vecGives (lat := .fixed 2) he ho.all fun n => ?_
  simp only [h.srcV_eq, State.vecResult]
  congr 3
  funext k
  cases (activeList (s.rp o.p) (typeOf o.pre .i32).width).idxOf? k <;> rfl

/-- Settles O17: a permute of two sources by what each pick takes, one of a single source by the place that it reads, and the
packing and spreading forms by the list of active elements. -/
theorem vectorPermutes : Obligations.VectorPermutes := by
  unfold Obligations.VectorPermutes
  refine ⟨fun s o h ho => ?_, fun s o h ho => ?_⟩
  · intro w n a b gives
    have picks {i : Instr} {idx : Bool} {f : Nat → (Nat → Nat) → Nat → Pick} {g : Nat → Nat} (he : exec i s = perm2 o idx f s)
        (hg : ∀ k, (f n b k).take a b = g k) : gives i g := by
      obtain rfl := funext hg
      exact h.perm2 he ho
    exact ⟨picks (exec_vperm s o) fun _ => Pick.take_ite .., picks (exec_vzipl s o) fun _ => Pick.take_ite ..,
      picks (exec_vziph s o) fun _ => Pick.take_ite .., picks (exec_vunze s o) fun _ => Pick.take_ite ..,
      picks (exec_vunzo s o) fun _ => Pick.take_ite .., picks (exec_vslu s o) fun _ => Pick.take_ite ..,
      picks (exec_vsld s o) fun _ => Pick.take_ite .., picks (exec_vtrnl s o) fun _ => Pick.take_ite ..,
      picks (exec_vtrnh s o) fun _ => Pick.take_ite ..⟩
  · intro w n a p act gives
    exact ⟨h.whole1 (exec_vmv s o) ho rfl, h.perm1 (f := fun _ _ => 0) (exec_vbcast s o) ho,
      h.perm1 (f := fun n k => n - 1 - k) (exec_vrev s o) ho, h.vcompress ho, h.vexpand ho⟩

/-! ### Floating relations (05 R106, 03 R54) -/

theorem FVal.bne_nan (x : FVal) : (x != .nan) = !x.isNaN := by
  cases x <;> rfl

/-- Two values are ordered when neither is a NaN. -/
theorem FVal.unordered_eq (x y : FVal) : (x.isNaN || y.isNaN) = !(x != .nan && y != .nan) := by
  simp only [FVal.bne_nan, Bool.not_and, Bool.not_not]

theorem FVal.eq_eq_ordered (x y : FVal) : x.eq y = ((x != .nan && y != .nan) && FVal.compare x y == 0) := by
  simp only [FVal.bne_nan, FVal.eq]

theorem FVal.lt_eq_ordered (x y : FVal) : x.lt y = ((x != .nan && y != .nan) && decide (FVal.compare x y < 0)) := by
  simp only [FVal.bne_nan, FVal.lt]

theorem FVal.le_eq_ordered (x y : FVal) : x.le y = ((x != .nan && y != .nan) && decide (FVal.compare x y ≤ 0)) := by
  simp only [FVal.bne_nan, FVal.le]

/-! ### Predicate operations (05 R107) -/

/-- A bit of the negation is inverted exactly above the lowest set bit, so that bit alone stands in both. -/
theorem getLsbD_lowestBit (p : Pred) (k : Nat) :
    (lowestBit p).getLsbD k = true ↔ p.getLsbD k = true ∧ ∀ j, j < k → p.getLsbD j = false := by
  rw [lowestBit, BitVec.getLsbD_and, BitVec.getLsbD_neg, Bool.and_eq_true]
  refine and_congr_right fun hk => ?_
  simp only [hk, BitVec.lt_of_getLsbD hk, decide_true, Bool.true_and, Bool.true_xor]
  simp

/-- Settles O19: each compare's relation agrees with the stated one, floating ones by their answer to NaNs, and a predicate
operation gives its function of the registers. -/
theorem vectorCompares : Obligations.VectorCompares := by
  unfold Obligations.VectorCompares
  refine ⟨fun s o h ho => ?_, fun s h => ⟨fun o => ?_, fun o => ?_⟩⟩
  · intro gives ti tf val ordered
    have relates {i : Instr} {dflt : Ty} {f : Ty → Nat → Nat → Bool} {r : Nat → Nat → Bool} (he : exec i s = cmpForm o dflt f s)
        (hr : ∀ x y, f (typeOf o.pre dflt) x y = r x y) : gives i (typeOf o.pre dflt) r := by
      obtain rfl := funext₂ hr
      exact h.cmpForm he ho rfl
    -- The stated relation is then read off the goal as it stands, and not off what `gives` says of it.
    clear_value gives
    exact ⟨relates (exec_vceq s o) fun _ _ => rfl, relates (exec_vcne s o) fun _ _ => rfl,
      relates (exec_vclt s o) fun _ _ => rfl, relates (exec_vcle s o) fun _ _ => rfl,
      relates (exec_vfceq s o) fun _ _ => FVal.eq_eq_ordered .., relates (exec_vfclt s o) fun _ _ => FVal.lt_eq_ordered ..,
      relates (exec_vfcle s o) fun _ _ => FVal.le_eq_ordered .., relates (exec_vfcun s o) fun _ _ => FVal.unordered_eq ..⟩
  · intro gives
    exact ⟨h.predForm (exec_pand s o) rfl, h.predForm (exec_por s o) rfl, h.predForm (exec_pxor s o) rfl,
      h.predForm (exec_pandn s o) rfl⟩
  · intro gives
    exact ⟨h.predForm (exec_pnot s o) rfl, lowestBit (s.rp o.a), h.predForm (exec_pfirst s o) rfl, getLsbD_lowestBit _⟩

end Sys2Proof.Machine
end

section
/-!
PROOFS. The law instructions (06): a read of memory leaves strands and cores as they are, so a lawset's result is still its
strand's own; the rules of a descriptor bit by bit; and from these the statement.
-/
namespace Sys2Proof.Machine
open Sys2Proof

/-! ### Reads leave strands and cores (13 R229) -/

/-- Every strand and every core stands as it did. -/
structure State.SameAgents (s u : State) : Prop where
  strands : u.strands = s.strands
  cores : u.cores = s.cores

theorem State.SameAgents.refl (s : State) : s.SameAgents s := ⟨rfl, rfl⟩

theorem State.SameAgents.trans {s u v : State} (h : s.SameAgents u) (k : u.SameAgents v) : s.SameAgents v :=
  ⟨k.strands.trans h.strands, k.cores.trans h.cores⟩

theorem State.SameAgents.foldl {β : Type} {f : State → β → State} (hf : ∀ (s : State) x, s.SameAgents (f s x)) (l : List β) (s : State) :
    s.SameAgents (l.foldl f s) := by
  induction l generalizing s with
  | nil => exact .refl s
  | cons x t ih => exact (hf s x).trans (ih (f s x))

theorem State.SameAgents.quiet {s u : State} {w : StrandId} (h : s.SameAgents u) (hs : Quiet s w) : Quiet u w := by
  have ht : u.strand w = s.strand w := by simp only [State.strand, h.strands]
  have hc : u.core w.core = s.core w.core := by simp only [State.core, h.cores]
  exact ⟨ht ▸ hs.pend, ht ▸ hs.requested, hc ▸ hs.streams⟩

theorem State.sameAgents_homeWrite (s : State) (key : Nat) (b : Byte) : s.SameAgents (s.homeWrite key b) := ⟨rfl, rfl⟩

theorem State.sameAgents_lineHome (s : State) (n : Nat) (l : CacheLine) : s.SameAgents (s.lineHome n l) := by
  unfold State.lineHome
  split
  · exact .refl s
  · exact .foldl (fun _ _ => State.sameAgents_homeWrite ..) _ s

theorem State.sameAgents_evictLine (s : State) (c n : Nat) : s.SameAgents (s.evictLine c n) := by
  unfold State.evictLine
  dsimp only
  split
  · exact .refl s
  · exact .trans (u := s.setCluster c _) ⟨rfl, rfl⟩ (State.sameAgents_lineHome ..)

theorem State.sameAgents_makeWay (s : State) (c n : Nat) : s.SameAgents (s.makeWay c n) := by
  unfold State.makeWay
  dsimp only
  split
  · exact .refl s
  · exact (State.sameAgents_evictLine ..).trans ⟨rfl, rfl⟩

theorem State.sameAgents_onLine (s : State) (c n : Nat) (rep : Bool) (f : CacheLine → CacheLine) :
    s.SameAgents (s.onLine c n rep f) :=
  (State.sameAgents_makeWay s c n).trans ⟨rfl, rfl⟩

theorem State.sameAgents_readLine (s : State) (c : Nat) (who : Option Nat) (n : Nat) (rep : Bool) (lo hi : Nat) :
    s.SameAgents (s.readLine c who n rep lo hi) := by
  unfold State.readLine
  extract_lets own s1 l
  have hs1 : s.SameAgents s1 := by
    unfold s1
    split
    · exact .refl s
    · exact State.sameAgents_evictLine ..
  split
  · exact hs1
  · exact hs1.trans (State.sameAgents_onLine ..)

theorem State.sameAgents_plainRead (s : State) (core : Nat) (who : Option Nat) (l : Loc) (n : Nat) :
    s.SameAgents (s.plainRead core who l n) := by
  unfold State.plainRead
  split
  · exact .foldl (fun _ _ => State.sameAgents_readLine ..) _ s
  · exact .refl s

theorem State.sameAgents_viewRead (s : State) (w : StrandId) (l : Loc) (n : Nat) : s.SameAgents (s.viewRead w l n) := by
  unfold State.viewRead
  split
  · exact .refl s
  · exact State.sameAgents_plainRead ..

/-! ### What keeps a strand quiet -/

section
variable {u : State} {w : StrandId}

theorem Quiet.onStrand (h : Quiet u w) {f : Strand → Strand} (hp : (f (u.strand w)).pend = (u.strand w).pend)
    (hr : (f (u.strand w)).requested = (u.strand w).requested) : Quiet (u.onStrand w f) w :=
  ⟨by simpa using hp.trans h.pend, by simpa using hr.trans h.requested, h.streams⟩

theorem Quiet.stay (h : Quiet u w) (c : Wait) : Quiet (u.stay w c) w := h.onStrand rfl rfl

theorem Quiet.offence (h : Quiet u w) (va : Word) (wr : Bool) : Quiet (u.offence w va wr) w := by
  unfold State.offence
  dsimp only
  split
  · exact h
  · exact h.onStrand rfl rfl

/-! ### A strand that waits behind its law (06 R134) -/

/-- The strand waits while a copy of the law's entry is not the table's. -/
def State.awaitLaw (u : State) (w : StrandId) (k : Nat) : State := if u.lawSpread k then u else u.stay w (.laws k)

theorem Quiet.awaitLaw (h : Quiet u w) (k : Nat) : Quiet (u.awaitLaw w k) w := by
  unfold State.awaitLaw
  split
  · exact h
  · exact h.stay _

theorem Strand.setWait_putS (t : Strand) (n : BitVec 4) (x : Word) (c : Wait) :
    { t.putS n x with wait := c } = ({ t with wait := c } : Strand).putS n x := by
  unfold Strand.putS
  split <;> rfl

/-- A variable-latency result for an s register of a quiet strand is discarded, in flight or written. -/
theorem Quiet.resultS (h : Quiet u w) (n : Nat) (d : BitVec 4) (x : Word) :
    u.resultS w .variable n d x =
      if Reg.discards (.s d) then u
      else if u.lag then u.onStrand w fun t => { t with pend := t.pend ++ [⟨.s d, x.setWidth 2048, BitVec.allOnes 2048, none⟩] }
      else u.onStrand w fun t => t.putS d ((x.setWidth 2048).setWidth 64) := by
  simp only [State.resultS, State.result, h.unrequest, h.writeNow, State.putReg]

/-- A result on its way or written is no part of what the strand waits for. -/
theorem Quiet.resultS_stay (h : Quiet u w) (n : Nat) (d : BitVec 4) (x : Word) (c : Wait) :
    (u.resultS w .variable n d x).stay w c = (u.stay w c).resultS w .variable n d x := by
  rw [h.resultS, (h.stay c).resultS]
  split
  · rfl
  · rw [State.stay_lag]
    split
    · simp only [State.stay, State.onStrand_onStrand]
    · simp only [State.stay, State.onStrand_onStrand]
      exact State.onStrand_congr _ _ (Strand.setWait_putS ..)

theorem Quiet.resultS_lawSpread (h : Quiet u w) (n : Nat) (d : BitVec 4) (x : Word) (k : Nat) :
    (u.resultS w .variable n d x).lawSpread k = u.lawSpread k := by
  rw [h.resultS]
  split
  · rfl
  · split <;> rfl

theorem Quiet.resultS_awaitLaw (h : Quiet u w) (n : Nat) (d : BitVec 4) (x : Word) (k : Nat) :
    (u.resultS w .variable n d x).awaitLaw w k = (u.awaitLaw w k).resultS w .variable n d x := by
  unfold State.awaitLaw
  rw [h.resultS_lawSpread]
  split
  · rfl
  · exact h.resultS_stay ..

end

/-! ### The rules of a descriptor (06 R134) -/

/-- A run of bits is zero exactly where the mask of its places meets no set bit. -/
theorem extractLsb'_eq_zero_iff (x : Word) (lo len : Nat) (h : lo + len ≤ 64) :
    x.extractLsb' lo len = 0#len ↔ x &&& (BitVec.allOnes len).setWidth 64 <<< lo = 0#64 := by
  simp only [BitVec.eq_of_getLsbD_eq_iff, BitVec.getLsbD_extractLsb', BitVec.getLsbD_and, BitVec.getLsbD_shiftLeft,
    BitVec.getLsbD_setWidth, BitVec.getLsbD_allOnes, BitVec.getLsbD_zero]
  constructor
  · intro hx j hj
    by_cases hm : lo ≤ j ∧ j - lo < len
    · have := hx (j - lo) hm.2
      rw [Nat.add_sub_cancel' hm.1] at this
      simp only [hm, decide_true, Bool.true_and] at this
      simp [this]
    · simp only [Bool.and_eq_false_imp, Bool.and_eq_true, decide_eq_true_eq, Bool.not_eq_true', decide_eq_false_iff_not,
        and_imp]
      omega
  · intro hx i hi
    have := hx (lo + i) (by omega)
    have hj : lo + i < 64 := by omega
    simpa [hi, hj, show i < 64 by omega] using this

theorem highNat_ne_zero_iff (x : Word) : highNat x ≠ 0 ↔ 2 ^ 32 ≤ x.toNat := by
  unfold highNat
  rw [BitVec.extractLsb'_toNat]
  have := x.isLt
  omega

/-- The reserved bits of a descriptor's first doubleword are those of one mask. -/
theorem lawReserved_iff (d : Word) :
    (d.extractLsb' 44 4 ≠ 0 ∨ d.extractLsb' 10 22 ≠ 0 ∨ d.extractLsb' 5 3 ≠ 0 ∨ d.extractLsb' 2 1 ≠ 0) ↔
      d &&& 0x0000F000FFFFFCE4 ≠ 0 := by
  have hm : (0x0000F000FFFFFCE4 : Word) = (BitVec.allOnes 4).setWidth 64 <<< 44 ||| (BitVec.allOnes 22).setWidth 64 <<< 10 |||
      (BitVec.allOnes 3).setWidth 64 <<< 5 ||| (BitVec.allOnes 1).setWidth 64 <<< 2 := by decide
  rw [hm]
  simp only [BitVec.and_or_distrib_left, BitVec.or_eq_zero_iff, ne_eq, BitVec.ofNat_eq_ofNat, extractLsb'_eq_zero_iff,
    Nat.reduceAdd, Nat.reduceLeDiff]
  tauto

theorem getLsbD_iff_extractLsb'_ne_zero (x : Word) (k : Nat) : x.getLsbD k = true ↔ x.extractLsb' k 1 ≠ 0 := by
  rw [ne_eq, BitVec.eq_of_getLsbD_eq_iff]
  simp

/-- The rules that a descriptor can break. -/
theorem lawBad_iff (d : Nat → Word) :
    let kind : BitVec 2 := (d 0).extractLsb' 0 2
    lawBad (d 0) (d 1) (d 2) (d 3) = true ↔
      (d 0) &&& 0x0000F000FFFFFCE4 ≠ 0 ∨ d 3 ≠ 0 ∨ ((kind = 0 ∨ kind = 2) ∧ d 1 ≠ 0) ∨
        (kind = 1 ∧ 2 ^ 32 ≤ (d 1).toNat) ∨ (kind ≠ 3 ∧ 2 ^ 32 ≤ (d 2).toNat) := by
  intro kind
  rw [← lawReserved_iff, ← highNat_ne_zero_iff, ← highNat_ne_zero_iff, ← getLsbD_iff_extractLsb'_ne_zero]
  simp only [lawBad, Bool.or_eq_true, Bool.and_eq_true, bne_iff_ne, beq_iff_eq, or_assoc, BitVec.ofNat_eq_ofNat]
  rfl

/-! ### What the law instructions do (06 R134, R135) -/

/-- The entry that a descriptor defines, put into the table. -/
def State.putLaw (u : State) (k : Nat) (d : Nat → Word) : State :=
  { u with laws := FMap.put u.laws k (lawOf (d 0) (d 1) (d 2)).1 }

theorem Quiet.putLaw {u : State} {w : StrandId} (h : Quiet u w) (k : Nat) (d : Nat → Word) : Quiet (u.putLaw k d) w :=
  ⟨h.pend, h.requested, h.streams⟩

/-- What a lawset does with the descriptor of its read, whose effect is `u`. -/
def State.defineLaw (u : State) (w : StrandId) (n k : Nat) (dst : BitVec 4) (d : Nat → Word) : Res :=
  if lawBad (d 0) (d 1) (d 2) (d 3) then .trap (trapOf 14 3)
  else .done (((u.putLaw k d).resultS w .variable n dst (BitVec.ofNat 64 (lawOf (d 0) (d 1) (d 2)).2)).awaitLaw w k)

/-- Doubleword `j` of a value in memory. -/
def doubleword (v j : Nat) : Word := BitVec.ofNat 64 (v / 2 ^ (64 * j))

/-- What a lawset does, by where its descriptor's address reaches. -/
theorem lawset_issue (s : State) (o : R3) : ∃ body, exec (.lawset o) s = s.issue (plain o.sc [.s o.a, .s o.b]) body ∧
    let reach : Reach := s.reach s.cur .read (s.rs o.b) 32
    let k : Nat := (s.rs o.a).toNat % 256
    (∀ n y, reach = .trap y → body s n = .trap y) ∧
    (∀ n l, reach = .at l → body s n =
      (s.viewRead s.cur l 32).defineLaw s.cur n k o.d (doubleword ((s.viewRead s.cur l 32).viewNat s.cur l 32))) ∧
    (∀ n, reach = .out → body s n = (s.offence s.cur (s.rs o.b) false).defineLaw s.cur n k o.d fun _ => 0) := by
  refine ⟨_, exec_lawset s o, fun n y hr => ?_, fun n l hr => ?_, fun n hr => ?_⟩
  · simp only [State.rs] at hr
    simp only [hr]
  · simp only [State.rs] at hr
    simp only [hr]
    rfl
  · simp only [State.rs] at hr
    simp only [hr, State.unitValue, Nat.zero_div]
    rfl

section
variable {s u : State} {o : R3} {x : Issue} {body : State → Nat → Res} {k : Nat} {d : Nat → Word}

/-- A descriptor that breaks a rule defines nothing: the trap has no effect. -/
theorem Calm.lawset_refuses (h : Calm s) (ho : x.vregs.all (s.owns s.cur) = true) (he : exec (.lawset o) s = s.issue x body)
    (hb : body s (s.issueSlot x) = u.defineLaw s.cur (s.issueSlot x) k o.d d) (hd : lawBad (d 0) (d 1) (d 2) (d 3) = true) :
    Traps s (.lawset o) (trapOf 14 3) :=
  h.traps ho he (by rw [hb, State.defineLaw, if_pos hd])

/-- Any other descriptor defines its law, and the strand waits behind it. -/
theorem Calm.lawset_defines (h : Calm s) (hu : Quiet u s.cur) (ho : x.vregs.all (s.owns s.cur) = true)
    (he : exec (.lawset o) s = s.issue x body)
    (hb : body s (s.issueSlot x) = u.defineLaw s.cur (s.issueSlot x) k o.d d)
    (hd : ¬lawBad (d 0) (d 1) (d 2) (d 3) = true) :
    GivesSOn s ((u.putLaw k d).awaitLaw s.cur k) (.lawset o) x o.d (BitVec.ofNat 64 (lawOf (d 0) (d 1) (d 2)).2) := by
  have hq := hu.putLaw k d
  refine h.gives_on (hq.awaitLaw k) (lat := .variable) (n := s.issueSlot x) ho he ?_
  rw [hb, State.defineLaw, if_neg hd, hq.resultS_awaitLaw]
  rfl

end

theorem Calm.lawget {s : State} (h : Calm s) (o : R3) :
    GivesS s (.lawget o) (plain o.sc [.s o.a, .s o.b]) o.d
      ((s.dieLaw (dieOf s.cur.core) ((s.rs o.a).toNat % 256)).entry ((s.rs o.b).toNat % 64)) :=
  h.gives (plain_owned ..) (exec_lawget s o) rfl

/-- Where a law's entry is spread, every die's copy is the table's. -/
theorem State.dieLaw_of_lawSpread {s : State} {d k : Nat} (hd : d < 4) (h : s.lawSpread k = true) : s.dieLaw d k = s.law k := by
  rw [State.lawSpread, Bool.and_eq_true, List.all_eq_true] at h
  exact beq_iff_eq.mp (h.1 d (List.mem_range.mpr hd))

/-- Settles O27: a lawset's strand is still quiet behind the read of its descriptor, so its count of clamped rungs is a result
like any other. -/
theorem lawForms : Obligations.LawForms := by
  unfold Obligations.LawForms
  intro s o h w x n law defines k
  obtain ⟨body, he, htrap, hat, hout⟩ := lawset_issue s o
  have ho := plain_owned s o.sc [.s o.a, .s o.b]
  have accepts (u : State) (d : Nat → Word) (hu : Quiet u w)
      (hb : body s (s.issueSlot x) = u.defineLaw w (s.issueSlot x) n o.d d) (hd : ¬lawBad (d 0) (d 1) (d 2) (d 3) = true) :
      defines u d := h.lawset_defines hu ho he hb hd
  refine ⟨h.lawget o, fun y hr => ?_, fun l hr => ?_, fun hr => ?_, fun d k hd _ => State.dieLaw_of_lawSpread hd⟩
  · exact h.traps ho he (htrap _ y hr)
  · intro d kind bad
    have hbad : lawBad (d 0) (d 1) (d 2) (d 3) = true ↔ bad := lawBad_iff d
    have hq : Quiet (s.viewRead w l 32) w := (State.sameAgents_viewRead ..).quiet h.quiet
    exact ⟨fun hb => h.lawset_refuses ho he (hat _ l hr) (hbad.mpr hb),
      fun hb => accepts _ d hq (hat _ l hr) (mt hbad.mp hb)⟩
  · exact accepts _ (fun _ => 0) (h.quiet.offence ..) (hout _ hr) (by decide)

end Sys2Proof.Machine
end

section
/-!
PROOFS. The accumulator and cursor instructions (11): writes of accumulators, tile predicates and cursors that do not fail, the
bits of a tile with one quarter replaced, the interlock as a wait, and from these the statement.
-/
namespace Sys2Proof.Machine
open Sys2Proof

/-! ### Writes where no register fails (24 R390) -/

@[simp] theorem renewed_nil (g n : Nat) (whole : Nat → Bool) : renewed [] g n whole = [] := rfl

@[simp] theorem failingOf_nil (g n : Nat) (part : Nat → Bool) : failingOf [] g n part = none := rfl

/-- Where nothing fails, the write of an accumulator changes that accumulator alone. -/
theorem Core.putAccPart_of_sound {c : Core} (h : c.fails = []) (n : BitVec 2) (whole : Nat → Bool) (v : Tile) :
    c.putAccPart n whole v = { c with acc := c.acc.set n.toNat v n.isLt } := by
  rw [Core.putAccPart, h, renewed_nil, ← h]

/-- Where nothing fails, the write of a tile predicate changes its bits alone. -/
theorem Strand.putQ_of_sound {t : Strand} (h : t.fails = []) {n : BitVec 3} (hn : n ≠ 7#3) (x : Word) :
    t.putQ n x = { t with q := t.q.set n.toNat x n.isLt } := by
  rw [Strand.putQ, if_neg hn, h, renewed_nil, ← h]

theorem Strand.putCursor_of_ne {n : BitVec 3} (hn : n ≠ 7#3) (t : Strand) (x : BitVec 6) :
    t.putCursor n x = { t with cursor := t.cursor.set n.toNat x n.isLt } := if_neg hn

theorem Strand.putQ_of_eq {n : BitVec 3} (hn : n = 7#3) (t : Strand) (x : Word) : t.putQ n x = t := if_pos hn

theorem Strand.putCursor_of_eq {n : BitVec 3} (hn : n = 7#3) (t : Strand) (x : BitVec 6) : t.putCursor n x = t := if_pos hn

theorem Strand.getCursor_of_ne {n : BitVec 3} (hn : n ≠ 7#3) (t : Strand) :
    t.getCursor n = t.cursor[n.toNat]'n.isLt := if_neg hn

theorem Calm.accFail {s : State} (h : Calm s) (a : BitVec 2) (part : Nat → Bool) : s.accFail s.cur.core a part = none := by
  simp [State.accFail, h.coreSound]

theorem Calm.tileFail {s : State} (h : Calm s) (q : BitVec 3) : s.tileFail s.cur q = none := by
  simp [State.tileFail, h.sound]

/-! ### A quarter of a tile (11 R221) -/

/-- The bits of a quarter are those of the vector register, and the others stay. -/
theorem getLsbD_putQuarter (t : Tile) (g : Nat) (v : VReg) {k : Nat} (hk : k < 8192) :
    (putQuarter t g v).getLsbD k =
      if 2048 * g ≤ k ∧ k < 2048 * g + 2048 then v.getLsbD (k - 2048 * g) else t.getLsbD k := by
  simp only [putQuarter, BitVec.getLsbD_or, BitVec.getLsbD_and, BitVec.getLsbD_not, BitVec.getLsbD_shiftLeft,
    BitVec.getLsbD_setWidth, BitVec.getLsbD_allOnes, hk, show k - 2048 * g < 8192 by omega, decide_true, Bool.true_and]
  by_cases hlow : k < 2048 * g
  · simp [hlow]
  · by_cases hhigh : k - 2048 * g < 2048
    · simp [hlow, hhigh, show 2048 * g ≤ k ∧ k < 2048 * g + 2048 by omega]
    · simp [hlow, hhigh, show ¬(2048 * g ≤ k ∧ k < 2048 * g + 2048) by omega,
        BitVec.getLsbD_of_ge v _ (Nat.le_of_not_lt hhigh)]

/-! ### Clearing accumulators (11 R222) -/

/-- The masked ones of a list of accumulators, cleared in turn. -/
theorem Core.foldl_putAcc_zero (mask : BitVec 4) (l : List Nat) (hl : ∀ a ∈ l, a < 4) (c : Core) (hc : c.fails = []) :
    ∃ accs : Vector Tile 4,
      l.foldl (fun c a => if mask.getLsbD a then c.putAcc (BitVec.ofNat 2 a) 0 else c) c = { c with acc := accs } ∧
        ∀ k (h : k < 4), accs[k] = if k ∈ l ∧ mask.getLsbD k then 0 else c.acc[k] := by
  induction l generalizing c with
  | nil => exact ⟨c.acc, rfl, fun k h => by simp⟩
  | cons a l ih =>
    obtain ⟨ha, hl⟩ := List.forall_mem_cons.mp hl
    rw [List.foldl_cons]
    by_cases hm : mask.getLsbD a = true
    · rw [if_pos hm, Core.putAcc, Core.putAccPart_of_sound hc]
      obtain ⟨accs, he, hk⟩ := ih hl { c with acc := c.acc.set (BitVec.ofNat 2 a).toNat 0 (BitVec.ofNat 2 a).isLt } hc
      refine ⟨accs, he, fun k h => ?_⟩
      have hn : (BitVec.ofNat 2 a).toNat = a := Nat.mod_eq_of_lt ha
      rw [hk k h]
      obtain rfl | hka := eq_or_ne k a
      · simp only [hm, hn, Vector.getElem_set_self, List.mem_cons_self, and_self, if_true, ite_self]
      · simp only [hn, Vector.getElem_set_ne _ _ hka.symm, List.mem_cons, hka, false_or]
    · rw [if_neg hm]
      obtain ⟨accs, he, hk⟩ := ih hl c hc
      refine ⟨accs, he, fun k h => ?_⟩
      rw [hk k h]
      obtain rfl | hka := eq_or_ne k a
      · simp [hm]
      · simp only [List.mem_cons, hka, false_or]

/-! ### The interlock of the accumulators (11 R216) -/

section
variable {s : State} {core : Nat} {mask : BitVec 4}

theorem State.accWait_busy (h : s.accBusy core mask = true) (k : Res) :
    s.accWait core mask k = .wait (.retry (.accumulator mask)) := if_pos h

theorem State.accWait_idle (h : s.accBusy core mask = false) (k : Res) : s.accWait core mask k = k :=
  if_neg (by simp [h])

end

section
variable {s : State} {i : Instr} {x : Issue} {body : State → Nat → Res}

/-- An instruction whose body waits has no effect but the wait. -/
theorem Calm.waits (h : Calm s) {c : Cond} (ho : x.vregs.all (s.owns s.cur) = true) (he : exec i s = s.issue x body)
    (hb : body s (s.issueSlot x) = .wait (.retry c)) : Waits s i c := by
  rw [Waits, he, h.issue ho, hb]

/-- An instruction behind the interlock waits while a masked accumulator has a result to come. -/
theorem Calm.waits_accumulator (h : Calm s) {mask : BitVec 4} {k : Res} (he : exec i s = s.issue x body)
    (ho : x.vregs.all (s.owns s.cur) = true) (hb : body s (s.issueSlot x) = s.accWait s.cur.core mask k)
    (hbusy : s.accBusy s.cur.core mask = true) : Waits s i (.accumulator mask) :=
  h.waits ho he (hb.trans (State.accWait_busy hbusy k))

end

/-! ### The accumulator instructions (11 R221, R222) -/

section
variable {s : State}

theorem Calm.acget (h : Calm s) {o : Sys2Proof.Acc} (ho : Owned s [o.v]) (hi : s.accBusy s.cur.core (accMask o.acc) = false) :
    Gives s (.acget o) ⟨o.sc, [], [], some o.v, false, [], wholly⟩ (.v o.v)
      (((s.core s.cur.core).getAcc o.acc).extractLsb' (2048 * o.g.toNat) 2048) fullMask :=
  h.gives (lat := .variable) ho.all (exec_acget s o) (by simp only [State.accWait_idle hi, h.accFail]; rfl)

theorem Calm.acput (h : Calm s) {o : Sys2Proof.Acc} (ho : Owned s [o.v]) (hi : s.accBusy s.cur.core (accMask o.acc) = false) :
    Does s (.acput o) ⟨o.sc, [], [(o.v, false)], none, false, [], wholly⟩
      (s.setCore s.cur.core { s.core s.cur.core with
        acc := (s.core s.cur.core).acc.set o.acc.toNat
          (putQuarter ((s.core s.cur.core).getAcc o.acc) o.g.toNat (s.rv o.v)) o.acc.isLt }) :=
  h.does ho.all (exec_acput s o) (by
    rw [State.accWait_idle hi, h.readV, State.onCore, Core.putAccPart_of_sound h.coreSound])

theorem Calm.aczero (h : Calm s) {o : Az} (hi : s.accBusy s.cur.core o.mask = false) :
    ∃ accs : Vector Tile 4,
      Does s (.aczero o) (plain o.sc []) (s.setCore s.cur.core { s.core s.cur.core with acc := accs }) ∧
        ∀ k (hk : k < 4), accs[k] = if o.mask.getLsbD k then 0 else (s.core s.cur.core).acc[k] := by
  obtain ⟨accs, he, hk⟩ := Core.foldl_putAcc_zero o.mask (List.range 4) (fun _ => List.mem_range.mp) _ h.coreSound
  refine ⟨accs, h.does (plain_owned ..) (exec_aczero s o) ?_, fun k h4 => ?_⟩
  · rw [State.accWait_idle hi, State.onCore, he]
  · simp only [hk k h4, List.mem_range, h4, true_and]

/-! ### The cursor instructions (11 R223) -/

/-- The effect of an instruction on its strand, by what the update makes of the strand as it stands. -/
theorem Calm.does_onStrand (h : Calm s) {i : Instr} {sc : BitVec 2} {srcs : List Reg} {body : State → Nat → Res}
    {f g : Strand → Strand} (he : exec i s = s.issue (plain sc srcs) body)
    (hb : body s (s.issueSlot (plain sc srcs)) = .done (s.onStrand s.cur f))
    (hfg : f (s.strand s.cur) = g (s.strand s.cur)) : Does s i (plain sc srcs) (s.onStrand s.cur g) :=
  h.does (plain_owned ..) he (by rw [hb, State.onStrand_congr s s.cur hfg])

theorem Calm.qcurrd (h : Calm s) (o : QD) :
    GivesS s (.qcurrd o) (plain o.sc []) o.d (BitVec.ofNat 64
      (((s.strand s.cur).getCursor o.a).toNat + ((s.strand s.cur).tileBit o.a).toNat * 64)) :=
  h.gives (lat := .variable) (plain_owned ..) (exec_qcurrd s o) (by simp only [h.tileFail]; rfl)

theorem Calm.qmovToS (h : Calm s) (o : QD) :
    GivesS s (.qmovToS o) (plain o.sc []) o.d ((s.strand s.cur).getQ o.a) :=
  h.gives (lat := .variable) (plain_owned ..) (exec_qmovToS s o) (by simp only [h.tileFail]; rfl)

end

/-- A cursor advances modulo 64. -/
theorem cursor_advance (k : BitVec 6) (n : BitVec 4) : k + n.setWidth 6 + 1 = BitVec.ofNat 6 ((k.toNat + n.toNat + 1) % 64) := by
  bv_omega

/-- Settles O28: behind the interlock each instruction has one write as its effect, and where nothing fails that write changes
one field. -/
theorem accumulatorForms : Obligations.AccumulatorForms := by
  unfold Obligations.AccumulatorForms
  intro s h c bit waits
  refine ⟨fun o ho => ?_, fun o => ?_, fun o => ?_, fun o => ?_, fun o => ?_⟩
  · intro lo
    exact ⟨h.waits_accumulator (exec_acget s o) ho.all rfl, h.waits_accumulator (exec_acput s o) ho.all rfl,
      fun hi => ⟨h.acget ho hi, _, h.acput ho hi, fun k hk => getLsbD_putQuarter _ _ _ hk⟩⟩
  · exact ⟨h.waits_accumulator (exec_aczero s o) (plain_owned ..) rfl, h.aczero⟩
  · intro x
    have hc {g : Strand → Strand} := h.does_onStrand (g := g) (exec_qcur s o) rfl
    have hq {g : Strand → Strand} := h.does_onStrand (g := g) (exec_qmovToQ s o) rfl
    exact ⟨fun hd => ⟨hc (Strand.putCursor_of_ne hd ..), hq (Strand.putQ_of_sound h.sound hd _)⟩,
      fun hd => ⟨hc (Strand.putCursor_of_eq hd ..), hq (Strand.putQ_of_eq hd ..)⟩⟩
  · intro q k
    have hbit : ((s.strand s.cur).tileBit o.a).toNat * 64 = if q.getLsbD k then 64 else 0 := by
      rw [Strand.tileBit, Bool.toNat, Bool.cond_eq_ite, ite_mul, Nat.one_mul, Nat.zero_mul]
    exact ⟨hbit ▸ h.qcurrd o, h.qmovToS o⟩
  · intro k
    have ha {g : Strand → Strand} := h.does_onStrand (g := g) (exec_qadv s o) rfl
    refine ⟨fun hd => ha ?_, fun hd => ha (Strand.putCursor_of_eq hd ..)⟩
    rw [Strand.putCursor_of_ne hd, Strand.getCursor_of_ne hd, cursor_advance]

end Sys2Proof.Machine
end
